-- ==== Sys2Proof/Word.lean ====
section
/-! DEFINITION. The byte and the text, the two carriers of everything the Jescal 2410 receives and sends.
Numbers the manual reckons with (amounts, counts, positions, ticks) are plain `Nat` or `Int`: the manual computes
every product and quotient exactly (00_scope.md, 1.5). -/

namespace Sys2Proof

/-- One byte of a frame, a payload or a record (R201). A character is a byte too. -/
abbrev Byte := BitVec 8

/-- A run of characters, one byte each (R201). -/
abbrev Text := List Byte

end Sys2Proof
end

