-- ==== Sys2Proof/Syntax.lean ====
section
/-! DEFINITION. The commands of the 2410: one constructor for each row of spec/opcode_table.json, in the table's
order, with the operands the row's event carries. A command is one whole step of the part (95_what_each_step_holds.md).

Office-link commands that the port has accepted carry the frame's tag and its payload bytes after the request code.
Station-line commands carry the frame's address, and for a message or reply its unit and sequence.
`badFrame`, `lineFrameDiscarded`, `inboundFrameRejected` and `surveyProbeBadReply` carry the bytes as received,
check code included. -/

namespace Sys2Proof

/-- The content of a REQUEST message (Formats and Check Codes, REQUEST message payload): a breakdown is a list of
(denomination position, count) pairs, and an account of length 0 is absent (R201). -/
structure Request where
  code    : Nat
  cur     : Nat
  amount  : Nat
  account : Option Text
  bReq    : Option (List (Nat × Nat))
  bHome   : Option (List (Nat × Nat))
deriving DecidableEq, Repr

inductive Instr where
  /-- Release of RSTN with the strap levels and RETV as they stand then (R21, R2). -/
  | powerOn (straps : Nat) (retv : Bool)
  /-- Bytes between two frame boundaries of the office link (R1). -/
  | badFrame (frame : List Byte)
  /-- A frame that passed R1, for the node filter (R2): kind byte, node byte, tag, payload. -/
  | wrongNodeFrame (kind node tag : Nat) (payload : List Byte)
  | olrdyAsserted
  | olrdyDeasserted
  | frameSent
  | reversalNoticeQueued (index : Nat)
  | grantedRequestQueued (index : Nat)
  | owedNoticeQueued (pos : Nat)
  | sendWindow
  | answer (tag : Nat) (payload : List Byte)
  | batchAck (block : Nat)
  | batchNack (block : Nat)
  | identify (tag : Nat) (params : List Byte)
  | readStatus (tag : Nat) (params : List Byte)
  | readCounters (tag : Nat) (params : List Byte)
  | tableWrite (tag : Nat) (params : List Byte)
  | tableRead (tag : Nat) (params : List Byte)
  | lock (tag : Nat) (params : List Byte)
  | openDay (tag : Nat) (params : List Byte)
  | cutoff (tag : Nat) (params : List Byte)
  | reopenDay (tag : Nat) (params : List Byte)
  | resumeBatch (tag : Nat) (params : List Byte)
  | readDrawer (tag : Nat) (params : List Byte)
  | readSession (tag : Nat) (params : List Byte)
  | readPending (tag : Nat) (params : List Byte)
  | readJournal (tag : Nat) (params : List Byte)
  | startSurvey (tag : Nat) (params : List Byte)
  | readSurveyPosition (tag : Nat) (params : List Byte)
  | readSurveySummary (tag : Nat) (params : List Byte)
  /-- RESTART, with the strap levels as they stand when the start is taken (R12, R2). -/
  | restart (tag : Nat) (params : List Byte) (straps : Nat)
  /-- A management request whose code is none of the 2410's (R7). -/
  | unknown (code : Byte) (tag : Nat) (params : List Byte)
  | rollCallTimerExpiry
  | grant
  /-- presence and attention are the bitmaps of the answer: unit u is bit u (R201). -/
  | rollAnswer (pos presence attention : Nat)
  | unitReplyWaitExpiry
  | accept (pos unit seq : Nat)
  | reject (pos unit seq : Nat)
  | busy (pos unit seq : Nat)
  | echo (pos unit : Nat) (pattern : List Byte)
  | lineFrameDiscarded (frame : List Byte)
  | inboundFrameRejected (frame : List Byte)
  | repeatMessage (pos unit kind seq : Nat) (payload : List Byte)
  | lineBadMessage (pos unit kind seq : Nat) (payload : List Byte)
  | outboundQueueRoom (pos unit : Nat)
  | signOn (pos seq teller : Nat)
  | signOff (pos seq : Nat)
  | suspend (pos seq : Nat)
  | resume (pos seq teller : Nat)
  | request (pos seq : Nat) (r : Request)
  | cancel (pos seq : Nat)
  /-- decision as the byte received: 1 is GRANT, 2 is REFUSE (R201). -/
  | override (pos seq tag decision : Nat)
  | count (pos seq drawer : Nat) (lists : List (List Nat))
  | acceptDiff (pos seq drawer : Nat) (lists : List (List Nat))
  | reopen (pos seq drawer : Nat)
  | form (pos seq form : Nat)
  | close (pos seq : Nat)
  | bookIn (pos seq : Nat) (account : Text) (layout page line : Nat)
  | bookOut (pos seq : Nat)
  | statusReady (pos seq : Nat)
  | lineDone (pos seq : Nat)
  | turned (pos seq : Nat)
  | jam (pos seq : Nat)
  | jamCleared (pos seq : Nat)
  | opened (pos seq : Nat)
  | closed (pos seq : Nat)
  | fault (pos seq : Nat)
  | approvalWaitExpiry (index : Nat)
  | overrideWaitExpiry (index : Nat)
  | openAlarmExpiry (drawer : Nat)
  | pacingTimerExpiry (pos : Nat)
  | lineCompletionWaitExpiry (pos : Nat)
  | bookWaitExpiry (pos : Nat)
  | ackWaitExpiry
  | dayClockTick
  | surveyProbeBadReply (frame : List Byte)
  | lineSilent
deriving DecidableEq, Repr

end Sys2Proof
end

