-- ==== Sys2Proof/Decode.lean ====
section
/-! DEFINITION. `decodeTableWord`: the command that a word spells by the bits of spec/opcode_table.json. No row of
this block's table gives bits (its 77 rows are events: "fields" is empty in every row), so no word spells a command.
How the bytes of an arriving frame become a command is modelled in Machine/Operands.lean and Machine/Receive.lean. -/

namespace Sys2Proof

/-- The rows of the table give no bits, so a word of any size spells no command. -/
def decodeTableWord (_nbits _w : Nat) : Option Instr := none

end Sys2Proof
end

