-- ==== Sys2Proof/Config.lean ====
section
/-! DEFINITION. What the manual fixes for every 2410 (capacities and identity codes), and the one free value: a byte
whose value the manual leaves unstated. -/

namespace Sys2Proof.Config

/-- The upstream queue holds up to 64 frames (R5). -/
def upstreamCapacity : Nat := 64
/-- Each unit's outbound queue holds up to 4 messages (R34). -/
def outboundCapacity : Nat := 4
/-- The journal memory has 16,384 record places (R172). -/
def journalCapacity : Nat := 16384
/-- The closing reserve (R176). -/
def closingReserve : Nat := 64
/-- The used count from which the journal is nearly full (R180). -/
def nearlyFull : Nat := 15360
/-- Counters are 16 bits wide and stop at 65,535 (R9). -/
def counterMax : Nat := 65535
/-- The largest magnitude of an amount (1.5, R60). -/
def amountMax : Nat := 999999999999
/-- The day clock stops here (R174). -/
def dayClockMax : Nat := 16777215
/-- The send window (R193). -/
def window : Nat := 4
/-- The consecutive expiries that hold the batch (R196). -/
def heldAfter : Nat := 8
/-- Vendor code, part code and revision code of IDENTIFY (R9). -/
def vendorCode : Nat := 23
def partCode : Nat := 2410
def revisionCode : Nat := 3

/-- FREE VALUE (notes/assumptions/1.md): a byte the 2410 sends whose value the manual does not state. The n-th draw
is `freeByte n`; nothing is known of it. Used for the sequence field of a REJECT that answers a frame carrying no
message sequence (R39, R24) and for the request code echoed to a MGMT frame without payload (R7). -/
opaque freeByte : Nat → Byte

end Sys2Proof.Config
end

