-- ==== Sys2Proof/Machine/State.lean ====
section
/-! DEFINITION. The state of the 2410 as plain data, block by block (00_scope.md, 1.2), the reasons a step can stop,
and the state after reset (the cold start of R22, R48, R66, R89, R112, R151, R171, R183, R200).

A timer is `none` when stopped and `some n` with n ticks remaining. A set is a list of its members in ascending order.
Banks indexed by position hold position p at place p − 1; drawers, entries and table indices from 0 stand at their own
number. -/

namespace Sys2Proof.Machine

/-! ### Table entries (01, Section contents) -/

inductive Role where
  | clerk | senior | supervisor
deriving DecidableEq, Repr

/-- The transaction classes, in code order (R201 enumeration table). -/
inductive TxClass where
  | deposit | withdrawal | exchangeBuy | exchangeSell | nonCash | inquiry
  | transferIn | transferOut | delivery | shipment
deriving DecidableEq, Repr

/-- LOCAL or CENTRAL authorisation. -/
inductive Authorisation where
  | branch | central
deriving DecidableEq, Repr

inductive BreakdownRule where
  | never | required | optional
deriving DecidableEq, Repr

inductive WindowCondition where
  | override | alert | either
deriving DecidableEq, Repr

inductive Format where
  | left | right | grouped | ungrouped
deriving DecidableEq, Repr

/-- The twenty-one field sources, in the order of R136. -/
inductive Source where
  | text (i : Nat) | position | tellerId | businessDate | dayState
  | drawerValue (c : Nat) | drawerAvailable (c : Nat) | drawerCount (c d : Nat)
  | txnCode | txnCurrency | txnAmount | txnEquiv | txnAccount | txnState
  | balance | message | overrideCount | overridePosition | overrideAmount | overrideTag | printState
deriving DecidableEq, Repr

/-- PARAMS: the eleven timing values (R17), in ticks but for the retry count. -/
structure Params where
  rollCall : Nat
  unitReply : Nat
  retries : Nat
  approval : Nat
  overrideWait : Nat
  openAlarm : Nat
  pacing : Nat
  lineCompletion : Nat
  bookWait : Nat
  batchAck : Nat
  surveySlow : Nat
deriving DecidableEq, Repr

structure PositionEntry where
  units : List Nat
  pair : Bool
  defaultForm : Nat
  forms : List Nat
deriving DecidableEq, Repr

structure CurrencyEntry where
  letters : Text
  exponent : Nat
  faces : List Nat
  tolerance : Nat
  ceiling : Nat
deriving DecidableEq, Repr

structure RateEntry where
  buy : Nat
  sell : Nat
deriving DecidableEq, Repr

/-- A CODES entry; answerForm none is KEEP. -/
structure CodeEntry where
  code : Nat
  mnemonic : Text
  cls : TxClass
  auth : Authorisation
  allowed : List Nat
  rule : BreakdownRule
  print : Bool
  minRole : Role
  limitClass : Nat
  answerForm : Option Nat
deriving DecidableEq, Repr

structure TellerEntry where
  id : Nat
  role : Role
  limits : List Nat
  overrideLimit : Nat
deriving DecidableEq, Repr

/-- A run of FIELDS entries: first index and count. -/
structure FieldRun where
  first : Nat
  count : Nat
deriving DecidableEq, Repr

/-- A row-table entry: useB is the set bit (true for set B). -/
structure RowEntry where
  useB : Bool
  base : Nat
  delta : Nat
deriving DecidableEq, Repr

structure FormEntry where
  mode : Nat
  winFirst : Nat
  winLast : Nat
  winCond : WindowCondition
  setA : FieldRun
  setB : FieldRun
  rows : List RowEntry
  selectable : Bool
deriving DecidableEq, Repr

structure FieldEntry where
  row : Nat
  col : Nat
  width : Nat
  attr : Nat
  source : Source
  format : Format
deriving DecidableEq, Repr

structure Column where
  col : Nat
  width : Nat
deriving DecidableEq, Repr

structure LayoutEntry where
  lines : Nat
  pages : Nat
  autoTurn : Bool
  date : Column
  mnemonic : Column
  debit : Column
  credit : Column
  balance : Column
deriving DecidableEq, Repr

/-- The table store: eleven sections and the survey mask. An undefined entry is `none`. -/
structure Tables where
  params : Params
  positions : Vector (Option PositionEntry) 24
  currencies : Vector (Option CurrencyEntry) 4
  rates : Vector (Option RateEntry) 3
  codes : Vector (Option CodeEntry) 128
  tellers : Vector (Option TellerEntry) 64
  forms : Vector (Option FormEntry) 32
  fields : Vector (Option FieldEntry) 512
  texts : Vector (Option Text) 128
  messages : Vector (Option Text) 64
  layouts : Vector (Option LayoutEntry) 8
  surveyMask : List Nat
deriving DecidableEq, Repr

/-! ### Outcomes (R138) -/

/-- The forty outcomes, in the order of R138; DECLINED carries its reason. -/
inductive Shown where
  | approved | declined (reason : Nat) | noAnswer | cancelled | needsOverride | overrideRefused | noOverride
  | notLive | notSignedOn | suspended | busy | codeUnknown | role | dayClosed | currency | rateMissing | amount
  | breakdownMismatch | quote | drawerState | drawerOpen | noCash | noChange | drawerFull | journalFull | tableFull
  | linkBusy | overLimit | tooLate | notPrinted | turnPage | bookMismatch | bookFull | printerJam | printerFault
  | printedOk | balanced | outOfBalance | awaitingAccept | drawerNotReleased
deriving DecidableEq, Repr

/-! ### The journal (R172, R173) -/

/-- A nonzero-count list of (denomination position, count) pairs in ascending position. -/
abbrev Counts := List (Nat × Nat)

inductive ExpiryReason where
  | timeout | cancelled | restart
deriving DecidableEq, Repr

inductive ProofResult where
  | balanced | accepted | reopened
deriving DecidableEq, Repr

inductive SignOffCause where
  | teller | closing
deriving DecidableEq, Repr

/-- The exchange figures of a request: the rate R, E, C and the residue E − C (R104). -/
structure Exchange where
  rate : Nat
  equiv : Nat
  cash : Nat
  residue : Int
deriving DecidableEq, Repr

/-- The thirteen settlement figures of one currency, in the order of R126. -/
structure Figures where
  opening : Int
  deposits : Int
  withdrawals : Int
  exchangeIn : Int
  exchangeOut : Int
  homeIn : Int
  homeOut : Int
  residue : Int
  deliveries : Int
  shipments : Int
  overShort : Int
  closing : Int
  records : Int
deriving DecidableEq, Repr

/-- The body of a POST record (R173). -/
structure PostBody where
  pos : Nat
  teller : Nat
  drawer : Option Nat
  code : Nat
  mnemonic : Text
  cls : TxClass
  cur : Nat
  amount : Nat
  exch : Option Exchange
  tag : Option Nat
  account : Option Text
  reqList : Counts
  homeList : Counts
deriving DecidableEq, Repr

/-- The twelve record kinds with their further fields (R173), in code order. -/
inductive Body where
  | opened (date : Text)
  | post (p : PostBody)
  | expired (pos teller code cur amount tag : Nat) (account : Option Text) (reason : ExpiryReason)
  | override (pos supervisor code cur amount tag : Nat)
  | signOn (pos teller : Nat)
  | signOff (pos teller : Nat) (cause : SignOffCause)
  | proof (pos teller drawer : Nat) (result : ProofResult) (diffs : List Int)
  | forcedOpen (drawer pos openings : Nat)
  | cutoff (pos teller : Option Nat)
  | reopenDay
  | restart
  | settlement (figures : List Figures) (lastSeq : Nat)
deriving DecidableEq, Repr

/-- A journal record: its seq, the day clock when it was appended, and its body. -/
structure Record where
  seq : Nat
  clock : Nat
  body : Body
deriving DecidableEq, Repr

/-- The journal unit: the records in seq order (the used count is their number), the sum of claims, and whether the
journal is closed (R172, R175, R179). -/
structure Journal where
  records : List Record
  claims : Nat
  closed : Bool
deriving DecidableEq, Repr

/-! ### The day record (R184) -/

inductive DayState where
  | noDay | opened | cutoff | sending | held | sent
deriving DecidableEq, Repr

/-- One block of the batch: its first seq and its record count (R192). -/
structure Block where
  first : Nat
  count : Nat
deriving DecidableEq, Repr

/-- The day record. `phase` counts the ticks, 0 to 99, since the day clock last rose (R174); N is the number of blocks.
acked, sent, highest and expiries are a, s, h and e of R184. -/
structure Day where
  state : DayState
  date : Option Text
  clock : Nat
  running : Bool
  phase : Nat
  settlement : List Figures
  lastSeq : Nat
  blocks : List Block
  acked : Nat
  sent : Nat
  highest : Nat
  expiries : Nat
  ackTimer : Option Nat
deriving DecidableEq, Repr

/-! ### Upward frames (01, Frames on the office link; 11, Central payloads) -/

inductive AlarmKind where
  | ceiling | openLong | forcedOpen | journalNearlyFull | batchHeld | unitLost
deriving DecidableEq, Repr

/-- DONE and the eight refusal codes, in code order from 0. -/
inductive MgmtOutcome where
  | done | unknown | badSection | badIndex | badContent | locked | inUse | state | busy
deriving DecidableEq, Repr

inductive SurveyState where
  | idle | running | done
deriving DecidableEq, Repr

/-- The status summary (R8). -/
structure Summary where
  lock : Nat
  live : Bool
  held : Bool
  nearlyFull : Bool
  inReserve : Bool
  prevFailed : Bool
  day : DayState
  survey : SurveyState
  pendingCount : Nat
  freeSlots : Nat
deriving DecidableEq, Repr

/-- The content of a REQUEST frame to the centre (R71). -/
structure CentreRequest where
  tag : Nat
  pos : Nat
  teller : Nat
  code : Nat
  cls : TxClass
  cur : Nat
  amount : Nat
  equiv : Nat
  exch : Option Exchange
  account : Option Text
  reqList : Counts
  homeList : Counts
deriving DecidableEq, Repr

/-- A MGMT_REPLY: the request code and tag, the outcome, the refusal detail (check, section, index), the status
summary and the reply data (R7, R8). -/
structure Reply where
  code : Byte
  tag : Nat
  outcome : MgmtOutcome
  check : Nat
  section_ : Nat
  index : Nat
  summary : Summary
  data : List Byte
deriving DecidableEq, Repr

/-- The upward frames: REQUEST, the four notices, MGMT_REPLY and BATCH_BLOCK. -/
inductive UpFrame where
  | request (r : CentreRequest)
  | reversal (tag : Nat) (reason : ExpiryReason)
  | printed (account : Text) (item : Nat)
  | alarm (kind : AlarmKind) (subject : Nat)
  | day (state : DayState) (date : Option Text)
  | reply (r : Reply)
  | block (number total : Nat) (records : List Record)
deriving DecidableEq, Repr

/-- The office link port (R2, R4, R5): the node number taken at the last start, the strap levels and RETV as sampled
at the last start, the link-ready input, whether the head of the upstream queue is being transmitted, the upstream
queue, the bytes of a frame partly received, the previous-frame-failed flag, and, the MODEL's own record of what the
part has sent, every frame wholly transmitted, oldest first. -/
structure Port where
  node : Nat
  straps : Nat
  retv : Bool
  olrdy : Bool
  transmitting : Bool
  queue : List UpFrame
  received : List Byte
  prevFailed : Bool
  sent : List UpFrame
deriving DecidableEq, Repr

/-- The eleven counters, in the order of R9. -/
structure Counters where
  linkBadFrame : Nat
  linkWrongNode : Nat
  lateAnswer : Nat
  noticeLost : Nat
  lineBadFrame : Nat
  lineRetry : Nat
  unitLost : Nat
  lineBadMessage : Nat
  refused : Nat
  batchResend : Nat
  batchAckIgnored : Nat
deriving DecidableEq, Repr

/-! ### The station line (02) -/

/-- One cell of a screen row: a character and an attribute. -/
structure Cell where
  char : Byte
  attr : Nat
deriving DecidableEq, Repr

/-- The messages the 2410 sends to units. `lost` marks a LINE or TURN whose job has counted it lost while it still
waits in the outbound queue (R160, R164). -/
inductive OutMsg where
  | clear
  | row (r : Nat) (cells : List Cell)
  | line (page line : Nat) (chars : Text) (lost : Bool)
  | turn (lost : Bool)
  | eject
  | statusRequest
  | release
deriving DecidableEq, Repr

/-- The requester classes in priority order (R41). -/
inductive LineClass where
  | urgent | rollCall | service | print | refresh | survey
deriving DecidableEq, Repr

structure Queued where
  msg : OutMsg
  cls : LineClass
deriving DecidableEq, Repr

inductive Presence where
  | unknown | present | absent
deriving DecidableEq, Repr

/-- What the engine keeps per unit (R27). -/
structure UnitRec where
  presence : Presence
  attention : Bool
  queue : List Queued
  outSeq : Nat
  lastIn : Option Nat
deriving DecidableEq, Repr

/-- One position record (R27): the missed count and the three units. -/
structure PosRec where
  missed : Nat
  units : Vector UnitRec 3
deriving DecidableEq, Repr

/-- A transfer in progress: the unit, the retries made, and the transfer-retries count taken when it began (R36). -/
structure Transfer where
  pos : Nat
  unit : Nat
  made : Nat
  limit : Nat
deriving DecidableEq, Repr

inductive ProbeKind where
  | presence
  | echo (unit k : Nat)
deriving DecidableEq, Repr

/-- The line engine's states (R26). In ROLL_CALL the slots still to close stand in order, the open one first.
WAIT_REPLY is entered for an outbound message or for a survey probe; a probe whose survey was stopped is discarded
(R47). -/
inductive Engine where
  | idle
  | rollCall (slots : List Nat)
  | selectedReceive (x : Transfer)
  | selectedSend (x : Transfer)
  | waitReply (x : Transfer)
  | waitProbe (pos : Nat) (kind : ProbeKind) (discarded : Bool)
deriving DecidableEq, Repr

inductive ReplyKind where
  | accept | reject | busy
deriving DecidableEq, Repr

/-- The frames the 2410 sends on the station line (R23, R24). -/
inductive LineFrame where
  | rollCallAll (polled : List Nat)
  | rollCallAt (pos : Nat)
  | selectSend (pos unit : Nat)
  | selectReceive (pos unit : Nat)
  | unselect
  | echo (pos unit : Nat) (pattern : List Byte)
  | message (pos unit seq : Nat) (msg : OutMsg)
  | reply (kind : ReplyKind) (pos unit seq : Nat)
deriving DecidableEq, Repr

/-- The line engine and the arbiter (R26 to R28, R42, R203). `discarding` is set while bytes are discarded until the
line is silent. `sent` is the MODEL's own record of the frames sent on the line, oldest first. -/
structure Line where
  engine : Engine
  replyWait : Option Nat
  rollTimer : Option Nat
  rollWaiting : Bool
  discarding : Bool
  recs : Vector PosRec 24
  grantCount : Nat
  lastUrgent : Option (Nat × Nat)
  lastService : Option (Nat × Nat)
  lastPrint : Option (Nat × Nat)
  lastRefresh : Option (Nat × Nat)
  sent : List LineFrame
deriving DecidableEq, Repr

inductive SurveyMode where
  | presence | echo
deriving DecidableEq, Repr

/-- The survey fault codes, in code order (R46, R201). -/
inductive SurveyFault where
  | ok | slow | unitMissing | wrongAddress | badCheck | noAnswer
deriving DecidableEq, Repr

structure SurveyResult where
  valid : Bool
  fault : SurveyFault
  min : Nat
  max : Nat
deriving DecidableEq, Repr

/-- What the probes of the current position have shown so far (R46). -/
structure SurveyMarks where
  noAnswer : Bool
  badCheck : Bool
  wrongAddress : Bool
  unitMissing : Bool
deriving DecidableEq, Repr

/-- The line survey (R44 to R47): its state, mode and list; the positions not yet completed, the current one first;
the probes still to send to the current position; the installed set read when its presence probe was sent; the ticks
since the probe on the line was sent; the marks of the current position; every position's result; the summary. -/
structure Survey where
  state : SurveyState
  mode : SurveyMode
  list : List Nat
  rest : List Nat
  probes : List ProbeKind
  installed : List Nat
  elapsed : Nat
  marks : SurveyMarks
  results : Vector SurveyResult 24
  min : Nat
  max : Nat
  validCount : Nat
  faultCount : Nat
deriving DecidableEq, Repr

/-! ### Sessions, entries and drawers (03, 04, 05) -/

inductive SessionState where
  | signedOff | signedOn | suspended
deriving DecidableEq, Repr

structure Session where
  state : SessionState
  teller : Option Nat
  role : Option Role
deriving DecidableEq, Repr

/-- A reservation item (R68): out is the direction OUT. -/
structure Item where
  drawer : Nat
  cur : Nat
  den : Nat
  count : Nat
  out : Bool
deriving DecidableEq, Repr

/-- The code snapshot captured at acceptance (R64, R68). -/
structure Snapshot where
  code : Nat
  cls : TxClass
  auth : Authorisation
  print : Bool
  target : List Nat
  mnemonic : Text
  answerForm : Option Nat
deriving DecidableEq, Repr

inductive EntryState where
  | waitingOverride | waitingCentre | reversing
deriving DecidableEq, Repr

/-- The fields of a request captured at acceptance (R64, R68). E is absent for INQUIRY. `rate` is the rate read for E,
absent when the class reads none (R91). `own` is the own drawer of the requesting position at acceptance. -/
structure Captured where
  pos : Nat
  teller : Nat
  snap : Snapshot
  own : Nat
  cur : Nat
  amount : Nat
  equiv : Option Nat
  rate : Option Nat
  exch : Option Exchange
  items : List Item
  reqList : Counts
  homeList : Counts
  account : Option Text
deriving DecidableEq, Repr

/-- An in-use entry of the pending request table (R68). -/
structure Entry where
  tag : Nat
  state : EntryState
  granted : Bool
  req : Captured
  claim : Nat
  timer : Option Nat
  reason : Option ExpiryReason
deriving DecidableEq, Repr

inductive DrawerState where
  | active | outOfBalance | awaitingAccept | balanced
deriving DecidableEq, Repr

inductive Physical where
  | closed | opened | unknown
deriving DecidableEq, Repr

/-- Counts per currency 0 to 3 and denomination position 1 to 12. -/
abbrev CountTable := Vector (Vector Nat 12) 4

/-- A drawer record (R92). -/
structure Drawer where
  book : CountTable
  reserved : CountTable
  incoming : CountTable
  opening : Vector Nat 4
  state : DrawerState
  recount : Nat
  physical : Physical
  releasePending : Bool
  releaseDelivered : Bool
  openAlarm : Option Nat
  ceiling : Bool
  openLong : Bool
  forced : Bool
  openings : Nat
  postedToday : Bool
deriving DecidableEq, Repr

/-! ### Screens and printers (07, 08) -/

/-- The state message of the view: the wait words WAITING and QUEUED, or an outcome (R137). -/
inductive StateMsg where
  | waiting | queued | shown (o : Shown)
deriving DecidableEq, Repr

/-- The current-transaction view (R137). -/
structure View where
  code : Option Nat
  mnemonic : Option Text
  cur : Option Nat
  amount : Option Nat
  equiv : Option Nat
  account : Option Text
  stateMsg : Option StateMsg
  balance : Option Int
deriving DecidableEq, Repr

/-- One screen state (R130). -/
structure Screen where
  form : Nat
  alert : Bool
  override : Bool
  dirty : List Nat
  urgent : Bool
  clearPending : Bool
  blankKnown : List Nat
  view : View
  last : Option Shown
deriving DecidableEq, Repr

inductive PrinterState where
  | absent | noBook | ready | printing | waitBook | jammed | fault
deriving DecidableEq, Repr

/-- The book held by a printer (R153). -/
structure Book where
  account : Text
  layout : Nat
  page : Nat
  line : Nat
deriving DecidableEq, Repr

/-- One print line of the line store (R157). -/
structure PrintLine where
  item : Nat
  date : Text
  mnemonic : Text
  amount : Int
  balance : Option Int
deriving DecidableEq, Repr

/-- A job (R157). `layout` is the layout kind of the job's book, which R156 compares. `next` is the next-to-send place,
counted from 1. -/
structure Job where
  account : Text
  layout : Nat
  lines : List Nat
  next : Nat
  confirmed : Nat
  page : Nat
  line : Nat
  owed : Option Nat
  pacing : Option Nat
  bookWait : Option Nat
deriving DecidableEq, Repr

/-- The LINE or TURN a printer has in flight, and whether the line engine has reported it delivered (R160, R164). -/
inductive Flight where
  | none | line (delivered : Bool) | turn (delivered : Bool)
deriving DecidableEq, Repr

/-- A printer record (R153), with the line completion wait, the LINE or TURN in flight, and the messages whose offer
was refused as full (R170). -/
structure Printer where
  state : PrinterState
  book : Option Book
  job : Option Job
  carried : Option (Text × Nat)
  flight : Flight
  lineWait : Option Nat
  kept : List OutMsg
deriving DecidableEq, Repr

/-! ### The whole state -/

/-- The 2410. `commands waiting` is `pending`, first in first out; `freeDraws` is the MODEL's own counter of free
values drawn (notes/assumptions/1.md). -/
structure State where
  port : Port
  counters : Counters
  lock : Nat
  tables : Tables
  line : Line
  survey : Survey
  sessions : Vector Session 24
  entries : Vector (Option Entry) 32
  tagCounter : Nat
  overrides : List Nat
  drawers : Vector Drawer 25
  screens : Vector Screen 24
  printers : Vector Printer 24
  store : Vector (Option PrintLine) 256
  journal : Journal
  day : Day
  freeDraws : Nat
  pending : List Instr
deriving DecidableEq, Repr

/-- Why the part could stop with a fault. No rule of the manual stops the 2410, and no meaning of this model answers
with a fault; the one constructor is never raised (safe: it can make no false claim provable). -/
inductive Fault where
  /-- Raised by nothing. Safe. -/
  | never
deriving DecidableEq, Repr

/-- Why a command could be refused by the model. -/
inductive Refusal where
  /-- Raised by an arm of exec for a row that has no meaning yet; no arm of this model raises it. Safe. -/
  | notModelled (mnemonic : String)
deriving DecidableEq, Repr

/-! ### Cold start values -/

/-- PARAMS at its defaults (01, PARAMS). -/
def Params.defaults : Params :=
  { rollCall := 10, unitReply := 3, retries := 2, approval := 2000, overrideWait := 6000, openAlarm := 3000,
    pacing := 8, lineCompletion := 300, bookWait := 12000, batchAck := 3000, surveySlow := 2 }

/-- Every entry undefined, PARAMS at defaults, SURVEY_MASK empty (R22). -/
def Tables.cold : Tables :=
  { params := Params.defaults
    positions := Vector.replicate 24 none
    currencies := Vector.replicate 4 none
    rates := Vector.replicate 3 none
    codes := Vector.replicate 128 none
    tellers := Vector.replicate 64 none
    forms := Vector.replicate 32 none
    fields := Vector.replicate 512 none
    texts := Vector.replicate 128 none
    messages := Vector.replicate 64 none
    layouts := Vector.replicate 8 none
    surveyMask := [] }

def Counters.zero : Counters :=
  { linkBadFrame := 0, linkWrongNode := 0, lateAnswer := 0, noticeLost := 0, lineBadFrame := 0, lineRetry := 0,
    unitLost := 0, lineBadMessage := 0, refused := 0, batchResend := 0, batchAckIgnored := 0 }

/-- A unit of which no roll call has answered since the start (R27, R48). -/
def UnitRec.start : UnitRec :=
  { presence := .unknown, attention := false, queue := [], outSeq := 0, lastIn := none }

def PosRec.start : PosRec := { missed := 0, units := Vector.replicate 3 UnitRec.start }

/-- The engine after either start (R48), with the record of frames sent so far. -/
def Line.start (sent : List LineFrame) : Line :=
  { engine := .idle, replyWait := none, rollTimer := none, rollWaiting := true, discarding := false,
    recs := Vector.replicate 24 PosRec.start, grantCount := 0, lastUrgent := none, lastService := none,
    lastPrint := none, lastRefresh := none, sent := sent }

def SurveyResult.invalid : SurveyResult := { valid := false, fault := .ok, min := 255, max := 0 }

def SurveyMarks.clear : SurveyMarks :=
  { noAnswer := false, badCheck := false, wrongAddress := false, unitMissing := false }

/-- The survey after either start (R48). -/
def Survey.start : Survey :=
  { state := .idle, mode := .presence, list := [], rest := [], probes := [], installed := [], elapsed := 0,
    marks := SurveyMarks.clear, results := Vector.replicate 24 SurveyResult.invalid, min := 255, max := 0,
    validCount := 0, faultCount := 0 }

/-- SIGNED_OFF with teller id and role absent (R66). -/
def Session.off : Session := { state := .signedOff, teller := none, role := none }

def CountTable.zero : CountTable := Vector.replicate 4 (Vector.replicate 12 0)

/-- A drawer after a cold start (R112). -/
def Drawer.cold : Drawer :=
  { book := CountTable.zero, reserved := CountTable.zero, incoming := CountTable.zero,
    opening := Vector.replicate 4 0, state := .active, recount := 0, physical := .closed, releasePending := false,
    releaseDelivered := false, openAlarm := none, ceiling := false, openLong := false, forced := false,
    openings := 0, postedToday := false }

def View.empty : View :=
  { code := none, mnemonic := none, cur := none, amount := none, equiv := none, account := none, stateMsg := none,
    balance := none }

/-- A screen after a start, with the form and ALERT condition that the start gives it (R151). -/
def Screen.start (form : Nat) (alert : Bool) : Screen :=
  { form := form, alert := alert, override := false, dirty := [], urgent := false, clearPending := false,
    blankKnown := [], view := View.empty, last := none }

/-- A printer record after either start (R171). -/
def Printer.start : Printer :=
  { state := .absent, book := none, job := none, carried := none, flight := .none, lineWait := none, kept := [] }

def Figures.zero : Figures :=
  { opening := 0, deposits := 0, withdrawals := 0, exchangeIn := 0, exchangeOut := 0, homeIn := 0, homeOut := 0,
    residue := 0, deliveries := 0, shipments := 0, overShort := 0, closing := 0, records := 0 }

/-- The day record after a cold start (R200). -/
def Day.cold : Day :=
  { state := .noDay, date := none, clock := 0, running := false, phase := 0,
    settlement := List.replicate 4 Figures.zero, lastSeq := 0, blocks := [], acked := 0, sent := 0, highest := 0,
    expiries := 0, ackTimer := none }

/-- The empty journal (R183). -/
def Journal.empty : Journal := { records := [], claims := 0, closed := false }

/-- The 2410 after power-on with RETV deasserted and straps of 0, OLRDY deasserted (R21, R22; the levels of the pins
at reset are a DESIGN CHOICE, notes/assumptions/2.md). -/
def State.reset : State :=
  { port := { node := 1, straps := 0, retv := false, olrdy := false, transmitting := false, queue := [],
              received := [], prevFailed := false, sent := [] }
    counters := Counters.zero
    lock := 0
    tables := Tables.cold
    line := Line.start []
    survey := Survey.start
    sessions := Vector.replicate 24 Session.off
    entries := Vector.replicate 32 none
    tagCounter := 0
    overrides := []
    drawers := Vector.replicate 25 Drawer.cold
    screens := Vector.replicate 24 (Screen.start 0 false)
    printers := Vector.replicate 24 Printer.start
    store := Vector.replicate 256 none
    journal := Journal.empty
    day := Day.cold
    freeDraws := 0
    pending := [] }

end Sys2Proof.Machine
end

