-- ==== Sys2Proof/Machine/Bytes.lean ====
section
/-! DEFINITION. Values as bytes (R201) and the two check codes (R202, R205). -/

namespace Sys2Proof.Machine

/-- The low byte of a number. -/
def toByte (n : Nat) : Byte := BitVec.ofNat 8 n

/-- An unsigned integer in `len` bytes, most significant byte first (R201). -/
def be : Nat → Nat → List Byte
  | 0, _ => []
  | len + 1, n => toByte (n / 256 ^ len) :: be len n

/-- The value of bytes read most significant first (R201). -/
def beNat (bs : List Byte) : Nat := bs.foldl (fun acc b => acc * 256 + b.toNat) 0

/-- A two's-complement integer in `len` bytes (R201, Amounts). -/
def beInt (len : Nat) (i : Int) : List Byte := be len (i % (256 ^ len : Nat)).toNat

/-- The two's-complement value of bytes (R201, Amounts). -/
def intOf (bs : List Byte) : Int :=
  let m := 256 ^ bs.length
  let n := beNat bs
  if 2 * n < m then (n : Int) else (n : Int) - (m : Int)

/-- Integers least significant byte first: only the order of the bytes of a set's bitmap (R201, Sets). -/
def le : Nat → Nat → List Byte
  | 0, _ => []
  | len + 1, n => toByte n :: le len (n / 256)

def leNat (bs : List Byte) : Nat := bs.foldr (fun b acc => b.toNat + 256 * acc) 0

/-- `len` bytes of a payload from offset `off`; bytes beyond the end are absent. -/
def slice (bs : List Byte) (off len : Nat) : List Byte := (bs.drop off).take len

/-- The unsigned integer in `len` bytes at offset `off`. -/
def num (bs : List Byte) (off len : Nat) : Nat := beNat (slice bs off len)

/-- A flag as a byte: 1 when set, 0 when clear. -/
def flagByte (b : Bool) : Byte := if b then 1 else 0

/-- A space, 20h. -/
def space : Byte := 32

/-- A list brought to exactly n elements, filled with d. -/
def padTo {α : Type} (n : Nat) (d : α) (l : List α) : List α := (l ++ List.replicate n d).take n

/-- A text field: a length byte, the characters, and 20h up to `cap` bytes (R201, Texts). -/
def textField (cap : Nat) (t : Text) : List Byte := toByte t.length :: padTo cap space t

/-- An account field of 21 bytes; length 0 means absent (R201). -/
def accountField (a : Option Text) : List Byte := textField 20 (a.getD [])

/-- An account field read: a length of 0 is an absent reference (R201). -/
def accountOf (bs : List Byte) : Option Text :=
  let n := num bs 0 1
  if n = 0 then none else some (slice bs 1 n)

/-- An optional balance: presence byte and amount (R201, Optional numbers). -/
def balanceField : Option Int → List Byte
  | none => List.replicate 7 0
  | some b => 1 :: beInt 6 b

/-- A nonzero presence byte means that the balance is present (R201). -/
def balanceOf (bs : List Byte) : Option Int :=
  if num bs 0 1 = 0 then none else some (intOf (slice bs 1 6))

/-- The bitmap of a set whose members m stand at bit `m − base` (R201, Sets). -/
def bitmap (base : Nat) (members : List Nat) : Nat :=
  members.foldl (fun acc m => acc ||| 2 ^ (m - base)) 0

/-- The members of a bitmap of `size` bits, ascending, the first being `base`. -/
def membersOf (base size w : Nat) : List Nat :=
  ((List.range size).filter (fun i => w.testBit i)).map (· + base)

/-- The set of positions in 3 bytes: position p is bit (p − 1) mod 8 of byte (p − 1) / 8 (R201). -/
def positionSet (ps : List Nat) : List Byte := le 3 (bitmap 1 ps)

/-- The set of forms in 4 bytes (R201). -/
def formSet (fs : List Nat) : List Byte := le 4 (bitmap 0 fs)

/-- One shift of the CRC-16 register (R202, step 3). -/
def crc16Shift (r : BitVec 16) : BitVec 16 :=
  if r.msb then (r <<< 1) ^^^ 0x1021#16 else r <<< 1

/-- One byte into the CRC-16 register (R202, steps 2 and 3). -/
def crc16Byte (r : BitVec 16) (b : Byte) : BitVec 16 :=
  let r := r ^^^ (b.zeroExtend 16 <<< 8)
  crc16Shift (crc16Shift (crc16Shift (crc16Shift (crc16Shift (crc16Shift (crc16Shift (crc16Shift r)))))))

/-- The CRC-16 of both links (R202). -/
def crc16 (bs : List Byte) : BitVec 16 := bs.foldl crc16Byte 0xFFFF#16

/-- The CRC-16 as the two bytes sent, most significant first (R202). -/
def crc16Bytes (bs : List Byte) : List Byte := be 2 (crc16 bs).toNat

/-- One shift of the CRC-32 register toward its least significant end (R205, step 3). -/
def crc32Shift (r : BitVec 32) : BitVec 32 :=
  if r.getLsbD 0 then (r >>> 1) ^^^ 0xEDB88320#32 else r >>> 1

/-- One byte into the CRC-32 register (R205, steps 2 and 3). -/
def crc32Byte (r : BitVec 32) (b : Byte) : BitVec 32 :=
  let r := r ^^^ b.zeroExtend 32
  crc32Shift (crc32Shift (crc32Shift (crc32Shift (crc32Shift (crc32Shift (crc32Shift (crc32Shift r)))))))

/-- The CRC-32 of a batch block, inverted at the end (R205). -/
def crc32 (bs : List Byte) : BitVec 32 := ~~~ (bs.foldl crc32Byte 0xFFFFFFFF#32)

end Sys2Proof.Machine
end

