-- ==== Sys2Proof/Machine/Ops.lean ====
section
/-! DEFINITION. The named operations over the state: banks, one setter per field of State, table lookups, counters,
the upstream queue (R5, R6), the journal (R172 to R180), and the outbound queues (R34). -/

namespace Sys2Proof.Machine

/-! ### Banks -/

/-- Place i of a bank, or `d` outside it. -/
def rd {α : Type} {n : Nat} (v : Vector α n) (i : Nat) (d : α) : α := (v[i]?).getD d

/-- A bank with place i replaced; outside the bank nothing changes. -/
def wr {α : Type} {n : Nat} (v : Vector α n) (i : Nat) (x : α) : Vector α n := v.setIfInBounds i x

/-- The record of position p (1 and up) of a bank. -/
def rd1 {α : Type} {n : Nat} (v : Vector α n) (p : Nat) (d : α) : α := if p = 0 then d else rd v (p - 1) d

/-- A bank with the record of position p replaced. -/
def wr1 {α : Type} {n : Nat} (v : Vector α n) (p : Nat) (x : α) : Vector α n := if p = 0 then v else wr v (p - 1) x

/-- The positions 1 to 24 in ascending order. -/
def allPositions : List Nat := List.range' 1 24

/-- The rows 1 to 24 in ascending order. -/
def allRows : List Nat := List.range' 1 24

/-- The drawers 0 to 24 in ascending order. -/
def allDrawers : List Nat := List.range 25

/-! ### One setter per field of State -/

namespace State

def withPort (s : State) (x : Port) : State := { s with port := x }
def withCounters (s : State) (x : Counters) : State := { s with counters := x }
def withLock (s : State) (x : Nat) : State := { s with lock := x }
def withTables (s : State) (x : Tables) : State := { s with tables := x }
def withLine (s : State) (x : Line) : State := { s with line := x }
def withSurvey (s : State) (x : Survey) : State := { s with survey := x }
def withSessions (s : State) (x : Vector Session 24) : State := { s with sessions := x }
def withEntries (s : State) (x : Vector (Option Entry) 32) : State := { s with entries := x }
def withTagCounter (s : State) (x : Nat) : State := { s with tagCounter := x }
def withOverrides (s : State) (x : List Nat) : State := { s with overrides := x }
def withDrawers (s : State) (x : Vector Drawer 25) : State := { s with drawers := x }
def withScreens (s : State) (x : Vector Screen 24) : State := { s with screens := x }
def withPrinters (s : State) (x : Vector Printer 24) : State := { s with printers := x }
def withStore (s : State) (x : Vector (Option PrintLine) 256) : State := { s with store := x }
def withJournal (s : State) (x : Journal) : State := { s with journal := x }
def withDay (s : State) (x : Day) : State := { s with day := x }
def withFreeDraws (s : State) (x : Nat) : State := { s with freeDraws := x }
def withPending (s : State) (x : List Instr) : State := { s with pending := x }

/-! ### Records of a position, a drawer, an entry -/

def session (s : State) (p : Nat) : Session := rd1 s.sessions p Session.off
def screen (s : State) (p : Nat) : Screen := rd1 s.screens p (Screen.start 0 false)
def printer (s : State) (p : Nat) : Printer := rd1 s.printers p Printer.start
def drawer (s : State) (d : Nat) : Drawer := rd s.drawers d Drawer.cold
def entry (s : State) (i : Nat) : Option Entry := rd s.entries i none
def posRec (s : State) (p : Nat) : PosRec := rd1 s.line.recs p PosRec.start
def unit (s : State) (p u : Nat) : UnitRec := rd (s.posRec p).units u UnitRec.start

def setScreen (s : State) (p : Nat) (x : Screen) : State := s.withScreens (wr1 s.screens p x)
def setPrinter (s : State) (p : Nat) (x : Printer) : State := s.withPrinters (wr1 s.printers p x)
def setDrawer (s : State) (d : Nat) (x : Drawer) : State := s.withDrawers (wr s.drawers d x)
def setEntry (s : State) (i : Nat) (x : Option Entry) : State := s.withEntries (wr s.entries i x)
def setPosRec (s : State) (p : Nat) (x : PosRec) : State :=
  s.withLine { s.line with recs := wr1 s.line.recs p x }
def setUnit (s : State) (p u : Nat) (x : UnitRec) : State :=
  s.setPosRec p { s.posRec p with units := wr (s.posRec p).units u x }

end State

/-! ### Table lookups (R13, and 01, Loaded tables) -/

namespace Tables

def position (t : Tables) (p : Nat) : Option PositionEntry := rd1 t.positions p none
def currency (t : Tables) (c : Nat) : Option CurrencyEntry := rd t.currencies c none
def rateEntry (t : Tables) (c : Nat) : Option RateEntry := rd1 t.rates c none
def form (t : Tables) (f : Nat) : Option FormEntry := rd t.forms f none
def field (t : Tables) (i : Nat) : Option FieldEntry := rd t.fields i none
def text (t : Tables) (i : Nat) : Option Text := rd t.texts i none
def messageText (t : Tables) (i : Nat) : Option Text := rd t.messages i none
def layout (t : Tables) (k : Nat) : Option LayoutEntry := rd t.layouts k none

/-- The defined CODES entry that holds a code (R57). -/
def findCode (t : Tables) (code : Nat) : Option CodeEntry :=
  (t.codes.toList.filterMap id).find? (fun e => e.code == code)

/-- The defined TELLERS entry that holds a teller id (R49). -/
def findTeller (t : Tables) (teller : Nat) : Option TellerEntry :=
  (t.tellers.toList.filterMap id).find? (fun e => e.id == teller)

/-- The units a position's entry declares; none when it is undefined (R27, R45). -/
def installed (t : Tables) (p : Nat) : List Nat := ((t.position p).map (·.units)).getD []

/-- The faces of a currency; none when it is undefined (R90). -/
def faces (t : Tables) (c : Nat) : List Nat := ((t.currency c).map (·.faces)).getD []

/-- The exponent of a currency, 0 when it is undefined or above 3 (R136). -/
def exponent (t : Tables) (c : Nat) : Nat := ((t.currency c).map (·.exponent)).getD 0

/-- The pair flag of a position, clear when its entry is undefined. -/
def pairFlag (t : Tables) (p : Nat) : Bool := ((t.position p).map (·.pair)).getD false

/-- The own drawer of a position (R50). -/
def ownDrawer (t : Tables) (p : Nat) : Nat := if p % 2 = 0 ∧ t.pairFlag (p - 1) = true then p - 1 else p

/-- Drawer 2k of a pair: unused, with zero counts (R94). -/
def unusedByPair (t : Tables) (d : Nat) : Bool := d != 0 && t.ownDrawer d != d

/-- The positions whose own drawer is d: position n for drawer n, both positions of a pair for drawer 2k − 1 (R95). -/
def drawerPositions (t : Tables) (d : Nat) : List Nat := allPositions.filter (fun p => t.ownDrawer p == d)

/-- A drawer n from 1 to 24 has a serving unit when position n is defined with unit 2 installed (R94). -/
def serving (t : Tables) (d : Nat) : Bool := d != 0 && (t.installed d).contains 2

/-- The cash step: the face of denomination position 1 of currency 0 (R90). -/
def cashStep (t : Tables) : Nat := (t.faces 0).headD 0

/-- The buy or sell rate of a currency, 0 when not loaded (R91). -/
def buyRate (t : Tables) (c : Nat) : Nat := ((t.rateEntry c).map (·.buy)).getD 0
def sellRate (t : Tables) (c : Nat) : Nat := ((t.rateEntry c).map (·.sell)).getD 0

end Tables

namespace State

/-- The part is live at lock level 1 or 2 (R18). -/
def live (s : State) : Bool := s.lock != 0

/-! ### Counters (R9) -/

/-- A counter stops at 65,535. -/
def bump (n : Nat) : Nat := if n < Config.counterMax then n + 1 else n

def countLinkBadFrame (s : State) : State := s.withCounters { s.counters with linkBadFrame := bump s.counters.linkBadFrame }
def countLinkWrongNode (s : State) : State := s.withCounters { s.counters with linkWrongNode := bump s.counters.linkWrongNode }
def countLateAnswer (s : State) : State := s.withCounters { s.counters with lateAnswer := bump s.counters.lateAnswer }
def countNoticeLost (s : State) : State := s.withCounters { s.counters with noticeLost := bump s.counters.noticeLost }
def countLineBadFrame (s : State) : State := s.withCounters { s.counters with lineBadFrame := bump s.counters.lineBadFrame }
def countLineRetry (s : State) : State := s.withCounters { s.counters with lineRetry := bump s.counters.lineRetry }
def countUnitLost (s : State) : State := s.withCounters { s.counters with unitLost := bump s.counters.unitLost }
def countLineBadMessage (s : State) : State := s.withCounters { s.counters with lineBadMessage := bump s.counters.lineBadMessage }
def countRefused (s : State) : State := s.withCounters { s.counters with refused := bump s.counters.refused }
def countBatchResend (s : State) : State := s.withCounters { s.counters with batchResend := bump s.counters.batchResend }
def countBatchAckIgnored (s : State) : State := s.withCounters { s.counters with batchAckIgnored := bump s.counters.batchAckIgnored }

/-! ### The upstream queue (R5, R6) -/

/-- The free slots: 64 less the frames in the queue, a frame being transmitted included (R5). -/
def freeSlots (s : State) : Nat := Config.upstreamCapacity - s.port.queue.length

/-- The queue has a free slot. -/
def hasRoom (s : State) : Bool := s.port.queue.length < Config.upstreamCapacity

/-- Transmission of the head begins while OLRDY is asserted and no frame is being transmitted (R5). -/
def beginTransmit (s : State) : State :=
  s.withPort { s.port with transmitting := s.port.transmitting || (s.port.olrdy && !s.port.queue.isEmpty) }

/-- A producer that has found a free slot places its frame at the tail (R5, R6). -/
def enqueue (s : State) (f : UpFrame) : State :=
  (s.withPort { s.port with queue := s.port.queue ++ [f] }).beginTransmit

/-- An ALARM or DAY notice is dropped and counted when the queue is full (R6). -/
def offerNotice (s : State) (f : UpFrame) : State :=
  if s.hasRoom then s.enqueue f else s.countNoticeLost

/-- An ALARM notice of a kind, naming its subject (R6; 11, NOTICE). -/
def alarm (s : State) (k : AlarmKind) (subject : Nat) : State := s.offerNotice (.alarm k subject)

/-! ### The journal (R172, R175, R176, R180) -/

/-- The used count n. -/
def usedCount (s : State) : Nat := s.journal.records.length

/-- The free records: 16,384 less n (R172). -/
def freeRecords (s : State) : Nat := Config.journalCapacity - s.usedCount

/-- General space: free records less the sum of claims less 64; it may be negative (R176). -/
def generalSpace (s : State) : Int :=
  (Config.journalCapacity : Int) - s.usedCount - s.journal.claims - Config.closingReserve

/-- The room test of an append in the general class (R176); a closed journal refuses it (R179). -/
def generalRoom (s : State) : Bool := !s.journal.closed && decide (1 ≤ s.generalSpace)

/-- The room test of an append in the reserve class (R176); a closed journal refuses it (R179). -/
def reserveRoom (s : State) : Bool := !s.journal.closed && decide (-63 ≤ s.generalSpace)

/-- Write a record at seq n plus 1 with the day clock (R172, R173). -/
def writeRecord (s : State) (b : Body) : State :=
  let r : Record := { seq := s.usedCount + 1, clock := s.day.clock, body := b }
  s.withJournal { s.journal with records := s.journal.records ++ [r] }

/-- Append a record; the append that takes the used count from 15,359 to 15,360 raises the nearly-full alarm after the
record is written (R172, R180). -/
def append (s : State) (b : Body) : State :=
  let t := s.writeRecord b
  if t.usedCount = Config.nearlyFull then t.alarm .journalNearlyFull 0 else t

/-- Append a record against a claim: the sum of claims falls by 1 (R175). -/
def appendClaimed (s : State) (b : Body) : State :=
  (s.withJournal { s.journal with claims := s.journal.claims - 1 }).append b

/-- Take a claim (R175). -/
def takeClaim (s : State) (n : Nat) : State := s.withJournal { s.journal with claims := s.journal.claims + n }

/-- Release what is left of a claim (R175). -/
def releaseClaim (s : State) (n : Nat) : State := s.withJournal { s.journal with claims := s.journal.claims - n }

/-! ### Sessions (R51) -/

/-- A position holds a supervisor session when it is SIGNED_ON with role SUPERVISOR (R51). -/
def supervisor (s : State) (p : Nat) : Bool :=
  (s.session p).state == .signedOn && (s.session p).role == some .supervisor

/-! ### Sent frames and free values -/

/-- The engine sends a frame on the station line (R26). -/
def sendLine (s : State) (f : LineFrame) : State := s.withLine { s.line with sent := s.line.sent ++ [f] }

/-- Draw the next free value (notes/assumptions/1.md). -/
def drawFree (s : State) : State := s.withFreeDraws (s.freeDraws + 1)

end State

/-! ### Outbound queues (R34) -/

/-- The three answers to an offer. -/
inductive Offer where
  | taken | full | undelivered
deriving DecidableEq, Repr

namespace State

/-- How an offer to a unit is answered (R34). -/
def offerAnswer (s : State) (p u : Nat) : Offer :=
  if (s.unit p u).presence ≠ .present then .undelivered
  else if (s.unit p u).queue.length < Config.outboundCapacity then .taken
  else .full

/-- An owner offers a message under a class: placed at the tail when the offer is taken (R34). -/
def offer (s : State) (p u : Nat) (m : OutMsg) (c : LineClass) : State :=
  match s.offerAnswer p u with
  | .taken => s.setUnit p u { s.unit p u with queue := (s.unit p u).queue ++ [{ msg := m, cls := c }] }
  | _ => s

end State

end Sys2Proof.Machine
end

