-- ==== Sys2Proof/Machine/Formats.lean ====
section
/-! DEFINITION. The byte layouts of everything the 2410 sends or writes: enumeration codes, table contents, journal
records, office-link frames and station-line frames (11_formats_and_check_codes.md). -/

namespace Sys2Proof.Machine

/-! ### Enumeration codes: 1, 2, 3 and onward in the order listed (R201) -/

def Role.code : Role → Nat
  | .clerk => 1 | .senior => 2 | .supervisor => 3

def TxClass.code : TxClass → Nat
  | .deposit => 1 | .withdrawal => 2 | .exchangeBuy => 3 | .exchangeSell => 4 | .nonCash => 5 | .inquiry => 6
  | .transferIn => 7 | .transferOut => 8 | .delivery => 9 | .shipment => 10

def Authorisation.code : Authorisation → Nat
  | .branch => 1 | .central => 2

def BreakdownRule.code : BreakdownRule → Nat
  | .never => 1 | .required => 2 | .optional => 3

def WindowCondition.code : WindowCondition → Nat
  | .override => 1 | .alert => 2 | .either => 3

def Format.code : Format → Nat
  | .left => 1 | .right => 2 | .grouped => 3 | .ungrouped => 4

def Source.code : Source → Nat
  | .text _ => 1 | .position => 2 | .tellerId => 3 | .businessDate => 4 | .dayState => 5 | .drawerValue _ => 6
  | .drawerAvailable _ => 7 | .drawerCount _ _ => 8 | .txnCode => 9 | .txnCurrency => 10 | .txnAmount => 11
  | .txnEquiv => 12 | .txnAccount => 13 | .txnState => 14 | .balance => 15 | .message => 16 | .overrideCount => 17
  | .overridePosition => 18 | .overrideAmount => 19 | .overrideTag => 20 | .printState => 21

def DayState.code : DayState → Nat
  | .noDay => 1 | .opened => 2 | .cutoff => 3 | .sending => 4 | .held => 5 | .sent => 6

def SessionState.code : SessionState → Nat
  | .signedOff => 1 | .signedOn => 2 | .suspended => 3

def EntryState.code : EntryState → Nat
  | .waitingOverride => 1 | .waitingCentre => 2 | .reversing => 3

def ExpiryReason.code : ExpiryReason → Nat
  | .timeout => 1 | .cancelled => 2 | .restart => 3

def DrawerState.code : DrawerState → Nat
  | .active => 1 | .outOfBalance => 2 | .awaitingAccept => 3 | .balanced => 4

def Physical.code : Physical → Nat
  | .closed => 1 | .opened => 2 | .unknown => 3

def SurveyState.code : SurveyState → Nat
  | .idle => 1 | .running => 2 | .done => 3

def SurveyFault.code : SurveyFault → Nat
  | .ok => 1 | .slow => 2 | .unitMissing => 3 | .wrongAddress => 4 | .badCheck => 5 | .noAnswer => 6

def ProofResult.code : ProofResult → Nat
  | .balanced => 1 | .accepted => 2 | .reopened => 3

def SignOffCause.code : SignOffCause → Nat
  | .teller => 1 | .closing => 2

def AlarmKind.code : AlarmKind → Nat
  | .ceiling => 1 | .openLong => 2 | .forcedOpen => 3 | .journalNearlyFull => 4 | .batchHeld => 5 | .unitLost => 6

/-- The management outcomes start at 0 (R201). -/
def MgmtOutcome.code : MgmtOutcome → Nat
  | .done => 0 | .unknown => 1 | .badSection => 2 | .badIndex => 3 | .badContent => 4 | .locked => 5 | .inUse => 6
  | .state => 7 | .busy => 8

/-! ### Table contents (11, Central payloads; 01, Section contents) -/

def Params.bytes (p : Params) : List Byte :=
  1 :: (be 2 p.rollCall ++ be 2 p.unitReply ++ be 2 p.retries ++ be 2 p.approval ++ be 2 p.overrideWait
    ++ be 2 p.openAlarm ++ be 2 p.pacing ++ be 2 p.lineCompletion ++ be 2 p.bookWait ++ be 2 p.batchAck
    ++ be 2 p.surveySlow)

def PositionEntry.bytes (e : PositionEntry) : List Byte :=
  [1, toByte (bitmap 0 e.units), flagByte e.pair, toByte e.defaultForm] ++ formSet e.forms

/-- Twelve face slots of 4 bytes, the unused ones 0; the tolerance takes 4 bytes, which the 64 content bytes leave. -/
def CurrencyEntry.bytes (e : CurrencyEntry) : List Byte :=
  1 :: (padTo 3 0 e.letters ++ [toByte e.exponent, toByte e.faces.length]
    ++ (padTo 12 0 e.faces).flatMap (be 4) ++ be 4 e.tolerance ++ beInt 6 e.ceiling)

def RateEntry.bytes (e : RateEntry) : List Byte := 1 :: (be 5 e.buy ++ be 5 e.sell)

/-- The answer form of a CODES entry is 0 to 31, or FFh for KEEP. -/
def CodeEntry.bytes (e : CodeEntry) : List Byte :=
  [1, toByte e.code] ++ padTo 6 space e.mnemonic
    ++ [toByte e.cls.code, toByte e.auth.code, toByte (bitmap 0 e.allowed), toByte e.rule.code, flagByte e.print,
        toByte e.minRole.code, toByte e.limitClass, toByte (e.answerForm.getD 255)]

def TellerEntry.bytes (e : TellerEntry) : List Byte :=
  1 :: (be 2 e.id ++ [toByte e.role.code] ++ (padTo 4 0 e.limits).flatMap (be 6) ++ be 6 e.overrideLimit)

def FieldRun.bytes (r : FieldRun) : List Byte := be 2 r.first ++ be 2 r.count

def RowEntry.bytes (r : RowEntry) : List Byte := [flagByte r.useB, toByte r.base, toByte r.delta]

def RowEntry.zero : RowEntry := { useB := false, base := 0, delta := 0 }

def FormEntry.bytes (e : FormEntry) : List Byte :=
  [1, toByte e.mode, toByte e.winFirst, toByte e.winLast, toByte e.winCond.code] ++ e.setA.bytes ++ e.setB.bytes
    ++ (padTo 24 RowEntry.zero e.rows).flatMap RowEntry.bytes ++ [flagByte e.selectable]

/-- The two parameter bytes of a source: text index or currency, then denomination position; 0 where it has none. -/
def Source.params : Source → List Byte
  | .text i => [toByte i, 0]
  | .drawerValue c => [toByte c, 0]
  | .drawerAvailable c => [toByte c, 0]
  | .drawerCount c d => [toByte c, toByte d]
  | _ => [0, 0]

def FieldEntry.bytes (e : FieldEntry) : List Byte :=
  [1, toByte e.row, toByte e.col, toByte e.width, toByte e.attr, toByte e.source.code] ++ e.source.params
    ++ [toByte e.format.code]

def textEntryBytes (t : Text) : List Byte := 1 :: textField 40 t

def Column.bytes (c : Column) : List Byte := [toByte c.col, toByte c.width]

def LayoutEntry.bytes (e : LayoutEntry) : List Byte :=
  [1, toByte e.lines, toByte e.pages, flagByte e.autoTurn] ++ e.date.bytes ++ e.mnemonic.bytes ++ e.debit.bytes
    ++ e.credit.bytes ++ e.balance.bytes

/-! ### Journal records (R173; 11, Journal records) -/

/-- A count list: the count byte and its pairs. -/
def countsBytes (l : Counts) : List Byte :=
  toByte l.length :: l.flatMap (fun p => toByte p.1 :: be 2 p.2)

/-- An absent drawer is FFh (R201). -/
def drawerByte (d : Option Nat) : Byte := toByte (d.getD 255)

def Figures.bytes (f : Figures) : List Byte :=
  beInt 8 f.opening ++ beInt 8 f.deposits ++ beInt 8 f.withdrawals ++ beInt 8 f.exchangeIn ++ beInt 8 f.exchangeOut
    ++ beInt 8 f.homeIn ++ beInt 8 f.homeOut ++ beInt 8 f.residue ++ beInt 8 f.deliveries ++ beInt 8 f.shipments
    ++ beInt 8 f.overShort ++ beInt 8 f.closing ++ beInt 8 f.records

def PostBody.bytes (p : PostBody) : List Byte :=
  [toByte p.pos] ++ be 2 p.teller ++ [drawerByte p.drawer, toByte p.code] ++ padTo 6 space p.mnemonic
    ++ [toByte p.cls.code, toByte p.cur] ++ be 6 p.amount
    ++ (match p.exch with
        | some x => be 6 x.equiv ++ be 6 x.cash ++ beInt 6 x.residue
        | none => [])
    ++ be 2 (p.tag.getD 0) ++ accountField p.account ++ countsBytes p.reqList
    ++ (match p.exch with
        | some _ => countsBytes p.homeList
        | none => [])

def Body.kindCode : Body → Nat
  | .opened _ => 1 | .post _ => 2 | .expired .. => 3 | .override .. => 4 | .signOn .. => 5 | .signOff .. => 6
  | .proof .. => 7 | .forcedOpen .. => 8 | .cutoff .. => 9 | .reopenDay => 10 | .restart => 11 | .settlement .. => 12

def Body.bytes : Body → List Byte
  | .opened date => padTo 8 0 date
  | .post p => p.bytes
  | .expired pos teller code cur amount tag account reason =>
      [toByte pos] ++ be 2 teller ++ [toByte code, toByte cur] ++ be 6 amount ++ be 2 tag ++ accountField account
        ++ [toByte reason.code]
  | .override pos sup code cur amount tag =>
      [toByte pos] ++ be 2 sup ++ [toByte code, toByte cur] ++ be 6 amount ++ be 2 tag
  | .signOn pos teller => [toByte pos] ++ be 2 teller
  | .signOff pos teller cause => [toByte pos] ++ be 2 teller ++ [toByte cause.code]
  | .proof pos teller drawer result diffs =>
      [toByte pos] ++ be 2 teller ++ [toByte drawer, toByte result.code] ++ (padTo 4 0 diffs).flatMap (beInt 6)
  | .forcedOpen drawer pos openings => [toByte drawer, toByte pos] ++ be 2 openings
  | .cutoff pos teller => [toByte (pos.getD 0)] ++ be 2 (teller.getD 0)
  | .reopenDay => []
  | .restart => []
  | .settlement figures last => (padTo 4 Figures.zero figures).flatMap Figures.bytes ++ be 2 last

/-- The size of a record in bytes, as its header carries it (R205; 11, Journal records). -/
def Body.size : Body → Nat
  | .opened _ => 16
  | .post p =>
      match p.exch with
      | some _ => 70 + 3 * p.reqList.length + 3 * p.homeList.length
      | none => 51 + 3 * p.reqList.length
  | .expired .. => 43
  | .override .. => 21
  | .signOn .. => 11
  | .signOff .. => 12
  | .proof .. => 37
  | .forcedOpen .. => 12
  | .cutoff .. => 11
  | .reopenDay => 8
  | .restart => 8
  | .settlement .. => 426

def Record.size (r : Record) : Nat := r.body.size

/-- A record: total size, seq, kind and day clock, then the body. -/
def Record.bytes (r : Record) : List Byte :=
  be 2 r.size ++ be 2 r.seq ++ [toByte r.body.kindCode] ++ be 3 r.clock ++ r.body.bytes

/-! ### Upward frames -/

def CentreRequest.bytes (r : CentreRequest) : List Byte :=
  [toByte r.pos] ++ be 2 r.teller ++ [toByte r.code, toByte r.cls.code, toByte r.cur] ++ be 6 r.amount ++ be 6 r.equiv
    ++ (match r.exch with
        | some x => be 5 x.rate ++ be 6 x.cash ++ beInt 6 x.residue
        | none => List.replicate 17 0)
    ++ accountField r.account ++ countsBytes r.reqList ++ countsBytes r.homeList

/-- The flags byte of the status summary: live, batch held, journal nearly full, journal in reserve,
previous-frame-failed in bits 0 to 4. -/
def Summary.flags (m : Summary) : Nat :=
  m.live.toNat + 2 * m.held.toNat + 4 * m.nearlyFull.toNat + 8 * m.inReserve.toNat + 16 * m.prevFailed.toNat

def Summary.bytes (m : Summary) : List Byte :=
  [toByte m.lock, toByte m.flags, toByte m.day.code, toByte m.survey.code, toByte m.pendingCount, toByte m.freeSlots]

def Reply.bytes (r : Reply) : List Byte :=
  [r.code, toByte r.outcome.code, toByte r.check, toByte r.section_] ++ be 2 r.index ++ r.summary.bytes ++ r.data

/-- A BATCH_BLOCK payload: N, the record count, the records, and a CRC-32 over the bytes before it (R205). -/
def blockBytes (total : Nat) (records : List Record) : List Byte :=
  let body := be 2 total ++ [toByte records.length] ++ records.flatMap Record.bytes
  body ++ be 4 (crc32 body).toNat

namespace UpFrame

def kindByte : UpFrame → Byte
  | .request _ => 0x81
  | .reversal _ _ => 0x82
  | .printed _ _ => 0x82
  | .alarm _ _ => 0x82
  | .day _ _ => 0x82
  | .reply _ => 0x83
  | .block _ _ _ => 0x84

/-- The tag field: the entry tag, the request tag or the block number; 0 in the other notices. -/
def tag : UpFrame → Nat
  | .request r => r.tag
  | .reversal t _ => t
  | .reply r => r.tag
  | .block b _ _ => b
  | _ => 0

def payload : UpFrame → List Byte
  | .request r => r.bytes
  | .reversal _ reason => [1, toByte reason.code]
  | .printed account item => 2 :: (textField 20 account ++ be 4 item)
  | .alarm kind subject => [3, toByte kind.code, toByte subject]
  | .day state date => [4, toByte state.code] ++ padTo 8 0 (date.getD [])
  | .reply r => r.bytes
  | .block _ total records => blockBytes total records

end UpFrame

/-- An office-link frame: kind, node, tag, length, payload, CRC-16 (11, Office link frame). -/
def officeFrame (kind node : Byte) (tag : Nat) (payload : List Byte) : List Byte :=
  let body := [kind, node] ++ be 2 tag ++ be 2 payload.length ++ payload
  body ++ crc16Bytes body

/-- The bytes of an upward frame; every one carries the 2410's own node number (R2). -/
def UpFrame.bytes (node : Nat) (f : UpFrame) : List Byte := officeFrame f.kindByte (toByte node) f.tag f.payload

/-! ### Station frames -/

/-- The message kind codes of the 2410's own messages (11, Station messages). -/
def OutMsg.kind : OutMsg → Nat
  | .clear => 0x81 | .row _ _ => 0x82 | .line _ _ _ _ => 0x81 | .turn _ => 0x82 | .eject => 0x83
  | .statusRequest => 0x84 | .release => 0x81

def OutMsg.payload : OutMsg → List Byte
  | .row r cells => toByte r :: (padTo 80 ⟨space, 0⟩ cells).flatMap (fun c => [c.char, toByte c.attr])
  | .line page place chars _ => [toByte page, toByte place] ++ padTo 80 space chars
  | _ => []

/-- A station frame's bytes closed by their CRC-16, which covers every byte from the address (R202). -/
def sealed (body : List Byte) : List Byte := body ++ crc16Bytes body

def ReplyKind.code : ReplyKind → Nat
  | .accept => 0x20 | .reject => 0x21 | .busy => 0x22

def LineFrame.bytes : LineFrame → List Byte
  | .rollCallAll polled => sealed ([31, 0x01] ++ positionSet polled)
  | .rollCallAt pos => sealed [toByte pos, 0x01]
  | .selectSend pos unit => sealed [toByte pos, 0x03, toByte unit]
  | .selectReceive pos unit => sealed [toByte pos, 0x04, toByte unit]
  | .unselect => sealed [31, 0x05]
  | .echo pos unit pattern => sealed ([toByte pos, 0x06, toByte unit] ++ pattern)
  | .message pos unit seq m =>
      sealed ([toByte pos, 0x10, toByte unit, toByte m.kind, toByte seq, toByte m.payload.length] ++ m.payload)
  | .reply kind pos unit seq => sealed [toByte pos, toByte kind.code, toByte unit, toByte seq]

end Sys2Proof.Machine
end

