-- ==== Sys2Proof/Machine/Operands.lean ====
section
/-! DEFINITION. The operand forms: how received bytes are taken apart (R201, R204). Contents of the table sections
with the ranges of 01 (R14, R17), the ANSWER payload (R72), the station messages (R40, R204), the station frames (R24,
R203) and the office-link frames (R1). -/

namespace Sys2Proof.Machine

def inRange (lo hi n : Nat) : Bool := decide (lo ≤ n) && decide (n ≤ hi)

/-- A flag field of a table entry is 0 or 1; another value is outside its range (notes/assumptions/5.md). -/
def flagOf (n : Nat) : Option Bool := if n = 0 then some false else if n = 1 then some true else none

/-- A printable character has a code from 32 to 126. -/
def printable (b : Byte) : Bool := inRange 32 126 b.toNat

/-- An amount of 6 bytes in the range 0 to 999,999,999,999. -/
def amountOf (bs : List Byte) : Option Nat :=
  let i := intOf bs
  if 0 ≤ i ∧ i ≤ (Config.amountMax : Int) then some i.toNat else none

/-! ### Sections (R13) -/

/-- The eleven sections and the survey mask, in code order from 0 (R201). -/
inductive Section where
  | params | positions | currencies | rates | codes | tellers | forms | fields | texts | messages | layouts | surveyMask
deriving DecidableEq, Repr

def sectionOf : Nat → Option Section
  | 0 => some .params | 1 => some .positions | 2 => some .currencies | 3 => some .rates | 4 => some .codes
  | 5 => some .tellers | 6 => some .forms | 7 => some .fields | 8 => some .texts | 9 => some .messages
  | 10 => some .layouts | 11 => some .surveyMask | _ => none

def Section.code : Section → Nat
  | .params => 0 | .positions => 1 | .currencies => 2 | .rates => 3 | .codes => 4 | .tellers => 5 | .forms => 6
  | .fields => 7 | .texts => 8 | .messages => 9 | .layouts => 10 | .surveyMask => 11

/-- The indices of a section (01, Loaded tables). -/
def Section.hasIndex (x : Section) (i : Nat) : Bool :=
  match x with
  | .params => i == 0
  | .positions => inRange 1 24 i
  | .currencies => inRange 0 3 i
  | .rates => inRange 1 3 i
  | .codes => inRange 0 127 i
  | .tellers => inRange 0 63 i
  | .forms => inRange 0 31 i
  | .fields => inRange 0 511 i
  | .texts => inRange 0 127 i
  | .messages => inRange 0 63 i
  | .layouts => inRange 0 7 i
  | .surveyMask => i == 0

/-- The content size of a section in bytes (11, A table entry's content). -/
def Section.size : Section → Nat
  | .params => 23 | .positions => 8 | .currencies => 64 | .rates => 11 | .codes => 16 | .tellers => 34 | .forms => 86
  | .fields => 9 | .texts => 42 | .messages => 42 | .layouts => 14 | .surveyMask => 4

/-- Every section but RATES, TELLERS and SURVEY_MASK is structural. -/
def Section.structural : Section → Bool
  | .rates => false | .tellers => false | .surveyMask => false | _ => true

/-- The entry of a section: PARAMS and SURVEY_MASK are always defined, every other entry may be undefined. -/
inductive TableEntry where
  | params (p : Params)
  | position (e : Option PositionEntry)
  | currency (e : Option CurrencyEntry)
  | rate (e : Option RateEntry)
  | code (e : Option CodeEntry)
  | teller (e : Option TellerEntry)
  | form (e : Option FormEntry)
  | field (e : Option FieldEntry)
  | text (e : Option Text)
  | message (e : Option Text)
  | layout (e : Option LayoutEntry)
  | surveyMask (ps : List Nat)
deriving DecidableEq, Repr

/-- The content bytes of a stored entry; an undefined entry reads as zero or empty (01, Loaded tables). -/
def TableEntry.bytes : TableEntry → List Byte
  | .params p => p.bytes
  | .position e => (e.map PositionEntry.bytes).getD (List.replicate 8 0)
  | .currency e => (e.map CurrencyEntry.bytes).getD (List.replicate 64 0)
  | .rate e => (e.map RateEntry.bytes).getD (List.replicate 11 0)
  | .code e => (e.map CodeEntry.bytes).getD (List.replicate 16 0)
  | .teller e => (e.map TellerEntry.bytes).getD (List.replicate 34 0)
  | .form e => (e.map FormEntry.bytes).getD (List.replicate 86 0)
  | .field e => (e.map FieldEntry.bytes).getD (List.replicate 9 0)
  | .text e => (e.map textEntryBytes).getD (0 :: textField 40 [])
  | .message e => (e.map textEntryBytes).getD (0 :: textField 40 [])
  | .layout e => (e.map LayoutEntry.bytes).getD (List.replicate 14 0)
  | .surveyMask ps => 1 :: positionSet ps

/-- The stored entry of a section at an index. -/
def Tables.read (t : Tables) (x : Section) (i : Nat) : TableEntry :=
  match x with
  | .params => .params t.params
  | .positions => .position (t.position i)
  | .currencies => .currency (t.currency i)
  | .rates => .rate (t.rateEntry i)
  | .codes => .code (rd t.codes i none)
  | .tellers => .teller (rd t.tellers i none)
  | .forms => .form (t.form i)
  | .fields => .field (t.field i)
  | .texts => .text (t.text i)
  | .messages => .message (t.messageText i)
  | .layouts => .layout (t.layout i)
  | .surveyMask => .surveyMask t.surveyMask

/-- The tables with an entry stored at an index of its section. -/
def Tables.store (t : Tables) (i : Nat) : TableEntry → Tables
  | .params p => { t with params := p }
  | .position e => { t with positions := wr1 t.positions i e }
  | .currency e => { t with currencies := wr t.currencies i e }
  | .rate e => { t with rates := wr1 t.rates i e }
  | .code e => { t with codes := wr t.codes i e }
  | .teller e => { t with tellers := wr t.tellers i e }
  | .form e => { t with forms := wr t.forms i e }
  | .field e => { t with fields := wr t.fields i e }
  | .text e => { t with texts := wr t.texts i e }
  | .message e => { t with messages := wr t.messages i e }
  | .layout e => { t with layouts := wr t.layouts i e }
  | .surveyMask ps => { t with surveyMask := ps }

/-! ### Contents: each parser answers none for a field outside its range (R14, Section contents) -/

def clamp (lo hi n : Nat) : Nat := if n < lo then lo else if hi < n then hi else n

/-- PARAMS content: every value clamped to its range (R17). -/
def parseParams (bs : List Byte) : Params :=
  { rollCall := clamp 2 50 (num bs 1 2)
    unitReply := clamp 1 20 (num bs 3 2)
    retries := clamp 0 3 (num bs 5 2)
    approval := clamp 50 6000 (num bs 7 2)
    overrideWait := clamp 1000 30000 (num bs 9 2)
    openAlarm := clamp 500 12000 (num bs 11 2)
    pacing := clamp 2 100 (num bs 13 2)
    lineCompletion := clamp 50 1000 (num bs 15 2)
    bookWait := clamp 500 30000 (num bs 17 2)
    batchAck := clamp 100 12000 (num bs 19 2)
    surveySlow := clamp 1 20 (num bs 21 2) }

def parsePosition (bs : List Byte) : Option PositionEntry :=
  match flagOf (num bs 2 1) with
  | none => none
  | some pair =>
    if num bs 1 1 < 8 ∧ num bs 3 1 < 32 then
      some { units := membersOf 0 3 (num bs 1 1), pair := pair, defaultForm := num bs 3 1,
             forms := membersOf 0 32 (leNat (slice bs 4 4)) }
    else none

/-- Strictly ascending. -/
def ascending : List Nat → Bool
  | a :: b :: rest => decide (a < b) && ascending (b :: rest)
  | _ => true

/-- A defined CURRENCIES content (R14). The face slots past the face count are not read: a content with other bytes there
than 0 is accepted, and 0 is what is stored and read back (DESIGN CHOICE, notes/assumptions/5.md). -/
def parseCurrency (bs : List Byte) : Option CurrencyEntry :=
  let letters := slice bs 1 3
  let n := num bs 5 1
  let faces := (List.range n).map (fun k => num bs (6 + 4 * k) 4)
  match amountOf (slice bs 58 6) with
  | none => none
  | some ceiling =>
    if letters.all (fun b => inRange 65 90 b.toNat) && inRange 0 3 (num bs 4 1) && inRange 1 12 n
        && faces.all (inRange 1 10000000) && ascending faces && inRange 0 100000 (num bs 54 4) then
      some { letters := letters, exponent := num bs 4 1, faces := faces, tolerance := num bs 54 4, ceiling := ceiling }
    else none

def parseRate (bs : List Byte) : Option RateEntry :=
  if inRange 0 9999999999 (num bs 1 5) && inRange 0 9999999999 (num bs 6 5) then
    some { buy := num bs 1 5, sell := num bs 6 5 }
  else none

def roleOf : Nat → Option Role
  | 1 => some .clerk | 2 => some .senior | 3 => some .supervisor | _ => none

def classOf : Nat → Option TxClass
  | 1 => some .deposit | 2 => some .withdrawal | 3 => some .exchangeBuy | 4 => some .exchangeSell | 5 => some .nonCash
  | 6 => some .inquiry | 7 => some .transferIn | 8 => some .transferOut | 9 => some .delivery | 10 => some .shipment
  | _ => none

def authOf : Nat → Option Authorisation
  | 1 => some .branch | 2 => some .central | _ => none

def ruleOf : Nat → Option BreakdownRule
  | 1 => some .never | 2 => some .required | 3 => some .optional | _ => none

/-- The answer form is 0 to 31, or FFh for KEEP. -/
def answerFormOf (n : Nat) : Option (Option Nat) :=
  if n < 32 then some (some n) else if n = 255 then some none else none

def parseCode (bs : List Byte) : Option CodeEntry :=
  match classOf (num bs 8 1), authOf (num bs 9 1), ruleOf (num bs 11 1), flagOf (num bs 12 1), roleOf (num bs 13 1),
      answerFormOf (num bs 15 1) with
  | some cls, some auth, some rule, some print, some role, some form =>
    if inRange 1 255 (num bs 1 1) && (slice bs 2 6).all printable && inRange 1 15 (num bs 10 1)
        && inRange 0 3 (num bs 14 1) then
      some { code := num bs 1 1, mnemonic := slice bs 2 6, cls := cls, auth := auth,
             allowed := membersOf 0 4 (num bs 10 1), rule := rule, print := print, minRole := role,
             limitClass := num bs 14 1, answerForm := form }
    else none
  | _, _, _, _, _, _ => none

def parseTeller (bs : List Byte) : Option TellerEntry :=
  match roleOf (num bs 3 1), amountOf (slice bs 4 6), amountOf (slice bs 10 6), amountOf (slice bs 16 6),
      amountOf (slice bs 22 6), amountOf (slice bs 28 6) with
  | some role, some l0, some l1, some l2, some l3, some most =>
    if inRange 1 9999 (num bs 1 2) then
      some { id := num bs 1 2, role := role, limits := [l0, l1, l2, l3], overrideLimit := most }
    else none
  | _, _, _, _, _, _ => none

def conditionOf : Nat → Option WindowCondition
  | 1 => some .override | 2 => some .alert | 3 => some .either | _ => none

/-- A field set: first field 0 to 511, count 0 to 512, first plus count not above 512. -/
def parseRun (bs : List Byte) (off : Nat) : Option FieldRun :=
  let first := num bs off 2
  let count := num bs (off + 2) 2
  if first < 512 ∧ first + count ≤ 512 then some { first := first, count := count } else none

def parseRow (bs : List Byte) (off : Nat) : Option RowEntry :=
  match flagOf (num bs off 1) with
  | none => none
  | some useB =>
    if num bs (off + 1) 1 < 16 ∧ num bs (off + 2) 1 < 16 then
      some { useB := useB, base := num bs (off + 1) 1, delta := num bs (off + 2) 1 }
    else none

def parseForm (bs : List Byte) : Option FormEntry :=
  match conditionOf (num bs 4 1), parseRun bs 5, parseRun bs 9,
      (List.range 24).mapM (fun k => parseRow bs (13 + 3 * k)), flagOf (num bs 85 1) with
  | some cond, some a, some b, some table, some sel =>
    if inRange 0 3 (num bs 1 1) && inRange 1 24 (num bs 2 1) && inRange 1 24 (num bs 3 1)
        && decide (num bs 2 1 ≤ num bs 3 1) then
      some { mode := num bs 1 1, winFirst := num bs 2 1, winLast := num bs 3 1, winCond := cond, setA := a, setB := b,
             rows := table, selectable := sel }
    else none
  | _, _, _, _, _ => none

/-- The source of a FIELDS entry with its parameters in range; a parameter byte the source does not take is not read
(notes/assumptions/5.md). -/
def sourceOf (code p q : Nat) : Option Source :=
  match code with
  | 1 => if p < 128 then some (.text p) else none
  | 2 => some .position
  | 3 => some .tellerId
  | 4 => some .businessDate
  | 5 => some .dayState
  | 6 => if p < 4 then some (.drawerValue p) else none
  | 7 => if p < 4 then some (.drawerAvailable p) else none
  | 8 => if p < 4 ∧ 1 ≤ q ∧ q ≤ 12 then some (.drawerCount p q) else none
  | 9 => some .txnCode
  | 10 => some .txnCurrency
  | 11 => some .txnAmount
  | 12 => some .txnEquiv
  | 13 => some .txnAccount
  | 14 => some .txnState
  | 15 => some .balance
  | 16 => some .message
  | 17 => some .overrideCount
  | 18 => some .overridePosition
  | 19 => some .overrideAmount
  | 20 => some .overrideTag
  | 21 => some .printState
  | _ => none

def formatOf : Nat → Option Format
  | 1 => some .left | 2 => some .right | 3 => some .grouped | 4 => some .ungrouped | _ => none

/-- A column 1 to 80 and a width 1 to 80, ending at or before column 80 (R14). -/
def fits80 (col width : Nat) : Bool := inRange 1 80 col && inRange 1 80 width && decide (col + width ≤ 81)

def parseField (bs : List Byte) : Option FieldEntry :=
  match sourceOf (num bs 5 1) (num bs 6 1) (num bs 7 1), formatOf (num bs 8 1) with
  | some source, some format =>
    if inRange 1 24 (num bs 1 1) && fits80 (num bs 2 1) (num bs 3 1) && inRange 0 15 (num bs 4 1) then
      some { row := num bs 1 1, col := num bs 2 1, width := num bs 3 1, attr := num bs 4 1, source := source,
             format := format }
    else none
  | _, _ => none

/-- A literal text of 0 to 40 printable characters; the bytes beyond its length are not read (R201). -/
def parseText (bs : List Byte) : Option Text :=
  let n := num bs 1 1
  let t := slice bs 2 n
  if n ≤ 40 ∧ t.all printable then some t else none

def parseColumn (bs : List Byte) (off : Nat) : Option Column :=
  if fits80 (num bs off 1) (num bs (off + 1) 1) then some { col := num bs off 1, width := num bs (off + 1) 1 } else none

def parseLayout (bs : List Byte) : Option LayoutEntry :=
  match flagOf (num bs 3 1), parseColumn bs 4, parseColumn bs 6, parseColumn bs 8, parseColumn bs 10,
      parseColumn bs 12 with
  | some auto, some date, some mnem, some debit, some credit, some balance =>
    if inRange 12 30 (num bs 1 1) && inRange 1 40 (num bs 2 1) then
      some { lines := num bs 1 1, pages := num bs 2 1, autoTurn := auto, date := date, mnemonic := mnem, debit := debit,
             credit := credit, balance := balance }
    else none
  | _, _, _, _, _, _ => none

/-- The entry a content names: none when a field lies outside its range. A content with the defined flag clear is a
deletion whatever its fields hold; PARAMS and SURVEY_MASK cannot be deleted (R14). -/
def parseContent (x : Section) (bs : List Byte) : Option TableEntry :=
  let defined := num bs 0 1 != 0
  match x with
  | .params => if defined then some (.params (parseParams bs)) else none
  | .surveyMask => if defined then some (.surveyMask (membersOf 1 24 (leNat (slice bs 1 3)))) else none
  | .positions => if defined then (parsePosition bs).map (fun e => .position (some e)) else some (.position none)
  | .currencies => if defined then (parseCurrency bs).map (fun e => .currency (some e)) else some (.currency none)
  | .rates => if defined then (parseRate bs).map (fun e => .rate (some e)) else some (.rate none)
  | .codes => if defined then (parseCode bs).map (fun e => .code (some e)) else some (.code none)
  | .tellers => if defined then (parseTeller bs).map (fun e => .teller (some e)) else some (.teller none)
  | .forms => if defined then (parseForm bs).map (fun e => .form (some e)) else some (.form none)
  | .fields => if defined then (parseField bs).map (fun e => .field (some e)) else some (.field none)
  | .texts => if defined then (parseText bs).map (fun e => .text (some e)) else some (.text none)
  | .messages => if defined then (parseText bs).map (fun e => .message (some e)) else some (.message none)
  | .layouts => if defined then (parseLayout bs).map (fun e => .layout (some e)) else some (.layout none)

/-- The further conditions of R14 on an entry written at index i. -/
def TableEntry.sound (i : Nat) : TableEntry → Bool
  | .position (some e) => !(e.pair && i % 2 == 0)
  | .code (some e) =>
      (!e.print || (e.auth == .central && e.allowed == [0]))
        && (e.cls != .inquiry || e.auth == .central)
        && (!(e.cls == .exchangeBuy || e.cls == .exchangeSell) || !e.allowed.contains 0)
  | _ => true

/-- The entry has its defined flag set. -/
def TableEntry.defined : TableEntry → Bool
  | .position none => false | .currency none => false | .rate none => false | .code none => false
  | .teller none => false | .form none => false | .field none => false | .text none => false
  | .message none => false | .layout none => false | _ => true

/-- Every field of a content is zero or empty: a text's fill bytes are not read (R201). -/
def emptyFields (x : Section) (bs : List Byte) : Bool :=
  match x with
  | .texts => num bs 1 1 == 0
  | .messages => num bs 1 1 == 0
  | _ => (bs.drop 1).all (· == 0)

/-- The match indication of a verify read: the supplied content equals the stored entry field by field, PARAMS after
clamping (R13, step 3). -/
def contentMatches (x : Section) (bs : List Byte) (stored : TableEntry) : Bool :=
  if num bs 0 1 = 0 then !stored.defined && emptyFields x bs else parseContent x bs == some stored

/-! ### The ANSWER payload (R72) -/

/-- An unprinted item of an ANSWER. -/
structure AnswerItem where
  item : Nat
  date : Text
  mnemonic : Text
  amount : Int
  balance : Option Int
deriving DecidableEq, Repr

structure Answer where
  approve : Bool
  reason : Nat
  balance : Option Int
  item : Nat
  items : List AnswerItem
deriving DecidableEq, Repr

def parseAnswerItem (bs : List Byte) : AnswerItem :=
  { item := num bs 0 4, date := slice bs 4 8, mnemonic := slice bs 12 6, amount := intOf (slice bs 18 6),
    balance := balanceOf (slice bs 24 7) }

/-- An ANSWER payload; none when it breaks its layout (R72, R204). -/
def parseAnswer (bs : List Byte) : Option Answer :=
  let k := num bs 13 1
  if 14 ≤ bs.length ∧ inRange 1 2 (num bs 0 1) ∧ num bs 1 1 ≤ 31 ∧ k ≤ 24 ∧ bs.length = 14 + 31 * k then
    some { approve := num bs 0 1 == 1, reason := num bs 1 1, balance := balanceOf (slice bs 2 7), item := num bs 9 4,
           items := (List.range k).map (fun j => parseAnswerItem (slice bs (14 + 31 * j) 31)) }
  else none

/-! ### Station messages (R40, R204; 11, Station messages) -/

inductive PrinterStatus where
  | ready | lineDone | jam | jamCleared | turned
deriving DecidableEq, Repr

/-- A message from a unit: one constructor per kind of R40, and `bad` for a kind, size, count or STATUS value that R40
and R204 discard. -/
inductive InMsg where
  | signOn (teller : Nat) | signOff | suspend | resume (teller : Nat)
  | request (r : Request) | cancel | override (tag decision : Nat)
  | count (drawer : Nat) (lists : List (List Nat)) | reopen (drawer : Nat)
  | acceptDiff (drawer : Nat) (lists : List (List Nat))
  | form (form : Nat) | close
  | bookIn (account : Text) (layout page line : Nat) | bookOut | status (v : PrinterStatus)
  | opened | closed | fault
  | bad
deriving DecidableEq, Repr

/-- The m pairs of a breakdown from offset `off`. -/
def parsePairs (bs : List Byte) (off m : Nat) : List (Nat × Nat) :=
  (List.range m).map (fun j => (num bs (off + 3 * j) 1, num bs (off + 3 * j + 1) 2))

/-- A breakdown at offset `off`: its value (none inside when absent, FFh) and its size; none when its count byte is
above its limit. -/
def parseBreakdown (bs : List Byte) (off : Nat) : Option (Option (List (Nat × Nat)) × Nat) :=
  let m := num bs off 1
  if m ≤ 12 then some (some (parsePairs bs (off + 1) m), 1 + 3 * m)
  else if m = 255 then some (none, 1)
  else none

def parseRequest (bs : List Byte) : InMsg :=
  match parseBreakdown bs 29 with
  | none => .bad
  | some (bReq, n) =>
    match parseBreakdown bs (29 + n) with
    | none => .bad
    | some (bHome, m) =>
      if 31 ≤ bs.length ∧ bs.length = 29 + n + m ∧ num bs 8 1 ≤ 20 then
        .request { code := num bs 0 1, cur := num bs 1 1, amount := num bs 2 6, account := accountOf (slice bs 8 21),
                   bReq := bReq, bHome := bHome }
      else .bad

/-- `n` count lists from the bytes, each a count byte of at most 12 and its counts; none when a count byte is above its
limit or the bytes do not end with the last list. -/
def parseLists : Nat → List Byte → Option (List (List Nat))
  | 0, bs => if bs.isEmpty then some [] else none
  | n + 1, bs =>
    let m := num bs 0 1
    if bs.isEmpty ∨ 12 < m ∨ bs.length < 1 + 2 * m then none
    else
      match parseLists n (bs.drop (1 + 2 * m)) with
      | none => none
      | some rest => some ((List.range m).map (fun j => num bs (1 + 2 * j) 2) :: rest)

def statusOf : Nat → Option PrinterStatus
  | 1 => some .ready | 2 => some .lineDone | 3 => some .jam | 4 => some .jamCleared | 5 => some .turned | _ => none

/-- A message of unit 0, the screen unit. -/
def parseScreenMessage (kind : Nat) (bs : List Byte) : InMsg :=
  let n := bs.length
  match kind with
  | 0x01 => if n = 2 then .signOn (num bs 0 2) else .bad
  | 0x02 => if n = 0 then .signOff else .bad
  | 0x03 => if n = 0 then .suspend else .bad
  | 0x04 => if n = 2 then .resume (num bs 0 2) else .bad
  | 0x05 => parseRequest bs
  | 0x06 => if n = 0 then .cancel else .bad
  | 0x07 => if n = 3 then .override (num bs 0 2) (num bs 2 1) else .bad
  | 0x08 =>
    if n = 0 then .bad
    else match parseLists 4 (bs.drop 1) with
      | some ls => .count (num bs 0 1) ls
      | none => .bad
  | 0x09 => if n = 1 then .reopen (num bs 0 1) else .bad
  | 0x0A =>
    if n = 0 then .bad
    else match parseLists 4 (bs.drop 1) with
      | some ls => .acceptDiff (num bs 0 1) ls
      | none => .bad
  | 0x0B => if n = 1 then .form (num bs 0 1) else .bad
  | 0x0C => if n = 0 then .close else .bad
  | _ => .bad

/-- A message of unit 1, the printer. -/
def parsePrinterMessage (kind : Nat) (bs : List Byte) : InMsg :=
  let n := bs.length
  match kind with
  | 0x01 =>
    if n = 24 ∧ num bs 0 1 ≤ 20 then .bookIn (slice bs 1 (num bs 0 1)) (num bs 21 1) (num bs 22 1) (num bs 23 1) else .bad
  | 0x02 => if n = 0 then .bookOut else .bad
  | 0x03 =>
    if n = 1 then
      match statusOf (num bs 0 1) with
      | some v => .status v
      | none => .bad
    else .bad
  | _ => .bad

/-- A message of unit 2, the drawer unit. -/
def parseDrawerMessage (kind : Nat) (bs : List Byte) : InMsg :=
  if bs.length = 0 then
    match kind with
    | 0x01 => .opened
    | 0x02 => .closed
    | 0x03 => .fault
    | _ => .bad
  else .bad

/-- The message a unit's kind and payload name (R40). -/
def parseMessage (unit kind : Nat) (bs : List Byte) : InMsg :=
  match unit with
  | 0 => parseScreenMessage kind bs
  | 1 => parsePrinterMessage kind bs
  | 2 => parseDrawerMessage kind bs
  | _ => .bad

/-! ### Station frames as received (R24, R203) -/

/-- A frame received on the station line. `badCheck` fails its check; `badForm` fails it at once, by an unknown type
byte or a length above 250, and leaves the engine discarding bytes (R203). `control` is a well-checked frame that only
the 2410 sends. -/
inductive RxFrame where
  | badCheck
  | badForm
  | control (addr : Nat)
  | rollAnswer (addr presence attention : Nat)
  | message (addr unit seq : Nat) (m : InMsg)
  | reply (kind : ReplyKind) (addr unit seq : Nat)
  | echo (addr unit : Nat) (pattern : List Byte)
deriving DecidableEq, Repr

/-- The total size of a frame from its type, and for a message from its length byte; none for a type absent from the
table or a length above 250 (R203). The table sizes a ROLL_CALL at address 31 and at a position address; at any other address
the short form is taken (DEDUCED, notes/assumptions/35.md). -/
def stationSize (bs : List Byte) : Option Nat :=
  match num bs 1 1 with
  | 0x01 => some (if num bs 0 1 = 31 then 7 else 4)
  | 0x02 => some 6
  | 0x03 => some 5
  | 0x04 => some 5
  | 0x05 => some 4
  | 0x06 => some 13
  | 0x10 => if num bs 5 1 ≤ 250 then some (8 + num bs 5 1) else none
  | 0x20 => some 6
  | 0x21 => some 6
  | 0x22 => some 6
  | _ => none

/-- The content of a well-checked frame of a known type. -/
def stationContent (bs : List Byte) : RxFrame :=
  let addr := num bs 0 1
  match num bs 1 1 with
  | 0x02 => .rollAnswer addr (num bs 2 1) (num bs 3 1)
  | 0x06 => .echo addr (num bs 2 1) (slice bs 3 8)
  | 0x10 => .message addr (num bs 2 1) (num bs 4 1) (parseMessage (num bs 2 1) (num bs 3 1) (slice bs 6 (num bs 5 1)))
  | 0x20 => .reply .accept addr (num bs 2 1) (num bs 3 1)
  | 0x21 => .reply .reject addr (num bs 2 1) (num bs 3 1)
  | 0x22 => .reply .busy addr (num bs 2 1) (num bs 3 1)
  | _ => .control addr

/-- The frame that received bytes make; none while they are incomplete (R203, R24). -/
def parseStation (bs : List Byte) : Option RxFrame :=
  if bs.length < 2 then none
  else if num bs 1 1 = 0x10 ∧ bs.length < 6 then none
  else
    match stationSize bs with
    | none => some .badForm
    | some n =>
      if bs.length < n then none
      else if bs.length = n ∧ crc16Bytes (slice bs 0 (n - 2)) = slice bs (n - 2) 2 then some (stationContent bs)
      else some .badCheck

/-! ### Office-link frames as received (R1) -/

structure OfficeFrame where
  kind : Nat
  node : Nat
  tag : Nat
  payload : List Byte
deriving DecidableEq, Repr

/-- The frame between two boundaries; none for a bad frame: its check does not match, its length field is above 1,024
or disagrees with the payload bytes, its kind is not one of the four downward kinds, or it is shorter than its fixed
fields (R1). -/
def parseOffice (bs : List Byte) : Option OfficeFrame :=
  let n := num bs 4 2
  if 8 ≤ bs.length ∧ n ≤ 1024 ∧ bs.length = 8 + n ∧ inRange 1 4 (num bs 0 1) ∧
      crc16Bytes (slice bs 0 (6 + n)) = slice bs (6 + n) 2 then
    some { kind := num bs 0 1, node := num bs 1 1, tag := num bs 2 2, payload := slice bs 6 n }
  else none

end Sys2Proof.Machine
end

