-- ==== Sys2Proof/Machine/Flags.lean ====
section
/-! DEFINITION. Every flag and condition that is worked out from the state: the status summary (R8), the alert set of
a drawer (R92), the ALERT and OVERRIDE conditions (R135), the window condition and the chosen set (R132), the row
attribute (R133), the urgent rows (R144), and the exemption and completion tests of the day (R190). -/

namespace Sys2Proof.Machine

/-- The number of pending-table entries in use (R8, R67). -/
def State.pendingCount (s : State) : Nat := (s.entries.toList.filter Option.isSome).length

/-- The status summary with the reply's own slot counted among the used ones (R8). -/
def State.summary (s : State) : Summary :=
  { lock := s.lock
    live := s.live
    held := s.day.state == .held
    nearlyFull := decide (Config.nearlyFull ≤ s.usedCount)
    inReserve := decide (s.generalSpace < 1)
    prevFailed := s.port.prevFailed
    day := s.day.state
    survey := s.survey.state
    pendingCount := s.pendingCount
    freeSlots := s.freeSlots - 1 }

/-- Some alert flag of the drawer is set (R95, R135). -/
def Drawer.anyAlert (d : Drawer) : Bool := d.ceiling || d.openLong || d.forced

/-- The alert set as a bitmap: CEILING bit 0, OPEN_LONG bit 1, FORCED bit 2 (R201). -/
def Drawer.alertBits (d : Drawer) : Nat := d.ceiling.toNat + 2 * d.openLong.toNat + 4 * d.forced.toNat

/-- The ALERT condition: the own drawer has some alert flag set (R135). -/
def State.alertNow (s : State) (p : Nat) : Bool := (s.drawer (s.tables.ownDrawer p)).anyAlert

/-- The OVERRIDE condition: a supervisor session and a non-empty override order list (R135). -/
def State.overrideNow (s : State) (p : Nat) : Bool := s.supervisor p && !s.overrides.isEmpty

/-- The window condition of a form (R132). -/
def FormEntry.windowHolds (f : FormEntry) (alert override : Bool) : Bool :=
  match f.winCond with
  | .override => override
  | .alert => alert
  | .either => alert || override

/-- The row-table entry of row r. -/
def FormEntry.rowEntry (f : FormEntry) (r : Nat) : RowEntry := f.rows.getD (r - 1) RowEntry.zero

/-- Row r uses set B (R132). -/
def FormEntry.usesB (f : FormEntry) (alert override : Bool) (r : Nat) : Bool :=
  match f.mode with
  | 0 => false
  | 1 => true
  | 2 => (f.rowEntry r).useB
  | _ => inRange f.winFirst f.winLast r && f.windowHolds alert override

/-- The chosen set of row r (R132). -/
def FormEntry.chosen (f : FormEntry) (alert override : Bool) (r : Nat) : FieldRun :=
  if f.usesB alert override r then f.setB else f.setA

/-- The row attribute (R133). -/
def FormEntry.rowAttr (f : FormEntry) (alert : Bool) (r : Nat) : Nat :=
  if alert then ((f.rowEntry r).base + (f.rowEntry r).delta) % 16 else (f.rowEntry r).base

/-- The defined fields of a run in ascending index order (R131). -/
def Tables.runFields (t : Tables) (run : FieldRun) : List FieldEntry :=
  (List.range' run.first run.count).filterMap t.field

/-- The fields of a screen's row: those of its chosen set whose row is r (R132, R134). -/
def Screen.fieldsOf (t : Tables) (sc : Screen) (r : Nat) : List FieldEntry :=
  match t.form sc.form with
  | none => []
  | some f => (t.runFields (f.chosen sc.alert sc.override r)).filter (fun e => e.row == r)

/-- Row r holds, in its chosen set, a field whose source satisfies `touched` (R141). -/
def Screen.holds (t : Tables) (touched : Source → Bool) (sc : Screen) (r : Nat) : Bool :=
  (sc.fieldsOf t r).any (fun e => touched e.source)

/-- The sources of an outcome: MESSAGE and TXN_STATE (R144). -/
def outcomeSource : Source → Bool
  | .message => true
  | .txnState => true
  | _ => false

/-- The urgent rows: while the flag is set, the dirty rows whose chosen set holds a MESSAGE or TXN_STATE field
(R144). -/
def Screen.urgentRows (t : Tables) (sc : Screen) : List Nat :=
  if sc.urgent then sc.dirty.filter (sc.holds t outcomeSource) else []

/-- The dirty rows that are not urgent. -/
def Screen.otherRows (t : Tables) (sc : Screen) : List Nat :=
  sc.dirty.filter (fun r => !(sc.urgentRows t).contains r)

/-- The value of counts at the faces given, exactly (R93). -/
def valueOf (faces counts : List Nat) : Nat := (List.zipWith (· * ·) faces counts).sum

/-- The counts of one currency as a list of twelve. -/
def countsOf (c : CountTable) (cur : Nat) : List Nat := (rd c cur (Vector.replicate 12 0)).toList

/-- The book value of a currency in a drawer (R93). -/
def State.bookValue (s : State) (d c : Nat) : Nat := valueOf (s.tables.faces c) (countsOf (s.drawer d).book c)

/-- The reserved-out value (R93). -/
def State.reservedValue (s : State) (d c : Nat) : Nat := valueOf (s.tables.faces c) (countsOf (s.drawer d).reserved c)

/-- The pending-in value (R93). -/
def State.incomingValue (s : State) (d c : Nat) : Nat := valueOf (s.tables.faces c) (countsOf (s.drawer d).incoming c)

/-- The available value: book value less reserved-out value (R93). -/
def State.availableValue (s : State) (d c : Nat) : Nat := s.bookValue d c - s.reservedValue d c

/-- A drawer is exempt when it is ACTIVE, its book value is 0 in every currency and its posted-today flag is clear
(R190). -/
def State.exempt (s : State) (d : Nat) : Bool :=
  (s.drawer d).state == .active && (List.range 4).all (fun c => s.bookValue d c == 0) && !(s.drawer d).postedToday

/-- Drawers 1 to 24 are BALANCED or exempt, the vault is BALANCED, and no entry is in use (R190). -/
def State.canComplete (s : State) : Bool :=
  s.pendingCount == 0 && allPositions.all (fun d => (s.drawer d).state == .balanced || s.exempt d)
    && (s.drawer 0).state == .balanced

end Sys2Proof.Machine
end

