-- ==== Sys2Proof/Machine/Screens.lean ====
section
/-! DEFINITION. The screen composer (07_teller_screens.md): outcome texts, formats, field sources, row composition,
the marking of rows, form changes and full refreshes, outcomes shown, and the building of CLEAR and ROW messages. -/

namespace Sys2Proof.Machine

/-! ### Texts -/

/-- Characters as bytes. -/
def ascii (cs : List Char) : Text := cs.map (fun c => toByte c.toNat)

/-- The decimal digits of n, most significant first; `fuel` bounds their number. -/
def digitsFrom : Nat → Nat → Text
  | 0, _ => []
  | fuel + 1, n => (if n < 10 then [] else digitsFrom fuel (n / 10)) ++ [toByte (48 + n % 10)]

/-- A natural number in decimal, "0" for 0. -/
def natText (n : Nat) : Text := digitsFrom (n.log2 + 1) n

/-- A comma between each group of three digits, on digits read from the right (R140, step 2). -/
def groupThrees : Text → Text
  | a :: b :: c :: d :: rest => a :: b :: c :: 44 :: groupThrees (d :: rest)
  | short => short

/-- The integer part of an amount, with or without separators (R140, step 2). -/
def integerText (separators : Bool) (n : Nat) : Text :=
  if separators then (groupThrees (natText n).reverse).reverse else natText n

/-- The text of an amount with exponent e (R140). -/
def amountText (separators : Bool) (e : Nat) (i : Int) : Text :=
  let m := i.natAbs
  let whole := integerText separators (m / 10 ^ e)
  let frac := natText (m % 10 ^ e)
  let point := if e = 0 then [] else 46 :: (List.replicate (e - frac.length) 48 ++ frac)
  (if i < 0 then [45] else []) ++ whole ++ point

/-- Right-aligned in w cells; star-filled when it does not fit (R140). -/
def fitAmount (w : Nat) (t : Text) : Text :=
  if w < t.length then List.replicate w 42 else List.replicate (w - t.length) space ++ t

/-- A text in w cells: cut to its first w characters, placed at the left under LEFT, at the right otherwise (R139). -/
def fitText (f : Format) (w : Nat) (t : Text) : Text :=
  let t := t.take w
  match f with
  | .left => t ++ List.replicate (w - t.length) space
  | _ => List.replicate (w - t.length) space ++ t

/-- What a source gives: a text, an amount with its exponent, a count, or a blank (R136). -/
inductive FieldValue where
  | text (t : Text) | amount (i : Int) (exponent : Nat) | count (n : Nat) | blank
deriving DecidableEq, Repr

/-- A field's value laid out in exactly its width (R139, R140). -/
def layOut (f : Format) (w : Nat) : FieldValue → Text
  | .text t => fitText f w t
  | .amount i e => fitAmount w (amountText (f != .ungrouped) e i)
  | .count n => fitAmount w (amountText false 0 n)
  | .blank => List.replicate w space

def DayState.name : DayState → Text
  | .noDay => ascii ['N', 'O', '_', 'D', 'A', 'Y']
  | .opened => ascii ['O', 'P', 'E', 'N']
  | .cutoff => ascii ['C', 'U', 'T', 'O', 'F', 'F']
  | .sending => ascii ['S', 'E', 'N', 'D', 'I', 'N', 'G']
  | .held => ascii ['H', 'E', 'L', 'D']
  | .sent => ascii ['S', 'E', 'N', 'T']

def PrinterState.name : PrinterState → Text
  | .absent => ascii ['A', 'B', 'S', 'E', 'N', 'T']
  | .noBook => ascii ['N', 'O', '_', 'B', 'O', 'O', 'K']
  | .ready => ascii ['R', 'E', 'A', 'D', 'Y']
  | .printing => ascii ['P', 'R', 'I', 'N', 'T', 'I', 'N', 'G']
  | .waitBook => ascii ['W', 'A', 'I', 'T', '_', 'B', 'O', 'O', 'K']
  | .jammed => ascii ['J', 'A', 'M', 'M', 'E', 'D']
  | .fault => ascii ['F', 'A', 'U', 'L', 'T']

/-- The number of an outcome (R138). -/
def Shown.number : Shown → Nat
  | .approved => 0 | .declined _ => 1 | .noAnswer => 2 | .cancelled => 3 | .needsOverride => 4 | .overrideRefused => 5
  | .noOverride => 6 | .notLive => 7 | .notSignedOn => 8 | .suspended => 9 | .busy => 10 | .codeUnknown => 11
  | .role => 12 | .dayClosed => 13 | .currency => 14 | .rateMissing => 15 | .amount => 16 | .breakdownMismatch => 17
  | .quote => 18 | .drawerState => 19 | .drawerOpen => 20 | .noCash => 21 | .noChange => 22 | .drawerFull => 23
  | .journalFull => 24 | .tableFull => 25 | .linkBusy => 26 | .overLimit => 27 | .tooLate => 28 | .notPrinted => 29
  | .turnPage => 30 | .bookMismatch => 31 | .bookFull => 32 | .printerJam => 33 | .printerFault => 34
  | .printedOk => 35 | .balanced => 36 | .outOfBalance => 37 | .awaitingAccept => 38 | .drawerNotReleased => 39

/-- The MESSAGES index of an outcome's text: 32 plus the reason for DECLINED, its number for every other (R138). -/
def Shown.messageIndex : Shown → Nat
  | .declined q => 32 + q
  | o => o.number

/-- The text of an outcome; an undefined entry gives an empty text (R138). -/
def Tables.outcomeText (t : Tables) (o : Shown) : Text := (t.messageText o.messageIndex).getD []

/-- The text of a state message: the wait words are fixed (R138). -/
def Tables.stateText (t : Tables) : StateMsg → Text
  | .waiting => ascii ['W', 'A', 'I', 'T', 'I', 'N', 'G']
  | .queued => ascii ['Q', 'U', 'E', 'U', 'E', 'D']
  | .shown o => t.outcomeText o

/-! ### Field sources (R136) -/

/-- The entry at the head of the override order list. -/
def State.overrideHead (s : State) : Option Entry := (s.overrides.head?).bind s.entry

/-- A value read from an option, blank when it is absent. -/
def orBlank {α : Type} (o : Option α) (f : α → FieldValue) : FieldValue :=
  match o with
  | none => .blank
  | some a => f a

/-- The exponent of the view's currency, 0 when it is none, undefined or above 3 (R136). -/
def State.viewExponent (s : State) (v : View) : Nat := ((v.cur).map s.tables.exponent).getD 0

/-- The value of a source on the screen of position p, read at composition (R136). -/
def State.sourceValue (s : State) (p : Nat) : Source → FieldValue
  | .text i => orBlank (s.tables.text i) .text
  | .position => .count p
  | .tellerId => if (s.session p).state = .signedOff then .blank else orBlank (s.session p).teller .count
  | .businessDate => if s.day.state = .noDay then .blank else orBlank s.day.date .text
  | .dayState => .text s.day.state.name
  | .drawerValue c =>
      orBlank (s.tables.currency c) (fun e => .amount (s.bookValue (s.tables.ownDrawer p) c) e.exponent)
  | .drawerAvailable c =>
      orBlank (s.tables.currency c) (fun e =>
        .amount (if (s.drawer (s.tables.ownDrawer p)).state = .active
          then s.availableValue (s.tables.ownDrawer p) c else 0) e.exponent)
  | .drawerCount c d =>
      orBlank (s.tables.currency c) (fun e =>
        if e.faces.length < d then .blank
        else .count ((countsOf (s.drawer (s.tables.ownDrawer p)).book c).getD (d - 1) 0))
  | .txnCode =>
      orBlank (s.screen p).view.code (fun code =>
        match (s.screen p).view.mnemonic with
        | some m => .text m
        | none => .text (natText code))
  | .txnCurrency => orBlank ((s.screen p).view.cur.bind s.tables.currency) (fun e => .text e.letters)
  | .txnAmount => orBlank (s.screen p).view.amount (fun a => .amount a (s.viewExponent (s.screen p).view))
  | .txnEquiv => orBlank (s.screen p).view.equiv (fun a => .amount a (s.tables.exponent 0))
  | .txnAccount => orBlank (s.screen p).view.account .text
  | .txnState => orBlank (s.screen p).view.stateMsg (fun m => .text (s.tables.stateText m))
  | .balance => orBlank (s.screen p).view.balance (fun b => .amount b (s.viewExponent (s.screen p).view))
  | .message => orBlank (s.screen p).last (fun o => .text (s.tables.outcomeText o))
  | .overrideCount => if s.supervisor p then .count s.overrides.length else .blank
  | .overridePosition => if s.supervisor p then orBlank s.overrideHead (fun e => .count e.req.pos) else .blank
  | .overrideAmount =>
      if s.supervisor p then orBlank s.overrideHead (fun e => .amount (e.req.equiv.getD 0) (s.tables.exponent 0))
      else .blank
  | .overrideTag => if s.supervisor p then orBlank s.overrideHead (fun e => .count e.tag) else .blank
  | .printState => .text (s.printer p).state.name

/-! ### Row composition (R134) -/

/-- The cells of a row with a field's text written from its column. -/
def writeCells (cells : List Cell) (col : Nat) (text : Text) (attr : Nat) : List Cell :=
  cells.take (col - 1) ++ text.map (fun ch => { char := ch, attr := attr }) ++ cells.drop (col - 1 + text.length)

/-- The 80 cells of row r; while the current form is undefined, 80 spaces with attribute 0 (R131, R134). -/
def State.composeRow (s : State) (p r : Nat) : List Cell :=
  match s.tables.form (s.screen p).form with
  | none => List.replicate 80 { char := space, attr := 0 }
  | some f =>
    let rowAttr := f.rowAttr (s.screen p).alert r
    ((s.screen p).fieldsOf s.tables r).foldl
      (fun cells e =>
        writeCells cells e.col (layOut e.format e.width (s.sourceValue p e.source))
          (if e.attr = 0 then rowAttr else e.attr))
      (List.replicate 80 { char := space, attr := rowAttr })

/-- A row is blank when every cell holds a space with attribute 0 (R134). -/
def blankRow (cells : List Cell) : Bool := cells.all (fun c => c.char == space && c.attr == 0)

/-! ### Marking and changes of one screen -/

namespace Screen

/-- The rows of `more` join the dirty-row set. -/
def addDirty (sc : Screen) (more : Nat → Bool) : Screen :=
  { sc with dirty := allRows.filter (fun r => sc.dirty.contains r || more r) }

/-- Mark every row that holds, in its chosen set, a source that the change touches (R141). -/
def mark (t : Tables) (touched : Source → Bool) (sc : Screen) : Screen := sc.addDirty (sc.holds t touched)

/-- The urgent flag is cleared as soon as no urgent row is left (R144). -/
def settle (t : Tables) (sc : Screen) : Screen :=
  if sc.urgentRows t = [] then { sc with urgent := false } else sc

/-- All 24 rows dirty and clear-pending set (R143). -/
def allDirty (sc : Screen) : Screen := { sc with dirty := allRows, clearPending := true }

/-- A full refresh (R143). -/
def refresh (t : Tables) (sc : Screen) : Screen := sc.allDirty.settle t

/-- The form becomes current; the same form changes nothing (R143). -/
def setForm (f : Nat) (sc : Screen) : Screen := if sc.form = f then sc else { sc with form := f }.allDirty

/-- A change of either condition marks the rows whose chosen set or row attribute differs (R142) and tests the urgent flag
(R144). The test stands at the change itself: the marks that a later part of the same event makes come after it (DEDUCED,
notes/assumptions/9.md). -/
def setConditions (t : Tables) (alert override : Bool) (sc : Screen) : Screen :=
  if sc.alert = alert ∧ sc.override = override then sc
  else
    let next := { sc with alert := alert, override := override }
    match t.form sc.form with
    | none => next.settle t
    | some f =>
      (next.addDirty (fun r =>
        f.usesB sc.alert sc.override r != f.usesB alert override r || f.rowAttr sc.alert r != f.rowAttr alert r)).settle t

/-- An outcome becomes the last outcome and the state message, its rows are marked and the urgent flag is set (R137,
R141, R144). The flag is settled by the operation that calls this, after any form change of the same event. -/
def takeOutcome (t : Tables) (o : Shown) (sc : Screen) : Screen :=
  mark t outcomeSource { sc with last := some o, view := { sc.view with stateMsg := some (.shown o) }, urgent := true }

/-- The sources of the view (R141). -/
def viewSource : Source → Bool
  | .txnCode => true | .txnCurrency => true | .txnAmount => true | .txnEquiv => true | .txnAccount => true
  | .balance => true | _ => false

/-- The view is set: code, mnemonic, currency, amount, equivalent and account are replaced and the balance is cleared
(R137). -/
def setView (t : Tables) (code : Nat) (mnemonic : Option Text) (cur : Nat) (amount equiv : Option Nat)
    (account : Option Text) (sc : Screen) : Screen :=
  mark t viewSource { sc with view := { sc.view with
    code := some code, mnemonic := mnemonic, cur := some cur, amount := amount, equiv := equiv, account := account,
    balance := none } }

/-- A wait word or NEEDS_OVERRIDE becomes the state message (R137, entry report). -/
def report (t : Tables) (m : StateMsg) (sc : Screen) : Screen :=
  mark t (· == .txnState) { sc with view := { sc.view with stateMsg := some m } }

/-- A balance passed with an answer; an answer without one leaves the balance none (R137). -/
def takeBalance (t : Tables) (b : Option Int) (sc : Screen) : Screen :=
  let next := { sc with view := { sc.view with balance := b } }
  if b.isSome then mark t (· == .balance) next else next

end Screen

/-! ### Screens of the part -/

namespace State

/-- A change of one position's screen. -/
def onScreen (s : State) (p : Nat) (f : Tables → Screen → Screen) : State :=
  s.setScreen p (f s.tables (s.screen p))

/-- A change of the screens of several positions, in order. -/
def onScreens (s : State) (ps : List Nat) (f : Tables → Screen → Screen) : State :=
  ps.foldl (fun s p => s.onScreen p f) s

/-- Rows touched on the screens of several positions (R141). -/
def touch (s : State) (ps : List Nat) (touched : Source → Bool) : State :=
  s.onScreens ps (fun t sc => sc.mark t touched)

/-- The composer re-evaluates a screen's conditions (R135). -/
def reevaluate (s : State) (p : Nat) : State :=
  s.onScreen p (fun t sc => sc.setConditions t (s.alertNow p) (s.overrideNow p))

/-- The same for several positions. -/
def reevaluateAll (s : State) (ps : List Nat) : State := ps.foldl (fun s p => s.reevaluate p) s

/-- An outcome is shown at a position (R137, R144). -/
def showAt (s : State) (p : Nat) (o : Shown) : State :=
  s.onScreen p (fun t sc => (sc.takeOutcome t o).settle t)

/-- An outcome is shown at several positions. -/
def showAll (s : State) (ps : List Nat) (o : Shown) : State := ps.foldl (fun s p => s.showAt p o) s

/-- An outcome and an answer form in one event: the outcome is shown and the screen takes the form unless KEEP; the
urgent flag is settled once both stand (R150, R144; notes/assumptions/9.md). -/
def showWithForm (s : State) (p : Nat) (o : Shown) (form : Option Nat) : State :=
  s.onScreen p (fun t sc =>
    let sc := sc.takeOutcome t o
    (match form with
      | some f => sc.setForm f
      | none => sc).settle t)

/-- The screen takes a form (R143). -/
def takeForm (s : State) (p f : Nat) : State := s.onScreen p (fun t sc => (sc.setForm f).settle t)

/-- The screen takes the default form of its position's entry; an undefined entry names none (R150). -/
def takeDefaultForm (s : State) (p : Nat) : State :=
  match s.tables.position p with
  | some e => s.takeForm p e.defaultForm
  | none => s

/-- The sources that show the override order list. -/
def overrideSource : Source → Bool
  | .overrideCount => true | .overridePosition => true | .overrideAmount => true | .overrideTag => true | _ => false

/-- A change of a session is passed to the composer: OVERRIDE is re-evaluated and the rows showing the teller id and
the override figures are marked (R51, R135, R141); the urgent flag is tested between the two (notes/assumptions/9.md). -/
def sessionReport (s : State) (p : Nat) : State :=
  (s.reevaluate p).touch [p] (fun x => x == .tellerId || overrideSource x)

/-- The session of a position becomes x; only a change is passed on (R51). -/
def setSession (s : State) (p : Nat) (x : Session) : State :=
  if s.session p = x then s else (s.withSessions (wr1 s.sessions p x)).sessionReport p

/-- The role is copied from the teller's entry when the position holds a session (R51). -/
def copyRole (s : State) (p : Nat) : State :=
  match (s.session p).teller with
  | none => s
  | some id =>
    match s.tables.findTeller id with
    | some e => s.setSession p { s.session p with role := some e.role }
    | none => s

/-- The override order list becomes l: OVERRIDE is re-evaluated on every screen, and the rows showing the figures are
marked on every screen of a supervisor session, the head's three only when the head changed (R79, R135, R141). The urgent
flag is tested between the two (notes/assumptions/9.md). -/
def setOverrides (s : State) (l : List Nat) : State :=
  if s.overrides = l then s
  else
    let headChanged := s.overrides.head? != l.head?
    let t := (s.withOverrides l).reevaluateAll allPositions
    t.touch (allPositions.filter t.supervisor)
      (fun x => x == .overrideCount || (headChanged && overrideSource x))

/-- A new day state is shown on every screen. R141's table touches DAY_STATE and BUSINESS_DATE at any new day state, R184 names
the BUSINESS_DATE rows at OPEN DAY alone; the table is followed (DEDUCED, notes/assumptions/33.md). -/
def dayReport (s : State) : State := s.touch allPositions (fun x => x == .dayState || x == .businessDate)

/-- The sources that show a drawer's counts in currency c. -/
def drawerSource (c : Nat) : Source → Bool
  | .drawerValue k => k == c
  | .drawerAvailable k => k == c
  | .drawerCount k _ => k == c
  | _ => false

/-- A change of a drawer's book or reserved-out counts in currency c (R95, R141). -/
def countReport (s : State) (d c : Nat) : State := s.touch (s.tables.drawerPositions d) (drawerSource c)

/-- A change of a drawer's state, or of its recount number alone, touches DRAWER_AVAILABLE of every currency (R124, R141;
DEDUCED for the recount number, notes/assumptions/26.md). -/
def drawerStateReport (s : State) (d : Nat) : State :=
  s.touch (s.tables.drawerPositions d) (fun x => match x with | .drawerAvailable _ => true | _ => false)

/-- A change of a drawer's alert flags re-evaluates ALERT on the screens of the drawer's positions (R95, R135). -/
def alertReport (s : State) (d : Nat) : State := s.reevaluateAll (s.tables.drawerPositions d)

/-- A printer's state becomes x; a change marks the position's PRINT_STATE rows (R153, R141). -/
def setPrinterState (s : State) (p : Nat) (x : PrinterState) : State :=
  if (s.printer p).state = x then s
  else (s.setPrinter p { s.printer p with state := x }).touch [p] (· == .printState)

/-! ### Building a message (R145, R146) -/

/-- Row r is built: it leaves the dirty-row set, and the blank-known set follows what was composed (R145, R146). -/
def rowBuilt (s : State) (p r : Nat) (blank : Bool) : State :=
  s.onScreen p (fun t sc =>
    ({ sc with
        dirty := sc.dirty.filter (· != r)
        blankKnown := if blank then allRows.filter (fun k => k == r || sc.blankKnown.contains k)
          else sc.blankKnown.filter (· != r) } : Screen).settle t)

/-- Build the next row of those the class may send, passing over rows known to be blank; `fuel` bounds the rows passed
over (R145, R146). -/
def buildRow (s : State) (p : Nat) (urgent : Bool) : Nat → State × Option OutMsg
  | 0 => (s, none)
  | fuel + 1 =>
    let candidates := if urgent then (s.screen p).urgentRows s.tables else (s.screen p).otherRows s.tables
    match candidates with
    | [] => (s, none)
    | r :: _ =>
      let cells := s.composeRow p r
      let next := s.rowBuilt p r (blankRow cells)
      if blankRow cells && (s.screen p).blankKnown.contains r then next.buildRow p urgent fuel
      else (next, some (.row r cells))

/-- The message the composer builds on an URGENT or REFRESH grant: a CLEAR while clear-pending is set, otherwise a row;
an URGENT request that finds no urgent row clears the urgent flag (R145, R146). -/
def buildMessage (s : State) (p : Nat) (urgent : Bool) : State × Option OutMsg :=
  if (s.screen p).clearPending then
    (s.setScreen p { s.screen p with clearPending := false, blankKnown := allRows }, some .clear)
  else
    match s.buildRow p urgent 25 with
    | (t, some m) => (t, some m)
    | (t, none) => (if urgent then t.setScreen p { t.screen p with urgent := false } else t, none)

/-- A message comes back undelivered: a ROW marks its row dirty again and the row leaves the blank-known set, a CLEAR
sets clear-pending again (R147). -/
def screenReturned (s : State) (p : Nat) : OutMsg → State
  | .row r _ =>
      s.onScreen p (fun _ sc =>
        { sc.addDirty (· == r) with blankKnown := sc.blankKnown.filter (· != r) })
  | .clear => s.setScreen p { s.screen p with clearPending := true }
  | _ => s

end State

end Sys2Proof.Machine
end

