-- ==== Sys2Proof/Machine/Cash.lean ====
section
/-! DEFINITION. The cash unit's operations (05_cash_drawers.md; the proof's arithmetic of 06): counts, breakdowns,
note selection, exchange figures, reservation, release, posting, the ceiling test and the drawer unit. -/

namespace Sys2Proof.Machine

/-! ### Counts -/

/-- The count of a currency's denomination position (1 to 12). -/
def countAt (t : CountTable) (cur den : Nat) : Nat := rd1 (rd t cur (Vector.replicate 12 0)) den 0

/-- The table with one count replaced. -/
def putCount (t : CountTable) (cur den n : Nat) : CountTable :=
  wr t cur (wr1 (rd t cur (Vector.replicate 12 0)) den n)

/-- The available count of a denomination: book less reserved-out (R93). -/
def Drawer.available (d : Drawer) (cur den : Nat) : Nat := countAt d.book cur den - countAt d.reserved cur den

/-- The headroom of a denomination: 65,535 less book less pending-in (R93). -/
def Drawer.headroom (d : Drawer) (cur den : Nat) : Nat := 65535 - countAt d.book cur den - countAt d.incoming cur den

/-! ### Breakdowns (R97) and note selection (R100) -/

/-- The value of (denomination position, count) pairs, exactly (R97). -/
def pairsValue (faces : List Nat) (pairs : List (Nat × Nat)) : Nat :=
  (pairs.map (fun p => p.2 * faces.getD (p.1 - 1) 0)).sum

/-- The tests of a breakdown: every position named exists, none is named twice, the value equals the amount (R97). -/
def breakdownOk (faces : List Nat) (amount : Nat) (pairs : List (Nat × Nat)) : Bool :=
  pairs.all (fun p => inRange 1 faces.length p.1) && decide (pairs.map (·.1)).Nodup
    && pairsValue faces pairs == amount

/-- A breakdown as its nonzero pairs in ascending position (R173, R98). -/
def countsOfPairs (pairs : List (Nat × Nat)) : Counts :=
  (List.range' 1 12).filterMap (fun d =>
    match pairs.find? (fun p => p.1 == d) with
    | some p => if p.2 = 0 then none else some p
    | none => none)

/-- One walk over (denomination position, face, available count), largest face first: the counts taken and the amount
that remains (R100). -/
def noteWalk : List (Nat × Nat × Nat) → Nat → Counts × Nat
  | [], remaining => ([], remaining)
  | (den, face, available) :: rest, remaining =>
    let k := min available (remaining / face)
    let (taken, left) := noteWalk rest (remaining - k * face)
    (if k = 0 then taken else (den, k) :: taken, left)

/-- The denominations of a currency from the largest face down, with what a drawer has available. -/
def State.notesOf (s : State) (d cur : Nat) : List (Nat × Nat × Nat) :=
  ((s.tables.faces cur).mapIdx (fun i face => (i + 1, face, (s.drawer d).available cur (i + 1)))).reverse

/-- Check 13 for an outgoing side: the counts that leave, or NO_CASH or NO_CHANGE (R99, R100). -/
def State.outgoing (s : State) (d cur amount : Nat) (keyed : Option (List (Nat × Nat))) : Except Shown Counts :=
  match keyed with
  | some pairs =>
    if pairs.all (fun p => decide (p.2 ≤ (s.drawer d).available cur p.1)) then .ok (countsOfPairs pairs)
    else .error .noCash
  | none =>
    if s.availableValue d cur < amount then .error .noCash
    else
      match noteWalk (s.notesOf d cur) amount with
      | (taken, 0) => .ok taken.reverse
      | _ => .error .noChange

/-- Check 14 for an incoming side: the counts fit the headroom, and the currency's book and pending-in value with them
stays within 999,999,999,999 (R101). -/
def State.incomingFits (s : State) (d cur : Nat) (counts : Counts) : Bool :=
  counts.all (fun p => decide (p.2 ≤ (s.drawer d).headroom cur p.1))
    && decide (s.bookValue d cur + s.incomingValue d cur + pairsValue (s.tables.faces cur) counts ≤ Config.amountMax)

/-! ### Exchange (R104) and the home equivalent (R63) -/

def ceilDiv (a b : Nat) : Nat := (a + b - 1) / b

/-- E, C and the residue of an exchange: floors on a purchase, ceilings on a sale (R104). -/
def exchangeFigures (sale : Bool) (amount rate step : Nat) : Exchange :=
  let product := amount * rate
  let e := if sale then ceilDiv product 100000000 else product / 100000000
  let c := if sale then ceilDiv e step * step else e / step * step
  { rate := rate, equiv := e, cash := c, residue := (e : Int) - (c : Int) }

/-! ### Reservation, release and posting (R98, R102, R103) -/

/-- The items of one side: one for each nonzero count. -/
def sideItems (d cur : Nat) (out : Bool) (counts : Counts) : List Item :=
  counts.map (fun p => { drawer := d, cur := cur, den := p.1, count := p.2, out := out })

def Drawer.reserve (x : Drawer) (i : Item) : Drawer :=
  if i.out then { x with reserved := putCount x.reserved i.cur i.den (countAt x.reserved i.cur i.den + i.count) }
  else { x with incoming := putCount x.incoming i.cur i.den (countAt x.incoming i.cur i.den + i.count) }

def Drawer.release (x : Drawer) (i : Item) : Drawer :=
  if i.out then { x with reserved := putCount x.reserved i.cur i.den (countAt x.reserved i.cur i.den - i.count) }
  else { x with incoming := putCount x.incoming i.cur i.den (countAt x.incoming i.cur i.den - i.count) }

/-- An OUT item leaves the book and the reserved-out count; an IN item enters the book from the pending-in count; the
drawer is posted today (R103). -/
def Drawer.post (x : Drawer) (i : Item) : Drawer :=
  let b := countAt x.book i.cur i.den
  if i.out then
    { x with book := putCount x.book i.cur i.den (b - i.count)
             reserved := putCount x.reserved i.cur i.den (countAt x.reserved i.cur i.den - i.count)
             postedToday := true }
  else
    { x with book := putCount x.book i.cur i.den (b + i.count)
             incoming := putCount x.incoming i.cur i.den (countAt x.incoming i.cur i.den - i.count)
             postedToday := true }

namespace State

/-- Each item changes its own drawer. -/
def eachItem (s : State) (items : List Item) (f : Drawer → Item → Drawer) : State :=
  items.foldl (fun s i => s.setDrawer i.drawer (f (s.drawer i.drawer) i)) s

/-- A change of reserved-out or book counts is reported for every item it concerns (R95). -/
def itemReports (s : State) (items : List Item) : State := items.foldl (fun s i => s.countReport i.drawer i.cur) s

/-- The OUT items of a list. -/
def outItems (items : List Item) : List Item := items.filter (·.out)

/-- Make the reservations (R98). -/
def reserveItems (s : State) (items : List Item) : State :=
  (s.eachItem items Drawer.reserve).itemReports (outItems items)

/-- Release the reservations (R102). -/
def releaseItems (s : State) (items : List Item) : State :=
  (s.eachItem items Drawer.release).itemReports (outItems items)

/-- The drawers a reservation list names, ascending. -/
def itemDrawers (items : List Item) : List Nat := allDrawers.filter (fun d => items.any (fun i => i.drawer == d))

/-- Some defined currency with a ceiling has a book value above it (R106). -/
def overCeiling (s : State) (d : Nat) : Bool :=
  (List.range 4).any (fun c =>
    match s.tables.currency c with
    | some e => decide (0 < e.ceiling) && decide (e.ceiling < s.bookValue d c)
    | none => false)

/-- The ceiling test of a drawer: setting the alert offers an ALARM, clearing it offers nothing (R106). -/
def ceilingTest (s : State) (d : Nat) : State :=
  if s.overCeiling d && !(s.drawer d).ceiling then
    ((s.setDrawer d { s.drawer d with ceiling := true }).alarm .ceiling d).alertReport d
  else if !s.overCeiling d && (s.drawer d).ceiling then
    (s.setDrawer d { s.drawer d with ceiling := false }).alertReport d
  else s

/-- The ceiling test of several drawers, ascending. -/
def ceilingTests (s : State) (ds : List Nat) : State := ds.foldl ceilingTest s

/-- Effect 1 of the posting hand-off: the items move into the books, and each drawer named takes the ceiling test
(R86, R103). -/
def postItems (s : State) (items : List Item) : State :=
  (s.eachItem items Drawer.post).ceilingTests (itemDrawers items)

/-! ### The drawer unit (R107 to R111) -/

/-- A RELEASE for drawer d already waits in its serving unit's queue. -/
def releaseQueued (s : State) (d : Nat) : Bool := (s.unit d 2).queue.any (fun q => q.msg == .release)

/-- A RELEASE is offered under URGENT unless one is already queued; an offer to an absent unit is undelivered (R107). -/
def offerRelease (s : State) (d : Nat) : State :=
  if s.releaseQueued d then s else s.offer d 2 .release .urgent

/-- The offer of a RELEASE would be refused as undelivered. -/
def releaseRefused (s : State) (d : Nat) : Bool := !s.releaseQueued d && s.offerAnswer d 2 == .undelivered

/-- Effect 4 of the posting hand-off for the drawers named that have a serving unit: release-pending set and the RELEASE
offered (R86, R107). -/
def releaseDrawers (s : State) (ds : List Nat) : State :=
  (ds.filter s.tables.serving).foldl
    (fun s d => (s.setDrawer d { s.drawer d with releasePending := true }).offerRelease d) s

/-- The drawers among those named whose RELEASE is refused as undelivered. -/
def refusedReleases (s : State) (ds : List Nat) : List Nat := (ds.filter s.tables.serving).filter s.releaseRefused

/-- DRAWER_NOT_RELEASED is shown at the positions of each drawer (R107). -/
def showNotReleased (s : State) (ds : List Nat) : State :=
  ds.foldl (fun s d => s.showAll (s.tables.drawerPositions d) .drawerNotReleased) s

/-- Delivery of a RELEASE clears release-pending and sets release-delivered; the flags of a drawer without serving unit
stay clear (R107, R94). -/
def releaseDelivered (s : State) (d : Nat) : State :=
  if s.tables.serving d then
    s.setDrawer d { s.drawer d with releasePending := false, releaseDelivered := true }
  else s

/-- OPENED from the serving unit of drawer d in CLOSED or UNKNOWN: the drawer opens; an opening with both release flags
clear is forced (R108). In NO_DAY no record is written, since none is before OPEN DAY writes the OPEN record (R183). -/
def drawerOpens (s : State) (d : Nat) : State :=
  let x := s.drawer d
  let forced := !x.releasePending && !x.releaseDelivered
  let n := if x.openings < 65535 then x.openings + 1 else x.openings
  let t := s.setDrawer d { x with physical := .opened, openings := n, openAlarm := some s.tables.params.openAlarm,
                                  releaseDelivered := false, forced := x.forced || forced }
  if forced then
    let t := if t.generalRoom && t.day.state != .noDay then t.append (.forcedOpen d d n) else t
    (t.alarm .forcedOpen d).alertReport d
  else t

/-- OPENED (R108); from a position whose drawer has no serving unit it is discarded and counted (R111). -/
def takeOpened (s : State) (p : Nat) : State :=
  if s.tables.serving p then
    if (s.drawer p).physical = .opened then s else s.drawerOpens p
  else s.countLineBadMessage

/-- CLOSED: the physical state becomes CLOSED, the open-alarm timer stops, OPEN_LONG and FORCED are cleared (R109). -/
def takeClosed (s : State) (p : Nat) : State :=
  if s.tables.serving p then
    if (s.drawer p).physical = .closed then s
    else
      (s.setDrawer p { s.drawer p with physical := .closed, openAlarm := none, openLong := false,
                                       forced := false }).alertReport p
  else s.countLineBadMessage

/-- The physical state becomes UNKNOWN and the open-alarm timer stops (R111). -/
def drawerUnknown (s : State) (d : Nat) : State :=
  s.setDrawer d { s.drawer d with physical := .unknown, openAlarm := none }

/-- FAULT (R111). -/
def takeFault (s : State) (p : Nat) : State :=
  if s.tables.serving p then s.drawerUnknown p else s.countLineBadMessage

/-- The open-alarm timer of a drawer expires: OPEN_LONG is set and an ALARM notice offered; the timer is not loaded
again (R110). -/
def openAlarmExpires (s : State) (d : Nat) : State :=
  if (s.drawer d).openAlarm.isSome then
    ((s.setDrawer d { s.drawer d with openAlarm := none, openLong := true }).alarm .openLong d).alertReport d
  else s

/-- The serving unit becomes ABSENT (R111, R32). -/
def drawerUnitAbsent (s : State) (p : Nat) : State := if s.tables.serving p then s.drawerUnknown p else s

/-- The serving unit returns: a RELEASE is offered if release-pending is set (R33, R107). -/
def drawerUnitReturned (s : State) (p : Nat) : State :=
  if s.tables.serving p && (s.drawer p).releasePending then s.offerRelease p else s

/-- A POSITIONS write gave drawer d a serving unit, or took it away (R94). -/
def servingChanged (s : State) (d : Nat) : State :=
  if s.tables.serving d then s.setDrawer d { s.drawer d with physical := .unknown }
  else
    (s.setDrawer d { s.drawer d with physical := .closed, openAlarm := none, releasePending := false,
                                     releaseDelivered := false, openLong := false, forced := false }).alertReport d

/-! ### The proof's arithmetic (R114, R116) -/

/-- The count lists have the form of R114: as many counts as the currency has faces, none for an undefined currency. -/
def listsFit (s : State) (lists : List (List Nat)) : Bool :=
  (List.range 4).all (fun c => (lists.getD c []).length == (s.tables.faces c).length)

/-- The counted value V of a currency (R116). -/
def countedValue (s : State) (lists : List (List Nat)) (c : Nat) : Nat := valueOf (s.tables.faces c) (lists.getD c [])

/-- The difference D of a currency, V less B; 0 for an undefined currency (R116). -/
def difference (s : State) (d : Nat) (lists : List (List Nat)) (c : Nat) : Int :=
  if (s.tables.currency c).isSome then (s.countedValue lists c : Int) - (s.bookValue d c : Int) else 0

/-- The four differences. -/
def differences (s : State) (d : Nat) (lists : List (List Nat)) : List Int := (List.range 4).map (s.difference d lists)

/-- The proof passes: no defined currency's difference exceeds its tolerance (R116). -/
def proves (s : State) (d : Nat) (lists : List (List Nat)) : Bool :=
  (List.range 4).all (fun c =>
    match s.tables.currency c with
    | some e => decide ((s.difference d lists c).natAbs ≤ e.tolerance)
    | none => true)

/-- Some currency's counted value exceeds 999,999,999,999 (R115, R120). -/
def countedTooMuch (s : State) (lists : List (List Nat)) : Bool :=
  (List.range 4).any (fun c => decide (Config.amountMax < s.countedValue lists c))

/-- The defined currencies. -/
def definedCurrencies (s : State) : List Nat := (List.range 4).filter (fun c => (s.tables.currency c).isSome)

/-- The book counts of one currency replaced by counted counts, in ascending position. -/
def replaceCurrency (t : CountTable) (c : Nat) (counts : List Nat) : CountTable :=
  (counts.mapIdx (fun i n => (i + 1, n))).foldl (fun t p => putCount t c p.1 p.2) t

/-- The book counts of every defined currency are replaced by the counted counts (R117, effect 1), reported, and followed
by the ceiling test (R124). R124 orders the report and the test each against the replacement and not against one another:
that every currency is reported before the test, whose own report settles the urgent flag, is the model's reading
(DEDUCED, notes/assumptions/12.md). -/
def replaceBook (s : State) (d : Nat) (lists : List (List Nat)) : State :=
  let book := s.definedCurrencies.foldl (fun t c => replaceCurrency t c (lists.getD c [])) (s.drawer d).book
  let t := s.setDrawer d { s.drawer d with book := book }
  (s.definedCurrencies.foldl (fun t c => t.countReport d c) t).ceilingTest d

/-- The drawer holds a reservation: some reserved-out or pending-in count is above 0 (R115, check 4). -/
def holdsReservation (s : State) (d : Nat) : Bool :=
  (List.range 4).any (fun c =>
    (countsOf (s.drawer d).reserved c).any (fun n => n != 0) || (countsOf (s.drawer d).incoming c).any (fun n => n != 0))

end State

end Sys2Proof.Machine
end

