-- ==== Sys2Proof/Machine/DayEnd.lean ====
section
/-! DEFINITION. The day-end unit (10_end_of_day.md; the settlement of 06; the clearing of the journal of 09): opening
the day, cutoff, completion, packing and the send window. -/

namespace Sys2Proof.Machine

/-! ### Settlement figures (R126, R127) -/

/-- The POST records of a run of records. -/
def postsOf (records : List Record) : List PostBody :=
  records.filterMap (fun r => match r.body with | .post p => some p | _ => none)

/-- The difference D of a currency in a record: that of a PROOF record, 0 in any other (R126). -/
def proofDiff (c : Nat) (r : Record) : Int :=
  match r.body with
  | .proof _ _ _ _ diffs => diffs.getD c 0
  | _ => 0

/-- The sum of a figure over the POST records of one class. -/
def sumOver (posts : List PostBody) (cls : TxClass) (f : PostBody → Int) : Int :=
  ((posts.filter (fun p => p.cls == cls)).map f).sum

/-- C and the residue of a POST record, 0 for one that is no exchange. -/
def PostBody.cash (p : PostBody) : Int := ((p.exch.map (fun x => (x.cash : Int))).getD 0)
def PostBody.residue (p : PostBody) : Int := ((p.exch.map (·.residue)).getD 0)
def PostBody.amountInt (p : PostBody) : Int := p.amount

namespace State

/-- The thirteen figures of a currency, from the journal and the drawers (R126); all 0 for an undefined one. -/
def figures (s : State) (c : Nat) : Figures :=
  if (s.tables.currency c).isNone then Figures.zero
  else
    let posts := postsOf s.journal.records
    let own := posts.filter (fun p => p.cur == c)
    let exchanges := if c = 0 then posts else own
    let homeIn := sumOver exchanges .exchangeSell PostBody.cash
    let homeOut := sumOver exchanges .exchangeBuy PostBody.cash
    { opening := (allDrawers.map (fun d => ((rd (s.drawer d).opening c 0 : Nat) : Int))).sum
      deposits := sumOver own .deposit PostBody.amountInt
      withdrawals := sumOver own .withdrawal PostBody.amountInt
      exchangeIn := if c = 0 then homeIn else sumOver own .exchangeBuy PostBody.amountInt
      exchangeOut := if c = 0 then homeOut else sumOver own .exchangeSell PostBody.amountInt
      homeIn := homeIn
      homeOut := homeOut
      residue := sumOver exchanges .exchangeBuy PostBody.residue + sumOver exchanges .exchangeSell PostBody.residue
      deliveries := sumOver own .delivery PostBody.amountInt
      shipments := sumOver own .shipment PostBody.amountInt
      overShort := (s.journal.records.map (proofDiff c)).sum
      closing := (allDrawers.map (fun d => (s.bookValue d c : Int))).sum
      records := (own.length : Int) }

end State

/-! ### Packing (R192) -/

/-- Records taken in seq order into the block that begins at `first` and holds `count` records of `size` bytes so far. -/
def packFrom : List Record → Nat → Nat → Nat → List Block
  | [], first, count, _ => if count = 0 then [] else [{ first := first, count := count }]
  | r :: rest, first, count, size =>
    if count = 0 ∨ (count < 32 ∧ size + r.size ≤ 1000) then packFrom rest first (count + 1) (size + r.size)
    else { first := first, count := count } :: packFrom rest (first + count) 1 r.size

/-- The journal cut into blocks (R192). -/
def pack (records : List Record) : List Block := packFrom records 1 0 0

namespace State

/-! ### The day state -/

/-- The day state becomes x and is reported to every screen (R184). -/
def setDayState (s : State) (x : DayState) : State := (s.withDay { s.day with state := x }).dayReport

/-- The DAY notice of the state as it stands (R189). -/
def dayNotice (s : State) : State := s.offerNotice (.day s.day.state s.day.date)

/-! ### The send window (R193) -/

/-- N, the number of blocks. -/
def blockCount (s : State) : Nat := s.day.blocks.length

/-- The conditions under which block s + 1 is queued (R193). -/
def windowOpen (s : State) : Bool :=
  s.day.state == .sending && decide (s.day.sent < s.blockCount) && decide (s.day.sent - s.day.acked < Config.window)
    && s.hasRoom

/-- The frame of block k (1 and up), built from the journal and the block table (R192). -/
def blockFrame (s : State) (k : Nat) : UpFrame :=
  let b := s.day.blocks.getD (k - 1) { first := 1, count := 0 }
  .block k s.blockCount ((s.journal.records.drop (b.first - 1)).take b.count)

/-- Block s + 1 is queued: s rises, h rises or the block is a resend, and a stopped ack-wait timer is loaded (R193). -/
def queueBlock (s : State) : State :=
  let k := s.day.sent + 1
  let t := s.enqueue (s.blockFrame k)
  let t := if k ≤ s.day.highest then t.countBatchResend else t
  t.withDay { t.day with
    sent := k
    highest := max s.day.highest k
    ackTimer := some (s.day.ackTimer.getD s.tables.params.batchAck) }

/-- As many blocks as the conditions allow, at most `fuel` of them. -/
def queueBlocks : Nat → State → State
  | 0, s => s
  | fuel + 1, s => if s.windowOpen then queueBlocks fuel s.queueBlock else s

/-- The window is tested; since s is at least a, no more than four blocks can be queued in one event (R193). -/
def testWindow (s : State) : State := queueBlocks Config.window s

/-! ### Completion (R190, R191) -/

/-- Every open session ends, in ascending position order, each with a SIGN_OFF record of cause CLOSING (R56). -/
def endSession (s : State) (p : Nat) : State :=
  if (s.session p).state = .signedOff then s
  else (s.setSession p Session.off).append (.signOff p ((s.session p).teller.getD 0) .closing)

def endSessions (s : State) : State := allPositions.foldl endSession s

/-- The release flags of every drawer are cleared (R191). -/
def clearReleases (s : State) : State :=
  allDrawers.foldl
    (fun s d => s.setDrawer d { s.drawer d with releasePending := false, releaseDelivered := false }) s

/-- The SETTLEMENT record: the four currencies' figures and its own seq as the last seq (R126, R191). -/
def settlementBody (s : State) : Body := .settlement ((List.range 4).map s.figures) (s.usedCount + 1)

/-- The journal closes on the SETTLEMENT record just written in t, of the figures of s, and is packed (R179, R191,
R192). -/
def closeJournal (s t : State) : State :=
  let t := t.withJournal { t.journal with closed := true }
  t.withDay { t.day with
    settlement := (List.range 4).map s.figures, lastSeq := s.usedCount + 1, blocks := pack t.journal.records }

/-- The settlement is computed and its record closes the journal (R126, R179, R191). -/
def settle (s : State) : State := s.closeJournal (s.append s.settlementBody)

/-- The day becomes SENDING, the DAY notice is offered and the window opens (R189, R191, R193). -/
def startSending (s : State) : State := ((s.setDayState .sending).dayNotice).testWindow

/-- Completion, its effects in the order of R191. -/
def complete (s : State) : State := s.endSessions.clearReleases.settle.startSending

/-- The test of R190, made in CUTOFF after an event's other effects. -/
def testCompletion (s : State) : State := if s.day.state = .cutoff ∧ s.canComplete = true then s.complete else s

/-! ### Opening, cutoff and reopening (R185, R186, R188) -/

/-- OPEN DAY carries a drawer forward (R125). Its rows are marked before ALERT is re-evaluated (notes/assumptions/9.md). -/
def carryDrawer (s : State) (d : Nat) : State :=
  let x := s.drawer d
  let opening : Vector Nat 4 := #v[s.bookValue d 0, s.bookValue d 1, s.bookValue d 2, s.bookValue d 3]
  let t := s.setDrawer d { x with
    opening := opening, state := .active, recount := 0, openings := 0, postedToday := false, ceiling := false,
    openLong := false, forced := false }
  (if x.state = .active then t else t.drawerStateReport d).alertReport d

def carryDrawers (s : State) : State := allDrawers.foldl carryDrawer s

/-- The journal is cleared and the OPEN record appended at seq 1 (R181). -/
def openJournal (s : State) (date : Text) : State :=
  (s.withJournal { s.journal with records := [], closed := false }).append (.opened date)

/-- OPEN DAY carried out (R185); the hundred ticks of the clock's first second begin here (notes/assumptions/21.md). -/
def openDay (s : State) (date : Text) : State :=
  let t := (s.withDay { s.day with clock := 0, running := true, phase := 0 }).openJournal date
  let t := t.withDay { t.day with
    date := some date, settlement := List.replicate 4 Figures.zero, lastSeq := 0, blocks := [], acked := 0, sent := 0,
    highest := 0, expiries := 0, ackTimer := none }
  (t.carryDrawers.setDayState .opened).dayNotice

/-- A cutoff: the CUTOFF record, the day state, the DAY notice and the test for completion (R186, R187). -/
def takeCutoff (s : State) (pos teller : Option Nat) : State :=
  (((s.append (.cutoff pos teller)).setDayState .cutoff).dayNotice).testCompletion

/-- REOPEN DAY carried out (R188). -/
def takeReopenDay (s : State) : State := ((s.append .reopenDay).setDayState .opened).dayNotice

/-- CLOSE from a screen unit (R187). -/
def takeClose (s : State) (p : Nat) : State :=
  let s := s.copyRole p
  if !s.supervisor p then s.showAt p .role
  else if s.day.state ≠ .opened then s.showAt p .dayClosed
  else s.takeCutoff (some p) (s.session p).teller

/-! ### Acknowledgments (R194 to R198) -/

/-- BATCH_ACK and BATCH_NACK name a queued and unacknowledged block when n is above a and at most h. -/
def outstanding (s : State) (n : Nat) : Bool := decide (s.day.acked < n) && decide (n ≤ s.day.highest)

/-- BATCH_ACK n (R194, R198). -/
def takeAck (s : State) (n : Nat) : State :=
  if (s.day.state = .sending ∨ s.day.state = .held) ∧ s.outstanding n = true then
    let timer := if s.day.state = .sending ∧ n < s.day.highest then some s.tables.params.batchAck else none
    let t := s.withDay { s.day with acked := n, sent := max s.day.sent n, expiries := 0, ackTimer := timer }
    if n = s.blockCount then ((t.withDay { t.day with ackTimer := none }).setDayState .sent).dayNotice
    else t.testWindow
  else s.countBatchAckIgnored

/-- BATCH_NACK n (R195). -/
def takeNack (s : State) (n : Nat) : State :=
  if s.day.state = .sending ∧ s.outstanding n = true then
    (s.withDay { s.day with sent := n - 1 }).testWindow
  else s.countBatchAckIgnored

/-- The ack wait expires (R196). -/
def ackWaitExpires (s : State) : State :=
  if s.day.state = .sending ∧ s.day.ackTimer.isSome = true then
    let e := s.day.expiries + 1
    if e < Config.heldAfter then
      (s.withDay { s.day with
        expiries := e, sent := s.day.acked, ackTimer := some s.tables.params.batchAck }).testWindow
    else
      ((s.withDay { s.day with expiries := e, sent := s.day.acked, ackTimer := none }).setDayState .held).alarm
        .batchHeld 0
  else s

/-- RESUME BATCH carried out (R197). -/
def resumeBatch (s : State) : State :=
  (((s.withDay { s.day with expiries := 0, sent := s.day.acked }).setDayState .sending).dayNotice).testWindow

/-- A tick of the day clock's second: it rises by 1 and stops at 16,777,215 (R174). -/
def clockTick (s : State) : State :=
  if s.day.running = true ∧ s.day.clock < Config.dayClockMax then s.withDay { s.day with clock := s.day.clock + 1 }
  else s

end State

end Sys2Proof.Machine
end

