-- ==== Sys2Proof/Machine/Printers.lean ====
section
/-! DEFINITION. The passbook controller (08_passbook_printing.md): the print loop, page ends, jobs and the line store,
printed notices, and what each message, report and timer does to a printer record. -/

namespace Sys2Proof.Machine

/-! ### The content of a LINE (R161) -/

/-- A part written over the 80 characters at its column for its width. -/
def putPart (cells : Text) (c : Column) (part : Text) : Text :=
  cells.take (c.col - 1) ++ part ++ cells.drop (c.col - 1 + c.width)

def blankPart (c : Column) : Text := List.replicate c.width space

/-- An amount part, with separators and the exponent of currency 0, or blank when it does not apply. -/
def amountPart (exponent : Nat) (c : Column) : Option Int → Text
  | some i => fitAmount c.width (amountText true exponent i)
  | none => blankPart c

/-- The 80 characters of a line: date, mnemonic, debit, credit and balance written in that order, a later part over an
earlier one (R161). -/
def LayoutEntry.lineText (l : LayoutEntry) (exponent : Nat) (x : PrintLine) : Text :=
  let cells := List.replicate 80 space
  let cells := putPart cells l.date (fitText .left l.date.width x.date)
  let cells := putPart cells l.mnemonic (fitText .left l.mnemonic.width x.mnemonic)
  let cells := putPart cells l.debit
    (amountPart exponent l.debit (if x.amount < 0 then some (x.amount.natAbs : Int) else none))
  let cells := putPart cells l.credit (amountPart exponent l.credit (if x.amount < 0 then none else some x.amount))
  putPart cells l.balance (amountPart exponent l.balance x.balance)

/-- A LINE or TURN counted lost while it still waits in the outbound queue (R160). -/
def OutMsg.markLost : OutMsg → OutMsg
  | .line page place chars _ => .line page place chars true
  | .turn _ => .turn true
  | m => m

namespace State

/-! ### Offers, lost lines, freed lines -/

/-- EJECT and STATUS_REQUEST: an offer refused as full is kept, one refused as undelivered is dropped (R170). A fresh offer
that finds room joins the tail (R34) whatever is kept already (DESIGN CHOICE, notes/assumptions/22.md). -/
def offerPrinter (s : State) (p : Nat) (m : OutMsg) : State :=
  match s.offerAnswer p 1 with
  | .taken => s.offer p 1 m .print
  | .full => s.setPrinter p { s.printer p with kept := (s.printer p).kept ++ [m] }
  | .undelivered => s

/-- The line or turn in flight is lost: next-to-send returns to the confirmed count plus one, the line completion wait
stops, and a message still in the outbound queue stays there counted lost (R160, R164). -/
def loseFlight (s : State) (p : Nat) : State :=
  let t := s.setPrinter p { s.printer p with
    flight := .none, lineWait := none, job := (s.printer p).job.map (fun j => { j with next := j.confirmed + 1 }) }
  t.setUnit p 1 { t.unit p 1 with queue := (t.unit p 1).queue.map (fun q => { q with msg := q.msg.markLost }) }

/-- Lines leave the line store (R157). -/
def freeLines (s : State) (indices : List Nat) : State :=
  s.withStore (indices.foldl (fun v i => wr v i none) s.store)

/-- The free places of the line store, ascending (notes/assumptions/14.md). -/
def freePlaces (s : State) : List Nat := (List.range 256).filter (fun i => (rd s.store i none).isNone)

/-- The book data is cleared (R153). -/
def clearBook (s : State) (p : Nat) : State := s.setPrinter p { s.printer p with book := none }

/-- The book wait of a job is loaded afresh (R169); without a job there is none to load. -/
def loadBookWait (s : State) (p : Nat) : State :=
  s.setPrinter p { s.printer p with
    job := (s.printer p).job.map (fun j => { j with bookWait := some s.tables.params.bookWait }) }

/-- With a job the printer becomes WAIT_BOOK and the book wait is loaded afresh; without one it becomes NO_BOOK (R156,
R166, R167). -/
def awaitBook (s : State) (p : Nat) : State :=
  if (s.printer p).job.isSome then (s.loadBookWait p).setPrinterState p .waitBook else s.setPrinterState p .noBook

/-! ### The end of a job -/

/-- A job is abandoned (R168). -/
def abandonJob (s : State) (p : Nat) (o : Shown) : State :=
  match (s.printer p).job with
  | none => s
  | some j =>
    let held := (s.printer p).book.isSome
    let waiting := (s.printer p).state == .waitBook
    let carried := match j.owed with
      | some item => some (j.account, item)
      | none => (s.printer p).carried
    let t := ((s.freeLines j.lines).setPrinter p { s.printer p with
      job := none, flight := .none, lineWait := none, carried := carried }).showAt p o
    if held then ((t.offerPrinter p .eject).clearBook p).setPrinterState p .noBook
    else if waiting then t.setPrinterState p .noBook
    else t

/-- A complete job ends: EJECT, PRINTED_OK, its lines freed, NO_BOOK (R165). -/
def completeJob (s : State) (p : Nat) (j : Job) : State :=
  let t := ((s.offerPrinter p .eject).showAt p .printedOk).freeLines j.lines
  (t.setPrinter p { t.printer p with job := none, book := none }).setPrinterState p .noBook

/-- The test for completion: every line confirmed and no notice owed (R165). -/
def testJob (s : State) (p : Nat) : State :=
  match (s.printer p).job with
  | some j => if j.confirmed = j.lines.length ∧ j.owed = none then s.completeJob p j else s
  | none => s

/-! ### The print loop (R160, R164) -/

/-- The line at the next-to-send place of a job. -/
def nextLine (s : State) (j : Job) : Option PrintLine := (j.lines[j.next - 1]?).bind (fun i => rd s.store i none)

/-- A LINE or TURN is offered; when the offer is taken the printer is PRINTING with it in flight. An offer refused as full
leaves the printer READY, and the loop is taken again at the head's departure (R160, R170; notes/assumptions/14.md). One that
finds room joins the tail whatever is kept already (notes/assumptions/22.md). -/
def sendPrint (s : State) (p : Nat) (m : OutMsg) (flight : Flight) (j : Job) : State :=
  match s.offerAnswer p 1 with
  | .taken =>
    let t := s.offer p 1 m .print
    (t.setPrinter p { t.printer p with job := some j, flight := flight }).setPrinterState p .printing
  | _ => s

/-- The page end (R164). -/
def pageEnd (s : State) (p : Nat) (j : Job) (b : Book) (l : LayoutEntry) : State :=
  if l.pages ≤ b.page then s.abandonJob p .bookFull
  else if l.autoTurn then s.sendPrint p (.turn false) (.turn false) j
  else
    ((s.setPrinter p { s.printer p with
      book := none
      job := some { j with page := b.page + 1, line := 1, bookWait := some s.tables.params.bookWait }
      }).setPrinterState p .waitBook).showAt p .turnPage

/-- The loop: the next line is sent when every condition holds, and the page end is taken when only the page is full
(R160). A job whose book's layout is undefined is abandoned with BOOK_MISMATCH (R152). -/
def printLoop (s : State) (p : Nat) : State :=
  match (s.printer p).job, (s.printer p).book with
  | some j, some b =>
    if (s.printer p).state = .ready ∧ j.next ≤ j.lines.length ∧ j.pacing = none ∧ j.owed = none
        ∧ (s.printer p).carried = none then
      match s.tables.layout b.layout with
      | none => s.abandonJob p .bookMismatch
      | some l =>
        if b.line ≤ l.lines then
          match s.nextLine j with
          | some x =>
            s.sendPrint p (.line b.page b.line (l.lineText (s.tables.exponent 0) x) false) (.line false)
              { j with next := j.next + 1 }
          | none => s
        else s.pageEnd p j b l
    else s
  | _, _ => s

/-! ### Lines handed over at a posting (R158, R159) -/

/-- The items left once those already held, and those listed before, are passed over (R159). -/
def newItems (held : List Nat) : List PrintLine → List PrintLine
  | [] => []
  | x :: rest => if held.contains x.item then newItems held rest else x :: newItems (x.item :: held) rest

/-- The item numbers of a job's lines. -/
def jobItems (s : State) (j : Job) : List Nat := j.lines.filterMap (fun i => (rd s.store i none).map (·.item))

/-- The job present, or the job that would be created for the book (R159). -/
def jobFor (pr : Printer) (b : Book) : Job :=
  pr.job.getD { account := b.account, layout := b.layout, lines := [], next := 1, confirmed := 0, page := b.page,
                line := b.line, owed := none, pacing := none, bookWait := none }

/-- Lines are due: queue them all and take the loop, or queue none and report so (R158, R159). The loop is taken here, in
effect 3 of the posting, so what it shows comes before the outcome of effect 5 (DEDUCED, notes/assumptions/30.md). -/
def handLines (s : State) (p : Nat) (account : Option Text) (items : List PrintLine) : State × Bool :=
  match account, (s.printer p).book with
  | some a, some b =>
    let j := jobFor (s.printer p) b
    let fresh := newItems (s.jobItems j) items
    let places := s.freePlaces
    if ((s.printer p).state = .ready ∨ (s.printer p).state = .printing) ∧ b.account = a ∧
        fresh.length ≤ places.length ∧ j.lines.length + fresh.length ≤ 32 then
      if fresh = [] then (s, true)
      else
        let store := (places.zip fresh).foldl (fun v q => wr v q.1 (some q.2)) s.store
        let t := s.withStore store
        let job := { j with lines := j.lines ++ places.take fresh.length }
        ((t.setPrinter p { t.printer p with job := some job }).printLoop p, true)
    else (s, false)
  | _, _ => (s, false)

/-! ### Printed notices (R163) -/

/-- The PRINTED notice of a confirmed line: queued when there is room, owed otherwise (R163). -/
def offerPrinted (s : State) (p : Nat) (j : Job) (item : Nat) : State :=
  if s.hasRoom then
    let t := s.enqueue (.printed j.account item)
    t.setPrinter p { t.printer p with job := some j }
  else s.setPrinter p { s.printer p with job := some { j with owed := some item } }

/-- A carried or owed notice is queued at a freed slot, and the loop is taken; an owed one may complete the job (R163,
R165). -/
def queueOwed (s : State) (p : Nat) : State :=
  if s.hasRoom then
    match (s.printer p).carried with
    | some (account, item) =>
      let t := s.enqueue (.printed account item)
      (t.setPrinter p { t.printer p with carried := none }).printLoop p
    | none =>
      match (s.printer p).job with
      | none => s
      | some j =>
        match j.owed with
        | none => s
        | some item =>
          let t := s.enqueue (.printed j.account item)
          ((t.setPrinter p { t.printer p with job := some { j with owed := none } }).testJob p).printLoop p
  else s

/-! ### Books (R155, R156) -/

/-- The three tests of a book report (R155). -/
def bookFits (s : State) (layout page place : Nat) : Bool :=
  match s.tables.layout layout with
  | none => false
  | some l => inRange 1 l.pages page && inRange 1 l.lines place

/-- A refused book: EJECT offered and BOOK_MISMATCH shown, printer state and job as they were (R155, R156). -/
def refuseBook (s : State) (p : Nat) : State := (s.offerPrinter p .eject).showAt p .bookMismatch

/-- Positions are ordered by page first and line second (R152). -/
def earlier (page place page' place' : Nat) : Bool := decide (page < page') || (page == page' && decide (place < place'))

/-- BOOK_IN (R155, R156). -/
def takeBookIn (s : State) (p : Nat) (account : Text) (layout page place : Nat) : State :=
  match (s.printer p).state with
  | .absent => s
  | .noBook =>
    if s.bookFits layout page place then
      (s.setPrinter p { s.printer p with
        book := some { account := account, layout := layout, page := page, line := place } }).setPrinterState p .ready
    else s.refuseBook p
  | .waitBook =>
    match (s.printer p).job with
    | none => s
    | some j =>
      if s.bookFits layout page place && j.account == account && j.layout == layout
          && !earlier page place j.page j.line then
        ((s.setPrinter p { s.printer p with
          book := some { account := account, layout := layout, page := page, line := place }
          job := some { j with page := page, line := place, bookWait := none } }).setPrinterState p .ready).printLoop p
      else s.refuseBook p
  | _ => s.countLineBadMessage

/-- BOOK_OUT (R156). -/
def takeBookOut (s : State) (p : Nat) : State :=
  match (s.printer p).state with
  | .ready => ((s.loseFlight p).clearBook p).awaitBook p
  | .printing => ((s.loseFlight p).clearBook p).awaitBook p
  | .fault => s.awaitBook p
  | _ => s

/-! ### STATUS messages (R162, R164, R166, R167) -/

/-- STATUS READY (R167). -/
def takeReady (s : State) (p : Nat) : State :=
  match (s.printer p).state with
  | .fault => (s.offerPrinter p .eject).awaitBook p
  | _ => s

/-- The seven effects of a LINE_DONE for a delivered line (R162); the pacing timer just loaded holds the loop. -/
def confirmLine (s : State) (p : Nat) (j : Job) (b : Book) : State :=
  let item := (((j.lines[j.confirmed]?).bind (fun i => rd s.store i none)).map (·.item)).getD 0
  let job := { j with confirmed := j.confirmed + 1, pacing := some s.tables.params.pacing, line := j.line + 1 }
  let t := (s.setPrinter p { s.printer p with
    lineWait := none, flight := .none, book := some { b with line := b.line + 1 } }).offerPrinted p job item
  (t.setPrinterState p .ready).testJob p

/-- STATUS LINE_DONE (R162). -/
def takeLineDone (s : State) (p : Nat) : State :=
  match (s.printer p).state, (s.printer p).flight, (s.printer p).job, (s.printer p).book with
  | .printing, .line true, some j, some b => s.confirmLine p j b
  | _, _, _, _ => s.countLineBadMessage

/-- STATUS TURNED (R164). -/
def takeTurned (s : State) (p : Nat) : State :=
  match (s.printer p).state, (s.printer p).flight, (s.printer p).job, (s.printer p).book with
  | .printing, .turn true, some j, some b =>
    ((s.setPrinter p { s.printer p with
      lineWait := none
      flight := .none
      book := some { b with page := b.page + 1, line := 1 }
      job := some { j with page := b.page + 1, line := 1 } }).setPrinterState p .ready).printLoop p
  | _, _, _, _ => s.countLineBadMessage

/-- The line or turn in flight is lost, the book data cleared, the book wait of a job loaded, and the printer takes the
state given, with its outcome shown (R166, R167, R170). -/
def printerStops (s : State) (p : Nat) (x : PrinterState) (o : Shown) : State :=
  ((((s.loseFlight p).clearBook p).loadBookWait p).setPrinterState p x).showAt p o

/-- STATUS JAM (R166). -/
def takeJam (s : State) (p : Nat) : State :=
  match (s.printer p).state with
  | .jammed => s
  | .absent => s
  | _ => s.printerStops p .jammed .printerJam

/-- STATUS JAM_CLEARED (R166). -/
def takeJamCleared (s : State) (p : Nat) : State :=
  match (s.printer p).state with
  | .jammed => s.awaitBook p
  | _ => s

/-! ### Timers -/

/-- The line completion wait expires (R167). -/
def lineWaitExpires (s : State) (p : Nat) : State :=
  if (s.printer p).lineWait.isSome then s.printerStops p .fault .printerFault else s

/-- The pacing timer expires (R160). -/
def pacingExpires (s : State) (p : Nat) : State :=
  match (s.printer p).job with
  | none => s
  | some j =>
    if j.pacing.isSome then
      (s.setPrinter p { s.printer p with job := some { j with pacing := none } }).printLoop p
    else s

/-- The book wait expires (R169). -/
def bookWaitExpires (s : State) (p : Nat) : State :=
  match (s.printer p).job with
  | none => s
  | some j => if j.bookWait.isSome then s.abandonJob p .notPrinted else s

/-! ### The line engine's reports (R154, R160, R170) -/

/-- A message has been delivered: the line completion wait is loaded for a LINE or TURN that is not lost (R160, R164). -/
def printerDelivered (s : State) (p : Nat) : OutMsg → State
  | .line _ _ _ false =>
    s.setPrinter p { s.printer p with flight := .line true, lineWait := some s.tables.params.lineCompletion }
  | .turn false =>
    s.setPrinter p { s.printer p with flight := .turn true, lineWait := some s.tables.params.lineCompletion }
  | _ => s

/-- A message has come back undelivered: a LINE or TURN takes the printer to FAULT with PRINTER_FAULT (R170). -/
def printerMessageReturned (s : State) (p : Nat) : OutMsg → State
  | .line _ _ _ _ => s.printerStops p .fault .printerFault
  | .turn _ => s.printerStops p .fault .printerFault
  | _ => s

/-- The printer is absent: its job is abandoned with NOT_PRINTED, the book data cleared, a carried notice kept; kept
messages are dropped (R154; notes/assumptions/11.md). -/
def printerAbsent (s : State) (p : Nat) : State :=
  let t := s.abandonJob p .notPrinted
  (t.setPrinter p { t.printer p with book := none, kept := [], flight := .none, lineWait := none }).setPrinterState p
    .absent

/-- The printer returns: NO_BOOK and a STATUS_REQUEST offered (R154, R33). -/
def printerReturned (s : State) (p : Nat) : State := (s.setPrinterState p .noBook).offerPrinter p .statusRequest

/-- Kept messages are offered again, in order, while the queue has room (R170). -/
def offerKept (s : State) (p : Nat) : List OutMsg → State
  | [] => s.setPrinter p { s.printer p with kept := [] }
  | m :: rest =>
    match s.offerAnswer p 1 with
    | .taken => (s.offer p 1 m .print).offerKept p rest
    | .full => s.setPrinter p { s.printer p with kept := m :: rest }
    | .undelivered => s.setPrinter p { s.printer p with kept := [] }

/-- The head of the printer's queue has left: kept messages are offered again and the loop is taken (R160, R170). -/
def printerRoom (s : State) (p : Nat) : State := (s.offerKept p (s.printer p).kept).printLoop p

end State

end Sys2Proof.Machine
end

