-- ==== Sys2Proof/Machine/Tracker.lean ====
section
/-! DEFINITION. The request tracker (04_requests_in_flight.md): tags, entries, the REQUEST frame, answers, expiry,
cancel, reversal, override, and the posting hand-off. -/

namespace Sys2Proof.Machine

/-! ### What a request leaves in frames and records -/

/-- The REQUEST frame of an entry (R71; A and E are 0 for INQUIRY). -/
def Entry.centreRequest (e : Entry) : CentreRequest :=
  { tag := e.tag, pos := e.req.pos, teller := e.req.teller, code := e.req.snap.code, cls := e.req.snap.cls,
    cur := e.req.cur, amount := e.req.amount, equiv := e.req.equiv.getD 0, exch := e.req.exch,
    account := e.req.account, reqList := e.req.reqList, homeList := e.req.homeList }

/-- The drawer of a POST record: absent for NONCASH, 0 for DELIVERY and SHIPMENT, else the own drawer (R173). -/
def Captured.postDrawer (c : Captured) : Option Nat :=
  match c.snap.cls with
  | .nonCash => none
  | .inquiry => none
  | .delivery => some 0
  | .shipment => some 0
  | _ => some c.own

/-- The POST record of a request (R86, R173). -/
def Captured.postBody (c : Captured) (tag : Option Nat) : Body :=
  .post { pos := c.pos, teller := c.teller, drawer := c.postDrawer, code := c.snap.code, mnemonic := c.snap.mnemonic,
          cls := c.snap.cls, cur := c.cur, amount := c.amount, exch := c.exch, tag := tag, account := c.account,
          reqList := c.reqList, homeList := c.homeList }

/-- The EXPIRED record of an entry (R75). -/
def Entry.expiredBody (e : Entry) (reason : ExpiryReason) : Body :=
  .expired e.req.pos e.req.teller e.req.snap.code e.req.cur e.req.amount e.tag e.req.account reason

/-- The OVERRIDE record of an entry granted by a supervisor (R82). -/
def Entry.overrideBody (e : Entry) (supervisor : Nat) : Body :=
  .override e.req.pos supervisor e.req.snap.code e.req.cur e.req.amount e.tag

/-- An entry turned REVERSING: it keeps its tag and its captured fields, its reservations apart, and has used one of its
claims (R75, R77, R88). -/
def Entry.reversing (e : Entry) (reason : ExpiryReason) : Entry :=
  { e with
    state := .reversing, granted := false, req := { e.req with items := [] }, claim := e.claim - 1, timer := none,
    reason := some reason }

/-- An entry that waits: WAITING_OVERRIDE or WAITING_CENTRE (R67). -/
def Entry.waits (e : Entry) : Bool := e.state != .reversing

def AnswerItem.line (x : AnswerItem) : PrintLine :=
  { item := x.item, date := x.date, mnemonic := x.mnemonic, amount := x.amount, balance := x.balance }

namespace State

/-! ### The table (R67, R69) -/

/-- Some entry in use holds the tag. -/
def tagInUse (s : State) (tag : Nat) : Bool :=
  s.entries.toList.any (fun e => match e with | some x => x.tag == tag | none => false)

/-- The tag after a tag, wrapping past 65,535 to 1 (R69). -/
def tagAfter (tag : Nat) : Nat := if tag < 65535 then tag + 1 else 1

/-- The next tag from a tag on that no entry holds; `fuel` bounds the steps (R69). -/
def tagFrom (s : State) : Nat → Nat → Nat
  | 0, tag => tag
  | fuel + 1, tag => if s.tagInUse (tagAfter tag) then s.tagFrom fuel (tagAfter tag) else tagAfter tag

/-- The tag a new entry takes: with at most 32 in use it is found within 33 steps (R69). -/
def nextTag (s : State) : Nat := s.tagFrom 33 s.tagCounter

/-- The free entry with the lowest index (R67). -/
def freeIndex (s : State) : Option Nat := (List.range 32).find? (fun i => (s.entry i).isNone)

/-- The entry of lowest index that a test takes, with its index. -/
def findEntry (s : State) (test : Entry → Bool) : Option (Nat × Entry) :=
  (List.range 32).findSome? (fun i =>
    match s.entry i with
    | some e => if test e then some (i, e) else none
    | none => none)

/-- The waiting entry of a position, of which there is at most one (R67). -/
def waitingAt (s : State) (p : Nat) : Option (Nat × Entry) := s.findEntry (fun e => e.waits && e.req.pos == p)

/-- An entry is freed (R67); the event that frees it tests completion at its end. -/
def freeEntry (s : State) (i : Nat) : State := s.setEntry i none

/-- The tracker passes an entry's state to the position's screen (R70, R137). -/
def reportEntry (s : State) (p : Nat) (m : StateMsg) : State := s.onScreen p (fun t sc => sc.report t m)

/-- The entry becomes WAITING_CENTRE: its REQUEST frame is queued and the approval wait loaded (R70, R82, R83). -/
def forward (s : State) (i : Nat) (e : Entry) : State :=
  ((s.enqueue (.request e.centreRequest)).setEntry i (some { e with
    state := .waitingCentre, granted := false, timer := some s.tables.params.approval })).reportEntry e.req.pos .waiting

/-- An entry is created in the free entry of lowest index with the next tag and its claim (R69, R70): WAITING_OVERRIDE
joins the override order list with the override wait, WAITING_CENTRE queues its REQUEST frame with the approval
wait. -/
def createEntry (s : State) (c : Captured) (override : Bool) (claim : Nat) : State :=
  match s.freeIndex with
  | none => s
  | some i =>
    let tag := s.nextTag
    let e : Entry := { tag := tag, state := .waitingOverride, granted := false, req := c, claim := claim,
                       timer := some s.tables.params.overrideWait, reason := none }
    let t := s.withTagCounter tag
    if override then
      ((t.setEntry i (some e)).setOverrides (t.overrides ++ [i])).reportEntry c.pos (.shown .needsOverride)
    else t.forward i e

/-! ### The posting hand-off (R86) -/

/-- The current item of a posting (R159). -/
def currentItem (s : State) (c : Captured) (a : Answer) : PrintLine :=
  { item := a.item, date := s.day.date.getD [], mnemonic := c.snap.mnemonic,
    amount := if c.snap.cls = .withdrawal then -(c.amount : Int) else c.amount, balance := a.balance }

/-- Effect 3: the lines due are handed over; the answer is whether they were due and not queued (R86, R158). -/
def postLines (s : State) (c : Captured) : Option Answer → State × Bool
  | some a =>
    if c.snap.print then
      let (t, queued) := s.handLines c.pos c.account (a.items.map AnswerItem.line ++ [s.currentItem c a])
      (t, !queued)
    else (s, false)
  | none => (s, false)

/-- Effect 5: the answer form first, then the drawer rows, and at the requesting position the balance, the rows of the
current-transaction view and the outcome with MESSAGE and TXN_STATE (R86, R150). -/
def postScreens (s : State) (c : Captured) (ans : Option Answer) (notPrinted : Bool) : State :=
  let t := match c.snap.answerForm with
    | some f => s.takeForm c.pos f
    | none => s
  let t := t.itemReports c.items
  let o : Shown := if notPrinted then .notPrinted else .approved
  t.onScreen c.pos (fun tb sc =>
    (((match ans with
      | some a => sc.takeBalance tb a.balance
      | none => sc).mark tb Screen.viewSource).takeOutcome tb o).settle tb)

/-- The posting hand-off: drawers, journal, print lines, release, screens, in that order, then DRAWER_NOT_RELEASED for
a release refused as undelivered (R86, R107). The caller frees the entry. -/
def post (s : State) (c : Captured) (tag : Option Nat) (ans : Option Answer) : State :=
  let t := (s.postItems c.items).appendClaimed (c.postBody tag)
  let (t, notPrinted) := t.postLines c ans
  let refused := t.refusedReleases (itemDrawers c.items)
  ((t.releaseDrawers (itemDrawers c.items)).postScreens c ans notPrinted).showNotReleased refused

/-! ### Answers (R72 to R74) -/

/-- A bad frame: LINK_BAD_FRAME rises and the previous-frame-failed flag is set (R1, R4, R72). -/
def dropBadFrame (s : State) : State :=
  let t := s.countLinkBadFrame
  t.withPort { t.port with prevFailed := true }

/-- Balance, outcome and answer form on the screen of the requesting position (R73, R74). -/
def answerScreen (s : State) (c : Captured) (balance : Option Int) (o : Shown) : State :=
  (s.onScreen c.pos (fun t sc => match balance with | some b => sc.takeBalance t (some b) | none => sc)).showWithForm
    c.pos o c.snap.answerForm

/-- APPROVE on a matched entry (R73). -/
def approve (s : State) (i : Nat) (e : Entry) (a : Answer) : State :=
  if e.req.snap.cls = .inquiry then ((s.answerScreen e.req a.balance .approved).freeEntry i).testCompletion
  else ((s.post e.req (some e.tag) (some a)).freeEntry i).testCompletion

/-- DECLINE on a matched entry (R74). -/
def decline (s : State) (i : Nat) (e : Entry) (a : Answer) : State :=
  ((((s.releaseItems e.req.items).releaseClaim e.claim).answerScreen e.req a.balance (.declined a.reason)).freeEntry
    i).testCompletion

/-- An ANSWER frame (R72). -/
def takeAnswer (s : State) (tag : Nat) (payload : List Byte) : State :=
  match parseAnswer payload with
  | none => s.dropBadFrame
  | some a =>
    match s.findEntry (fun e => e.state == .waitingCentre && e.tag == tag) with
    | none => s.countLateAnswer
    | some (i, e) => if a.approve then s.approve i e a else s.decline i e a

/-! ### Expiry, cancel and reversal (R75 to R78) -/

/-- A REVERSING entry offers its notice: queued with a free slot, and the entry freed; otherwise it waits (R77). -/
def offerReversal (s : State) (i : Nat) : State :=
  match s.entry i with
  | some e =>
    if e.state = .reversing ∧ s.hasRoom = true then
      (s.enqueue (.reversal e.tag (e.reason.getD .timeout))).freeEntry i
    else s
  | none => s

/-- The entry becomes REVERSING: reservations released, the EXPIRED record written against its claim (R75). -/
def beginReversing (s : State) (i : Nat) (e : Entry) (reason : ExpiryReason) : State :=
  ((s.releaseItems e.req.items).appendClaimed (e.expiredBody reason)).setEntry i (some (e.reversing reason))

/-- A WAITING_CENTRE entry ends by expiry or cancel, with its outcome shown (R75, R78); an INQUIRY has nothing to
reverse and is freed at once. -/
def endCentre (s : State) (i : Nat) (e : Entry) (reason : ExpiryReason) (o : Shown) : State :=
  if e.req.snap.cls = .inquiry then ((s.showAt e.req.pos o).freeEntry i).testCompletion
  else (((s.beginReversing i e reason).showAt e.req.pos o).offerReversal i).testCompletion

/-- A WAITING_OVERRIDE entry ends without record or notice: it leaves the list, its reservations and claim are released,
an outcome is shown and it is freed (R78, R80, R84). -/
def endOverride (s : State) (i : Nat) (e : Entry) (o : Shown) : State :=
  (((((s.setOverrides (s.overrides.filter (· != i))).releaseItems e.req.items).releaseClaim e.claim).showAt e.req.pos
    o).freeEntry i).testCompletion

/-- The approval wait of an entry runs out (R75). -/
def approvalExpires (s : State) (i : Nat) : State :=
  match s.entry i with
  | some e =>
    if e.state = .waitingCentre ∧ e.timer.isSome = true then s.endCentre i e .timeout .noAnswer else s
  | none => s

/-- The override wait of an entry runs out (R80). -/
def overrideExpires (s : State) (i : Nat) : State :=
  match s.entry i with
  | some e => if e.state = .waitingOverride ∧ e.timer.isSome = true then s.endOverride i e .noOverride else s
  | none => s

/-- CANCEL (R78). -/
def takeCancel (s : State) (p : Nat) : State :=
  match s.waitingAt p with
  | none => s
  | some (i, e) =>
    if e.state = .waitingOverride then s.endOverride i e .cancelled else s.endCentre i e .cancelled .cancelled

/-- The REVERSAL notice of a waiting entry is queued at a freed slot (R77). -/
def queueReversal (s : State) (i : Nat) : State :=
  match s.entry i with
  | some e => if e.state = .reversing ∧ s.hasRoom = true then (s.offerReversal i).testCompletion else s
  | none => s

/-! ### Supervisor override (R81 to R84) -/

/-- The WAITING_OVERRIDE entry of a tag, granted or not. -/
def overrideOf (s : State) (tag : Nat) : Option (Nat × Entry) :=
  s.findEntry (fun e => e.state == .waitingOverride && e.tag == tag)

/-- The override limit of a teller, read from TELLERS now (R81). -/
def overrideLimit (s : State) (teller : Nat) : Nat := ((s.tables.findTeller teller).map (·.overrideLimit)).getD 0

/-- A grant taken (R82, R83). -/
def grantOverride (s : State) (i : Nat) (e : Entry) (supervisor : Nat) : State :=
  let e' : Entry := { e with claim := e.claim - 1, timer := none }
  let t := ((s.setOverrides (s.overrides.filter (· != i))).appendClaimed (e.overrideBody supervisor)).setEntry i (some e')
  match e.req.snap.auth with
  | .branch => ((t.post e'.req (some e'.tag) none).freeEntry i).testCompletion
  | .central =>
    if t.hasRoom then t.forward i e'
    else (t.setEntry i (some { e' with granted := true })).reportEntry e.req.pos .queued

/-- The checks of an OVERRIDE with decision GRANT (1) or REFUSE (2), then the decision (R81). -/
def decideOverride (s : State) (p tag : Nat) (grant : Bool) : State :=
  let teller := (s.session p).teller.getD 0
  if !s.supervisor p then s.showAt p .role
  else
    match s.overrideOf tag with
    | none => s.showAt p .tooLate
    | some (i, e) =>
      if e.req.teller = teller then s.showAt p .role
      else if e.granted then s.showAt p .tooLate
      else if grant then
        if s.overrideLimit teller < e.req.equiv.getD 0 then s.showAt p .overLimit else s.grantOverride i e teller
      else s.endOverride i e .overrideRefused

/-- OVERRIDE from a screen unit (R81). -/
def takeOverride (s : State) (p tag decision : Nat) : State :=
  if decision = 1 then (s.copyRole p).decideOverride p tag true
  else if decision = 2 then (s.copyRole p).decideOverride p tag false
  else s.countLineBadMessage

/-- The REQUEST of a granted entry is queued at a freed slot (R83). -/
def queueGranted (s : State) (i : Nat) : State :=
  match s.entry i with
  | some e =>
    if e.state = .waitingOverride ∧ e.granted = true ∧ s.hasRoom = true then s.forward i e else s
  | none => s

end State

/-! ### READ PENDING (R87) -/

/-- A reservation item in 6 bytes (11, READ PENDING). -/
def Item.bytes (i : Item) : List Byte :=
  [toByte i.drawer, toByte i.cur, toByte i.den] ++ be 2 i.count ++ [if i.out then 1 else 2]

/-- The fields of an entry in use (R87; 11, READ PENDING). Without an exchange R, C and the residue are 17 bytes of 0, and an
INQUIRY's absent E is 0 (DEDUCED from the REQUEST frame, notes/assumptions/32.md; its A, notes/assumptions/15.md). -/
def Entry.bytes (e : Entry) : List Byte :=
  be 2 e.tag ++ [toByte e.state.code, flagByte e.granted, toByte e.req.pos] ++ be 2 e.req.teller
    ++ [toByte e.req.snap.code, toByte e.req.snap.cls.code, toByte e.req.snap.auth.code, toByte e.req.cur]
    ++ be 6 e.req.amount ++ be 6 (e.req.equiv.getD 0)
    ++ (match e.req.exch with
        | some x => be 5 x.rate ++ be 6 x.cash ++ beInt 6 x.residue
        | none => List.replicate 17 0)
    ++ [toByte e.req.items.length] ++ e.req.items.flatMap Item.bytes
    ++ accountField e.req.account ++ [toByte e.claim] ++ be 2 (e.timer.getD 0)
    ++ [toByte ((e.reason.map ExpiryReason.code).getD 0)]

end Sys2Proof.Machine
end

