-- ==== Sys2Proof/Machine/Sessions.lean ====
section
/-! DEFINITION. Sessions (03_tellers_and_transaction_codes.md, R51 to R55) and the drawer messages of proof (06, R114 to
R124). -/

namespace Sys2Proof.Machine

/-- The outcome of the first check that fails, in order. -/
def firstFailure : List (Bool × Shown) → Option Shown
  | [] => none
  | (failed, o) :: rest => if failed then some o else firstFailure rest

namespace State

/-! ### Sign-on, sign-off, suspend, resume -/

/-- The teller holds a session at a position other than p (R52, check 5). -/
def heldElsewhere (s : State) (p teller : Nat) : Bool :=
  allPositions.any (fun q => q != p && (s.session q).state != .signedOff && (s.session q).teller == some teller)

/-- The checks of SIGN_ON in order (R52). -/
def signOnChecks (s : State) (p teller : Nat) : List (Bool × Shown) :=
  [ (!s.live, .notLive),
    (s.day.state != .opened && s.day.state != .cutoff, .dayClosed),
    ((s.session p).state != .signedOff, .busy),
    ((s.tables.findTeller teller).isNone, .notSignedOn),
    (s.heldElsewhere p teller, .busy),
    (!s.generalRoom, .journalFull) ]

/-- SIGN_ON (R52); a sign-on that passes makes the screen take its default form (R150). -/
def takeSignOn (s : State) (p teller : Nat) : State :=
  match firstFailure (s.signOnChecks p teller) with
  | some o => s.showAt p o
  | none =>
    ((s.setSession p { state := .signedOn, teller := some teller,
                       role := (s.tables.findTeller teller).map (·.role) }).append
      (.signOn p teller)).takeDefaultForm p

/-- The refusals of SIGN_OFF in order (R53). -/
def signOffChecks (s : State) (p : Nat) : List (Bool × Shown) :=
  [ ((s.session p).state == .signedOff, .notSignedOn),
    ((s.waitingAt p).isSome, .busy),
    (!s.reserveRoom, .journalFull) ]

/-- SIGN_OFF (R53). -/
def takeSignOff (s : State) (p : Nat) : State :=
  match firstFailure (s.signOffChecks p) with
  | some o => s.showAt p o
  | none => (s.setSession p Session.off).append (.signOff p ((s.session p).teller.getD 0) .teller)

/-- SUSPEND (R54). -/
def takeSuspend (s : State) (p : Nat) : State :=
  match (s.session p).state with
  | .signedOn => s.setSession p { s.session p with state := .suspended }
  | .suspended => s
  | .signedOff => s.showAt p .notSignedOn

/-- RESUME (R55). -/
def takeResume (s : State) (p teller : Nat) : State :=
  match (s.session p).state with
  | .suspended =>
    if (s.session p).teller = some teller then
      s.setSession p { s.session p with
        state := .signedOn, role := ((s.tables.findTeller teller).map (·.role)) <|> (s.session p).role }
    else s.showAt p .suspended
  | .signedOn => s
  | .signedOff => s.showAt p .notSignedOn

/-! ### Counting a drawer (R114 to R118) -/

/-- The checks of COUNT in order (R115). -/
def countChecks (s : State) (p d : Nat) (lists : List (List Nat)) : List (Bool × Shown) :=
  [ ((s.session p).state == .signedOff, .notSignedOn),
    ((s.session p).state == .suspended, .suspended),
    (d != s.tables.ownDrawer p && !s.supervisor p, .role),
    ((s.drawer d).state == .balanced, .drawerState),
    (s.holdsReservation d, .busy),
    ((s.drawer d).physical != .closed || (s.drawer d).releasePending, .drawerOpen),
    (!s.listsFit lists, .breakdownMismatch),
    (s.countedTooMuch lists, .drawerFull),
    (!s.reserveRoom, .journalFull) ]

/-- The state of a drawer becomes x with a recount number, reported to the screens of its positions: the report of a changed
recount number marks what the report of a changed state marks (R124; DEDUCED, notes/assumptions/26.md). -/
def setDrawerState (s : State) (d : Nat) (x : DrawerState) (recount : Nat) : State :=
  (s.setDrawer d { s.drawer d with state := x, recount := recount }).drawerStateReport d

/-- The effects of a proof that balances or is accepted: books replaced, ceiling tested, PROOF record, BALANCED, outcome,
completion tested (R117, R120, R124; notes/assumptions/12.md). -/
def balanceDrawer (s : State) (p d : Nat) (lists : List (List Nat)) (result : ProofResult) : State :=
  let diffs := s.differences d lists
  let t := (s.replaceBook d lists).append (.proof p ((s.session p).teller.getD 0) d result diffs)
  ((t.setDrawerState d .balanced (t.drawer d).recount).showAt p .balanced).testCompletion

/-- What a failed proof makes of a drawer's state and recount number, and the outcome it shows (R118). -/
def afterFailure (x : DrawerState) (recount : Nat) : DrawerState × Nat × Shown :=
  match x with
  | .awaitingAccept => (.awaitingAccept, recount, .awaitingAccept)
  | .outOfBalance =>
    if recount < 2 then (.outOfBalance, recount + 1, .outOfBalance) else (.awaitingAccept, recount, .awaitingAccept)
  | _ => (.outOfBalance, 1, .outOfBalance)

/-- A failed proof (R118): a change of state or recount number is reported (R124; notes/assumptions/26.md), and where both
stay there is none to report. -/
def failProof (s : State) (p d : Nat) : State :=
  let (x, n, o) := afterFailure (s.drawer d).state (s.drawer d).recount
  (((if (s.drawer d).state = x ∧ (s.drawer d).recount = n then s else s.setDrawerState d x n)).showAt p o).testCompletion

/-- COUNT (R114 to R118). -/
def takeCount (s : State) (p d : Nat) (lists : List (List Nat)) : State :=
  if 24 < d then s.countLineBadMessage
  else
    let s := s.copyRole p
    match firstFailure (s.countChecks p d lists) with
    | some o => s.showAt p o
    | none => if s.proves d lists then s.balanceDrawer p d lists .balanced else s.failProof p d

/-! ### ACCEPT_DIFF and REOPEN (R120, R121) -/

/-- The checks of ACCEPT_DIFF in order (R120). -/
def acceptDiffChecks (s : State) (p d : Nat) (lists : List (List Nat)) : List (Bool × Shown) :=
  [ (!s.supervisor p, .role),
    (d == s.tables.ownDrawer p, .role),
    ((s.drawer d).state != .awaitingAccept, .drawerState),
    ((s.drawer d).physical != .closed || (s.drawer d).releasePending, .drawerOpen),
    (!s.listsFit lists, .breakdownMismatch),
    (s.countedTooMuch lists, .drawerFull),
    (!s.reserveRoom, .journalFull) ]

/-- ACCEPT_DIFF (R120). -/
def takeAcceptDiff (s : State) (p d : Nat) (lists : List (List Nat)) : State :=
  if 24 < d then s.countLineBadMessage
  else
    let s := s.copyRole p
    match firstFailure (s.acceptDiffChecks p d lists) with
    | some o => s.showAt p o
    | none => s.balanceDrawer p d lists .accepted

/-- The checks of REOPEN in order (R121). -/
def reopenChecks (s : State) (p d : Nat) : List (Bool × Shown) :=
  [ (!s.supervisor p, .role),
    (s.day.state == .cutoff, .dayClosed),
    ((s.drawer d).state != .balanced, .drawerState),
    (!s.generalRoom, .journalFull) ]

/-- REOPEN (R121). -/
def takeReopen (s : State) (p d : Nat) : State :=
  if 24 < d then s.countLineBadMessage
  else
    let s := s.copyRole p
    match firstFailure (s.reopenChecks p d) with
    | some o => s.showAt p o
    | none =>
      ((s.setDrawerState d .active 0).append
        (.proof p ((s.session p).teller.getD 0) d .reopened [0, 0, 0, 0])).testCompletion

/-! ### FORM (R149) -/

/-- FORM: the form becomes current when the position may select it; otherwise the message is ignored (R149). -/
def takeFormMessage (s : State) (p f : Nat) : State :=
  match s.tables.position p, s.tables.form f with
  | some e, some x => if e.forms.contains f && x.selectable then s.takeForm p f else s
  | _, _ => s

end State

end Sys2Proof.Machine
end

