-- ==== Sys2Proof/Machine/Acceptance.lean ====
section
/-! DEFINITION. Acceptance of requests (03_tellers_and_transaction_codes.md, R57 to R65): checks 1 to 17, the limits, and
the way a request takes. -/

namespace Sys2Proof.Machine

/-! ### Classes (R57, R96) -/

/-- The customer classes; the others are branch classes (1.3, R57). -/
def TxClass.customer : TxClass → Bool
  | .deposit => true | .withdrawal => true | .exchangeBuy => true | .exchangeSell => true | .nonCash => true
  | .inquiry => true | _ => false

def TxClass.exchange : TxClass → Bool
  | .exchangeBuy => true | .exchangeSell => true | _ => false

/-- The drawers a class reaches, given the own drawer (R57). -/
def TxClass.target (c : TxClass) (own : Nat) : List Nat :=
  match c with
  | .nonCash => []
  | .inquiry => []
  | .transferIn => [own, 0]
  | .transferOut => [own, 0]
  | .delivery => [0]
  | .shipment => [0]
  | _ => [own]

/-- The roles rank CLERK below SENIOR below SUPERVISOR (R49). -/
def Role.rank (r : Role) : Nat := r.code

/-- The classes whose breakdown for the request currency is required (R96). -/
def TxClass.requires : TxClass → Bool
  | .deposit => true | .exchangeBuy => true | .delivery => true | _ => false

/-- A side of a request: the drawer, the currency, the amount it must make and the breakdown keyed for it. -/
structure Side where
  drawer : Nat
  cur : Nat
  amount : Nat
  keyed : Option (List (Nat × Nat))
deriving DecidableEq, Repr

/-- The outgoing side of a request (R96). -/
def outSide (cls : TxClass) (own : Nat) (r : Request) (cash : Nat) : Option Side :=
  match cls with
  | .withdrawal => some { drawer := own, cur := r.cur, amount := r.amount, keyed := r.bReq }
  | .exchangeBuy => some { drawer := own, cur := 0, amount := cash, keyed := r.bHome }
  | .exchangeSell => some { drawer := own, cur := r.cur, amount := r.amount, keyed := r.bReq }
  | .transferIn => some { drawer := 0, cur := r.cur, amount := r.amount, keyed := r.bReq }
  | .transferOut => some { drawer := own, cur := r.cur, amount := r.amount, keyed := r.bReq }
  | .shipment => some { drawer := 0, cur := r.cur, amount := r.amount, keyed := r.bReq }
  | _ => none

/-- The incoming side: the drawer, the currency and the counts, which for a transfer are those that leave the other
drawer (R96, R101). -/
def inSide (cls : TxClass) (own : Nat) (r : Request) (outgoing : Counts) : Option (Nat × Nat × Counts) :=
  match cls with
  | .deposit => some (own, r.cur, countsOfPairs (r.bReq.getD []))
  | .exchangeBuy => some (own, r.cur, countsOfPairs (r.bReq.getD []))
  | .exchangeSell => some (own, 0, countsOfPairs (r.bHome.getD []))
  | .transferIn => some (own, r.cur, outgoing)
  | .transferOut => some (0, r.cur, outgoing)
  | .delivery => some (0, r.cur, countsOfPairs (r.bReq.getD []))
  | _ => none

/-- A refusal: its outcome and, for the three cases of R105, the C that the view shows. -/
structure Refused where
  outcome : Shown
  cash : Option Nat
deriving DecidableEq, Repr

/-- What acceptance has worked out of a request that passes: E and the exchange figures, the counts of each side, the
reservation items, whether an override is needed and the claim. -/
structure Passed where
  equiv : Option Nat
  exch : Option Exchange
  items : List Item
  reqList : Counts
  homeList : Counts
  override : Bool
  claim : Nat
deriving DecidableEq, Repr

namespace State

/-! ### Checks 1 to 7 (R59, R60) -/

/-- Checks 1 to 4. -/
def sessionChecks (s : State) (p : Nat) (r : Request) : List (Bool × Shown) :=
  [ (!s.live, .notLive),
    ((s.session p).state == .signedOff, .notSignedOn),
    ((s.session p).state == .suspended, .suspended),
    ((s.waitingAt p).isSome, .busy),
    ((s.tables.findCode r.code).isNone, .codeUnknown) ]

/-- The day state does not let the class through (check 6). -/
def dayRefuses (s : State) (cls : TxClass) : Bool :=
  s.day.state != .opened && (cls.customer || s.day.state != .cutoff)

/-- Checks 5 to 7. -/
def codeChecks (s : State) (p : Nat) (r : Request) (e : CodeEntry) : List (Bool × Shown) :=
  [ (decide ((((s.session p).role.map Role.rank).getD 0) < e.minRole.rank), .role),
    (s.dayRefuses e.cls, .dayClosed),
    (decide (3 < r.cur) || !e.allowed.contains r.cur || (s.tables.currency r.cur).isNone, .currency) ]

/-! ### Rate, E and C (R63, R91, R104) -/

/-- The rate a request needs, none when it needs none (check 8, R91). -/
def rateNeeded (s : State) (cls : TxClass) (cur : Nat) : Option Nat :=
  match cls with
  | .exchangeBuy => some (s.tables.buyRate cur)
  | .exchangeSell => some (s.tables.sellRate cur)
  | .inquiry => none
  | _ => if cur = 0 then none else some (s.tables.buyRate cur)

/-- The exchange figures of a request, none for a class that is no exchange (R104). -/
def exchangeOf (s : State) (cls : TxClass) (r : Request) : Option Exchange :=
  match cls with
  | .exchangeBuy => some (exchangeFigures false r.amount (s.tables.buyRate r.cur) s.tables.cashStep)
  | .exchangeSell => some (exchangeFigures true r.amount (s.tables.sellRate r.cur) s.tables.cashStep)
  | _ => none

/-- The home equivalent E; absent for INQUIRY (R63). -/
def equivOf (s : State) (cls : TxClass) (r : Request) : Option Nat :=
  match s.exchangeOf cls r with
  | some x => some x.equiv
  | none =>
    if cls = .inquiry then none
    else if r.cur = 0 then some r.amount
    else some (r.amount * s.tables.buyRate r.cur / 100000000)

/-- Checks 8 and 9; INQUIRY passes both. -/
def amountChecks (s : State) (r : Request) (cls : TxClass) : List (Bool × Shown) :=
  [ (s.rateNeeded cls r.cur == some 0, .rateMissing),
    (cls != .inquiry
      && (r.amount == 0 || decide (Config.amountMax < r.amount)
        || decide (Config.amountMax < (s.equivOf cls r).getD 0)
        || (match s.exchangeOf cls r with
            | some x => x.cash == 0 || decide (Config.amountMax < x.cash)
            | none => false)), .amount) ]

/-! ### Check 10 (R60, R96, R97, R105) -/

/-- The breakdown for the request currency fails check 10. -/
def requestBreakdownFails (s : State) (e : CodeEntry) (r : Request) : Bool :=
  match r.bReq with
  | none => (e.rule == .required && e.cls != .inquiry) || e.cls.requires
  | some pairs =>
    e.rule == .never || e.cls == .nonCash || e.cls == .inquiry || !breakdownOk (s.tables.faces r.cur) r.amount pairs

/-- The home breakdown: absent or failing, for each class (R105); the C of an exchange is shown. -/
def homeBreakdownFails (s : State) (e : CodeEntry) (r : Request) (cash : Nat) : Option Refused :=
  match e.cls, r.bHome with
  | .exchangeBuy, none => none
  | .exchangeBuy, some pairs =>
    if breakdownOk (s.tables.faces 0) cash pairs then none else some { outcome := .breakdownMismatch, cash := some cash }
  | .exchangeSell, none => some { outcome := .quote, cash := some cash }
  | .exchangeSell, some pairs =>
    if breakdownOk (s.tables.faces 0) cash pairs then none else some { outcome := .breakdownMismatch, cash := some cash }
  | _, none => none
  | _, some _ => some { outcome := .breakdownMismatch, cash := none }

/-- Check 10: the request currency first, then the home side (R105). -/
def breakdownCheck (s : State) (e : CodeEntry) (r : Request) (cash : Nat) : Option Refused :=
  if s.requestBreakdownFails e r then some { outcome := .breakdownMismatch, cash := none }
  else s.homeBreakdownFails e r cash

/-! ### Checks 11 to 14 (R61) -/

/-- Check 11: some drawer of the target is not ACTIVE. -/
def targetClosed (s : State) (drawers : List Nat) : Bool := drawers.any (fun d => (s.drawer d).state != .active)

/-- Check 13: the counts that leave; none leave when the class has no outgoing side. -/
def outgoingSide (s : State) : Option Side → Except Shown Counts
  | none => .ok []
  | some x => s.outgoing x.drawer x.cur x.amount x.keyed

/-- Check 14 passes. -/
def incomingSideFits (s : State) : Option (Nat × Nat × Counts) → Bool
  | none => true
  | some (d, cur, counts) => s.incomingFits d cur counts

/-! ### Override decision and checks 15 to 17 (R62, R63) -/

/-- The class limit of a teller for a limit class, read from TELLERS now (R63). -/
def classLimit (s : State) (teller limitClass : Nat) : Nat :=
  ((s.tables.findTeller teller).map (fun e => e.limits.getD limitClass 0)).getD 0

/-- The request needs an override: E exceeds the limit or the limit is 0; INQUIRY needs none (R63). -/
def needsOverride (s : State) (p : Nat) (e : CodeEntry) (equiv : Option Nat) : Bool :=
  match equiv with
  | none => false
  | some x =>
    let limit := s.classLimit ((s.session p).teller.getD 0) e.limitClass
    decide (limit < x) || limit == 0

/-- INQUIRY is CENTRAL (R14); the way of a request goes by its authorisation (R65). -/
def goesToCentre (e : CodeEntry) : Bool := e.auth == .central || e.cls == .inquiry

/-- Checks 15 to 17. -/
def spaceChecks (s : State) (e : CodeEntry) (override : Bool) (claim : Nat) : List (Bool × Shown) :=
  [ (decide (s.generalSpace < claim), .journalFull),
    ((goesToCentre e || override) && s.freeIndex.isNone, .tableFull),
    (goesToCentre e && !override && !s.hasRoom, .linkBusy) ]

/-- The reservation items: outgoing first, then incoming (R98). -/
def itemsOf (out : Option Side) (outgoing : Counts) (incoming : Option (Nat × Nat × Counts)) : List Item :=
  (match out with
    | some x => sideItems x.drawer x.cur true outgoing
    | none => [])
  ++ (match incoming with
    | some (d, cur, counts) => sideItems d cur false counts
    | none => [])

/-- The two count lists the POST record carries: the request currency and the home side of an exchange (R173). -/
def listsOf (cls : TxClass) (outgoing : Counts) (incoming : Option (Nat × Nat × Counts)) : Counts × Counts :=
  let entering := (incoming.map (fun x => x.2.2)).getD []
  match cls with
  | .exchangeBuy => (entering, outgoing)
  | .exchangeSell => (outgoing, entering)
  | .deposit => (entering, [])
  | .delivery => (entering, [])
  | _ => (outgoing, [])

/-- Checks 8 to 17 of a request whose code, role, day and currency have passed. -/
def checksFrom8 (s : State) (p : Nat) (r : Request) (e : CodeEntry) : Except Refused Passed :=
  match firstFailure (s.amountChecks r e.cls) with
  | some o => .error { outcome := o, cash := none }
  | none =>
    let exch := s.exchangeOf e.cls r
    let cash := (exch.map (·.cash)).getD 0
    match s.breakdownCheck e r cash with
    | some f => .error f
    | none =>
      let own := s.tables.ownDrawer p
      if s.targetClosed (e.cls.target own) then .error { outcome := .drawerState, cash := none }
      else
        let out := outSide e.cls own r cash
        match s.outgoingSide out with
        | .error o => .error { outcome := o, cash := none }
        | .ok leaving =>
          let incoming := inSide e.cls own r leaving
          if !s.incomingSideFits incoming then .error { outcome := .drawerFull, cash := none }
          else
            let equiv := s.equivOf e.cls r
            let override := s.needsOverride p e equiv
            let claim := if e.cls = .inquiry then 0 else if override then 2 else 1
            match firstFailure (s.spaceChecks e override claim) with
            | some o => .error { outcome := o, cash := none }
            | none =>
              let lists := listsOf e.cls leaving incoming
              .ok { equiv := equiv, exch := exch, items := itemsOf out leaving incoming, reqList := lists.1,
                    homeList := lists.2, override := override, claim := claim }

/-! ### Refusal (R58) -/

/-- The amount a view, an entry or a frame carries: none is read of an INQUIRY (notes/assumptions/15.md). -/
def amountRead (code : Option CodeEntry) (r : Request) : Option Nat :=
  match code with
  | some e => if e.cls = .inquiry then none else some r.amount
  | none => some r.amount

/-- A refusal: view, outcome with the answer form of a known code, REFUSED (R58, R105, R137). The view takes the code as
keyed, 0 included (DESIGN CHOICE, notes/assumptions/29.md). -/
def refuse (s : State) (p : Nat) (r : Request) (f : Refused) : State :=
  let code := s.tables.findCode r.code
  ((s.onScreen p (fun t sc =>
      sc.setView t r.code (code.map (·.mnemonic)) r.cur (amountRead code r) f.cash r.account)).showWithForm p f.outcome
    (code.bind (·.answerForm))).countRefused

/-! ### What passing does (R64, R65) -/

/-- The captured fields of a request that passes, the rate read for E among them (R64, R68, R91). -/
def capture (s : State) (p : Nat) (r : Request) (e : CodeEntry) (x : Passed) : Captured :=
  { pos := p, teller := (s.session p).teller.getD 0
    snap := { code := e.code, cls := e.cls, auth := e.auth, print := e.print,
              target := e.cls.target (s.tables.ownDrawer p), mnemonic := e.mnemonic, answerForm := e.answerForm }
    own := s.tables.ownDrawer p, cur := r.cur, amount := (amountRead (some e) r).getD 0, equiv := x.equiv
    rate := s.rateNeeded e.cls r.cur, exch := x.exch, items := x.items, reqList := x.reqList, homeList := x.homeList, account := r.account }

/-- The equivalent the view shows: C for an exchange, E for every other class (R137). -/
def Passed.viewEquiv (x : Passed) : Option Nat :=
  match x.exch with
  | some f => some f.cash
  | none => x.equiv

/-- A request that passes: reservations, claim, view, then its way (R64, R65). -/
def carryThrough (s : State) (p : Nat) (r : Request) (e : CodeEntry) (x : Passed) : State :=
  let c := s.capture p r e x
  let t := ((s.reserveItems x.items).takeClaim x.claim).onScreen p (fun tb sc =>
    sc.setView tb r.code (some e.mnemonic) r.cur (amountRead (some e) r) (Passed.viewEquiv x) r.account)
  if goesToCentre e || x.override then t.createEntry c x.override x.claim
  else (t.post c none none).testCompletion

/-- The acceptance of a REQUEST (R58): the role is copied afresh, the checks are made in order, and the request is
refused or carried through. -/
def takeRequest (s : State) (p : Nat) (r : Request) : State :=
  let s := s.copyRole p
  match firstFailure (s.sessionChecks p r) with
  | some o => s.refuse p r { outcome := o, cash := none }
  | none =>
    match s.tables.findCode r.code with
    | none => s.refuse p r { outcome := .codeUnknown, cash := none }
    | some e =>
      match firstFailure (s.codeChecks p r e) with
      | some o => s.refuse p r { outcome := o, cash := none }
      | none =>
        match s.checksFrom8 p r e with
        | .error f => s.refuse p r f
        | .ok x => s.carryThrough p r e x

end State

end Sys2Proof.Machine
end

