-- ==== Sys2Proof/Machine/LineEngine.lean ====
section
/-! DEFINITION. The station line engine (02_station_line.md): roll call, presence, transfers, the arbiter, the survey,
and the handing of delivered messages to their owners. -/

namespace Sys2Proof.Machine

/-- The presence and attention sets and the survey's installed set hold unit u (R201). -/
def hasUnit (bits u : Nat) : Bool := bits.testBit u

/-- The three units of a position, ascending. -/
def allUnits : List Nat := [0, 1, 2]

/-- The round-robin sequence (1, 0), (1, 1), (1, 2), (2, 0) and so on to (24, 2) (R42). -/
def robin : List (Nat × Nat) := allPositions.flatMap (fun p => allUnits.map (fun u => (p, u)))

/-- The sequence from after the last-served requester on, wrapping; from (1, 0) when there is none (R42). -/
def robinAfter : Option (Nat × Nat) → List (Nat × Nat)
  | none => robin
  | some (p, u) => robin.drop (3 * (p - 1) + u + 1) ++ robin.take (3 * (p - 1) + u + 1)

/-- The pattern of ECHO probe k (R203). -/
def echoPattern (k : Nat) : List Byte := (List.range 8).map (fun i => toByte ((37 * k + 11 * i) % 256))

/-- The 16 ECHO probes of each installed unit, in ascending unit order (R45). -/
def echoProbes (installed : List Nat) : List ProbeKind :=
  (allUnits.filter installed.contains).flatMap (fun u => (List.range' 1 16).map (fun k => ProbeKind.echo u k))

/-- The sequence number after a sequence number (R35). -/
def seqAfter (n : Nat) : Nat := (n + 1) % 256

namespace State

/-! ### The engine's own state -/

/-- The engine enters a state with the unit reply wait loaded (R26). -/
def await (s : State) (e : Engine) : State :=
  s.withLine { s.line with engine := e, replyWait := some s.tables.params.unitReply }

/-- The engine returns to IDLE with the unit reply wait stopped (R26). -/
def idle (s : State) : State := s.withLine { s.line with engine := .idle, replyWait := none }

/-- A select-based transfer ends with an UNSELECT at address 31, after which the engine is IDLE (R26). -/
def endTransfer (s : State) : State := (s.sendLine .unselect).idle

/-! ### Loss and return of units (R32, R33) -/

/-- A message comes back to its owner undelivered (R32, R107, R147, R170). -/
def returnMessage (s : State) (p u : Nat) (m : OutMsg) : State :=
  match u with
  | 0 => s.screenReturned p m
  | 1 => s.printerMessageReturned p m
  | _ => s.showNotReleased [p]

/-- The owner is told that its unit is absent (R32); the composer holds the refresh by itself. -/
def tellAbsent (s : State) (p u : Nat) : State :=
  match u with
  | 0 => s
  | 1 => s.printerAbsent p
  | _ => s.drawerUnitAbsent p

/-- A PRESENT unit becomes ABSENT (R32): its messages are returned in queue order, then its owner is told. -/
def unitAbsent (s : State) (p u : Nat) : State :=
  let waiting := (s.unit p u).queue
  let t := s.setUnit p u { presence := .absent, attention := false, queue := [], outSeq := 0, lastIn := none }
  (waiting.foldl (fun t q => t.returnMessage p u q.msg) t).tellAbsent p u

/-- The owner's return action (R33). -/
def returnAction (s : State) (p u : Nat) : State :=
  match u with
  | 0 => s.onScreen p (fun t sc => sc.refresh t)
  | 1 => s.printerReturned p
  | _ => s.drawerUnitReturned p

/-- A unit becomes PRESENT from UNKNOWN or ABSENT, with sequence 0 and no last accepted sequence (R33). -/
def unitReturns (s : State) (p u : Nat) (attention : Bool) : State :=
  (s.setUnit p u { presence := .present, attention := attention, queue := [], outSeq := 0,
                   lastIn := none }).returnAction p u

/-! ### Roll call (R28 to R31) -/

/-- The polled set: every position whose entry is defined (R29). -/
def polled (s : State) : List Nat := allPositions.filter (fun p => (s.tables.position p).isSome)

/-- A general roll call ends: the roll-call timer is loaded and the engine is IDLE (R28, R29). -/
def endRollCall (s : State) : State :=
  (s.withLine { s.line with rollTimer := some s.tables.params.rollCall }).idle

/-- The next slot opens, or the last one has closed (R29). -/
def openSlot (s : State) (slots : List Nat) : State :=
  match slots with
  | [] => s.endRollCall
  | _ => s.await (.rollCall slots)

/-- The PRESENT units of positions that are not polled become ABSENT, since none of the units of a position without a
defined entry is ever present (02, introduction; notes/assumptions/10.md). -/
def dropUnpolled (s : State) : State :=
  (allPositions.filter (fun p => (s.tables.position p).isNone)).foldl
    (fun s p => allUnits.foldl (fun s u => if (s.unit p u).presence = .present then s.unitAbsent p u else s) s) s

/-- A ROLL_CALL grant (R29). -/
def beginRollCall (s : State) : State :=
  let t := (s.withLine { s.line with rollWaiting := false }).dropUnpolled
  (t.sendLine (.rollCallAll t.polled)).openSlot t.polled

/-- One unit of a position whose slot closes as answered (R30). -/
def unitAnswered (s : State) (p u : Nat) (reported attention : Bool) : State :=
  match (s.unit p u).presence, reported with
  | .present, true => s.setUnit p u { s.unit p u with attention := attention }
  | .present, false => s.unitAbsent p u
  | _, true => s.unitReturns p u attention
  | _, false => s.setUnit p u { s.unit p u with presence := .absent, attention := false }

/-- A slot closes as answered (R30). -/
def slotAnswered (s : State) (p presence attention : Nat) : State :=
  let installed := s.tables.installed p
  let t := s.setPosRec p { s.posRec p with missed := 0 }
  allUnits.foldl (fun t u =>
    t.unitAnswered p u (hasUnit presence u && installed.contains u) (hasUnit attention u)) t

/-- One unit of a position at its third miss (R31). -/
def unitMissed (s : State) (p u : Nat) : State :=
  match (s.unit p u).presence with
  | .present => s.unitAbsent p u
  | _ => s.setUnit p u { s.unit p u with presence := .absent }

/-- A slot closes as missed (R31). -/
def slotMissed (s : State) (p : Nat) : State :=
  let r := s.posRec p
  let t := s.setPosRec p { r with missed := min 3 (r.missed + 1) }
  let t := allUnits.foldl (fun t u => t.setUnit p u { t.unit p u with attention := false }) t
  if r.missed = 2 then
    let lost := allUnits.any (fun u => (s.unit p u).presence == .present)
    let t := allUnits.foldl (fun t u => t.unitMissed p u) t
    if lost then t.countUnitLost.alarm .unitLost p else t
  else t

/-! ### Transfers (R35 to R39) -/

/-- SELECT_RECEIVE and the head message, stamped with the outbound sequence; then WAIT_REPLY (R35). -/
def sendHead (s : State) (x : Transfer) : State :=
  match (s.unit x.pos x.unit).queue with
  | [] => s.idle
  | q :: _ =>
    ((s.sendLine (.selectReceive x.pos x.unit)).sendLine
      (.message x.pos x.unit (s.unit x.pos x.unit).outSeq q.msg)).await (.waitReply x)

/-- SELECT_SEND; then SELECTED_SEND (R38). -/
def sendSelect (s : State) (x : Transfer) : State :=
  (s.sendLine (.selectSend x.pos x.unit)).await (.selectedSend x)

/-- A transfer begins with the transfer-retries count taken from PARAMS (R36). -/
def newTransfer (s : State) (p u : Nat) : Transfer := { pos := p, unit := u, made := 0, limit := s.tables.params.retries }

/-- The retries are used up: the unit becomes ABSENT, and UNSELECT ends the transfer (R36, R39). -/
def loseUnit (s : State) (x : Transfer) : State := (s.unitAbsent x.pos x.unit).endTransfer

/-- A failure of an outbound transfer (R36). -/
def failOutbound (s : State) (x : Transfer) : State :=
  if x.made < x.limit then s.countLineRetry.sendHead { x with made := x.made + 1 } else s.loseUnit x

/-- A failure of an inbound transfer (R39). -/
def failInbound (s : State) (x : Transfer) : State :=
  if x.made < x.limit then s.countLineRetry.sendSelect { x with made := x.made + 1 } else s.loseUnit x

/-- The owner is told that a message was delivered (R35). -/
def tellDelivered (s : State) (p u : Nat) (m : OutMsg) : State :=
  match u with
  | 0 => s
  | 1 => s.printerDelivered p m
  | _ => s.releaseDelivered p

/-- ACCEPT for the message: the head leaves, the sequence advances, the owner is told (R35). -/
def deliverHead (s : State) (x : Transfer) : State :=
  match (s.unit x.pos x.unit).queue with
  | [] => s.endTransfer
  | q :: rest =>
    let t := s.setUnit x.pos x.unit { s.unit x.pos x.unit with
      queue := rest, outSeq := seqAfter (s.unit x.pos x.unit).outSeq }
    (t.tellDelivered x.pos x.unit q.msg).endTransfer

/-! ### Owners of inbound messages (R40) -/

/-- A delivered message is handed to the owner of its kind with the position number; one that breaks its unit's rows or
its layout is discarded and counted (R40, R204). -/
def deliver (s : State) (p : Nat) : InMsg → State
  | .signOn teller => s.takeSignOn p teller
  | .signOff => s.takeSignOff p
  | .suspend => s.takeSuspend p
  | .resume teller => s.takeResume p teller
  | .request r => s.takeRequest p r
  | .cancel => s.takeCancel p
  | .override tag decision => s.takeOverride p tag decision
  | .count d lists => s.takeCount p d lists
  | .reopen d => s.takeReopen p d
  | .acceptDiff d lists => s.takeAcceptDiff p d lists
  | .form f => s.takeFormMessage p f
  | .close => s.takeClose p
  | .bookIn account layout page place => s.takeBookIn p account layout page place
  | .bookOut => s.takeBookOut p
  | .status .ready => s.takeReady p
  | .status .lineDone => s.takeLineDone p
  | .status .jam => s.takeJam p
  | .status .jamCleared => s.takeJamCleared p
  | .status .turned => s.takeTurned p
  | .opened => s.takeOpened p
  | .closed => s.takeClosed p
  | .fault => s.takeFault p
  | .bad => s.countLineBadMessage

/-! ### The survey (R44 to R47) -/

/-- The survey runs from its list; an empty list is DONE at once (R44). -/
def startSurvey (s : State) (mode : SurveyMode) : State :=
  let ps := s.tables.surveyMask
  s.withSurvey
    { state := if ps = [] then .done else .running, mode := mode, list := ps, rest := ps, probes := [.presence],
      installed := [], elapsed := 0, marks := SurveyMarks.clear, results := Vector.replicate 24 SurveyResult.invalid,
      min := 255, max := 0, validCount := 0, faultCount := 0 }

/-- READ SURVEY SUMMARY taken while RUNNING stops the survey; a probe on the line is discarded (R47). -/
def stopSurvey (s : State) : State :=
  if s.survey.state = .running then
    let t := s.withSurvey { s.survey with state := .done, rest := [], probes := [] }
    match s.line.engine with
    | .waitProbe p k _ => t.withLine { t.line with engine := .waitProbe p k true }
    | _ => t
  else s

/-- A SURVEY grant sends one probe to the current position (R45). -/
def sendProbe (s : State) : State :=
  match s.survey.rest, s.survey.probes with
  | p :: _, .presence :: rest =>
    let installed := s.tables.installed p
    let more := if s.survey.mode = .echo then echoProbes installed else rest
    let t := s.withSurvey { s.survey with probes := more, installed := installed, elapsed := 0 }
    (t.sendLine (.rollCallAt p)).await (.waitProbe p .presence false)
  | p :: _, .echo u k :: rest =>
    let t := s.withSurvey { s.survey with probes := rest, elapsed := 0 }
    (t.sendLine (.echo p u (echoPattern k))).await (.waitProbe p (.echo u k) false)
  | _, _ => s

/-- The fault code of a position: the highest that applies (R46). -/
def surveyFault (slow : Bool) (m : SurveyMarks) : SurveyFault :=
  if m.noAnswer then .noAnswer
  else if m.badCheck then .badCheck
  else if m.wrongAddress then .wrongAddress
  else if m.unitMissing then .unitMissing
  else if slow then .slow
  else .ok

/-- A position's last probe has ended: its result becomes valid, the summary follows, the next position becomes
current (R46). -/
def surveyPositionDone (s : State) (p : Nat) : State :=
  let v := s.survey
  let r := rd1 v.results p SurveyResult.invalid
  let fault := surveyFault (decide (s.tables.params.surveySlow < r.max)) v.marks
  s.withSurvey { v with
    results := wr1 v.results p { r with valid := true, fault := fault }
    min := min v.min r.min
    max := max v.max r.max
    validCount := v.validCount + 1
    faultCount := if fault = .ok then v.faultCount else v.faultCount + 1
    rest := v.rest.drop 1
    probes := [.presence]
    marks := SurveyMarks.clear
    state := if v.rest.drop 1 = [] then .done else .running }

/-- A probe ends: its marks join the position's, a reply's time is recorded, and the position is done after its last
probe; a discarded probe changes nothing (R45 to R47). -/
def endProbe (s : State) (p : Nat) (discarded : Bool) (time : Option Nat) (mark : SurveyMarks → SurveyMarks) : State :=
  let s := s.idle
  if discarded then s
  else
    let v := s.survey
    let r := rd1 v.results p SurveyResult.invalid
    let r := match time with
      | some n => { r with min := min r.min n, max := max r.max n }
      | none => r
    let t := s.withSurvey { v with results := wr1 v.results p r, marks := mark v.marks }
    if v.probes = [] then t.surveyPositionDone p else t

/-- What a frame that ends a probe marks against the position (R46). -/
def probeMarks (p : Nat) (kind : ProbeKind) (installed : List Nat) (f : RxFrame) (m : SurveyMarks) : SurveyMarks :=
  match kind, f with
  | .presence, .rollAnswer addr presence _ =>
    { m with wrongAddress := m.wrongAddress || addr != p
             unitMissing := m.unitMissing || installed.any (fun u => !hasUnit presence u) }
  | .echo u k, .echo addr unit pattern =>
    { m with wrongAddress := m.wrongAddress || addr != p || unit != u
             badCheck := m.badCheck || pattern != echoPattern k }
  | _, _ => { m with badCheck := true }

/-! ### The arbiter (R41 to R43) -/

/-- The unit is PRESENT; no other unit is a requester (R32, R41). -/
def unitPresent (s : State) (p u : Nat) : Bool := (s.unit p u).presence == .present

/-- URGENT (R41). -/
def waitsUrgent (s : State) (p u : Nat) : Bool :=
  s.unitPresent p u &&
    (match u, (s.unit p u).queue with
      | 0, [] => !((s.screen p).urgentRows s.tables).isEmpty
      | 0, q :: _ => q.cls == .urgent
      | 2, q :: _ => q.msg == .release
      | _, _ => false)

/-- SERVICE (R41). -/
def waitsService (s : State) (p u : Nat) : Bool := s.unitPresent p u && (s.unit p u).attention

/-- PRINT (R41). -/
def waitsPrint (s : State) (p u : Nat) : Bool := s.unitPresent p u && u == 1 && !(s.unit p u).queue.isEmpty

/-- REFRESH (R41). -/
def waitsRefresh (s : State) (p u : Nat) : Bool :=
  s.unitPresent p u &&
    (match u, (s.unit p u).queue with
      | 0, [] => !((s.screen p).otherRows s.tables).isEmpty || (s.screen p).clearPending
      | 0, q :: _ => q.cls == .refresh
      | _, _ => false)

/-- Some requester waits in the class (R41). -/
def classWaits (s : State) : LineClass → Bool
  | .urgent => robin.any (fun x => s.waitsUrgent x.1 x.2)
  | .rollCall => s.line.rollWaiting
  | .service => robin.any (fun x => s.waitsService x.1 x.2)
  | .print => robin.any (fun x => s.waitsPrint x.1 x.2)
  | .refresh => robin.any (fun x => s.waitsRefresh x.1 x.2)
  | .survey => s.survey.state == .running

/-- The waiting classes in priority order. -/
def waitingClasses (s : State) : List LineClass :=
  [LineClass.urgent, .rollCall, .service, .print, .refresh, .survey].filter s.classWaits

/-- The class granted: the lowest waiting at a grant count of 7, the highest at any other (R42). -/
def grantedClass (s : State) : Option LineClass :=
  if s.line.grantCount = 7 then s.waitingClasses.getLast? else s.waitingClasses.head?

/-- The requester granted in a unit class: the first waiting after the last-served (R42). -/
def requester (last : Option (Nat × Nat)) (waits : Nat → Nat → Bool) : Nat × Nat :=
  ((robinAfter last).find? (fun x => waits x.1 x.2)).getD (1, 0)

/-- A screen unit with an empty queue: the composer builds its message for the class and the transfer proceeds, or the
grant ends with no frame (R43). A unit with a head message sends it. -/
def serveOutbound (s : State) (p u : Nat) (c : LineClass) : State :=
  if u = 0 ∧ (s.unit p u).queue = [] then
    match s.buildMessage p (c == .urgent) with
    | (t, some m) =>
      let t := t.setUnit p u { t.unit p u with queue := [{ msg := m, cls := c }] }
      t.sendHead (t.newTransfer p u)
    | (t, none) => t
  else s.sendHead (s.newTransfer p u)

/-- The work of a grant (R42): the class's last-served requester moves, and one piece of work begins. -/
def serve (s : State) : LineClass → State
  | .urgent =>
    let x := requester s.line.lastUrgent s.waitsUrgent
    (s.withLine { s.line with lastUrgent := some x }).serveOutbound x.1 x.2 .urgent
  | .rollCall => s.beginRollCall
  | .service =>
    let x := requester s.line.lastService s.waitsService
    let t := s.withLine { s.line with lastService := some x }
    t.sendSelect (t.newTransfer x.1 x.2)
  | .print =>
    let x := requester s.line.lastPrint s.waitsPrint
    (s.withLine { s.line with lastPrint := some x }).serveOutbound x.1 x.2 .print
  | .refresh =>
    let x := requester s.line.lastRefresh s.waitsRefresh
    (s.withLine { s.line with lastRefresh := some x }).serveOutbound x.1 x.2 .refresh
  | .survey => s.sendProbe

/-- The arbiter makes a grant when the engine is IDLE and a requester waits; the grant count rises by 1, wrapping from 7
to 0 (R42). -/
def grant (s : State) : State :=
  if s.line.engine = .idle then
    match s.grantedClass with
    | none => s
    | some c => (s.withLine { s.line with grantCount := (s.line.grantCount + 1) % 8 }).serve c
  else s

/-! ### Frames received (R25, R29, R35 to R39, R45, R203) -/

/-- A frame fails its check (R24). -/
def failsCheck : RxFrame → Bool
  | .badCheck => true
  | .badForm => true
  | _ => false

/-- A frame that the state awaits nothing of is discarded, and counted when it fails its check (R25). -/
def discardFrame (s : State) (f : RxFrame) : State := if failsCheck f then s.countLineBadFrame else s

/-- A frame during a roll-call slot: one that fails its check, or is another position's answer, is counted and the slot goes on
waiting (R29). R203's "ends its wait … whatever the outcome of its check" is not read of the slot (DEDUCED,
notes/assumptions/34.md). -/
def receiveSlot (s : State) (slots : List Nat) (f : RxFrame) : State :=
  match slots, f with
  | p :: rest, .rollAnswer addr presence attention =>
    if addr = p then (s.slotAnswered p presence attention).openSlot rest else s.countLineBadFrame
  | _, _ => s.discardFrame f

/-- A frame while an outbound message awaits its reply (R35 to R37): one that fails its check or names another address, unit or
sequence is counted and the wait goes on (R35), R203's last sentence notwithstanding (DEDUCED, notes/assumptions/34.md). -/
def receiveReply (s : State) (x : Transfer) (f : RxFrame) : State :=
  match f with
  | .reply kind addr unit seq =>
    if addr = x.pos ∧ unit = x.unit ∧ seq = (s.unit x.pos x.unit).outSeq then
      match kind with
      | .accept => s.deliverHead x
      | .reject => s.failOutbound x
      | .busy => s.endTransfer
    else s.countLineBadFrame
  | _ => s.discardFrame f

/-- The unit's frame is refused: REJECT is answered, LINE_BAD_FRAME counted, and the transfer ends (R39). The REJECT
names the selected position and unit, whatever address the refused frame named (DESIGN CHOICE, notes/assumptions/28.md).
It carries the sequence of the message it answers; a frame that carries none leaves it a free value
(notes/assumptions/1.md). -/
def rejectInbound (s : State) (x : Transfer) (seq : Option Nat) : State :=
  match seq with
  | some n => ((s.sendLine (.reply .reject x.pos x.unit n)).countLineBadFrame).endTransfer
  | none =>
    (((s.drawFree).sendLine
      (.reply .reject x.pos x.unit (Config.freeByte s.freeDraws).toNat)).countLineBadFrame).endTransfer

/-- A message from the selected unit (R38): ACCEPT is answered and attention cleared; a repeat is not delivered again. -/
def acceptInbound (s : State) (x : Transfer) (seq : Nat) (m : InMsg) : State :=
  let repeated := (s.unit x.pos x.unit).lastIn == some seq
  let t := s.sendLine (.reply .accept x.pos x.unit seq)
  let t := t.setUnit x.pos x.unit { t.unit x.pos x.unit with attention := false, lastIn := some seq }
  if repeated then t.endTransfer else t.endTransfer.deliver x.pos m

/-- A frame in SELECTED_SEND (R37 to R39). -/
def receiveInbound (s : State) (x : Transfer) (f : RxFrame) : State :=
  match f with
  | .message addr unit seq m =>
    if addr = x.pos ∧ unit = x.unit then s.acceptInbound x seq m else s.rejectInbound x (some seq)
  | .reply .busy addr unit _ => if addr = x.pos ∧ unit = x.unit then s.endTransfer else s.rejectInbound x none
  | _ => s.rejectInbound x none

/-- A frame ends a survey probe, whatever it is (R45). -/
def receiveProbe (s : State) (p : Nat) (kind : ProbeKind) (discarded : Bool) (f : RxFrame) : State :=
  s.endProbe p discarded (some s.survey.elapsed) (probeMarks p kind s.survey.installed f)

/-- A frame arrives on the station line and is taken by the rule of the engine's state; while bytes are discarded until
the line is silent no frame begins (R25, R203). -/
def receive (s : State) (f : RxFrame) : State :=
  if s.line.discarding then s
  else
    let s := if f = .badForm then s.withLine { s.line with discarding := true } else s
    match s.line.engine with
    | .idle => s.discardFrame f
    | .selectedReceive _ => s.discardFrame f
    | .rollCall slots => s.receiveSlot slots f
    | .selectedSend x => s.receiveInbound x f
    | .waitReply x => s.receiveReply x f
    | .waitProbe p kind discarded => s.receiveProbe p kind discarded f

/-- Bytes arrive on the station line: an incomplete frame is no frame (R203). -/
def receiveBytes (s : State) (bytes : List Byte) : State :=
  match parseStation bytes with
  | some f => s.receive f
  | none => s

/-- The line has been silent for two byte times (R203). -/
def fallSilent (s : State) : State := s.withLine { s.line with discarding := false }

/-- The unit reply wait expires (R26, R29, R31, R36, R39, R45). -/
def replyWaitExpires (s : State) : State :=
  if s.line.replyWait = none then s
  else
    match s.line.engine with
    | .rollCall (p :: rest) => (s.slotMissed p).openSlot rest
    | .selectedSend x => s.failInbound x
    | .waitReply x => s.failOutbound x
    | .waitProbe p _ discarded => s.endProbe p discarded none (fun m => { m with noAnswer := true })
    | _ => s.idle

/-- The roll-call timer expires (R28). -/
def rollTimerExpires (s : State) : State :=
  if s.line.rollTimer.isSome then s.withLine { s.line with rollTimer := none, rollWaiting := true } else s

/-- The head of a unit's outbound queue has left: the owner of a message refused as full offers again (R34, R160, R170).
Screens keep one message at most in their queue and a drawer one RELEASE, so only the passbook controller keeps any. -/
def queueRoom (s : State) (p u : Nat) : State :=
  if u = 1 ∧ (s.unit p u).queue.length < Config.outboundCapacity ∧ (s.unit p u).presence = .present then s.printerRoom p
  else s

end State

end Sys2Proof.Machine
end

