-- ==== Sys2Proof/Machine/Mgmt.lean ====
section
/-! DEFINITION. The management decoder and the table store (01_office_link_and_management.md): replies, the table
requests with every check of R13 to R20, the read requests, the lock, and the day requests' conditions. -/

namespace Sys2Proof.Machine

/-- What the decoder makes of a request: data for a DONE reply, or a refusal with its code and, for a cross-reference
refusal, the check, section and index (R7, R19). -/
inductive Verdict where
  | done (data : List Byte)
  | refused (outcome : MgmtOutcome) (check section_ index : Nat)
deriving DecidableEq, Repr

def refusal (o : MgmtOutcome) : Verdict := .refused o 0 0 0

def Verdict.outcome : Verdict → MgmtOutcome
  | .done _ => .done
  | .refused o _ _ _ => o

def Verdict.data : Verdict → List Byte
  | .done d => d
  | .refused _ _ _ _ => []

/-- Check number, section and index of a refusal. -/
def Verdict.detail : Verdict → Nat × Nat × Nat
  | .done _ => (0, 0, 0)
  | .refused _ c x i => (c, x, i)

/-! ### Cross-reference checks (R19) -/

/-- The indices of a section's places, ascending. -/
def indicesFrom (first count : Nat) : List Nat := List.range' first count

/-- The currency and denomination position a source takes. -/
def Source.currency : Source → Option (Nat × Option Nat)
  | .drawerValue c => some (c, none)
  | .drawerAvailable c => some (c, none)
  | .drawerCount c d => some (c, some d)
  | _ => none

namespace Tables

/-- A source's currency is defined and has its denomination position (check 3). -/
def sourceSound (t : Tables) (x : Source) : Bool :=
  match x.currency with
  | none => true
  | some (c, d) =>
    match t.currency c, d with
    | none, _ => false
    | some _, none => true
    | some e, some d => inRange 1 e.faces.length d

/-- The first index at which a check fails. -/
def firstBroken (indices : List Nat) (ok : Nat → Bool) : Option Nat := indices.find? (fun i => !ok i)

/-- A default form is defined (check 1). -/
def positionSound (t : Tables) (p : Nat) : Bool :=
  match t.position p with
  | some e => (t.form e.defaultForm).isSome
  | none => true

/-- An answer form is defined (check 2). -/
def codeSound (t : Tables) (i : Nat) : Bool :=
  match (rd t.codes i none).bind (·.answerForm) with
  | some f => (t.form f).isSome
  | none => true

/-- A field's source is sound (check 3). -/
def fieldSound (t : Tables) (i : Nat) : Bool :=
  match t.field i with
  | some e => t.sourceSound e.source
  | none => true

/-- The first cross-reference check that fails, with its section and index (R19). -/
def crossCheck (t : Tables) : Option (Nat × Section × Nat) :=
  match firstBroken allPositions t.positionSound with
  | some p => some (1, .positions, p)
  | none =>
    match firstBroken (List.range 128) t.codeSound with
    | some i => some (2, .codes, i)
    | none =>
      match firstBroken (List.range 512) t.fieldSound with
      | some i => some (3, .fields, i)
      | none =>
        if t.faces 0 = [] then some (4, .currencies, 0)
        else if (List.range 128).all (fun i => (rd t.codes i none).isNone) then some (5, .codes, 0)
        else none

end Tables

/-! ### Agreement with the other entries (R15, R94) and use (R16) -/

/-- No other defined CODES entry holds the code (R15). -/
def codeFree (t : Tables) (i code : Nat) : Bool :=
  (List.range 128).all (fun k => k == i || ((rd t.codes k none).map (·.code)) != some code)

/-- No other defined TELLERS entry holds the teller id (R15). -/
def tellerFree (t : Tables) (i id : Nat) : Bool :=
  (List.range 64).all (fun k => k == i || ((rd t.tellers k none).map (·.id)) != some id)

/-- An odd position's pair flag and its even partner's unit 2 exclude each other (R15). -/
def pairAgrees (t : Tables) (p : Nat) (e : PositionEntry) : Bool :=
  if p % 2 = 1 then !(e.pair && (t.installed (p + 1)).contains 2)
  else !(e.units.contains 2 && t.pairFlag (p - 1))

/-- Step 7 of R13. -/
def TableEntry.agrees (t : Tables) (i : Nat) : TableEntry → Bool
  | .code (some e) => codeFree t i e.code
  | .teller (some e) => tellerFree t i e.id
  | .position (some e) => pairAgrees t i e
  | _ => true

namespace State

/-- Some drawer holds a book count above 0 in a denomination of the currency (R15). -/
def currencyHeld (s : State) (c : Nat) : Bool :=
  allDrawers.any (fun d => (countsOf (s.drawer d).book c).any (fun n => n != 0))

/-- The drawer holds a book count above 0 (R94). -/
def bookHeld (s : State) (d : Nat) : Bool :=
  (List.range 4).any (fun c => (countsOf (s.drawer d).book c).any (fun n => n != 0))

/-- The teller id is signed on at some position, SIGNED_ON or SUSPENDED (R16). -/
def tellerSignedOn (s : State) (id : Nat) : Bool :=
  allPositions.any (fun p => (s.session p).state != .signedOff && (s.session p).teller == some id)

/-- Step 9 of R13: the write would remove something in use (R15, R16, R94). -/
def inUse (s : State) (i : Nat) : TableEntry → Bool
  | .currency e => s.currencyHeld i && decide ((e.map (·.faces)).getD [] ≠ s.tables.faces i)
  | .position (some e) => e.pair && i % 2 == 1 && s.bookHeld (i + 1)
  | .teller e =>
    match rd s.tables.tellers i none with
    | some old => s.tellerSignedOn old.id && (e.map (·.id)) != some old.id
    | none => false
  | _ => false

/-- Step 4 of R13: the lock level and the day state allow a write to the section (R20). -/
def writable (s : State) (x : Section) : Bool :=
  !x.structural || s.lock == 0 || (s.lock == 1 && (s.day.state == .noDay || s.day.state == .sent))

/-! ### Effects of an accepted write on the other blocks (R16, R51, R94, R135, R141) -/

/-- A full refresh of the screens a form satisfies. -/
def refreshForms (s : State) (test : Nat → Bool) : State :=
  (allPositions.filter (fun p => test (s.screen p).form)).foldl (fun s p => s.onScreen p (fun t sc => sc.refresh t)) s

/-- Set A or set B of a form covers a field index (R16). -/
def formCovers (t : Tables) (i f : Nat) : Bool :=
  match t.form f with
  | some e =>
    inRange e.setA.first (e.setA.first + e.setA.count - 1) i && e.setA.count != 0
      || inRange e.setB.first (e.setB.first + e.setB.count - 1) i && e.setB.count != 0
  | none => false

/-- Every DRAWER_ source. -/
def anyDrawerSource : Source → Bool
  | .drawerValue _ => true
  | .drawerAvailable _ => true
  | .drawerCount _ _ => true
  | _ => false

/-- The sources a CURRENCIES write at index c touches on a screen whose view's currency is given (R141). -/
def currencySource (c : Nat) (view : Option Nat) : Source → Bool
  | .drawerValue k => k == c
  | .drawerAvailable k => k == c
  | .drawerCount k _ => k == c
  | .txnCurrency => view == some c
  | .txnAmount => view == some c
  | .balance => view == some c
  | .txnEquiv => c == 0
  | .overrideAmount => c == 0
  | _ => false

/-- A POSITIONS write: a changed serving unit (R94), then a changed own drawer of the even partner (R135, R141). The urgent flag
is tested at each re-evaluation, before the drawer rows are marked (notes/assumptions/9.md). -/
def positionWritten (s : State) (old : Tables) (i : Nat) : State :=
  let s := if old.serving i = s.tables.serving i then s else s.servingChanged i
  if old.ownDrawer (i + 1) = s.tables.ownDrawer (i + 1) then s
  else (s.reevaluate (i + 1)).touch [i + 1] anyDrawerSource

/-- What an accepted write does outside the table store. -/
def afterWrite (s : State) (old : Tables) (i : Nat) : TableEntry → State
  | .form _ => s.refreshForms (fun f => f == i)
  | .field _ => s.refreshForms (formCovers s.tables i)
  | .text _ => s.touch allPositions (· == .text i)
  | .message _ => s.touch allPositions outcomeSource
  | .currency _ => s.onScreens allPositions (fun t sc => sc.mark t (currencySource i sc.view.cur))
  | .position _ => s.positionWritten old i
  | .teller (some e) => (allPositions.filter (fun p => (s.session p).teller == some e.id)).foldl copyRole s
  | _ => s

/-- A write that passed every check is stored whole (R13). -/
def storeEntry (s : State) (i : Nat) (e : TableEntry) : State :=
  (s.withTables (s.tables.store i e)).afterWrite s.tables i e

/-! ### TABLE WRITE and TABLE READ (R13) -/

/-- Steps 6 to 9 of R13 on the content of a write. -/
def writeChecked (s : State) (x : Section) (i : Nat) (content : List Byte) : State × Verdict :=
  match parseContent x content with
  | none => (s, refusal .badContent)
  | some e =>
    if !e.sound i || !e.agrees s.tables i then (s, refusal .badContent)
    else
      match (if s.live then (s.tables.store i e).crossCheck else none) with
      | some (c, y, k) => (s, .refused .badContent c y.code k)
      | none =>
        if s.inUse i e then (s, refusal .inUse)
        else (s.storeEntry i e, .done (0 :: ((s.tables.store i e).read x i).bytes))

/-- TABLE WRITE of a section that exists (R13, steps 2 to 9). -/
def writeSection (s : State) (x : Section) (i : Nat) (intent : Bool) (content : List Byte) : State × Verdict :=
  if !x.hasIndex i then (s, refusal .badIndex)
  else if !intent then
    (s, .done (flagByte (contentMatches x content (s.tables.read x i)) :: (s.tables.read x i).bytes))
  else if !s.writable x then (s, refusal .locked)
  else if x = .surveyMask ∧ s.survey.state = .running then (s, refusal .busy)
  else s.writeChecked x i content

/-- TABLE WRITE: parameters section, index, write intent, content (R7, R13, R204). -/
def tableWrite (s : State) (bs : List Byte) : State × Verdict :=
  if bs = [] then (s, refusal .badContent)
  else
    match sectionOf (num bs 0 1) with
    | none => (s, refusal .badSection)
    | some x =>
      if bs.length ≠ 4 + x.size then (s, refusal .badContent)
      else s.writeSection x (num bs 1 2) (num bs 3 1 != 0) (bs.drop 4)

/-- TABLE READ: section, index (R13). -/
def tableRead (s : State) (bs : List Byte) : Verdict :=
  match sectionOf (num bs 0 1) with
  | none => refusal .badSection
  | some x => if x.hasIndex (num bs 1 2) then .done (s.tables.read x (num bs 1 2)).bytes else refusal .badIndex

/-! ### LOCK (R18, R19) -/

/-- Going live: every screen of a defined position takes the entry's default form (R150). -/
def goLive (s : State) : State := (allPositions.filter (fun p => (s.tables.position p).isSome)).foldl takeDefaultForm s

/-- LOCK (R19). -/
def takeLock (s : State) (level : Nat) : State × Verdict :=
  if level ≠ 1 ∧ level ≠ 2 then (s, refusal .badContent)
  else if s.lock = 0 then
    match s.tables.crossCheck with
    | some (c, x, i) => (s, .refused .badContent c x.code i)
    | none => ((s.withLock level).goLive, .done [])
  else if s.lock = 1 then (s.withLock level, .done [])
  else (s, .done [])

/-! ### Day requests (R10) -/

/-- A digit character's value. -/
def digit (b : Byte) : Option Nat := if inRange 48 57 b.toNat then some (b.toNat - 48) else none

/-- The number that digit characters spell. -/
def digitsValue (bs : List Byte) : Option Nat :=
  bs.foldl (fun acc b => match acc, digit b with | some n, some d => some (10 * n + d) | _, _ => none) (some 0)

def leapYear (y : Nat) : Bool := y % 4 == 0 && (y % 100 != 0 || y % 400 == 0)

def monthDays (y m : Nat) : Nat :=
  if m = 2 then (if leapYear y then 29 else 28)
  else if m = 4 ∨ m = 6 ∨ m = 9 ∨ m = 11 then 30
  else 31

/-- A calendar date YYYYMMDD with a year from 1900 to 2999 (R10). -/
def validDate (bs : List Byte) : Bool :=
  match digitsValue (slice bs 0 4), digitsValue (slice bs 4 2), digitsValue (slice bs 6 2) with
  | some y, some m, some d => inRange 1900 2999 y && inRange 1 12 m && inRange 1 (monthDays y m) d
  | _, _, _ => false

/-- OPEN DAY: STATE is checked before the date (R10). -/
def mgmtOpenDay (s : State) (date : List Byte) : State × Verdict :=
  if !s.live || (s.day.state != .noDay && s.day.state != .sent) then (s, refusal .state)
  else if !validDate date then (s, refusal .badContent)
  else (s.openDay date, .done [])

/-- CUTOFF (R10, R186). -/
def mgmtCutoff (s : State) : State × Verdict :=
  if s.day.state = .opened then (s.takeCutoff none none, .done []) else (s, refusal .state)

/-- REOPEN DAY (R10, R188). -/
def mgmtReopenDay (s : State) : State × Verdict :=
  if s.day.state = .cutoff ∧ s.generalRoom = true then (s.takeReopenDay, .done []) else (s, refusal .state)

/-- RESUME BATCH (R10, R197). -/
def mgmtResumeBatch (s : State) : State × Verdict :=
  if s.day.state = .held then (s.resumeBatch, .done []) else (s, refusal .state)

/-! ### Identification and counters (R9) -/

def identifyData (s : State) : List Byte :=
  [toByte Config.vendorCode] ++ be 2 Config.partCode ++ [toByte Config.revisionCode, toByte s.port.node]

end State

/-- The eleven counters in the order of R9. -/
def Counters.bytes (c : Counters) : List Byte :=
  be 2 c.linkBadFrame ++ be 2 c.linkWrongNode ++ be 2 c.lateAnswer ++ be 2 c.noticeLost ++ be 2 c.lineBadFrame
    ++ be 2 c.lineRetry ++ be 2 c.unitLost ++ be 2 c.lineBadMessage ++ be 2 c.refused ++ be 2 c.batchResend
    ++ be 2 c.batchAckIgnored

namespace State

/-- READ COUNTERS: the values held, then cleared when the clear flag is set (R9). -/
def readCounters (s : State) (clear : Bool) : State × Verdict :=
  (if clear then s.withCounters Counters.zero else s, .done s.counters.bytes)

/-! ### Reads of other blocks (R11) -/

/-- The book, reserved-out and pending-in counts of a currency, twelve slots; zero for an undefined currency and for a
drawer a pair leaves unused (R11). -/
def drawerCounts (s : State) (d c : Nat) : List Byte :=
  if (s.tables.currency c).isNone || s.tables.unusedByPair d then List.replicate 72 0
  else (List.range' 1 12).flatMap (fun k =>
    be 2 (countAt (s.drawer d).book c k) ++ be 2 (countAt (s.drawer d).reserved c k)
      ++ be 2 (countAt (s.drawer d).incoming c k))

/-- READ DRAWER data (R11, R95). -/
def drawerData (s : State) (d c : Nat) : List Byte :=
  let x := s.drawer d
  [toByte x.state.code, toByte x.physical.code, toByte x.alertBits, toByte x.recount, flagByte x.releasePending]
    ++ be 2 x.openings ++ [flagByte x.postedToday] ++ be 6 (rd x.opening c 0) ++ [toByte (s.tables.faces c).length]
    ++ s.drawerCounts d c

def readDrawer (s : State) (d c : Nat) : Verdict :=
  if 24 < d ∨ 3 < c then refusal .badIndex else .done (s.drawerData d c)

/-- READ SESSION (R11). -/
def readSession (s : State) (p : Nat) : Verdict :=
  if inRange 1 24 p then
    .done ([toByte (s.session p).state.code] ++ be 2 ((s.session p).teller.getD 0)
      ++ [toByte (((s.session p).role.map Role.code).getD 0)])
  else refusal .badIndex

/-- READ PENDING (R87). -/
def readPending (s : State) (i : Nat) : Verdict :=
  if 31 < i then refusal .badIndex
  else
    match s.entry i with
    | none => .done [0]
    | some e => .done (1 :: e.bytes)

end State

/-- Records from the front while at most `most` are taken and their sizes sum to at most `room` (R182, R205). -/
def takeRecords : Nat → Nat → List Record → List Record
  | 0, _, _ => []
  | _ + 1, _, [] => []
  | most + 1, room, r :: rest => if r.size ≤ room then r :: takeRecords most (room - r.size) rest else []

namespace State

/-- The records a READ JOURNAL returns (R182): at most 16, at most 1,009 bytes. -/
def journalFrom (s : State) (seq : Nat) : List Record := takeRecords 16 1009 (s.journal.records.drop (seq - 1))

/-- READ JOURNAL (R182). -/
def readJournal (s : State) (seq : Nat) : Verdict :=
  if seq = 0 ∨ s.usedCount < seq then refusal .badIndex
  else
    .done ([toByte (s.journalFrom seq).length] ++ be 2 s.usedCount ++ (s.journalFrom seq).flatMap Record.bytes)

/-- START SURVEY: a bad mode, then a running survey (R11, R44). -/
def mgmtStartSurvey (s : State) (mode : Nat) : State × Verdict :=
  match (if mode = 1 then some SurveyMode.presence else if mode = 2 then some SurveyMode.echo else none) with
  | none => (s, refusal .badContent)
  | some m => if s.survey.state = .running then (s, refusal .busy) else (s.startSurvey m, .done [])

/-- READ SURVEY POSITION (R47). -/
def readSurveyPosition (s : State) (p : Nat) : Verdict :=
  if inRange 1 24 p then
    let r := rd1 s.survey.results p SurveyResult.invalid
    .done [flagByte r.valid, toByte r.fault.code, toByte r.min, toByte r.max]
  else refusal .badIndex

/-- The survey summary as it stands (R47). -/
def surveySummary (s : State) : List Byte :=
  [toByte s.survey.state.code, toByte s.survey.min, toByte s.survey.max, toByte s.survey.list.length,
    toByte s.survey.validCount, toByte s.survey.faultCount]

/-- READ SURVEY SUMMARY stops a running survey (R11, R47). -/
def readSurveySummary (s : State) : State × Verdict := (s.stopSurvey, .done s.stopSurvey.surveySummary)

/-! ### Replies (R4, R7, R8) -/

/-- The reply, built from the state after the request's effect, with its own slot counted (R7, R8). -/
def replyOf (s : State) (code : Byte) (tag : Nat) (v : Verdict) : Reply :=
  { code := code, tag := tag, outcome := v.outcome, check := v.detail.1, section_ := v.detail.2.1,
    index := v.detail.2.2, summary := s.summary, data := v.data }

/-- The reply is offered: queued, which clears the previous-frame-failed flag, or dropped and counted (R4, R6, R7). -/
def reply (s : State) (code : Byte) (tag : Nat) (v : Verdict) : State :=
  if s.hasRoom then
    let t := s.enqueue (.reply (s.replyOf code tag v))
    t.withPort { t.port with prevFailed := false }
  else s.countNoticeLost

/-- A request that only reads: its size, its verdict, its reply (R7). -/
def answerRead (s : State) (code : Byte) (tag size : Nat) (bs : List Byte) (v : Verdict) : State :=
  s.reply code tag (if bs.length = size then v else refusal .badContent)

/-- A request that may change the part: its size, its effect, its reply (R7). -/
def answerDo (s : State) (code : Byte) (tag size : Nat) (bs : List Byte) (f : State × Verdict) : State :=
  if bs.length = size then f.1.reply code tag f.2 else s.reply code tag (refusal .badContent)

end State

end Sys2Proof.Machine
end

