-- ==== Sys2Proof/Machine/Starts.lean ====
section
/-! DEFINITION. The two starts (R21, R22, R48, R66, R88, R89, R112, R113, R151, R171, R183, R199, R200). -/

namespace Sys2Proof.Machine

/-- The node number that the straps give: 0 is node 1 and 255 is node 254 (R2). -/
def nodeOf (straps : Nat) : Nat := if straps = 0 then 1 else if straps = 255 then 254 else straps

namespace State

/-- A cold start: every piece of state at its initial value. OLRDY and RETV are input levels; the records of frames sent,
the draws made and the commands waiting are no state of the part (notes/assumptions/3.md). -/
def coldStart (s : State) (straps : Nat) (retv : Bool) : State :=
  { State.reset with
    port := { State.reset.port with
      node := nodeOf straps, straps := straps, retv := retv, olrdy := s.port.olrdy, sent := s.port.sent }
    line := Line.start s.line.sent
    freeDraws := s.freeDraws
    pending := s.pending }

/-! ### The warm start -/

/-- Port, counters, lock level, line engine, survey, sessions, override order list, printers and line store at their
start values (R22, R48, R66, R88, R171). -/
def warmUnits (s : State) (straps : Nat) (retv : Bool) : State :=
  { s with
    port := { State.reset.port with
      node := nodeOf straps, straps := straps, retv := retv, olrdy := s.port.olrdy, sent := s.port.sent }
    counters := Counters.zero
    lock := min s.lock 1
    line := Line.start s.line.sent
    survey := Survey.start
    sessions := Vector.replicate 24 Session.off
    overrides := []
    printers := Vector.replicate 24 Printer.start
    store := Vector.replicate 256 none }

/-- A drawer's physical state is UNKNOWN with a serving unit and CLOSED without; its open-alarm timer stops (R113). -/
def warmDrawer (s : State) (d : Nat) : State :=
  s.setDrawer d { s.drawer d with
    physical := if s.tables.serving d then .unknown else .closed, openAlarm := none }

def warmDrawers (s : State) : State := allDrawers.foldl warmDrawer s

/-- The RESTART record, in OPEN and CUTOFF, when general space is at least 1 (R66, R177). A warm start raises no nearly-full
alarm, whatever it writes (R183). -/
def restartRecord (s : State) : State :=
  if (s.day.state = .opened ∨ s.day.state = .cutoff) ∧ s.generalRoom = true then s.writeRecord .restart
  else s

/-- A WAITING_CENTRE entry becomes REVERSING with reason RESTART; its EXPIRED record is written against its claim and
raises no alarm (R88, R183). -/
def warmReverse (s : State) (i : Nat) (e : Entry) : State :=
  (((s.releaseItems e.req.items).releaseClaim 1).writeRecord (e.expiredBody .restart)).setEntry i
    (some (e.reversing .restart))

/-- One entry at a warm start (R88). -/
def warmEntry (s : State) (i : Nat) : State :=
  match s.entry i with
  | none => s
  | some e =>
    match e.state with
    | .reversing => s
    | .waitingCentre =>
      if e.req.snap.cls = .inquiry then (s.releaseClaim e.claim).freeEntry i else s.warmReverse i e
    | .waitingOverride => ((s.releaseItems e.req.items).releaseClaim e.claim).freeEntry i

/-- Entries in ascending index order, then the REVERSAL notices in ascending index order (R88). -/
def warmEntries (s : State) : State := (List.range 32).foldl offerReversal ((List.range 32).foldl warmEntry s)

/-- The form a screen takes at a warm start (R151). -/
def startForm (s : State) (p : Nat) : Nat := ((s.tables.position p).map (·.defaultForm)).getD 0

/-- Every screen at its warm start values (R151). -/
def warmScreens (s : State) : State :=
  allPositions.foldl (fun s p => s.setScreen p (Screen.start (s.startForm p) (s.alertNow p))) s

/-- The day record at a warm start: SENDING and HELD become HELD with s at a and BATCH_HELD offered (R199). The clock
keeps its value and whether it runs (R174); the ticks of its current second are kept with them (DEDUCED,
notes/assumptions/21.md). -/
def warmDay (s : State) : State :=
  let t := s.withDay { s.day with expiries := 0, ackTimer := none }
  if s.day.state = .sending ∨ s.day.state = .held then
    (t.withDay { t.day with state := .held, sent := t.day.acked }).alarm .batchHeld 0
  else t

/-- Completion as a warm start takes it: every session is off already, and its SETTLEMENT record raises no nearly-full
alarm (R183, R190, R199). It offers the DAY notice of SENDING, as every completion does (R189, R191): R199 names only the
SIGN_OFF records as left out of it, and its "No DAY notice is offered at the start" is read of the start's own changes of
the day record, not of this completion (DEDUCED, notes/assumptions/31.md). -/
def warmCompletion (s : State) : State :=
  if s.day.state = .cutoff ∧ s.canComplete = true then
    (s.clearReleases.closeJournal (s.clearReleases.writeRecord s.clearReleases.settlementBody)).startSending
  else s

/-- A warm start, one event for the whole part (R21); in CUTOFF completion is tested at its end (R199). -/
def warmStart (s : State) (straps : Nat) (retv : Bool) : State :=
  ((((((s.warmUnits straps retv).warmDrawers).restartRecord).warmEntries).warmDay).warmScreens).warmCompletion

/-- Power-on: RETV asserted gives a warm start, deasserted a cold one (R21). -/
def powerOn (s : State) (straps : Nat) (retv : Bool) : State :=
  if retv then s.warmStart straps retv else s.coldStart straps retv

/-- RESTART: a valid kind starts the part at once and builds no reply; RETV is not sampled (R12, R21). -/
def restart (s : State) (tag : Nat) (bs : List Byte) (straps : Nat) : State :=
  if bs.length = 1 ∧ num bs 0 1 = 1 then s.coldStart straps s.port.retv
  else if bs.length = 1 ∧ num bs 0 1 = 2 then s.warmStart straps s.port.retv
  else s.reply 0x12 tag (refusal .badContent)

end State

end Sys2Proof.Machine
end

