-- ==== Sys2Proof/Machine/Receive.lean ====
section
/-! DEFINITION. The office link port (R1 to R5): each management request with its size and reply, the routing of accepted
frames, the node filter, the receive path and the transmission of the upstream queue. -/

namespace Sys2Proof.Machine
namespace State

/-! ### Management requests, by request code (R7; 11, Management request and reply) -/

def mgmtIdentify (s : State) (tag : Nat) (bs : List Byte) : State := s.answerRead 0x01 tag 0 bs (.done s.identifyData)
def mgmtReadStatus (s : State) (tag : Nat) (bs : List Byte) : State := s.answerRead 0x02 tag 0 bs (.done [])

/-- TABLE WRITE tests its own size, which depends on its section (R7). -/
def mgmtTableWrite (s : State) (tag : Nat) (bs : List Byte) : State :=
  (s.tableWrite bs).1.reply 0x03 tag (s.tableWrite bs).2

def mgmtTableRead (s : State) (tag : Nat) (bs : List Byte) : State := s.answerRead 0x04 tag 3 bs (s.tableRead bs)
def mgmtLock (s : State) (tag : Nat) (bs : List Byte) : State := s.answerDo 0x05 tag 1 bs (s.takeLock (num bs 0 1))
def mgmtOpen (s : State) (tag : Nat) (bs : List Byte) : State := s.answerDo 0x06 tag 8 bs (s.mgmtOpenDay bs)
def mgmtCut (s : State) (tag : Nat) (bs : List Byte) : State := s.answerDo 0x07 tag 0 bs s.mgmtCutoff
def mgmtReopen (s : State) (tag : Nat) (bs : List Byte) : State := s.answerDo 0x08 tag 0 bs s.mgmtReopenDay
def mgmtResume (s : State) (tag : Nat) (bs : List Byte) : State := s.answerDo 0x09 tag 0 bs s.mgmtResumeBatch

def mgmtReadDrawer (s : State) (tag : Nat) (bs : List Byte) : State :=
  s.answerRead 0x0A tag 2 bs (s.readDrawer (num bs 0 1) (num bs 1 1))

def mgmtReadSession (s : State) (tag : Nat) (bs : List Byte) : State :=
  s.answerRead 0x0B tag 1 bs (s.readSession (num bs 0 1))

def mgmtReadPending (s : State) (tag : Nat) (bs : List Byte) : State :=
  s.answerRead 0x0C tag 1 bs (s.readPending (num bs 0 1))

def mgmtReadJournal (s : State) (tag : Nat) (bs : List Byte) : State :=
  s.answerRead 0x0D tag 2 bs (s.readJournal (num bs 0 2))

def mgmtReadCounters (s : State) (tag : Nat) (bs : List Byte) : State :=
  s.answerDo 0x0E tag 1 bs (s.readCounters (num bs 0 1 != 0))

def mgmtSurvey (s : State) (tag : Nat) (bs : List Byte) : State :=
  s.answerDo 0x0F tag 1 bs (s.mgmtStartSurvey (num bs 0 1))

def mgmtSurveyPosition (s : State) (tag : Nat) (bs : List Byte) : State :=
  s.answerRead 0x10 tag 1 bs (s.readSurveyPosition (num bs 0 1))

def mgmtSurveySummary (s : State) (tag : Nat) (bs : List Byte) : State := s.answerDo 0x11 tag 0 bs s.readSurveySummary

/-- A code that is no management request of the 2410 is refused with UNKNOWN and echoed (R7). -/
def mgmtUnknown (s : State) (code : Byte) (tag : Nat) : State := s.reply code tag (refusal .unknown)

/-- A MGMT frame (R7). One without payload holds no request code: it is refused with UNKNOWN and the code echoed is a
free value (notes/assumptions/1.md). The straps at a RESTART are those last read. -/
def takeMgmt (s : State) (tag : Nat) (payload : List Byte) : State :=
  match payload with
  | [] => s.drawFree.mgmtUnknown (Config.freeByte s.freeDraws) tag
  | c :: bs =>
    match c.toNat with
    | 0x01 => s.mgmtIdentify tag bs
    | 0x02 => s.mgmtReadStatus tag bs
    | 0x03 => s.mgmtTableWrite tag bs
    | 0x04 => s.mgmtTableRead tag bs
    | 0x05 => s.mgmtLock tag bs
    | 0x06 => s.mgmtOpen tag bs
    | 0x07 => s.mgmtCut tag bs
    | 0x08 => s.mgmtReopen tag bs
    | 0x09 => s.mgmtResume tag bs
    | 0x0A => s.mgmtReadDrawer tag bs
    | 0x0B => s.mgmtReadSession tag bs
    | 0x0C => s.mgmtReadPending tag bs
    | 0x0D => s.mgmtReadJournal tag bs
    | 0x0E => s.mgmtReadCounters tag bs
    | 0x0F => s.mgmtSurvey tag bs
    | 0x10 => s.mgmtSurveyPosition tag bs
    | 0x11 => s.mgmtSurveySummary tag bs
    | 0x12 => s.restart tag bs s.port.straps
    | _ => s.mgmtUnknown c tag

/-! ### Routing, node filter, receive path (R1 to R3) -/

/-- An accepted frame goes to the block that owns its kind, and to it alone (R3). -/
def route (s : State) (kind tag : Nat) (payload : List Byte) : State :=
  match kind with
  | 1 => s.takeAnswer tag payload
  | 2 => s.takeMgmt tag payload
  | 3 => s.takeAck tag
  | 4 => s.takeNack tag
  | _ => s

/-- The node filter accepts the 2410's own node, and node 255 for IDENTIFY alone (R2). -/
def nodeAccepts (s : State) (kind node : Nat) (payload : List Byte) : Bool :=
  node == s.port.node || (node == 255 && kind == 2 && payload.head? == some 1)

/-- A frame that passed R1 at the node filter (R2). -/
def filterNode (s : State) (kind node tag : Nat) (payload : List Byte) : State :=
  if s.nodeAccepts kind node payload then s.route kind tag payload else s.countLinkWrongNode

/-- The bytes between two frame boundaries (R1). -/
def receiveOffice (s : State) (bytes : List Byte) : State :=
  match parseOffice bytes with
  | none => s.dropBadFrame
  | some f => s.filterNode f.kind f.node f.tag f.payload

/-! ### Transmission (R5) -/

/-- OLRDY asserted: transmission begins or resumes with the head (R5). -/
def linkReady (s : State) : State := (s.withPort { s.port with olrdy := true }).beginTransmit

/-- OLRDY deasserted: a frame being transmitted is completed and the next is not begun (R5). -/
def linkStalled (s : State) : State := s.withPort { s.port with olrdy := false }

/-- The last byte of the head has been sent: it leaves the queue, its slot is free, and the next frame begins while OLRDY
is asserted (R5). -/
def frameLeaves (s : State) : State :=
  match s.port.transmitting, s.port.queue with
  | true, f :: rest =>
    (s.withPort { s.port with transmitting := false, queue := rest, sent := s.port.sent ++ [f] }).beginTransmit
  | _, _ => s

end State
end Sys2Proof.Machine
end

