-- ==== Sys2Proof/Machine/LineRows.lean ====
section
/-! DEFINITION. The meanings of the station line's own commands: roll call, grant, the frames of transfers and probes,
and the line falling silent; one definition per row of the table. -/

namespace Sys2Proof.Machine

/-- ROLL_CALL_TIMER_EXPIRY (R28). -/
def execRollCallTimerExpiry (s : State) : Host.Outcome State Fault Refusal := .next s.rollTimerExpires

/-- GRANT (R42). -/
def execGrant (s : State) : Host.Outcome State Fault Refusal := .next s.grant

/-- ROLL_ANSWER: a well-checked answer at a position's address (R29, R30, R45). -/
def execRollAnswer (pos presence attention : Nat) (s : State) : Host.Outcome State Fault Refusal :=
  .next (s.receive (.rollAnswer pos presence attention))

/-- UNIT_REPLY_WAIT_EXPIRY (R26). -/
def execUnitReplyWaitExpiry (s : State) : Host.Outcome State Fault Refusal := .next s.replyWaitExpires

/-- ACCEPT (R35). -/
def execAccept (pos unit seq : Nat) (s : State) : Host.Outcome State Fault Refusal :=
  .next (s.receive (.reply .accept pos unit seq))

/-- REJECT (R36). -/
def execReject (pos unit seq : Nat) (s : State) : Host.Outcome State Fault Refusal :=
  .next (s.receive (.reply .reject pos unit seq))

/-- BUSY (R37). -/
def execBusy (pos unit seq : Nat) (s : State) : Host.Outcome State Fault Refusal :=
  .next (s.receive (.reply .busy pos unit seq))

/-- ECHO (R45). -/
def execEcho (pos unit : Nat) (pattern : List Byte) (s : State) : Host.Outcome State Fault Refusal :=
  .next (s.receive (.echo pos unit pattern))

/-- LINE_FRAME_DISCARDED: the bytes of a frame that the engine's state discards (R25, R29, R35). -/
def execLineFrameDiscarded (frame : List Byte) (s : State) : Host.Outcome State Fault Refusal :=
  .next (s.receiveBytes frame)

/-- INBOUND_FRAME_REJECTED: the bytes of a frame that fails an inbound transfer (R39). -/
def execInboundFrameRejected (frame : List Byte) (s : State) : Host.Outcome State Fault Refusal :=
  .next (s.receiveBytes frame)

/-- REPEAT_MESSAGE: a message of the sequence last accepted (R38). -/
def execRepeatMessage (pos unit kind seq : Nat) (payload : List Byte) (s : State) :
    Host.Outcome State Fault Refusal :=
  .next (s.receive (.message pos unit seq (parseMessage unit kind payload)))

/-- LINE_BAD_MESSAGE: a well-checked message of a wrong kind, size or value (R40). -/
def execLineBadMessage (pos unit kind seq : Nat) (payload : List Byte) (s : State) :
    Host.Outcome State Fault Refusal :=
  .next (s.receive (.message pos unit seq (parseMessage unit kind payload)))

/-- OUTBOUND_QUEUE_ROOM (R34, R170). -/
def execOutboundQueueRoom (pos unit : Nat) (s : State) : Host.Outcome State Fault Refusal :=
  .next (s.queueRoom pos unit)

/-- SURVEY_PROBE_BAD_REPLY: the bytes of a frame that ends a probe (R45). -/
def execSurveyProbeBadReply (frame : List Byte) (s : State) : Host.Outcome State Fault Refusal :=
  .next (s.receiveBytes frame)

/-- LINE_SILENT (R203). -/
def execLineSilent (s : State) : Host.Outcome State Fault Refusal := .next s.fallSilent

end Sys2Proof.Machine
end

