-- ==== Sys2Proof/Machine/MgmtRows.lean ====
section
/-! DEFINITION. The meanings of the management requests: one definition per row of the table. -/

namespace Sys2Proof.Machine

/-- IDENTIFY (R9). -/
def execIdentify (tag : Nat) (params : List Byte) (s : State) : Host.Outcome State Fault Refusal :=
  .next (s.mgmtIdentify tag params)

/-- READ STATUS (R9). -/
def execReadStatus (tag : Nat) (params : List Byte) (s : State) : Host.Outcome State Fault Refusal :=
  .next (s.mgmtReadStatus tag params)

/-- READ COUNTERS (R9). -/
def execReadCounters (tag : Nat) (params : List Byte) (s : State) : Host.Outcome State Fault Refusal :=
  .next (s.mgmtReadCounters tag params)

/-- TABLE WRITE (R13). -/
def execTableWrite (tag : Nat) (params : List Byte) (s : State) : Host.Outcome State Fault Refusal :=
  .next (s.mgmtTableWrite tag params)

/-- TABLE READ (R13). -/
def execTableRead (tag : Nat) (params : List Byte) (s : State) : Host.Outcome State Fault Refusal :=
  .next (s.mgmtTableRead tag params)

/-- LOCK (R19). -/
def execLock (tag : Nat) (params : List Byte) (s : State) : Host.Outcome State Fault Refusal :=
  .next (s.mgmtLock tag params)

/-- OPEN DAY (R10, R185). -/
def execOpenDay (tag : Nat) (params : List Byte) (s : State) : Host.Outcome State Fault Refusal :=
  .next (s.mgmtOpen tag params)

/-- CUTOFF (R10, R186). -/
def execCutoff (tag : Nat) (params : List Byte) (s : State) : Host.Outcome State Fault Refusal :=
  .next (s.mgmtCut tag params)

/-- REOPEN DAY (R10, R188). -/
def execReopenDay (tag : Nat) (params : List Byte) (s : State) : Host.Outcome State Fault Refusal :=
  .next (s.mgmtReopen tag params)

/-- RESUME BATCH (R10, R197). -/
def execResumeBatch (tag : Nat) (params : List Byte) (s : State) : Host.Outcome State Fault Refusal :=
  .next (s.mgmtResume tag params)

/-- READ DRAWER (R11). -/
def execReadDrawer (tag : Nat) (params : List Byte) (s : State) : Host.Outcome State Fault Refusal :=
  .next (s.mgmtReadDrawer tag params)

/-- READ SESSION (R11). -/
def execReadSession (tag : Nat) (params : List Byte) (s : State) : Host.Outcome State Fault Refusal :=
  .next (s.mgmtReadSession tag params)

/-- READ PENDING (R87). -/
def execReadPending (tag : Nat) (params : List Byte) (s : State) : Host.Outcome State Fault Refusal :=
  .next (s.mgmtReadPending tag params)

/-- READ JOURNAL (R182). -/
def execReadJournal (tag : Nat) (params : List Byte) (s : State) : Host.Outcome State Fault Refusal :=
  .next (s.mgmtReadJournal tag params)

/-- START SURVEY (R44). -/
def execStartSurvey (tag : Nat) (params : List Byte) (s : State) : Host.Outcome State Fault Refusal :=
  .next (s.mgmtSurvey tag params)

/-- READ SURVEY POSITION (R47). -/
def execReadSurveyPosition (tag : Nat) (params : List Byte) (s : State) : Host.Outcome State Fault Refusal :=
  .next (s.mgmtSurveyPosition tag params)

/-- READ SURVEY SUMMARY (R47). -/
def execReadSurveySummary (tag : Nat) (params : List Byte) (s : State) : Host.Outcome State Fault Refusal :=
  .next (s.mgmtSurveySummary tag params)

/-- RESTART (R12). -/
def execRestart (tag : Nat) (params : List Byte) (straps : Nat) (s : State) : Host.Outcome State Fault Refusal :=
  .next (s.restart tag params straps)

/-- A request of an unknown code (R7). -/
def execUnknown (code : Byte) (tag : Nat) (_params : List Byte) (s : State) : Host.Outcome State Fault Refusal :=
  .next (s.mgmtUnknown code tag)

end Sys2Proof.Machine
end

