-- ==== Sys2Proof/Machine/OfficeRows.lean ====
section
/-! DEFINITION. The meanings of the commands of the office link port, the upstream queue, the centre's answers and
batch acknowledgments, and power-on: one definition per row of the table. -/

namespace Sys2Proof.Machine

/-- POWER_ON (R21). -/
def execPowerOn (straps : Nat) (retv : Bool) (s : State) : Host.Outcome State Fault Refusal :=
  .next (s.powerOn straps retv)

/-- BAD_FRAME: the bytes between two frame boundaries (R1); bytes that make a sound frame go on to the filter (R2). -/
def execBadFrame (frame : List Byte) (s : State) : Host.Outcome State Fault Refusal := .next (s.receiveOffice frame)

/-- WRONG_NODE_FRAME: a frame that passed R1 at the node filter (R2). -/
def execWrongNodeFrame (kind node tag : Nat) (payload : List Byte) (s : State) : Host.Outcome State Fault Refusal :=
  .next (s.filterNode kind node tag payload)

/-- OLRDY_ASSERTED (R5). -/
def execOlrdyAsserted (s : State) : Host.Outcome State Fault Refusal := .next s.linkReady

/-- OLRDY_DEASSERTED (R5). -/
def execOlrdyDeasserted (s : State) : Host.Outcome State Fault Refusal := .next s.linkStalled

/-- FRAME_SENT (R5). -/
def execFrameSent (s : State) : Host.Outcome State Fault Refusal := .next s.frameLeaves

/-- REVERSAL_NOTICE_QUEUED (R77). -/
def execReversalNoticeQueued (index : Nat) (s : State) : Host.Outcome State Fault Refusal :=
  .next (s.queueReversal index)

/-- GRANTED_REQUEST_QUEUED (R83). -/
def execGrantedRequestQueued (index : Nat) (s : State) : Host.Outcome State Fault Refusal :=
  .next (s.queueGranted index)

/-- OWED_NOTICE_QUEUED (R163). -/
def execOwedNoticeQueued (pos : Nat) (s : State) : Host.Outcome State Fault Refusal := .next (s.queueOwed pos)

/-- SEND_WINDOW (R193). -/
def execSendWindow (s : State) : Host.Outcome State Fault Refusal := .next s.testWindow

/-- ANSWER (R72). -/
def execAnswer (tag : Nat) (payload : List Byte) (s : State) : Host.Outcome State Fault Refusal :=
  .next (s.takeAnswer tag payload)

/-- BATCH_ACK (R194). -/
def execBatchAck (block : Nat) (s : State) : Host.Outcome State Fault Refusal := .next (s.takeAck block)

/-- BATCH_NACK (R195). -/
def execBatchNack (block : Nat) (s : State) : Host.Outcome State Fault Refusal := .next (s.takeNack block)

end Sys2Proof.Machine
end

