-- ==== Sys2Proof/Machine/StationRows.lean ====
section
/-! DEFINITION. The meanings of the messages of station units: one definition per row of the table. A command is the
arrival of the unit's well-checked message frame; what the frame does is fixed by the engine's state (R25, R29, R35,
R38), and in SELECTED_SEND the message of the selected unit is answered ACCEPT and reaches its owner (R40). -/

namespace Sys2Proof.Machine

/-- SIGN_ON (R52). -/
def execSignOn (pos seq teller : Nat) (s : State) : Host.Outcome State Fault Refusal :=
  .next (s.receive (.message pos 0 seq (.signOn teller)))

/-- SIGN_OFF (R53). -/
def execSignOff (pos seq : Nat) (s : State) : Host.Outcome State Fault Refusal :=
  .next (s.receive (.message pos 0 seq .signOff))

/-- SUSPEND (R54). -/
def execSuspend (pos seq : Nat) (s : State) : Host.Outcome State Fault Refusal :=
  .next (s.receive (.message pos 0 seq .suspend))

/-- RESUME (R55). -/
def execResume (pos seq teller : Nat) (s : State) : Host.Outcome State Fault Refusal :=
  .next (s.receive (.message pos 0 seq (.resume teller)))

/-- REQUEST (R58). -/
def execRequest (pos seq : Nat) (r : Request) (s : State) : Host.Outcome State Fault Refusal :=
  .next (s.receive (.message pos 0 seq (.request r)))

/-- CANCEL (R78). -/
def execCancel (pos seq : Nat) (s : State) : Host.Outcome State Fault Refusal :=
  .next (s.receive (.message pos 0 seq .cancel))

/-- OVERRIDE (R81). -/
def execOverride (pos seq tag decision : Nat) (s : State) : Host.Outcome State Fault Refusal :=
  .next (s.receive (.message pos 0 seq (.override tag decision)))

/-- COUNT (R115). -/
def execCount (pos seq drawer : Nat) (lists : List (List Nat)) (s : State) : Host.Outcome State Fault Refusal :=
  .next (s.receive (.message pos 0 seq (.count drawer lists)))

/-- ACCEPT_DIFF (R120). -/
def execAcceptDiff (pos seq drawer : Nat) (lists : List (List Nat)) (s : State) : Host.Outcome State Fault Refusal :=
  .next (s.receive (.message pos 0 seq (.acceptDiff drawer lists)))

/-- REOPEN (R121). -/
def execReopen (pos seq drawer : Nat) (s : State) : Host.Outcome State Fault Refusal :=
  .next (s.receive (.message pos 0 seq (.reopen drawer)))

/-- FORM (R149). -/
def execForm (pos seq form : Nat) (s : State) : Host.Outcome State Fault Refusal :=
  .next (s.receive (.message pos 0 seq (.form form)))

/-- CLOSE (R187). -/
def execClose (pos seq : Nat) (s : State) : Host.Outcome State Fault Refusal :=
  .next (s.receive (.message pos 0 seq .close))

/-- BOOK_IN (R155, R156). -/
def execBookIn (pos seq : Nat) (account : Text) (layout page place : Nat) (s : State) : Host.Outcome State Fault Refusal :=
  .next (s.receive (.message pos 1 seq (.bookIn account layout page place)))

/-- BOOK_OUT (R156). -/
def execBookOut (pos seq : Nat) (s : State) : Host.Outcome State Fault Refusal :=
  .next (s.receive (.message pos 1 seq .bookOut))

/-- STATUS_READY (R167). -/
def execStatusReady (pos seq : Nat) (s : State) : Host.Outcome State Fault Refusal :=
  .next (s.receive (.message pos 1 seq (.status .ready)))

/-- LINE_DONE (R162). -/
def execLineDone (pos seq : Nat) (s : State) : Host.Outcome State Fault Refusal :=
  .next (s.receive (.message pos 1 seq (.status .lineDone)))

/-- TURNED (R164). -/
def execTurned (pos seq : Nat) (s : State) : Host.Outcome State Fault Refusal :=
  .next (s.receive (.message pos 1 seq (.status .turned)))

/-- JAM (R166). -/
def execJam (pos seq : Nat) (s : State) : Host.Outcome State Fault Refusal :=
  .next (s.receive (.message pos 1 seq (.status .jam)))

/-- JAM_CLEARED (R166). -/
def execJamCleared (pos seq : Nat) (s : State) : Host.Outcome State Fault Refusal :=
  .next (s.receive (.message pos 1 seq (.status .jamCleared)))

/-- OPENED (R108). -/
def execOpened (pos seq : Nat) (s : State) : Host.Outcome State Fault Refusal :=
  .next (s.receive (.message pos 2 seq .opened))

/-- CLOSED (R109). -/
def execClosed (pos seq : Nat) (s : State) : Host.Outcome State Fault Refusal :=
  .next (s.receive (.message pos 2 seq .closed))

/-- FAULT (R111). -/
def execFault (pos seq : Nat) (s : State) : Host.Outcome State Fault Refusal :=
  .next (s.receive (.message pos 2 seq .fault))

end Sys2Proof.Machine
end

