-- ==== Sys2Proof/Machine/TimerRows.lean ====
section
/-! DEFINITION. The meanings of the timers' expiries and the day clock's tick: one definition per row of the table. -/

namespace Sys2Proof.Machine

/-- APPROVAL_WAIT_EXPIRY (R75). -/
def execApprovalWaitExpiry (index : Nat) (s : State) : Host.Outcome State Fault Refusal :=
  .next (s.approvalExpires index)

/-- OVERRIDE_WAIT_EXPIRY (R80). -/
def execOverrideWaitExpiry (index : Nat) (s : State) : Host.Outcome State Fault Refusal :=
  .next (s.overrideExpires index)

/-- OPEN_ALARM_EXPIRY (R110). -/
def execOpenAlarmExpiry (drawer : Nat) (s : State) : Host.Outcome State Fault Refusal :=
  .next (s.openAlarmExpires drawer)

/-- PACING_TIMER_EXPIRY (R160). -/
def execPacingTimerExpiry (pos : Nat) (s : State) : Host.Outcome State Fault Refusal := .next (s.pacingExpires pos)

/-- LINE_COMPLETION_WAIT_EXPIRY (R167). -/
def execLineCompletionWaitExpiry (pos : Nat) (s : State) : Host.Outcome State Fault Refusal :=
  .next (s.lineWaitExpires pos)

/-- BOOK_WAIT_EXPIRY (R169). -/
def execBookWaitExpiry (pos : Nat) (s : State) : Host.Outcome State Fault Refusal := .next (s.bookWaitExpires pos)

/-- ACK_WAIT_EXPIRY (R196). -/
def execAckWaitExpiry (s : State) : Host.Outcome State Fault Refusal := .next s.ackWaitExpires

/-- DAY_CLOCK_TICK (R174). -/
def execDayClockTick (s : State) : Host.Outcome State Fault Refusal := .next s.clockTick

end Sys2Proof.Machine
end

