-- ==== Sys2Proof/Machine/Dispatch.lean ====
section
/-! DEFINITION. One arm per command: each calls its own meaning. -/

namespace Sys2Proof.Machine

def exec (i : Instr) (s : State) : Host.Outcome State Fault Refusal :=
  match i with
  | .powerOn straps retv => Sys2Proof.Machine.execPowerOn straps retv s
  | .badFrame frame => Sys2Proof.Machine.execBadFrame frame s
  | .wrongNodeFrame kind node tag payload => Sys2Proof.Machine.execWrongNodeFrame kind node tag payload s
  | .olrdyAsserted => Sys2Proof.Machine.execOlrdyAsserted s
  | .olrdyDeasserted => Sys2Proof.Machine.execOlrdyDeasserted s
  | .frameSent => Sys2Proof.Machine.execFrameSent s
  | .reversalNoticeQueued index => Sys2Proof.Machine.execReversalNoticeQueued index s
  | .grantedRequestQueued index => Sys2Proof.Machine.execGrantedRequestQueued index s
  | .owedNoticeQueued pos => Sys2Proof.Machine.execOwedNoticeQueued pos s
  | .sendWindow => Sys2Proof.Machine.execSendWindow s
  | .answer tag payload => Sys2Proof.Machine.execAnswer tag payload s
  | .batchAck block => Sys2Proof.Machine.execBatchAck block s
  | .batchNack block => Sys2Proof.Machine.execBatchNack block s
  | .identify tag params => Sys2Proof.Machine.execIdentify tag params s
  | .readStatus tag params => Sys2Proof.Machine.execReadStatus tag params s
  | .readCounters tag params => Sys2Proof.Machine.execReadCounters tag params s
  | .tableWrite tag params => Sys2Proof.Machine.execTableWrite tag params s
  | .tableRead tag params => Sys2Proof.Machine.execTableRead tag params s
  | .lock tag params => Sys2Proof.Machine.execLock tag params s
  | .openDay tag params => Sys2Proof.Machine.execOpenDay tag params s
  | .cutoff tag params => Sys2Proof.Machine.execCutoff tag params s
  | .reopenDay tag params => Sys2Proof.Machine.execReopenDay tag params s
  | .resumeBatch tag params => Sys2Proof.Machine.execResumeBatch tag params s
  | .readDrawer tag params => Sys2Proof.Machine.execReadDrawer tag params s
  | .readSession tag params => Sys2Proof.Machine.execReadSession tag params s
  | .readPending tag params => Sys2Proof.Machine.execReadPending tag params s
  | .readJournal tag params => Sys2Proof.Machine.execReadJournal tag params s
  | .startSurvey tag params => Sys2Proof.Machine.execStartSurvey tag params s
  | .readSurveyPosition tag params => Sys2Proof.Machine.execReadSurveyPosition tag params s
  | .readSurveySummary tag params => Sys2Proof.Machine.execReadSurveySummary tag params s
  | .restart tag params straps => Sys2Proof.Machine.execRestart tag params straps s
  | .unknown code tag params => Sys2Proof.Machine.execUnknown code tag params s
  | .rollCallTimerExpiry => Sys2Proof.Machine.execRollCallTimerExpiry s
  | .grant => Sys2Proof.Machine.execGrant s
  | .rollAnswer pos presence attention => Sys2Proof.Machine.execRollAnswer pos presence attention s
  | .unitReplyWaitExpiry => Sys2Proof.Machine.execUnitReplyWaitExpiry s
  | .accept pos unit seq => Sys2Proof.Machine.execAccept pos unit seq s
  | .reject pos unit seq => Sys2Proof.Machine.execReject pos unit seq s
  | .busy pos unit seq => Sys2Proof.Machine.execBusy pos unit seq s
  | .echo pos unit pattern => Sys2Proof.Machine.execEcho pos unit pattern s
  | .lineFrameDiscarded frame => Sys2Proof.Machine.execLineFrameDiscarded frame s
  | .inboundFrameRejected frame => Sys2Proof.Machine.execInboundFrameRejected frame s
  | .repeatMessage pos unit kind seq payload => Sys2Proof.Machine.execRepeatMessage pos unit kind seq payload s
  | .lineBadMessage pos unit kind seq payload => Sys2Proof.Machine.execLineBadMessage pos unit kind seq payload s
  | .outboundQueueRoom pos unit => Sys2Proof.Machine.execOutboundQueueRoom pos unit s
  | .signOn pos seq teller => Sys2Proof.Machine.execSignOn pos seq teller s
  | .signOff pos seq => Sys2Proof.Machine.execSignOff pos seq s
  | .suspend pos seq => Sys2Proof.Machine.execSuspend pos seq s
  | .resume pos seq teller => Sys2Proof.Machine.execResume pos seq teller s
  | .request pos seq r => Sys2Proof.Machine.execRequest pos seq r s
  | .cancel pos seq => Sys2Proof.Machine.execCancel pos seq s
  | .override pos seq tag decision => Sys2Proof.Machine.execOverride pos seq tag decision s
  | .count pos seq drawer lists => Sys2Proof.Machine.execCount pos seq drawer lists s
  | .acceptDiff pos seq drawer lists => Sys2Proof.Machine.execAcceptDiff pos seq drawer lists s
  | .reopen pos seq drawer => Sys2Proof.Machine.execReopen pos seq drawer s
  | .form pos seq form => Sys2Proof.Machine.execForm pos seq form s
  | .close pos seq => Sys2Proof.Machine.execClose pos seq s
  | .bookIn pos seq account layout page place => Sys2Proof.Machine.execBookIn pos seq account layout page place s
  | .bookOut pos seq => Sys2Proof.Machine.execBookOut pos seq s
  | .statusReady pos seq => Sys2Proof.Machine.execStatusReady pos seq s
  | .lineDone pos seq => Sys2Proof.Machine.execLineDone pos seq s
  | .turned pos seq => Sys2Proof.Machine.execTurned pos seq s
  | .jam pos seq => Sys2Proof.Machine.execJam pos seq s
  | .jamCleared pos seq => Sys2Proof.Machine.execJamCleared pos seq s
  | .opened pos seq => Sys2Proof.Machine.execOpened pos seq s
  | .closed pos seq => Sys2Proof.Machine.execClosed pos seq s
  | .fault pos seq => Sys2Proof.Machine.execFault pos seq s
  | .approvalWaitExpiry index => Sys2Proof.Machine.execApprovalWaitExpiry index s
  | .overrideWaitExpiry index => Sys2Proof.Machine.execOverrideWaitExpiry index s
  | .openAlarmExpiry drawer => Sys2Proof.Machine.execOpenAlarmExpiry drawer s
  | .pacingTimerExpiry pos => Sys2Proof.Machine.execPacingTimerExpiry pos s
  | .lineCompletionWaitExpiry pos => Sys2Proof.Machine.execLineCompletionWaitExpiry pos s
  | .bookWaitExpiry pos => Sys2Proof.Machine.execBookWaitExpiry pos s
  | .ackWaitExpiry => Sys2Proof.Machine.execAckWaitExpiry s
  | .dayClockTick => Sys2Proof.Machine.execDayClockTick s
  | .surveyProbeBadReply frame => Sys2Proof.Machine.execSurveyProbeBadReply frame s
  | .lineSilent => Sys2Proof.Machine.execLineSilent s

end Sys2Proof.Machine
end

