-- ==== Sys2Proof/Machine/Tick.lean ====
section
/-! DEFINITION. The tick of 10 ms (1.5): every running timer counts down, and a timer that runs out puts the command of
its expiry at the tail of the queue of commands waiting (DESIGN CHOICE, notes/assumptions/4.md: the table has no row for
a tick, so a tick is what a step does on an empty queue). -/

namespace Sys2Proof.Machine

/-- A timer after a tick. -/
def tickDown (t : Option Nat) : Option Nat := t.map (· - 1)

/-- A timer that runs out at this tick. -/
def runsOut (t : Option Nat) : Bool := t == some 1

/-- The command of an expiry, when its timer runs out. -/
def expiry (t : Option Nat) (c : Instr) : List Instr := if runsOut t then [c] else []

def Job.tick (j : Job) : Job := { j with pacing := tickDown j.pacing, bookWait := tickDown j.bookWait }

def Printer.tick (x : Printer) : Printer := { x with job := x.job.map Job.tick, lineWait := tickDown x.lineWait }

namespace State

/-- The commands of an entry's timer (R75, R80). -/
def entryExpiry (s : State) (i : Nat) : List Instr :=
  match s.entry i with
  | none => []
  | some e =>
    match e.state with
    | .waitingCentre => expiry e.timer (.approvalWaitExpiry i)
    | .waitingOverride => expiry e.timer (.overrideWaitExpiry i)
    | .reversing => []

/-- The commands of a printer's timers (R160, R167, R169). -/
def printerExpiry (s : State) (p : Nat) : List Instr :=
  expiry ((s.printer p).job.bind (·.pacing)) (.pacingTimerExpiry p)
    ++ expiry (s.printer p).lineWait (.lineCompletionWaitExpiry p)
    ++ expiry ((s.printer p).job.bind (·.bookWait)) (.bookWaitExpiry p)

/-- The commands of the timers that run out at this tick, and of the hundredth tick of a running day clock's second
(R174). -/
def expiries (s : State) : List Instr :=
  expiry s.line.replyWait .unitReplyWaitExpiry ++ expiry s.line.rollTimer .rollCallTimerExpiry
    ++ (List.range 32).flatMap s.entryExpiry
    ++ allDrawers.flatMap (fun d => expiry (s.drawer d).openAlarm (.openAlarmExpiry d))
    ++ allPositions.flatMap s.printerExpiry
    ++ expiry s.day.ackTimer .ackWaitExpiry
    ++ (if s.day.running && s.day.phase == 99 then [.dayClockTick] else [])

/-- The line's timers, and the time since a survey probe was sent, saturating at 255 (R45). -/
def tickLine (s : State) : State :=
  let t := s.withLine { s.line with replyWait := tickDown s.line.replyWait, rollTimer := tickDown s.line.rollTimer }
  match s.line.engine with
  | .waitProbe _ _ _ => t.withSurvey { t.survey with elapsed := min 255 (t.survey.elapsed + 1) }
  | _ => t

def tickEntry (s : State) (i : Nat) : State :=
  match s.entry i with
  | none => s
  | some e => s.setEntry i (some { e with timer := tickDown e.timer })

def tickDrawer (s : State) (d : Nat) : State :=
  s.setDrawer d { s.drawer d with openAlarm := tickDown (s.drawer d).openAlarm }

def tickPrinter (s : State) (p : Nat) : State := s.setPrinter p (s.printer p).tick

/-- The ack wait and the ticks of the day clock's second (R174, R196). -/
def tickDay (s : State) : State :=
  s.withDay { s.day with
    ackTimer := tickDown s.day.ackTimer
    phase := if s.day.running then (s.day.phase + 1) % 100 else s.day.phase }

/-- One tick. -/
def tick (s : State) : State :=
  let t := (List.range 32).foldl tickEntry s.tickLine
  let t := allPositions.foldl tickPrinter (allDrawers.foldl tickDrawer t)
  t.tickDay.withPending (t.pending ++ s.expiries)

end State
end Sys2Proof.Machine
end

