-- ==== Sys2Proof/WellFormed.lean ====
section
/-! DEFINITION. Well-formed commands: every operand lies in the range that the byte or bytes that carry it can hold
(11_formats_and_check_codes.md), and every index names a place that exists. The machine is total: it gives an ill-formed
command a meaning too, but no frame, timer or unit can present one. -/

namespace Sys2Proof

open Machine

/-- A value of one byte. -/
def fits8 (n : Nat) : Bool := decide (n < 256)

/-- A value of two bytes. -/
def fits16 (n : Nat) : Bool := decide (n < 65536)

/-- A position, 1 to 24 (R23). -/
def isPosition (p : Nat) : Bool := inRange 1 24 p

/-- A unit of a position, 0 to 2 (R24). -/
def isUnit (u : Nat) : Bool := decide (u ≤ 2)

/-- The parameters of a management request: a payload holds at most 1,024 bytes, the request code being the first
(R1). -/
def fitsParams (bs : List Byte) : Bool := decide (bs.length ≤ 1023)

/-- A breakdown of at most twelve pairs, each a denomination position and a count (R204). -/
def fitsBreakdown : Option (List (Nat × Nat)) → Bool
  | none => true
  | some pairs => decide (pairs.length ≤ 12) && pairs.all (fun p => fits8 p.1 && fits16 p.2)

/-- An account reference that is present holds 1 to 20 characters (R201). -/
def fitsAccount : Option Text → Bool
  | none => true
  | some t => inRange 1 20 t.length

/-- The content of a REQUEST message. -/
def Request.wellFormed (r : Request) : Bool :=
  fits8 r.code && fits8 r.cur && decide (r.amount < 256 ^ 6) && fitsAccount r.account && fitsBreakdown r.bReq
    && fitsBreakdown r.bHome

/-- Four count lists of at most twelve counts (R114, R204). -/
def fitsLists (lists : List (List Nat)) : Bool :=
  lists.length == 4 && lists.all (fun l => decide (l.length ≤ 12) && l.all fits16)

/-- The codes of the eighteen management requests are 01h to 12h (11, Management request and reply). -/
def knownRequest (c : Byte) : Bool := inRange 1 18 c.toNat

/-- The operands that the fields of each command can carry. -/
def Instr.wellFormed : Instr → Bool
  | .powerOn straps _ => fits8 straps
  | .badFrame frame => (parseOffice frame).isNone
  | .wrongNodeFrame kind node tag payload =>
    inRange 1 4 kind && fits8 node && fits16 tag && decide (payload.length ≤ 1024)
  | .olrdyAsserted => true
  | .olrdyDeasserted => true
  | .frameSent => true
  | .reversalNoticeQueued index => decide (index < 32)
  | .grantedRequestQueued index => decide (index < 32)
  | .owedNoticeQueued pos => isPosition pos
  | .sendWindow => true
  | .answer tag payload => fits16 tag && decide (payload.length ≤ 1024)
  | .batchAck block => fits16 block
  | .batchNack block => fits16 block
  | .identify tag params => fits16 tag && fitsParams params
  | .readStatus tag params => fits16 tag && fitsParams params
  | .readCounters tag params => fits16 tag && fitsParams params
  | .tableWrite tag params => fits16 tag && fitsParams params
  | .tableRead tag params => fits16 tag && fitsParams params
  | .lock tag params => fits16 tag && fitsParams params
  | .openDay tag params => fits16 tag && fitsParams params
  | .cutoff tag params => fits16 tag && fitsParams params
  | .reopenDay tag params => fits16 tag && fitsParams params
  | .resumeBatch tag params => fits16 tag && fitsParams params
  | .readDrawer tag params => fits16 tag && fitsParams params
  | .readSession tag params => fits16 tag && fitsParams params
  | .readPending tag params => fits16 tag && fitsParams params
  | .readJournal tag params => fits16 tag && fitsParams params
  | .startSurvey tag params => fits16 tag && fitsParams params
  | .readSurveyPosition tag params => fits16 tag && fitsParams params
  | .readSurveySummary tag params => fits16 tag && fitsParams params
  | .restart tag params straps => fits16 tag && fitsParams params && fits8 straps
  | .unknown code tag params => !knownRequest code && fits16 tag && fitsParams params
  | .rollCallTimerExpiry => true
  | .grant => true
  | .rollAnswer pos presence attention => isPosition pos && fits8 presence && fits8 attention
  | .unitReplyWaitExpiry => true
  | .accept pos unit seq => isPosition pos && isUnit unit && fits8 seq
  | .reject pos unit seq => isPosition pos && isUnit unit && fits8 seq
  | .busy pos unit seq => isPosition pos && isUnit unit && fits8 seq
  | .echo pos unit pattern => isPosition pos && isUnit unit && pattern.length == 8
  | .lineFrameDiscarded frame => (parseStation frame).isSome
  | .inboundFrameRejected frame => (parseStation frame).isSome
  | .repeatMessage pos unit kind seq payload =>
    isPosition pos && isUnit unit && fits8 kind && fits8 seq && decide (payload.length ≤ 250)
  | .lineBadMessage pos unit kind seq payload =>
    isPosition pos && isUnit unit && fits8 kind && fits8 seq && decide (payload.length ≤ 250)
  | .outboundQueueRoom pos unit => isPosition pos && isUnit unit
  | .signOn pos seq teller => isPosition pos && fits8 seq && fits16 teller
  | .signOff pos seq => isPosition pos && fits8 seq
  | .suspend pos seq => isPosition pos && fits8 seq
  | .resume pos seq teller => isPosition pos && fits8 seq && fits16 teller
  | .request pos seq r => isPosition pos && fits8 seq && r.wellFormed
  | .cancel pos seq => isPosition pos && fits8 seq
  | .override pos seq tag decision => isPosition pos && fits8 seq && fits16 tag && fits8 decision
  | .count pos seq drawer lists => isPosition pos && fits8 seq && fits8 drawer && fitsLists lists
  | .acceptDiff pos seq drawer lists => isPosition pos && fits8 seq && fits8 drawer && fitsLists lists
  | .reopen pos seq drawer => isPosition pos && fits8 seq && fits8 drawer
  | .form pos seq n => isPosition pos && fits8 seq && fits8 n
  | .close pos seq => isPosition pos && fits8 seq
  | .bookIn pos seq account layout page line =>
    isPosition pos && fits8 seq && decide (account.length ≤ 20) && fits8 layout && fits8 page && fits8 line
  | .bookOut pos seq => isPosition pos && fits8 seq
  | .statusReady pos seq => isPosition pos && fits8 seq
  | .lineDone pos seq => isPosition pos && fits8 seq
  | .turned pos seq => isPosition pos && fits8 seq
  | .jam pos seq => isPosition pos && fits8 seq
  | .jamCleared pos seq => isPosition pos && fits8 seq
  | .opened pos seq => isPosition pos && fits8 seq
  | .closed pos seq => isPosition pos && fits8 seq
  | .fault pos seq => isPosition pos && fits8 seq
  | .approvalWaitExpiry index => decide (index < 32)
  | .overrideWaitExpiry index => decide (index < 32)
  | .openAlarmExpiry drawer => decide (drawer < 25)
  | .pacingTimerExpiry pos => isPosition pos
  | .lineCompletionWaitExpiry pos => isPosition pos
  | .bookWaitExpiry pos => isPosition pos
  | .ackWaitExpiry => true
  | .dayClockTick => true
  | .surveyProbeBadReply frame => (parseStation frame).isSome
  | .lineSilent => true

end Sys2Proof
end

