-- ==== Sys2Proof/Machine/Frames.lean ====
section
/-! DEFINITION. The bytes of the frame that a command is the arrival of, written from the layouts of
11_formats_and_check_codes.md: the other direction of Machine/Operands.lean. -/

namespace Sys2Proof.Machine

/-- A breakdown as its bytes: FFh when absent, else its pair count and its pairs (11, Station messages). -/
def breakdownBytes : Option (List (Nat × Nat)) → List Byte
  | none => [255]
  | some pairs => toByte pairs.length :: pairs.flatMap (fun p => toByte p.1 :: be 2 p.2)

/-- The REQUEST message payload. -/
def requestBytes (r : Request) : List Byte :=
  [toByte r.code, toByte r.cur] ++ be 6 r.amount ++ accountField r.account ++ breakdownBytes r.bReq
    ++ breakdownBytes r.bHome

/-- Count lists, each a count byte and its counts (11, Station messages). -/
def listsBytes (lists : List (List Nat)) : List Byte :=
  lists.flatMap (fun l => toByte l.length :: l.flatMap (be 2))

/-- A message frame from a unit (R24, R203). -/
def messageFrame (pos unit kind seq : Nat) (payload : List Byte) : List Byte :=
  sealed ([toByte pos, 0x10, toByte unit, toByte kind, toByte seq, toByte payload.length] ++ payload)

/-- A message frame from a printer carrying a STATUS value. -/
def statusFrame (pos seq : Nat) (value : Byte) : List Byte := messageFrame pos 1 0x03 seq [value]

/-- The bytes on the station line of the frame that a command is the arrival of; none for every other command. -/
def stationFrame : Instr → Option (List Byte)
  | .rollAnswer pos presence attention => some (sealed [toByte pos, 0x02, toByte presence, toByte attention])
  | .accept pos unit seq => some (sealed [toByte pos, 0x20, toByte unit, toByte seq])
  | .reject pos unit seq => some (sealed [toByte pos, 0x21, toByte unit, toByte seq])
  | .busy pos unit seq => some (sealed [toByte pos, 0x22, toByte unit, toByte seq])
  | .echo pos unit pattern => some (sealed ([toByte pos, 0x06, toByte unit] ++ pattern))
  | .repeatMessage pos unit kind seq payload => some (messageFrame pos unit kind seq payload)
  | .lineBadMessage pos unit kind seq payload => some (messageFrame pos unit kind seq payload)
  | .signOn pos seq teller => some (messageFrame pos 0 0x01 seq (be 2 teller))
  | .signOff pos seq => some (messageFrame pos 0 0x02 seq [])
  | .suspend pos seq => some (messageFrame pos 0 0x03 seq [])
  | .resume pos seq teller => some (messageFrame pos 0 0x04 seq (be 2 teller))
  | .request pos seq r => some (messageFrame pos 0 0x05 seq (requestBytes r))
  | .cancel pos seq => some (messageFrame pos 0 0x06 seq [])
  | .override pos seq tag decision => some (messageFrame pos 0 0x07 seq (be 2 tag ++ [toByte decision]))
  | .count pos seq drawer lists => some (messageFrame pos 0 0x08 seq (toByte drawer :: listsBytes lists))
  | .reopen pos seq drawer => some (messageFrame pos 0 0x09 seq [toByte drawer])
  | .acceptDiff pos seq drawer lists => some (messageFrame pos 0 0x0A seq (toByte drawer :: listsBytes lists))
  | .form pos seq form => some (messageFrame pos 0 0x0B seq [toByte form])
  | .close pos seq => some (messageFrame pos 0 0x0C seq [])
  | .bookIn pos seq account layout page place =>
    some (messageFrame pos 1 0x01 seq (textField 20 account ++ [toByte layout, toByte page, toByte place]))
  | .bookOut pos seq => some (messageFrame pos 1 0x02 seq [])
  | .statusReady pos seq => some (statusFrame pos seq 1)
  | .lineDone pos seq => some (statusFrame pos seq 2)
  | .jam pos seq => some (statusFrame pos seq 3)
  | .jamCleared pos seq => some (statusFrame pos seq 4)
  | .turned pos seq => some (statusFrame pos seq 5)
  | .opened pos seq => some (messageFrame pos 2 0x01 seq [])
  | .closed pos seq => some (messageFrame pos 2 0x02 seq [])
  | .fault pos seq => some (messageFrame pos 2 0x03 seq [])
  | _ => none

/-- The kind, the tag and the payload of the office-link frame that a command is the arrival of (11, Downward frames;
Management request and reply); none for every other command. -/
def officeParts : Instr → Option (Nat × Nat × List Byte)
  | .answer tag payload => some (1, tag, payload)
  | .batchAck block => some (3, block, [])
  | .batchNack block => some (4, block, [])
  | .identify tag params => some (2, tag, 0x01 :: params)
  | .readStatus tag params => some (2, tag, 0x02 :: params)
  | .tableWrite tag params => some (2, tag, 0x03 :: params)
  | .tableRead tag params => some (2, tag, 0x04 :: params)
  | .lock tag params => some (2, tag, 0x05 :: params)
  | .openDay tag params => some (2, tag, 0x06 :: params)
  | .cutoff tag params => some (2, tag, 0x07 :: params)
  | .reopenDay tag params => some (2, tag, 0x08 :: params)
  | .resumeBatch tag params => some (2, tag, 0x09 :: params)
  | .readDrawer tag params => some (2, tag, 0x0A :: params)
  | .readSession tag params => some (2, tag, 0x0B :: params)
  | .readPending tag params => some (2, tag, 0x0C :: params)
  | .readJournal tag params => some (2, tag, 0x0D :: params)
  | .readCounters tag params => some (2, tag, 0x0E :: params)
  | .startSurvey tag params => some (2, tag, 0x0F :: params)
  | .readSurveyPosition tag params => some (2, tag, 0x10 :: params)
  | .readSurveySummary tag params => some (2, tag, 0x11 :: params)
  | .restart tag params _ => some (2, tag, 0x12 :: params)
  | .unknown code tag params => some (2, tag, code :: params)
  | _ => none

end Sys2Proof.Machine
end

