-- ==== Sys2Proof/Safety.lean ====
section
/-! DEFINITION. What counts as a sound state and a safe run of the 2410, in the terms the statements use: the capacities
the manual gives, the numbering of the journal (R172), the send window (R193), the pending request table (R67, R69), the
relations that hold between the states before and after any event, and the arrival of a message (R38). -/

namespace Sys2Proof.Machine

/-- The outcome of a step is a next state: the part goes on. -/
def goesOn (o : Host.Outcome State Fault Refusal) : Prop := ∃ t, o = .next t

/-- Every counter is 16 bits wide (R9). -/
def Counters.Bounded (c : Counters) : Prop :=
  c.linkBadFrame ≤ 65535 ∧ c.linkWrongNode ≤ 65535 ∧ c.lateAnswer ≤ 65535 ∧ c.noticeLost ≤ 65535 ∧
  c.lineBadFrame ≤ 65535 ∧ c.lineRetry ≤ 65535 ∧ c.unitLost ≤ 65535 ∧ c.lineBadMessage ≤ 65535 ∧
  c.refused ≤ 65535 ∧ c.batchResend ≤ 65535 ∧ c.batchAckIgnored ≤ 65535

/-- The send window (R184, R193): a is at most s, s at most h, h at most N and at most a plus 4; before a settlement
nothing is queued or acknowledged. -/
structure Day.WindowSound (d : Day) : Prop where
  ackedSent : d.acked ≤ d.sent
  sentHighest : d.sent ≤ d.highest
  highestTotal : d.highest ≤ d.blocks.length
  window : d.highest ≤ d.acked + 4
  unsettled : d.state = .noDay ∨ d.state = .opened ∨ d.state = .cutoff → d.highest = 0

/-- A pending request table (R67, R69): tags lie in 1 to 65,535, no two entries hold one tag, and no position has two
waiting entries. -/
structure TableSound (v : Vector (Option Entry) 32) : Prop where
  tagRange : ∀ i e, rd v i none = some e → 1 ≤ e.tag ∧ e.tag ≤ 65535
  tagsDistinct : ∀ i j e f, rd v i none = some e → rd v j none = some f → e.tag = f.tag → i = j
  oneWaiting : ∀ i j e f, rd v i none = some e → rd v j none = some f → e.waits = true → f.waits = true →
    e.req.pos = f.req.pos → i = j

namespace State

/-- The upstream queue holds up to 64 frames (R5). -/
def QueueBounded (s : State) : Prop := s.port.queue.length ≤ 64

/-- Each unit's outbound queue holds up to 4 messages (R34). -/
def UnitsBounded (s : State) : Prop := ∀ p u, (s.unit p u).queue.length ≤ 4

/-- The day clock stops at 16,777,215 (R174). -/
def ClockBounded (s : State) : Prop := s.day.clock ≤ 16777215

/-- A position's missed count runs from 0 to 3 (R27, R31). -/
def MissedBounded (s : State) : Prop := ∀ p, (s.posRec p).missed ≤ 3

/-- Every capacity and range the manual gives to a queue, a counter, a level or a clock: upstream queue, outbound queues,
counters, lock level, grant count, missed counts, tag counter, day clock (R5, R9, R18, R27, R34, R42, R69, R174). -/
structure Bounded (s : State) : Prop where
  queue : s.QueueBounded
  units : s.UnitsBounded
  counters : s.counters.Bounded
  lock : s.lock ≤ 2
  grantCount : s.line.grantCount < 8
  missed : s.MissedBounded
  tagCounter : s.tagCounter ≤ 65535
  clock : s.ClockBounded

/-- The records in use carry sequence numbers 1 to n, held in that order (R172). -/
def JournalNumbered (s : State) : Prop := ∀ i r, s.journal.records[i]? = some r → r.seq = i + 1

/-- The send window of the day record is sound. -/
def WindowSound (s : State) : Prop := s.day.WindowSound

/-- The pending request table is sound. -/
def EntriesSound (s : State) : Prop := TableSound s.entries

/-- The override order list names, each once, exactly the entries that are WAITING_OVERRIDE with grant taken clear; it
therefore never exceeds the 32 entries of the table (R79). -/
structure OverridesSound (s : State) : Prop where
  once : s.overrides.Nodup
  listed : ∀ i, i ∈ s.overrides ↔ ∃ e, s.entry i = some e ∧ e.state = .waitingOverride ∧ e.granted = false
  capacity : s.overrides.length ≤ 32

end State

/-! ### Claims and places of the journal (R172, R175) -/

/-- The claim that an entry holds in its state: 2 while it waits for an override, 1 once granted or at the centre, 0 for an
INQUIRY and once its EXPIRED record is written (R68, R82, R75). -/
def Entry.claimDue (e : Entry) : Nat :=
  match e.state with
  | .waitingOverride => if e.granted then 1 else 2
  | .waitingCentre => if e.req.snap.cls = .inquiry then 0 else 1
  | .reversing => 0

namespace State

/-- A figure of every entry in use, summed over the table. -/
def overEntries (s : State) (f : Entry → Nat) : Nat :=
  ((List.range 32).map (fun i => match s.entry i with | some e => f e | none => 0)).sum

/-- The records that the close of the day may still need beyond the claims: a SIGN_OFF for each open session, a PROOF for each
drawer that is not BALANCED, the CUTOFF record until it is written, and SETTLEMENT (the accounting of 09, The closing
reserve). -/
def closingNeed (s : State) : Nat :=
  (allPositions.filter (fun p => (s.session p).state != .signedOff)).length +
    (allDrawers.filter (fun d => (s.drawer d).state != .balanced)).length + (if s.day.state = .cutoff then 0 else 1) + 1

/-- The journal keeps its places (R172, R175, R176, R177, R179): each entry holds the claim of its state, the sum of claims is
what the entries hold, the journal is closed exactly in SENDING, HELD and SENT, and the used records, the claims and, until
the journal closes, what the close of the day needs fit the 16,384 places. -/
structure JournalSound (s : State) : Prop where
  held : ∀ i e, s.entry i = some e →
    e.claim = e.claimDue ∧ (e.state = .waitingOverride → e.req.snap.cls ≠ .inquiry)
  claims : s.journal.claims = s.overEntries (·.claim)
  closed : s.journal.closed = true ↔ s.day.state = .sending ∨ s.day.state = .held ∨ s.day.state = .sent
  places : s.journal.records.length + s.journal.claims + (if s.journal.closed then 0 else s.closingNeed) ≤ 16384

end State

/-- The captured fields of a request, its reservation items apart: those are released when the entry ends (R68). -/
def Captured.fixed (c : Captured) : Captured := { c with items := [] }

/-- Every entry of t was there in s with the same tag and the same captured fields, and one that waits in t waited in s
(R67, R68). -/
def EntriesKept (s t : State) : Prop :=
  ∀ i f, t.entry i = some f → ∃ e, s.entry i = some e ∧ f.tag = e.tag ∧ f.req.fixed = e.req.fixed ∧
    (f.waits = true → e.waits = true)

/-- The journal of t is that of s with records appended (R172, R181). -/
def JournalGrows (s t : State) : Prop := s.journal.records <+: t.journal.records

/-- The screens of t are those of s but for rows that have joined the dirty-row sets (R141). -/
def OnlyMarks (s t : State) : Prop :=
  ∀ p, t.screen p = { s.screen p with dirty := (t.screen p).dirty } ∧
    ∀ r, 1 ≤ r → r ≤ 24 → r ∈ (s.screen p).dirty → r ∈ (t.screen p).dirty

/-- Position p's screen has changed by its marks alone: the rows that were dirty are, and so are those that hold, in their
chosen set, a source that was touched (R141). -/
def Marked (s t : State) (p : Nat) (touched : Source → Bool) : Prop :=
  t.screen p = { s.screen p with dirty := (t.screen p).dirty } ∧
    ∀ r, r ∈ (t.screen p).dirty ↔
      1 ≤ r ∧ r ≤ 24 ∧ (r ∈ (s.screen p).dirty ∨ (s.screen p).holds t.tables touched r = true)

/-- Position p shows an outcome: it is the last outcome and the state message (R137). -/
def Shows (t : State) (p : Nat) (o : Shown) : Prop :=
  (t.screen p).last = some o ∧ (t.screen p).view.stateMsg = some (.shown o)

/-- Position p shows what it showed: form, view and last outcome (R130). -/
def ShowsAsBefore (s t : State) (p : Nat) : Prop :=
  (t.screen p).form = (s.screen p).form ∧ (t.screen p).view = (s.screen p).view ∧ (t.screen p).last = (s.screen p).last

/-! ### Reservations (R93, R98) -/

/-- The count that a list's items of one direction name for a denomination of a currency in a drawer (R98). -/
def itemSum (items : List Item) (out : Bool) (d c k : Nat) : Nat :=
  ((items.filter (fun i => i.out == out && i.drawer == d && i.cur == c && i.den == k)).map (·.count)).sum

/-- Every drawer's reserved-out and pending-in counts are what the items of the entries in use reserve (R93, R98), an item names
a drawer, a currency and a denomination that exist, an INQUIRY and a REVERSING entry hold none (R68, R75), the book covers what
is reserved out of it (R99), and a drawer that is not ACTIVE holds no reservation (R115, R119). -/
structure State.ReservationsSound (s : State) : Prop where
  faces : ∀ c e, s.tables.currency c = some e → e.faces.length ≤ 12
  items : ∀ i e x, s.entry i = some e → x ∈ e.req.items → x.drawer ≤ 24 ∧ x.cur < 4 ∧ 1 ≤ x.den ∧ x.den ≤ 12
  unreserved : ∀ i e, s.entry i = some e → e.state = .reversing ∨ e.req.snap.cls = .inquiry → e.req.items = []
  counts : ∀ d c k, d ≤ 24 → c < 4 → 1 ≤ k → k ≤ 12 →
    countAt (s.drawer d).reserved c k = s.overEntries (fun e => itemSum e.req.items true d c k) ∧
    countAt (s.drawer d).incoming c k = s.overEntries (fun e => itemSum e.req.items false d c k)
  covered : ∀ d c k, d ≤ 24 → c < 4 → 1 ≤ k → k ≤ 12 →
    countAt (s.drawer d).reserved c k ≤ countAt (s.drawer d).book c k
  resting : ∀ d, d ≤ 24 → (s.drawer d).state ≠ .active → ∀ c k, c < 4 → 1 ≤ k → k ≤ 12 →
    countAt (s.drawer d).reserved c k = 0 ∧ countAt (s.drawer d).incoming c k = 0

/-- The reservations of a list are released and nothing else of any drawer changes (R102). -/
def ReservationsReleased (items : List Item) (s t : State) : Prop :=
  ∀ d, t.drawer d = { s.drawer d with reserved := (t.drawer d).reserved, incoming := (t.drawer d).incoming } ∧
    ∀ c k, countAt (t.drawer d).reserved c k = countAt (s.drawer d).reserved c k - itemSum items true d c k ∧
      countAt (t.drawer d).incoming c k = countAt (s.drawer d).incoming c k - itemSum items false d c k

/-- The items of a list have moved into the books and left the reserved-out and pending-in counts, and every drawer that the
list names is posted today (R103). -/
def ItemsPosted (items : List Item) (s t : State) : Prop :=
  ∀ d, d ≤ 24 →
    (∀ c k, c < 4 → 1 ≤ k → k ≤ 12 →
      countAt (t.drawer d).book c k + itemSum items true d c k = countAt (s.drawer d).book c k + itemSum items false d c k ∧
      countAt (t.drawer d).reserved c k = countAt (s.drawer d).reserved c k - itemSum items true d c k ∧
      countAt (t.drawer d).incoming c k = countAt (s.drawer d).incoming c k - itemSum items false d c k) ∧
    ((t.drawer d).postedToday = ((s.drawer d).postedToday || items.any (fun i => i.drawer == d))) ∧
    (t.drawer d).opening = (s.drawer d).opening ∧ (t.drawer d).state = (s.drawer d).state ∧
    (t.drawer d).physical = (s.drawer d).physical ∧ (t.drawer d).openings = (s.drawer d).openings

/-- The reservations of a list are made and nothing else of any drawer changes (R98). -/
def ReservationsMade (items : List Item) (s t : State) : Prop :=
  ∀ d, t.drawer d = { s.drawer d with reserved := (t.drawer d).reserved, incoming := (t.drawer d).incoming } ∧
    (d ≤ 24 → ∀ c k, c < 4 → 1 ≤ k → k ≤ 12 →
      countAt (t.drawer d).reserved c k = countAt (s.drawer d).reserved c k + itemSum items true d c k ∧
      countAt (t.drawer d).incoming c k = countAt (s.drawer d).incoming c k + itemSum items false d c k)

/-- The books cover what a list takes out of them, as every reservation does (R98, R99). -/
def BooksCover (items : List Item) (s : State) : Prop :=
  ∀ d c k, d ≤ 24 → c < 4 → 1 ≤ k → k ≤ 12 → itemSum items true d c k ≤ countAt (s.drawer d).book c k

/-- Every drawer's book counts are the same in both states. -/
def BooksKept (s t : State) : Prop := ∀ d, (t.drawer d).book = (s.drawer d).book

namespace State

/-- The engine is in SELECTED_SEND for unit u of position p, bytes are being taken as frames, and seq is not the
sequence last accepted from the unit: a message of sequence seq from it is taken and delivered (R38, R203). -/
def Awaits (s : State) (p u seq : Nat) : Prop :=
  (∃ x, s.line.engine = .selectedSend x ∧ x.pos = p ∧ x.unit = u) ∧ s.line.discarding = false ∧
    (s.unit p u).lastIn ≠ some seq

/-- The state once a message of sequence seq from unit u of position p has been answered ACCEPT and its transfer has ended:
the unit's attention is clear, its last accepted sequence is seq, and the engine is IDLE (R38). -/
def accepted (s : State) (p u seq : Nat) : State :=
  let t := s.withLine { s.line with
    engine := .idle, replyWait := none, sent := s.line.sent ++ [.reply .accept p u seq, .unselect] }
  t.setUnit p u { t.unit p u with attention := false, lastIn := some seq }

/-- The reply that a management request is answered with, placed at the tail of the upstream queue: the
previous-frame-failed flag is cleared and transmission begins while OLRDY is asserted (R4, R5, R7). -/
def withReply (s : State) (r : Reply) : State :=
  s.withPort { s.port with
    queue := s.port.queue ++ [.reply r], prevFailed := false, transmitting := s.port.transmitting || s.port.olrdy }

/-- The reply to a request that is carried out: DONE and its data, no refusal detail, and the status summary of the
state (R7, R8). -/
def doneReply (s : State) (code : Byte) (tag : Nat) (data : List Byte) : Reply :=
  { code := code, tag := tag, outcome := .done, check := 0, section_ := 0, index := 0, summary := s.summary, data := data }

/-- The reply to a request that is refused: the refusal code, no detail and no data (R7, R8). -/
def refusedReply (s : State) (code : Byte) (tag : Nat) (o : MgmtOutcome) : Reply :=
  { code := code, tag := tag, outcome := o, check := 0, section_ := 0, index := 0, summary := s.summary, data := [] }

/-- The state with a frame at the tail of the upstream queue, its transmission begun while OLRDY is asserted (R5). -/
def withFrame (s : State) (f : UpFrame) : State :=
  s.withPort { s.port with
    queue := s.port.queue ++ [f], transmitting := s.port.transmitting || s.port.olrdy }

/-- The journal with a record at its tail: seq one above the used count, the day clock as it stands (R172, R173). -/
def withRecord (s : State) (b : Body) : Journal :=
  { s.journal with records := s.journal.records ++ [{ seq := s.journal.records.length + 1, clock := s.day.clock, body := b }] }

/-- The notice that the append of a record brings: the nearly-full alarm at the append that takes the used count to 15,360,
none at any other (R180). -/
def nearlyFullNotice (s : State) : List UpFrame :=
  if s.journal.records.length + 1 = 15360 then [.alarm .journalNearlyFull 0] else []

/-- The port once a record has been appended: the nearly-full alarm is queued when it is due and a slot is free (R6, R180). -/
def portAfterRecord (s : State) : Port :=
  if s.journal.records.length + 1 = 15360 ∧ s.port.queue.length < 64 then (s.withFrame (.alarm .journalNearlyFull 0)).port
  else s.port

/-- The counters once a record has been appended: a nearly-full alarm that finds the upstream queue full is dropped and
counted (R6, R180). -/
def countersAfterRecord (s : State) : Counters :=
  if s.journal.records.length + 1 = 15360 ∧ ¬ s.port.queue.length < 64 then
    { s.counters with
      noticeLost := if s.counters.noticeLost < 65535 then s.counters.noticeLost + 1 else s.counters.noticeLost }
  else s.counters

/-- Some entry of position p is WAITING_OVERRIDE or WAITING_CENTRE (R67). -/
def HasWaiting (s : State) (p : Nat) : Prop := ∃ i e, s.entry i = some e ∧ e.state ≠ .reversing ∧ e.req.pos = p

/-- The outcome of the first of the checks 1 to 17 that a request fails at position p, in the order of R59 to R62, and the C
that the view shows in the cases of R105; none when it passes them all. -/
def firstRefusal (s : State) (p : Nat) (r : Request) : Option Refused :=
  let fails (o : Shown) : Option Refused := some { outcome := o, cash := none }
  if s.lock = 0 then fails .notLive
  else if (s.session p).state = .signedOff then fails .notSignedOn
  else if (s.session p).state = .suspended then fails .suspended
  else if (s.waitingAt p).isSome = true then fails .busy
  else match s.tables.findCode r.code with
  | none => fails .codeUnknown
  | some e =>
    let exch := s.exchangeOf e.cls r
    let cash := (exch.map (·.cash)).getD 0
    let equiv := s.equivOf e.cls r
    let out := outSide e.cls (s.tables.ownDrawer p) r cash
    let override := s.needsOverride p e equiv
    let central := e.auth = .central ∨ e.cls = .inquiry
    if (((s.session p).role.map Role.rank).getD 0) < e.minRole.rank then fails .role
    else if (e.cls.customer = true ∧ s.day.state ≠ .opened) ∨ (s.day.state ≠ .opened ∧ s.day.state ≠ .cutoff) then
      fails .dayClosed
    else if 3 < r.cur ∨ r.cur ∉ e.allowed ∨ s.tables.currency r.cur = none then fails .currency
    else if s.rateNeeded e.cls r.cur = some 0 then fails .rateMissing
    else if e.cls ≠ .inquiry ∧ (r.amount = 0 ∨ 999999999999 < r.amount ∨ 999999999999 < equiv.getD 0 ∨
        (exch ≠ none ∧ (cash = 0 ∨ 999999999999 < cash))) then fails .amount
    else match s.breakdownCheck e r cash with
    | some f => some f
    | none =>
      if ∃ d ∈ e.cls.target (s.tables.ownDrawer p), (s.drawer d).state ≠ .active then fails .drawerState
      else match s.outgoingSide out with
      | .error o => fails o
      | .ok leaving =>
        if s.incomingSideFits (inSide e.cls (s.tables.ownDrawer p) r leaving) = false then fails .drawerFull
        else if s.generalSpace < (if e.cls = .inquiry then 0 else if override then 2 else 1) then fails .journalFull
        else if (central ∨ override = true) ∧ s.pendingCount = 32 then fails .tableFull
        else if central ∧ override = false ∧ 64 ≤ s.port.queue.length then fails .linkBusy
        else none

/-- The number of blocks that the send window queues: while SENDING the least of the blocks not yet sent in this pass, the
window of four past the acknowledged count, and the free slots of the upstream queue (R193). -/
def windowRoom (s : State) : Nat :=
  if s.day.state = .sending then
    min (min (s.day.blocks.length - s.day.sent) (4 - (s.day.sent - s.day.acked))) (64 - s.port.queue.length)
  else 0

/-- The state once the window has been tested: the blocks from s plus 1 on stand at the tail of the upstream queue, s and h
have risen, each block not above the old h has counted as a resend, and a stopped ack-wait timer has been loaded (R193). -/
def windowTested (s : State) : State :=
  let blocks := List.range' (s.day.sent + 1) s.windowRoom
  if s.windowRoom = 0 then s
  else
    { s with
      port := { s.port with
        queue := s.port.queue ++ blocks.map s.blockFrame, transmitting := s.port.transmitting || s.port.olrdy }
      counters := { s.counters with
        batchResend := max s.counters.batchResend
          (min 65535 (s.counters.batchResend + (blocks.filter (fun k => decide (k ≤ s.day.highest))).length)) }
      day := { s.day with
        sent := s.day.sent + s.windowRoom, highest := max s.day.highest (s.day.sent + s.windowRoom)
        ackTimer := some (s.day.ackTimer.getD s.tables.params.batchAck) } }

end State

/-! ### The station line (02) -/

/-- One more of a counter that stops at 65,535 (R9). -/
def oneMore (n : Nat) : Nat := if n < 65535 then n + 1 else n

/-- The place of a class in the priority order, 1 the highest (R41). -/
def LineClass.priority : LineClass → Nat
  | .urgent => 1 | .rollCall => 2 | .service => 3 | .print => 4 | .refresh => 5 | .survey => 6

/-- How far unit u of position p stands behind the last-served requester in the round-robin sequence (1, 0), (1, 1), (1, 2),
(2, 0) to (24, 2), which wraps; behind its start when there is none (R42). -/
def robinPlace (last : Option (Nat × Nat)) (p u : Nat) : Nat :=
  (3 * (p - 1) + u + 72 - (match last with | none => 0 | some (q, v) => 3 * (q - 1) + v + 1)) % 72

namespace Line

/-- The last-served requester of a unit class (R42). -/
def lastServed (l : Line) : LineClass → Option (Nat × Nat)
  | .urgent => l.lastUrgent
  | .service => l.lastService
  | .print => l.lastPrint
  | .refresh => l.lastRefresh
  | _ => none

/-- The line once a grant has been counted, and unit u of position p has become the last-served of its class (R42). -/
def granted (l : Line) (c : LineClass) (p u : Nat) : Line :=
  { l with
    grantCount := (l.grantCount + 1) % 8
    lastUrgent := if c = .urgent then some (p, u) else l.lastUrgent
    lastService := if c = .service then some (p, u) else l.lastService
    lastPrint := if c = .print then some (p, u) else l.lastPrint
    lastRefresh := if c = .refresh then some (p, u) else l.lastRefresh }

/-- The line once a frame that ends the work has been sent: the engine is IDLE and the unit reply wait stopped (R26). -/
def ended (l : Line) (frames : List LineFrame) : Line :=
  { l with engine := .idle, replyWait := none, sent := l.sent ++ frames }

/-- The line once frames have been sent and the engine awaits what state x awaits, the unit reply wait loaded (R26). -/
def awaiting (l : Line) (wait : Nat) (x : Engine) (frames : List LineFrame) : Line :=
  { l with engine := x, replyWait := some wait, sent := l.sent ++ frames }

end Line

namespace State

/-- Unit u of position p waits in a unit class (R41). -/
def Requests (s : State) (c : LineClass) (p u : Nat) : Prop :=
  (s.unit p u).presence = .present ∧
  match c with
  | .urgent =>
    (u = 2 ∧ ∃ q, (s.unit p u).queue.head? = some q ∧ q.msg = .release) ∨
    (u = 0 ∧ ((∃ q, (s.unit p u).queue.head? = some q ∧ q.cls = .urgent) ∨
      ((s.unit p u).queue = [] ∧ (s.screen p).urgentRows s.tables ≠ [])))
  | .service => (s.unit p u).attention = true
  | .print => u = 1 ∧ (s.unit p u).queue ≠ []
  | .refresh =>
    u = 0 ∧ ((∃ q, (s.unit p u).queue.head? = some q ∧ q.cls = .refresh) ∨
      ((s.unit p u).queue = [] ∧ ((s.screen p).otherRows s.tables ≠ [] ∨ (s.screen p).clearPending = true)))
  | _ => False

/-- A requester waits in a class (R41). -/
def Waits (s : State) : LineClass → Prop
  | .rollCall => s.line.rollWaiting = true
  | .survey => s.survey.state = .running
  | c => ∃ p u, 1 ≤ p ∧ p ≤ 24 ∧ u ≤ 2 ∧ s.Requests c p u

/-- The class that the arbiter grants: at a grant count of 7 the lowest that has a requester, at any other the highest
(R42). -/
def Grants (s : State) (c : LineClass) : Prop :=
  s.Waits c ∧ ∀ d, s.Waits d →
    if s.line.grantCount = 7 then d.priority ≤ c.priority else c.priority ≤ d.priority

/-- The arbiter grants a unit class to unit u of position p: the first waiting requester after the class's last-served
(R42). -/
def GrantsTo (s : State) (c : LineClass) (p u : Nat) : Prop :=
  s.Grants c ∧ 1 ≤ p ∧ p ≤ 24 ∧ u ≤ 2 ∧ s.Requests c p u ∧
    (∀ q v, s.line.lastServed c = some (q, v) → 1 ≤ q ∧ q ≤ 24 ∧ v ≤ 2) ∧
    ∀ q v, 1 ≤ q → q ≤ 24 → v ≤ 2 → s.Requests c q v →
      robinPlace (s.line.lastServed c) p u ≤ robinPlace (s.line.lastServed c) q v

/-- The counter LINE_BAD_FRAME one higher. -/
def lineFrameCounted (s : State) : State :=
  { s with counters := { s.counters with lineBadFrame := oneMore s.counters.lineBadFrame } }

end State

end Sys2Proof.Machine
end

