-- ==== Sys2Proof/Certificates/Slice0/Obligations.lean ====
section
/-! DEFINITION. The statements for the provers. Each docstring names the rules of spec/ that a statement formalises; one
that rests on a choice of the model says so and names its entry in notes/assumptions. In a statement of what a command
does, `t = ` a record update lists every field of State that may differ: every field not listed is as it was. -/

open Sys2Proof Sys2Proof.Machine

/-! ### The step and the starts -/

/-- A step carries out the command at the front of the queue of commands waiting on the state with the queue's rest. -/
def Obligations.StepTakesFrontCommand : Prop :=
  ∀ (c : Instr) (rest : List Instr) (s : State), s.pending = c :: rest → step s = exec c (s.withPending rest)

/-- With no command waiting a step is a tick of 10 ms (the MODEL's choice, as is the order in which expiries that fall due
together wait, notes/assumptions/4.md): every running timer counts down by one, the command of the expiry of each timer that
runs out waits, and DAY_CLOCK_TICK waits at each hundredth tick of a running clock. That command at the front of the queue
raises the day clock by 1, and the clock stops at 16,777,215 (R174). -/
def Obligations.TickCountsTimersDown : Prop :=
  (∀ s : State, s.pending = [] → ∃ t, step s = .next t ∧
    t = { s with line := t.line, survey := t.survey, entries := t.entries, drawers := t.drawers,
                 printers := t.printers, day := t.day, pending := t.pending } ∧
    t.line = { s.line with replyWait := s.line.replyWait.map (· - 1), rollTimer := s.line.rollTimer.map (· - 1) } ∧
    (∀ i, t.entry i = (s.entry i).map (fun e => { e with timer := e.timer.map (· - 1) })) ∧
    (∀ d, t.drawer d = { s.drawer d with openAlarm := (s.drawer d).openAlarm.map (· - 1) }) ∧
    (∀ p, t.printer p = { s.printer p with
      lineWait := (s.printer p).lineWait.map (· - 1)
      job := (s.printer p).job.map (fun j =>
        { j with pacing := j.pacing.map (· - 1), bookWait := j.bookWait.map (· - 1) }) }) ∧
    ((∃ p k stopped, s.line.engine = .waitProbe p k stopped) →
      t.survey = { s.survey with elapsed := min 255 (s.survey.elapsed + 1) }) ∧
    ((∀ p k stopped, s.line.engine ≠ .waitProbe p k stopped) → t.survey = s.survey) ∧
    t.day = { s.day with
      ackTimer := s.day.ackTimer.map (· - 1), phase := if s.day.running then (s.day.phase + 1) % 100 else s.day.phase } ∧
    t.pending.Nodup ∧
    ∀ c, c ∈ t.pending ↔
      (c = .unitReplyWaitExpiry ∧ s.line.replyWait = some 1) ∨
      (c = .rollCallTimerExpiry ∧ s.line.rollTimer = some 1) ∨
      (∃ i e, s.entry i = some e ∧ e.timer = some 1 ∧
        ((c = .approvalWaitExpiry i ∧ e.state = .waitingCentre) ∨
          (c = .overrideWaitExpiry i ∧ e.state = .waitingOverride))) ∨
      (∃ d, d ≤ 24 ∧ c = .openAlarmExpiry d ∧ (s.drawer d).openAlarm = some 1) ∨
      (∃ p, 1 ≤ p ∧ p ≤ 24 ∧ ((c = .lineCompletionWaitExpiry p ∧ (s.printer p).lineWait = some 1) ∨
        ∃ j, (s.printer p).job = some j ∧
          ((c = .pacingTimerExpiry p ∧ j.pacing = some 1) ∨ (c = .bookWaitExpiry p ∧ j.bookWait = some 1)))) ∨
      (c = .ackWaitExpiry ∧ s.day.ackTimer = some 1) ∨
      (c = .dayClockTick ∧ s.day.running = true ∧ s.day.phase = 99)) ∧
  (∀ (s : State) (rest : List Instr), s.pending = .dayClockTick :: rest → step s = .next { s with
    pending := rest
    day := { s.day with
      clock := if s.day.running = true ∧ s.day.clock < 16777215 then s.day.clock + 1 else s.day.clock } })

/-- No command ends in a fault or a refusal, and none touches the commands that wait behind it. -/
def Obligations.EveryCommandGoesOn : Prop :=
  ∀ (c : Instr) (s : State), ∃ t, exec c s = .next t ∧ t.pending = s.pending

/-- A cold start, at power-on with RETV deasserted and at RESTART COLD, gives every block its cold start values, whatever
the state before (R12, R21, R22, R48, R66, R89, R112, R151, R171, R183, R200), and the second part lists those values block by
block. The input OLRDY keeps its level and RETV is not sampled by a RESTART; the MODEL's own records go on
(notes/assumptions/3.md, 7.md). Reset is a cold start with straps of 0; that the straps are 0 and OLRDY deasserted is the MODEL's
choice (notes/assumptions/2.md). -/
def Obligations.ColdStart : Prop :=
  (∀ (s : State) (straps tag : Nat),
    let cold (retv : Bool) : State :=
      { State.reset with
        port := { State.reset.port with
          node := if straps = 0 then 1 else if straps = 255 then 254 else straps
          straps := straps, retv := retv, olrdy := s.port.olrdy, sent := s.port.sent }
        line := { State.reset.line with sent := s.line.sent }, freeDraws := s.freeDraws, pending := s.pending }
    exec (.powerOn straps false) s = .next (cold false) ∧ exec (.restart tag [1] straps) s = .next (cold s.port.retv)) ∧
  let s := State.reset
  (s.port.queue = [] ∧ s.port.transmitting = false ∧ s.port.prevFailed = false ∧ s.port.node = 1) ∧
  s.counters = ⟨0, 0, 0, 0, 0, 0, 0, 0, 0, 0, 0⟩ ∧ s.lock = 0 ∧
  s.tables.params = ⟨10, 3, 2, 2000, 6000, 3000, 8, 300, 12000, 3000, 2⟩ ∧ s.tables.surveyMask = [] ∧
  (∀ i, s.tables.position i = none ∧ s.tables.currency i = none ∧ s.tables.rateEntry i = none ∧
    rd s.tables.codes i none = none ∧ rd s.tables.tellers i none = none ∧ s.tables.form i = none ∧
    s.tables.field i = none ∧ s.tables.text i = none ∧ s.tables.messageText i = none ∧ s.tables.layout i = none) ∧
  (s.line.engine = .idle ∧ s.line.rollWaiting = true ∧ s.line.grantCount = 0 ∧ s.line.rollTimer = none) ∧
  (∀ p u, (s.posRec p).missed = 0 ∧
    s.unit p u = { presence := .unknown, attention := false, queue := [], outSeq := 0, lastIn := none }) ∧
  (s.survey.state = .idle ∧ s.survey.min = 255 ∧ s.survey.max = 0 ∧ s.survey.validCount = 0 ∧ s.survey.faultCount = 0) ∧
  (∀ p, s.session p = { state := .signedOff, teller := none, role := none }) ∧
  (∀ i, s.entry i = none) ∧ s.tagCounter = 0 ∧ s.overrides = [] ∧
  (∀ d c k, (s.drawer d).state = .active ∧ (s.drawer d).physical = .closed ∧ countAt (s.drawer d).book c k = 0 ∧
    countAt (s.drawer d).reserved c k = 0 ∧ countAt (s.drawer d).incoming c k = 0 ∧ (s.drawer d).anyAlert = false) ∧
  (∀ p, (s.screen p).form = 0 ∧ (s.screen p).dirty = [] ∧ (s.screen p).view = View.empty ∧ (s.screen p).last = none) ∧
  (∀ p, (s.printer p).state = .absent ∧ (s.printer p).job = none ∧ (s.printer p).book = none ∧
    (s.printer p).carried = none) ∧
  (∀ i, rd s.store i none = none) ∧ s.journal = { records := [], claims := 0, closed := false } ∧
  (s.day.state = .noDay ∧ s.day.date = none ∧ s.day.clock = 0 ∧ s.day.running = false ∧ s.day.blocks = [] ∧
    s.day.acked = 0 ∧ s.day.sent = 0 ∧ s.day.highest = 0)

/-- A warm start, at power-on with RETV asserted and at RESTART WARM, taken whole (R21). Port, counters, lock level, line,
survey, sessions, override list, printers and line store start afresh (R22, R48, R66, R171), and every screen (R151). Every
entry ends: the RESTART record and one EXPIRED record for each WAITING_CENTRE entry that is reversed stand in the journal
(R66, R88, R178), their REVERSAL notices are the queue (R88), and no claim or reservation is left (R183, R113). Every drawer
keeps its books, state and flags, its physical state and open-alarm timer apart (R113). The day record is kept, SENDING and HELD
becoming HELD with BATCH_HELD offered (R199), and in CUTOFF completion is tested at the end. No nearly-full alarm is raised
(R183). The order within the event, the kept part second and the DAY notice of the completion that may end the start are the
MODEL's readings (notes/assumptions/13.md, 21.md, 31.md). -/
def Obligations.WarmStart : Prop :=
  ∀ (s : State) (straps tag : Nat) (retv : Bool) (c : Instr),
    (c = .powerOn straps true ∧ retv = true) ∨ (c = .restart tag [2] straps ∧ retv = s.port.retv) →
    let held : Prop := s.day.state = .sending ∨ s.day.state = .held
    let restart : List Body :=
      if (s.day.state = .opened ∨ s.day.state = .cutoff) ∧ 1 ≤ s.generalSpace ∧ s.journal.closed = false then [.restart]
      else []
    let expired : List Body := (List.range 32).filterMap (fun i => (s.entry i).bind (fun e =>
      if e.state = .waitingCentre ∧ e.req.snap.cls ≠ .inquiry then
        some (.expired e.req.pos e.req.teller e.req.snap.code e.req.cur e.req.amount e.tag e.req.account .restart)
      else none))
    let notices : List UpFrame := (List.range 32).filterMap (fun i => (s.entry i).bind (fun e =>
      if e.state = .waitingCentre ∧ e.req.snap.cls ≠ .inquiry then some (.reversal e.tag .restart)
      else if e.state = .reversing then some (.reversal e.tag (e.reason.getD .timeout))
      else none))
    let queue : List UpFrame := notices ++ if held then [.alarm .batchHeld 0] else []
    ∃ u : State,
      u = { s with
        port := {
          node := if straps = 0 then 1 else if straps = 255 then 254 else straps
          straps := straps, retv := retv, olrdy := s.port.olrdy, transmitting := s.port.olrdy && !queue.isEmpty
          queue := queue, received := [], prevFailed := false, sent := s.port.sent }
        counters := ⟨0, 0, 0, 0, 0, 0, 0, 0, 0, 0, 0⟩, lock := min s.lock 1, line := Line.start s.line.sent
        survey := Survey.start, sessions := Vector.replicate 24 { state := .signedOff, teller := none, role := none }
        entries := Vector.replicate 32 none, overrides := [], drawers := u.drawers, screens := u.screens
        printers := Vector.replicate 24 Printer.start, store := Vector.replicate 256 none
        journal := {
          records := s.journal.records ++ (restart ++ expired).mapIdx (fun i b =>
            { seq := s.journal.records.length + 1 + i, clock := s.day.clock, body := b })
          claims := u.journal.claims, closed := s.journal.closed }
        day := { s.day with
          state := if held then .held else s.day.state, sent := if held then s.day.acked else s.day.sent
          expiries := 0, ackTimer := none } } ∧
      (∀ d, d ≤ 24 → u.drawer d = { s.drawer d with
        reserved := (u.drawer d).reserved, incoming := (u.drawer d).incoming
        physical := if s.tables.serving d then .unknown else .closed, openAlarm := none }) ∧
      (∀ p, 1 ≤ p → p ≤ 24 → u.screen p = {
        form := ((s.tables.position p).map (·.defaultForm)).getD 0
        alert := (s.drawer (s.tables.ownDrawer p)).ceiling || (s.drawer (s.tables.ownDrawer p)).openLong ||
          (s.drawer (s.tables.ownDrawer p)).forced
        override := false, dirty := [], urgent := false, clearPending := false, blankKnown := [], view := View.empty
        last := none }) ∧
      (s.JournalSound → u.journal.claims = 0) ∧
      (s.ReservationsSound → ∀ d k n, d ≤ 24 → k < 4 → 1 ≤ n → n ≤ 12 →
        countAt (u.drawer d).reserved k n = 0 ∧ countAt (u.drawer d).incoming k n = 0) ∧
      (¬ (s.day.state = .cutoff ∧ u.canComplete = true) → exec c s = .next u) ∧
      (s.WindowSound → s.day.state = .cutoff → u.canComplete = true → ∃ t : State, exec c s = .next t ∧
        let figures := (List.range 4).map u.figures
        let last := u.journal.records.length + 1
        let records := u.journal.records ++ [{ seq := last, clock := s.day.clock, body := .settlement figures last }]
        let total := (pack records).length
        OnlyMarks u t ∧
        (∀ d, d ≤ 24 → t.drawer d = { u.drawer d with releasePending := false, releaseDelivered := false }) ∧
        t = { u with
          drawers := t.drawers, screens := t.screens
          journal := { records := records, claims := u.journal.claims, closed := true }
          day := { u.day with
            state := .sending, settlement := figures, lastSeq := last, blocks := pack records, sent := min 4 total
            highest := min 4 total, ackTimer := some s.tables.params.batchAck }
          port := { u.port with
            queue := u.port.queue ++ [.day .sending s.day.date] ++ ((pack records).take 4).mapIdx (fun i b =>
              .block (i + 1) total ((records.drop (b.first - 1)).take b.count))
            transmitting := s.port.olrdy } })

/-- The state after reset meets every invariant below: the first of the two halves of each. -/
def Obligations.InvariantsHoldAtReset : Prop :=
  State.reset.Bounded ∧ State.reset.JournalNumbered ∧ State.reset.WindowSound ∧ State.reset.EntriesSound ∧
  State.reset.OverridesSound ∧ State.reset.JournalSound ∧ State.reset.ReservationsSound

/-! ### The office link port (01) -/

/-- The receive path (R1, R2, R4): a bad frame is dropped and counted, and sets the previous-frame-failed flag; a frame for
another node, and one for node 255 that is no IDENTIFY, is dropped and counted; an IDENTIFY at node 255 is answered with the
part's own node number; a frame for the part's node goes on to the owner of its kind. -/
def Obligations.ReceivePathAndNodeFilter : Prop :=
  (∀ (frame : List Byte) (s : State),
    (frame.length < 8 ∨ 1024 < num frame 4 2 ∨ frame.length ≠ 8 + num frame 4 2 ∨
      ¬ (1 ≤ num frame 0 1 ∧ num frame 0 1 ≤ 4) ∨
      crc16Bytes (frame.take (frame.length - 2)) ≠ frame.drop (frame.length - 2)) →
    exec (.badFrame frame) s = .next { s with
      counters := { s.counters with linkBadFrame := if s.counters.linkBadFrame < 65535 then s.counters.linkBadFrame + 1
                                                    else s.counters.linkBadFrame }
      port := { s.port with prevFailed := true } }) ∧
  (∀ (kind node tag : Nat) (payload : List Byte) (s : State),
    (node ≠ s.port.node → ¬ (node = 255 ∧ kind = 2 ∧ payload.head? = some 1) →
      exec (.wrongNodeFrame kind node tag payload) s = .next { s with
        counters := { s.counters with
          linkWrongNode := if s.counters.linkWrongNode < 65535 then s.counters.linkWrongNode + 1
                           else s.counters.linkWrongNode } }) ∧
    (∀ params, exec (.wrongNodeFrame 2 255 tag (1 :: params)) s = exec (.identify tag params) s) ∧
    exec (.wrongNodeFrame 1 s.port.node tag payload) s = exec (.answer tag payload) s ∧
    exec (.wrongNodeFrame 3 s.port.node tag []) s = exec (.batchAck tag) s ∧
    exec (.wrongNodeFrame 4 s.port.node tag []) s = exec (.batchNack tag) s)

/-- The upstream queue (R5, R6). Transmission begins with the head when OLRDY is asserted and a frame waits; a frame being
transmitted is completed whatever OLRDY does; when its last byte is sent it leaves the queue, and the next begins only while
OLRDY is asserted. FRAME_SENT frees the slot and does no more: what the freed slot lets a producer queue is a command of its
own (the MODEL's choice, notes/assumptions/22.md). With a full queue a reply is dropped and counted, the previous-frame-failed
flag stays (the MODEL's reading, notes/assumptions/19.md), and the request's effect stands: a read leaves all else as it was,
READ COUNTERS leaves its cleared counters, LOCK leaves the raised level (R4, R6, R7). -/
def Obligations.UpstreamTransmission : Prop :=
  (∀ s : State,
    exec .olrdyAsserted s = .next { s with port := { s.port with
      olrdy := true, transmitting := s.port.transmitting || !s.port.queue.isEmpty } } ∧
    exec .olrdyDeasserted s = .next { s with port := { s.port with olrdy := false } } ∧
    ∀ f rest, s.port.transmitting = true → s.port.queue = f :: rest →
      exec .frameSent s = .next { s with port := { s.port with
        queue := rest, transmitting := s.port.olrdy && !rest.isEmpty, sent := s.port.sent ++ [f] } }) ∧
  ∀ (s : State) (tag : Nat) (ps : List Byte), 64 ≤ s.port.queue.length →
    let lost (u : State) : State := { u with counters := { u.counters with
      noticeLost := if u.counters.noticeLost < 65535 then u.counters.noticeLost + 1 else u.counters.noticeLost } }
    (∀ c, c ∈ [Instr.identify tag ps, .readStatus tag ps, .tableRead tag ps, .readDrawer tag ps, .readSession tag ps,
        .readPending tag ps, .readJournal tag ps, .readSurveyPosition tag ps, .unknown 0 tag ps] →
      exec c s = .next (lost s)) ∧
    exec (.readCounters tag [1]) s = .next (lost { s with counters := ⟨0, 0, 0, 0, 0, 0, 0, 0, 0, 0, 0⟩ }) ∧
    (s.lock = 1 → exec (.lock tag [2]) s = .next (lost { s with lock := 2 }))

/-! ### Management reads (R7, R8, R9, R11) -/

/-- The requests that read are answered DONE with their data, in a reply that carries the request's code and tag and the status
summary (R7, R8, R9, R11, R13, R47, R87, R182). The clear flag is set by any nonzero byte (the MODEL's choice,
notes/assumptions/5.md), and a survey result that is not valid and the counts of an undefined currency or an unused drawer read as
the model reads them (notes/assumptions/17.md). READ COUNTERS with its clear flag set leaves the counters 0, and READ SURVEY
SUMMARY stops a running survey, whose probe on the line is then discarded; the others change nothing else. -/
def Obligations.ReadsAnswered : Prop :=
  (∀ (s : State) (tag : Nat), s.port.queue.length < 64 →
    exec (.identify tag []) s =
      .next (s.withReply (s.doneReply 0x01 tag [23, 0x09, 0x6A, 3, toByte s.port.node])) ∧
    exec (.readStatus tag []) s = .next (s.withReply (s.doneReply 0x02 tag [])) ∧
    (∀ (x : Section) (i : Nat), x.hasIndex i = true →
      exec (.tableRead tag (toByte x.code :: be 2 i)) s =
        .next (s.withReply (s.doneReply 0x04 tag (s.tables.read x i).bytes))) ∧
    (∀ d c, d ≤ 24 → c ≤ 3 → exec (.readDrawer tag [toByte d, toByte c]) s =
      .next (s.withReply (s.doneReply 0x0A tag (s.drawerData d c)))) ∧
    (∀ p, 1 ≤ p → p ≤ 24 → exec (.readSession tag [toByte p]) s =
      .next (s.withReply (s.doneReply 0x0B tag (toByte (s.session p).state.code :: be 2 ((s.session p).teller.getD 0)
        ++ [toByte (((s.session p).role.map Role.code).getD 0)])))) ∧
    (∀ i, i ≤ 31 → exec (.readPending tag [toByte i]) s =
      .next (s.withReply (s.doneReply 0x0C tag (match s.entry i with | none => [0] | some e => 1 :: e.bytes)))) ∧
    (∀ n, 1 ≤ n → n ≤ s.journal.records.length → n < 65536 → exec (.readJournal tag (be 2 n)) s =
      .next (s.withReply (s.doneReply 0x0D tag (toByte (s.journalFrom n).length :: be 2 s.journal.records.length
        ++ (s.journalFrom n).flatMap Record.bytes)))) ∧
    (∀ p, 1 ≤ p → p ≤ 24 → exec (.readSurveyPosition tag [toByte p]) s =
      .next (s.withReply (s.doneReply 0x10 tag
        (let r := rd1 s.survey.results p SurveyResult.invalid
         [flagByte r.valid, toByte r.fault.code, toByte r.min, toByte r.max]))))) ∧
  (∀ (s : State) (tag : Nat), s.port.queue.length < 64 →
    exec (.readCounters tag [0]) s = .next (s.withReply (s.doneReply 0x0E tag s.counters.bytes)) ∧
    (∀ b : Byte, b ≠ 0 → exec (.readCounters tag [b]) s =
      .next (({ s with counters := ⟨0, 0, 0, 0, 0, 0, 0, 0, 0, 0, 0⟩ } : State).withReply
        (s.doneReply 0x0E tag s.counters.bytes))) ∧
    ∃ u : State, u = { s with survey := u.survey, line := u.line } ∧
      exec (.readSurveySummary tag []) s = .next (u.withReply (u.doneReply 0x11 tag
        [toByte u.survey.state.code, toByte s.survey.min, toByte s.survey.max, toByte s.survey.list.length,
          toByte s.survey.validCount, toByte s.survey.faultCount])) ∧
      (s.survey.state ≠ .running → u = s) ∧
      (s.survey.state = .running →
        u.survey = { s.survey with state := .done, rest := [], probes := [] } ∧
        u.line = { s.line with engine := match s.line.engine with
          | .waitProbe p k _ => .waitProbe p k true
          | e => e }))

/-- What the replies and reads carry: the status summary's ten fields, with the reply's own slot counted (R8, R176); the data of
READ DRAWER, zero counts for an undefined currency and for a drawer that a pair leaves unused (R11, R95,
notes/assumptions/17.md); the records of READ JOURNAL, as many as 16 and 1,009 bytes allow (R182); the fields of an entry in
use, 66 bytes and 6 for each reservation item (R87), where the zeros of figures that a class does not have are the MODEL's reading
(notes/assumptions/32.md); a record's bytes, header and body, and its size (R173, R205). -/
def Obligations.DataOfReads : Prop :=
  (∀ s : State,
    s.generalSpace = 16384 - (s.journal.records.length : Int) - s.journal.claims - 64 ∧
    s.summary = {
      lock := s.lock, live := decide (s.lock ≠ 0), held := decide (s.day.state = .held)
      nearlyFull := decide (15360 ≤ s.journal.records.length), inReserve := decide (s.generalSpace < 1)
      prevFailed := s.port.prevFailed, day := s.day.state, survey := s.survey.state
      pendingCount := ((List.range 32).filter (fun i => (s.entry i).isSome)).length
      freeSlots := 64 - s.port.queue.length - 1 } ∧
    (∀ d c, s.drawerData d c =
      [toByte (match (s.drawer d).state with | .active => 1 | .outOfBalance => 2 | .awaitingAccept => 3 | .balanced => 4),
        toByte (match (s.drawer d).physical with | .closed => 1 | .opened => 2 | .unknown => 3),
        toByte ((if (s.drawer d).ceiling then 1 else 0) + (if (s.drawer d).openLong then 2 else 0) +
          if (s.drawer d).forced then 4 else 0),
        toByte (s.drawer d).recount, if (s.drawer d).releasePending then 1 else 0] ++ be 2 (s.drawer d).openings ++
      [if (s.drawer d).postedToday then 1 else 0] ++ be 6 (rd (s.drawer d).opening c 0) ++
      [toByte (s.tables.faces c).length] ++
      (List.range' 1 12).flatMap (fun k =>
        if s.tables.currency c = none ∨ (d ≠ 0 ∧ s.tables.ownDrawer d ≠ d) then [0, 0, 0, 0, 0, 0]
        else be 2 (countAt (s.drawer d).book c k) ++ be 2 (countAt (s.drawer d).reserved c k) ++
          be 2 (countAt (s.drawer d).incoming c k))) ∧
    ∀ n, 1 ≤ n →
      s.journalFrom n <+: s.journal.records.drop (n - 1) ∧ (s.journalFrom n).length ≤ 16 ∧
      ((s.journalFrom n).map (·.size)).sum ≤ 1009 ∧
      ∀ r, s.journal.records[n - 1 + (s.journalFrom n).length]? = some r →
        (s.journalFrom n).length = 16 ∨ 1009 < ((s.journalFrom n).map (·.size)).sum + r.size) ∧
  (∀ e : Entry, e.bytes.length = 66 + 6 * e.req.items.length ∧
    e.bytes = be 2 e.tag ++
      [toByte (match e.state with | .waitingOverride => 1 | .waitingCentre => 2 | .reversing => 3),
        if e.granted then 1 else 0, toByte e.req.pos] ++ be 2 e.req.teller ++
      [toByte e.req.snap.code, toByte e.req.snap.cls.code, if e.req.snap.auth = .central then 2 else 1,
        toByte e.req.cur] ++ be 6 e.req.amount ++ be 6 (e.req.equiv.getD 0) ++
      (match e.req.exch with
        | some x => be 5 x.rate ++ be 6 x.cash ++ beInt 6 x.residue
        | none => List.replicate 17 0) ++
      [toByte e.req.items.length] ++
      e.req.items.flatMap (fun x => [toByte x.drawer, toByte x.cur, toByte x.den] ++ be 2 x.count ++
        [if x.out then 1 else 2]) ++
      accountField e.req.account ++ [toByte e.claim] ++ be 2 (e.timer.getD 0) ++
      [toByte (match e.reason with | none => 0 | some .timeout => 1 | some .cancelled => 2 | some .restart => 3)]) ∧
  (∀ r : Record, (r.bytes = be 2 r.size ++ be 2 r.seq ++
      [toByte (match r.body with
        | .opened _ => 1 | .post _ => 2 | .expired .. => 3 | .override .. => 4 | .signOn .. => 5 | .signOff .. => 6
        | .proof .. => 7 | .forcedOpen .. => 8 | .cutoff .. => 9 | .reopenDay => 10 | .restart => 11
        | .settlement .. => 12)] ++ be 3 r.clock ++
      match r.body with
      | .opened date => padTo 8 0 date
      | .post b =>
        [toByte b.pos] ++ be 2 b.teller ++ [toByte (b.drawer.getD 255), toByte b.code] ++ padTo 6 32 b.mnemonic ++
        [toByte b.cls.code, toByte b.cur] ++ be 6 b.amount ++
        (match b.exch with | some x => be 6 x.equiv ++ be 6 x.cash ++ beInt 6 x.residue | none => []) ++
        be 2 (b.tag.getD 0) ++ accountField b.account ++
        toByte b.reqList.length :: b.reqList.flatMap (fun x => toByte x.1 :: be 2 x.2) ++
        (if b.exch.isSome then toByte b.homeList.length :: b.homeList.flatMap (fun x => toByte x.1 :: be 2 x.2) else [])
      | .expired p t code cur a tag account reason =>
        [toByte p] ++ be 2 t ++ [toByte code, toByte cur] ++ be 6 a ++ be 2 tag ++ accountField account ++
        [match reason with | .timeout => 1 | .cancelled => 2 | .restart => 3]
      | .override p t code cur a tag => [toByte p] ++ be 2 t ++ [toByte code, toByte cur] ++ be 6 a ++ be 2 tag
      | .signOn p t => [toByte p] ++ be 2 t
      | .signOff p t cause => [toByte p] ++ be 2 t ++ [if cause = .closing then 2 else 1]
      | .proof p t d result diffs =>
        [toByte p] ++ be 2 t ++ [toByte d, match result with | .balanced => 1 | .accepted => 2 | .reopened => 3] ++
        (padTo 4 0 diffs).flatMap (beInt 6)
      | .forcedOpen d p n => [toByte d, toByte p] ++ be 2 n
      | .cutoff p t => [toByte (p.getD 0)] ++ be 2 (t.getD 0)
      | .reopenDay => []
      | .restart => []
      | .settlement figures last => (padTo 4 Figures.zero figures).flatMap (fun f =>
          [f.opening, f.deposits, f.withdrawals, f.exchangeIn, f.exchangeOut, f.homeIn, f.homeOut, f.residue, f.deliveries,
            f.shipments, f.overShort, f.closing, f.records].flatMap (beInt 8)) ++ be 2 last) ∧
    r.bytes.length = r.size ∧
    r.size = match r.body with
      | .opened _ => 16
      | .post b => (if b.exch.isSome then 70 + 3 * b.homeList.length else 51) + 3 * b.reqList.length
      | .expired .. => 43 | .override .. => 21 | .signOn .. => 11 | .signOff .. => 12 | .proof .. => 37
      | .forcedOpen .. => 12 | .cutoff .. => 11 | .reopenDay => 8 | .restart => 8 | .settlement .. => 426)

/-- A refused request changes nothing but the reply (R7): UNKNOWN for a code that is not the 2410's, BAD_CONTENT for parameters of
the wrong size, BAD_INDEX and BAD_SECTION for a read outside its range (R11, R13), the refusals of the day requests and of START
SURVEY (R10, R11), STATE before the date and the mode before BUSY (notes/assumptions/20.md), and BAD_CONTENT for a RESTART of a
kind that is neither COLD nor WARM (R12). -/
def Obligations.RequestsRefused : Prop :=
  (∀ (s : State) (tag : Nat) (ps : List Byte), s.port.queue.length < 64 →
    let refused (code : Byte) (o : MgmtOutcome) : Host.Outcome State Fault Refusal :=
      .next (s.withReply (s.refusedReply code tag o))
    (∀ code, exec (.unknown code tag ps) s = refused code .unknown) ∧
    (ps.length ≠ 0 →
      exec (.identify tag ps) s = refused 0x01 .badContent ∧ exec (.readStatus tag ps) s = refused 0x02 .badContent ∧
      exec (.cutoff tag ps) s = refused 0x07 .badContent ∧ exec (.reopenDay tag ps) s = refused 0x08 .badContent ∧
      exec (.resumeBatch tag ps) s = refused 0x09 .badContent ∧
      exec (.readSurveySummary tag ps) s = refused 0x11 .badContent) ∧
    (ps.length ≠ 1 →
      exec (.lock tag ps) s = refused 0x05 .badContent ∧ exec (.readSession tag ps) s = refused 0x0B .badContent ∧
      exec (.readPending tag ps) s = refused 0x0C .badContent ∧
      exec (.readCounters tag ps) s = refused 0x0E .badContent ∧
      exec (.startSurvey tag ps) s = refused 0x0F .badContent ∧
      exec (.readSurveyPosition tag ps) s = refused 0x10 .badContent ∧
      ∀ straps, exec (.restart tag ps straps) s = refused 0x12 .badContent) ∧
    (ps.length ≠ 2 →
      exec (.readDrawer tag ps) s = refused 0x0A .badContent ∧ exec (.readJournal tag ps) s = refused 0x0D .badContent) ∧
    (ps.length ≠ 3 → exec (.tableRead tag ps) s = refused 0x04 .badContent) ∧
    (ps.length ≠ 8 → exec (.openDay tag ps) s = refused 0x06 .badContent) ∧
    exec (.tableWrite tag []) s = refused 0x03 .badContent ∧
    (∀ x : Section, ps.length ≠ 3 + x.size → exec (.tableWrite tag (toByte x.code :: ps)) s = refused 0x03 .badContent)) ∧
  (∀ (s : State) (tag : Nat) (a b : Byte), s.port.queue.length < 64 →
    let refused (code : Byte) (o : MgmtOutcome) : Host.Outcome State Fault Refusal :=
      .next (s.withReply (s.refusedReply code tag o))
    (24 < a.toNat ∨ 3 < b.toNat → exec (.readDrawer tag [a, b]) s = refused 0x0A .badIndex) ∧
    (a = 0 ∨ 24 < a.toNat → exec (.readSession tag [a]) s = refused 0x0B .badIndex ∧
      exec (.readSurveyPosition tag [a]) s = refused 0x10 .badIndex) ∧
    (31 < a.toNat → exec (.readPending tag [a]) s = refused 0x0C .badIndex) ∧
    (256 * a.toNat + b.toNat = 0 ∨ s.journal.records.length < 256 * a.toNat + b.toNat →
      exec (.readJournal tag [a, b]) s = refused 0x0D .badIndex) ∧
    (∀ c : Byte, 11 < c.toNat → exec (.tableRead tag [c, a, b]) s = refused 0x04 .badSection ∧
      ∀ ps, exec (.tableWrite tag (c :: ps)) s = refused 0x03 .badSection) ∧
    (∀ x : Section, x.hasIndex (256 * a.toNat + b.toNat) = false →
      exec (.tableRead tag [toByte x.code, a, b]) s = refused 0x04 .badIndex)) ∧
  (∀ (s : State) (tag : Nat) (date : List Byte) (b : Byte), s.port.queue.length < 64 →
    let refused (code : Byte) (o : MgmtOutcome) : Host.Outcome State Fault Refusal :=
      .next (s.withReply (s.refusedReply code tag o))
    (date.length = 8 → s.lock = 0 ∨ (s.day.state ≠ .noDay ∧ s.day.state ≠ .sent) →
      exec (.openDay tag date) s = refused 0x06 .state) ∧
    (date.length = 8 → s.lock ≠ 0 → s.day.state = .noDay ∨ s.day.state = .sent → State.validDate date = false →
      exec (.openDay tag date) s = refused 0x06 .badContent) ∧
    (s.day.state ≠ .opened → exec (.cutoff tag []) s = refused 0x07 .state) ∧
    (s.day.state ≠ .cutoff ∨ s.generalSpace < 1 → exec (.reopenDay tag []) s = refused 0x08 .state) ∧
    (s.day.state ≠ .held → exec (.resumeBatch tag []) s = refused 0x09 .state) ∧
    (b ≠ 1 → b ≠ 2 → exec (.startSurvey tag [b]) s = refused 0x0F .badContent) ∧
    (b = 1 ∨ b = 2 → s.survey.state = .running → exec (.startSurvey tag [b]) s = refused 0x0F .busy) ∧
    (b ≠ 1 → b ≠ 2 → ∀ straps, exec (.restart tag [b] straps) s = refused 0x12 .badContent))

/-! ### The table store (R13 to R20) -/

/-- TABLE WRITE with write intent: an entry that passes every check of R13 is stored whole at its index, every other entry
is kept, and the reply returns the entry as stored, its match indication 0; the values of PARAMS are clamped, never refused
(R17). What the write does elsewhere: the screens of a written form, or of a form that covers a written field, are refreshed in
full (R16, R143); a TEXTS, MESSAGES or CURRENCIES write marks the rows that show it (R141); a TELLERS write copies the role to the
teller's sessions (R51); a POSITIONS write that gives or takes a serving unit sets the drawer's physical state (R94), and one that
changes an own drawer re-evaluates ALERT and marks the drawer rows (R135, R141). Nothing else changes. Any nonzero byte is taken as
write intent (the MODEL's choice, notes/assumptions/5.md). -/
def Obligations.TableWriteStores : Prop :=
  (∀ content : List Byte, content.length = 23 → num content 0 1 ≠ 0 →
    let value (k low high : Nat) : Nat := max low (min (num content (2 * k - 1) 2) high)
    parseContent .params content = some (.params {
      rollCall := value 1 2 50, unitReply := value 2 1 20, retries := value 3 0 3, approval := value 4 50 6000
      overrideWait := value 5 1000 30000, openAlarm := value 6 500 12000, pacing := value 7 2 100
      lineCompletion := value 8 50 1000, bookWait := value 9 500 30000, batchAck := value 10 100 12000
      surveySlow := value 11 1 20 })) ∧
  ∀ (s : State) (tag i : Nat) (x : Section) (intent : Byte) (content : List Byte) (e : TableEntry),
    x.hasIndex i = true → intent ≠ 0 → content.length = x.size → s.writable x = true →
    ¬ (x = .surveyMask ∧ s.survey.state = .running) → parseContent x content = some e → e.sound i = true →
    e.agrees s.tables i = true → (s.lock ≠ 0 → (s.tables.store i e).crossCheck = none) → s.inUse i e = false →
    ∃ t, exec (.tableWrite tag (toByte x.code :: be 2 i ++ intent :: content)) s = .next t ∧
      t = { s with tables := s.tables.store i e, sessions := t.sessions, drawers := t.drawers, screens := t.screens,
                   port := t.port, counters := t.counters } ∧
      t.tables.read x i = e ∧
      (∀ y j, y.hasIndex j = true → (y, j) ≠ (x, i) → t.tables.read y j = s.tables.read y j) ∧
      (s.port.queue.length < 64 → ∃ r, t.port = (s.withReply r).port ∧ t.counters = s.counters ∧ r.code = 0x03 ∧
        r.tag = tag ∧ r.outcome = .done ∧ r.data = 0 :: e.bytes) ∧
      (let unchanged : Prop := t.sessions = s.sessions ∧ t.drawers = s.drawers
       let refreshed (p : Nat) : Prop :=
        t.screen p = { s.screen p with
          dirty := List.range' 1 24, clearPending := true, urgent := (t.screen p).urgent } ∧
        ((t.screen p).urgent = true → (s.screen p).urgent = true)
       match e with
       | .form _ => unchanged ∧ ∀ p, 1 ≤ p → p ≤ 24 →
          if (s.screen p).form = i then refreshed p else t.screen p = s.screen p
       | .field _ => unchanged ∧ ∀ p, 1 ≤ p → p ≤ 24 →
          if ∃ f, s.tables.form (s.screen p).form = some f ∧
              ((f.setA.first ≤ i ∧ i < f.setA.first + f.setA.count) ∨
                (f.setB.first ≤ i ∧ i < f.setB.first + f.setB.count)) then refreshed p
          else t.screen p = s.screen p
       | .text _ => unchanged ∧ ∀ p, 1 ≤ p → p ≤ 24 → Marked s t p (fun y => y == .text i)
       | .message _ => unchanged ∧ ∀ p, 1 ≤ p → p ≤ 24 → Marked s t p (fun y => y == .message || y == .txnState)
       | .currency _ => unchanged ∧ ∀ p, 1 ≤ p → p ≤ 24 → Marked s t p (fun y => match y with
          | .drawerValue c => c == i
          | .drawerAvailable c => c == i
          | .drawerCount c _ => c == i
          | .txnCurrency => (s.screen p).view.cur == some i
          | .txnAmount => (s.screen p).view.cur == some i
          | .balance => (s.screen p).view.cur == some i
          | .txnEquiv => i == 0
          | .overrideAmount => i == 0
          | _ => false)
       | .teller (some k) => t.drawers = s.drawers ∧ ∀ p, 1 ≤ p → p ≤ 24 →
          t.session p = (if (s.session p).teller = some k.id then { s.session p with role := some k.role }
            else s.session p) ∧
          ((s.session p).teller ≠ some k.id → t.screen p = s.screen p)
       | .position _ => t.sessions = s.sessions ∧
          (∀ d, d ≤ 24 → t.drawer d =
            if d ≠ i ∨ s.tables.serving i = t.tables.serving i then s.drawer d
            else if t.tables.serving i = true then { s.drawer d with physical := .unknown }
            else { s.drawer d with
              physical := .closed, openAlarm := none, releasePending := false, releaseDelivered := false
              openLong := false, forced := false }) ∧
          (s.tables.ownDrawer (i + 1) ≠ t.tables.ownDrawer (i + 1) →
            (t.screen (i + 1)).alert = (t.drawer (t.tables.ownDrawer (i + 1))).anyAlert ∧
            ∀ r, (t.screen (i + 1)).holds t.tables (fun y => match y with
              | .drawerValue _ => true | .drawerAvailable _ => true | .drawerCount _ _ => true | _ => false) r = true →
              1 ≤ r → r ≤ 24 → r ∈ (t.screen (i + 1)).dirty) ∧
          ∀ p, 1 ≤ p → p ≤ 24 → p ≠ i + 1 → t.tables.ownDrawer p ≠ i → t.screen p = s.screen p
       | _ => unchanged ∧ t.screens = s.screens)

/-- TABLE WRITE in the order of R13: with the index in range, a clear intent is a verify read whatever the level; otherwise
the first check that fails gives the refusal, which leaves every table and all else as it was. The lock level and the day state
together decide which sections accept a write (R20). That a write intent is clear at 0 alone, and that a flag byte above 1 inside a
content is BAD_CONTENT, are the MODEL's choices (notes/assumptions/5.md). -/
def Obligations.TableWriteChecksInOrder : Prop :=
  (∀ (s : State) (tag i : Nat) (x : Section) (intent : Byte) (content : List Byte),
    s.port.queue.length < 64 → i < 65536 → content.length = x.size →
    let answered (r : Reply) : Prop :=
      exec (.tableWrite tag (toByte x.code :: be 2 i ++ intent :: content)) s = .next (s.withReply r)
    let refused (o : MgmtOutcome) : Prop := answered (s.refusedReply 0x03 tag o)
    if x.hasIndex i = false then refused .badIndex
    else if intent = 0 then
      answered (s.doneReply 0x03 tag
        (flagByte (contentMatches x content (s.tables.read x i)) :: (s.tables.read x i).bytes))
    else if s.writable x = false then refused .locked
    else if x = .surveyMask ∧ s.survey.state = .running then refused .busy
    else match parseContent x content with
      | none => refused .badContent
      | some e =>
        if e.sound i = false ∨ e.agrees s.tables i = false then refused .badContent
        else match (if s.lock = 0 then none else (s.tables.store i e).crossCheck) with
          | some (c, y, k) =>
            answered { s.refusedReply 0x03 tag .badContent with check := c, section_ := y.code, index := k }
          | none => s.inUse i e = true → refused .inUse) ∧
  (∀ (s : State) (x : Section), s.lock ≤ 2 →
    (s.writable x = true ↔ x = .rates ∨ x = .tellers ∨ x = .surveyMask ∨ s.lock = 0 ∨
      (s.lock = 1 ∧ (s.day.state = .noDay ∨ s.day.state = .sent))))

/-- The five cross-reference checks (R19): none fails exactly when the tables meet all five; the failure named is that of the
first check that fails, at its lowest index. -/
def Obligations.CrossChecksInOrder : Prop :=
  ∀ t : Tables,
    let c1 (p : Nat) : Prop := ∀ e, t.position p = some e → (t.form e.defaultForm).isSome = true
    let c2 (i : Nat) : Prop := ∀ e f, rd t.codes i none = some e → e.answerForm = some f → (t.form f).isSome = true
    let c3 (i : Nat) : Prop := ∀ e, t.field i = some e → ∀ c d, e.source.currency = some (c, d) →
      ∃ k, t.currency c = some k ∧ ∀ n, d = some n → 1 ≤ n ∧ n ≤ k.faces.length
    let c4 : Prop := ∃ k, t.currency 0 = some k ∧ k.faces ≠ []
    let c5 : Prop := ∃ i e, rd t.codes i none = some e
    (t.crossCheck = none ↔
      (∀ p, 1 ≤ p → p ≤ 24 → c1 p) ∧ (∀ i, i < 128 → c2 i) ∧ (∀ i, i < 512 → c3 i) ∧ c4 ∧ c5) ∧
    (∀ n x k, t.crossCheck = some (n, x, k) →
      (n = 1 ∧ x = .positions ∧ 1 ≤ k ∧ k ≤ 24 ∧ ¬ c1 k ∧ ∀ p, 1 ≤ p → p < k → c1 p) ∨
      (n = 2 ∧ x = .codes ∧ k < 128 ∧ ¬ c2 k ∧ (∀ p, 1 ≤ p → p ≤ 24 → c1 p) ∧ ∀ i, i < k → c2 i) ∨
      (n = 3 ∧ x = .fields ∧ k < 512 ∧ ¬ c3 k ∧ (∀ p, 1 ≤ p → p ≤ 24 → c1 p) ∧ (∀ i, i < 128 → c2 i) ∧
        ∀ i, i < k → c3 i) ∨
      (n = 4 ∧ x = .currencies ∧ k = 0 ∧ ¬ c4 ∧ (∀ p, 1 ≤ p → p ≤ 24 → c1 p) ∧ (∀ i, i < 128 → c2 i) ∧
        ∀ i, i < 512 → c3 i) ∨
      (n = 5 ∧ x = .codes ∧ k = 0 ∧ ¬ c5 ∧ (∀ p, 1 ≤ p → p ≤ 24 → c1 p) ∧ (∀ i, i < 128 → c2 i) ∧
        (∀ i, i < 512 → c3 i) ∧ c4))

/-- LOCK by the level it finds (R19): any value but 1 and 2 is refused; at level 0 the cross-reference checks decide, and going
live gives each screen of a defined position the default form of its entry (R150); at level 1 LOCK 2 raises the level and
LOCK 1 changes nothing; at level 2 either changes nothing. -/
def Obligations.LockByLevel : Prop :=
  ∀ (s : State) (tag : Nat) (b : Byte), s.port.queue.length < 64 →
    (b ≠ 1 → b ≠ 2 → exec (.lock tag [b]) s = .next (s.withReply (s.refusedReply 0x05 tag .badContent))) ∧
    (b = 1 ∨ b = 2 →
      (s.lock = 0 → ∀ c x k, s.tables.crossCheck = some (c, x, k) → exec (.lock tag [b]) s =
        .next (s.withReply { s.refusedReply 0x05 tag .badContent with check := c, section_ := x.code, index := k })) ∧
      (s.lock = 0 → s.tables.crossCheck = none → ∃ u : State,
        u = { s with lock := b.toNat, screens := u.screens } ∧
        exec (.lock tag [b]) s = .next (u.withReply (u.doneReply 0x05 tag [])) ∧
        (∀ p e, s.tables.position p = some e → (u.screen p).form = e.defaultForm) ∧
        (∀ p, s.tables.position p = none → u.screen p = s.screen p)) ∧
      (s.lock = 1 → exec (.lock tag [b]) s = .next (({ s with lock := b.toNat } : State).withReply
        (({ s with lock := b.toNat } : State).doneReply 0x05 tag []))) ∧
      (2 ≤ s.lock → exec (.lock tag [b]) s = .next (s.withReply (s.doneReply 0x05 tag []))))

/-! ### The day (10) -/

/-- OPEN DAY (R181, R185, R125, R189): the journal is cleared to the OPEN record, the clock starts at 0, the date is taken,
settlement and batch are cleared, every drawer is carried forward, and the DAY notice stands before the reply
(notes/assumptions/19.md). The hundred ticks of
the clock's first second begin here, since the clock counts whole seconds since OPEN DAY (R174, notes/assumptions/21.md). -/
def Obligations.OpenDay : Prop :=
  ∀ (s : State) (tag : Nat) (date : List Byte), s.port.queue.length + 2 ≤ 64 → date.length = 8 → s.lock ≠ 0 →
    s.day.state = .noDay ∨ s.day.state = .sent → State.validDate date = true →
    ∃ u : State, exec (.openDay tag date) s = .next (u.withReply (u.doneReply 0x06 tag [])) ∧
      u = { s with port := (s.withFrame (.day .opened (some date))).port, drawers := u.drawers, screens := u.screens,
                   journal := { records := [{ seq := 1, clock := 0, body := .opened date }], claims := s.journal.claims,
                                closed := false }
                   day := { state := .opened, date := some date, clock := 0, running := true, phase := 0,
                            settlement := List.replicate 4 Figures.zero, lastSeq := 0, blocks := [], acked := 0, sent := 0,
                            highest := 0, expiries := 0, ackTimer := none } } ∧
      ∀ d, d ≤ 24 → u.drawer d = { s.drawer d with
        opening := #v[s.bookValue d 0, s.bookValue d 1, s.bookValue d 2, s.bookValue d 3], state := .active, recount := 0,
        ceiling := false, openLong := false, forced := false, openings := 0, postedToday := false }

/-- CUTOFF, CLOSE from a supervisor's screen unit, and REOPEN DAY, while completion waits (R186, R187, R188, R189): one record, the
day state, a DAY notice and the reply to a request; entries, drawers, sessions and the rest of the day record are kept. A CLOSE that
fails its checks shows ROLE or DAY_CLOSED and changes nothing. -/
def Obligations.CutoffCloseAndReopen : Prop :=
  ∀ (s : State) (tag : Nat), s.port.queue.length + 3 ≤ 64 →
    (∀ (b : State) (p seq : Nat), s.Awaits p 0 seq → 1 ≤ p → p ≤ 24 → b = (s.accepted p 0 seq).copyRole p →
      let shown (o : Shown) : Prop := ∃ u : State, exec (.close p seq) s = .next u ∧ u = { b with screens := u.screens } ∧
        Shows u p o ∧ ∀ q, q ≠ p → u.screen q = b.screen q
      (b.supervisor p = false → shown .role) ∧
      (b.supervisor p = true → s.day.state ≠ .opened → shown .dayClosed) ∧
      (b.supervisor p = true → s.day.state = .opened → s.canComplete = false → ∃ u : State,
        exec (.close p seq) s = .next u ∧ OnlyMarks b u ∧
        u = { b with screens := u.screens, day := { s.day with state := .cutoff }
                     journal := s.withRecord (.cutoff (some p) (s.session p).teller)
                     port := { s.port with
                       queue := s.port.queue ++ s.nearlyFullNotice ++ [.day .cutoff s.day.date]
                       transmitting := s.port.transmitting || s.port.olrdy } })) ∧
    (s.day.state = .opened → s.canComplete = false → ∃ u : State,
      exec (.cutoff tag []) s = .next (u.withReply (u.doneReply 0x07 tag [])) ∧ OnlyMarks s u ∧
      u = { s with screens := u.screens, day := { s.day with state := .cutoff }
                   journal := s.withRecord (.cutoff none none)
                   port := { s.port with
                     queue := s.port.queue ++ s.nearlyFullNotice ++ [.day .cutoff s.day.date]
                     transmitting := s.port.transmitting || s.port.olrdy } }) ∧
    (s.day.state = .cutoff → 1 ≤ s.generalSpace → s.journal.closed = false → ∃ u : State,
      exec (.reopenDay tag []) s = .next (u.withReply (u.doneReply 0x08 tag [])) ∧ OnlyMarks s u ∧
      u = { s with screens := u.screens, day := { s.day with state := .opened }
                   journal := s.withRecord .reopenDay
                   port := { s.port with
                     queue := s.port.queue ++ s.nearlyFullNotice ++ [.day .opened s.day.date]
                     transmitting := s.port.transmitting || s.port.olrdy } })

/-- Completion at a CUTOFF whose test passes (R178, R190, R191, R126, R192, R193). The test: no entry in use, drawers 1 to 24
BALANCED or exempt, the vault BALANCED. Its effects: the CUTOFF record, a SIGN_OFF record of cause CLOSING for each open session in
ascending position order and the SETTLEMENT record; every session ends; the release flags clear; the journal is closed and
packed; the day is SENDING; the DAY notices of CUTOFF and SENDING, the first blocks of the batch and the reply stand in the
upstream queue (R189, R193), with the nearly-full alarm at the record that reaches 15,360 (R180); the ack-wait timer runs; the
screens keep what they show and have their DAY_STATE and BUSINESS_DATE rows marked (R141's table; that it holds of BUSINESS_DATE
here, where R184 names OPEN DAY alone, is the MODEL's reading, notes/assumptions/33.md). -/
def Obligations.CutoffCompletes : Prop :=
  (∀ s : State, s.canComplete = true ↔
    (∀ i, i < 32 → s.entry i = none) ∧ (s.drawer 0).state = .balanced ∧
    ∀ d, 1 ≤ d → d ≤ 24 → (s.drawer d).state = .balanced ∨
      ((s.drawer d).state = .active ∧ (∀ c, c < 4 → s.bookValue d c = 0) ∧ (s.drawer d).postedToday = false)) ∧
  ∀ (s : State) (tag : Nat), s.WindowSound → s.port.queue.length + 8 ≤ 64 → s.day.state = .opened → s.canComplete = true →
    ∃ t : State, exec (.cutoff tag []) s = .next (t.withReply (t.doneReply 0x07 tag [])) ∧
      t = { s with port := t.port, sessions := t.sessions, drawers := t.drawers, screens := t.screens
                   journal := t.journal, day := t.day } ∧
      t.journal.records.map (·.body) = s.journal.records.map (·.body) ++ [.cutoff none none]
        ++ (allPositions.filter (fun p => (s.session p).state != .signedOff)).map
          (fun p => .signOff p ((s.session p).teller.getD 0) .closing)
        ++ [.settlement ((List.range 4).map s.figures) t.journal.records.length] ∧
      (s.journal.records <+: t.journal.records ∧
        ∀ i r, s.journal.records.length ≤ i → t.journal.records[i]? = some r → r.seq = i + 1 ∧ r.clock = s.day.clock) ∧
      t.journal.closed = true ∧ t.journal.claims = s.journal.claims ∧
      (∀ p, (t.session p).state = .signedOff) ∧
      (∀ d, d ≤ 24 → t.drawer d = { s.drawer d with releasePending := false, releaseDelivered := false }) ∧
      (let blocks := pack t.journal.records
       t.day = { s.day with
        state := .sending, settlement := (List.range 4).map s.figures, lastSeq := t.journal.records.length
        blocks := blocks, sent := min 4 blocks.length, highest := min 4 blocks.length
        ackTimer := some (s.day.ackTimer.getD s.tables.params.batchAck) } ∧ t.day.acked = 0 ∧
       (let crossed := s.journal.records.length < 15360 ∧ 15360 ≤ t.journal.records.length
        let atOnce := s.journal.records.length + 1 = 15360
        let nearlyFull (b : Prop) [Decidable b] : List UpFrame := if b then [.alarm .journalNearlyFull 0] else []
        t.port = { s.port with
          queue := s.port.queue ++ nearlyFull (crossed ∧ atOnce) ++ [.day .cutoff s.day.date] ++
            nearlyFull (crossed ∧ ¬ atOnce) ++ [.day .sending s.day.date] ++ (blocks.take 4).mapIdx (fun i b =>
              .block (i + 1) blocks.length ((t.journal.records.drop (b.first - 1)).take b.count))
          transmitting := s.port.transmitting || s.port.olrdy })) ∧
      ∀ p, 1 ≤ p → p ≤ 24 → ShowsAsBefore s t p ∧ (∀ r, 1 ≤ r → r ≤ 24 → r ∈ (s.screen p).dirty → r ∈ (t.screen p).dirty) ∧
        ((s.session p).state ≠ .signedOff → (t.screen p).override = false) ∧
        ∀ r, 1 ≤ r → r ≤ 24 →
          (t.screen p).holds s.tables (fun y => y == .dayState || y == .businessDate) r = true → r ∈ (t.screen p).dirty

/-- Packing (R192): the blocks stand in order and end to end, hold every record once, 1 to 32 of them and at most 1,000 bytes,
and the record after a block would break one of its limits. -/
def Obligations.PackingRespectsLimits : Prop :=
  ∀ records : List Record, (∀ r ∈ records, r.size ≤ 1000) →
    let blocks := pack records
    let held (b : Block) : List Record := (records.drop (b.first - 1)).take b.count
    blocks.flatMap held = records ∧
    ∀ k b, blocks[k]? = some b →
      b.first = 1 + ((blocks.take k).map (·.count)).sum ∧ 1 ≤ b.count ∧ b.count ≤ 32 ∧
      ((held b).map (·.size)).sum ≤ 1000 ∧
      ∀ r, records[b.first - 1 + b.count]? = some r → b.count = 32 ∨ 1000 < ((held b).map (·.size)).sum + r.size

/-- The send window at a freed slot (R193): as many blocks are queued as the block table, the window of four and the queue allow; in
every other day state none is. BATCH_ACK (R194, R198): an acknowledgment of a queued and unacknowledged block while SENDING or HELD
takes effect, and the last block's makes the day SENT. BATCH_NACK (R195): a nack of such a block while SENDING sets s back and the
window is tested. Any other is ignored and counted. -/
def Obligations.BatchAcknowledgments : Prop :=
  (∀ s : State, exec .sendWindow s = .next s.windowTested) ∧
  (∀ (n : Nat) (s : State),
    let taken (x : DayState) (timer : Option Nat) : State :=
      { s with day := { s.day with state := x, acked := n, sent := max s.day.sent n, expiries := 0, ackTimer := timer } }
    (¬ ((s.day.state = .sending ∨ s.day.state = .held) ∧ s.day.acked < n ∧ n ≤ s.day.highest) →
      exec (.batchAck n) s = .next { s with counters := { s.counters with
        batchAckIgnored := if s.counters.batchAckIgnored < 65535 then s.counters.batchAckIgnored + 1
                           else s.counters.batchAckIgnored } }) ∧
    (s.day.acked < n → n ≤ s.day.highest →
      (s.day.state = .sending → n ≠ s.day.blocks.length → exec (.batchAck n) s =
        .next (taken .sending (if n < s.day.highest then some s.tables.params.batchAck else none)).windowTested) ∧
      (s.day.state = .held → n ≠ s.day.blocks.length → exec (.batchAck n) s = .next (taken .held none)) ∧
      (s.day.state = .sending ∨ s.day.state = .held → n = s.day.blocks.length →
        ∃ t, exec (.batchAck n) s = .next t ∧ OnlyMarks s t ∧
          t = { taken .sent none with
            screens := t.screens
            port := if s.port.queue.length < 64 then (s.withFrame (.day .sent s.day.date)).port else s.port
            counters := if s.port.queue.length < 64 then s.counters
                        else { s.counters with noticeLost := oneMore s.counters.noticeLost } }))) ∧
  (∀ (n : Nat) (s : State),
    (s.day.state = .sending ∧ s.day.acked < n ∧ n ≤ s.day.highest →
      exec (.batchNack n) s = .next ({ s with day := { s.day with sent := n - 1 } } : State).windowTested) ∧
    (¬ (s.day.state = .sending ∧ s.day.acked < n ∧ n ≤ s.day.highest) →
      exec (.batchNack n) s = .next { s with counters := { s.counters with
        batchAckIgnored := if s.counters.batchAckIgnored < 65535 then s.counters.batchAckIgnored + 1
                           else s.counters.batchAckIgnored } }))

/-- The ack wait expires (R196), and RESUME BATCH (R197): seven expiries resend from the oldest unacknowledged block, the
eighth holds the batch with a BATCH_HELD alarm, and RESUME BATCH starts it again. -/
def Obligations.AckWaitExpiryAndResume : Prop :=
  ∀ s : State,
    (s.day.state = .sending → s.day.ackTimer ≠ none → s.day.expiries < 7 → exec .ackWaitExpiry s =
      .next ({ s with day := { s.day with
        expiries := s.day.expiries + 1, sent := s.day.acked
        ackTimer := some s.tables.params.batchAck } } : State).windowTested) ∧
    (s.day.state = .sending → s.day.ackTimer ≠ none → s.day.expiries = 7 → s.port.queue.length < 64 →
      ∃ t, exec .ackWaitExpiry s = .next t ∧ OnlyMarks s t ∧
        t = { s with port := (s.withFrame (.alarm .batchHeld 0)).port, screens := t.screens
                     day := { s.day with state := .held, expiries := 8, sent := s.day.acked, ackTimer := none } }) ∧
    (∀ tag, s.day.state = .held → s.port.queue.length + 6 ≤ 64 → ∃ u v : State, OnlyMarks s u ∧
      u = { s with port := (s.withFrame (.day .sending s.day.date)).port, screens := u.screens
                   day := { s.day with state := .sending, expiries := 0, sent := s.day.acked } } ∧
      v = u.windowTested ∧ exec (.resumeBatch tag []) s = .next (v.withReply (v.doneReply 0x09 tag [])))

/-! ### Requests in flight (04) -/

/-- An ANSWER that breaks its layout is dropped as a bad frame, and one that names no WAITING_CENTRE entry is late (R72). DECLINE on
a matched entry (R74): the reservations and the claim are released, DECLINED is shown with its reason, the answer form is applied
unless KEEP, a balance is passed on, the entry is freed, and completion is tested (R67, R190); no record is written and no notice
queued. -/
def Obligations.AnswerDeclines : Prop :=
  (∀ (s : State) (tag : Nat) (payload : List Byte),
    (payload.length < 14 ∨ (num payload 0 1 ≠ 1 ∧ num payload 0 1 ≠ 2) ∨ 31 < num payload 1 1 ∨ 24 < num payload 13 1 ∨
        payload.length ≠ 14 + 31 * num payload 13 1 →
      exec (.answer tag payload) s = .next { s with
        counters := { s.counters with linkBadFrame := if s.counters.linkBadFrame < 65535 then s.counters.linkBadFrame + 1
                                                      else s.counters.linkBadFrame }
        port := { s.port with prevFailed := true } }) ∧
    ((parseAnswer payload).isSome = true →
      (∀ i e, s.entry i = some e → e.tag = tag → e.state ≠ .waitingCentre) →
      exec (.answer tag payload) s = .next { s with
        counters := { s.counters with lateAnswer := if s.counters.lateAnswer < 65535 then s.counters.lateAnswer + 1
                                                    else s.counters.lateAnswer } })) ∧
  (∀ (s : State) (tag i : Nat) (payload : List Byte) (a : Answer) (e : Entry),
    s.EntriesSound → parseAnswer payload = some a → a.approve = false → s.entry i = some e → e.tag = tag →
    e.state = .waitingCentre → 1 ≤ e.req.pos → e.req.pos ≤ 24 →
    ∃ u : State, exec (.answer tag payload) s = .next u.testCompletion ∧
      u = { s with entries := wr s.entries i none, drawers := u.drawers, screens := u.screens
                   journal := { s.journal with claims := s.journal.claims - e.claim } } ∧
      u.entry i = none ∧ ReservationsReleased e.req.items s u ∧ Shows u e.req.pos (.declined a.reason) ∧
      (∀ f, e.req.snap.answerForm = some f → (u.screen e.req.pos).form = f) ∧
      (e.req.snap.answerForm = none → (u.screen e.req.pos).form = (s.screen e.req.pos).form) ∧
      (∀ b, a.balance = some b → (u.screen e.req.pos).view.balance = some b) ∧
      ∀ p, p ≠ e.req.pos → ShowsAsBefore s u p)

/-- APPROVE on a matched entry (R73, R86): an INQUIRY shows APPROVED and is freed; any other class takes the posting hand-off:
the items move into the books, the POST record is written against the claim, APPROVED is shown where no line was due and the
drawer units concerned are present, the entry is freed and completion is tested. -/
def Obligations.AnswerApproves : Prop :=
  ∀ (s : State) (tag i : Nat) (payload : List Byte) (a : Answer) (e : Entry),
    s.EntriesSound → parseAnswer payload = some a → a.approve = true → s.entry i = some e → e.tag = tag →
    e.state = .waitingCentre → 1 ≤ e.req.pos → e.req.pos ≤ 24 →
    ∃ u : State, exec (.answer tag payload) s = .next u.testCompletion ∧ u.entry i = none ∧
      (∀ f, e.req.snap.answerForm = some f → (u.screen e.req.pos).form = f) ∧
      (∀ b, a.balance = some b → (u.screen e.req.pos).view.balance = some b) ∧
      (e.req.snap.cls = .inquiry →
        u = { s with entries := wr s.entries i none, screens := u.screens } ∧ Shows u e.req.pos .approved ∧
        ∀ p, p ≠ e.req.pos → u.screen p = s.screen p) ∧
      (e.req.snap.cls ≠ .inquiry → BooksCover e.req.items s →
        u = { s with entries := wr s.entries i none, drawers := u.drawers, screens := u.screens, printers := u.printers,
                     store := u.store, line := { s.line with recs := u.line.recs }, port := u.port,
                     counters := u.counters
                     journal := { s.withRecord (e.req.postBody (some e.tag)) with claims := s.journal.claims - 1 } } ∧
        ItemsPosted e.req.items s u ∧
        (e.req.snap.print = false → (∀ d, s.tables.serving d = true → (s.unit d 2).presence = .present) →
          Shows u e.req.pos .approved ∧
          u = { u with printers := s.printers, store := s.store }))

/-- The print lines of an approval whose code prints (R86, R158, R159). Where the entry has the account of the book that the READY
or PRINTING printer holds, and the items left once those the job holds or that came before are passed over fit the line store and
the job's 32, they stand in the store at its lowest free places and at the end of the job's list, in order, the current item last,
and APPROVED is shown; a printer without a job gets one at the book's place. Where one of these fails nothing is queued and
NOT_PRINTED is shown. In both the drawer units concerned are present. The loop that a READY printer then takes is taken before the
outcome is shown (the MODEL's reading, notes/assumptions/30.md), and the free places are taken lowest first
(notes/assumptions/14.md). -/
def Obligations.PostingPrints : Prop :=
  ∀ (s : State) (tag i : Nat) (payload : List Byte) (a : Answer) (e : Entry),
    s.EntriesSound → parseAnswer payload = some a → a.approve = true → s.entry i = some e → e.tag = tag →
    e.state = .waitingCentre → e.req.snap.cls ≠ .inquiry → e.req.snap.print = true → 1 ≤ e.req.pos → e.req.pos ≤ 24 →
    (∀ d, s.tables.serving d = true → (s.unit d 2).presence = .present) →
    let p := e.req.pos
    let current : PrintLine := {
      item := a.item, date := s.day.date.getD [], mnemonic := e.req.snap.mnemonic, balance := a.balance
      amount := if e.req.snap.cls = .withdrawal then -(e.req.amount : Int) else e.req.amount }
    let items : List PrintLine := a.items.map (fun x =>
      { item := x.item, date := x.date, mnemonic := x.mnemonic, amount := x.amount, balance := x.balance }) ++ [current]
    let held : List Nat := ((s.printer p).job.map (·.lines)).getD []
    let names (n : Nat) : Prop := ∃ k x, k ∈ held ∧ rd s.store k none = some x ∧ x.item = n
    let free : List Nat := (List.range 256).filter (fun k => (rd s.store k none).isNone)
    ∃ (u : State) (fresh : List PrintLine), exec (.answer tag payload) s = .next u.testCompletion ∧
      (fresh.Sublist items ∧ (fresh.map (·.item)).Nodup ∧
        (∀ x, x ∈ fresh → ¬ names x.item ∧ items.find? (fun y => y.item == x.item) = some x) ∧
        ∀ x, x ∈ items → names x.item ∨ ∃ y, y ∈ fresh ∧ y.item = x.item) ∧
      (let fits : Prop := ∃ b, (s.printer p).book = some b ∧ e.req.account = some b.account ∧
        ((s.printer p).state = .ready ∨ (s.printer p).state = .printing) ∧ fresh.length ≤ free.length ∧
        held.length + fresh.length ≤ 32
       (¬ fits → u.printers = s.printers ∧ u.store = s.store ∧ Shows u p .notPrinted) ∧
       (fits → Shows u p .approved ∧
        (fresh = [] → u.printers = s.printers ∧ u.store = s.store) ∧
        ∀ b, (s.printer p).book = some b → fresh ≠ [] →
          let job : Job :=
            { ((s.printer p).job.getD {
                account := b.account, layout := b.layout, lines := [], next := 1, confirmed := 0, page := b.page
                line := b.line, owed := none, pacing := none, bookWait := none }) with
              lines := held ++ free.take fresh.length }
          let stored (v : State) : Prop := ∀ n, rd v.store n none =
            (((free.zip fresh).find? (fun y => y.1 == n)).map (·.2)).or (rd s.store n none)
          ((s.printer p).state = .printing →
            u.printers = wr1 s.printers p { s.printer p with job := some job } ∧ stored u) ∧
          ((s.printer p).state = .ready → ∃ v : State,
            v = { s with store := v.store, printers := wr1 s.printers p { s.printer p with job := some job } } ∧ stored v ∧
            u.printers = (v.printLoop p).printers ∧ u.store = (v.printLoop p).store)))

/-- The approval wait runs out, or the position cancels (R75, R77, R78): the entry is REVERSING with its reservations released
and its EXPIRED record written against its claim, the outcome is shown, and its REVERSAL notice is queued and the entry freed;
where the record's nearly-full alarm takes the last slot, or the queue is full, the entry keeps its place. An INQUIRY is freed at
once. -/
def Obligations.CentreWaitEnds : Prop :=
  ∀ (s b : State) (c : Instr) (i p seq : Nat) (e : Entry) (reason : ExpiryReason) (o : Shown),
    s.EntriesSound → s.entry i = some e → e.state = .waitingCentre → e.req.pos = p → 1 ≤ p → p ≤ 24 →
    (c = .approvalWaitExpiry i ∧ e.timer ≠ none ∧ b = s ∧ reason = .timeout ∧ o = .noAnswer) ∨
      (c = .cancel p seq ∧ s.Awaits p 0 seq ∧ b = s.accepted p 0 seq ∧ reason = .cancelled ∧ o = .cancelled) →
    (e.req.snap.cls = .inquiry → ∃ u : State, exec c s = .next u.testCompletion ∧ Shows u p o ∧
      u = { b with entries := wr s.entries i none, screens := u.screens }) ∧
    (e.req.snap.cls ≠ .inquiry → s.port.queue.length + s.nearlyFullNotice.length < 64 →
      ∃ u : State, exec c s = .next u.testCompletion ∧ Shows u p o ∧ ReservationsReleased e.req.items s u ∧
        u = { b with entries := wr s.entries i none, screens := u.screens, drawers := u.drawers
                     journal := { s.withRecord (e.expiredBody reason) with claims := s.journal.claims - 1 }
                     port := { s.port with
                       queue := s.port.queue ++ s.nearlyFullNotice ++ [.reversal e.tag reason]
                       transmitting := s.port.transmitting || s.port.olrdy } }) ∧
    (e.req.snap.cls ≠ .inquiry → 64 ≤ s.port.queue.length + s.nearlyFullNotice.length →
      ∃ u : State, exec c s = .next u.testCompletion ∧ Shows u p o ∧ ReservationsReleased e.req.items s u ∧
        u.entry i = some { e with
          state := .reversing, granted := false, req := { e.req with items := [] }, claim := e.claim - 1, timer := none
          reason := some reason } ∧
        (∀ j, j ≠ i → u.entry j = s.entry j) ∧
        u = { b with entries := u.entries, screens := u.screens, drawers := u.drawers
                     port := s.portAfterRecord, counters := s.countersAfterRecord
                     journal := { s.withRecord (e.expiredBody reason) with claims := s.journal.claims - 1 } })

/-- A waiting override ends without a grant: its wait runs out, the position cancels, or a supervisor refuses it (R78, R80,
R84). It leaves the list, its reservations and claim are released, the outcome is shown at its position, and it is freed;
no record is written and no notice queued. -/
def Obligations.OverrideWaitEnds : Prop :=
  ∀ (s b : State) (c : Instr) (i p q seq : Nat) (e : Entry) (o : Shown),
    s.EntriesSound → s.entry i = some e → e.state = .waitingOverride → e.req.pos = p → 1 ≤ p → p ≤ 24 →
    (c = .overrideWaitExpiry i ∧ e.timer ≠ none ∧ b = s ∧ o = .noOverride) ∨
      (c = .cancel p seq ∧ s.Awaits p 0 seq ∧ b = s.accepted p 0 seq ∧ o = .cancelled) ∨
      (c = .override q seq e.tag 2 ∧ s.Awaits q 0 seq ∧ b = (s.accepted q 0 seq).copyRole q ∧ b.supervisor q = true ∧
        e.granted = false ∧ (s.session q).teller ≠ some e.req.teller ∧ (s.session q).teller ≠ none ∧
        o = .overrideRefused) →
    ∃ u : State, exec c s = .next u.testCompletion ∧ u.entry i = none ∧
      u = { b with entries := wr s.entries i none, overrides := s.overrides.filter (· != i), screens := u.screens
                   drawers := u.drawers, journal := { s.journal with claims := s.journal.claims - e.claim } } ∧
      ReservationsReleased e.req.items s u ∧ Shows u p o ∧ ∀ r, r ≠ p → ShowsAsBefore b u r

/-- OVERRIDE GRANT that passes its checks (R81, R82, R83): the entry leaves the list, the OVERRIDE record is written against
one of its claims, and a LOCAL entry is posted and freed, while a CENTRAL one goes to the centre, or stays with grant taken set
when the upstream queue is full, by the record's nearly-full alarm too. -/
def Obligations.OverrideGranted : Prop :=
  ∀ (s b : State) (i q seq : Nat) (e : Entry) (sup : Nat),
    s.EntriesSound → s.entry i = some e → e.state = .waitingOverride → e.granted = false →
    1 ≤ e.req.pos → e.req.pos ≤ 24 → s.Awaits q 0 seq → b = (s.accepted q 0 seq).copyRole q → b.supervisor q = true →
    (s.session q).teller = some sup → sup ≠ e.req.teller → e.req.equiv.getD 0 ≤ s.overrideLimit sup →
    (e.req.snap.auth = .central → s.port.queue.length + s.nearlyFullNotice.length < 64 → ∃ u : State,
      exec (.override q seq e.tag 1) s = .next u ∧
      (u.screen e.req.pos).view.stateMsg = some .waiting ∧
      u = { b with
        overrides := s.overrides.filter (· != i), screens := u.screens
        entries := wr s.entries i (some { e with
          state := .waitingCentre, granted := false, claim := e.claim - 1, timer := some s.tables.params.approval })
        journal := { s.withRecord (e.overrideBody sup) with claims := s.journal.claims - 1 }
        port := { s.port with
          queue := s.port.queue ++ s.nearlyFullNotice ++ [.request e.centreRequest]
          transmitting := s.port.transmitting || s.port.olrdy } }) ∧
    (e.req.snap.auth = .central → 64 ≤ s.port.queue.length + s.nearlyFullNotice.length → ∃ u : State,
      exec (.override q seq e.tag 1) s = .next u ∧ (u.screen e.req.pos).view.stateMsg = some .queued ∧
      u = { b with
        overrides := s.overrides.filter (· != i), screens := u.screens
        port := s.portAfterRecord, counters := s.countersAfterRecord
        entries := wr s.entries i (some { e with granted := true, claim := e.claim - 1, timer := none })
        journal := { s.withRecord (e.overrideBody sup) with claims := s.journal.claims - 1 } }) ∧
    (e.req.snap.auth = .branch → BooksCover e.req.items s → ∃ u : State,
      exec (.override q seq e.tag 1) s = .next u.testCompletion ∧ ItemsPosted e.req.items s u ∧
      u.journal.claims = s.journal.claims - 1 - 1 ∧
      u.journal.records.map (·.body) =
        s.journal.records.map (·.body) ++ [e.overrideBody sup, e.req.postBody (some e.tag)] ∧
      u = { b with
        overrides := s.overrides.filter (· != i), screens := u.screens, entries := wr s.entries i none
        drawers := u.drawers, line := { b.line with recs := u.line.recs }, port := u.port, counters := u.counters
        journal := u.journal })

/-- The checks of OVERRIDE in order (R81): a decision of another value is discarded and counted; ROLE without a supervisor
session, ROLE for the supervisor's own request, TOO_LATE without an entry that waits ungranted, OVER_LIMIT for a grant above
the supervisor's limit. The outcome is shown at the sender and no entry changes. -/
def Obligations.OverrideChecked : Prop :=
  ∀ (s b : State) (q seq tag decision : Nat), s.Awaits q 0 seq → 1 ≤ q → q ≤ 24 → b = (s.accepted q 0 seq).copyRole q →
    let shown (o : Shown) : Prop := ∃ u : State, exec (.override q seq tag decision) s = .next u ∧
      u = { b with screens := u.screens } ∧ Shows u q o ∧ ∀ p, p ≠ q → u.screen p = b.screen p
    (decision ≠ 1 → decision ≠ 2 → exec (.override q seq tag decision) s = .next { s.accepted q 0 seq with
      counters := { s.counters with lineBadMessage := if s.counters.lineBadMessage < 65535
                                      then s.counters.lineBadMessage + 1 else s.counters.lineBadMessage } }) ∧
    (decision = 1 ∨ decision = 2 →
      (b.supervisor q = false → shown .role) ∧
      (b.supervisor q = true →
        ((∀ i e, s.entry i = some e → e.tag = tag → e.state ≠ .waitingOverride) → shown .tooLate) ∧
        (s.EntriesSound → ∀ i e sup, s.entry i = some e → e.tag = tag → e.state = .waitingOverride →
          (s.session q).teller = some sup →
          (e.req.teller = sup → shown .role) ∧
          (e.req.teller ≠ sup → e.granted = true → shown .tooLate) ∧
          (e.req.teller ≠ sup → e.granted = false → decision = 1 → s.overrideLimit sup < e.req.equiv.getD 0 →
            shown .overLimit))))

/-- Freed slots of the upstream queue (R77, R83): the notice of a REVERSING entry is queued and the entry freed; the REQUEST of
a granted entry is queued and the entry becomes WAITING_CENTRE. With a full queue, without an entry, or with one in another state,
nothing changes. -/
def Obligations.FreedSlotsFilled : Prop :=
  ∀ (s : State) (i : Nat),
    (∀ e, s.entry i = some e → s.port.queue.length < 64 →
      (e.state = .reversing → exec (.reversalNoticeQueued i) s = .next
        ({ s with port := (s.withFrame (.reversal e.tag (e.reason.getD .timeout))).port
                  entries := wr s.entries i none } : State).testCompletion) ∧
      (e.state = .waitingOverride → e.granted = true → ∃ u : State, exec (.grantedRequestQueued i) s = .next u ∧
        u = { s with port := (s.withFrame (.request e.centreRequest)).port, screens := u.screens
                     entries := wr s.entries i (some { e with
                       state := .waitingCentre, granted := false, timer := some s.tables.params.approval }) } ∧
        (1 ≤ e.req.pos → e.req.pos ≤ 24 → (u.screen e.req.pos).view.stateMsg = some .waiting) ∧
        ∀ p, p ≠ e.req.pos → u.screen p = s.screen p)) ∧
    (64 ≤ s.port.queue.length ∨ (∀ e, s.entry i = some e → e.state ≠ .reversing) →
      exec (.reversalNoticeQueued i) s = .next s) ∧
    (64 ≤ s.port.queue.length ∨ (∀ e, s.entry i = some e → e.state ≠ .waitingOverride ∨ e.granted = false) →
      exec (.grantedRequestQueued i) s = .next s)

/-! ### The arrival of a message, and sessions (02, 03) -/

/-- In SELECTED_SEND a message of the selected unit is answered ACCEPT and its transfer ends (R38): one whose sequence is the last
accepted is not delivered again, and one that breaks its kind, size or value is discarded and counted (R40, R204). A message frame
whose kind is a row of the table is that row's command, for every kind of each unit. -/
def Obligations.MessageReachesItsOwnerOnce : Prop :=
  ∀ (s : State) (p u kind seq : Nat) (payload : List Byte),
    (let n := payload.length
     let broken : Prop :=
      (u = 0 ∧ (kind = 0 ∨ 12 < kind ∨ ((kind = 1 ∨ kind = 4) ∧ n ≠ 2) ∨
        ((kind = 2 ∨ kind = 3 ∨ kind = 6 ∨ kind = 12) ∧ n ≠ 0) ∨ (kind = 7 ∧ n ≠ 3) ∨ ((kind = 9 ∨ kind = 11) ∧ n ≠ 1) ∨
        (kind = 5 ∧ (n < 31 ∨ 20 < num payload 8 1 ∨ (12 < num payload 29 1 ∧ num payload 29 1 ≠ 255))) ∨
        ((kind = 8 ∨ kind = 10) ∧ (n < 5 ∨ 12 < num payload 1 1)))) ∨
      (u = 1 ∧ (kind = 0 ∨ 3 < kind ∨ (kind = 1 ∧ (n ≠ 24 ∨ 20 < num payload 0 1)) ∨ (kind = 2 ∧ n ≠ 0) ∨
        (kind = 3 ∧ (n ≠ 1 ∨ num payload 0 1 = 0 ∨ 5 < num payload 0 1)))) ∨
      (u = 2 ∧ (kind = 0 ∨ 3 < kind ∨ n ≠ 0)) ∨ 2 < u
     s.Awaits p u seq → broken ∨ parseMessage u kind payload = .bad →
      exec (.lineBadMessage p u kind seq payload) s = .next { s.accepted p u seq with
        counters := { s.counters with lineBadMessage := if s.counters.lineBadMessage < 65535
                                        then s.counters.lineBadMessage + 1 else s.counters.lineBadMessage } }) ∧
    (∀ x, s.line.engine = .selectedSend x → x.pos = p → x.unit = u → s.line.discarding = false →
      (s.unit p u).lastIn = some seq →
      exec (.repeatMessage p u kind seq payload) s = .next (s.accepted p u seq)) ∧
    (∀ n : Nat, n < 65536 →
      exec (.repeatMessage p 0 1 seq (be 2 n)) s = exec (.signOn p seq n) s ∧
      exec (.repeatMessage p 0 4 seq (be 2 n)) s = exec (.resume p seq n) s ∧
      ∀ d : Nat, d < 256 → exec (.repeatMessage p 0 7 seq (be 2 n ++ [toByte d])) s = exec (.override p seq n d) s) ∧
    (∀ r, r.wellFormed = true → exec (.repeatMessage p 0 5 seq (requestBytes r)) s = exec (.request p seq r) s) ∧
    (∀ d lists, d < 256 → fitsLists lists = true →
      exec (.repeatMessage p 0 8 seq (toByte d :: listsBytes lists)) s = exec (.count p seq d lists) s ∧
      exec (.repeatMessage p 0 10 seq (toByte d :: listsBytes lists)) s = exec (.acceptDiff p seq d lists) s) ∧
    (∀ n : Nat, n < 256 →
      exec (.repeatMessage p 0 9 seq [toByte n]) s = exec (.reopen p seq n) s ∧
      exec (.repeatMessage p 0 11 seq [toByte n]) s = exec (.form p seq n) s) ∧
    (exec (.repeatMessage p 0 2 seq []) s = exec (.signOff p seq) s ∧
      exec (.repeatMessage p 0 3 seq []) s = exec (.suspend p seq) s ∧
      exec (.repeatMessage p 0 6 seq []) s = exec (.cancel p seq) s ∧
      exec (.repeatMessage p 0 12 seq []) s = exec (.close p seq) s) ∧
    (∀ (account : Text) (layout page place : Nat), account.length ≤ 20 → layout < 256 → page < 256 → place < 256 →
      exec (.repeatMessage p 1 1 seq (textField 20 account ++ [toByte layout, toByte page, toByte place])) s =
        exec (.bookIn p seq account layout page place) s) ∧
    (exec (.repeatMessage p 1 2 seq []) s = exec (.bookOut p seq) s ∧
      exec (.repeatMessage p 1 3 seq [1]) s = exec (.statusReady p seq) s ∧
      exec (.repeatMessage p 1 3 seq [2]) s = exec (.lineDone p seq) s ∧
      exec (.repeatMessage p 1 3 seq [3]) s = exec (.jam p seq) s ∧
      exec (.repeatMessage p 1 3 seq [4]) s = exec (.jamCleared p seq) s ∧
      exec (.repeatMessage p 1 3 seq [5]) s = exec (.turned p seq) s) ∧
    exec (.repeatMessage p 2 1 seq []) s = exec (.opened p seq) s ∧
    exec (.repeatMessage p 2 2 seq []) s = exec (.closed p seq) s ∧
    exec (.repeatMessage p 2 3 seq []) s = exec (.fault p seq) s

/-- SIGN_ON (R52): the first check that fails gives the outcome, shown at the position, and nothing else changes; a sign-on
that passes sets the session, appends a SIGN_ON record, leaves the last outcome and gives the screen its default form
(R150).
A closed journal refuses the record (R179, notes/assumptions/24.md). -/
def Obligations.SignOn : Prop :=
  ∀ (s b : State) (p seq teller : Nat), s.Awaits p 0 seq → b = s.accepted p 0 seq → 1 ≤ p → p ≤ 24 →
    let refusal : Option Shown :=
      if s.lock = 0 then some .notLive
      else if s.day.state ≠ .opened ∧ s.day.state ≠ .cutoff then some .dayClosed
      else if (s.session p).state ≠ .signedOff then some .busy
      else if s.tables.findTeller teller = none then some .notSignedOn
      else if s.heldElsewhere p teller = true then some .busy
      else if s.generalSpace < 1 ∨ s.journal.closed = true then some .journalFull
      else none
    (∀ o, refusal = some o → ∃ u : State, exec (.signOn p seq teller) s = .next u ∧ u = { b with screens := u.screens } ∧
      Shows u p o ∧ ∀ q, q ≠ p → u.screen q = s.screen q) ∧
    (refusal = none → ∃ u e, exec (.signOn p seq teller) s = .next u ∧
      s.tables.findTeller teller = some e ∧
      u = { b with sessions := wr1 s.sessions p { state := .signedOn, teller := some teller, role := some e.role }
                   screens := u.screens, journal := s.withRecord (.signOn p teller), port := s.portAfterRecord
                   counters := s.countersAfterRecord } ∧
      (u.screen p).last = (s.screen p).last ∧ (u.screen p).view = (s.screen p).view ∧
      (∀ x, s.tables.position p = some x → (u.screen p).form = x.defaultForm) ∧ ∀ q, q ≠ p → u.screen q = s.screen q)

/-- SIGN_OFF (R53): NOT_SIGNED_ON in SIGNED_OFF, BUSY with a waiting entry of the position, JOURNAL_FULL with no free record beyond
the claims; otherwise the session ends with a SIGN_OFF record, from SUSPENDED as from SIGNED_ON. SUSPEND (R54) and RESUME (R55), by
the session's state; neither writes a record.
A closed journal refuses the record (R179, notes/assumptions/24.md). -/
def Obligations.SignOffSuspendAndResume : Prop :=
  (∀ (s b : State) (p seq : Nat), s.Awaits p 0 seq → b = s.accepted p 0 seq → 1 ≤ p → p ≤ 24 →
    let shown (o : Shown) : Prop := ∃ u : State, exec (.signOff p seq) s = .next u ∧ u = { b with screens := u.screens } ∧
      Shows u p o ∧ ∀ q, q ≠ p → u.screen q = s.screen q
    ((s.session p).state = .signedOff → shown .notSignedOn) ∧
    ((s.session p).state ≠ .signedOff → s.HasWaiting p → shown .busy) ∧
    ((s.session p).state ≠ .signedOff → ¬ s.HasWaiting p → s.generalSpace < -63 ∨ s.journal.closed = true →
      shown .journalFull) ∧
    ((s.session p).state ≠ .signedOff → ¬ s.HasWaiting p → -63 ≤ s.generalSpace → s.journal.closed = false →
      ∃ u : State, exec (.signOff p seq) s = .next u ∧
        u = { b with sessions := wr1 s.sessions p { state := .signedOff, teller := none, role := none }
                     screens := u.screens, port := s.portAfterRecord, counters := s.countersAfterRecord
                     journal := s.withRecord (.signOff p ((s.session p).teller.getD 0) .teller) } ∧
        (∀ q, ShowsAsBefore s u q) ∧ ∀ q, q ≠ p → u.screen q = s.screen q)) ∧
  (∀ (s b : State) (p seq teller : Nat), s.Awaits p 0 seq → b = s.accepted p 0 seq → 1 ≤ p → p ≤ 24 →
    let shown (c : Instr) (o : Shown) : Prop := ∃ u : State, exec c s = .next u ∧ u = { b with screens := u.screens } ∧
      Shows u p o ∧ ∀ q, q ≠ p → u.screen q = s.screen q
    let becomes (c : Instr) (x : Session) : Prop := ∃ u : State, exec c s = .next u ∧
      u = { b with sessions := wr1 s.sessions p x, screens := u.screens } ∧
      ShowsAsBefore s u p ∧ ∀ q, q ≠ p → u.screen q = s.screen q
    ((s.session p).state = .signedOn →
      becomes (.suspend p seq) { s.session p with state := .suspended } ∧ exec (.resume p seq teller) s = .next b) ∧
    ((s.session p).state = .suspended → exec (.suspend p seq) s = .next b ∧
      ((s.session p).teller ≠ some teller → shown (.resume p seq teller) .suspended) ∧
      ((s.session p).teller = some teller → ∀ e, s.tables.findTeller teller = some e →
        becomes (.resume p seq teller) { state := .signedOn, teller := some teller, role := some e.role })) ∧
    ((s.session p).state = .signedOff →
      shown (.suspend p seq) .notSignedOn ∧ shown (.resume p seq teller) .notSignedOn))

/-! ### Requests (03, 05) -/

/-- A request that fails one of the checks 1 to 17 is refused with the outcome of the first (R58 to R62, R105): the outcome is
shown, REFUSED rises, the view takes the request as keyed, and the screen takes the answer form of a known code unless KEEP;
no reservation, claim, record, entry or frame is made. The view of an INQUIRY has no amount (the MODEL's reading,
notes/assumptions/15.md), a keyed code of 0 stands in it (29.md), and check 10 reads a keyed breakdown as
notes/assumptions/16.md says. -/
def Obligations.RequestRefused : Prop :=
  ∀ (s b : State) (p seq : Nat) (r : Request) (f : Refused), s.Awaits p 0 seq → 1 ≤ p → p ≤ 24 →
    b = (s.accepted p 0 seq).copyRole p → b.firstRefusal p r = some f →
    ∃ u : State, exec (.request p seq r) s = .next u ∧
      u = { b with screens := u.screens, counters := { s.counters with
        refused := if s.counters.refused < 65535 then s.counters.refused + 1 else s.counters.refused } } ∧
      Shows u p f.outcome ∧
      (u.screen p).view = {
        code := some r.code, mnemonic := (s.tables.findCode r.code).map (·.mnemonic), cur := some r.cur
        amount := if (s.tables.findCode r.code).map (·.cls) = some .inquiry then none else some r.amount
        equiv := f.cash, account := r.account, stateMsg := some (.shown f.outcome), balance := none } ∧
      (u.screen p).form = (((s.tables.findCode r.code).bind (·.answerForm)).getD (s.screen p).form) ∧
      ∀ q, q ≠ p → u.screen q = b.screen q

/-- A request that passes the checks makes its reservations and takes one of its ways (R64, R65, R69, R70, R71): CENTRAL without
override, an entry in WAITING_CENTRE with its REQUEST frame queued and the approval wait loaded; with override, an entry in
WAITING_OVERRIDE at the tail of the override order list. The entry stands at the lowest free index with a tag no entry holds. Its
captured fields are the request's, the code snapshot, and the rate read for E (R68, R91). The view and the entry of an INQUIRY carry
no amount (the MODEL's reading, notes/assumptions/15.md). -/
def Obligations.RequestWaits : Prop :=
  ∀ (s b : State) (p seq : Nat) (r : Request) (e : CodeEntry) (x : Passed), s.Awaits p 0 seq → 1 ≤ p → p ≤ 24 →
    b = (s.accepted p 0 seq).copyRole p → b.firstRefusal p r = none → s.tables.findCode r.code = some e →
    b.checksFrom8 p r e = .ok x → e.auth = .central ∨ e.cls = .inquiry ∨ x.override = true →
    ∃ (u : State) (i tag : Nat), exec (.request p seq r) s = .next u ∧
      s.entry i = none ∧ i < 32 ∧ (∀ j, j < i → s.entry j ≠ none) ∧ 1 ≤ tag ∧ tag ≤ 65535 ∧
      (∀ j f, s.entry j = some f → f.tag ≠ tag) ∧ ReservationsMade x.items b u ∧
      (u.screen p).form = (b.screen p).form ∧ (u.screen p).last = (b.screen p).last ∧
      (u.screen p).view = {
        code := some r.code, mnemonic := some e.mnemonic, cur := some r.cur
        amount := if e.cls = .inquiry then none else some r.amount
        equiv := (match x.exch with | some g => some g.cash | none => x.equiv), account := r.account
        stateMsg := some (if x.override then .shown .needsOverride else .waiting), balance := none } ∧
      (let captured : Captured := {
        pos := p, teller := ((s.session p).teller.getD 0), own := s.tables.ownDrawer p
        snap := {
          code := e.code, cls := e.cls, auth := e.auth, print := e.print, mnemonic := e.mnemonic
          answerForm := e.answerForm
          target := match e.cls with
            | .nonCash => [] | .inquiry => []
            | .transferIn => [s.tables.ownDrawer p, 0] | .transferOut => [s.tables.ownDrawer p, 0]
            | .delivery => [0] | .shipment => [0]
            | _ => [s.tables.ownDrawer p] }
        cur := r.cur, amount := if e.cls = .inquiry then 0 else r.amount, equiv := x.equiv, exch := x.exch
        rate := match e.cls with
          | .exchangeBuy => some (s.tables.buyRate r.cur)
          | .exchangeSell => some (s.tables.sellRate r.cur)
          | .inquiry => none
          | _ => if r.cur = 0 then none else some (s.tables.buyRate r.cur)
        items := x.items, reqList := x.reqList, homeList := x.homeList, account := r.account }
       let entry : Entry := {
        tag := tag, state := if x.override then .waitingOverride else .waitingCentre, granted := false
        req := captured, claim := if e.cls = .inquiry then 0 else if x.override then 2 else 1
        timer := some (if x.override then s.tables.params.overrideWait else s.tables.params.approval), reason := none }
       u = { b with
        entries := wr s.entries i (some entry), tagCounter := tag, drawers := u.drawers, screens := u.screens
        overrides := if x.override then s.overrides ++ [i] else s.overrides
        journal := { s.journal with claims := s.journal.claims + entry.claim }
        port := if x.override then s.port else (s.withFrame (.request entry.centreRequest)).port })

/-- A LOCAL request that passes the checks and needs no override is posted at once (R65, R86): its items enter the books, its
POST record without a tag is written with its claim of 1 taken and used, no entry is made, and completion is tested; it shows
APPROVED where the drawer units concerned are present. -/
def Obligations.RequestPostedAtOnce : Prop :=
  ∀ (s b : State) (p seq : Nat) (r : Request) (e : CodeEntry) (x : Passed), s.Awaits p 0 seq → 1 ≤ p → p ≤ 24 →
    b = (s.accepted p 0 seq).copyRole p → b.firstRefusal p r = none → s.tables.findCode r.code = some e →
    b.checksFrom8 p r e = .ok x → e.auth = .branch → e.cls ≠ .inquiry → x.override = false → BooksCover x.items s →
    ∃ u : State, exec (.request p seq r) s = .next u.testCompletion ∧
      u = { b with
        drawers := u.drawers, screens := u.screens, line := { b.line with recs := u.line.recs }, port := u.port
        counters := u.counters, journal := s.withRecord ((b.capture p r e x).postBody none) } ∧
      (∀ d, d ≤ 24 → (∀ c k, c < 4 → 1 ≤ k → k ≤ 12 →
        countAt (u.drawer d).book c k + itemSum x.items true d c k =
          countAt (s.drawer d).book c k + itemSum x.items false d c k ∧
        countAt (u.drawer d).reserved c k = countAt (s.drawer d).reserved c k ∧
        countAt (u.drawer d).incoming c k = countAt (s.drawer d).incoming c k) ∧
        (u.drawer d).postedToday = ((s.drawer d).postedToday || x.items.any (fun i => i.drawer == d))) ∧
      ((∀ d, s.tables.serving d = true → (s.unit d 2).presence = .present) → Shows u p .approved)

/-- What a posting does to the drawers it names, beyond the books (R86, R106, R107), at the acceptance of a LOCAL request that needs
no override and at an approval. A drawer with a serving unit is release-pending, and a RELEASE joins that unit's queue under URGENT
unless one waits there; where the unit is not present it is not offered, and DRAWER_NOT_RELEASED is shown at the drawer's positions
in place of the outcome. CEILING is set exactly where some currency's book value is above its ceiling, and an alarm is offered for
each drawer that newly is, in ascending order, before the nearly-full alarm of the POST record (the MODEL's reading of the order,
notes/assumptions/12.md). A drawer not named is as it was. At
the requesting position the rows of the view, TXN_STATE and MESSAGE are marked. -/
def Obligations.PostingReleases : Prop :=
  ∀ (s b : State) (c : Instr) (p seq : Nat) (items : List Item), s.port.queue.length + 26 ≤ 64 → 1 ≤ p → p ≤ 24 →
    (∃ (r : Request) (e : CodeEntry) (x : Passed), c = .request p seq r ∧ s.Awaits p 0 seq ∧
        b = (s.accepted p 0 seq).copyRole p ∧ b.firstRefusal p r = none ∧ s.tables.findCode r.code = some e ∧
        b.checksFrom8 p r e = .ok x ∧ e.auth = .branch ∧ e.cls ≠ .inquiry ∧ x.override = false ∧ items = x.items) ∨
      (∃ (tag i : Nat) (payload : List Byte) (a : Answer) (e : Entry), c = .answer tag payload ∧ b = s ∧
        s.EntriesSound ∧ parseAnswer payload = some a ∧ a.approve = true ∧ s.entry i = some e ∧ e.tag = tag ∧
        e.state = .waitingCentre ∧ e.req.snap.cls ≠ .inquiry ∧ e.req.pos = p ∧ items = e.req.items) →
    let named (d : Nat) : Prop := ∃ x, x ∈ items ∧ x.drawer = d
    let waits (d : Nat) : Prop := ∃ q, q ∈ (s.unit d 2).queue ∧ q.msg = .release
    ∃ u : State, exec c s = .next u.testCompletion ∧
      (∀ d, d ≤ 24 → ¬ named d → u.drawer d = s.drawer d ∧ (u.unit d 2).queue = (s.unit d 2).queue) ∧
      (∀ d, d ≤ 24 → named d →
        ((u.drawer d).ceiling = true ↔ ∃ k e, s.tables.currency k = some e ∧ 0 < e.ceiling ∧ e.ceiling < u.bookValue d k) ∧
        (s.tables.serving d = false → (u.drawer d).releasePending = (s.drawer d).releasePending ∧
          (u.unit d 2).queue = (s.unit d 2).queue) ∧
        (s.tables.serving d = true → (u.drawer d).releasePending = true ∧
          (s.offerAnswer d 2 = .taken → ¬ waits d →
            (u.unit d 2).queue = (s.unit d 2).queue ++ [{ msg := .release, cls := .urgent }]) ∧
          (s.offerAnswer d 2 ≠ .taken ∨ waits d → (u.unit d 2).queue = (s.unit d 2).queue) ∧
          (s.offerAnswer d 2 = .undelivered → ¬ waits d →
            ∀ q, 1 ≤ q → q ≤ 24 → s.tables.ownDrawer q = d → Shows u q .drawerNotReleased))) ∧
      (let alarms : List UpFrame :=
        ((List.range 25).filter (fun d => (u.drawer d).ceiling && !(s.drawer d).ceiling)).map (.alarm .ceiling)
       u.port = { s.port with
        queue := s.port.queue ++ alarms ++ s.nearlyFullNotice
        transmitting := s.port.transmitting || (s.port.olrdy && !(alarms ++ s.nearlyFullNotice).isEmpty) }) ∧
      ∀ r, 1 ≤ r → r ≤ 24 → (u.screen p).holds s.tables (fun y => y ∈ [Source.txnCode, .txnCurrency, .txnAmount, .txnEquiv,
        .txnAccount, .balance, .txnState, .message]) r = true → r ∈ (u.screen p).dirty

/-- Note selection (R100): from the largest face down each denomination takes the lesser of what is available and what the
remaining amount holds of its face; what is taken and what remains make up the amount. The figures of an exchange (R104): with
P the amount times the rate and s the cash step, a purchase takes floors and a sale ceilings; C plus the residue is E, and the
residue lies in 0 to s less 1 for a purchase and in s less 1 negated to 0 for a sale. -/
def Obligations.NotesAndExchangeFigures : Prop :=
  ((∀ amount, noteWalk [] amount = ([], amount)) ∧
  (∀ den face available rest amount, 0 < face →
    let k := min available (amount / face)
    noteWalk ((den, face, available) :: rest) amount =
      ((if k = 0 then [] else [(den, k)]) ++ (noteWalk rest (amount - k * face)).1,
        (noteWalk rest (amount - k * face)).2)) ∧
  ∀ (faces : List Nat) (available : Nat → Nat) (amount : Nat), (∀ f ∈ faces, 0 < f) →
    let notes := (faces.mapIdx (fun i f => (i + 1, f, available (i + 1)))).reverse
    pairsValue faces (noteWalk notes amount).1 + (noteWalk notes amount).2 = amount ∧
    ∀ d n, (d, n) ∈ (noteWalk notes amount).1 → 1 ≤ d ∧ d ≤ faces.length ∧ 1 ≤ n ∧ n ≤ available d) ∧
  (∀ amount rate step : Nat, 0 < step →
    let buy := exchangeFigures false amount rate step
    let sell := exchangeFigures true amount rate step
    (buy.rate = rate ∧ buy.equiv * 100000000 ≤ amount * rate ∧ amount * rate < (buy.equiv + 1) * 100000000 ∧
      step ∣ buy.cash ∧ buy.cash ≤ buy.equiv ∧ buy.equiv < buy.cash + step ∧
      (buy.cash : Int) + buy.residue = buy.equiv ∧ 0 ≤ buy.residue ∧ buy.residue ≤ (step : Int) - 1) ∧
    (sell.rate = rate ∧ amount * rate ≤ sell.equiv * 100000000 ∧
      sell.equiv * 100000000 < amount * rate + 100000000 ∧
      step ∣ sell.cash ∧ sell.equiv ≤ sell.cash ∧ sell.cash < sell.equiv + step ∧
      (sell.cash : Int) + sell.residue = sell.equiv ∧ -((step : Int) - 1) ≤ sell.residue ∧ sell.residue ≤ 0) ∧
    (0 < amount → 0 < rate → 0 < sell.cash))

/-! ### Drawers and proof (05, 06) -/

/-- The checks of COUNT, of ACCEPT_DIFF and of REOPEN in order (R114, R115, R120, R121): the outcome of the first that fails
is shown at the sender, and no drawer changes; a drawer number above 24 is discarded and counted. A REOPEN that passes makes
the drawer ACTIVE with recount number 0, a PROOF record of result REOPENED carries a D of 0 in every currency, and no outcome
is shown. A closed journal refuses the record of each (R179, notes/assumptions/24.md: no run reaches such a state with a
session open). -/
def Obligations.CountsChecked : Prop :=
  (∀ (s b : State) (p seq d : Nat) (lists : List (List Nat)), s.Awaits p 0 seq → 1 ≤ p → p ≤ 24 →
    (24 < d → ∀ c, c = .count p seq d lists ∨ c = .acceptDiff p seq d lists ∨ c = .reopen p seq d →
      exec c s = .next { s.accepted p 0 seq with
        counters := { s.counters with lineBadMessage := if s.counters.lineBadMessage < 65535
                                        then s.counters.lineBadMessage + 1 else s.counters.lineBadMessage } }) ∧
    (d ≤ 24 → b = (s.accepted p 0 seq).copyRole p →
      let shown (c : Instr) (o : Shown) : Prop := ∃ u : State, exec c s = .next u ∧ u = { b with screens := u.screens } ∧
        Shows u p o ∧ ∀ q, q ≠ p → u.screen q = b.screen q
      let atRest : Prop := (s.drawer d).physical = .closed ∧ (s.drawer d).releasePending = false
      let noReservation : Prop := ∀ c k, c < 4 → 1 ≤ k → k ≤ 12 →
        countAt (s.drawer d).reserved c k = 0 ∧ countAt (s.drawer d).incoming c k = 0
      let fits : Prop := ∀ c, c < 4 → (lists.getD c []).length = (s.tables.faces c).length
      let within : Prop := ∀ c, c < 4 → valueOf (s.tables.faces c) (lists.getD c []) ≤ 999999999999
      let room : Prop := -63 ≤ s.generalSpace ∧ s.journal.closed = false
      let own : Prop := d = s.tables.ownDrawer p ∨ b.supervisor p = true
      (let count := Instr.count p seq d lists;
        ((s.session p).state = .signedOff → shown count .notSignedOn) ∧
        ((s.session p).state = .suspended → shown count .suspended) ∧
        ((s.session p).state = .signedOn →
          (¬ own → shown count .role) ∧
          (own → (s.drawer d).state = .balanced → shown count .drawerState) ∧
          (own → (s.drawer d).state ≠ .balanced → ¬ noReservation → shown count .busy) ∧
          (own → (s.drawer d).state ≠ .balanced → noReservation → ¬ atRest → shown count .drawerOpen) ∧
          (own → (s.drawer d).state ≠ .balanced → noReservation → atRest → ¬ fits → shown count .breakdownMismatch) ∧
          (own → (s.drawer d).state ≠ .balanced → noReservation → atRest → fits → ¬ within → shown count .drawerFull) ∧
          (own → (s.drawer d).state ≠ .balanced → noReservation → atRest → fits → within → ¬ room →
            shown count .journalFull))) ∧
      (let accept := Instr.acceptDiff p seq d lists
        let waits : Prop := (s.drawer d).state = .awaitingAccept;
        (b.supervisor p = false ∨ d = s.tables.ownDrawer p → shown accept .role) ∧
        (b.supervisor p = true → d ≠ s.tables.ownDrawer p →
          (¬ waits → shown accept .drawerState) ∧
          (waits → ¬ atRest → shown accept .drawerOpen) ∧
          (waits → atRest → ¬ fits → shown accept .breakdownMismatch) ∧
          (waits → atRest → fits → ¬ within → shown accept .drawerFull) ∧
          (waits → atRest → fits → within → ¬ room → shown accept .journalFull))))) ∧
  ∀ (s b : State) (p seq d : Nat), s.Awaits p 0 seq → 1 ≤ p → p ≤ 24 → d ≤ 24 → b = (s.accepted p 0 seq).copyRole p →
    let refusal : Option Shown :=
      if b.supervisor p = false then some .role
      else if s.day.state = .cutoff then some .dayClosed
      else if (s.drawer d).state ≠ .balanced then some .drawerState
      else if s.generalSpace < 1 ∨ s.journal.closed = true then some .journalFull
      else none
    (∀ o, refusal = some o → ∃ u : State, exec (.reopen p seq d) s = .next u ∧ u = { b with screens := u.screens } ∧
      Shows u p o ∧ ∀ q, q ≠ p → u.screen q = b.screen q) ∧
    (refusal = none → ∃ u : State, exec (.reopen p seq d) s = .next u ∧
      u = { b with
        drawers := wr s.drawers d { s.drawer d with state := .active, recount := 0 }, screens := u.screens
        journal := s.withRecord (.proof p ((s.session p).teller.getD 0) d .reopened [0, 0, 0, 0])
        port := s.portAfterRecord, counters := s.countersAfterRecord } ∧ OnlyMarks b u)

/-- A COUNT that passes its checks and its proof, and an ACCEPT_DIFF that passes its checks (R116, R117, R120, R122, R124): the book
counts of every defined currency become the counted counts, a PROOF record carries the differences, the drawer is BALANCED with its
recount number kept, BALANCED is shown, and completion is tested. A COUNT whose proof fails (R118): the books stay, no record is
written, and the drawer's state and recount number follow the table of R118; completion is tested. -/
def Obligations.DrawerProof : Prop :=
  (∀ (s b : State) (c : Instr) (p seq d : Nat) (lists : List (List Nat)) (result : ProofResult),
    s.Awaits p 0 seq → 1 ≤ p → p ≤ 24 → d ≤ 24 → b = (s.accepted p 0 seq).copyRole p →
    (c = .count p seq d lists ∧ result = .balanced ∧ firstFailure (b.countChecks p d lists) = none ∧
        (∀ k e, k < 4 → s.tables.currency k = some e →
          ((valueOf e.faces (lists.getD k []) : Int) - s.bookValue d k).natAbs ≤ e.tolerance)) ∨
      (c = .acceptDiff p seq d lists ∧ result = .accepted ∧ firstFailure (b.acceptDiffChecks p d lists) = none) →
    ∃ u : State, exec c s = .next u.testCompletion ∧ Shows u p .balanced ∧
      u = { b with drawers := u.drawers, screens := u.screens, port := u.port, counters := u.counters
                   journal := s.withRecord (.proof p ((s.session p).teller.getD 0) d result
                     ((List.range 4).map (fun k => if s.tables.currency k = none then 0 else
                       (valueOf (s.tables.faces k) (lists.getD k []) : Int) - s.bookValue d k))) } ∧
      (∀ e, e ≠ d → u.drawer e = s.drawer e) ∧
      u.drawer d = { s.drawer d with
        book := (u.drawer d).book, state := .balanced, ceiling := (u.drawer d).ceiling } ∧
      ∀ k n, k < 4 → 1 ≤ n → n ≤ 12 → countAt (u.drawer d).book k n =
        if n ≤ (s.tables.faces k).length then (lists.getD k []).getD (n - 1) 0 else countAt (s.drawer d).book k n) ∧
  (∀ (s b : State) (p seq d : Nat) (lists : List (List Nat)), s.Awaits p 0 seq → 1 ≤ p → p ≤ 24 → d ≤ 24 →
    b = (s.accepted p 0 seq).copyRole p → firstFailure (b.countChecks p d lists) = none →
    (∃ k e, k < 4 ∧ s.tables.currency k = some e ∧
      e.tolerance < ((valueOf e.faces (lists.getD k []) : Int) - s.bookValue d k).natAbs) →
    ∃ u : State, exec (.count p seq d lists) s = .next u.testCompletion ∧
      u = { b with drawers := u.drawers, screens := u.screens } ∧ (∀ e, e ≠ d → u.drawer e = s.drawer e) ∧
      (let becomes (x : DrawerState) (n : Nat) (o : Shown) : Prop :=
        u.drawer d = { s.drawer d with state := x, recount := n } ∧ Shows u p o
       ((s.drawer d).state = .active → becomes .outOfBalance 1 .outOfBalance) ∧
       ((s.drawer d).state = .outOfBalance → (s.drawer d).recount = 1 → becomes .outOfBalance 2 .outOfBalance) ∧
       ((s.drawer d).state = .outOfBalance → (s.drawer d).recount = 2 → becomes .awaitingAccept 2 .awaitingAccept) ∧
       ((s.drawer d).state = .awaitingAccept → becomes .awaitingAccept (s.drawer d).recount .awaitingAccept)))

/-- OPENED from the serving unit (R108): from CLOSED or UNKNOWN the drawer is open, its openings rise, its open-alarm timer is
loaded and the delivered release is used; with both release flags clear the opening is forced, which sets the FORCED alert,
offers the ALARM and, with general space and a day begun, writes the FORCED_OPEN record: none is written before OPEN DAY
(R183). In OPEN it changes nothing; without a serving unit every message of a drawer unit is discarded and counted (R111).
CLOSED, FAULT and the open alarm (R109, R110, R111). -/
def Obligations.DrawerUnitMessages : Prop :=
  (∀ (s b : State) (p seq : Nat), s.Awaits p 2 seq → 1 ≤ p → p ≤ 24 → b = s.accepted p 2 seq →
    let n := if (s.drawer p).openings < 65535 then (s.drawer p).openings + 1 else (s.drawer p).openings
    let opened : Drawer := { s.drawer p with
      physical := .opened, openings := n, openAlarm := some s.tables.params.openAlarm, releaseDelivered := false }
    (s.tables.serving p = false → ∀ c, c = .opened p seq ∨ c = .closed p seq ∨ c = .fault p seq →
      exec c s = .next { b with counters := { s.counters with lineBadMessage :=
        if s.counters.lineBadMessage < 65535 then s.counters.lineBadMessage + 1 else s.counters.lineBadMessage } }) ∧
    (s.tables.serving p = true →
      ((s.drawer p).physical = .opened → exec (.opened p seq) s = .next b) ∧
      ((s.drawer p).physical ≠ .opened → (s.drawer p).releasePending = true ∨ (s.drawer p).releaseDelivered = true →
        exec (.opened p seq) s = .next { b with drawers := wr s.drawers p opened }) ∧
      ((s.drawer p).physical ≠ .opened → (s.drawer p).releasePending = false → (s.drawer p).releaseDelivered = false →
        s.port.queue.length + 2 ≤ 64 → s.journal.closed = false → ∃ u : State, exec (.opened p seq) s = .next u ∧
          u = { b with
            drawers := wr s.drawers p { opened with forced := true }, screens := u.screens
            journal := if 1 ≤ s.generalSpace ∧ s.day.state ≠ .noDay then s.withRecord (.forcedOpen p p n) else s.journal
            port := { s.port with
              queue := s.port.queue ++ (if 1 ≤ s.generalSpace ∧ s.day.state ≠ .noDay then s.nearlyFullNotice else []) ++
                [.alarm .forcedOpen p]
              transmitting := s.port.transmitting || s.port.olrdy } } ∧
          (∀ q, ShowsAsBefore s u q) ∧ ∀ q, s.tables.ownDrawer q = p → 1 ≤ q → q ≤ 24 → (u.screen q).alert = true))) ∧
  (∀ (s b : State) (p seq : Nat), 1 ≤ p → p ≤ 24 → b = s.accepted p 2 seq →
    (s.Awaits p 2 seq → s.tables.serving p = true →
      ((s.drawer p).physical = .closed → exec (.closed p seq) s = .next b) ∧
      ((s.drawer p).physical ≠ .closed → ∃ u : State, exec (.closed p seq) s = .next u ∧
        u = { b with screens := u.screens, drawers := wr s.drawers p { s.drawer p with
          physical := .closed, openAlarm := none, openLong := false, forced := false } } ∧
        ∀ q, ShowsAsBefore s u q) ∧
      exec (.fault p seq) s = .next { b with
        drawers := wr s.drawers p { s.drawer p with physical := .unknown, openAlarm := none } }) ∧
    ((s.drawer p).openAlarm ≠ none → s.port.queue.length < 64 → ∃ u : State, exec (.openAlarmExpiry p) s = .next u ∧
      u = { s with screens := u.screens, port := (s.withFrame (.alarm .openLong p)).port
                   drawers := wr s.drawers p { s.drawer p with openAlarm := none, openLong := true } } ∧
      ∀ q, ShowsAsBefore s u q))

/-! ### Passbook printing (08) -/

/-- BOOK_IN (R155, R156): a report that fails its tests is refused with EJECT offered and BOOK_MISMATCH, printer state and job as
they were; in NO_BOOK one that passes makes the printer READY with the book reported; in WAIT_BOOK it is compared with the job,
and the job's own book, not earlier than its expected position, stops the book wait and makes the printer READY; where a book is
held or the way is not clear the message is discarded and counted. -/
def Obligations.BookInserted : Prop :=
  ∀ (s b : State) (p seq layout page place : Nat) (account : Text), s.Awaits p 1 seq → 1 ≤ p → p ≤ 24 →
    b = s.accepted p 1 seq →
    let c := Instr.bookIn p seq account layout page place
    let fits : Prop := ∃ l, s.tables.layout layout = some l ∧ 1 ≤ page ∧ page ≤ l.pages ∧ 1 ≤ place ∧ place ≤ l.lines
    let book : Book := { account := account, layout := layout, page := page, line := place }
    let refused : Prop := ∃ u : State, exec c s = .next u ∧ Shows u p .bookMismatch ∧
      u = { b with screens := u.screens, line := { b.line with recs := u.line.recs }
                   printers := wr1 s.printers p { s.printer p with kept := (u.printer p).kept } } ∧
      (s.offerAnswer p 1 = .taken → (u.printer p).kept = (s.printer p).kept ∧
        (u.unit p 1).queue = (s.unit p 1).queue ++ [{ msg := .eject, cls := .print }])
    ((s.printer p).state = .noBook → (¬ fits → refused) ∧
      (fits → ∃ u : State, exec c s = .next u ∧ OnlyMarks s u ∧ u = { b with
        screens := u.screens, printers := wr1 s.printers p { s.printer p with state := .ready, book := some book } })) ∧
    (∀ j, (s.printer p).state = .waitBook → (s.printer p).job = some j →
      (¬ fits ∨ account ≠ j.account ∨ layout ≠ j.layout ∨ page < j.page ∨ (page = j.page ∧ place < j.line) → refused) ∧
      (fits → account = j.account → layout = j.layout → j.page < page ∨ (page = j.page ∧ j.line ≤ place) →
        ∃ v : State, exec c s = .next (v.printLoop p) ∧ OnlyMarks s v ∧ v = { b with
          screens := v.screens
          printers := wr1 s.printers p { s.printer p with
            state := .ready, book := some book, job := some { j with page := page, line := place, bookWait := none } } })) ∧
    ((s.printer p).state = .ready ∨ (s.printer p).state = .printing ∨ (s.printer p).state = .jammed ∨
        (s.printer p).state = .fault →
      exec c s = .next { b with counters := { s.counters with lineBadMessage :=
        if s.counters.lineBadMessage < 65535 then s.counters.lineBadMessage + 1 else s.counters.lineBadMessage } })

/-- BOOK_OUT (R156), JAM and JAM_CLEARED (R166), STATUS READY (R167) and the expiry of the line completion wait (R167), by the
printer's state: what is in flight is lost, the book data is cleared, a job keeps its lines and its book wait is loaded afresh;
JAM shows PRINTER_JAM and the expiry PRINTER_FAULT. -/
def Obligations.PrinterStops : Prop :=
  ∀ (s b : State) (p seq : Nat), 1 ≤ p → p ≤ 24 → b = s.accepted p 1 seq →
    let waiting (from_ : Bool) : Option Job := (s.printer p).job.map (fun j =>
      { j with next := if from_ then j.confirmed + 1 else j.next, bookWait := some s.tables.params.bookWait })
    let x : PrinterState := if (s.printer p).job.isSome then .waitBook else .noBook
    let becomes (c : Instr) (t : State) (y : Printer) : Prop := ∃ u : State, exec c s = .next u ∧
      u = { t with printers := wr1 s.printers p y, screens := u.screens, line := { t.line with recs := u.line.recs } } ∧
      ∀ q, q ≠ p → u.screen q = s.screen q
    let stopped (y : PrinterState) : Printer := { s.printer p with
      state := y, book := none, job := waiting true, flight := .none, lineWait := none }
    (s.Awaits p 1 seq →
      ((s.printer p).state = .ready ∨ (s.printer p).state = .printing → becomes (.bookOut p seq) b (stopped x)) ∧
      ((s.printer p).state = .fault →
        becomes (.bookOut p seq) b { s.printer p with state := x, job := waiting false }) ∧
      ((s.printer p).state = .noBook ∨ (s.printer p).state = .waitBook ∨ (s.printer p).state = .jammed →
        exec (.bookOut p seq) s = .next b) ∧
      ((s.printer p).state ≠ .jammed → (s.printer p).state ≠ .absent → becomes (.jam p seq) b (stopped .jammed) ∧
        ∀ u, exec (.jam p seq) s = .next u → Shows u p .printerJam) ∧
      ((s.printer p).state = .jammed → exec (.jam p seq) s = .next b ∧
        becomes (.jamCleared p seq) b { s.printer p with state := x, job := waiting false }) ∧
      ((s.printer p).state ≠ .jammed → exec (.jamCleared p seq) s = .next b) ∧
      ((s.printer p).state = .fault → s.offerAnswer p 1 = .taken →
        becomes (.statusReady p seq) b { s.printer p with state := x, job := waiting false } ∧
        ∀ u, exec (.statusReady p seq) s = .next u →
          (u.unit p 1).queue = (s.unit p 1).queue ++ [{ msg := .eject, cls := .print }]) ∧
      ((s.printer p).state ≠ .fault → exec (.statusReady p seq) s = .next b)) ∧
    ((s.printer p).lineWait ≠ none → becomes (.lineCompletionWaitExpiry p) s (stopped .fault) ∧
      ∀ u, exec (.lineCompletionWaitExpiry p) s = .next u → Shows u p .printerFault)

/-- STATUS LINE_DONE and STATUS TURNED (R162, R163, R164, R165): with a LINE delivered and not yet confirmed the line is
confirmed, its PRINTED notice queued, or owed at a full queue, the pacing timer loaded and the place advanced; the job's last
line completes it, with EJECT offered to the printer's queue, kept while that queue is full (R165, R170), behind what is kept
already (the MODEL's reading, notes/assumptions/14.md); a delivered TURN moves to the next page at line 1 and the loop is
taken; in any other case the message is discarded and counted. -/
def Obligations.LineConfirmedAndPageTurned : Prop :=
  ∀ (s b : State) (p seq : Nat), s.Awaits p 1 seq → 1 ≤ p → p ≤ 24 → b = s.accepted p 1 seq →
    (¬ ((s.printer p).state = .printing ∧ (s.printer p).flight = .line true ∧ (s.printer p).job.isSome ∧
        (s.printer p).book.isSome) →
      exec (.lineDone p seq) s = .next { b with counters := { s.counters with lineBadMessage :=
        if s.counters.lineBadMessage < 65535 then s.counters.lineBadMessage + 1 else s.counters.lineBadMessage } }) ∧
    (¬ ((s.printer p).state = .printing ∧ (s.printer p).flight = .turn true ∧ (s.printer p).job.isSome ∧
        (s.printer p).book.isSome) →
      exec (.turned p seq) s = .next { b with counters := { s.counters with lineBadMessage :=
        if s.counters.lineBadMessage < 65535 then s.counters.lineBadMessage + 1 else s.counters.lineBadMessage } }) ∧
    ∀ (j : Job) (k : Book), (s.printer p).state = .printing → (s.printer p).job = some j → (s.printer p).book = some k →
      ((s.printer p).flight = .turn true → ∃ v : State, exec (.turned p seq) s = .next (v.printLoop p) ∧ OnlyMarks s v ∧
        v = { b with screens := v.screens, printers := wr1 s.printers p { s.printer p with
          state := .ready, lineWait := none, flight := .none, book := some { k with page := k.page + 1, line := 1 }
          job := some { j with page := k.page + 1, line := 1 } } }) ∧
      ∀ (i : Nat) (x : PrintLine), (s.printer p).flight = .line true → j.owed = none → j.lines[j.confirmed]? = some i →
        rd s.store i none = some x →
        let done : Job := { j with
          confirmed := j.confirmed + 1, pacing := some s.tables.params.pacing, line := j.line + 1 }
        let ready (job : Job) : Printer := { s.printer p with
          state := .ready, lineWait := none, flight := .none, book := some { k with line := k.line + 1 }, job := some job }
        (64 ≤ s.port.queue.length → ∃ u : State, exec (.lineDone p seq) s = .next u ∧ OnlyMarks s u ∧
          u = { b with screens := u.screens, printers := wr1 s.printers p (ready { done with owed := some x.item }) }) ∧
        (s.port.queue.length < 64 → j.confirmed + 1 ≠ j.lines.length → ∃ u : State,
          exec (.lineDone p seq) s = .next u ∧ OnlyMarks s u ∧
          u = { b with screens := u.screens, port := (s.withFrame (.printed j.account x.item)).port
                       printers := wr1 s.printers p (ready done) }) ∧
        (s.port.queue.length < 64 → j.confirmed + 1 = j.lines.length → ∃ u : State,
          exec (.lineDone p seq) s = .next u ∧ Shows u p .printedOk ∧
          u = { b with screens := u.screens, port := (s.withFrame (.printed j.account x.item)).port
                       line := { b.line with recs := u.line.recs }, store := u.store
                       printers := wr1 s.printers p { s.printer p with
                         state := .noBook, lineWait := none, flight := .none, book := none, job := none
                         kept := if s.offerAnswer p 1 = .full then (s.printer p).kept ++ [.eject]
                           else (s.printer p).kept } } ∧
          (u.unit p 1).queue = (s.unit p 1).queue ++
            (if s.offerAnswer p 1 = .taken then [{ msg := .eject, cls := .print }] else []) ∧
          (∀ n, rd u.store n none = if n ∈ j.lines then none else rd s.store n none))

/-- The print loop at the expiry of the pacing timer (R160, R161, R164, R152): with the printer READY, a line to send and no
notice owed or carried, the LINE is offered at the book's place while a line is left on the page, and when the offer is taken
the printer is PRINTING with it in flight. At the end of a page an auto-turning layout gives TURN, and another the wait for
the book at the next page with TURN_PAGE shown; at the end of the last page the job is abandoned with BOOK_FULL, and where the
book's layout is undefined with BOOK_MISMATCH: its lines are freed, EJECT is offered and the printer holds no book (R168).
With no line to send only the timer stops. Kept printer messages are offered again when the head of the printer's queue has
left (R34, R170); with the queue still full they stay kept, and no other unit's owner keeps any (notes/assumptions/22.md). That
a page above the layout's pages counts as its last, so that BOOK_FULL follows there too where R164 names the page equal to the
pages alone, and that kept messages keep the order in which they were offered, are the MODEL's readings
(notes/assumptions/14.md). -/
def Obligations.PacingExpiryAndQueueRoom : Prop :=
  (∀ (s : State) (p : Nat) (j : Job) (k : Book), 1 ≤ p → p ≤ 24 →
    (s.printer p).job = some j → j.pacing ≠ none →
    (j.lines.length < j.next → exec (.pacingTimerExpiry p) s =
      .next { s with printers := wr1 s.printers p { s.printer p with job := some { j with pacing := none } } }) ∧
    ((s.printer p).state = .ready → (s.printer p).book = some k → (s.printer p).carried = none → j.owed = none →
      j.next ≤ j.lines.length →
      let sends (m : OutMsg) (y : Printer) : Prop := ∃ u : State, exec (.pacingTimerExpiry p) s = .next u ∧ OnlyMarks s u ∧
        u = { s with screens := u.screens, line := { s.line with recs := u.line.recs }
                     printers := wr1 s.printers p y } ∧
        (u.unit p 1).queue = (s.unit p 1).queue ++ [{ msg := m, cls := .print }]
      let abandons (o : Shown) : Prop := ∃ u : State, exec (.pacingTimerExpiry p) s = .next u ∧ Shows u p o ∧
        u = { s with
          screens := u.screens, line := { s.line with recs := u.line.recs }, store := u.store
          printers := wr1 s.printers p { s.printer p with
            state := .noBook, book := none, job := none, flight := .none, lineWait := none
            kept := if s.offerAnswer p 1 = .full then (s.printer p).kept ++ [.eject] else (s.printer p).kept } } ∧
        (u.unit p 1).queue = (s.unit p 1).queue ++
          (if s.offerAnswer p 1 = .taken then [{ msg := .eject, cls := .print }] else []) ∧
        (∀ n, rd u.store n none = if n ∈ j.lines then none else rd s.store n none) ∧ ∀ q, q ≠ p → u.screen q = s.screen q
      (s.tables.layout k.layout = none → abandons .bookMismatch) ∧
      ∀ l, s.tables.layout k.layout = some l →
        (∀ i x, k.line ≤ l.lines → 1 ≤ j.next → j.lines[j.next - 1]? = some i → rd s.store i none = some x →
          s.offerAnswer p 1 = .taken →
          sends (.line k.page k.line (l.lineText (s.tables.exponent 0) x) false) { s.printer p with
            state := .printing, flight := .line false, job := some { j with pacing := none, next := j.next + 1 } }) ∧
        (l.lines < k.line → k.page < l.pages → l.autoTurn = true → s.offerAnswer p 1 = .taken →
          sends (.turn false) { s.printer p with
            state := .printing, flight := .turn false, job := some { j with pacing := none } }) ∧
        (l.lines < k.line → k.page < l.pages → l.autoTurn = false → ∃ u : State,
          exec (.pacingTimerExpiry p) s = .next u ∧ Shows u p .turnPage ∧ (∀ q, q ≠ p → u.screen q = s.screen q) ∧
          u = { s with screens := u.screens, printers := wr1 s.printers p { s.printer p with
            state := .waitBook, book := none
            job := some { j with
              pacing := none, page := k.page + 1, line := 1, bookWait := some s.tables.params.bookWait } } }) ∧
        (l.lines < k.line → l.pages ≤ k.page → abandons .bookFull))) ∧
  (∀ (s : State) (p : Nat), 1 ≤ p → p ≤ 24 →
    (∀ u, u ≠ 1 ∨ 4 ≤ (s.unit p 1).queue.length → exec (.outboundQueueRoom p u) s = .next s) ∧
    ((s.unit p 1).presence = .present → (s.printer p).job = none →
      (s.unit p 1).queue.length + (s.printer p).kept.length ≤ 4 → (s.unit p 1).queue.length < 4 →
      ∃ t, exec (.outboundQueueRoom p 1) s = .next t ∧
        t = { s with line := { s.line with recs := t.line.recs }
                     printers := wr1 s.printers p { s.printer p with kept := [] } } ∧
        t.unit p 1 = { s.unit p 1 with
          queue := (s.unit p 1).queue ++ (s.printer p).kept.map (fun m => { msg := m, cls := .print }) } ∧
        ∀ q u, (q, u) ≠ (p, 1) → t.unit q u = s.unit q u))

/-- The book wait expires (R168, R169): the job is abandoned, its lines are freed, a notice it owes becomes the carried notice,
NOT_PRINTED is shown, and the printer keeps JAMMED or FAULT and leaves WAIT_BOOK for NO_BOOK. A carried notice is queued at a freed
slot (R163). -/
def Obligations.BookWaitExpiryAndOwedNotice : Prop :=
  ∀ (s : State) (p : Nat), 1 ≤ p → p ≤ 24 →
    (∀ j, (s.printer p).job = some j → j.bookWait ≠ none → (s.printer p).book = none →
      ∃ u : State, exec (.bookWaitExpiry p) s = .next u ∧ Shows u p .notPrinted ∧
        u = { s with screens := u.screens, store := u.store, printers := wr1 s.printers p { s.printer p with
          state := if (s.printer p).state = .waitBook then .noBook else (s.printer p).state
          job := none, flight := .none, lineWait := none
          carried := match j.owed with | some n => some (j.account, n) | none => (s.printer p).carried } } ∧
        (∀ n, rd u.store n none = if n ∈ j.lines then none else rd s.store n none) ∧
        ∀ q, q ≠ p → u.screen q = s.screen q) ∧
    (s.port.queue.length < 64 →
      (∀ account n, (s.printer p).carried = some (account, n) → ∃ v : State,
        exec (.owedNoticeQueued p) s = .next (v.printLoop p) ∧
        v = { s with port := (s.withFrame (.printed account n)).port
                     printers := wr1 s.printers p { s.printer p with carried := none } }) ∧
      (∀ j n, (s.printer p).carried = none → (s.printer p).job = some j → j.owed = some n →
        j.confirmed ≠ j.lines.length → ∃ v : State, exec (.owedNoticeQueued p) s = .next (v.printLoop p) ∧
        v = { s with port := (s.withFrame (.printed j.account n)).port
                     printers := wr1 s.printers p { s.printer p with job := some { j with owed := none } } })) ∧
    (64 ≤ s.port.queue.length → exec (.owedNoticeQueued p) s = .next s)

/-! ### Screens (07) -/

/-- FORM (R149, R143): a form that the position's entry lets be selected and whose own entry is selectable becomes current,
with all 24 rows dirty and clear-pending set; any other FORM, and one that names the form already current, changes nothing;
one whose payload is not one byte is discarded and counted (R40). Where the form named is the current one, the premise rules
out an urgent flag without an urgent row, which no run reaches (notes/assumptions/9.md). -/
def Obligations.FormSelected : Prop :=
  ∀ (s b : State) (p seq f : Nat), s.Awaits p 0 seq → 1 ≤ p → p ≤ 24 → b = s.accepted p 0 seq →
    let allowed : Prop := ∃ e x, s.tables.position p = some e ∧ f ∈ e.forms ∧ s.tables.form f = some x ∧ x.selectable = true
    (∀ payload : List Byte, payload.length ≠ 1 → exec (.lineBadMessage p 0 0x0B seq payload) s =
      .next { b with counters := { s.counters with lineBadMessage := oneMore s.counters.lineBadMessage } }) ∧
    (¬ allowed → exec (.form p seq f) s = .next b) ∧
    (allowed → f = (s.screen p).form → (s.screen p).urgent = false ∨ (s.screen p).urgentRows s.tables ≠ [] →
      exec (.form p seq f) s = .next b) ∧
    (allowed → f ≠ (s.screen p).form → ∃ u : State, exec (.form p seq f) s = .next u ∧ u = { b with screens := u.screens } ∧
      u.screen p = { s.screen p with
        form := f, dirty := List.range' 1 24, clearPending := true, urgent := (u.screen p).urgent } ∧
      ((u.screen p).urgent = true → (s.screen p).urgent = true) ∧ ∀ q, q ≠ p → u.screen q = s.screen q)

/-! ### The station line (02) -/

/-- A GRANT gives the line to one requester (R41, R42, R43, R26, R35): to the highest waiting class, at a grant count of 7 to the
lowest, and within a unit class to the first waiting after its last-served. It begins that requester's work and raises the grant
count; with the engine busy, or nothing waiting, it does nothing (the MODEL's choice, notes/assumptions/23.md). -/
def Obligations.GrantServesOneRequester : Prop :=
  ∀ s : State,
    let wait := s.tables.params.unitReply
    let transfer (p u : Nat) : Transfer := { pos := p, unit := u, made := 0, limit := s.tables.params.retries }
    (s.line.engine ≠ .idle ∨ (∀ c, ¬ s.Waits c) → exec .grant s = .next s) ∧
    (s.line.engine = .idle →
      (∀ p u, s.GrantsTo .service p u → exec .grant s = .next { s with
        line := (s.line.granted .service p u).awaiting wait (.selectedSend (transfer p u)) [.selectSend p u] }) ∧
      (∀ c p u q, s.GrantsTo c p u → c = .urgent ∨ c = .print ∨ c = .refresh → (s.unit p u).queue.head? = some q →
        exec .grant s = .next { s with
          line := (s.line.granted c p u).awaiting wait (.waitReply (transfer p u))
            [.selectReceive p u, .message p u (s.unit p u).outSeq q.msg] }) ∧
      (s.Grants .rollCall → (∀ p u, s.tables.position p = none → (s.unit p u).presence ≠ .present) →
        let polled := (List.range' 1 24).filter (fun p => (s.tables.position p).isSome)
        let l := { s.line with grantCount := (s.line.grantCount + 1) % 8, rollWaiting := false }
        exec .grant s = .next { s with
          line := if polled = [] then
                    { l.ended [.rollCallAll polled] with rollTimer := some s.tables.params.rollCall }
                  else l.awaiting wait (.rollCall polled) [.rollCallAll polled] }) ∧
      (∀ p positions kind probes, s.Grants .survey → s.survey.rest = p :: positions → s.survey.probes = kind :: probes →
        let l := { s.line with grantCount := (s.line.grantCount + 1) % 8 }
        match kind with
        | .presence => exec .grant s = .next { s with
            line := l.awaiting wait (.waitProbe p .presence false) [.rollCallAt p]
            survey := { s.survey with
              installed := s.tables.installed p, elapsed := 0
              probes := if s.survey.mode = .echo then
                  ([0, 1, 2].filter (fun u => decide (u ∈ s.tables.installed p))).flatMap
                    (fun u => (List.range' 1 16).map (fun k => .echo u k))
                else probes } }
        | .echo u k => exec .grant s = .next { s with
            line := l.awaiting wait (.waitProbe p (.echo u k) false)
              [.echo p u ((List.range 8).map (fun i => toByte ((37 * k + 11 * i) % 256)))]
            survey := { s.survey with probes := probes, elapsed := 0 } }))

/-- The composer builds a message on an URGENT or REFRESH grant to a screen unit with an empty queue (R43, R145, R146): a CLEAR
while clear-pending is set, which makes every row known to be blank; otherwise the lowest row of its class, composed as the state
stands, unless it composes blank and is known to be blank. The message is queued under the class and its transfer begins. -/
def Obligations.ComposerBuildsOnGrant : Prop :=
  ∀ (s : State) (c : LineClass) (p : Nat), s.line.engine = .idle → c = .urgent ∨ c = .refresh → s.GrantsTo c p 0 →
    (s.unit p 0).queue = [] → (s.screen p).dirty.Pairwise (· < ·) →
    let builds (m : OutMsg) (t : State) : Prop :=
      exec .grant s = .next t ∧ t = { s with line := t.line, screens := t.screens } ∧
      t.line = { (s.line.granted c p 0).awaiting s.tables.params.unitReply
          (.waitReply { pos := p, unit := 0, made := 0, limit := s.tables.params.retries })
          [.selectReceive p 0, .message p 0 (s.unit p 0).outSeq m] with recs := t.line.recs } ∧
      t.unit p 0 = { s.unit p 0 with queue := [{ msg := m, cls := c }] } ∧
      (∀ q u, (q, u) ≠ (p, 0) → t.unit q u = s.unit q u) ∧ ∀ q, q ≠ p → t.screen q = s.screen q
    ((s.screen p).clearPending = true → ∃ t, builds .clear t ∧
      t.screen p = { s.screen p with clearPending := false, blankKnown := List.range' 1 24 }) ∧
    ∀ r, (s.screen p).clearPending = false →
      let rows := if c = .urgent then (s.screen p).urgentRows s.tables else (s.screen p).otherRows s.tables
      let cells := s.composeRow p r
      let blank := cells.all (fun k => k.char == 32 && k.attr == 0)
      r ∈ rows → (∀ k ∈ rows, r ≤ k) → ¬ (blank = true ∧ r ∈ (s.screen p).blankKnown) → ∃ t, builds (.row r cells) t ∧
        (t.screen p).dirty = (s.screen p).dirty.filter (· != r) ∧ (t.screen p).form = (s.screen p).form ∧
        (t.screen p).view = (s.screen p).view ∧ (t.screen p).clearPending = false ∧
        ∀ k, 1 ≤ k → k ≤ 24 →
          (k ∈ (t.screen p).blankKnown ↔ if k = r then blank = true else k ∈ (s.screen p).blankKnown)

/-- Roll call (R28, R29, R30, R31, R33): the timer asks for it; a slot closes as answered by the answer of its own position,
as missed at the expiry of the reply wait, and takes each unit by the tables of R30 and R31; the next slot opens, or the roll
call ends and loads its timer. An answer from another address is counted and the slot waits on, as R29 says and R203's last
sentence is read to allow (notes/assumptions/34.md). The expiry of a stopped timer does nothing (the MODEL's choice,
notes/assumptions/4.md). -/
def Obligations.RollCallSlots : Prop :=
  ∀ s : State,
    (exec .rollCallTimerExpiry s = .next (if s.line.rollTimer = none then s else
      { s with line := { s.line with rollTimer := none, rollWaiting := true } })) ∧
    ∀ p rest, s.line.engine = .rollCall (p :: rest) → s.line.discarding = false → 1 ≤ p → p ≤ 24 →
      let closes (t : State) : Prop := t.line = { s.line with
        recs := t.line.recs
        engine := if rest = [] then .idle else .rollCall rest
        replyWait := if rest = [] then none else some s.tables.params.unitReply
        rollTimer := if rest = [] then some s.tables.params.rollCall else s.line.rollTimer }
      (∀ a presence attention, a ≠ p → exec (.rollAnswer a presence attention) s = .next s.lineFrameCounted) ∧
      (∀ presence attention : Nat,
        let reported (u : Nat) : Bool := presence.testBit u && decide (u ∈ s.tables.installed p)
        ∃ t, exec (.rollAnswer p presence attention) s = .next t ∧ closes t ∧ (t.posRec p).missed = 0 ∧
          t = { s with line := t.line, screens := t.screens, printers := t.printers, drawers := t.drawers,
                       store := t.store } ∧
          (∀ q, q ≠ p → t.posRec q = s.posRec q) ∧
          (∀ u, u ≤ 2 → (t.unit p u).presence = (if reported u then .present else .absent) ∧
            (t.unit p u).attention = (reported u && attention.testBit u)) ∧
          (∀ u, u ≤ 2 → (s.unit p u).presence = .present → reported u = false →
            t.unit p u = { presence := .absent, attention := false, queue := [], outSeq := 0, lastIn := none }) ∧
          (∀ u, u ≤ 2 → (s.unit p u).presence ≠ .present → reported u = true →
            (t.unit p u).outSeq = 0 ∧ (t.unit p u).lastIn = none ∧
            (t.unit p u).queue = (match u with
              | 0 => []
              | 1 => [{ msg := .statusRequest, cls := .print }]
              | _ => if (s.drawer p).releasePending then [{ msg := .release, cls := .urgent }] else []) ∧
            (u = 0 → (t.screen p).dirty = List.range' 1 24 ∧ (t.screen p).clearPending = true) ∧
            (u = 1 → (t.printer p).state = .noBook))) ∧
      (s.line.replyWait ≠ none →
        ((s.posRec p).missed ≠ 2 → ∃ t, exec .unitReplyWaitExpiry s = .next t ∧ closes t ∧ t = { s with line := t.line } ∧
          (t.posRec p).missed = min 3 ((s.posRec p).missed + 1) ∧ (∀ q, q ≠ p → t.posRec q = s.posRec q) ∧
          ∀ u, u ≤ 2 → t.unit p u = { s.unit p u with attention := false }) ∧
        ((s.posRec p).missed = 2 → ∃ t, exec .unitReplyWaitExpiry s = .next t ∧ closes t ∧ (t.posRec p).missed = 3 ∧
          (∀ u, u ≤ 2 → (t.unit p u).presence = .absent ∧ (t.unit p u).attention = false ∧
            ((s.unit p u).presence = .present → (t.unit p u).queue = [] ∧ (t.unit p u).outSeq = 0 ∧
              (t.unit p u).lastIn = none)) ∧
          ((∀ u, u ≤ 2 → (s.unit p u).presence ≠ .present) → t = { s with line := t.line }) ∧
          ((∃ u, u ≤ 2 ∧ (s.unit p u).presence = .present) → s.port.queue.length < 64 →
            t.counters = { s.counters with unitLost := oneMore s.counters.unitLost } ∧
            t.port = (s.withFrame (.alarm .unitLost p)).port)))

/-- The replies to an outbound message (R35, R36, R37): ACCEPT delivers it and advances the sequence; REJECT and the expiry of the
reply wait resend it while retries are left, and make the unit ABSENT when they are used up; BUSY ends the transfer and leaves the
message at the head; a reply that names another address, unit or sequence is counted and the wait goes on, as R35 says and R203's
last sentence is read to allow (notes/assumptions/34.md). At ACCEPT the queue is the rest alone: kept messages and the print loop wait for OUTBOUND_QUEUE_ROOM (the MODEL's choice, notes/assumptions/22.md). -/
def Obligations.OutboundTransferReplies : Prop :=
  ∀ (s : State) (x : Transfer) (q : Queued) (rest : List Queued), s.line.engine = .waitReply x → s.line.discarding = false →
    1 ≤ x.pos → x.pos ≤ 24 → x.unit ≤ 2 → (s.unit x.pos x.unit).queue = q :: rest →
    let p := x.pos
    let u := x.unit
    let n := (s.unit x.pos x.unit).outSeq
    let ends (t : State) : Prop := t.line = { s.line.ended [.unselect] with recs := t.line.recs } ∧
      ∀ r v, (r, v) ≠ (p, u) → t.unit r v = s.unit r v;
    (exec (.busy p u n) s = .next { s with line := s.line.ended [.unselect] }) ∧
    (∃ t, exec (.accept p u n) s = .next t ∧ ends t ∧
      t.unit p u = { s.unit p u with queue := rest, outSeq := (n + 1) % 256 } ∧
      t = { s with line := t.line, printers := t.printers, drawers := t.drawers } ∧
      (u = 1 → (∃ page line chars, q.msg = .line page line chars false) → t.printer p = { s.printer p with
        flight := .line true, lineWait := some s.tables.params.lineCompletion }) ∧
      (u = 2 → s.tables.serving p = true →
        t.drawer p = { s.drawer p with releasePending := false, releaseDelivered := true })) ∧
    (∀ c, c = .reject p u n ∨ (c = .unitReplyWaitExpiry ∧ s.line.replyWait ≠ none) →
      (x.made < x.limit → exec c s = .next { s with
        counters := { s.counters with lineRetry := oneMore s.counters.lineRetry }
        line := s.line.awaiting s.tables.params.unitReply (.waitReply { x with made := x.made + 1 })
          [.selectReceive p u, .message p u n q.msg] }) ∧
      (x.limit ≤ x.made → ∃ t, exec c s = .next t ∧ ends t ∧
        t.unit p u = { presence := .absent, attention := false, queue := [], outSeq := 0, lastIn := none } ∧
        (u = 0 → t = { s with line := t.line, screens := t.screens } ∧
          (q.msg = .clear → (t.screen p).clearPending = true) ∧
          ∀ r cells, q.msg = .row r cells → 1 ≤ r → r ≤ 24 → r ∈ (t.screen p).dirty ∧ r ∉ (t.screen p).blankKnown))) ∧
    (∀ a v m, (a, v, m) ≠ (p, u, n) → ∀ c, c = .accept a v m ∨ c = .reject a v m ∨ c = .busy a v m →
      exec c s = .next s.lineFrameCounted)

/-- Frames that end an inbound transfer without a message, and frames that no one awaits (R25, R29, R37, R38, R39, R203): in
SELECTED_SEND a frame of another address or unit, or that fails its check, is answered REJECT and counted, and the unit keeps its
attention; the expiry of the reply wait selects again while retries are left, and otherwise the unit is ABSENT. In IDLE a frame is
discarded, counted when it fails its check. While bytes are discarded until the line is silent no frame is taken. The sequence of a
REJECT that answers no message is open: a free value (notes/assumptions/1.md), and the REJECT names the selected position and
unit (the MODEL's choice, notes/assumptions/28.md). -/
def Obligations.InboundTransferAndDiscards : Prop :=
  ∀ s : State,
    (exec .lineSilent s = .next { s with line := { s.line with discarding := false } }) ∧
    (∀ frame, s.line.discarding = true ∨ parseStation frame = none →
      exec (.lineFrameDiscarded frame) s = .next s ∧ exec (.inboundFrameRejected frame) s = .next s) ∧
    (∀ frame f, s.line.engine = .idle → s.line.discarding = false → parseStation frame = some f →
      exec (.lineFrameDiscarded frame) s = .next (
        if f = .badCheck then s.lineFrameCounted
        else if f = .badForm then { s.lineFrameCounted with line := { s.line with discarding := true } }
        else s)) ∧
    ∀ x, s.line.engine = .selectedSend x → s.line.discarding = false → 1 ≤ x.pos → x.pos ≤ 24 → x.unit ≤ 2 →
      (∀ n, exec (.busy x.pos x.unit n) s = .next { s with line := s.line.ended [.unselect] }) ∧
      (∀ frame a u n m, parseStation frame = some (.message a u n m) → (a, u) ≠ (x.pos, x.unit) →
        exec (.inboundFrameRejected frame) s = .next { s.lineFrameCounted with
          line := s.line.ended [.reply .reject x.pos x.unit n, .unselect] }) ∧
      (∀ frame f, parseStation frame = some f → f = .badCheck ∨ f = .badForm → ∃ n : Nat,
        exec (.inboundFrameRejected frame) s = .next { s.lineFrameCounted with
          freeDraws := s.freeDraws + 1
          line := { s.line.ended [.reply .reject x.pos x.unit n, .unselect] with
            discarding := decide (f = .badForm) } }) ∧
      (s.line.replyWait ≠ none →
        (x.made < x.limit → exec .unitReplyWaitExpiry s = .next { s with
          counters := { s.counters with lineRetry := oneMore s.counters.lineRetry }
          line := s.line.awaiting s.tables.params.unitReply (.selectedSend { x with made := x.made + 1 })
            [.selectSend x.pos x.unit] }) ∧
        (x.limit ≤ x.made → ∃ t, exec .unitReplyWaitExpiry s = .next t ∧
          t.line = { s.line.ended [.unselect] with recs := t.line.recs } ∧
          t.unit x.pos x.unit = { presence := .absent, attention := false, queue := [], outSeq := 0, lastIn := none } ∧
          (∀ r v, (r, v) ≠ (x.pos, x.unit) → t.unit r v = s.unit r v) ∧
          (x.unit = 2 → s.tables.serving x.pos = true → (t.drawer x.pos).physical = .unknown) ∧
          (x.unit = 1 → (t.printer x.pos).state = .absent ∧ (t.printer x.pos).job = none ∧
            (t.printer x.pos).book = none)))

/-- The survey (R44, R45, R46): START SURVEY takes its list from SURVEY_MASK and clears every result; each probe ends at a frame or at
the expiry of the reply wait and marks its position by what came, a reply's time lowering the minimum and raising the maximum; the
last probe gives the position its fault, the highest that applies, and the summary follows. A probe of a stopped survey is
discarded (R47). -/
def Obligations.SurveyRuns : Prop :=
  ∀ s : State,
    (∀ tag, ∀ b : Byte, b = 1 ∨ b = 2 → s.survey.state ≠ .running → s.port.queue.length < 64 → ∃ u : State,
      exec (.startSurvey tag [b]) s = .next (u.withReply (u.doneReply 0x0F tag [])) ∧
      u = { s with survey := {
        state := if s.tables.surveyMask = [] then .done else .running, mode := if b = 1 then .presence else .echo
        list := s.tables.surveyMask, rest := s.tables.surveyMask, probes := [.presence], installed := [], elapsed := 0
        marks := { noAnswer := false, badCheck := false, wrongAddress := false, unitMissing := false }
        results := Vector.replicate 24 { valid := false, fault := .ok, min := 255, max := 0 }
        min := 255, max := 0, validCount := 0, faultCount := 0 } }) ∧
    ∀ (p : Nat) (kind : ProbeKind) (stopped heard : Bool) (c : Instr) (m : SurveyMarks), 1 ≤ p → p ≤ 24 →
      s.line.engine = .waitProbe p kind stopped → s.line.discarding = false →
      (∃ a presence attention, c = .rollAnswer a presence attention ∧ kind = .presence ∧ heard = true ∧
          m = { s.survey.marks with
            wrongAddress := s.survey.marks.wrongAddress || a != p
            unitMissing := s.survey.marks.unitMissing || s.survey.installed.any (fun u => !presence.testBit u) }) ∨
        (∃ a u pattern v k, c = .echo a u pattern ∧ kind = .echo v k ∧ heard = true ∧
          m = { s.survey.marks with
            wrongAddress := s.survey.marks.wrongAddress || a != p || u != v
            badCheck := s.survey.marks.badCheck ||
              pattern != (List.range 8).map (fun i => toByte ((37 * k + 11 * i) % 256)) }) ∨
        ((∃ frame, c = .surveyProbeBadReply frame ∧ parseStation frame = some .badCheck) ∨
            (∃ a u n, c = .accept a u n ∨ c = .reject a u n ∨ c = .busy a u n) ∨
            (∃ a u pattern, c = .echo a u pattern ∧ kind = .presence)) ∧ heard = true ∧
          m = { s.survey.marks with badCheck := true } ∨
        c = .unitReplyWaitExpiry ∧ s.line.replyWait ≠ none ∧ heard = false ∧ m = { s.survey.marks with noAnswer := true } →
      let before := rd1 s.survey.results p { valid := false, fault := .ok, min := 255, max := 0 }
      let r := if heard then
          { before with min := min before.min s.survey.elapsed, max := max before.max s.survey.elapsed }
        else before
      let fault : SurveyFault :=
        if m.noAnswer then .noAnswer else if m.badCheck then .badCheck else if m.wrongAddress then .wrongAddress
        else if m.unitMissing then .unitMissing else if s.tables.params.surveySlow < r.max then .slow else .ok
      exec c s = .next { s with
        line := s.line.ended []
        survey :=
          if stopped then s.survey
          else if s.survey.probes ≠ [] then { s.survey with results := wr1 s.survey.results p r, marks := m }
          else { s.survey with
            results := wr1 s.survey.results p { r with valid := true, fault := fault }
            min := min s.survey.min r.min, max := max s.survey.max r.max, validCount := s.survey.validCount + 1
            faultCount := if fault = .ok then s.survey.faultCount else s.survey.faultCount + 1
            marks := { noAnswer := false, badCheck := false, wrongAddress := false, unitMissing := false }
            rest := s.survey.rest.drop 1, probes := [.presence]
            state := if s.survey.rest.drop 1 = [] then .done else .running } }

/-! ### Rules of the whole machine -/

/-- The bytes of a unit's frame are the command they carry (R24, R201, R203, R204): for every well-formed command that is the arrival
of a frame on the station line, to receive the frame's bytes, check code included, is to take the command. No bit of any layout
is dropped. The rows that carry a frame as bytes and the typed rows are taken alike (the MODEL's choice,
notes/assumptions/6.md). -/
def Obligations.StationBytesAreTheirCommand : Prop :=
  ∀ (c : Instr) (bytes : List Byte) (s : State), c.wellFormed = true → stationFrame c = some bytes →
    exec (.lineFrameDiscarded bytes) s = exec c s

/-- The bytes of an office-link frame are the command they carry (R1, R2, R3, R7, R202): for every well-formed command that is the
arrival of a downward frame, to receive the frame's bytes at the part's own node is to take the command (the MODEL's choice for
the rows that carry bytes, notes/assumptions/6.md). A RESTART received as bytes finds the straps as they were last read
(notes/assumptions/7.md). -/
def Obligations.OfficeBytesAreTheirCommand : Prop :=
  ∀ (c : Instr) (kind tag : Nat) (payload : List Byte) (s : State), c.wellFormed = true →
    officeParts c = some (kind, tag, payload) → 1 ≤ s.port.node → s.port.node ≤ 254 →
    (∀ n params straps, c = .restart n params straps → straps = s.port.straps) →
    exec (.badFrame (officeFrame kind (toByte s.port.node) tag payload)) s = exec c s

/-- Every step keeps every capacity and range but the journal's (R5, R9, R18, R27, R34, R42, R69, R174): the queues within 64
and 4 entries, the counters within 65,535, the lock level within 2, the grant count within 7, the missed counts within 3, the
tag counter within 65,535 and the day clock within 16,777,215. It keeps the send window sound (R184, R193): a at most s, s at
most h, h at most N and at most a plus 4. -/
def Obligations.CapacitiesKept : Prop :=
  ∀ s t : State, step s = .next t → (s.Bounded → t.Bounded) ∧ (s.WindowSound → t.WindowSound)

/-- Every step keeps the pending request table sound (R67, R69): tags in 1 to 65,535, no tag twice, one waiting entry at most
for a position. It keeps the override order list (R79): each WAITING_OVERRIDE entry whose grant taken flag is clear stands on
it once, and no other, so that it holds 32 members at most. -/
def Obligations.PendingTableKept : Prop :=
  ∀ s t : State, step s = .next t → (s.EntriesSound → t.EntriesSound) ∧ (s.OverridesSound → t.OverridesSound)

/-- The journal (R172, R181): its records carry the sequence numbers 1 to n in every step, and no command but OPEN DAY, a start or
the bytes of an office-link frame, which may carry either, removes or changes a record. -/
def Obligations.JournalNumberedAndAppended : Prop :=
  (∀ s t : State, s.JournalNumbered → step s = .next t → t.JournalNumbered) ∧
  ∀ (c : Instr) (s t : State), exec c s = .next t →
    (∀ straps retv, c ≠ .powerOn straps retv) → (∀ tag ps straps, c ≠ .restart tag ps straps) →
    (∀ tag ps, c ≠ .openDay tag ps) → (∀ bytes, c ≠ .badFrame bytes) →
    (∀ kind node tag payload, c ≠ .wrongNodeFrame kind node tag payload) → s.journal.records <+: t.journal.records

/-- Every step keeps the journal's accounting (R172, R175, R176, R177, R179): each entry holds the claim its state calls for, the sum
of claims is the claims of the entries in use, the journal is closed in SENDING, HELD and SENT alone, and the records in use, the
claims and what the close of the day may still need fit its 16,384 places, so that the closing reserve is never overrun. -/
def Obligations.JournalPlacesKept : Prop := ∀ s t : State, s.JournalSound → step s = .next t → t.JournalSound

/-- Every step keeps the reservations (R93, R98, R99, R102, R103, R119): the reserved-out and pending-in counts of every drawer are
the sums of the items of the entries in use, the books cover what is reserved, and a drawer that is not ACTIVE holds none. -/
def Obligations.ReservationsKept : Prop := ∀ s t : State, s.ReservationsSound → step s = .next t → t.ReservationsSound

/-- The lock level falls at a start alone, and the tables change by TABLE WRITE and a cold start alone (R18, R19, R22, R13):
no other typed command lowers the level or changes a table. Money moves at a posting and a proof alone (R93, R103, R117,
R120): of the typed commands only ANSWER, REQUEST, OVERRIDE, COUNT, ACCEPT_DIFF and a start change any drawer's book count.
The rows that carry a frame or a message as bytes may carry one of these. -/
def Obligations.LockAndTablesHold : Prop :=
  ∀ (c : Instr) (s t : State), exec c s = .next t →
    (∀ straps retv, c ≠ .powerOn straps retv) → (∀ tag ps straps, c ≠ .restart tag ps straps) →
    (∀ bytes, c ≠ .badFrame bytes) → (∀ kind node tag payload, c ≠ .wrongNodeFrame kind node tag payload) →
    (s.lock ≤ t.lock ∧ ((∀ tag ps, c ≠ .tableWrite tag ps) → t.tables = s.tables)) ∧
    ((∀ bytes, c ≠ .lineFrameDiscarded bytes ∧ c ≠ .inboundFrameRejected bytes ∧ c ≠ .surveyProbeBadReply bytes) →
      (∀ p u kind seq payload, c ≠ .repeatMessage p u kind seq payload ∧ c ≠ .lineBadMessage p u kind seq payload) →
      (∀ tag payload, c ≠ .answer tag payload) → (∀ p seq r, c ≠ .request p seq r) →
      (∀ p seq tag decision, c ≠ .override p seq tag decision) →
      (∀ p seq d lists, c ≠ .count p seq d lists ∧ c ≠ .acceptDiff p seq d lists) → BooksKept s t)
end

