-- ==== Sys2Proof/Laws/State.lean ====
section
/-! SUPPORT. One lemma per field per update of State, and what the setters of one record of a bank leave as it was: no
later proof unfolds a record update. -/

set_option Elab.async false

namespace Sys2Proof.Machine.State

variable (s : State)

/-! #### withPort -/

@[simp] theorem withPort_port (x : Port) : (s.withPort x).port = x := rfl
@[simp] theorem withPort_counters (x : Port) : (s.withPort x).counters = s.counters := rfl
@[simp] theorem withPort_lock (x : Port) : (s.withPort x).lock = s.lock := rfl
@[simp] theorem withPort_tables (x : Port) : (s.withPort x).tables = s.tables := rfl
@[simp] theorem withPort_line (x : Port) : (s.withPort x).line = s.line := rfl
@[simp] theorem withPort_survey (x : Port) : (s.withPort x).survey = s.survey := rfl
@[simp] theorem withPort_sessions (x : Port) : (s.withPort x).sessions = s.sessions := rfl
@[simp] theorem withPort_entries (x : Port) : (s.withPort x).entries = s.entries := rfl
@[simp] theorem withPort_tagCounter (x : Port) : (s.withPort x).tagCounter = s.tagCounter := rfl
@[simp] theorem withPort_overrides (x : Port) : (s.withPort x).overrides = s.overrides := rfl
@[simp] theorem withPort_drawers (x : Port) : (s.withPort x).drawers = s.drawers := rfl
@[simp] theorem withPort_screens (x : Port) : (s.withPort x).screens = s.screens := rfl
@[simp] theorem withPort_printers (x : Port) : (s.withPort x).printers = s.printers := rfl
@[simp] theorem withPort_store (x : Port) : (s.withPort x).store = s.store := rfl
@[simp] theorem withPort_journal (x : Port) : (s.withPort x).journal = s.journal := rfl
@[simp] theorem withPort_day (x : Port) : (s.withPort x).day = s.day := rfl
@[simp] theorem withPort_freeDraws (x : Port) : (s.withPort x).freeDraws = s.freeDraws := rfl
@[simp] theorem withPort_pending (x : Port) : (s.withPort x).pending = s.pending := rfl

/-! #### withCounters -/

@[simp] theorem withCounters_port (x : Counters) : (s.withCounters x).port = s.port := rfl
@[simp] theorem withCounters_counters (x : Counters) : (s.withCounters x).counters = x := rfl
@[simp] theorem withCounters_lock (x : Counters) : (s.withCounters x).lock = s.lock := rfl
@[simp] theorem withCounters_tables (x : Counters) : (s.withCounters x).tables = s.tables := rfl
@[simp] theorem withCounters_line (x : Counters) : (s.withCounters x).line = s.line := rfl
@[simp] theorem withCounters_survey (x : Counters) : (s.withCounters x).survey = s.survey := rfl
@[simp] theorem withCounters_sessions (x : Counters) : (s.withCounters x).sessions = s.sessions := rfl
@[simp] theorem withCounters_entries (x : Counters) : (s.withCounters x).entries = s.entries := rfl
@[simp] theorem withCounters_tagCounter (x : Counters) : (s.withCounters x).tagCounter = s.tagCounter := rfl
@[simp] theorem withCounters_overrides (x : Counters) : (s.withCounters x).overrides = s.overrides := rfl
@[simp] theorem withCounters_drawers (x : Counters) : (s.withCounters x).drawers = s.drawers := rfl
@[simp] theorem withCounters_screens (x : Counters) : (s.withCounters x).screens = s.screens := rfl
@[simp] theorem withCounters_printers (x : Counters) : (s.withCounters x).printers = s.printers := rfl
@[simp] theorem withCounters_store (x : Counters) : (s.withCounters x).store = s.store := rfl
@[simp] theorem withCounters_journal (x : Counters) : (s.withCounters x).journal = s.journal := rfl
@[simp] theorem withCounters_day (x : Counters) : (s.withCounters x).day = s.day := rfl
@[simp] theorem withCounters_freeDraws (x : Counters) : (s.withCounters x).freeDraws = s.freeDraws := rfl
@[simp] theorem withCounters_pending (x : Counters) : (s.withCounters x).pending = s.pending := rfl

/-! #### withLock -/

@[simp] theorem withLock_port (x : Nat) : (s.withLock x).port = s.port := rfl
@[simp] theorem withLock_counters (x : Nat) : (s.withLock x).counters = s.counters := rfl
@[simp] theorem withLock_lock (x : Nat) : (s.withLock x).lock = x := rfl
@[simp] theorem withLock_tables (x : Nat) : (s.withLock x).tables = s.tables := rfl
@[simp] theorem withLock_line (x : Nat) : (s.withLock x).line = s.line := rfl
@[simp] theorem withLock_survey (x : Nat) : (s.withLock x).survey = s.survey := rfl
@[simp] theorem withLock_sessions (x : Nat) : (s.withLock x).sessions = s.sessions := rfl
@[simp] theorem withLock_entries (x : Nat) : (s.withLock x).entries = s.entries := rfl
@[simp] theorem withLock_tagCounter (x : Nat) : (s.withLock x).tagCounter = s.tagCounter := rfl
@[simp] theorem withLock_overrides (x : Nat) : (s.withLock x).overrides = s.overrides := rfl
@[simp] theorem withLock_drawers (x : Nat) : (s.withLock x).drawers = s.drawers := rfl
@[simp] theorem withLock_screens (x : Nat) : (s.withLock x).screens = s.screens := rfl
@[simp] theorem withLock_printers (x : Nat) : (s.withLock x).printers = s.printers := rfl
@[simp] theorem withLock_store (x : Nat) : (s.withLock x).store = s.store := rfl
@[simp] theorem withLock_journal (x : Nat) : (s.withLock x).journal = s.journal := rfl
@[simp] theorem withLock_day (x : Nat) : (s.withLock x).day = s.day := rfl
@[simp] theorem withLock_freeDraws (x : Nat) : (s.withLock x).freeDraws = s.freeDraws := rfl
@[simp] theorem withLock_pending (x : Nat) : (s.withLock x).pending = s.pending := rfl

/-! #### withTables -/

@[simp] theorem withTables_port (x : Tables) : (s.withTables x).port = s.port := rfl
@[simp] theorem withTables_counters (x : Tables) : (s.withTables x).counters = s.counters := rfl
@[simp] theorem withTables_lock (x : Tables) : (s.withTables x).lock = s.lock := rfl
@[simp] theorem withTables_tables (x : Tables) : (s.withTables x).tables = x := rfl
@[simp] theorem withTables_line (x : Tables) : (s.withTables x).line = s.line := rfl
@[simp] theorem withTables_survey (x : Tables) : (s.withTables x).survey = s.survey := rfl
@[simp] theorem withTables_sessions (x : Tables) : (s.withTables x).sessions = s.sessions := rfl
@[simp] theorem withTables_entries (x : Tables) : (s.withTables x).entries = s.entries := rfl
@[simp] theorem withTables_tagCounter (x : Tables) : (s.withTables x).tagCounter = s.tagCounter := rfl
@[simp] theorem withTables_overrides (x : Tables) : (s.withTables x).overrides = s.overrides := rfl
@[simp] theorem withTables_drawers (x : Tables) : (s.withTables x).drawers = s.drawers := rfl
@[simp] theorem withTables_screens (x : Tables) : (s.withTables x).screens = s.screens := rfl
@[simp] theorem withTables_printers (x : Tables) : (s.withTables x).printers = s.printers := rfl
@[simp] theorem withTables_store (x : Tables) : (s.withTables x).store = s.store := rfl
@[simp] theorem withTables_journal (x : Tables) : (s.withTables x).journal = s.journal := rfl
@[simp] theorem withTables_day (x : Tables) : (s.withTables x).day = s.day := rfl
@[simp] theorem withTables_freeDraws (x : Tables) : (s.withTables x).freeDraws = s.freeDraws := rfl
@[simp] theorem withTables_pending (x : Tables) : (s.withTables x).pending = s.pending := rfl

/-! #### withLine -/

@[simp] theorem withLine_port (x : Line) : (s.withLine x).port = s.port := rfl
@[simp] theorem withLine_counters (x : Line) : (s.withLine x).counters = s.counters := rfl
@[simp] theorem withLine_lock (x : Line) : (s.withLine x).lock = s.lock := rfl
@[simp] theorem withLine_tables (x : Line) : (s.withLine x).tables = s.tables := rfl
@[simp] theorem withLine_line (x : Line) : (s.withLine x).line = x := rfl
@[simp] theorem withLine_survey (x : Line) : (s.withLine x).survey = s.survey := rfl
@[simp] theorem withLine_sessions (x : Line) : (s.withLine x).sessions = s.sessions := rfl
@[simp] theorem withLine_entries (x : Line) : (s.withLine x).entries = s.entries := rfl
@[simp] theorem withLine_tagCounter (x : Line) : (s.withLine x).tagCounter = s.tagCounter := rfl
@[simp] theorem withLine_overrides (x : Line) : (s.withLine x).overrides = s.overrides := rfl
@[simp] theorem withLine_drawers (x : Line) : (s.withLine x).drawers = s.drawers := rfl
@[simp] theorem withLine_screens (x : Line) : (s.withLine x).screens = s.screens := rfl
@[simp] theorem withLine_printers (x : Line) : (s.withLine x).printers = s.printers := rfl
@[simp] theorem withLine_store (x : Line) : (s.withLine x).store = s.store := rfl
@[simp] theorem withLine_journal (x : Line) : (s.withLine x).journal = s.journal := rfl
@[simp] theorem withLine_day (x : Line) : (s.withLine x).day = s.day := rfl
@[simp] theorem withLine_freeDraws (x : Line) : (s.withLine x).freeDraws = s.freeDraws := rfl
@[simp] theorem withLine_pending (x : Line) : (s.withLine x).pending = s.pending := rfl

/-! #### withSurvey -/

@[simp] theorem withSurvey_port (x : Survey) : (s.withSurvey x).port = s.port := rfl
@[simp] theorem withSurvey_counters (x : Survey) : (s.withSurvey x).counters = s.counters := rfl
@[simp] theorem withSurvey_lock (x : Survey) : (s.withSurvey x).lock = s.lock := rfl
@[simp] theorem withSurvey_tables (x : Survey) : (s.withSurvey x).tables = s.tables := rfl
@[simp] theorem withSurvey_line (x : Survey) : (s.withSurvey x).line = s.line := rfl
@[simp] theorem withSurvey_survey (x : Survey) : (s.withSurvey x).survey = x := rfl
@[simp] theorem withSurvey_sessions (x : Survey) : (s.withSurvey x).sessions = s.sessions := rfl
@[simp] theorem withSurvey_entries (x : Survey) : (s.withSurvey x).entries = s.entries := rfl
@[simp] theorem withSurvey_tagCounter (x : Survey) : (s.withSurvey x).tagCounter = s.tagCounter := rfl
@[simp] theorem withSurvey_overrides (x : Survey) : (s.withSurvey x).overrides = s.overrides := rfl
@[simp] theorem withSurvey_drawers (x : Survey) : (s.withSurvey x).drawers = s.drawers := rfl
@[simp] theorem withSurvey_screens (x : Survey) : (s.withSurvey x).screens = s.screens := rfl
@[simp] theorem withSurvey_printers (x : Survey) : (s.withSurvey x).printers = s.printers := rfl
@[simp] theorem withSurvey_store (x : Survey) : (s.withSurvey x).store = s.store := rfl
@[simp] theorem withSurvey_journal (x : Survey) : (s.withSurvey x).journal = s.journal := rfl
@[simp] theorem withSurvey_day (x : Survey) : (s.withSurvey x).day = s.day := rfl
@[simp] theorem withSurvey_freeDraws (x : Survey) : (s.withSurvey x).freeDraws = s.freeDraws := rfl
@[simp] theorem withSurvey_pending (x : Survey) : (s.withSurvey x).pending = s.pending := rfl

/-! #### withSessions -/

@[simp] theorem withSessions_port (x : Vector Session 24) : (s.withSessions x).port = s.port := rfl
@[simp] theorem withSessions_counters (x : Vector Session 24) : (s.withSessions x).counters = s.counters := rfl
@[simp] theorem withSessions_lock (x : Vector Session 24) : (s.withSessions x).lock = s.lock := rfl
@[simp] theorem withSessions_tables (x : Vector Session 24) : (s.withSessions x).tables = s.tables := rfl
@[simp] theorem withSessions_line (x : Vector Session 24) : (s.withSessions x).line = s.line := rfl
@[simp] theorem withSessions_survey (x : Vector Session 24) : (s.withSessions x).survey = s.survey := rfl
@[simp] theorem withSessions_sessions (x : Vector Session 24) : (s.withSessions x).sessions = x := rfl
@[simp] theorem withSessions_entries (x : Vector Session 24) : (s.withSessions x).entries = s.entries := rfl
@[simp] theorem withSessions_tagCounter (x : Vector Session 24) : (s.withSessions x).tagCounter = s.tagCounter := rfl
@[simp] theorem withSessions_overrides (x : Vector Session 24) : (s.withSessions x).overrides = s.overrides := rfl
@[simp] theorem withSessions_drawers (x : Vector Session 24) : (s.withSessions x).drawers = s.drawers := rfl
@[simp] theorem withSessions_screens (x : Vector Session 24) : (s.withSessions x).screens = s.screens := rfl
@[simp] theorem withSessions_printers (x : Vector Session 24) : (s.withSessions x).printers = s.printers := rfl
@[simp] theorem withSessions_store (x : Vector Session 24) : (s.withSessions x).store = s.store := rfl
@[simp] theorem withSessions_journal (x : Vector Session 24) : (s.withSessions x).journal = s.journal := rfl
@[simp] theorem withSessions_day (x : Vector Session 24) : (s.withSessions x).day = s.day := rfl
@[simp] theorem withSessions_freeDraws (x : Vector Session 24) : (s.withSessions x).freeDraws = s.freeDraws := rfl
@[simp] theorem withSessions_pending (x : Vector Session 24) : (s.withSessions x).pending = s.pending := rfl

/-! #### withEntries -/

@[simp] theorem withEntries_port (x : Vector (Option Entry) 32) : (s.withEntries x).port = s.port := rfl
@[simp] theorem withEntries_counters (x : Vector (Option Entry) 32) : (s.withEntries x).counters = s.counters := rfl
@[simp] theorem withEntries_lock (x : Vector (Option Entry) 32) : (s.withEntries x).lock = s.lock := rfl
@[simp] theorem withEntries_tables (x : Vector (Option Entry) 32) : (s.withEntries x).tables = s.tables := rfl
@[simp] theorem withEntries_line (x : Vector (Option Entry) 32) : (s.withEntries x).line = s.line := rfl
@[simp] theorem withEntries_survey (x : Vector (Option Entry) 32) : (s.withEntries x).survey = s.survey := rfl
@[simp] theorem withEntries_sessions (x : Vector (Option Entry) 32) : (s.withEntries x).sessions = s.sessions := rfl
@[simp] theorem withEntries_entries (x : Vector (Option Entry) 32) : (s.withEntries x).entries = x := rfl
@[simp] theorem withEntries_tagCounter (x : Vector (Option Entry) 32) : (s.withEntries x).tagCounter = s.tagCounter := rfl
@[simp] theorem withEntries_overrides (x : Vector (Option Entry) 32) : (s.withEntries x).overrides = s.overrides := rfl
@[simp] theorem withEntries_drawers (x : Vector (Option Entry) 32) : (s.withEntries x).drawers = s.drawers := rfl
@[simp] theorem withEntries_screens (x : Vector (Option Entry) 32) : (s.withEntries x).screens = s.screens := rfl
@[simp] theorem withEntries_printers (x : Vector (Option Entry) 32) : (s.withEntries x).printers = s.printers := rfl
@[simp] theorem withEntries_store (x : Vector (Option Entry) 32) : (s.withEntries x).store = s.store := rfl
@[simp] theorem withEntries_journal (x : Vector (Option Entry) 32) : (s.withEntries x).journal = s.journal := rfl
@[simp] theorem withEntries_day (x : Vector (Option Entry) 32) : (s.withEntries x).day = s.day := rfl
@[simp] theorem withEntries_freeDraws (x : Vector (Option Entry) 32) : (s.withEntries x).freeDraws = s.freeDraws := rfl
@[simp] theorem withEntries_pending (x : Vector (Option Entry) 32) : (s.withEntries x).pending = s.pending := rfl

/-! #### withTagCounter -/

@[simp] theorem withTagCounter_port (x : Nat) : (s.withTagCounter x).port = s.port := rfl
@[simp] theorem withTagCounter_counters (x : Nat) : (s.withTagCounter x).counters = s.counters := rfl
@[simp] theorem withTagCounter_lock (x : Nat) : (s.withTagCounter x).lock = s.lock := rfl
@[simp] theorem withTagCounter_tables (x : Nat) : (s.withTagCounter x).tables = s.tables := rfl
@[simp] theorem withTagCounter_line (x : Nat) : (s.withTagCounter x).line = s.line := rfl
@[simp] theorem withTagCounter_survey (x : Nat) : (s.withTagCounter x).survey = s.survey := rfl
@[simp] theorem withTagCounter_sessions (x : Nat) : (s.withTagCounter x).sessions = s.sessions := rfl
@[simp] theorem withTagCounter_entries (x : Nat) : (s.withTagCounter x).entries = s.entries := rfl
@[simp] theorem withTagCounter_tagCounter (x : Nat) : (s.withTagCounter x).tagCounter = x := rfl
@[simp] theorem withTagCounter_overrides (x : Nat) : (s.withTagCounter x).overrides = s.overrides := rfl
@[simp] theorem withTagCounter_drawers (x : Nat) : (s.withTagCounter x).drawers = s.drawers := rfl
@[simp] theorem withTagCounter_screens (x : Nat) : (s.withTagCounter x).screens = s.screens := rfl
@[simp] theorem withTagCounter_printers (x : Nat) : (s.withTagCounter x).printers = s.printers := rfl
@[simp] theorem withTagCounter_store (x : Nat) : (s.withTagCounter x).store = s.store := rfl
@[simp] theorem withTagCounter_journal (x : Nat) : (s.withTagCounter x).journal = s.journal := rfl
@[simp] theorem withTagCounter_day (x : Nat) : (s.withTagCounter x).day = s.day := rfl
@[simp] theorem withTagCounter_freeDraws (x : Nat) : (s.withTagCounter x).freeDraws = s.freeDraws := rfl
@[simp] theorem withTagCounter_pending (x : Nat) : (s.withTagCounter x).pending = s.pending := rfl

/-! #### withOverrides -/

@[simp] theorem withOverrides_port (x : List Nat) : (s.withOverrides x).port = s.port := rfl
@[simp] theorem withOverrides_counters (x : List Nat) : (s.withOverrides x).counters = s.counters := rfl
@[simp] theorem withOverrides_lock (x : List Nat) : (s.withOverrides x).lock = s.lock := rfl
@[simp] theorem withOverrides_tables (x : List Nat) : (s.withOverrides x).tables = s.tables := rfl
@[simp] theorem withOverrides_line (x : List Nat) : (s.withOverrides x).line = s.line := rfl
@[simp] theorem withOverrides_survey (x : List Nat) : (s.withOverrides x).survey = s.survey := rfl
@[simp] theorem withOverrides_sessions (x : List Nat) : (s.withOverrides x).sessions = s.sessions := rfl
@[simp] theorem withOverrides_entries (x : List Nat) : (s.withOverrides x).entries = s.entries := rfl
@[simp] theorem withOverrides_tagCounter (x : List Nat) : (s.withOverrides x).tagCounter = s.tagCounter := rfl
@[simp] theorem withOverrides_overrides (x : List Nat) : (s.withOverrides x).overrides = x := rfl
@[simp] theorem withOverrides_drawers (x : List Nat) : (s.withOverrides x).drawers = s.drawers := rfl
@[simp] theorem withOverrides_screens (x : List Nat) : (s.withOverrides x).screens = s.screens := rfl
@[simp] theorem withOverrides_printers (x : List Nat) : (s.withOverrides x).printers = s.printers := rfl
@[simp] theorem withOverrides_store (x : List Nat) : (s.withOverrides x).store = s.store := rfl
@[simp] theorem withOverrides_journal (x : List Nat) : (s.withOverrides x).journal = s.journal := rfl
@[simp] theorem withOverrides_day (x : List Nat) : (s.withOverrides x).day = s.day := rfl
@[simp] theorem withOverrides_freeDraws (x : List Nat) : (s.withOverrides x).freeDraws = s.freeDraws := rfl
@[simp] theorem withOverrides_pending (x : List Nat) : (s.withOverrides x).pending = s.pending := rfl

/-! #### withDrawers -/

@[simp] theorem withDrawers_port (x : Vector Drawer 25) : (s.withDrawers x).port = s.port := rfl
@[simp] theorem withDrawers_counters (x : Vector Drawer 25) : (s.withDrawers x).counters = s.counters := rfl
@[simp] theorem withDrawers_lock (x : Vector Drawer 25) : (s.withDrawers x).lock = s.lock := rfl
@[simp] theorem withDrawers_tables (x : Vector Drawer 25) : (s.withDrawers x).tables = s.tables := rfl
@[simp] theorem withDrawers_line (x : Vector Drawer 25) : (s.withDrawers x).line = s.line := rfl
@[simp] theorem withDrawers_survey (x : Vector Drawer 25) : (s.withDrawers x).survey = s.survey := rfl
@[simp] theorem withDrawers_sessions (x : Vector Drawer 25) : (s.withDrawers x).sessions = s.sessions := rfl
@[simp] theorem withDrawers_entries (x : Vector Drawer 25) : (s.withDrawers x).entries = s.entries := rfl
@[simp] theorem withDrawers_tagCounter (x : Vector Drawer 25) : (s.withDrawers x).tagCounter = s.tagCounter := rfl
@[simp] theorem withDrawers_overrides (x : Vector Drawer 25) : (s.withDrawers x).overrides = s.overrides := rfl
@[simp] theorem withDrawers_drawers (x : Vector Drawer 25) : (s.withDrawers x).drawers = x := rfl
@[simp] theorem withDrawers_screens (x : Vector Drawer 25) : (s.withDrawers x).screens = s.screens := rfl
@[simp] theorem withDrawers_printers (x : Vector Drawer 25) : (s.withDrawers x).printers = s.printers := rfl
@[simp] theorem withDrawers_store (x : Vector Drawer 25) : (s.withDrawers x).store = s.store := rfl
@[simp] theorem withDrawers_journal (x : Vector Drawer 25) : (s.withDrawers x).journal = s.journal := rfl
@[simp] theorem withDrawers_day (x : Vector Drawer 25) : (s.withDrawers x).day = s.day := rfl
@[simp] theorem withDrawers_freeDraws (x : Vector Drawer 25) : (s.withDrawers x).freeDraws = s.freeDraws := rfl
@[simp] theorem withDrawers_pending (x : Vector Drawer 25) : (s.withDrawers x).pending = s.pending := rfl

/-! #### withScreens -/

@[simp] theorem withScreens_port (x : Vector Screen 24) : (s.withScreens x).port = s.port := rfl
@[simp] theorem withScreens_counters (x : Vector Screen 24) : (s.withScreens x).counters = s.counters := rfl
@[simp] theorem withScreens_lock (x : Vector Screen 24) : (s.withScreens x).lock = s.lock := rfl
@[simp] theorem withScreens_tables (x : Vector Screen 24) : (s.withScreens x).tables = s.tables := rfl
@[simp] theorem withScreens_line (x : Vector Screen 24) : (s.withScreens x).line = s.line := rfl
@[simp] theorem withScreens_survey (x : Vector Screen 24) : (s.withScreens x).survey = s.survey := rfl
@[simp] theorem withScreens_sessions (x : Vector Screen 24) : (s.withScreens x).sessions = s.sessions := rfl
@[simp] theorem withScreens_entries (x : Vector Screen 24) : (s.withScreens x).entries = s.entries := rfl
@[simp] theorem withScreens_tagCounter (x : Vector Screen 24) : (s.withScreens x).tagCounter = s.tagCounter := rfl
@[simp] theorem withScreens_overrides (x : Vector Screen 24) : (s.withScreens x).overrides = s.overrides := rfl
@[simp] theorem withScreens_drawers (x : Vector Screen 24) : (s.withScreens x).drawers = s.drawers := rfl
@[simp] theorem withScreens_screens (x : Vector Screen 24) : (s.withScreens x).screens = x := rfl
@[simp] theorem withScreens_printers (x : Vector Screen 24) : (s.withScreens x).printers = s.printers := rfl
@[simp] theorem withScreens_store (x : Vector Screen 24) : (s.withScreens x).store = s.store := rfl
@[simp] theorem withScreens_journal (x : Vector Screen 24) : (s.withScreens x).journal = s.journal := rfl
@[simp] theorem withScreens_day (x : Vector Screen 24) : (s.withScreens x).day = s.day := rfl
@[simp] theorem withScreens_freeDraws (x : Vector Screen 24) : (s.withScreens x).freeDraws = s.freeDraws := rfl
@[simp] theorem withScreens_pending (x : Vector Screen 24) : (s.withScreens x).pending = s.pending := rfl

/-! #### withPrinters -/

@[simp] theorem withPrinters_port (x : Vector Printer 24) : (s.withPrinters x).port = s.port := rfl
@[simp] theorem withPrinters_counters (x : Vector Printer 24) : (s.withPrinters x).counters = s.counters := rfl
@[simp] theorem withPrinters_lock (x : Vector Printer 24) : (s.withPrinters x).lock = s.lock := rfl
@[simp] theorem withPrinters_tables (x : Vector Printer 24) : (s.withPrinters x).tables = s.tables := rfl
@[simp] theorem withPrinters_line (x : Vector Printer 24) : (s.withPrinters x).line = s.line := rfl
@[simp] theorem withPrinters_survey (x : Vector Printer 24) : (s.withPrinters x).survey = s.survey := rfl
@[simp] theorem withPrinters_sessions (x : Vector Printer 24) : (s.withPrinters x).sessions = s.sessions := rfl
@[simp] theorem withPrinters_entries (x : Vector Printer 24) : (s.withPrinters x).entries = s.entries := rfl
@[simp] theorem withPrinters_tagCounter (x : Vector Printer 24) : (s.withPrinters x).tagCounter = s.tagCounter := rfl
@[simp] theorem withPrinters_overrides (x : Vector Printer 24) : (s.withPrinters x).overrides = s.overrides := rfl
@[simp] theorem withPrinters_drawers (x : Vector Printer 24) : (s.withPrinters x).drawers = s.drawers := rfl
@[simp] theorem withPrinters_screens (x : Vector Printer 24) : (s.withPrinters x).screens = s.screens := rfl
@[simp] theorem withPrinters_printers (x : Vector Printer 24) : (s.withPrinters x).printers = x := rfl
@[simp] theorem withPrinters_store (x : Vector Printer 24) : (s.withPrinters x).store = s.store := rfl
@[simp] theorem withPrinters_journal (x : Vector Printer 24) : (s.withPrinters x).journal = s.journal := rfl
@[simp] theorem withPrinters_day (x : Vector Printer 24) : (s.withPrinters x).day = s.day := rfl
@[simp] theorem withPrinters_freeDraws (x : Vector Printer 24) : (s.withPrinters x).freeDraws = s.freeDraws := rfl
@[simp] theorem withPrinters_pending (x : Vector Printer 24) : (s.withPrinters x).pending = s.pending := rfl

/-! #### withStore -/

@[simp] theorem withStore_port (x : Vector (Option PrintLine) 256) : (s.withStore x).port = s.port := rfl
@[simp] theorem withStore_counters (x : Vector (Option PrintLine) 256) : (s.withStore x).counters = s.counters := rfl
@[simp] theorem withStore_lock (x : Vector (Option PrintLine) 256) : (s.withStore x).lock = s.lock := rfl
@[simp] theorem withStore_tables (x : Vector (Option PrintLine) 256) : (s.withStore x).tables = s.tables := rfl
@[simp] theorem withStore_line (x : Vector (Option PrintLine) 256) : (s.withStore x).line = s.line := rfl
@[simp] theorem withStore_survey (x : Vector (Option PrintLine) 256) : (s.withStore x).survey = s.survey := rfl
@[simp] theorem withStore_sessions (x : Vector (Option PrintLine) 256) : (s.withStore x).sessions = s.sessions := rfl
@[simp] theorem withStore_entries (x : Vector (Option PrintLine) 256) : (s.withStore x).entries = s.entries := rfl
@[simp] theorem withStore_tagCounter (x : Vector (Option PrintLine) 256) : (s.withStore x).tagCounter = s.tagCounter := rfl
@[simp] theorem withStore_overrides (x : Vector (Option PrintLine) 256) : (s.withStore x).overrides = s.overrides := rfl
@[simp] theorem withStore_drawers (x : Vector (Option PrintLine) 256) : (s.withStore x).drawers = s.drawers := rfl
@[simp] theorem withStore_screens (x : Vector (Option PrintLine) 256) : (s.withStore x).screens = s.screens := rfl
@[simp] theorem withStore_printers (x : Vector (Option PrintLine) 256) : (s.withStore x).printers = s.printers := rfl
@[simp] theorem withStore_store (x : Vector (Option PrintLine) 256) : (s.withStore x).store = x := rfl
@[simp] theorem withStore_journal (x : Vector (Option PrintLine) 256) : (s.withStore x).journal = s.journal := rfl
@[simp] theorem withStore_day (x : Vector (Option PrintLine) 256) : (s.withStore x).day = s.day := rfl
@[simp] theorem withStore_freeDraws (x : Vector (Option PrintLine) 256) : (s.withStore x).freeDraws = s.freeDraws := rfl
@[simp] theorem withStore_pending (x : Vector (Option PrintLine) 256) : (s.withStore x).pending = s.pending := rfl

/-! #### withJournal -/

@[simp] theorem withJournal_port (x : Journal) : (s.withJournal x).port = s.port := rfl
@[simp] theorem withJournal_counters (x : Journal) : (s.withJournal x).counters = s.counters := rfl
@[simp] theorem withJournal_lock (x : Journal) : (s.withJournal x).lock = s.lock := rfl
@[simp] theorem withJournal_tables (x : Journal) : (s.withJournal x).tables = s.tables := rfl
@[simp] theorem withJournal_line (x : Journal) : (s.withJournal x).line = s.line := rfl
@[simp] theorem withJournal_survey (x : Journal) : (s.withJournal x).survey = s.survey := rfl
@[simp] theorem withJournal_sessions (x : Journal) : (s.withJournal x).sessions = s.sessions := rfl
@[simp] theorem withJournal_entries (x : Journal) : (s.withJournal x).entries = s.entries := rfl
@[simp] theorem withJournal_tagCounter (x : Journal) : (s.withJournal x).tagCounter = s.tagCounter := rfl
@[simp] theorem withJournal_overrides (x : Journal) : (s.withJournal x).overrides = s.overrides := rfl
@[simp] theorem withJournal_drawers (x : Journal) : (s.withJournal x).drawers = s.drawers := rfl
@[simp] theorem withJournal_screens (x : Journal) : (s.withJournal x).screens = s.screens := rfl
@[simp] theorem withJournal_printers (x : Journal) : (s.withJournal x).printers = s.printers := rfl
@[simp] theorem withJournal_store (x : Journal) : (s.withJournal x).store = s.store := rfl
@[simp] theorem withJournal_journal (x : Journal) : (s.withJournal x).journal = x := rfl
@[simp] theorem withJournal_day (x : Journal) : (s.withJournal x).day = s.day := rfl
@[simp] theorem withJournal_freeDraws (x : Journal) : (s.withJournal x).freeDraws = s.freeDraws := rfl
@[simp] theorem withJournal_pending (x : Journal) : (s.withJournal x).pending = s.pending := rfl

/-! #### withDay -/

@[simp] theorem withDay_port (x : Day) : (s.withDay x).port = s.port := rfl
@[simp] theorem withDay_counters (x : Day) : (s.withDay x).counters = s.counters := rfl
@[simp] theorem withDay_lock (x : Day) : (s.withDay x).lock = s.lock := rfl
@[simp] theorem withDay_tables (x : Day) : (s.withDay x).tables = s.tables := rfl
@[simp] theorem withDay_line (x : Day) : (s.withDay x).line = s.line := rfl
@[simp] theorem withDay_survey (x : Day) : (s.withDay x).survey = s.survey := rfl
@[simp] theorem withDay_sessions (x : Day) : (s.withDay x).sessions = s.sessions := rfl
@[simp] theorem withDay_entries (x : Day) : (s.withDay x).entries = s.entries := rfl
@[simp] theorem withDay_tagCounter (x : Day) : (s.withDay x).tagCounter = s.tagCounter := rfl
@[simp] theorem withDay_overrides (x : Day) : (s.withDay x).overrides = s.overrides := rfl
@[simp] theorem withDay_drawers (x : Day) : (s.withDay x).drawers = s.drawers := rfl
@[simp] theorem withDay_screens (x : Day) : (s.withDay x).screens = s.screens := rfl
@[simp] theorem withDay_printers (x : Day) : (s.withDay x).printers = s.printers := rfl
@[simp] theorem withDay_store (x : Day) : (s.withDay x).store = s.store := rfl
@[simp] theorem withDay_journal (x : Day) : (s.withDay x).journal = s.journal := rfl
@[simp] theorem withDay_day (x : Day) : (s.withDay x).day = x := rfl
@[simp] theorem withDay_freeDraws (x : Day) : (s.withDay x).freeDraws = s.freeDraws := rfl
@[simp] theorem withDay_pending (x : Day) : (s.withDay x).pending = s.pending := rfl

/-! #### withFreeDraws -/

@[simp] theorem withFreeDraws_port (x : Nat) : (s.withFreeDraws x).port = s.port := rfl
@[simp] theorem withFreeDraws_counters (x : Nat) : (s.withFreeDraws x).counters = s.counters := rfl
@[simp] theorem withFreeDraws_lock (x : Nat) : (s.withFreeDraws x).lock = s.lock := rfl
@[simp] theorem withFreeDraws_tables (x : Nat) : (s.withFreeDraws x).tables = s.tables := rfl
@[simp] theorem withFreeDraws_line (x : Nat) : (s.withFreeDraws x).line = s.line := rfl
@[simp] theorem withFreeDraws_survey (x : Nat) : (s.withFreeDraws x).survey = s.survey := rfl
@[simp] theorem withFreeDraws_sessions (x : Nat) : (s.withFreeDraws x).sessions = s.sessions := rfl
@[simp] theorem withFreeDraws_entries (x : Nat) : (s.withFreeDraws x).entries = s.entries := rfl
@[simp] theorem withFreeDraws_tagCounter (x : Nat) : (s.withFreeDraws x).tagCounter = s.tagCounter := rfl
@[simp] theorem withFreeDraws_overrides (x : Nat) : (s.withFreeDraws x).overrides = s.overrides := rfl
@[simp] theorem withFreeDraws_drawers (x : Nat) : (s.withFreeDraws x).drawers = s.drawers := rfl
@[simp] theorem withFreeDraws_screens (x : Nat) : (s.withFreeDraws x).screens = s.screens := rfl
@[simp] theorem withFreeDraws_printers (x : Nat) : (s.withFreeDraws x).printers = s.printers := rfl
@[simp] theorem withFreeDraws_store (x : Nat) : (s.withFreeDraws x).store = s.store := rfl
@[simp] theorem withFreeDraws_journal (x : Nat) : (s.withFreeDraws x).journal = s.journal := rfl
@[simp] theorem withFreeDraws_day (x : Nat) : (s.withFreeDraws x).day = s.day := rfl
@[simp] theorem withFreeDraws_freeDraws (x : Nat) : (s.withFreeDraws x).freeDraws = x := rfl
@[simp] theorem withFreeDraws_pending (x : Nat) : (s.withFreeDraws x).pending = s.pending := rfl

/-! #### withPending -/

@[simp] theorem withPending_port (x : List Instr) : (s.withPending x).port = s.port := rfl
@[simp] theorem withPending_counters (x : List Instr) : (s.withPending x).counters = s.counters := rfl
@[simp] theorem withPending_lock (x : List Instr) : (s.withPending x).lock = s.lock := rfl
@[simp] theorem withPending_tables (x : List Instr) : (s.withPending x).tables = s.tables := rfl
@[simp] theorem withPending_line (x : List Instr) : (s.withPending x).line = s.line := rfl
@[simp] theorem withPending_survey (x : List Instr) : (s.withPending x).survey = s.survey := rfl
@[simp] theorem withPending_sessions (x : List Instr) : (s.withPending x).sessions = s.sessions := rfl
@[simp] theorem withPending_entries (x : List Instr) : (s.withPending x).entries = s.entries := rfl
@[simp] theorem withPending_tagCounter (x : List Instr) : (s.withPending x).tagCounter = s.tagCounter := rfl
@[simp] theorem withPending_overrides (x : List Instr) : (s.withPending x).overrides = s.overrides := rfl
@[simp] theorem withPending_drawers (x : List Instr) : (s.withPending x).drawers = s.drawers := rfl
@[simp] theorem withPending_screens (x : List Instr) : (s.withPending x).screens = s.screens := rfl
@[simp] theorem withPending_printers (x : List Instr) : (s.withPending x).printers = s.printers := rfl
@[simp] theorem withPending_store (x : List Instr) : (s.withPending x).store = s.store := rfl
@[simp] theorem withPending_journal (x : List Instr) : (s.withPending x).journal = s.journal := rfl
@[simp] theorem withPending_day (x : List Instr) : (s.withPending x).day = s.day := rfl
@[simp] theorem withPending_freeDraws (x : List Instr) : (s.withPending x).freeDraws = s.freeDraws := rfl
@[simp] theorem withPending_pending (x : List Instr) : (s.withPending x).pending = x := rfl

/-! #### setScreen -/

@[simp] theorem setScreen_port (p : Nat) (x : Screen) : (s.setScreen p x).port = s.port := rfl
@[simp] theorem setScreen_counters (p : Nat) (x : Screen) : (s.setScreen p x).counters = s.counters := rfl
@[simp] theorem setScreen_lock (p : Nat) (x : Screen) : (s.setScreen p x).lock = s.lock := rfl
@[simp] theorem setScreen_tables (p : Nat) (x : Screen) : (s.setScreen p x).tables = s.tables := rfl
@[simp] theorem setScreen_line (p : Nat) (x : Screen) : (s.setScreen p x).line = s.line := rfl
@[simp] theorem setScreen_survey (p : Nat) (x : Screen) : (s.setScreen p x).survey = s.survey := rfl
@[simp] theorem setScreen_sessions (p : Nat) (x : Screen) : (s.setScreen p x).sessions = s.sessions := rfl
@[simp] theorem setScreen_entries (p : Nat) (x : Screen) : (s.setScreen p x).entries = s.entries := rfl
@[simp] theorem setScreen_tagCounter (p : Nat) (x : Screen) : (s.setScreen p x).tagCounter = s.tagCounter := rfl
@[simp] theorem setScreen_overrides (p : Nat) (x : Screen) : (s.setScreen p x).overrides = s.overrides := rfl
@[simp] theorem setScreen_drawers (p : Nat) (x : Screen) : (s.setScreen p x).drawers = s.drawers := rfl
@[simp] theorem setScreen_screens (p : Nat) (x : Screen) : (s.setScreen p x).screens = wr1 s.screens p x := rfl
@[simp] theorem setScreen_printers (p : Nat) (x : Screen) : (s.setScreen p x).printers = s.printers := rfl
@[simp] theorem setScreen_store (p : Nat) (x : Screen) : (s.setScreen p x).store = s.store := rfl
@[simp] theorem setScreen_journal (p : Nat) (x : Screen) : (s.setScreen p x).journal = s.journal := rfl
@[simp] theorem setScreen_day (p : Nat) (x : Screen) : (s.setScreen p x).day = s.day := rfl
@[simp] theorem setScreen_freeDraws (p : Nat) (x : Screen) : (s.setScreen p x).freeDraws = s.freeDraws := rfl
@[simp] theorem setScreen_pending (p : Nat) (x : Screen) : (s.setScreen p x).pending = s.pending := rfl

/-! #### setPrinter -/

@[simp] theorem setPrinter_port (p : Nat) (x : Printer) : (s.setPrinter p x).port = s.port := rfl
@[simp] theorem setPrinter_counters (p : Nat) (x : Printer) : (s.setPrinter p x).counters = s.counters := rfl
@[simp] theorem setPrinter_lock (p : Nat) (x : Printer) : (s.setPrinter p x).lock = s.lock := rfl
@[simp] theorem setPrinter_tables (p : Nat) (x : Printer) : (s.setPrinter p x).tables = s.tables := rfl
@[simp] theorem setPrinter_line (p : Nat) (x : Printer) : (s.setPrinter p x).line = s.line := rfl
@[simp] theorem setPrinter_survey (p : Nat) (x : Printer) : (s.setPrinter p x).survey = s.survey := rfl
@[simp] theorem setPrinter_sessions (p : Nat) (x : Printer) : (s.setPrinter p x).sessions = s.sessions := rfl
@[simp] theorem setPrinter_entries (p : Nat) (x : Printer) : (s.setPrinter p x).entries = s.entries := rfl
@[simp] theorem setPrinter_tagCounter (p : Nat) (x : Printer) : (s.setPrinter p x).tagCounter = s.tagCounter := rfl
@[simp] theorem setPrinter_overrides (p : Nat) (x : Printer) : (s.setPrinter p x).overrides = s.overrides := rfl
@[simp] theorem setPrinter_drawers (p : Nat) (x : Printer) : (s.setPrinter p x).drawers = s.drawers := rfl
@[simp] theorem setPrinter_screens (p : Nat) (x : Printer) : (s.setPrinter p x).screens = s.screens := rfl
@[simp] theorem setPrinter_printers (p : Nat) (x : Printer) : (s.setPrinter p x).printers = wr1 s.printers p x := rfl
@[simp] theorem setPrinter_store (p : Nat) (x : Printer) : (s.setPrinter p x).store = s.store := rfl
@[simp] theorem setPrinter_journal (p : Nat) (x : Printer) : (s.setPrinter p x).journal = s.journal := rfl
@[simp] theorem setPrinter_day (p : Nat) (x : Printer) : (s.setPrinter p x).day = s.day := rfl
@[simp] theorem setPrinter_freeDraws (p : Nat) (x : Printer) : (s.setPrinter p x).freeDraws = s.freeDraws := rfl
@[simp] theorem setPrinter_pending (p : Nat) (x : Printer) : (s.setPrinter p x).pending = s.pending := rfl

/-! #### setDrawer -/

@[simp] theorem setDrawer_port (d : Nat) (x : Drawer) : (s.setDrawer d x).port = s.port := rfl
@[simp] theorem setDrawer_counters (d : Nat) (x : Drawer) : (s.setDrawer d x).counters = s.counters := rfl
@[simp] theorem setDrawer_lock (d : Nat) (x : Drawer) : (s.setDrawer d x).lock = s.lock := rfl
@[simp] theorem setDrawer_tables (d : Nat) (x : Drawer) : (s.setDrawer d x).tables = s.tables := rfl
@[simp] theorem setDrawer_line (d : Nat) (x : Drawer) : (s.setDrawer d x).line = s.line := rfl
@[simp] theorem setDrawer_survey (d : Nat) (x : Drawer) : (s.setDrawer d x).survey = s.survey := rfl
@[simp] theorem setDrawer_sessions (d : Nat) (x : Drawer) : (s.setDrawer d x).sessions = s.sessions := rfl
@[simp] theorem setDrawer_entries (d : Nat) (x : Drawer) : (s.setDrawer d x).entries = s.entries := rfl
@[simp] theorem setDrawer_tagCounter (d : Nat) (x : Drawer) : (s.setDrawer d x).tagCounter = s.tagCounter := rfl
@[simp] theorem setDrawer_overrides (d : Nat) (x : Drawer) : (s.setDrawer d x).overrides = s.overrides := rfl
@[simp] theorem setDrawer_drawers (d : Nat) (x : Drawer) : (s.setDrawer d x).drawers = wr s.drawers d x := rfl
@[simp] theorem setDrawer_screens (d : Nat) (x : Drawer) : (s.setDrawer d x).screens = s.screens := rfl
@[simp] theorem setDrawer_printers (d : Nat) (x : Drawer) : (s.setDrawer d x).printers = s.printers := rfl
@[simp] theorem setDrawer_store (d : Nat) (x : Drawer) : (s.setDrawer d x).store = s.store := rfl
@[simp] theorem setDrawer_journal (d : Nat) (x : Drawer) : (s.setDrawer d x).journal = s.journal := rfl
@[simp] theorem setDrawer_day (d : Nat) (x : Drawer) : (s.setDrawer d x).day = s.day := rfl
@[simp] theorem setDrawer_freeDraws (d : Nat) (x : Drawer) : (s.setDrawer d x).freeDraws = s.freeDraws := rfl
@[simp] theorem setDrawer_pending (d : Nat) (x : Drawer) : (s.setDrawer d x).pending = s.pending := rfl

/-! #### setEntry -/

@[simp] theorem setEntry_port (i : Nat) (x : Option Entry) : (s.setEntry i x).port = s.port := rfl
@[simp] theorem setEntry_counters (i : Nat) (x : Option Entry) : (s.setEntry i x).counters = s.counters := rfl
@[simp] theorem setEntry_lock (i : Nat) (x : Option Entry) : (s.setEntry i x).lock = s.lock := rfl
@[simp] theorem setEntry_tables (i : Nat) (x : Option Entry) : (s.setEntry i x).tables = s.tables := rfl
@[simp] theorem setEntry_line (i : Nat) (x : Option Entry) : (s.setEntry i x).line = s.line := rfl
@[simp] theorem setEntry_survey (i : Nat) (x : Option Entry) : (s.setEntry i x).survey = s.survey := rfl
@[simp] theorem setEntry_sessions (i : Nat) (x : Option Entry) : (s.setEntry i x).sessions = s.sessions := rfl
@[simp] theorem setEntry_entries (i : Nat) (x : Option Entry) : (s.setEntry i x).entries = wr s.entries i x := rfl
@[simp] theorem setEntry_tagCounter (i : Nat) (x : Option Entry) : (s.setEntry i x).tagCounter = s.tagCounter := rfl
@[simp] theorem setEntry_overrides (i : Nat) (x : Option Entry) : (s.setEntry i x).overrides = s.overrides := rfl
@[simp] theorem setEntry_drawers (i : Nat) (x : Option Entry) : (s.setEntry i x).drawers = s.drawers := rfl
@[simp] theorem setEntry_screens (i : Nat) (x : Option Entry) : (s.setEntry i x).screens = s.screens := rfl
@[simp] theorem setEntry_printers (i : Nat) (x : Option Entry) : (s.setEntry i x).printers = s.printers := rfl
@[simp] theorem setEntry_store (i : Nat) (x : Option Entry) : (s.setEntry i x).store = s.store := rfl
@[simp] theorem setEntry_journal (i : Nat) (x : Option Entry) : (s.setEntry i x).journal = s.journal := rfl
@[simp] theorem setEntry_day (i : Nat) (x : Option Entry) : (s.setEntry i x).day = s.day := rfl
@[simp] theorem setEntry_freeDraws (i : Nat) (x : Option Entry) : (s.setEntry i x).freeDraws = s.freeDraws := rfl
@[simp] theorem setEntry_pending (i : Nat) (x : Option Entry) : (s.setEntry i x).pending = s.pending := rfl

/-! #### setPosRec -/

@[simp] theorem setPosRec_port (p : Nat) (x : PosRec) : (s.setPosRec p x).port = s.port := rfl
@[simp] theorem setPosRec_counters (p : Nat) (x : PosRec) : (s.setPosRec p x).counters = s.counters := rfl
@[simp] theorem setPosRec_lock (p : Nat) (x : PosRec) : (s.setPosRec p x).lock = s.lock := rfl
@[simp] theorem setPosRec_tables (p : Nat) (x : PosRec) : (s.setPosRec p x).tables = s.tables := rfl
@[simp] theorem setPosRec_line (p : Nat) (x : PosRec) :
    (s.setPosRec p x).line = { s.line with recs := wr1 s.line.recs p x } := rfl
@[simp] theorem setPosRec_survey (p : Nat) (x : PosRec) : (s.setPosRec p x).survey = s.survey := rfl
@[simp] theorem setPosRec_sessions (p : Nat) (x : PosRec) : (s.setPosRec p x).sessions = s.sessions := rfl
@[simp] theorem setPosRec_entries (p : Nat) (x : PosRec) : (s.setPosRec p x).entries = s.entries := rfl
@[simp] theorem setPosRec_tagCounter (p : Nat) (x : PosRec) : (s.setPosRec p x).tagCounter = s.tagCounter := rfl
@[simp] theorem setPosRec_overrides (p : Nat) (x : PosRec) : (s.setPosRec p x).overrides = s.overrides := rfl
@[simp] theorem setPosRec_drawers (p : Nat) (x : PosRec) : (s.setPosRec p x).drawers = s.drawers := rfl
@[simp] theorem setPosRec_screens (p : Nat) (x : PosRec) : (s.setPosRec p x).screens = s.screens := rfl
@[simp] theorem setPosRec_printers (p : Nat) (x : PosRec) : (s.setPosRec p x).printers = s.printers := rfl
@[simp] theorem setPosRec_store (p : Nat) (x : PosRec) : (s.setPosRec p x).store = s.store := rfl
@[simp] theorem setPosRec_journal (p : Nat) (x : PosRec) : (s.setPosRec p x).journal = s.journal := rfl
@[simp] theorem setPosRec_day (p : Nat) (x : PosRec) : (s.setPosRec p x).day = s.day := rfl
@[simp] theorem setPosRec_freeDraws (p : Nat) (x : PosRec) : (s.setPosRec p x).freeDraws = s.freeDraws := rfl
@[simp] theorem setPosRec_pending (p : Nat) (x : PosRec) : (s.setPosRec p x).pending = s.pending := rfl

/-! #### setUnit -/

@[simp] theorem setUnit_port (p u : Nat) (x : UnitRec) : (s.setUnit p u x).port = s.port := rfl
@[simp] theorem setUnit_counters (p u : Nat) (x : UnitRec) : (s.setUnit p u x).counters = s.counters := rfl
@[simp] theorem setUnit_lock (p u : Nat) (x : UnitRec) : (s.setUnit p u x).lock = s.lock := rfl
@[simp] theorem setUnit_tables (p u : Nat) (x : UnitRec) : (s.setUnit p u x).tables = s.tables := rfl
@[simp] theorem setUnit_line (p u : Nat) (x : UnitRec) :
    (s.setUnit p u x).line = { s.line with recs := wr1 s.line.recs p { s.posRec p with units := wr (s.posRec p).units u x } } := rfl
@[simp] theorem setUnit_survey (p u : Nat) (x : UnitRec) : (s.setUnit p u x).survey = s.survey := rfl
@[simp] theorem setUnit_sessions (p u : Nat) (x : UnitRec) : (s.setUnit p u x).sessions = s.sessions := rfl
@[simp] theorem setUnit_entries (p u : Nat) (x : UnitRec) : (s.setUnit p u x).entries = s.entries := rfl
@[simp] theorem setUnit_tagCounter (p u : Nat) (x : UnitRec) : (s.setUnit p u x).tagCounter = s.tagCounter := rfl
@[simp] theorem setUnit_overrides (p u : Nat) (x : UnitRec) : (s.setUnit p u x).overrides = s.overrides := rfl
@[simp] theorem setUnit_drawers (p u : Nat) (x : UnitRec) : (s.setUnit p u x).drawers = s.drawers := rfl
@[simp] theorem setUnit_screens (p u : Nat) (x : UnitRec) : (s.setUnit p u x).screens = s.screens := rfl
@[simp] theorem setUnit_printers (p u : Nat) (x : UnitRec) : (s.setUnit p u x).printers = s.printers := rfl
@[simp] theorem setUnit_store (p u : Nat) (x : UnitRec) : (s.setUnit p u x).store = s.store := rfl
@[simp] theorem setUnit_journal (p u : Nat) (x : UnitRec) : (s.setUnit p u x).journal = s.journal := rfl
@[simp] theorem setUnit_day (p u : Nat) (x : UnitRec) : (s.setUnit p u x).day = s.day := rfl
@[simp] theorem setUnit_freeDraws (p u : Nat) (x : UnitRec) : (s.setUnit p u x).freeDraws = s.freeDraws := rfl
@[simp] theorem setUnit_pending (p u : Nat) (x : UnitRec) : (s.setUnit p u x).pending = s.pending := rfl

end Sys2Proof.Machine.State
end

