-- ==== Sys2Proof/Laws/Banks.lean ====
section
/-! SUPPORT. Reading a bank after a write, and reading one record of the state after another was set. -/

set_option Elab.async false

namespace Sys2Proof.Machine

variable {α : Type} {n : Nat}

theorem rd_wr_same (v : Vector α n) {i : Nat} (h : i < n) (x d : α) : rd (wr v i x) i d = x := by
  simp [rd, wr, h]

theorem rd_wr_other (v : Vector α n) {i j : Nat} (h : i ≠ j) (x d : α) : rd (wr v i x) j d = rd v j d := by
  simp [rd, wr, h]

/-- A place outside the bank reads as the default. -/
theorem rd_outside (v : Vector α n) {i : Nat} (h : n ≤ i) (d : α) : rd v i d = d := by
  simp [rd, Vector.getElem?_eq_none h]

/-- What a place reads as after a write: the value written, where the place written exists and is the one read. -/
theorem rd_wr (v : Vector α n) (i j : Nat) (x d : α) : rd (wr v i x) j d = if i = j ∧ i < n then x else rd v j d := by
  by_cases h : i = j
  · subst h
    by_cases hi : i < n
    · simp [rd_wr_same, hi]
    · have hi' : n ≤ i := Nat.le_of_not_lt hi
      simp [hi, rd_outside _ hi']
  · simp [h, rd_wr_other]

theorem wr_outside (v : Vector α n) {i : Nat} (h : n ≤ i) (x : α) : wr v i x = v := by
  ext j hj
  have hne : i ≠ j := by omega
  simp [wr, hne]

theorem rd_replicate (x : α) (i : Nat) : rd (Vector.replicate n x) i x = x := by
  by_cases h : i < n
  · simp [rd, h]
  · simp [rd, h]

theorem rd1_wr1 (v : Vector α n) (p q : Nat) (x d : α) :
    rd1 (wr1 v p x) q d = if p = q ∧ 1 ≤ p ∧ p ≤ n then x else rd1 v q d := by
  unfold rd1 wr1
  by_cases hp : p = 0
  · subst hp
    simp
  · by_cases hq : q = 0
    · have : ¬ p = q := by omega
      simp [hp, hq]
    · simp only [hp, hq, if_false, rd_wr]
      have : (p - 1 = q - 1 ∧ p - 1 < n) ↔ (p = q ∧ 1 ≤ p ∧ p ≤ n) := by omega
      simp [this]

theorem rd1_wr1_same (v : Vector α n) {p : Nat} (h : 1 ≤ p ∧ p ≤ n) (x d : α) : rd1 (wr1 v p x) p d = x := by
  simp [rd1_wr1, h]

theorem rd1_wr1_other (v : Vector α n) {p q : Nat} (h : p ≠ q) (x d : α) : rd1 (wr1 v p x) q d = rd1 v q d := by
  simp [rd1_wr1, h]

theorem rd1_replicate (x : α) (p : Nat) : rd1 (Vector.replicate n x) p x = x := by
  unfold rd1
  split
  · rfl
  · exact rd_replicate x _

namespace State

variable (s : State)

theorem screen_setScreen (p q : Nat) (x : Screen) :
    (s.setScreen p x).screen q = if p = q ∧ 1 ≤ p ∧ p ≤ 24 then x else s.screen q := rd1_wr1 ..

theorem printer_setPrinter (p q : Nat) (x : Printer) :
    (s.setPrinter p x).printer q = if p = q ∧ 1 ≤ p ∧ p ≤ 24 then x else s.printer q := rd1_wr1 ..

theorem drawer_setDrawer (d e : Nat) (x : Drawer) :
    (s.setDrawer d x).drawer e = if d = e ∧ d < 25 then x else s.drawer e := rd_wr ..

theorem entry_setEntry (i j : Nat) (x : Option Entry) :
    (s.setEntry i x).entry j = if i = j ∧ i < 32 then x else s.entry j := rd_wr ..

theorem posRec_setPosRec (p q : Nat) (x : PosRec) :
    (s.setPosRec p x).posRec q = if p = q ∧ 1 ≤ p ∧ p ≤ 24 then x else s.posRec q := rd1_wr1 ..

theorem session_withSessions (p q : Nat) (x : Session) :
    (s.withSessions (wr1 s.sessions p x)).session q = if p = q ∧ 1 ≤ p ∧ p ≤ 24 then x else s.session q := rd1_wr1 ..

/-- The units of a position after one of them was set. -/
theorem unit_setUnit (p u q v : Nat) (x : UnitRec) :
    (s.setUnit p u x).unit q v =
      if (p = q ∧ 1 ≤ p ∧ p ≤ 24) ∧ u = v ∧ u < 3 then x else s.unit q v := by
  unfold unit setUnit
  rw [posRec_setPosRec]
  by_cases h : p = q ∧ 1 ≤ p ∧ p ≤ 24
  · obtain ⟨rfl, h1, h2⟩ := h
    simp only [h1, h2, and_self, if_true, true_and]
    exact rd_wr ..
  · simp [h]

/-- A record read depends on its own bank alone. -/
theorem screen_congr {s t : State} (h : t.screens = s.screens) (p : Nat) : t.screen p = s.screen p := by
  unfold screen; rw [h]

theorem printer_congr {s t : State} (h : t.printers = s.printers) (p : Nat) : t.printer p = s.printer p := by
  unfold printer; rw [h]

theorem drawer_congr {s t : State} (h : t.drawers = s.drawers) (d : Nat) : t.drawer d = s.drawer d := by
  unfold drawer; rw [h]

theorem entry_congr {s t : State} (h : t.entries = s.entries) (i : Nat) : t.entry i = s.entry i := by
  unfold entry; rw [h]

theorem session_congr {s t : State} (h : t.sessions = s.sessions) (p : Nat) : t.session p = s.session p := by
  unfold session; rw [h]

theorem unit_congr {s t : State} (h : t.line.recs = s.line.recs) (p u : Nat) : t.unit p u = s.unit p u := by
  unfold unit posRec; rw [h]

/-- An entry in use stands at one of the 32 places (R67). -/
theorem entry_index {i : Nat} {e : Entry} (h : s.entry i = some e) : i < 32 := by
  by_contra hn
  have hn' : 32 ≤ i := Nat.le_of_not_lt hn
  simp [entry, rd_outside _ hn'] at h

end State

end Sys2Proof.Machine
end

