-- ==== Sys2Proof/Laws/Frames.lean ====
section
/-! SUPPORT. What an operation can change. An aspect is a relation between the state before and the state after an event
that holds of a state and itself and is transitive; `Within may s t` says that every aspect but those listed holds from s
to t. One lemma per operation, `<operation>_within`, lists what the operation may break; the lemma of a composed
operation follows from those of its parts. -/

set_option Elab.async false

namespace Sys2Proof.Machine

/-- The aspects. The first group says that a field is as it was; the second names the weaker relations of
Sys2Proof/Safety.lean and the invariants, as 'kept when it held before'. -/
inductive Aspect where
  | port | counters | lock | tables | line | survey | sessions | entries | tagCounter | overrides | drawers | screens
  | printers | store | journal | day | freeDraws | pending
  | portRest | lineRest | records | dayState | queueGrows | queueBounded | unitsBounded | countersBounded | lockRises
  | lockBounded | grantBounded | tagBounded | clockBounded | journalNumbered | journalGrows | booksKept | windowSound
  | entriesKept | entriesSound
deriving DecidableEq, Repr

/-- What each aspect says of two states. -/
def Aspect.Holds : Aspect → State → State → Prop
  | .port, s, t => t.port = s.port
  | .counters, s, t => t.counters = s.counters
  | .lock, s, t => t.lock = s.lock
  | .tables, s, t => t.tables = s.tables
  | .line, s, t => t.line = s.line
  | .survey, s, t => t.survey = s.survey
  | .sessions, s, t => t.sessions = s.sessions
  | .entries, s, t => t.entries = s.entries
  | .tagCounter, s, t => t.tagCounter = s.tagCounter
  | .overrides, s, t => t.overrides = s.overrides
  | .drawers, s, t => t.drawers = s.drawers
  | .screens, s, t => t.screens = s.screens
  | .printers, s, t => t.printers = s.printers
  | .store, s, t => t.store = s.store
  | .journal, s, t => t.journal = s.journal
  | .day, s, t => t.day = s.day
  | .freeDraws, s, t => t.freeDraws = s.freeDraws
  | .pending, s, t => t.pending = s.pending
  | .portRest, s, t => t.port = { s.port with queue := t.port.queue, transmitting := t.port.transmitting }
  | .lineRest, s, t => t.line = { s.line with recs := t.line.recs }
  | .records, s, t => t.journal.records = s.journal.records
  | .dayState, s, t => t.day.state = s.day.state
  | .queueGrows, s, t => s.port.queue <+: t.port.queue
  | .queueBounded, s, t => s.QueueBounded → t.QueueBounded
  | .unitsBounded, s, t => s.UnitsBounded → t.UnitsBounded
  | .countersBounded, s, t => s.counters.Bounded → t.counters.Bounded
  | .lockRises, s, t => s.lock ≤ t.lock
  | .lockBounded, s, t => s.lock ≤ 2 → t.lock ≤ 2
  | .grantBounded, s, t => s.line.grantCount < 8 → t.line.grantCount < 8
  | .tagBounded, s, t => s.tagCounter ≤ 65535 → t.tagCounter ≤ 65535
  | .clockBounded, s, t => s.ClockBounded → t.ClockBounded
  | .journalNumbered, s, t => s.JournalNumbered → t.JournalNumbered
  | .journalGrows, s, t => JournalGrows s t
  | .booksKept, s, t => BooksKept s t
  | .windowSound, s, t => s.WindowSound → t.WindowSound
  | .entriesKept, s, t => EntriesKept s t
  | .entriesSound, s, t => s.EntriesSound → t.EntriesSound

theorem EntriesKept.refl (s : State) : EntriesKept s s := fun _ f h => ⟨f, h, rfl, rfl, id⟩

theorem EntriesKept.trans {s t u : State} (h : EntriesKept s t) (g : EntriesKept t u) : EntriesKept s u := by
  intro i f hf
  obtain ⟨e, he, htag, hreq, hw⟩ := g i f hf
  obtain ⟨d, hd, htag', hreq', hw'⟩ := h i e he
  exact ⟨d, hd, htag.trans htag', hreq.trans hreq', fun hf => hw' (hw hf)⟩

/-- The position is one of the captured fields. -/
theorem Captured.fixed_pos {c d : Captured} (h : c.fixed = d.fixed) : c.pos = d.pos := by
  have := congrArg (fun x : Captured => x.pos) h
  exact this

/-- Entries that are kept stay sound (R67, R69). -/
theorem EntriesKept.sound {s t : State} (h : EntriesKept s t) (hs : s.EntriesSound) : t.EntriesSound where
  tagRange i f hf := by
    obtain ⟨e, he, htag, _, _⟩ := h i f hf
    rw [htag]
    exact hs.tagRange i e he
  tagsDistinct i j f g hf hg htag := by
    obtain ⟨e, he, he', _, _⟩ := h i f hf
    obtain ⟨d, hd, hd', _, _⟩ := h j g hg
    exact hs.tagsDistinct i j e d he hd (by rw [← he', ← hd', htag])
  oneWaiting i j f g hf hg wf wg hpos := by
    obtain ⟨e, he, _, hreq, hw⟩ := h i f hf
    obtain ⟨d, hd, _, hreq', hw'⟩ := h j g hg
    have h1 : f.req.pos = e.req.pos := Captured.fixed_pos hreq
    have h2 : g.req.pos = d.req.pos := Captured.fixed_pos hreq'
    exact hs.oneWaiting i j e d he hd (hw wf) (hw' wg) (by rw [← h1, ← h2, hpos])

theorem Aspect.refl (a : Aspect) (s : State) : a.Holds s s := by
  cases a <;> first
    | rfl
    | exact id
    | exact Nat.le_refl _
    | exact List.prefix_refl _
    | exact fun _ => rfl
    | exact EntriesKept.refl s

theorem Aspect.trans (a : Aspect) {s t u : State} (h : a.Holds s t) (g : a.Holds t u) : a.Holds s u := by
  cases a <;> first
    | exact g.trans h
    | exact g ∘ h
    | exact Nat.le_trans h g
    | exact List.IsPrefix.trans h g
    | exact EntriesKept.trans h g
    | exact fun d => (g d).trans (h d)
    | (simp only [Holds] at h g ⊢
       rw [h] at g
       exact g)

/-- Every aspect holds from s to t but those listed. -/
def Within (may : List Aspect) (s t : State) : Prop := ∀ a, a ∉ may → a.Holds s t

/-- Every aspect of `k` is listed in `m`. -/
def covers (m k : List Aspect) : Bool := k.all (fun a => decide (a ∈ m))

theorem covers_mem {m k : List Aspect} (h : covers m k = true) {a : Aspect} (ha : a ∉ m) : a ∉ k := by
  intro hk
  have := List.all_eq_true.mp h a hk
  exact ha (by simpa using this)

namespace Within

variable {m k : List Aspect} {s t u : State}

theorem refl (m : List Aspect) (s : State) : Within m s s := fun a _ => a.refl s

theorem mono (h : Within k s t) (hc : covers m k = true := by decide) : Within m s t :=
  fun a ha => h a (covers_mem hc ha)

/-- An operation after others: what it may break is listed. -/
theorem after (h : Within k t u) (g : Within m s t) (hc : covers m k = true := by decide) : Within m s u :=
  fun a ha => a.trans (g a ha) (h a (covers_mem hc ha))

/-- A run of operations over a list. -/
theorem fold {α : Type} (f : State → α → State) (h : ∀ t x, Within m t (f t x)) (l : List α) (s : State) :
    Within m s (l.foldl f s) := by
  induction l generalizing s with
  | nil => exact refl m s
  | cons x l ih => exact (ih (f s x)).after (h s x) (by simp [covers])

/-- An aspect restored: it holds by an argument of its own. -/
theorem restore (a : Aspect) (h : Within (a :: m) s t) (ha : a.Holds s t) : Within m s t := by
  intro b hb
  by_cases hab : b = a
  · subst hab; exact ha
  · exact h b (by simp [hab, hb])

end Within

namespace State

variable (s : State)

/-! ### The setters -/

theorem withPort_within (x : Port) : Within [.port, .portRest, .queueGrows, .queueBounded] s (s.withPort x) := by
  intro a h; have r := a.refl s; cases a <;> first | exact absurd (by decide) h | exact r

theorem withCounters_within (x : Counters) : Within [.counters, .countersBounded] s (s.withCounters x) := by
  intro a h; have r := a.refl s; cases a <;> first | exact absurd (by decide) h | exact r

theorem withLock_within (x : Nat) : Within [.lock, .lockRises, .lockBounded] s (s.withLock x) := by
  intro a h; have r := a.refl s; cases a <;> first | exact absurd (by decide) h | exact r

theorem withTables_within (x : Tables) : Within [.tables] s (s.withTables x) := by
  intro a h; have r := a.refl s; cases a <;> first | exact absurd (by decide) h | exact r

theorem withLine_within (x : Line) : Within [.line, .lineRest, .unitsBounded, .grantBounded] s (s.withLine x) := by
  intro a h; have r := a.refl s; cases a <;> first | exact absurd (by decide) h | exact r

theorem withSurvey_within (x : Survey) : Within [.survey] s (s.withSurvey x) := by
  intro a h; have r := a.refl s; cases a <;> first | exact absurd (by decide) h | exact r

theorem withSessions_within (x : Vector Session 24) : Within [.sessions] s (s.withSessions x) := by
  intro a h; have r := a.refl s; cases a <;> first | exact absurd (by decide) h | exact r

theorem withTagCounter_within (x : Nat) : Within [.tagCounter, .tagBounded] s (s.withTagCounter x) := by
  intro a h; have r := a.refl s; cases a <;> first | exact absurd (by decide) h | exact r

theorem withOverrides_within (x : List Nat) : Within [.overrides] s (s.withOverrides x) := by
  intro a h; have r := a.refl s; cases a <;> first | exact absurd (by decide) h | exact r

theorem withStore_within (x : Vector (Option PrintLine) 256) : Within [.store] s (s.withStore x) := by
  intro a h; have r := a.refl s; cases a <;> first | exact absurd (by decide) h | exact r

theorem withJournal_within (x : Journal) :
    Within [.journal, .records, .journalNumbered, .journalGrows] s (s.withJournal x) := by
  intro a h; have r := a.refl s; cases a <;> first | exact absurd (by decide) h | exact r

theorem withDay_within (x : Day) : Within [.day, .dayState, .clockBounded, .windowSound] s (s.withDay x) := by
  intro a h; have r := a.refl s; cases a <;> first | exact absurd (by decide) h | exact r

theorem withFreeDraws_within (x : Nat) : Within [.freeDraws] s (s.withFreeDraws x) := by
  intro a h; have r := a.refl s; cases a <;> first | exact absurd (by decide) h | exact r

theorem withPending_within (x : List Instr) : Within [.pending] s (s.withPending x) := by
  intro a h; have r := a.refl s; cases a <;> first | exact absurd (by decide) h | exact r

theorem setScreen_within (p : Nat) (x : Screen) : Within [.screens] s (s.setScreen p x) := by
  intro a h; have r := a.refl s; cases a <;> first | exact absurd (by decide) h | exact r

theorem setPrinter_within (p : Nat) (x : Printer) : Within [.printers] s (s.setPrinter p x) := by
  intro a h; have r := a.refl s; cases a <;> first | exact absurd (by decide) h | exact r

theorem setDrawer_within (d : Nat) (x : Drawer) : Within [.drawers, .booksKept] s (s.setDrawer d x) := by
  intro a h; have r := a.refl s; cases a <;> first | exact absurd (by decide) h | exact r

/-- A drawer set with the book counts it had. -/
theorem setDrawer_sameBook {d : Nat} {x : Drawer} (h : x.book = (s.drawer d).book) :
    Within [.drawers] s (s.setDrawer d x) := by
  refine ((setDrawer_within s d x).mono (m := [.booksKept, .drawers])).restore .booksKept ?_
  intro e
  rw [drawer_setDrawer]
  split
  · next he => rw [h, he.1]
  · rfl

theorem setEntry_within (i : Nat) (x : Option Entry) :
    Within [.entries, .entriesKept, .entriesSound] s (s.setEntry i x) := by
  intro a h; have r := a.refl s; cases a <;> first | exact absurd (by decide) h | exact r

/-- An entry set to one with the same tag and captured fields that waits only if it did. -/
theorem setEntry_kept {i : Nat} {e f : Entry} (he : s.entry i = some e) (htag : f.tag = e.tag)
    (hreq : f.req.fixed = e.req.fixed) (hw : f.waits = true → e.waits = true) :
    Within [.entries] s (s.setEntry i (some f)) := by
  have hk : EntriesKept s (s.setEntry i (some f)) := by
    intro j g hg
    rw [entry_setEntry] at hg
    split at hg
    · next h =>
      obtain ⟨rfl, _⟩ := h
      cases hg
      exact ⟨e, he, htag, hreq, hw⟩
    · exact ⟨g, hg, rfl, rfl, id⟩
  exact (((setEntry_within s i (some f)).mono (m := [.entriesSound, .entriesKept, .entries])).restore .entriesSound
    hk.sound).restore .entriesKept hk

/-- A freed entry (R67). -/
theorem freeEntry_within (i : Nat) : Within [.entries] s (s.setEntry i none) := by
  have hk : EntriesKept s (s.setEntry i none) := by
    intro j g hg
    rw [entry_setEntry] at hg
    split at hg
    · cases hg
    · exact ⟨g, hg, rfl, rfl, id⟩
  exact (((setEntry_within s i none).mono (m := [.entriesSound, .entriesKept, .entries])).restore .entriesSound
    hk.sound).restore .entriesKept hk

theorem setUnit_within (p u : Nat) (x : UnitRec) : Within [.line, .unitsBounded] s (s.setUnit p u x) := by
  intro a h; have r := a.refl s; cases a <;> first | exact absurd (by decide) h | exact r | rfl

/-- A unit's record set with an outbound queue of at most 4 messages whenever the queue it had was so (R34). -/
theorem setUnit_bounded {p u : Nat} {x : UnitRec}
    (h : (s.unit p u).queue.length ≤ 4 → x.queue.length ≤ 4) : Within [.line] s (s.setUnit p u x) := by
  refine ((setUnit_within s p u x).mono (m := [.unitsBounded, .line])).restore .unitsBounded ?_
  intro hs q v
  rw [unit_setUnit]
  split
  · exact h (hs p u)
  · exact hs q v

theorem setPosRec_missed (p n : Nat) :
    Within [.line] s (s.setPosRec p { s.posRec p with missed := n }) := by
  have hw : Within [.unitsBounded, .line] s (s.setPosRec p { s.posRec p with missed := n }) := by
    intro a h; have r := a.refl s; cases a <;> first | exact absurd (by decide) h | exact r | rfl
  refine hw.restore .unitsBounded ?_
  intro hs q v
  have : (s.setPosRec p { s.posRec p with missed := n }).unit q v = s.unit q v := by
    unfold unit
    rw [posRec_setPosRec]
    split
    · next h => rw [h.1]
    · rfl
  rw [this]
  exact hs q v

end State

end Sys2Proof.Machine
end

