-- ==== Sys2Proof/Laws/FramesScreens.lean ====
section
/-! SUPPORT. What the shared operations of Machine/Ops.lean and those of the screen composer can change. -/

set_option Elab.async false

namespace Sys2Proof.Machine.State

variable (s : State)

/-! ### Counters, the upstream queue and the journal -/

theorem bump_le {n : Nat} (h : n ≤ 65535) : bump n ≤ 65535 := by
  unfold bump Config.counterMax
  split <;> omega

/-- A counter's increment keeps every counter within 16 bits (R9). -/
theorem withCounters_bounded {x : Counters} (h : s.counters.Bounded → x.Bounded) :
    Within [.counters] s (s.withCounters x) :=
  ((withCounters_within s x).mono (m := [.countersBounded, .counters])).restore .countersBounded h

theorem countLinkBadFrame_within : Within [.counters] s s.countLinkBadFrame :=
  withCounters_bounded s fun ⟨a, b, c, d, e, f, g, h, i, j, k⟩ => ⟨bump_le a, b, c, d, e, f, g, h, i, j, k⟩

theorem countLinkWrongNode_within : Within [.counters] s s.countLinkWrongNode :=
  withCounters_bounded s fun ⟨a, b, c, d, e, f, g, h, i, j, k⟩ => ⟨a, bump_le b, c, d, e, f, g, h, i, j, k⟩

theorem countLateAnswer_within : Within [.counters] s s.countLateAnswer :=
  withCounters_bounded s fun ⟨a, b, c, d, e, f, g, h, i, j, k⟩ => ⟨a, b, bump_le c, d, e, f, g, h, i, j, k⟩

theorem countNoticeLost_within : Within [.counters] s s.countNoticeLost :=
  withCounters_bounded s fun ⟨a, b, c, d, e, f, g, h, i, j, k⟩ => ⟨a, b, c, bump_le d, e, f, g, h, i, j, k⟩

theorem countLineBadFrame_within : Within [.counters] s s.countLineBadFrame :=
  withCounters_bounded s fun ⟨a, b, c, d, e, f, g, h, i, j, k⟩ => ⟨a, b, c, d, bump_le e, f, g, h, i, j, k⟩

theorem countLineRetry_within : Within [.counters] s s.countLineRetry :=
  withCounters_bounded s fun ⟨a, b, c, d, e, f, g, h, i, j, k⟩ => ⟨a, b, c, d, e, bump_le f, g, h, i, j, k⟩

theorem countUnitLost_within : Within [.counters] s s.countUnitLost :=
  withCounters_bounded s fun ⟨a, b, c, d, e, f, g, h, i, j, k⟩ => ⟨a, b, c, d, e, f, bump_le g, h, i, j, k⟩

theorem countLineBadMessage_within : Within [.counters] s s.countLineBadMessage :=
  withCounters_bounded s fun ⟨a, b, c, d, e, f, g, h, i, j, k⟩ => ⟨a, b, c, d, e, f, g, bump_le h, i, j, k⟩

theorem countRefused_within : Within [.counters] s s.countRefused :=
  withCounters_bounded s fun ⟨a, b, c, d, e, f, g, h, i, j, k⟩ => ⟨a, b, c, d, e, f, g, h, bump_le i, j, k⟩

theorem countBatchResend_within : Within [.counters] s s.countBatchResend :=
  withCounters_bounded s fun ⟨a, b, c, d, e, f, g, h, i, j, k⟩ => ⟨a, b, c, d, e, f, g, h, i, bump_le j, k⟩

theorem countBatchAckIgnored_within : Within [.counters] s s.countBatchAckIgnored :=
  withCounters_bounded s fun ⟨a, b, c, d, e, f, g, h, i, j, k⟩ => ⟨a, b, c, d, e, f, g, h, i, j, bump_le k⟩

theorem beginTransmit_within : Within [.port] s s.beginTransmit := by
  intro a h
  have r := a.refl s
  cases a <;> first | exact absurd (by decide) h | exact r | rfl

/-- A frame at the tail (R5): frames that wait are neither reordered nor discarded. -/
theorem enqueue_within (f : UpFrame) : Within [.port, .queueBounded] s (s.enqueue f) := by
  intro a h
  have r := a.refl s
  cases a <;> first | exact absurd (by decide) h | exact r | rfl | exact List.prefix_append _ _

/-- A frame placed in a free slot keeps the queue within its 64 (R5). -/
theorem enqueue_room {f : UpFrame} (hr : s.hasRoom = true) : Within [.port] s (s.enqueue f) := by
  refine ((enqueue_within s f).mono (m := [.queueBounded, .port])).restore .queueBounded ?_
  intro _
  have h : s.port.queue.length < 64 := of_decide_eq_true hr
  show (s.port.queue ++ [f]).length ≤ 64
  simp
  omega

/-- Between a test for room and the frame, nothing that leaves the port alone matters. -/
theorem hasRoom_congr {t : State} (h : t.port = s.port) : t.hasRoom = s.hasRoom := by
  unfold hasRoom
  rw [h]

theorem offerNotice_within (f : UpFrame) : Within [.port, .counters] s (s.offerNotice f) := by
  unfold offerNotice
  split
  · next h => exact (enqueue_room s h).mono
  · exact (countNoticeLost_within s).mono

theorem alarm_within (k : AlarmKind) (n : Nat) : Within [.port, .counters] s (s.alarm k n) := offerNotice_within s _

/-- A record written at the used count plus 1 keeps the numbering (R172). -/
theorem writeRecord_within (b : Body) : Within [.journal, .records] s (s.writeRecord b) := by
  unfold writeRecord
  refine (((withJournal_within s _).mono
    (m := [.journalNumbered, .journalGrows, .journal, .records])).restore .journalNumbered
    ?_).restore .journalGrows ?_
  · intro hn i r hr
    simp only [withJournal_journal] at hr
    by_cases hi : i < s.journal.records.length
    · rw [List.getElem?_append_left hi] at hr
      exact hn i r hr
    · rw [List.getElem?_append_right (Nat.le_of_not_lt hi)] at hr
      have h0 : i - s.journal.records.length = 0 := by
        by_contra hne
        obtain ⟨k, hk⟩ := Nat.exists_eq_succ_of_ne_zero hne
        simp [hk] at hr
      rw [h0] at hr
      simp only [List.getElem?_cons_zero, Option.some.injEq] at hr
      rw [← hr]
      show s.journal.records.length + 1 = i + 1
      omega
  · exact List.prefix_append _ _

theorem append_within (b : Body) : Within [.port, .counters, .journal, .records] s (s.append b) := by
  unfold append
  dsimp only
  split
  · exact (alarm_within _ _ _).after ((writeRecord_within s b).mono)
  · exact (writeRecord_within s b).mono

/-- A change of the sum of claims leaves the records as they are (R175). -/
theorem claims_within (n : Nat) : Within [.journal] s (s.withJournal { s.journal with claims := n }) := by
  intro a h
  have r := a.refl s
  cases a <;> first | exact absurd (by decide) h | exact r

theorem takeClaim_within (n : Nat) : Within [.journal] s (s.takeClaim n) := claims_within s _

theorem releaseClaim_within (n : Nat) : Within [.journal] s (s.releaseClaim n) := claims_within s _

theorem appendClaimed_within (b : Body) : Within [.port, .counters, .journal, .records] s (s.appendClaimed b) :=
  (append_within _ b).after ((claims_within s _).mono)

theorem sendLine_within (f : LineFrame) : Within [.line, .lineRest] s (s.sendLine f) := by
  intro a h
  have r := a.refl s
  cases a <;> first | exact absurd (by decide) h | exact r

theorem drawFree_within : Within [.freeDraws] s s.drawFree := withFreeDraws_within s _

/-- An offer that is taken joins a queue of fewer than 4 messages (R34). -/
theorem offer_within (p u : Nat) (m : OutMsg) (c : LineClass) : Within [.line] s (s.offer p u m c) := by
  unfold offer
  split
  · next h =>
    apply setUnit_bounded
    intro _
    have hl : (s.unit p u).queue.length < 4 := by
      unfold offerAnswer Config.outboundCapacity at h
      split at h
      · cases h
      · split at h
        · assumption
        · cases h
    simp
    omega
  · exact Within.refl _ s

/-! ### The composer -/

theorem onScreen_within (p : Nat) (f : Tables → Screen → Screen) : Within [.screens] s (s.onScreen p f) :=
  setScreen_within s p _

theorem onScreens_within (ps : List Nat) (f : Tables → Screen → Screen) : Within [.screens] s (s.onScreens ps f) :=
  Within.fold _ (fun t p => onScreen_within t p f) ps s

theorem touch_within (ps : List Nat) (f : Source → Bool) : Within [.screens] s (s.touch ps f) := onScreens_within s ps _

theorem reevaluate_within (p : Nat) : Within [.screens] s (s.reevaluate p) := onScreen_within s p _

theorem reevaluateAll_within (ps : List Nat) : Within [.screens] s (s.reevaluateAll ps) :=
  Within.fold _ (fun t p => reevaluate_within t p) ps s

theorem showAt_within (p : Nat) (o : Shown) : Within [.screens] s (s.showAt p o) := onScreen_within s p _

theorem showAll_within (ps : List Nat) (o : Shown) : Within [.screens] s (s.showAll ps o) :=
  Within.fold _ (fun t p => showAt_within t p o) ps s

theorem showWithForm_within (p : Nat) (o : Shown) (f : Option Nat) : Within [.screens] s (s.showWithForm p o f) :=
  onScreen_within s p _

theorem takeForm_within (p f : Nat) : Within [.screens] s (s.takeForm p f) := onScreen_within s p _

theorem takeDefaultForm_within (p : Nat) : Within [.screens] s (s.takeDefaultForm p) := by
  unfold takeDefaultForm
  split
  · exact takeForm_within s p _
  · exact Within.refl _ s

theorem sessionReport_within (p : Nat) : Within [.screens] s (s.sessionReport p) :=
  (touch_within _ _ _).after (reevaluate_within s p)

theorem setSession_within (p : Nat) (x : Session) : Within [.sessions, .screens] s (s.setSession p x) := by
  unfold setSession
  split
  · exact Within.refl _ s
  · exact (sessionReport_within _ p).after ((withSessions_within s _).mono)

theorem copyRole_within (p : Nat) : Within [.sessions, .screens] s (s.copyRole p) := by
  unfold copyRole
  split
  · exact Within.refl _ s
  · split
    · exact setSession_within s p _
    · exact Within.refl _ s

theorem setOverrides_within (l : List Nat) : Within [.overrides, .screens] s (s.setOverrides l) := by
  unfold setOverrides
  split
  · exact Within.refl _ s
  · exact (touch_within _ _ _).after ((reevaluateAll_within _ _).after ((withOverrides_within s l).mono))

theorem dayReport_within : Within [.screens] s s.dayReport := touch_within s _ _

theorem countReport_within (d c : Nat) : Within [.screens] s (s.countReport d c) := touch_within s _ _

theorem drawerStateReport_within (d : Nat) : Within [.screens] s (s.drawerStateReport d) := touch_within s _ _

theorem alertReport_within (d : Nat) : Within [.screens] s (s.alertReport d) := reevaluateAll_within s _

theorem setPrinterState_within (p : Nat) (x : PrinterState) :
    Within [.printers, .screens] s (s.setPrinterState p x) := by
  unfold setPrinterState
  split
  · exact Within.refl _ s
  · exact (touch_within _ _ _).after ((setPrinter_within s p _).mono)

theorem rowBuilt_within (p r : Nat) (b : Bool) : Within [.screens] s (s.rowBuilt p r b) := onScreen_within s p _

theorem buildRow_within (p : Nat) (urgent : Bool) (n : Nat) : Within [.screens] s (s.buildRow p urgent n).1 := by
  induction n generalizing s with
  | zero => exact Within.refl _ s
  | succ n ih =>
    unfold buildRow
    dsimp only
    split
    · exact Within.refl _ s
    · split
      · exact Within.after (ih _) (rowBuilt_within s p _ _)
      · exact rowBuilt_within s p _ _

theorem buildMessage_within (p : Nat) (urgent : Bool) : Within [.screens] s (s.buildMessage p urgent).1 := by
  unfold buildMessage
  split
  · exact setScreen_within s p _
  · have h := buildRow_within s p urgent 25
    split
    · next e => rw [e] at h; exact h
    · next e =>
      rw [e] at h
      dsimp only
      split
      · exact (setScreen_within _ p _).after h
      · exact h

theorem screenReturned_within (p : Nat) (m : OutMsg) : Within [.screens] s (s.screenReturned p m) := by
  unfold screenReturned
  split
  · exact onScreen_within s p _
  · exact setScreen_within s p _
  · exact Within.refl _ s

end Sys2Proof.Machine.State
end

