-- ==== Sys2Proof/Laws/FramesCash.lean ====
section
/-! SUPPORT. What the operations of the cash unit and of the passbook controller can change. -/

set_option Elab.async false

namespace Sys2Proof.Machine.State

variable (s : State)

/-! ### The cash unit -/

/-- A reservation made or released leaves the book counts as they are (R98, R102). -/
theorem eachItem_sameBook {f : Drawer → Item → Drawer} (hf : ∀ x i, (f x i).book = x.book) (items : List Item) :
    Within [.drawers] s (s.eachItem items f) :=
  Within.fold _ (fun t i => setDrawer_sameBook t (hf _ i)) items s

theorem reserve_book (x : Drawer) (i : Item) : (x.reserve i).book = x.book := by
  unfold Drawer.reserve
  split <;> rfl

theorem release_book (x : Drawer) (i : Item) : (x.release i).book = x.book := by
  unfold Drawer.release
  split <;> rfl

theorem eachItem_within (items : List Item) (f : Drawer → Item → Drawer) :
    Within [.drawers, .booksKept] s (s.eachItem items f) :=
  Within.fold _ (fun t _ => setDrawer_within t _ _) items s

theorem itemReports_within (items : List Item) : Within [.screens] s (s.itemReports items) :=
  Within.fold _ (fun t _ => countReport_within t _ _) items s

theorem reserveItems_within (items : List Item) : Within [.drawers, .screens] s (s.reserveItems items) :=
  (itemReports_within _ _).after ((eachItem_sameBook s reserve_book items).mono)

theorem releaseItems_within (items : List Item) : Within [.drawers, .screens] s (s.releaseItems items) :=
  (itemReports_within _ _).after ((eachItem_sameBook s release_book items).mono)

theorem ceilingTest_within (d : Nat) : Within [.drawers, .port, .counters, .screens] s (s.ceilingTest d) := by
  unfold ceilingTest
  split
  · exact (alertReport_within _ _).after ((alarm_within _ _ _).after
      ((setDrawer_sameBook s (d := d) (x := { s.drawer d with ceiling := true }) rfl).mono))
  · split
    · exact (alertReport_within _ _).after
        ((setDrawer_sameBook s (d := d) (x := { s.drawer d with ceiling := false }) rfl).mono)
    · exact Within.refl _ s

theorem ceilingTests_within (ds : List Nat) : Within [.drawers, .port, .counters, .screens] s (s.ceilingTests ds) :=
  Within.fold _ (fun t d => ceilingTest_within t d) ds s

theorem postItems_within (items : List Item) :
    Within [.drawers, .booksKept, .port, .counters, .screens] s (s.postItems items) :=
  (ceilingTests_within _ _).after ((eachItem_within s items _).mono)

theorem offerRelease_within (d : Nat) : Within [.line] s (s.offerRelease d) := by
  unfold offerRelease
  split
  · exact Within.refl _ s
  · exact offer_within s _ _ _ _

theorem releaseDrawers_within (ds : List Nat) : Within [.drawers, .line] s (s.releaseDrawers ds) :=
  Within.fold _ (fun t d => (offerRelease_within _ d).after
    ((setDrawer_sameBook t (d := d) (x := { t.drawer d with releasePending := true }) rfl).mono)) _ s

theorem showNotReleased_within (ds : List Nat) : Within [.screens] s (s.showNotReleased ds) :=
  Within.fold _ (fun t _ => showAll_within t _ _) ds s

theorem releaseDelivered_within (d : Nat) : Within [.drawers] s (s.releaseDelivered d) := by
  unfold releaseDelivered
  split
  · exact setDrawer_sameBook s rfl
  · exact Within.refl _ s

theorem drawerOpens_within (d : Nat) :
    Within [.drawers, .journal, .records, .port, .counters, .screens] s (s.drawerOpens d) := by
  unfold drawerOpens
  dsimp only
  generalize (if (s.drawer d).openings < 65535 then (s.drawer d).openings + 1 else (s.drawer d).openings) = n
  have h : ∀ x : Drawer, x.book = (s.drawer d).book →
      Within [.drawers, .journal, .records, .port, .counters, .screens] s (s.setDrawer d x) :=
    fun x hx => (setDrawer_sameBook s hx).mono
  split
  · refine (alertReport_within _ _).after ((alarm_within _ _ _).after ?_)
    split
    · refine (append_within _ _).after ?_
      exact h _ rfl
    · exact h _ rfl
  · exact h _ rfl

theorem takeOpened_within (p : Nat) :
    Within [.drawers, .journal, .records, .port, .counters, .screens] s (s.takeOpened p) := by
  unfold takeOpened
  split
  · split
    · exact Within.refl _ s
    · exact drawerOpens_within s p
  · exact (countLineBadMessage_within s).mono

theorem takeClosed_within (p : Nat) : Within [.drawers, .screens, .counters] s (s.takeClosed p) := by
  unfold takeClosed
  split
  · split
    · exact Within.refl _ s
    · refine (alertReport_within _ _).after ?_
      exact Within.mono (setDrawer_sameBook s rfl)
  · exact (countLineBadMessage_within s).mono

theorem drawerUnknown_within (d : Nat) : Within [.drawers] s (s.drawerUnknown d) := setDrawer_sameBook s rfl

theorem takeFault_within (p : Nat) : Within [.drawers, .counters] s (s.takeFault p) := by
  unfold takeFault
  split
  · exact (drawerUnknown_within s p).mono
  · exact (countLineBadMessage_within s).mono

theorem openAlarmExpires_within (d : Nat) :
    Within [.drawers, .port, .counters, .screens] s (s.openAlarmExpires d) := by
  unfold openAlarmExpires
  split
  · refine (alertReport_within _ _).after ((alarm_within _ _ _).after ?_)
    exact Within.mono (setDrawer_sameBook s rfl)
  · exact Within.refl _ s

theorem drawerUnitAbsent_within (p : Nat) : Within [.drawers] s (s.drawerUnitAbsent p) := by
  unfold drawerUnitAbsent
  split
  · exact drawerUnknown_within s p
  · exact Within.refl _ s

theorem drawerUnitReturned_within (p : Nat) : Within [.line] s (s.drawerUnitReturned p) := by
  unfold drawerUnitReturned
  split
  · exact offerRelease_within s p
  · exact Within.refl _ s

theorem servingChanged_within (d : Nat) : Within [.drawers, .screens] s (s.servingChanged d) := by
  unfold servingChanged
  split
  · exact Within.mono (setDrawer_sameBook s rfl)
  · refine (alertReport_within _ _).after ?_
    exact Within.mono (setDrawer_sameBook s rfl)

theorem replaceBook_within (d : Nat) (lists : List (List Nat)) :
    Within [.drawers, .booksKept, .port, .counters, .screens] s (s.replaceBook d lists) := by
  unfold replaceBook
  dsimp only
  refine (ceilingTest_within _ _).after ?_
  refine Within.after (Within.fold (m := [.screens]) _ (fun t c => countReport_within t d c) _ _) ?_
  exact (setDrawer_within s d _).mono

/-! ### The passbook controller -/

theorem offerPrinter_within (p : Nat) (m : OutMsg) : Within [.line, .printers] s (s.offerPrinter p m) := by
  unfold offerPrinter
  split
  · exact (offer_within s _ _ _ _).mono
  · exact (setPrinter_within s p _).mono
  · exact Within.refl _ s

theorem loseFlight_within (p : Nat) : Within [.line, .printers] s (s.loseFlight p) := by
  unfold loseFlight
  dsimp only
  refine Within.after (k := [.line]) (setUnit_bounded _ ?_) ((setPrinter_within s p _).mono)
  intro h
  simpa using h

theorem freeLines_within (l : List Nat) : Within [.store] s (s.freeLines l) := withStore_within s _

theorem clearBook_within (p : Nat) : Within [.printers] s (s.clearBook p) := setPrinter_within s p _

theorem loadBookWait_within (p : Nat) : Within [.printers] s (s.loadBookWait p) := setPrinter_within s p _

theorem awaitBook_within (p : Nat) : Within [.printers, .screens] s (s.awaitBook p) := by
  unfold awaitBook
  split
  · exact (setPrinterState_within _ p _).after ((loadBookWait_within s p).mono)
  · exact setPrinterState_within s p _

theorem abandonJob_within (p : Nat) (o : Shown) :
    Within [.line, .printers, .screens, .store] s (s.abandonJob p o) := by
  unfold abandonJob
  split
  · exact Within.refl _ s
  · dsimp only
    have h : ∀ (l : List Nat) (x : Printer), Within [.line, .printers, .screens, .store] s
        (((s.freeLines l).setPrinter p x).showAt p o) := fun l x =>
      (showAt_within _ p o).after ((setPrinter_within _ p x).after ((freeLines_within s l).mono))
    split
    · exact (setPrinterState_within _ p _).after ((clearBook_within _ p).after
        ((offerPrinter_within _ p _).after (h _ _)))
    · split
      · exact (setPrinterState_within _ p _).after (h _ _)
      · exact h _ _

theorem completeJob_within (p : Nat) (j : Job) :
    Within [.line, .printers, .screens, .store] s (s.completeJob p j) :=
  (setPrinterState_within _ p _).after ((setPrinter_within _ p _).after ((freeLines_within _ _).after
    ((showAt_within _ p _).after ((offerPrinter_within s p _).mono))))

theorem testJob_within (p : Nat) : Within [.line, .printers, .screens, .store] s (s.testJob p) := by
  unfold testJob
  split
  · split
    · exact completeJob_within s p _
    · exact Within.refl _ s
  · exact Within.refl _ s

theorem sendPrint_within (p : Nat) (m : OutMsg) (f : Flight) (j : Job) :
    Within [.line, .printers, .screens] s (s.sendPrint p m f j) := by
  unfold sendPrint
  split
  · exact (setPrinterState_within _ p _).after ((setPrinter_within _ p _).after ((offer_within s _ _ _ _).mono))
  · exact Within.refl _ s

theorem pageEnd_within (p : Nat) (j : Job) (b : Book) (l : LayoutEntry) :
    Within [.line, .printers, .screens, .store] s (s.pageEnd p j b l) := by
  unfold pageEnd
  split
  · exact abandonJob_within s p _
  · split
    · exact (sendPrint_within s p _ _ _).mono
    · exact (showAt_within _ p _).after ((setPrinterState_within _ p _).after ((setPrinter_within s p _).mono))

theorem printLoop_within (p : Nat) : Within [.line, .printers, .screens, .store] s (s.printLoop p) := by
  unfold printLoop
  split
  · split
    · split
      · exact abandonJob_within s p _
      · split
        · split
          · exact (sendPrint_within s p _ _ _).mono
          · exact Within.refl _ s
        · exact pageEnd_within s p _ _ _
    · exact Within.refl _ s
  · exact Within.refl _ s

theorem handLines_within (p : Nat) (a : Option Text) (items : List PrintLine) :
    Within [.line, .printers, .screens, .store] s (s.handLines p a items).1 := by
  unfold handLines
  split
  · dsimp only
    split
    · split
      · exact Within.refl _ s
      · exact (printLoop_within _ p).after ((setPrinter_within _ p _).after ((withStore_within s _).mono))
    · exact Within.refl _ s
  · exact Within.refl _ s

theorem offerPrinted_within (p : Nat) (j : Job) (item : Nat) :
    Within [.port, .printers] s (s.offerPrinted p j item) := by
  unfold offerPrinted
  split
  · next h => exact (setPrinter_within _ p _).after ((enqueue_room s h).mono)
  · exact (setPrinter_within s p _).mono

theorem queueOwed_within (p : Nat) : Within [.port, .line, .printers, .screens, .store] s (s.queueOwed p) := by
  unfold queueOwed
  split
  · next h =>
    split
    · exact (printLoop_within _ p).after ((setPrinter_within _ p _).after ((enqueue_room s h).mono))
    · split
      · exact Within.refl _ s
      · split
        · exact Within.refl _ s
        · exact (printLoop_within _ p).after ((testJob_within _ p).after ((setPrinter_within _ p _).after
            ((enqueue_room s h).mono)))
  · exact Within.refl _ s

theorem refuseBook_within (p : Nat) : Within [.line, .printers, .screens] s (s.refuseBook p) :=
  (showAt_within _ p _).after ((offerPrinter_within s p _).mono)

theorem takeBookIn_within (p : Nat) (a : Text) (k page place : Nat) :
    Within [.line, .printers, .screens, .store, .counters] s (s.takeBookIn p a k page place) := by
  unfold takeBookIn
  split
  · exact Within.refl _ s
  · split
    · exact (setPrinterState_within _ p _).after ((setPrinter_within s p _).mono)
    · exact (refuseBook_within s p).mono
  · split
    · exact Within.refl _ s
    · split
      · exact (printLoop_within _ p).after ((setPrinterState_within _ p _).after ((setPrinter_within s p _).mono))
      · exact (refuseBook_within s p).mono
  · exact (countLineBadMessage_within s).mono

theorem takeBookOut_within (p : Nat) : Within [.line, .printers, .screens] s (s.takeBookOut p) := by
  unfold takeBookOut
  split
  · exact (awaitBook_within _ p).after ((clearBook_within _ p).after ((loseFlight_within s p).mono))
  · exact (awaitBook_within _ p).after ((clearBook_within _ p).after ((loseFlight_within s p).mono))
  · exact (awaitBook_within s p).mono
  · exact Within.refl _ s

theorem takeReady_within (p : Nat) : Within [.line, .printers, .screens] s (s.takeReady p) := by
  unfold takeReady
  split
  · exact (awaitBook_within _ p).after ((offerPrinter_within s p _).mono)
  · exact Within.refl _ s

theorem confirmLine_within (p : Nat) (j : Job) (b : Book) :
    Within [.port, .line, .printers, .screens, .store] s (s.confirmLine p j b) :=
  (testJob_within _ p).after ((setPrinterState_within _ p _).after ((offerPrinted_within _ p _ _).after
    ((setPrinter_within s p _).mono)))

theorem takeLineDone_within (p : Nat) :
    Within [.port, .line, .printers, .screens, .store, .counters] s (s.takeLineDone p) := by
  unfold takeLineDone
  split
  · exact (confirmLine_within s p _ _).mono
  · exact (countLineBadMessage_within s).mono

theorem takeTurned_within (p : Nat) :
    Within [.line, .printers, .screens, .store, .counters] s (s.takeTurned p) := by
  unfold takeTurned
  split
  · exact (printLoop_within _ p).after ((setPrinterState_within _ p _).after ((setPrinter_within s p _).mono))
  · exact (countLineBadMessage_within s).mono

theorem printerStops_within (p : Nat) (x : PrinterState) (o : Shown) :
    Within [.line, .printers, .screens] s (s.printerStops p x o) :=
  (showAt_within _ p o).after ((setPrinterState_within _ p x).after ((loadBookWait_within _ p).after
    ((clearBook_within _ p).after ((loseFlight_within s p).mono))))

theorem takeJam_within (p : Nat) : Within [.line, .printers, .screens] s (s.takeJam p) := by
  unfold takeJam
  split
  · exact Within.refl _ s
  · exact Within.refl _ s
  · exact printerStops_within s p _ _

theorem takeJamCleared_within (p : Nat) : Within [.printers, .screens] s (s.takeJamCleared p) := by
  unfold takeJamCleared
  split
  · exact awaitBook_within s p
  · exact Within.refl _ s

theorem lineWaitExpires_within (p : Nat) : Within [.line, .printers, .screens] s (s.lineWaitExpires p) := by
  unfold lineWaitExpires
  split
  · exact printerStops_within s p _ _
  · exact Within.refl _ s

theorem pacingExpires_within (p : Nat) : Within [.line, .printers, .screens, .store] s (s.pacingExpires p) := by
  unfold pacingExpires
  split
  · exact Within.refl _ s
  · split
    · exact (printLoop_within _ p).after ((setPrinter_within s p _).mono)
    · exact Within.refl _ s

theorem bookWaitExpires_within (p : Nat) : Within [.line, .printers, .screens, .store] s (s.bookWaitExpires p) := by
  unfold bookWaitExpires
  split
  · exact Within.refl _ s
  · split
    · exact abandonJob_within s p _
    · exact Within.refl _ s

theorem printerDelivered_within (p : Nat) (m : OutMsg) : Within [.printers] s (s.printerDelivered p m) := by
  unfold printerDelivered
  split
  · exact setPrinter_within s p _
  · exact setPrinter_within s p _
  · exact Within.refl _ s

theorem printerMessageReturned_within (p : Nat) (m : OutMsg) :
    Within [.line, .printers, .screens] s (s.printerMessageReturned p m) := by
  unfold printerMessageReturned
  split
  · exact printerStops_within s p _ _
  · exact printerStops_within s p _ _
  · exact Within.refl _ s

theorem printerAbsent_within (p : Nat) : Within [.line, .printers, .screens, .store] s (s.printerAbsent p) :=
  (setPrinterState_within _ p _).after ((setPrinter_within _ p _).after (abandonJob_within s p _))

theorem printerReturned_within (p : Nat) : Within [.line, .printers, .screens] s (s.printerReturned p) :=
  (offerPrinter_within _ p _).after ((setPrinterState_within s p _).mono)

theorem offerKept_within (p : Nat) (l : List OutMsg) : Within [.line, .printers] s (s.offerKept p l) := by
  induction l generalizing s with
  | nil => exact (setPrinter_within s p _).mono
  | cons m l ih =>
    unfold offerKept
    split
    · exact Within.after (ih _) ((offer_within s _ _ _ _).mono)
    · exact (setPrinter_within s p _).mono
    · exact (setPrinter_within s p _).mono

theorem printerRoom_within (p : Nat) : Within [.line, .printers, .screens, .store] s (s.printerRoom p) :=
  (printLoop_within _ p).after ((offerKept_within s p _).mono)

end Sys2Proof.Machine.State
end

