-- ==== Sys2Proof/Laws/FramesDay.lean ====
section
/-! SUPPORT. What the operations of the day-end unit can change. -/

set_option Elab.async false

namespace Sys2Proof.Machine

/-- With nothing queued the window is sound in any state (R184). -/
theorem Day.windowSound_zero {d : Day} (ha : d.acked = 0) (hs : d.sent = 0) (hh : d.highest = 0) : d.WindowSound where
  ackedSent := by omega
  sentHighest := by omega
  highestTotal := by omega
  window := by omega
  unsettled := fun _ => hh

namespace State

variable (s : State)

/-! ### Changes of the day record -/

/-- A change of the day record that keeps the state, the clock within its bound, and the window sound. -/
theorem withDay_keeps {x : Day} (hw : s.day.WindowSound → x.WindowSound) (hst : x.state = s.day.state := by rfl)
    (hc : s.ClockBounded → x.clock ≤ 16777215 := by exact id) : Within [.day] s (s.withDay x) :=
  ((((withDay_within s x).mono (m := [.dayState, .clockBounded, .windowSound, .day])).restore .dayState hst).restore
    .clockBounded hc).restore .windowSound hw

/-- A new day state (R184), where it keeps the window sound. -/
theorem setDayState_sound {x : DayState} (hw : s.day.WindowSound → ({ s.day with state := x } : Day).WindowSound) :
    Within [.day, .dayState, .screens] s (s.setDayState x) := by
  refine (dayReport_within _).after ?_
  exact (((withDay_within s { s.day with state := x }).mono
    (m := [.clockBounded, .windowSound, .day, .dayState, .screens])).restore
    .clockBounded id).restore .windowSound hw

theorem setDayState_within (x : DayState) : Within [.day, .dayState, .screens, .windowSound] s (s.setDayState x) := by
  refine (dayReport_within _).after ?_
  exact ((withDay_within s { s.day with state := x }).mono
    (m := [.clockBounded, .day, .dayState, .screens, .windowSound])).restore
    .clockBounded id

@[simp] theorem setDayState_day (x : DayState) : (s.setDayState x).day = { s.day with state := x } :=
  dayReport_within _ .day (by decide)

theorem dayNotice_within : Within [.port, .counters] s s.dayNotice := offerNotice_within s _

/-! ### The send window (R193) -/

/-- A block queued when the window is open. -/
theorem queueBlock_within (h : s.windowOpen = true) : Within [.port, .counters, .day] s s.queueBlock := by
  simp only [windowOpen, blockCount, Bool.and_eq_true, beq_iff_eq, decide_eq_true_eq] at h
  obtain ⟨⟨⟨hst, hN⟩, hwin⟩, hroom⟩ := h
  replace hN := of_decide_eq_true hN
  have hw : ∀ (n : Option Nat), s.day.WindowSound →
      ({ s.day with sent := s.day.sent + 1, highest := max s.day.highest (s.day.sent + 1), ackTimer := n } :
        Day).WindowSound := by
    intro n hs
    have h1 := hs.ackedSent
    have h2 := hs.sentHighest
    have h3 := hs.highestTotal
    have h4 := hs.window
    have hwin' : s.day.sent - s.day.acked < 4 := hwin
    refine ⟨?_, ?_, ?_, ?_, ?_⟩
    · show s.day.acked ≤ s.day.sent + 1; omega
    · exact Nat.le_max_right _ _
    · exact Nat.max_le.mpr ⟨h3, hN⟩
    · exact Nat.max_le.mpr ⟨h4, by show s.day.sent + 1 ≤ s.day.acked + 4; omega⟩
    · intro hc
      have hc' : s.day.state = .noDay ∨ s.day.state = .opened ∨ s.day.state = .cutoff := hc
      rw [hst] at hc'
      simp at hc'
  have he : Within [.port, .counters, .day] s (s.enqueue (s.blockFrame (s.day.sent + 1))) :=
    (enqueue_room s hroom).mono
  unfold queueBlock
  dsimp only
  split
  · exact Within.after (k := [.day]) (withDay_keeps _ (hw _)) ((countBatchResend_within _).after he)
  · exact Within.after (k := [.day]) (withDay_keeps _ (hw _)) he

theorem queueBlocks_within (n : Nat) : Within [.port, .counters, .day] s (queueBlocks n s) := by
  induction n generalizing s with
  | zero => exact Within.refl _ s
  | succ n ih =>
    unfold queueBlocks
    split
    · next h => exact (ih _).after (queueBlock_within s h)
    · exact Within.refl _ s

theorem testWindow_within : Within [.port, .counters, .day] s s.testWindow := queueBlocks_within s _

/-- A day state without a settlement keeps the window sound when the state it follows has none either. -/
theorem unsettled_sound {x : DayState} (h : s.day.state = .noDay ∨ s.day.state = .opened ∨ s.day.state = .cutoff) :
    s.day.WindowSound → ({ s.day with state := x } : Day).WindowSound := by
  intro hw
  have h0 := hw.unsettled h
  have ha := hw.ackedSent
  have hs := hw.sentHighest
  exact Day.windowSound_zero (show s.day.acked = 0 by omega) (show s.day.sent = 0 by omega) h0

/-- A settled day state keeps the window sound whatever state it follows. -/
theorem settled_sound {x : DayState} (h : x = .sending ∨ x = .held ∨ x = .sent) :
    s.day.WindowSound → ({ s.day with state := x } : Day).WindowSound := by
  intro hw
  refine ⟨hw.ackedSent, hw.sentHighest, hw.highestTotal, hw.window, ?_⟩
  intro hx
  have hx' : x = .noDay ∨ x = .opened ∨ x = .cutoff := hx
  rcases h with rfl | rfl | rfl <;> simp at hx'

/-! ### Completion (R191) -/

theorem endSession_within (p : Nat) :
    Within [.sessions, .screens, .journal, .records, .port, .counters] s (s.endSession p) := by
  unfold endSession
  split
  · exact Within.refl _ s
  · exact (append_within _ _).after ((setSession_within s p _).mono)

theorem endSessions_within : Within [.sessions, .screens, .journal, .records, .port, .counters] s s.endSessions :=
  Within.fold _ (fun t p => endSession_within t p) _ s

theorem clearReleases_within : Within [.drawers] s s.clearReleases :=
  Within.fold _ (fun t d => setDrawer_sameBook t
    (x := { t.drawer d with releasePending := false, releaseDelivered := false }) rfl) _ s

/-- Closing the journal leaves its records as they are (R179). -/
theorem closed_within (b : Bool) : Within [.journal] s (s.withJournal { s.journal with closed := b }) := by
  intro a h
  have r := a.refl s
  cases a <;> first | exact absurd (by decide) h | exact r

/-- A settlement where nothing is queued leaves the window as it is (R193). -/
theorem settled_day {t : State} (ht : t.day.state = .cutoff) (figs : List Figures) (n : Nat) (l : List Block) :
    Within [.day] t (t.withDay { t.day with settlement := figs, lastSeq := n, blocks := l }) := by
  refine withDay_keeps t ?_
  intro hw
  have h0 : t.day.highest = 0 := hw.unsettled (by rw [ht]; simp)
  have h1 := hw.ackedSent
  have h2 := hw.sentHighest
  exact Day.windowSound_zero (show t.day.acked = 0 by omega) (show t.day.sent = 0 by omega) h0

/-- The journal closes in CUTOFF (R179, R191). -/
theorem closeJournal_within {t : State} (ht : t.day.state = .cutoff) : Within [.journal, .day] t (s.closeJournal t) :=
  (settled_day ((closed_within t true .dayState (by decide)).trans ht) _ _ _).after ((closed_within t true).mono)

/-- The settlement, in a day in which nothing is queued (R126, R191). -/
theorem settle_within (hst : s.day.state = .cutoff) :
    Within [.journal, .records, .port, .counters, .day] s s.settle :=
  Within.after (k := [.journal, .day])
    (closeJournal_within s ((append_within s s.settlementBody .dayState (by decide)).trans hst))
    ((append_within s s.settlementBody).mono)

/-- The start of the batch from CUTOFF (R189, R193). -/
theorem startSending_within (hst : s.day.state = .cutoff) :
    Within [.port, .counters, .day, .dayState, .screens] s s.startSending :=
  (testWindow_within _).after ((dayNotice_within _).after (Within.after (k := [.day, .dayState, .screens])
    (setDayState_sound _ (unsettled_sound _ (by rw [hst]; simp))) (Within.refl _ s)))

/-- Completion, in CUTOFF (R191). -/
theorem complete_within (hst : s.day.state = .cutoff) :
    Within [.sessions, .screens, .journal, .records, .port, .counters, .day, .dayState, .drawers] s s.complete := by
  have h1 : Within [.sessions, .screens, .journal, .records, .port, .counters, .drawers] s
      s.endSessions.clearReleases := (clearReleases_within _).after ((endSessions_within s).mono)
  have hst1 : s.endSessions.clearReleases.day.state = .cutoff := by rw [h1 .day (by decide), hst]
  have h2 : Within [.sessions, .screens, .journal, .records, .port, .counters, .day, .drawers] s
      s.endSessions.clearReleases.settle := (settle_within _ hst1).after (h1.mono)
  have hst2 : s.endSessions.clearReleases.settle.day.state = .cutoff := by
    rw [settle_within _ hst1 .dayState (by decide), hst1]
  exact (startSending_within _ hst2).after (h2.mono)

theorem testCompletion_within :
    Within [.sessions, .screens, .journal, .records, .port, .counters, .day, .dayState, .drawers] s
      s.testCompletion := by
  unfold testCompletion
  split
  · next h => exact complete_within s h.1
  · exact Within.refl _ s

/-- Outside CUTOFF the test for completion does nothing (R190). -/
theorem testCompletion_open (h : s.day.state ≠ .cutoff) : s.testCompletion = s := by
  unfold testCompletion
  simp [h]

/-! ### Opening, cutoff, reopening -/

theorem carryDrawer_within (d : Nat) : Within [.drawers, .screens] s (s.carryDrawer d) := by
  unfold carryDrawer
  dsimp only
  refine (alertReport_within _ _).after ?_
  split
  · exact Within.mono (setDrawer_sameBook s rfl)
  · refine (drawerStateReport_within _ _).after ?_
    exact Within.mono (setDrawer_sameBook s rfl)

theorem carryDrawers_within : Within [.drawers, .screens] s s.carryDrawers :=
  Within.fold _ (fun t d => carryDrawer_within t d) _ s

theorem openJournal_within (date : Text) :
    Within [.journal, .records, .journalGrows, .port, .counters] s (s.openJournal date) := by
  refine (append_within _ _).after ?_
  refine ((withJournal_within s _).mono
    (m := [.journalNumbered, .journal, .records, .journalGrows, .port, .counters])).restore .journalNumbered ?_
  intro _ i r hr
  simp at hr

/-- OPEN DAY (R185): the window is empty. -/
theorem openDay_within (date : Text) :
    Within [.day, .dayState, .journal, .records, .journalGrows, .port, .counters, .drawers, .screens] s
      (s.openDay date) := by
  have h1 : Within [.day] s (s.withDay { s.day with clock := 0, running := true, phase := 0 }) :=
    withDay_keeps s (fun h => ⟨h.ackedSent, h.sentHighest, h.highestTotal, h.window, h.unsettled⟩) rfl
      (fun _ => Nat.zero_le _)
  have h2 : Within [.day, .journal, .records, .journalGrows, .port, .counters] s
      ((s.withDay { s.day with clock := 0, running := true, phase := 0 }).openJournal date) :=
    (openJournal_within _ date).after (h1.mono)
  refine (dayNotice_within _).after (Within.after (k := [.day, .dayState, .screens]) (setDayState_sound _ ?_)
    ((carryDrawers_within _).after (Within.after (k := [.day]) (withDay_keeps _ ?_) (h2.mono))))
  · intro _
    have hd := carryDrawers_within (((s.withDay { s.day with clock := 0, running := true, phase := 0 }).openJournal
      date).withDay { ((s.withDay { s.day with clock := 0, running := true, phase := 0 }).openJournal date).day with
        date := some date, settlement := List.replicate 4 Figures.zero, lastSeq := 0, blocks := [], acked := 0,
        sent := 0, highest := 0, expiries := 0, ackTimer := none }) .day (by decide)
    rw [hd]
    exact Day.windowSound_zero rfl rfl rfl
  · intro _
    exact Day.windowSound_zero rfl rfl rfl

/-- A cutoff taken in OPEN (R186). -/
theorem takeCutoff_within (p t : Option Nat) (h : s.day.state = .opened) :
    Within [.sessions, .screens, .journal, .records, .port, .counters, .day, .dayState, .drawers] s
      (s.takeCutoff p t) := by
  refine (testCompletion_within _).after ((dayNotice_within _).after
    (Within.after (k := [.day, .dayState, .screens]) (setDayState_sound _ ?_) ((append_within s _).mono)))
  refine unsettled_sound _ ?_
  rw [append_within s _ .day (by decide), h]
  simp

/-- A reopening taken in CUTOFF (R188). -/
theorem takeReopenDay_within (h : s.day.state = .cutoff) :
    Within [.journal, .records, .port, .counters, .day, .dayState, .screens] s s.takeReopenDay := by
  refine (dayNotice_within _).after
    (Within.after (k := [.day, .dayState, .screens]) (setDayState_sound _ ?_) ((append_within s _).mono))
  refine unsettled_sound _ ?_
  rw [append_within s _ .day (by decide), h]
  simp

theorem takeClose_within (p : Nat) :
    Within [.sessions, .screens, .journal, .records, .port, .counters, .day, .dayState, .drawers] s
      (s.takeClose p) := by
  unfold takeClose
  dsimp only
  split
  · exact (showAt_within _ p _).after ((copyRole_within s p).mono)
  · split
    · exact (showAt_within _ p _).after ((copyRole_within s p).mono)
    · next h => exact (takeCutoff_within _ _ _ (Decidable.not_not.mp h)).after ((copyRole_within s p).mono)

/-! ### Acknowledgments -/

theorem takeAck_within (n : Nat) : Within [.day, .dayState, .port, .counters, .screens] s (s.takeAck n) := by
  unfold takeAck
  split
  · next h =>
    obtain ⟨hst, ho⟩ := h
    have ho' : s.day.acked < n ∧ n ≤ s.day.highest := by
      simpa [outstanding, Bool.and_eq_true, decide_eq_true_eq] using ho
    have hw : ∀ (a : Option Nat), s.day.WindowSound →
        ({ s.day with acked := n, sent := max s.day.sent n, expiries := 0, ackTimer := a } : Day).WindowSound := by
      intro a hs
      have h1 := hs.ackedSent
      have h2 := hs.sentHighest
      have h4 := hs.window
      refine ⟨?_, ?_, hs.highestTotal, ?_, hs.unsettled⟩
      · show n ≤ max s.day.sent n; omega
      · show max s.day.sent n ≤ s.day.highest; omega
      · show s.day.highest ≤ n + 4; omega
    dsimp only
    generalize (if s.day.state = .sending ∧ n < s.day.highest then some s.tables.params.batchAck else none) = a
    have hk : Within [.day] s (s.withDay { s.day with
        acked := n, sent := max s.day.sent n, expiries := 0, ackTimer := a }) := withDay_keeps s (hw a)
    split
    · refine (dayNotice_within _).after (Within.after (k := [.day, .dayState, .screens])
        (setDayState_sound _ (settled_sound _ (by simp))) (Within.after (k := [.day]) (withDay_keeps _ ?_)
          (hk.mono)))
      exact fun h => ⟨h.ackedSent, h.sentHighest, h.highestTotal, h.window, h.unsettled⟩
    · exact (testWindow_within _).after (hk.mono)
  · exact (countBatchAckIgnored_within s).mono

theorem takeNack_within (n : Nat) : Within [.day, .port, .counters] s (s.takeNack n) := by
  unfold takeNack
  split
  · next h =>
    obtain ⟨_, ho⟩ := h
    have ho' : s.day.acked < n ∧ n ≤ s.day.highest := by
      simpa [outstanding, Bool.and_eq_true, decide_eq_true_eq] using ho
    refine (testWindow_within _).after (Within.mono (withDay_keeps s ?_))
    intro hs
    refine ⟨?_, ?_, hs.highestTotal, hs.window, hs.unsettled⟩
    · show s.day.acked ≤ n - 1; omega
    · show n - 1 ≤ s.day.highest; omega
  · exact (countBatchAckIgnored_within s).mono

/-- The blocks queued but not acknowledged forgotten: s becomes a (R196, R197, R199). -/
theorem backToAcked_sound {d : Day} (h : d.WindowSound) (e : Nat) (a : Option Nat) :
    ({ d with expiries := e, sent := d.acked, ackTimer := a } : Day).WindowSound :=
  ⟨Nat.le_refl _, Nat.le_trans h.ackedSent h.sentHighest, h.highestTotal, h.window, h.unsettled⟩

theorem ackWaitExpires_within : Within [.day, .dayState, .port, .counters, .screens] s s.ackWaitExpires := by
  unfold ackWaitExpires
  split
  · dsimp only
    split
    · exact (testWindow_within _).after (Within.mono (withDay_keeps s fun h => backToAcked_sound h _ _))
    · exact (alarm_within _ _ _).after (Within.after (k := [.day, .dayState, .screens])
        (setDayState_sound _ (settled_sound _ (by simp)))
        (Within.mono (withDay_keeps s fun h => backToAcked_sound h _ _)))
  · exact Within.refl _ s

theorem resumeBatch_within : Within [.day, .dayState, .port, .counters, .screens] s s.resumeBatch :=
  (testWindow_within _).after ((dayNotice_within _).after (Within.after (k := [.day, .dayState, .screens])
    (setDayState_sound _ (settled_sound _ (by simp)))
    (Within.mono (withDay_keeps s fun h => backToAcked_sound h 0 s.day.ackTimer))))

theorem clockTick_within : Within [.day] s s.clockTick := by
  unfold clockTick
  split
  · next h =>
    refine withDay_keeps s (fun h => ⟨h.ackedSent, h.sentHighest, h.highestTotal, h.window, h.unsettled⟩) rfl ?_
    intro _
    exact h.2
  · exact Within.refl _ s

end State

end Sys2Proof.Machine
end

