-- ==== Sys2Proof/Laws/Entries.lean ====
section
/-! SUPPORT. The pending request table: what a search finds (R67, R72, R81), and the tag a new entry takes (R69). -/

set_option Elab.async false

namespace Sys2Proof.Machine.State

variable (s : State)

/-! ### Searches -/

/-- A search that finds an entry finds one in use that the test takes. -/
theorem findEntry_some {test : Entry → Bool} {i : Nat} {e : Entry} (h : s.findEntry test = some (i, e)) :
    s.entry i = some e ∧ test e = true := by
  unfold findEntry at h
  obtain ⟨j, _, hj⟩ := List.exists_of_findSome?_eq_some h
  split at hj
  · next f hf =>
    split at hj
    · next ht =>
      simp only [Option.some.injEq, Prod.mk.injEq] at hj
      obtain ⟨rfl, rfl⟩ := hj
      exact ⟨hf, ht⟩
    · cases hj
  · cases hj

/-- A search that finds nothing: the test takes no entry in use. -/
theorem findEntry_none {test : Entry → Bool} (h : s.findEntry test = none) {i : Nat} {e : Entry}
    (he : s.entry i = some e) : test e = false := by
  unfold findEntry at h
  rw [List.findSome?_eq_none_iff] at h
  have hi := h i (List.mem_range.mpr (entry_index s he))
  rw [he] at hi
  simpa using hi

theorem findEntry_congr {t : State} (h : t.entries = s.entries) (test : Entry → Bool) :
    t.findEntry test = s.findEntry test := by
  unfold findEntry entry
  rw [h]

/-- The entry of lowest index that is free (R67). -/
theorem freeIndex_some {i : Nat} (h : s.freeIndex = some i) : i < 32 ∧ s.entry i = none := by
  unfold freeIndex at h
  have h1 := List.find?_some h
  have h2 := List.mem_of_find?_eq_some h
  exact ⟨List.mem_range.mp h2, by simpa using h1⟩

/-! ### Tags (R69) -/

/-- The tags of the entries in use. -/
def tags : List Nat := s.entries.toList.filterMap (fun e => e.map (·.tag))

theorem tags_length : s.tags.length ≤ 32 := by
  have h := List.length_filterMap_le (fun e : Option Entry => e.map (·.tag)) s.entries.toList
  simpa [tags] using h

theorem tagInUse_iff (tag : Nat) : s.tagInUse tag = true ↔ tag ∈ s.tags := by
  unfold tagInUse tags
  rw [List.any_eq_true]
  constructor
  · rintro ⟨e, he, h⟩
    cases e with
    | none => simp at h
    | some x => exact List.mem_filterMap.mpr ⟨some x, he, by simpa using h⟩
  · intro h
    obtain ⟨e, he, ht⟩ := List.mem_filterMap.mp h
    cases e with
    | none => simp at ht
    | some x => exact ⟨some x, he, by simpa using ht⟩

theorem tagAfter_range (t : Nat) : 1 ≤ tagAfter t ∧ tagAfter t ≤ 65535 := by
  unfold tagAfter
  split <;> omega

/-- The k-th tag after the next one, counting round 1 to 65,535. -/
def tagSteps (t k : Nat) : Nat := (tagAfter t - 1 + k) % 65535 + 1

theorem tagAfter_steps (t k : Nat) : tagAfter (tagSteps t k) = tagSteps t (k + 1) := by
  unfold tagSteps
  generalize tagAfter t - 1 = a
  unfold tagAfter
  split <;> omega

theorem tagSteps_zero (t : Nat) : tagSteps t 0 = tagAfter t := by
  have h := tagAfter_range t
  unfold tagSteps
  omega

theorem tagSteps_injective (t : Nat) {j k : Nat} (hj : j < 65535) (hk : k < 65535) (h : tagSteps t j = tagSteps t k) :
    j = k := by
  unfold tagSteps at h
  generalize tagAfter t - 1 = a at h
  omega

/-- The search from the k-th tag on ends at a tag that is free, or every tag it passes is in use. -/
theorem tagFrom_free (t fuel k : Nat) (h : s.tagInUse (s.tagFrom fuel (tagSteps t k)) = true)
    (hk : s.tagInUse (tagSteps t k) = true) : ∀ j, k ≤ j → j ≤ k + fuel → s.tagInUse (tagSteps t j) = true := by
  induction fuel generalizing k with
  | zero =>
    intro j h1 h2
    have : j = k := by omega
    rw [this]
    exact hk
  | succ fuel ih =>
    intro j h1 h2
    by_cases hjk : j = k
    · rw [hjk]
      exact hk
    · have hn : s.tagInUse (tagSteps t (k + 1)) = true := by
        by_contra hc
        unfold tagFrom at h
        rw [tagAfter_steps] at h
        simp only [hc] at h
        exact hc (by simpa using h)
      unfold tagFrom at h
      rw [tagAfter_steps] at h
      simp only [hn, if_true] at h
      exact ih (k + 1) h hn j (by omega) (by omega)

theorem tagFrom_range (fuel t : Nat) : 1 ≤ s.tagFrom (fuel + 1) t ∧ s.tagFrom (fuel + 1) t ≤ 65535 := by
  induction fuel generalizing t with
  | zero =>
    unfold tagFrom
    split
    · exact tagAfter_range t
    · exact tagAfter_range t
  | succ fuel ih =>
    rw [tagFrom]
    split
    · exact ih _
    · exact tagAfter_range t

/-- The next tag lies in 1 to 65,535 (R69). -/
theorem nextTag_range : 1 ≤ s.nextTag ∧ s.nextTag ≤ 65535 := tagFrom_range s 32 _

/-- No entry in use holds the next tag: of 33 tags in turn at most 32 are in use (R69). -/
theorem nextTag_free : s.tagInUse s.nextTag = false := by
  by_contra hc
  have hc' : s.tagInUse (s.tagFrom 33 s.tagCounter) = true := by simpa [nextTag] using hc
  unfold tagFrom at hc'
  by_cases h0 : s.tagInUse (tagAfter s.tagCounter) = true
  · simp only [h0, if_true] at hc'
    rw [← tagSteps_zero] at hc' h0
    have hall := tagFrom_free s s.tagCounter 32 0 hc' h0
    have hsub : (List.range 33).map (tagSteps s.tagCounter) ⊆ s.tags := by
      intro x hx
      obtain ⟨j, hj, rfl⟩ := List.mem_map.mp hx
      have := List.mem_range.mp hj
      exact (tagInUse_iff s _).mp (hall j (by omega) (by omega))
    have hnd : ((List.range 33).map (tagSteps s.tagCounter)).Nodup := by
      refine List.Nodup.map_on ?_ List.nodup_range
      intro j hj k hk h
      have h1 := List.mem_range.mp hj
      have h2 := List.mem_range.mp hk
      exact tagSteps_injective _ (by omega) (by omega) h
    have hlen := (List.subperm_of_subset hnd hsub).length_le
    have := tags_length s
    simp at hlen
    omega
  · simp only [h0] at hc'
    exact h0 (by simpa using hc')

/-- An entry in use holds a tag other than the next one (R69). -/
theorem nextTag_ne {i : Nat} {e : Entry} (he : s.entry i = some e) : e.tag ≠ s.nextTag := by
  intro h
  have hu : s.tagInUse s.nextTag = true := by
    rw [tagInUse_iff, ← h]
    have hi := entry_index s he
    refine List.mem_filterMap.mpr ⟨some e, ?_, rfl⟩
    unfold entry rd at he
    rw [Vector.getElem?_eq_getElem hi] at he
    have he' : s.entries[i] = some e := by simpa using he
    rw [← he']
    simp
  rw [nextTag_free] at hu
  cases hu

end Sys2Proof.Machine.State
end

