-- ==== Sys2Proof/Laws/FramesTracker.lean ====
section
/-! SUPPORT. What the operations of the request tracker can change. -/

set_option Elab.async false

namespace Sys2Proof.Machine.State

variable (s : State)

/-- What an entry's end can reach besides the entry itself: the completion of a cutoff (R190). -/
theorem freed_within (i : Nat) :
    Within [.sessions, .screens, .journal, .records, .port, .counters, .day, .dayState, .drawers, .entries] s
      (s.freeEntry i).testCompletion :=
  (testCompletion_within _).after ((freeEntry_within s i).mono)

theorem reportEntry_within (p : Nat) (m : StateMsg) : Within [.screens] s (s.reportEntry p m) := onScreen_within s p _

/-- An entry of the table forwarded to the centre, with a free slot (R70, R82, R83). -/
theorem forward_within {i : Nat} {e d : Entry} (hroom : s.hasRoom = true) (hd : s.entry i = some d)
    (htag : e.tag = d.tag) (hreq : e.req.fixed = d.req.fixed) (hw : d.waits = true) :
    Within [.port, .entries, .screens] s (s.forward i e) := by
  refine (reportEntry_within _ _ _).after (Within.after (k := [.entries]) (setEntry_kept _ (e := d) hd htag hreq ?_)
    ((enqueue_room s hroom).mono))
  exact fun _ => hw

/-- A new entry in a free place, with the next tag, for a position that has no waiting entry (R67, R69). -/
theorem setEntry_new {i : Nat} {e : Entry} (hi : s.freeIndex = some i) (htag : e.tag = s.nextTag)
    (hpos : s.waitingAt e.req.pos = none) (hs : s.EntriesSound) : (s.setEntry i (some e)).EntriesSound := by
  obtain ⟨h32, hfree⟩ := freeIndex_some s hi
  have hread : ∀ j, rd (s.setEntry i (some e)).entries j none = if i = j then some e else s.entry j := by
    intro j
    have := entry_setEntry s i j (some e)
    unfold entry at this ⊢
    rw [this]
    simp [h32]
  have hnone : ∀ j f, s.entry j = some f → f.waits = true → f.req.pos ≠ e.req.pos := by
    intro j f hf hw hp
    have := findEntry_none s hpos hf
    simp [hw, hp] at this
  constructor
  · intro j f hf
    rw [hread] at hf
    split at hf
    · cases hf
      rw [htag]
      exact nextTag_range s
    · exact hs.tagRange j f hf
  · intro j k f g hf hg h
    rw [hread] at hf hg
    split at hf
    · next hj =>
      cases hf
      split at hg
      · next hk => rw [← hj, ← hk]
      · exact absurd (h.symm.trans htag) (nextTag_ne s hg)
    · split at hg
      · cases hg
        exact absurd (h.trans htag) (nextTag_ne s hf)
      · exact hs.tagsDistinct j k f g hf hg h
  · intro j k f g hf hg wf wg hp
    rw [hread] at hf hg
    split at hf
    · next hj =>
      cases hf
      split at hg
      · next hk => rw [← hj, ← hk]
      · exact absurd hp.symm (hnone k g hg wg)
    · split at hg
      · cases hg
        exact absurd hp (hnone j f hf wf)
      · exact hs.oneWaiting j k f g hf hg wf wg hp

/-- An entry created at acceptance (R69, R70). -/
theorem createEntry_within (c : Captured) (o : Bool) (n : Nat) (hroom : o = false → s.hasRoom = true)
    (hpos : s.waitingAt c.pos = none) :
    Within [.port, .entries, .entriesKept, .tagCounter, .overrides, .screens] s (s.createEntry c o n) := by
  unfold createEntry
  split
  · exact Within.refl _ s
  · next i hi =>
    dsimp only
    have ht : Within [.tagCounter] s (s.withTagCounter s.nextTag) :=
      ((withTagCounter_within s _).mono (m := [.tagBounded, .tagCounter])).restore .tagBounded
        fun _ => (nextTag_range s).2
    have hset : ∀ (t : State) (e : Entry), t.entries = s.entries → t.tagCounter = s.nextTag → e.tag = s.nextTag →
        e.req.pos = c.pos → Within [.entries, .entriesKept] t (t.setEntry i (some e)) := by
      intro t e he _ htag hp
      refine ((setEntry_within t i (some e)).mono (m := [.entriesSound, .entries, .entriesKept])).restore .entriesSound
        ?_
      intro hs
      have hs' : s.EntriesSound := by
        unfold EntriesSound at hs ⊢
        rw [← he]
        exact hs
      have := setEntry_new s hi htag (by rw [hp]; exact hpos) hs'
      unfold EntriesSound at this ⊢
      simpa [he] using this
    split
    · refine (reportEntry_within _ _ _).after ((setOverrides_within _ _).after ?_)
      exact Within.after (hset _ _ rfl rfl rfl rfl) (ht.mono)
    · next ho =>
      have ho' : o = false := by simpa using ho
      have hr : (s.withTagCounter s.nextTag).hasRoom = true := hroom ho'
      unfold forward
      refine (reportEntry_within _ _ _).after (Within.after (hset _ _ rfl rfl rfl rfl) ?_)
      exact (enqueue_room _ hr).after (ht.mono)

/-! ### The posting hand-off -/

theorem postLines_within (c : Captured) (a : Option Answer) :
    Within [.line, .printers, .screens, .store] s (s.postLines c a).1 := by
  unfold postLines
  split
  · split
    · exact handLines_within s _ _ _
    · exact Within.refl _ s
  · exact Within.refl _ s

theorem postScreens_within (c : Captured) (a : Option Answer) (b : Bool) : Within [.screens] s (s.postScreens c a b) := by
  unfold postScreens
  dsimp only
  refine (onScreen_within _ _ _).after ((itemReports_within _ _).after ?_)
  split
  · exact takeForm_within s _ _
  · exact Within.refl _ s

/-- The posting hand-off (R86). -/
theorem post_within (c : Captured) (tag : Option Nat) (a : Option Answer) :
    Within [.drawers, .booksKept, .port, .counters, .screens, .journal, .records, .line, .printers, .store] s
      (s.post c tag a) := by
  unfold post
  dsimp only
  refine (showNotReleased_within _ _).after ((postScreens_within _ _ _ _).after ((releaseDrawers_within _ _).after
    ((postLines_within _ _ _).after ((appendClaimed_within _ _).after ((postItems_within s _).mono)))))

/-! ### Answers -/

theorem dropBadFrame_within : Within [.port, .portRest, .counters] s s.dropBadFrame := by
  refine Within.after (k := [.port, .portRest]) ?_ ((countLinkBadFrame_within s).mono)
  intro a h
  have r := a.refl s.countLinkBadFrame
  cases a <;> first | exact absurd (by decide) h | exact r

theorem answerScreen_within (c : Captured) (b : Option Int) (o : Shown) : Within [.screens] s (s.answerScreen c b o) :=
  (showWithForm_within _ _ _ _).after (onScreen_within s _ _)

theorem approve_within (i : Nat) (e : Entry) (a : Answer) :
    Within [.drawers, .booksKept, .port, .counters, .screens, .journal, .records, .line, .printers, .store, .sessions,
      .day, .dayState, .entries] s (s.approve i e a) := by
  unfold approve
  split
  · exact (freed_within _ i).after ((answerScreen_within s _ _ _).mono)
  · exact (freed_within _ i).after ((post_within s _ _ _).mono)

theorem decline_within (i : Nat) (e : Entry) (a : Answer) :
    Within [.drawers, .port, .counters, .screens, .journal, .records, .sessions, .day, .dayState, .entries] s
      (s.decline i e a) :=
  (freed_within _ i).after ((answerScreen_within _ _ _ _).after ((releaseClaim_within _ _).after
    ((releaseItems_within s _).mono)))

theorem takeAnswer_within (tag : Nat) (bs : List Byte) :
    Within [.drawers, .booksKept, .port, .portRest, .counters, .screens, .journal, .records, .line, .printers, .store,
      .sessions, .day, .dayState, .entries] s (s.takeAnswer tag bs) := by
  unfold takeAnswer
  split
  · exact (dropBadFrame_within s).mono
  · split
    · exact (countLateAnswer_within s).mono
    · split
      · exact (approve_within s _ _ _).mono
      · exact (decline_within s _ _ _).mono

/-! ### Expiry, cancel and reversal -/

theorem offerReversal_within (i : Nat) : Within [.port, .entries] s (s.offerReversal i) := by
  unfold offerReversal
  split
  · split
    · next h => exact (freeEntry_within _ i).after ((enqueue_room s h.2).mono)
    · exact Within.refl _ s
  · exact Within.refl _ s

theorem beginReversing_within {i : Nat} {e : Entry} (he : s.entry i = some e) (r : ExpiryReason) :
    Within [.drawers, .screens, .journal, .records, .port, .counters, .entries] s (s.beginReversing i e r) := by
  have h1 : Within [.drawers, .screens, .journal, .records, .port, .counters] s
      ((s.releaseItems e.req.items).appendClaimed (e.expiredBody r)) :=
    (appendClaimed_within _ _).after ((releaseItems_within s _).mono)
  have he' : ((s.releaseItems e.req.items).appendClaimed (e.expiredBody r)).entry i = some e := by
    rw [entry_congr (h1 .entries (by decide)), he]
  exact Within.after (setEntry_kept _ he' rfl rfl (by simp [Entry.waits, Entry.reversing])) (h1.mono)

theorem endCentre_within {i : Nat} {e : Entry} (he : s.entry i = some e) (r : ExpiryReason) (o : Shown) :
    Within [.drawers, .screens, .journal, .records, .port, .counters, .sessions, .day, .dayState, .entries] s
      (s.endCentre i e r o) := by
  unfold endCentre
  split
  · exact (freed_within _ i).after ((showAt_within s _ _).mono)
  · exact (testCompletion_within _).after ((offerReversal_within _ i).after ((showAt_within _ _ _).after
      ((beginReversing_within s he r).mono)))

theorem endOverride_within (i : Nat) (e : Entry) (o : Shown) :
    Within [.drawers, .screens, .journal, .records, .port, .counters, .sessions, .day, .dayState, .entries, .overrides] s
      (s.endOverride i e o) :=
  (freed_within _ i).after ((showAt_within _ _ _).after ((releaseClaim_within _ _).after
    ((releaseItems_within _ _).after ((setOverrides_within s _).mono))))

theorem approvalExpires_within (i : Nat) :
    Within [.drawers, .screens, .journal, .records, .port, .counters, .sessions, .day, .dayState, .entries] s
      (s.approvalExpires i) := by
  unfold approvalExpires
  split
  · next h =>
    split
    · exact endCentre_within s h _ _
    · exact Within.refl _ s
  · exact Within.refl _ s

theorem overrideExpires_within (i : Nat) :
    Within [.drawers, .screens, .journal, .records, .port, .counters, .sessions, .day, .dayState, .entries, .overrides] s
      (s.overrideExpires i) := by
  unfold overrideExpires
  split
  · split
    · exact endOverride_within s i _ _
    · exact Within.refl _ s
  · exact Within.refl _ s

theorem takeCancel_within (p : Nat) :
    Within [.drawers, .screens, .journal, .records, .port, .counters, .sessions, .day, .dayState, .entries, .overrides] s
      (s.takeCancel p) := by
  unfold takeCancel
  split
  · exact Within.refl _ s
  · next h =>
    split
    · exact endOverride_within s _ _ _
    · exact (endCentre_within s (findEntry_some s h).1 _ _).mono

theorem queueReversal_within (i : Nat) :
    Within [.drawers, .screens, .journal, .records, .port, .counters, .sessions, .day, .dayState, .entries] s
      (s.queueReversal i) := by
  unfold queueReversal
  split
  · split
    · exact (testCompletion_within _).after ((offerReversal_within s i).mono)
    · exact Within.refl _ s
  · exact Within.refl _ s

/-! ### Supervisor override -/

/-- What a grant can change: for a LOCAL entry it posts, for a CENTRAL one it forwards or keeps the entry (R82). -/
theorem grantOverride_within {i : Nat} {e : Entry} (he : s.entry i = some e) (hst : e.state = .waitingOverride)
    (n : Nat) :
    Within [.drawers, .booksKept, .port, .counters, .screens, .journal, .records, .line, .printers, .store, .sessions,
      .day, .dayState, .entries, .overrides] s (s.grantOverride i e n) := by
  have hw : e.waits = true := by simp [Entry.waits, hst]
  have h1 : Within [.overrides, .screens, .port, .counters, .journal, .records] s
      ((s.setOverrides (s.overrides.filter (· != i))).appendClaimed (e.overrideBody n)) :=
    (appendClaimed_within _ _).after ((setOverrides_within s _).mono)
  have he' : ((s.setOverrides (s.overrides.filter (· != i))).appendClaimed (e.overrideBody n)).entry i = some e := by
    rw [entry_congr (h1 .entries (by decide)), he]
  have h2 : Within [.overrides, .screens, .port, .counters, .journal, .records, .entries] s
      (((s.setOverrides (s.overrides.filter (· != i))).appendClaimed (e.overrideBody n)).setEntry i
        (some { e with claim := e.claim - 1, timer := none })) :=
    Within.after (setEntry_kept _ he' rfl rfl (fun _ => hw)) (h1.mono)
  have he'' : (((s.setOverrides (s.overrides.filter (· != i))).appendClaimed (e.overrideBody n)).setEntry i
      (some { e with claim := e.claim - 1, timer := none })).entry i =
      some { e with claim := e.claim - 1, timer := none } := by
    rw [entry_setEntry]
    simp [entry_index s he]
  unfold grantOverride
  dsimp only
  split
  · exact (freed_within _ i).after ((post_within _ _ _ _).after (h2.mono))
  · split
    · next hr => exact (forward_within _ hr he'' rfl rfl hw).after (h2.mono)
    · exact (reportEntry_within _ _ _).after (Within.after (setEntry_kept _ he'' rfl rfl (fun _ => hw)) (h2.mono))

theorem decideOverride_within (p tag : Nat) (g : Bool) :
    Within [.drawers, .booksKept, .port, .counters, .screens, .journal, .records, .line, .printers, .store, .sessions,
      .day, .dayState, .entries, .overrides] s (s.decideOverride p tag g) := by
  unfold decideOverride
  dsimp only
  split
  · exact (showAt_within s _ _).mono
  · split
    · exact (showAt_within s _ _).mono
    · next h =>
      obtain ⟨he, ht⟩ := findEntry_some s h
      split
      · exact (showAt_within s _ _).mono
      · split
        · exact (showAt_within s _ _).mono
        · split
          · split
            · exact (showAt_within s _ _).mono
            · refine grantOverride_within s he ?_ _
              simp only [Bool.and_eq_true, beq_iff_eq] at ht
              exact ht.1
          · exact (endOverride_within s _ _ _).mono

theorem takeOverride_within (p tag d : Nat) :
    Within [.drawers, .booksKept, .port, .counters, .screens, .journal, .records, .line, .printers, .store, .sessions,
      .day, .dayState, .entries, .overrides] s (s.takeOverride p tag d) := by
  unfold takeOverride
  split
  · exact (decideOverride_within _ p tag _).after ((copyRole_within s p).mono)
  · split
    · exact (decideOverride_within _ p tag _).after ((copyRole_within s p).mono)
    · exact (countLineBadMessage_within s).mono

theorem queueGranted_within (i : Nat) : Within [.port, .entries, .screens] s (s.queueGranted i) := by
  unfold queueGranted
  split
  · next h =>
    split
    · next hc => exact forward_within s hc.2.2 h rfl rfl (by simp [Entry.waits, hc.1])
    · exact Within.refl _ s
  · exact Within.refl _ s

end Sys2Proof.Machine.State
end

