-- ==== Sys2Proof/Laws/FramesSessions.lean ====
section
/-! SUPPORT. What sessions, proofs and the acceptance of requests can change. -/

set_option Elab.async false

namespace Sys2Proof.Machine.State

variable (s : State)

/-! ### Sessions -/

theorem takeSignOn_within (p n : Nat) :
    Within [.sessions, .screens, .journal, .records, .port, .counters] s (s.takeSignOn p n) := by
  unfold takeSignOn
  split
  · exact (showAt_within s _ _).mono
  · exact (takeDefaultForm_within _ _).after ((append_within _ _).after ((setSession_within s _ _).mono))

theorem takeSignOff_within (p : Nat) :
    Within [.sessions, .screens, .journal, .records, .port, .counters] s (s.takeSignOff p) := by
  unfold takeSignOff
  split
  · exact (showAt_within s _ _).mono
  · exact (append_within _ _).after ((setSession_within s _ _).mono)

theorem takeSuspend_within (p : Nat) : Within [.sessions, .screens] s (s.takeSuspend p) := by
  unfold takeSuspend
  split
  · exact setSession_within s _ _
  · exact Within.refl _ s
  · exact (showAt_within s _ _).mono

theorem takeResume_within (p n : Nat) : Within [.sessions, .screens] s (s.takeResume p n) := by
  unfold takeResume
  split
  · split
    · exact setSession_within s _ _
    · exact (showAt_within s _ _).mono
  · exact Within.refl _ s
  · exact (showAt_within s _ _).mono

/-! ### Proofs -/

theorem setDrawerState_within (d : Nat) (x : DrawerState) (n : Nat) :
    Within [.drawers, .screens] s (s.setDrawerState d x n) :=
  (drawerStateReport_within _ d).after (Within.mono (setDrawer_sameBook s rfl))

theorem balanceDrawer_within (p d : Nat) (lists : List (List Nat)) (r : ProofResult) :
    Within [.drawers, .booksKept, .port, .counters, .screens, .journal, .records, .sessions, .day, .dayState] s
      (s.balanceDrawer p d lists r) :=
  (testCompletion_within _).after ((showAt_within _ _ _).after ((setDrawerState_within _ _ _ _).after
    ((append_within _ _).after ((replaceBook_within s _ _).mono))))

theorem failProof_within (p d : Nat) :
    Within [.drawers, .port, .counters, .screens, .journal, .records, .sessions, .day, .dayState] s (s.failProof p d) := by
  unfold failProof
  generalize afterFailure (s.drawer d).state (s.drawer d).recount = f
  obtain ⟨x, n, o⟩ := f
  dsimp only
  refine (testCompletion_within _).after ((showAt_within _ _ _).after ?_)
  split
  · exact Within.refl _ s
  · exact (setDrawerState_within s _ _ _).mono

theorem takeCount_within (p d : Nat) (lists : List (List Nat)) :
    Within [.drawers, .booksKept, .port, .counters, .screens, .journal, .records, .sessions, .day, .dayState] s
      (s.takeCount p d lists) := by
  unfold takeCount
  split
  · exact (countLineBadMessage_within s).mono
  · dsimp only
    split
    · exact (showAt_within _ _ _).after ((copyRole_within s p).mono)
    · split
      · exact (balanceDrawer_within _ _ _ _ _).after ((copyRole_within s p).mono)
      · exact (failProof_within _ _ _).after ((copyRole_within s p).mono)

theorem takeAcceptDiff_within (p d : Nat) (lists : List (List Nat)) :
    Within [.drawers, .booksKept, .port, .counters, .screens, .journal, .records, .sessions, .day, .dayState] s
      (s.takeAcceptDiff p d lists) := by
  unfold takeAcceptDiff
  split
  · exact (countLineBadMessage_within s).mono
  · dsimp only
    split
    · exact (showAt_within _ _ _).after ((copyRole_within s p).mono)
    · exact (balanceDrawer_within _ _ _ _ _).after ((copyRole_within s p).mono)

theorem takeReopen_within (p d : Nat) :
    Within [.drawers, .port, .counters, .screens, .journal, .records, .sessions, .day, .dayState] s
      (s.takeReopen p d) := by
  unfold takeReopen
  split
  · exact (countLineBadMessage_within s).mono
  · dsimp only
    split
    · exact (showAt_within _ _ _).after ((copyRole_within s p).mono)
    · exact (testCompletion_within _).after ((append_within _ _).after ((setDrawerState_within _ _ _ _).after
        ((copyRole_within s p).mono)))

theorem takeFormMessage_within (p f : Nat) : Within [.screens] s (s.takeFormMessage p f) := by
  unfold takeFormMessage
  split
  · split
    · exact takeForm_within s p f
    · exact Within.refl _ s
  · exact Within.refl _ s

/-! ### Acceptance -/

theorem refuse_within (p : Nat) (r : Request) (f : Refused) : Within [.screens, .counters] s (s.refuse p r f) :=
  (countRefused_within _).after ((showWithForm_within _ _ _ _).after ((onScreen_within s _ _).mono))

/-- A list of checks that all pass. -/
theorem firstFailure_none {l : List (Bool × Shown)} (h : firstFailure l = none) : ∀ x ∈ l, x.1 = false := by
  induction l with
  | nil => simp
  | cons x l ih =>
    obtain ⟨b, o⟩ := x
    unfold firstFailure at h
    split at h
    · cases h
    · next hb =>
      intro y hy
      rcases List.mem_cons.mp hy with rfl | hy
      · simpa using hb
      · exact ih h y hy

/-- A request that passes checks 8 to 17 and goes to the centre without an override has found a free slot (R62). -/
theorem checksFrom8_room {p : Nat} {r : Request} {e : CodeEntry} {x : Passed} (h : s.checksFrom8 p r e = .ok x)
    (hc : goesToCentre e = true) (ho : x.override = false) : s.hasRoom = true := by
  unfold checksFrom8 at h
  split at h
  · cases h
  · dsimp only at h
    split at h
    · cases h
    · split at h
      · cases h
      · split at h
        · cases h
        · split at h
          · cases h
          · split at h
            · cases h
            · next hs =>
              cases h
              dsimp only at ho
              have h17 := firstFailure_none hs (goesToCentre e && !(s.needsOverride p e (s.equivOf e.cls r)) &&
                !s.hasRoom, .linkBusy) (by simp [spaceChecks])
              simpa [hc, ho] using h17

/-- A request that passes acceptance, at a position without a waiting entry and with the slot it needs (R64, R65). -/
theorem carryThrough_within (p : Nat) (r : Request) (e : CodeEntry) (x : Passed) (hpos : s.waitingAt p = none)
    (hroom : goesToCentre e = true → x.override = false → s.hasRoom = true) :
    Within [.drawers, .booksKept, .port, .counters, .screens, .journal, .records, .line, .printers, .store, .sessions,
      .day, .dayState, .entries, .entriesKept, .tagCounter, .overrides] s (s.carryThrough p r e x) := by
  unfold carryThrough
  dsimp only
  have h1 : ∀ f : Tables → Screen → Screen, Within [.drawers, .screens, .journal] s
      (((s.reserveItems x.items).takeClaim x.claim).onScreen p f) := fun f =>
    (onScreen_within _ _ _).after ((takeClaim_within _ _).after ((reserveItems_within s _).mono))
  split
  · next hc =>
    refine (createEntry_within _ _ _ _ ?_ ?_).after ((h1 _).mono)
    · intro ho
      rw [hasRoom_congr s (h1 _ .port (by decide))]
      refine hroom ?_ ho
      simpa [ho] using hc
    · unfold waitingAt
      rw [findEntry_congr s (h1 _ .entries (by decide))]
      exact hpos
  · exact (testCompletion_within _).after ((post_within _ _ _ _).after ((h1 _).mono))

theorem takeRequest_within (p : Nat) (r : Request) :
    Within [.drawers, .booksKept, .port, .counters, .screens, .journal, .records, .line, .printers, .store, .sessions,
      .day, .dayState, .entries, .entriesKept, .tagCounter, .overrides] s (s.takeRequest p r) := by
  unfold takeRequest
  dsimp only
  split
  · exact (refuse_within _ _ _ _).after ((copyRole_within s p).mono)
  · next hsess =>
    have hpos : (s.copyRole p).waitingAt p = none := by
      have := firstFailure_none hsess (((s.copyRole p).waitingAt p).isSome, .busy) (by simp [sessionChecks])
      simpa using this
    split
    · exact (refuse_within _ _ _ _).after ((copyRole_within s p).mono)
    · split
      · exact (refuse_within _ _ _ _).after ((copyRole_within s p).mono)
      · split
        · exact (refuse_within _ _ _ _).after ((copyRole_within s p).mono)
        · next hx =>
          exact (carryThrough_within _ _ _ _ _ hpos (checksFrom8_room _ hx)).after ((copyRole_within s p).mono)

end Sys2Proof.Machine.State
end

