-- ==== Sys2Proof/Laws/FramesLine.lean ====
section
/-! SUPPORT. What the station line engine can change. -/

set_option Elab.async false

namespace Sys2Proof.Machine.State

variable (s : State)

/-! ### The engine's own state -/

/-- A change of the engine's own state that leaves the position records and the grant count. -/
theorem withLine_control {x : Line} (hr : x.recs = s.line.recs := by rfl)
    (hg : x.grantCount = s.line.grantCount := by rfl) : Within [.line, .lineRest] s (s.withLine x) := by
  refine (((withLine_within s x).mono (m := [.unitsBounded, .grantBounded, .line, .lineRest])).restore .unitsBounded
    ?_).restore .grantBounded ?_
  · intro h p u
    rw [unit_congr (s := s) hr]
    exact h p u
  · intro h
    show x.grantCount < 8
    rw [hg]
    exact h

theorem await_within (e : Engine) : Within [.line, .lineRest] s (s.await e) := withLine_control s

theorem idle_within : Within [.line, .lineRest] s s.idle := withLine_control s

theorem endTransfer_within : Within [.line, .lineRest] s s.endTransfer := (idle_within _).after (sendLine_within s _)

/-! ### Loss and return of units -/

theorem returnMessage_within (p u : Nat) (m : OutMsg) :
    Within [.line, .printers, .screens] s (s.returnMessage p u m) := by
  unfold returnMessage
  split
  · exact (screenReturned_within s p m).mono
  · exact printerMessageReturned_within s p m
  · exact (showNotReleased_within s _).mono

theorem tellAbsent_within (p u : Nat) : Within [.line, .printers, .screens, .store, .drawers] s (s.tellAbsent p u) := by
  unfold tellAbsent
  split
  · exact Within.refl _ s
  · exact (printerAbsent_within s p).mono
  · exact (drawerUnitAbsent_within s p).mono

theorem unitAbsent_within (p u : Nat) : Within [.line, .printers, .screens, .store, .drawers] s (s.unitAbsent p u) := by
  unfold unitAbsent
  dsimp only
  refine (tellAbsent_within _ p u).after (Within.after (k := [.line, .printers, .screens])
    (Within.fold _ (fun t (q : Queued) => returnMessage_within t p u q.msg) _ _) (Within.mono (setUnit_bounded s ?_)))
  intro _
  simp

theorem returnAction_within (p u : Nat) : Within [.line, .printers, .screens] s (s.returnAction p u) := by
  unfold returnAction
  split
  · exact (onScreen_within s p _).mono
  · exact printerReturned_within s p
  · exact (drawerUnitReturned_within s p).mono

theorem unitReturns_within (p u : Nat) (b : Bool) : Within [.line, .printers, .screens] s (s.unitReturns p u b) := by
  refine (returnAction_within _ p u).after (Within.mono (setUnit_bounded s ?_))
  intro _
  simp

/-! ### Roll call -/

theorem endRollCall_within : Within [.line, .lineRest] s s.endRollCall := (idle_within _).after (withLine_control s)

theorem openSlot_within (l : List Nat) : Within [.line, .lineRest] s (s.openSlot l) := by
  unfold openSlot
  split
  · exact endRollCall_within s
  · exact await_within s _

theorem dropUnpolled_within : Within [.line, .printers, .screens, .store, .drawers] s s.dropUnpolled := by
  refine Within.fold _ (fun t p => Within.fold _ (fun t u => ?_) _ _) _ s
  split
  · exact unitAbsent_within t p u
  · exact Within.refl _ t

theorem beginRollCall_within : Within [.line, .lineRest, .printers, .screens, .store, .drawers] s s.beginRollCall := by
  unfold beginRollCall
  dsimp only
  exact (openSlot_within _ _).after ((sendLine_within _ _).after ((dropUnpolled_within _).after
    (Within.mono (withLine_control s))))

theorem unitAnswered_within (p u : Nat) (r a : Bool) :
    Within [.line, .printers, .screens, .store, .drawers] s (s.unitAnswered p u r a) := by
  unfold unitAnswered
  split
  · exact Within.mono (setUnit_bounded s id)
  · exact unitAbsent_within s p u
  · exact (unitReturns_within s p u a).mono
  · exact Within.mono (setUnit_bounded s id)

theorem slotAnswered_within (p m n : Nat) :
    Within [.line, .printers, .screens, .store, .drawers] s (s.slotAnswered p m n) := by
  unfold slotAnswered
  dsimp only
  refine Within.after (k := [.line, .printers, .screens, .store, .drawers]) ?_ ((setPosRec_missed s p 0).mono)
  generalize s.setPosRec p { s.posRec p with missed := 0 } = t
  exact Within.fold _ (fun t u => unitAnswered_within t p u _ _) _ t

theorem unitMissed_within (p u : Nat) : Within [.line, .printers, .screens, .store, .drawers] s (s.unitMissed p u) := by
  unfold unitMissed
  split
  · exact unitAbsent_within s p u
  · exact Within.mono (setUnit_bounded s id)

theorem slotMissed_within (p : Nat) :
    Within [.line, .printers, .screens, .store, .drawers, .counters, .port] s (s.slotMissed p) := by
  unfold slotMissed
  dsimp only
  have h1 : Within [.line, .printers, .screens, .store, .drawers, .counters, .port] s
      (allUnits.foldl (fun t u => t.setUnit p u { t.unit p u with attention := false })
        (s.setPosRec p { s.posRec p with missed := min 3 ((s.posRec p).missed + 1) })) :=
    Within.after (k := [.line]) (Within.fold _ (fun t u => setUnit_bounded t (p := p) (u := u)
      (x := { t.unit p u with attention := false }) id) _ _) ((setPosRec_missed s p _).mono)
  have h2 : Within [.line, .printers, .screens, .store, .drawers, .counters, .port] s
      (allUnits.foldl (fun t u => t.unitMissed p u)
        (allUnits.foldl (fun t u => t.setUnit p u { t.unit p u with attention := false })
          (s.setPosRec p { s.posRec p with missed := min 3 ((s.posRec p).missed + 1) }))) :=
    Within.after (k := [.line, .printers, .screens, .store, .drawers])
      (Within.fold _ (fun t u => unitMissed_within t p u) _ _) h1
  split
  · split
    · exact (alarm_within _ _ _).after ((countUnitLost_within _).after h2)
    · exact h2
  · exact h1

/-! ### Transfers -/

theorem sendHead_within (x : Transfer) : Within [.line, .lineRest] s (s.sendHead x) := by
  unfold sendHead
  split
  · exact idle_within s
  · exact (await_within _ _).after ((sendLine_within _ _).after (sendLine_within s _))

theorem sendSelect_within (x : Transfer) : Within [.line, .lineRest] s (s.sendSelect x) :=
  (await_within _ _).after (sendLine_within s _)

theorem loseUnit_within (x : Transfer) :
    Within [.line, .lineRest, .printers, .screens, .store, .drawers] s (s.loseUnit x) :=
  (endTransfer_within _).after ((unitAbsent_within s _ _).mono)

theorem failOutbound_within (x : Transfer) :
    Within [.line, .lineRest, .printers, .screens, .store, .drawers, .counters] s (s.failOutbound x) := by
  unfold failOutbound
  split
  · exact (sendHead_within _ _).after ((countLineRetry_within s).mono)
  · exact (loseUnit_within s x).mono

theorem failInbound_within (x : Transfer) :
    Within [.line, .lineRest, .printers, .screens, .store, .drawers, .counters] s (s.failInbound x) := by
  unfold failInbound
  split
  · exact (sendSelect_within _ _).after ((countLineRetry_within s).mono)
  · exact (loseUnit_within s x).mono

theorem tellDelivered_within (p u : Nat) (m : OutMsg) : Within [.printers, .drawers] s (s.tellDelivered p u m) := by
  unfold tellDelivered
  split
  · exact Within.refl _ s
  · exact (printerDelivered_within s p m).mono
  · exact (releaseDelivered_within s p).mono

theorem deliverHead_within (x : Transfer) :
    Within [.line, .lineRest, .printers, .drawers] s (s.deliverHead x) := by
  unfold deliverHead
  split
  · exact (endTransfer_within s).mono
  · next q rest h =>
    refine (endTransfer_within _).after ((tellDelivered_within _ _ _ _).after (Within.mono (setUnit_bounded s ?_)))
    intro hl
    rw [h] at hl
    simp at hl
    show rest.length ≤ 4
    omega

/-! ### Owners of inbound messages -/

/-- Everything a message from a unit can reach (R40). -/
theorem deliver_within (p : Nat) (m : InMsg) :
    Within [.drawers, .booksKept, .port, .counters, .screens, .journal, .records, .line, .printers, .store, .sessions,
      .day, .dayState, .entries, .entriesKept, .tagCounter, .overrides] s (s.deliver p m) := by
  unfold deliver
  split
  · exact (takeSignOn_within s _ _).mono
  · exact (takeSignOff_within s _).mono
  · exact (takeSuspend_within s _).mono
  · exact (takeResume_within s _ _).mono
  · exact takeRequest_within s _ _
  · exact (takeCancel_within s _).mono
  · exact (takeOverride_within s _ _ _).mono
  · exact (takeCount_within s _ _ _).mono
  · exact (takeReopen_within s _ _).mono
  · exact (takeAcceptDiff_within s _ _ _).mono
  · exact (takeFormMessage_within s _ _).mono
  · exact (takeClose_within s _).mono
  · exact (takeBookIn_within s _ _ _ _ _).mono
  · exact (takeBookOut_within s _).mono
  · exact (takeReady_within s _).mono
  · exact (takeLineDone_within s _).mono
  · exact (takeJam_within s _).mono
  · exact (takeJamCleared_within s _).mono
  · exact (takeTurned_within s _).mono
  · exact (takeOpened_within s _).mono
  · exact (takeClosed_within s _).mono
  · exact (takeFault_within s _).mono
  · exact (countLineBadMessage_within s).mono

/-! ### The survey -/

theorem startSurvey_within (m : SurveyMode) : Within [.survey] s (s.startSurvey m) := withSurvey_within s _

theorem stopSurvey_within : Within [.survey, .line, .lineRest] s s.stopSurvey := by
  unfold stopSurvey
  split
  · dsimp only
    split
    · exact Within.after (k := [.line, .lineRest]) (withLine_control _) ((withSurvey_within s _).mono)
    · exact (withSurvey_within s _).mono
  · exact Within.refl _ s

theorem sendProbe_within : Within [.survey, .line, .lineRest] s s.sendProbe := by
  unfold sendProbe
  split
  · exact (await_within _ _).after ((sendLine_within _ _).after ((withSurvey_within s _).mono))
  · exact (await_within _ _).after ((sendLine_within _ _).after ((withSurvey_within s _).mono))
  · exact Within.refl _ s

theorem surveyPositionDone_within (p : Nat) : Within [.survey] s (s.surveyPositionDone p) := withSurvey_within s _

theorem endProbe_within (p : Nat) (d : Bool) (t : Option Nat) (f : SurveyMarks → SurveyMarks) :
    Within [.survey, .line, .lineRest] s (s.endProbe p d t f) := by
  unfold endProbe
  dsimp only
  split
  · exact (idle_within s).mono
  · split
    · exact (surveyPositionDone_within _ p).after ((withSurvey_within _ _).after ((idle_within s).mono))
    · exact (withSurvey_within _ _).after ((idle_within s).mono)

/-! ### The arbiter -/

theorem serveOutbound_within (p u : Nat) (c : LineClass) :
    Within [.screens, .line, .lineRest] s (s.serveOutbound p u c) := by
  unfold serveOutbound
  split
  · have h := buildMessage_within s p (c == .urgent)
    split
    · next e =>
      rw [e] at h
      refine (sendHead_within _ _).after (Within.after (k := [.line]) (setUnit_bounded _ ?_) (h.mono))
      intro _
      simp
    · next e =>
      rw [e] at h
      exact h.mono
  · exact (sendHead_within s _).mono

theorem serve_within (c : LineClass) :
    Within [.screens, .line, .lineRest, .printers, .store, .drawers, .survey] s (s.serve c) := by
  unfold serve
  split
  · exact (serveOutbound_within _ _ _ _).after (Within.mono (withLine_control s))
  · exact (beginRollCall_within s).mono
  · exact (sendSelect_within _ _).after (Within.mono (withLine_control s))
  · exact (serveOutbound_within _ _ _ _).after (Within.mono (withLine_control s))
  · exact (serveOutbound_within _ _ _ _).after (Within.mono (withLine_control s))
  · exact (sendProbe_within s).mono

/-- The grant count runs from 0 to 7 (R42). -/
theorem grant_within : Within [.screens, .line, .lineRest, .printers, .store, .drawers, .survey] s s.grant := by
  unfold grant
  split
  · split
    · exact Within.refl _ s
    · refine (serve_within _ _).after (Within.mono (k := [.line, .lineRest]) ?_)
      refine (((withLine_within s { s.line with grantCount := (s.line.grantCount + 1) % 8 }).mono
        (m := [.unitsBounded, .grantBounded, .line, .lineRest])).restore .unitsBounded ?_).restore .grantBounded ?_
      · exact id
      · intro _
        exact Nat.mod_lt _ (by decide)
  · exact Within.refl _ s

/-! ### Frames received -/

theorem discardFrame_within (f : RxFrame) : Within [.counters] s (s.discardFrame f) := by
  unfold discardFrame
  split
  · exact countLineBadFrame_within s
  · exact Within.refl _ s

theorem receiveSlot_within (l : List Nat) (f : RxFrame) :
    Within [.line, .lineRest, .printers, .screens, .store, .drawers, .counters] s (s.receiveSlot l f) := by
  unfold receiveSlot
  split
  · split
    · exact (openSlot_within _ _).after ((slotAnswered_within s _ _ _).mono)
    · exact (countLineBadFrame_within s).mono
  · exact (discardFrame_within s f).mono

theorem receiveReply_within (x : Transfer) (f : RxFrame) :
    Within [.line, .lineRest, .printers, .screens, .store, .drawers, .counters] s (s.receiveReply x f) := by
  unfold receiveReply
  split
  · split
    · split
      · exact (deliverHead_within s x).mono
      · exact failOutbound_within s x
      · exact (endTransfer_within s).mono
    · exact (countLineBadFrame_within s).mono
  · exact (discardFrame_within s f).mono

theorem rejectInbound_within (x : Transfer) (n : Option Nat) :
    Within [.line, .lineRest, .counters, .freeDraws] s (s.rejectInbound x n) := by
  unfold rejectInbound
  split
  · exact (endTransfer_within _).after ((countLineBadFrame_within _).after ((sendLine_within s _).mono))
  · exact (endTransfer_within _).after ((countLineBadFrame_within _).after ((sendLine_within _ _).after
      ((drawFree_within s).mono)))

theorem acceptInbound_within (x : Transfer) (n : Nat) (m : InMsg) :
    Within [.drawers, .booksKept, .port, .counters, .screens, .journal, .records, .line, .lineRest, .printers, .store,
      .sessions, .day, .dayState, .entries, .entriesKept, .tagCounter, .overrides] s (s.acceptInbound x n m) := by
  unfold acceptInbound
  dsimp only
  split
  · exact (endTransfer_within _).after (Within.after (k := [.line]) (setUnit_bounded _ id) ((sendLine_within s _).mono))
  · exact (deliver_within _ _ _).after ((endTransfer_within _).after
      (Within.after (k := [.line]) (setUnit_bounded _ id) ((sendLine_within s _).mono)))

theorem receiveInbound_within (x : Transfer) (f : RxFrame) :
    Within [.drawers, .booksKept, .port, .counters, .screens, .journal, .records, .line, .lineRest, .printers, .store,
      .sessions, .day, .dayState, .entries, .entriesKept, .tagCounter, .overrides, .freeDraws] s
      (s.receiveInbound x f) := by
  unfold receiveInbound
  split
  · split
    · exact (acceptInbound_within s x _ _).mono
    · exact (rejectInbound_within s x _).mono
  · split
    · exact (endTransfer_within s).mono
    · exact (rejectInbound_within s x _).mono
  · exact (rejectInbound_within s x _).mono

theorem receiveProbe_within (p : Nat) (k : ProbeKind) (d : Bool) (f : RxFrame) :
    Within [.survey, .line, .lineRest] s (s.receiveProbe p k d f) := endProbe_within s _ _ _ _

/-- Everything a frame of the station line can reach. -/
theorem receive_within (f : RxFrame) :
    Within [.drawers, .booksKept, .port, .counters, .screens, .journal, .records, .line, .lineRest, .printers, .store,
      .sessions, .day, .dayState, .entries, .entriesKept, .tagCounter, .overrides, .freeDraws, .survey] s
      (s.receive f) := by
  unfold receive
  split
  · exact Within.refl _ s
  · dsimp only
    have h : Within [.line, .lineRest] s
        (if f = .badForm then s.withLine { s.line with discarding := true } else s) := by
      split
      · exact withLine_control s
      · exact Within.refl _ s
    generalize (if f = .badForm then s.withLine { s.line with discarding := true } else s) = t at h ⊢
    split
    · exact (discardFrame_within _ _).after (h.mono)
    · exact (discardFrame_within _ _).after (h.mono)
    · exact (receiveSlot_within _ _ _).after (h.mono)
    · exact (receiveInbound_within _ _ _).after (h.mono)
    · exact (receiveReply_within _ _ _).after (h.mono)
    · exact (receiveProbe_within _ _ _ _ _).after (h.mono)

theorem receiveBytes_within (bs : List Byte) :
    Within [.drawers, .booksKept, .port, .counters, .screens, .journal, .records, .line, .lineRest, .printers, .store,
      .sessions, .day, .dayState, .entries, .entriesKept, .tagCounter, .overrides, .freeDraws, .survey] s
      (s.receiveBytes bs) := by
  unfold receiveBytes
  split
  · exact receive_within s _
  · exact Within.refl _ s

theorem fallSilent_within : Within [.line, .lineRest] s s.fallSilent := withLine_control s

theorem replyWaitExpires_within :
    Within [.line, .lineRest, .printers, .screens, .store, .drawers, .counters, .port, .survey] s
      s.replyWaitExpires := by
  unfold replyWaitExpires
  split
  · exact Within.refl _ s
  · split
    · exact (openSlot_within _ _).after ((slotMissed_within s _).mono)
    · exact (failInbound_within s _).mono
    · exact (failOutbound_within s _).mono
    · exact (endProbe_within s _ _ _ _).mono
    · exact (idle_within s).mono

theorem rollTimerExpires_within : Within [.line, .lineRest] s s.rollTimerExpires := by
  unfold rollTimerExpires
  split
  · exact withLine_control s
  · exact Within.refl _ s

theorem queueRoom_within (p u : Nat) : Within [.line, .printers, .screens, .store] s (s.queueRoom p u) := by
  unfold queueRoom
  split
  · exact printerRoom_within s p
  · exact Within.refl _ s

end Sys2Proof.Machine.State
end

