-- ==== Sys2Proof/Laws/FramesCentre.lean ====
section
/-! SUPPORT. What the management decoder, the two starts, the office link port and a tick can change. -/

set_option Elab.async false

namespace Sys2Proof.Machine.State

variable (s : State)

/-! ### The table store -/

theorem refreshForms_within (f : Nat → Bool) : Within [.screens] s (s.refreshForms f) :=
  Within.fold _ (fun t p => onScreen_within t p (fun tb sc => sc.refresh tb)) _ s

theorem positionWritten_within (old : Tables) (i : Nat) : Within [.drawers, .screens] s (s.positionWritten old i) := by
  unfold positionWritten
  dsimp only
  have h : Within [.drawers, .screens] s (if old.serving i = s.tables.serving i then s else s.servingChanged i) := by
    split
    · exact Within.refl _ s
    · exact servingChanged_within s i
  generalize (if old.serving i = s.tables.serving i then s else s.servingChanged i) = t at h ⊢
  split
  · exact h
  · exact (touch_within _ _ _).after ((reevaluate_within _ _).after h)

theorem afterWrite_within (old : Tables) (i : Nat) (e : TableEntry) :
    Within [.drawers, .screens, .sessions] s (s.afterWrite old i e) := by
  unfold afterWrite
  split
  · exact (refreshForms_within s _).mono
  · exact (refreshForms_within s _).mono
  · exact (touch_within s _ _).mono
  · exact (touch_within s _ _).mono
  · exact (onScreens_within s _ _).mono
  · exact (positionWritten_within s _ _).mono
  · exact Within.mono (k := [.sessions, .screens]) (Within.fold _ (fun t p => copyRole_within t p) _ s)
  · exact Within.refl _ s

theorem storeEntry_within (i : Nat) (e : TableEntry) :
    Within [.tables, .drawers, .screens, .sessions] s (s.storeEntry i e) :=
  (afterWrite_within _ _ _ _).after ((withTables_within s _).mono)

theorem writeChecked_within (x : Section) (i : Nat) (bs : List Byte) :
    Within [.tables, .drawers, .screens, .sessions] s (s.writeChecked x i bs).1 := by
  unfold writeChecked
  split
  · exact Within.refl _ s
  · split
    · exact Within.refl _ s
    · split
      · exact Within.refl _ s
      · split
        · exact Within.refl _ s
        · exact storeEntry_within s i _

theorem writeSection_within (x : Section) (i : Nat) (b : Bool) (bs : List Byte) :
    Within [.tables, .drawers, .screens, .sessions] s (s.writeSection x i b bs).1 := by
  unfold writeSection
  split
  · exact Within.refl _ s
  · split
    · exact Within.refl _ s
    · split
      · exact Within.refl _ s
      · split
        · exact Within.refl _ s
        · exact writeChecked_within s x i bs

theorem tableWrite_within (bs : List Byte) : Within [.tables, .drawers, .screens, .sessions] s (s.tableWrite bs).1 := by
  unfold tableWrite
  split
  · exact Within.refl _ s
  · split
    · exact Within.refl _ s
    · split
      · exact Within.refl _ s
      · exact writeSection_within s _ _ _ _

/-! ### The lock and the day requests -/

theorem goLive_within : Within [.screens] s s.goLive := Within.fold _ (fun t p => takeDefaultForm_within t p) _ s

/-- The lock level rises at a LOCK, to 1 or 2 (R18, R19). -/
theorem withLock_rises {n : Nat} (h : s.lock ≤ n) (h2 : n ≤ 2) : Within [.lock] s (s.withLock n) :=
  (((withLock_within s n).mono (m := [.lockRises, .lockBounded, .lock])).restore .lockRises h).restore .lockBounded
    fun _ => h2

theorem takeLock_within (n : Nat) : Within [.lock, .screens] s (s.takeLock n).1 := by
  unfold takeLock
  split
  · exact Within.refl _ s
  · next h =>
    have hn : n = 1 ∨ n = 2 := by omega
    split
    · next h0 =>
      split
      · exact Within.refl _ s
      · exact (goLive_within _).after (Within.mono (withLock_rises s (by omega) (by omega)))
    · split
      · exact Within.mono (withLock_rises s (by omega) (by omega))
      · exact Within.refl _ s

theorem mgmtOpenDay_within (bs : List Byte) :
    Within [.day, .dayState, .journal, .records, .journalGrows, .port, .counters, .drawers, .screens] s
      (s.mgmtOpenDay bs).1 := by
  unfold mgmtOpenDay
  split
  · exact Within.refl _ s
  · split
    · exact Within.refl _ s
    · have h := openDay_within s bs
      generalize s.openDay bs = t at h ⊢
      exact h

theorem mgmtCutoff_within :
    Within [.sessions, .screens, .journal, .records, .port, .counters, .day, .dayState, .drawers] s s.mgmtCutoff.1 := by
  unfold mgmtCutoff
  split
  · next h => exact takeCutoff_within s _ _ h
  · exact Within.refl _ s

theorem mgmtReopenDay_within :
    Within [.journal, .records, .port, .counters, .day, .dayState, .screens] s s.mgmtReopenDay.1 := by
  unfold mgmtReopenDay
  split
  · next h => exact takeReopenDay_within s h.1
  · exact Within.refl _ s

theorem mgmtResumeBatch_within : Within [.day, .dayState, .port, .counters, .screens] s s.mgmtResumeBatch.1 := by
  unfold mgmtResumeBatch
  split
  · exact resumeBatch_within s
  · exact Within.refl _ s

theorem readCounters_within (b : Bool) : Within [.counters] s (s.readCounters b).1 := by
  unfold readCounters
  dsimp only
  split
  · exact withCounters_bounded s fun _ => by simp [Counters.Bounded, Counters.zero]
  · exact Within.refl _ s

theorem mgmtStartSurvey_within (n : Nat) : Within [.survey] s (s.mgmtStartSurvey n).1 := by
  unfold mgmtStartSurvey
  split
  · exact Within.refl _ s
  · split
    · exact Within.refl _ s
    · exact startSurvey_within s _

/-- A management reply (R4, R6, R7). -/
theorem reply_within (c : Byte) (tag : Nat) (v : Verdict) : Within [.port, .portRest, .counters] s (s.reply c tag v) := by
  unfold reply
  split
  · next h =>
    refine Within.after (k := [.port, .portRest]) ?_ ((enqueue_room s (f := .reply (s.replyOf c tag v)) h).mono)
    intro a ha
    have r := a.refl (s.enqueue (.reply (s.replyOf c tag v)))
    cases a <;> first | exact absurd (by decide) ha | exact r
  · exact (countNoticeLost_within s).mono

theorem answerRead_within (c : Byte) (tag n : Nat) (bs : List Byte) (v : Verdict) :
    Within [.port, .portRest, .counters] s (s.answerRead c tag n bs v) := reply_within s _ _ _

/-- A management request that may change the part: what its effect may break, and its reply. -/
theorem answerDo_within {m : List Aspect} (c : Byte) (tag n : Nat) (bs : List Byte) (f : State × Verdict)
    (h : Within m s f.1) (hc : covers m [.port, .portRest, .counters] = true := by decide) :
    Within m s (s.answerDo c tag n bs f) := by
  unfold answerDo
  split
  · exact (reply_within _ _ _ _).after h hc
  · exact (reply_within s _ _ _).mono hc

/-! ### The two starts -/

/-- A cold start keeps what is no state of the part; it meets every invariant of the part (R22). -/
theorem coldStart_within (n : Nat) (b : Bool) :
    Within [.port, .portRest, .queueGrows, .counters, .lock, .lockRises, .tables, .line, .lineRest, .survey, .sessions,
      .entries, .tagCounter, .overrides, .drawers, .booksKept, .screens, .printers, .store, .journal, .records,
      .journalGrows, .day, .dayState] s (s.coldStart n b) := by
  intro a h
  cases a <;> first | exact absurd (by decide) h | rfl | skip
  · exact fun _ => Nat.zero_le _
  · intro _ p u
    have hu : (s.coldStart n b).unit p u = UnitRec.start := by
      show rd (rd1 (Vector.replicate 24 PosRec.start) p PosRec.start).units u UnitRec.start = UnitRec.start
      rw [rd1_replicate]
      exact rd_replicate _ _
    rw [hu]
    exact Nat.zero_le _
  · exact fun _ => by simp [coldStart, State.reset, Counters.Bounded, Counters.zero]
  · exact fun _ => Nat.zero_le _
  · exact fun _ => by simp [coldStart, State.reset, Line.start]
  · exact fun _ => Nat.zero_le _
  · exact fun _ => Nat.zero_le _
  · intro _ i r hr
    simp [coldStart, State.reset, Journal.empty] at hr
  · exact fun _ => Day.windowSound_zero rfl rfl rfl
  · intro i f hf
    have : (s.coldStart n b).entry i = none := rd_replicate _ _
    rw [this] at hf
    cases hf
  · intro _
    have he : ∀ i, rd (s.coldStart n b).entries i none = (none : Option Entry) := fun i => rd_replicate _ _
    refine ⟨?_, ?_, ?_⟩
    · intro i e hi
      rw [he] at hi
      cases hi
    · intro i j e f hi
      rw [he] at hi
      cases hi
    · intro i j e f hi
      rw [he] at hi
      cases hi

theorem warmUnits_within (n : Nat) (b : Bool) :
    Within [.port, .portRest, .queueGrows, .counters, .lock, .lockRises, .line, .lineRest, .survey, .sessions,
      .overrides, .printers, .store] s (s.warmUnits n b) := by
  intro a h
  have r := a.refl s
  cases a <;> first | exact absurd (by decide) h | exact r | skip
  · exact fun _ => Nat.zero_le _
  · intro _ p u
    have hu : (s.warmUnits n b).unit p u = UnitRec.start := by
      show rd (rd1 (Vector.replicate 24 PosRec.start) p PosRec.start).units u UnitRec.start = UnitRec.start
      rw [rd1_replicate]
      exact rd_replicate _ _
    rw [hu]
    exact Nat.zero_le _
  · exact fun _ => by simp [warmUnits, Counters.Bounded, Counters.zero]
  · intro h2
    show min s.lock 1 ≤ 2
    omega
  · exact fun _ => by simp [warmUnits, Line.start]

theorem warmDrawers_within : Within [.drawers] s s.warmDrawers :=
  Within.fold _ (fun t d => setDrawer_sameBook t (d := d) (x := { t.drawer d with
    physical := if t.tables.serving d then .unknown else .closed, openAlarm := none }) rfl) _ s

theorem restartRecord_within : Within [.journal, .records] s s.restartRecord := by
  unfold restartRecord
  split
  · exact writeRecord_within s _
  · exact Within.refl _ s

theorem warmReverse_within {i : Nat} {e : Entry} (he : s.entry i = some e) :
    Within [.drawers, .screens, .journal, .records, .entries] s (s.warmReverse i e) := by
  have h1 : Within [.drawers, .screens, .journal, .records] s
      (((s.releaseItems e.req.items).releaseClaim 1).writeRecord (e.expiredBody .restart)) :=
    (writeRecord_within _ _).after ((releaseClaim_within _ _).after ((releaseItems_within s _).mono))
  have he' : (((s.releaseItems e.req.items).releaseClaim 1).writeRecord (e.expiredBody .restart)).entry i = some e := by
    rw [entry_congr (h1 .entries (by decide)), he]
  exact Within.after (setEntry_kept _ he' rfl rfl (by simp [Entry.waits, Entry.reversing])) (h1.mono)

theorem warmEntry_within (i : Nat) :
    Within [.drawers, .screens, .journal, .records, .entries] s (s.warmEntry i) := by
  unfold warmEntry
  split
  · exact Within.refl _ s
  · next h =>
    split
    · exact Within.refl _ s
    · split
      · exact (freeEntry_within _ i).after ((releaseClaim_within s _).mono)
      · exact warmReverse_within s h
    · exact (freeEntry_within _ i).after ((releaseClaim_within _ _).after ((releaseItems_within s _).mono))

theorem warmEntries_within :
    Within [.drawers, .screens, .journal, .records, .port, .entries] s s.warmEntries :=
  Within.after (k := [.port, .entries]) (Within.fold _ (fun t i => offerReversal_within t i) _ _)
    ((Within.fold _ (fun t i => warmEntry_within t i) _ s).mono)

theorem warmScreens_within : Within [.screens] s s.warmScreens :=
  Within.fold _ (fun t p => setScreen_within t p _) _ s

theorem warmDay_within : Within [.day, .dayState, .port, .counters] s s.warmDay := by
  unfold warmDay
  dsimp only
  have h1 : Within [.day] s (s.withDay { s.day with expiries := 0, ackTimer := none }) :=
    withDay_keeps s fun h => ⟨h.ackedSent, h.sentHighest, h.highestTotal, h.window, h.unsettled⟩
  split
  · refine (alarm_within _ _ _).after (Within.after (k := [.day, .dayState]) ?_ (h1.mono))
    generalize s.withDay { s.day with expiries := 0, ackTimer := none } = t
    refine (((withDay_within t { t.day with state := .held, sent := t.day.acked }).mono
      (m := [.clockBounded, .windowSound, .day, .dayState])).restore .clockBounded id).restore .windowSound ?_
    intro h
    refine ⟨Nat.le_refl _, Nat.le_trans h.ackedSent h.sentHighest, h.highestTotal, h.window, ?_⟩
    intro hx
    have hx' : DayState.held = .noDay ∨ DayState.held = .opened ∨ DayState.held = .cutoff := hx
    simp at hx'
  · exact h1.mono

theorem warmCompletion_within :
    Within [.journal, .records, .port, .counters, .day, .dayState, .drawers, .screens] s s.warmCompletion := by
  unfold warmCompletion
  split
  · next h =>
    have hc := clearReleases_within s
    have hw : Within [.drawers, .journal, .records] s
        (s.clearReleases.writeRecord s.clearReleases.settlementBody) :=
      (writeRecord_within _ _).after (hc.mono)
    have hd := (hw .dayState (by decide)).trans h.1
    have hj : Within [.drawers, .journal, .records, .day] s
        (s.clearReleases.closeJournal (s.clearReleases.writeRecord s.clearReleases.settlementBody)) :=
      Within.after (k := [.journal, .day]) (closeJournal_within _ hd) (hw.mono)
    exact (startSending_within _ ((hj .dayState (by decide)).trans h.1)).after (hj.mono)
  · exact Within.refl _ s

/-- A warm start (R21): the tables, the tag counter, the book counts and the records are kept (R22, R88, R113, R183). -/
theorem warmStart_within (n : Nat) (b : Bool) :
    Within [.port, .portRest, .queueGrows, .counters, .lock, .lockRises, .line, .lineRest, .survey, .sessions, .entries,
      .overrides, .drawers, .screens, .printers, .store, .journal, .records, .day, .dayState] s (s.warmStart n b) :=
  (warmCompletion_within _).after ((warmScreens_within _).after ((warmDay_within _).after ((warmEntries_within _).after
    ((restartRecord_within _).after ((warmDrawers_within _).after ((warmUnits_within s n b).mono))))))

/-- What any start can change. -/
theorem start_within {t : State} (h : (∃ n b, t = s.coldStart n b) ∨ ∃ n b, t = s.warmStart n b) :
    Within [.port, .portRest, .queueGrows, .counters, .lock, .lockRises, .tables, .line, .lineRest, .survey, .sessions,
      .entries, .tagCounter, .overrides, .drawers, .booksKept, .screens, .printers, .store, .journal, .records,
      .journalGrows, .day, .dayState] s t := by
  obtain ⟨n, b, h⟩ | ⟨n, b, h⟩ := h
  · have k := coldStart_within s n b
    rw [← h] at k
    exact k
  · have k := warmStart_within s n b
    rw [← h] at k
    exact k.mono

theorem powerOn_within (n : Nat) (b : Bool) :
    Within [.port, .portRest, .queueGrows, .counters, .lock, .lockRises, .tables, .line, .lineRest, .survey, .sessions,
      .entries, .tagCounter, .overrides, .drawers, .booksKept, .screens, .printers, .store, .journal, .records,
      .journalGrows, .day, .dayState] s (s.powerOn n b) := by
  unfold powerOn
  split
  · exact start_within s (.inr ⟨n, b, rfl⟩)
  · exact start_within s (.inl ⟨n, b, rfl⟩)

theorem restart_within (tag : Nat) (bs : List Byte) (n : Nat) :
    Within [.port, .portRest, .queueGrows, .counters, .lock, .lockRises, .tables, .line, .lineRest, .survey, .sessions,
      .entries, .tagCounter, .overrides, .drawers, .booksKept, .screens, .printers, .store, .journal, .records,
      .journalGrows, .day, .dayState] s (s.restart tag bs n) := by
  unfold restart
  split
  · exact start_within s (.inl ⟨_, _, rfl⟩)
  · split
    · exact start_within s (.inr ⟨_, _, rfl⟩)
    · exact (reply_within s _ _ _).mono

/-! ### The office link port -/

theorem mgmtTableWrite_within (tag : Nat) (bs : List Byte) :
    Within [.tables, .drawers, .screens, .sessions, .port, .portRest, .counters] s (s.mgmtTableWrite tag bs) :=
  (reply_within _ _ _ _).after ((tableWrite_within s bs).mono)

theorem mgmtLock_within (tag : Nat) (bs : List Byte) :
    Within [.lock, .screens, .port, .portRest, .counters] s (s.mgmtLock tag bs) :=
  answerDo_within s _ _ _ _ _ ((takeLock_within s _).mono)

theorem mgmtOpen_within (tag : Nat) (bs : List Byte) :
    Within [.day, .dayState, .journal, .records, .journalGrows, .port, .portRest, .counters, .drawers, .screens] s
      (s.mgmtOpen tag bs) := answerDo_within s _ _ _ _ _ ((mgmtOpenDay_within s _).mono)

theorem mgmtCut_within (tag : Nat) (bs : List Byte) :
    Within [.sessions, .screens, .journal, .records, .port, .portRest, .counters, .day, .dayState, .drawers] s
      (s.mgmtCut tag bs) := answerDo_within s _ _ _ _ _ ((mgmtCutoff_within s).mono)

theorem mgmtReopen_within (tag : Nat) (bs : List Byte) :
    Within [.journal, .records, .port, .portRest, .counters, .day, .dayState, .screens] s (s.mgmtReopen tag bs) :=
  answerDo_within s _ _ _ _ _ ((mgmtReopenDay_within s).mono)

theorem mgmtResume_within (tag : Nat) (bs : List Byte) :
    Within [.day, .dayState, .port, .portRest, .counters, .screens] s (s.mgmtResume tag bs) :=
  answerDo_within s _ _ _ _ _ ((mgmtResumeBatch_within s).mono)

theorem mgmtReadCounters_within (tag : Nat) (bs : List Byte) :
    Within [.port, .portRest, .counters] s (s.mgmtReadCounters tag bs) :=
  answerDo_within s _ _ _ _ _ ((readCounters_within s _).mono)

theorem mgmtSurvey_within (tag : Nat) (bs : List Byte) :
    Within [.survey, .port, .portRest, .counters] s (s.mgmtSurvey tag bs) :=
  answerDo_within s _ _ _ _ _ ((mgmtStartSurvey_within s _).mono)

theorem mgmtSurveySummary_within (tag : Nat) (bs : List Byte) :
    Within [.survey, .line, .lineRest, .port, .portRest, .counters] s (s.mgmtSurveySummary tag bs) :=
  answerDo_within s _ _ _ _ _ (Within.mono (k := [.survey, .line, .lineRest]) (stopSurvey_within s))

/-- Everything a management frame can reach. -/
theorem takeMgmt_within (tag : Nat) (bs : List Byte) :
    Within [.port, .portRest, .queueGrows, .counters, .lock, .lockRises, .tables, .line, .lineRest, .survey, .sessions,
      .entries, .tagCounter, .overrides, .drawers, .booksKept, .screens, .printers, .store, .journal, .records,
      .journalGrows, .day, .dayState, .freeDraws] s (s.takeMgmt tag bs) := by
  unfold takeMgmt
  split
  · exact (reply_within _ _ _ _).after ((drawFree_within s).mono)
  · split
    · exact (answerRead_within s _ _ _ _ _).mono
    · exact (answerRead_within s _ _ _ _ _).mono
    · exact (mgmtTableWrite_within s _ _).mono
    · exact (answerRead_within s _ _ _ _ _).mono
    · exact (mgmtLock_within s _ _).mono
    · exact (mgmtOpen_within s _ _).mono
    · exact (mgmtCut_within s _ _).mono
    · exact (mgmtReopen_within s _ _).mono
    · exact (mgmtResume_within s _ _).mono
    · exact (answerRead_within s _ _ _ _ _).mono
    · exact (answerRead_within s _ _ _ _ _).mono
    · exact (answerRead_within s _ _ _ _ _).mono
    · exact (answerRead_within s _ _ _ _ _).mono
    · exact (mgmtReadCounters_within s _ _).mono
    · exact (mgmtSurvey_within s _ _).mono
    · exact (answerRead_within s _ _ _ _ _).mono
    · exact (mgmtSurveySummary_within s _ _).mono
    · exact (restart_within s _ _ _).mono
    · exact (reply_within s _ _ _).mono

/-- Everything an accepted frame of the office link can reach. -/
theorem route_within (k tag : Nat) (bs : List Byte) :
    Within [.port, .portRest, .queueGrows, .counters, .lock, .lockRises, .tables, .line, .lineRest, .survey, .sessions,
      .entries, .tagCounter, .overrides, .drawers, .booksKept, .screens, .printers, .store, .journal, .records,
      .journalGrows, .day, .dayState, .freeDraws] s (s.route k tag bs) := by
  unfold route
  split
  · exact (takeAnswer_within s _ _).mono
  · exact takeMgmt_within s _ _
  · exact (takeAck_within s _).mono
  · exact (takeNack_within s _).mono
  · exact Within.refl _ s

theorem filterNode_within (k n tag : Nat) (bs : List Byte) :
    Within [.port, .portRest, .queueGrows, .counters, .lock, .lockRises, .tables, .line, .lineRest, .survey, .sessions,
      .entries, .tagCounter, .overrides, .drawers, .booksKept, .screens, .printers, .store, .journal, .records,
      .journalGrows, .day, .dayState, .freeDraws] s (s.filterNode k n tag bs) := by
  unfold filterNode
  split
  · exact route_within s _ _ _
  · exact (countLinkWrongNode_within s).mono

theorem receiveOffice_within (bs : List Byte) :
    Within [.port, .portRest, .queueGrows, .counters, .lock, .lockRises, .tables, .line, .lineRest, .survey, .sessions,
      .entries, .tagCounter, .overrides, .drawers, .booksKept, .screens, .printers, .store, .journal, .records,
      .journalGrows, .day, .dayState, .freeDraws] s (s.receiveOffice bs) := by
  unfold receiveOffice
  split
  · exact (dropBadFrame_within s).mono
  · exact filterNode_within s _ _ _ _

theorem linkReady_within : Within [.port, .portRest] s s.linkReady := by
  refine (beginTransmit_within _).after ?_
  intro a h
  have r := a.refl s
  cases a <;> first | exact absurd (by decide) h | exact r

theorem linkStalled_within : Within [.port, .portRest] s s.linkStalled := by
  intro a h
  have r := a.refl s
  cases a <;> first | exact absurd (by decide) h | exact r

/-- A frame that has been sent leaves the queue shorter (R5). -/
theorem frameLeaves_within : Within [.port, .portRest, .queueGrows] s s.frameLeaves := by
  unfold frameLeaves
  split
  · next f rest _ hq =>
    refine (beginTransmit_within _).after ?_
    refine ((withPort_within s _).mono (m := [.queueBounded, .port, .portRest, .queueGrows])).restore .queueBounded ?_
    intro h
    unfold QueueBounded at h
    rw [hq] at h
    simp at h
    show rest.length ≤ 64
    omega
  · exact Within.refl _ s

/-! ### A tick -/

theorem tickLine_within : Within [.line, .lineRest, .survey] s s.tickLine := by
  unfold tickLine
  dsimp only
  split
  · exact (withSurvey_within _ _).after (Within.mono (withLine_control s))
  · exact Within.mono (withLine_control s)

theorem tickEntry_within (i : Nat) : Within [.entries] s (s.tickEntry i) := by
  unfold tickEntry
  split
  · exact Within.refl _ s
  · next h => exact setEntry_kept s h rfl rfl id

theorem tickDrawer_within (d : Nat) : Within [.drawers] s (s.tickDrawer d) := setDrawer_sameBook s rfl

theorem tickPrinter_within (p : Nat) : Within [.printers] s (s.tickPrinter p) := setPrinter_within s p _

theorem tickDay_within : Within [.day] s s.tickDay :=
  withDay_keeps s fun h => ⟨h.ackedSent, h.sentHighest, h.highestTotal, h.window, h.unsettled⟩

/-- A tick reaches the timers alone, and the queue of commands waiting (1.5). -/
theorem tick_within : Within [.line, .lineRest, .survey, .entries, .drawers, .printers, .day, .pending] s s.tick := by
  unfold tick
  dsimp only
  refine (withPending_within _ _).after ((tickDay_within _).after ?_)
  refine Within.after (k := [.printers]) (Within.fold _ (fun t p => tickPrinter_within t p) _ _) ?_
  refine Within.after (k := [.drawers]) (Within.fold _ (fun t d => tickDrawer_within t d) _ _) ?_
  exact Within.after (k := [.entries]) (Within.fold _ (fun t i => tickEntry_within t i) _ _) ((tickLine_within s).mono)

end Sys2Proof.Machine.State
end

