-- ==== Sys2Proof/Tests/Slice0.lean ====
section
/-! SUPPORT. Small tests: the check codes and layouts on the manual's worked values, the well-formedness checks on ill-formed
commands, and for each statement with hypotheses a state and operands that meet them. -/

namespace Sys2Proof.Tests

open Sys2Proof.Machine

set_option Elab.async false

/-! ### Check codes and layouts on the manual's own values (11) -/

/-- The characters 1 to 9. -/
def digits : List Byte := (List.range' 49 9).map toByte

/-- R202: over the nine characters the CRC-16 is 29B1h. -/
theorem test_crc16 : crc16 digits = 0x29B1#16 := by decide +kernel

/-- R205: over the nine characters the CRC-32 is CBF43926h. -/
theorem test_crc32 : crc32 digits = 0xCBF43926#32 := by decide +kernel

/-- R203: ECHO probe 1 carries 25h, 30h, 3Bh, 46h, 51h, 5Ch, 67h, 72h. -/
theorem test_echo_pattern : echoPattern 1 = [0x25, 0x30, 0x3B, 0x46, 0x51, 0x5C, 0x67, 0x72] := by decide +kernel

/-- R202: a whole office-link frame, kind 3 (BATCH_ACK), node 1, tag 2, no payload. -/
theorem test_office_frame : parseOffice (officeFrame 3 1 2 []) = some { kind := 3, node := 1, tag := 2, payload := [] } := by
  decide +kernel

/-- R203: a SIGN_ON message frame of position 3, unit 0, sequence 9, teller 1401 (0579h). -/
theorem test_station_frame :
    (messageFrame 3 0 1 9 (be 2 1401)).take 8 = [0x03, 0x10, 0x00, 0x01, 0x09, 0x02, 0x05, 0x79] ∧
    parseStation (messageFrame 3 0 1 9 (be 2 1401)) = some (.message 3 0 9 (.signOn 1401)) := by decide +kernel

/-- No word spells a command: the table's rows carry no bits. -/
theorem test_no_word_decodes : decodeTableWord 16 0 = none := rfl

/-! ### Worked cases of 05 and 07 -/

/-- The home faces of the note selection case, positions 1 to 11. -/
def homeFaces : List Nat := [5, 10, 20, 50, 100, 200, 500, 1000, 2000, 5000, 10000]

/-- Note selection, first case: 37,500 from 10,000 × 3, 2,000 × 10, 1,000 × 4 and 500 × 20. -/
theorem test_note_selection : noteWalk [(11, 10000, 3), (10, 5000, 0), (9, 2000, 10), (8, 1000, 4), (7, 500, 20), (6, 200, 0)]
    37500 = ([(11, 3), (9, 3), (8, 1), (7, 1)], 0) := by decide +kernel

/-- Note selection, second case: 6,000 from 5,000 × 1 and 2,000 × 3 leaves 1,000. -/
theorem test_note_selection_does_not_go_back : (noteWalk [(10, 5000, 1), (9, 2000, 3)] 6000).2 = 1000 := by decide +kernel

/-- The exchange cases: a purchase of 25,000 and a sale of 12,346. -/
theorem test_exchange_figures :
    exchangeFigures false 25000 108430000 5 = { rate := 108430000, equiv := 27107, cash := 27105, residue := 2 } ∧
    exchangeFigures true 12346 112150000 5 = { rate := 112150000, equiv := 13847, cash := 13850, residue := -3 } := by
  decide +kernel

/-- The amount layout case: -1,234,567 minor units with exponent 2. -/
theorem test_amount_layout :
    layOut .grouped 12 (.amount (-1234567) 2) = [32, 32, 45, 49, 50, 44, 51, 52, 53, 46, 54, 55] ∧
    layOut .grouped 8 (.amount (-1234567) 2) = List.replicate 8 42 ∧
    layOut .ungrouped 9 (.amount (-1234567) 2) = [45, 49, 50, 51, 52, 53, 46, 54, 55] ∧
    layOut .left 3 (.count 1207) = [42, 42, 42] := by decide +kernel

/-- The sizes of the block case: a POST record with four denominations is 63 bytes, OPEN is 16. -/
theorem test_record_sizes :
    Record.size { seq := 1, clock := 0, body := .opened (List.replicate 8 48) } = 16 ∧
    Record.size { seq := 2, clock := 0, body := .signOn 3 1401 } = 11 := by decide +kernel

/-! ### Well-formed commands: an ill-formed one for each check -/

/-- A request whose fields are all in range. -/
def plainRequest : Request := { code := 21, cur := 0, amount := 5000, account := none, bReq := none, bHome := none }

theorem test_wellformed_accepts : [Instr.request 24 255 plainRequest, .signOn 1 0 65535, .grant, .badFrame [1],
    .count 1 0 24 [[1], [], [], []], .unknown 0 1 [], .rollAnswer 1 7 7].all (·.wellFormed) = true := by decide +kernel

theorem test_wellformed_positions : [Instr.signOn 0 0 1, .signOff 25 0, .suspend 0 0, .resume 25 0 1, .cancel 0 0,
    .override 0 0 1 1, .count 0 0 1 [[], [], [], []], .acceptDiff 25 0 1 [[], [], [], []], .reopen 0 0 1, .form 0 0 1,
    .close 0 0, .bookIn 0 0 [] 1 1 1, .bookOut 25 0, .statusReady 0 0, .lineDone 0 0, .turned 0 0, .jam 0 0,
    .jamCleared 0 0, .opened 0 0, .closed 0 0, .fault 25 0, .request 0 0 plainRequest, .rollAnswer 25 0 0, .accept 0 0 0,
    .reject 25 0 0, .busy 0 0 0, .echo 0 0 (List.replicate 8 0), .repeatMessage 0 0 1 0 [], .lineBadMessage 25 0 1 0 [],
    .outboundQueueRoom 0 1, .owedNoticeQueued 0, .pacingTimerExpiry 25, .lineCompletionWaitExpiry 0,
    .bookWaitExpiry 0].all (fun c => !c.wellFormed) = true := by decide +kernel

theorem test_wellformed_units : [Instr.accept 1 3 0, .reject 1 3 0, .busy 1 3 0, .echo 1 3 (List.replicate 8 0),
    .repeatMessage 1 3 1 0 [], .lineBadMessage 1 3 1 0 [], .outboundQueueRoom 1 3].all (fun c => !c.wellFormed) = true := by
  decide +kernel

theorem test_wellformed_bytes : [Instr.signOn 1 256 1, .signOff 1 256, .suspend 1 256, .resume 1 256 1, .cancel 1 256,
    .override 1 256 1 1, .override 1 0 1 256, .count 1 256 1 [[], [], [], []], .count 1 0 256 [[], [], [], []],
    .acceptDiff 1 256 1 [[], [], [], []], .acceptDiff 1 0 256 [[], [], [], []], .reopen 1 256 1, .reopen 1 0 256,
    .form 1 256 1, .form 1 0 256, .close 1 256, .bookIn 1 256 [] 1 1 1, .bookIn 1 0 [] 256 1 1, .bookIn 1 0 [] 1 256 1,
    .bookIn 1 0 [] 1 1 256, .bookOut 1 256, .statusReady 1 256, .lineDone 1 256, .turned 1 256, .jam 1 256,
    .jamCleared 1 256, .opened 1 256, .closed 1 256, .fault 1 256, .request 1 256 plainRequest, .rollAnswer 1 256 0,
    .rollAnswer 1 0 256, .accept 1 0 256, .reject 1 0 256, .busy 1 0 256, .repeatMessage 1 0 256 0 [],
    .repeatMessage 1 0 1 256 [], .lineBadMessage 1 0 256 0 [], .lineBadMessage 1 0 1 256 [], .powerOn 256 true,
    .restart 1 [1] 256, .wrongNodeFrame 2 256 1 []].all (fun c => !c.wellFormed) = true := by decide +kernel

theorem test_wellformed_words : [Instr.signOn 1 0 65536, .resume 1 0 65536, .override 1 0 65536 1,
    .wrongNodeFrame 2 1 65536 [], .answer 65536 [], .batchAck 65536, .batchNack 65536, .identify 65536 [],
    .readStatus 65536 [], .readCounters 65536 [], .tableWrite 65536 [], .tableRead 65536 [], .lock 65536 [],
    .openDay 65536 [], .cutoff 65536 [], .reopenDay 65536 [], .resumeBatch 65536 [], .readDrawer 65536 [],
    .readSession 65536 [], .readPending 65536 [], .readJournal 65536 [], .startSurvey 65536 [],
    .readSurveyPosition 65536 [], .readSurveySummary 65536 [], .restart 65536 [1] 0,
    .unknown 0 65536 []].all (fun c => !c.wellFormed) = true := by decide +kernel

/-- A byte more than a payload can hold after the request code. -/
def longParams : List Byte := List.replicate 1024 0

theorem test_wellformed_lengths : [Instr.identify 1 longParams, .readStatus 1 longParams, .readCounters 1 longParams,
    .tableWrite 1 longParams, .tableRead 1 longParams, .lock 1 longParams, .openDay 1 longParams, .cutoff 1 longParams,
    .reopenDay 1 longParams, .resumeBatch 1 longParams, .readDrawer 1 longParams, .readSession 1 longParams,
    .readPending 1 longParams, .readJournal 1 longParams, .startSurvey 1 longParams, .readSurveyPosition 1 longParams,
    .readSurveySummary 1 longParams, .restart 1 longParams 0, .unknown 0 1 longParams, .answer 1 (0 :: longParams),
    .wrongNodeFrame 2 1 1 (0 :: longParams), .repeatMessage 1 0 1 0 (List.replicate 251 0),
    .lineBadMessage 1 0 1 0 (List.replicate 251 0), .echo 1 0 (List.replicate 7 0),
    .bookIn 1 0 (List.replicate 21 0) 1 1 1].all (fun c => !c.wellFormed) = true := by decide +kernel

theorem test_wellformed_requests : [Instr.request 1 0 { plainRequest with code := 256 },
    .request 1 0 { plainRequest with cur := 256 }, .request 1 0 { plainRequest with amount := 281474976710656 },
    .request 1 0 { plainRequest with account := some [] }, .request 1 0 { plainRequest with account := some (List.replicate 21 65) },
    .request 1 0 { plainRequest with bReq := some (List.replicate 13 (1, 1)) },
    .request 1 0 { plainRequest with bHome := some [(256, 1)] }, .request 1 0 { plainRequest with bReq := some [(1, 65536)] },
    .count 1 0 1 [[], [], []], .count 1 0 1 [List.replicate 13 0, [], [], []], .acceptDiff 1 0 1 [[65536], [], [], []]].all
      (fun c => !c.wellFormed) = true := by decide +kernel

theorem test_wellformed_indices : [Instr.reversalNoticeQueued 32, .grantedRequestQueued 32, .approvalWaitExpiry 32,
    .overrideWaitExpiry 32, .openAlarmExpiry 25, .wrongNodeFrame 0 1 1 [], .wrongNodeFrame 5 1 1 [], .unknown 1 1 [],
    .unknown 18 1 []].all (fun c => !c.wellFormed) = true := by decide +kernel

/-- Bytes that no row presents: a sound frame is no bad frame, and an incomplete one is none that is discarded. -/
theorem test_wellformed_frames : [Instr.badFrame (officeFrame 3 1 2 []), .lineFrameDiscarded [3], .inboundFrameRejected [],
    .surveyProbeBadReply [3, 0x10]].all (fun c => !c.wellFormed) = true := by decide +kernel

/-! ### Sample states

A branch of position 3 (a clerk, 1401) and position 11 (a supervisor, 3310), both with all three units, one currency of faces 5
and 500, three codes, two forms and one layout. -/

def samplePosition : PositionEntry := { units := [0, 1, 2], pair := false, defaultForm := 0, forms := [0, 1] }

def sampleForm (selectable : Bool) : FormEntry :=
  { mode := 0, winFirst := 1, winLast := 1, winCond := .override, setA := { first := 0, count := 1 }
    setB := { first := 0, count := 0 }, rows := List.replicate 24 RowEntry.zero, selectable := selectable }

def sampleCode (code : Nat) (cls : TxClass) (auth : Authorisation) : CodeEntry :=
  { code := code, mnemonic := List.replicate 6 65, cls := cls, auth := auth, allowed := [0], rule := .optional
    print := false, minRole := .clerk, limitClass := 0, answerForm := none }

def sampleTeller (id : Nat) (role : Role) : TellerEntry :=
  { id := id, role := role, limits := [1000, 1000, 1000, 1000], overrideLimit := 100000 }

def sampleLayout : LayoutEntry :=
  { lines := 4, pages := 3, autoTurn := true, date := { col := 1, width := 8 }, mnemonic := { col := 10, width := 6 }
    debit := { col := 20, width := 10 }, credit := { col := 31, width := 10 }, balance := { col := 42, width := 12 } }

def tables : Tables := { Tables.cold with
  positions := wr1 (wr1 Tables.cold.positions 3 (some samplePosition)) 11 (some samplePosition)
  currencies := wr Tables.cold.currencies 0
    (some { letters := [65, 66, 67], exponent := 2, faces := [5, 500], tolerance := 10, ceiling := 0 })
  codes := wr (wr (wr Tables.cold.codes 0 (some (sampleCode 21 .withdrawal .central))) 1
    (some (sampleCode 22 .withdrawal .branch))) 2 (some (sampleCode 23 .inquiry .central))
  tellers := wr (wr Tables.cold.tellers 0 (some (sampleTeller 1401 .clerk))) 1 (some (sampleTeller 3310 .supervisor))
  forms := wr (wr Tables.cold.forms 0 (some (sampleForm true))) 1 (some (sampleForm true))
  fields := wr Tables.cold.fields 0
    (some { row := 2, col := 1, width := 10, attr := 0, source := .message, format := .left })
  layouts := wr Tables.cold.layouts 1 (some sampleLayout) }

/-- The day 2024-03-15 as it is keyed. -/
def date : List Byte := [50, 48, 50, 52, 48, 51, 49, 53]

/-- Drawer 3 with 100 notes of 500. -/
def stocked : Drawer := { Drawer.cold with book := putCount CountTable.zero 0 2 100 }

/-- Every unit of positions 3 and 11 PRESENT. -/
def presentUnits : Vector PosRec 24 :=
  let r : PosRec := { missed := 0, units := Vector.replicate 3 { UnitRec.start with presence := .present } }
  wr1 (wr1 (Vector.replicate 24 PosRec.start) 3 r) 11 r

/-- The branch in an open day, the line IDLE. -/
def branch : State := { State.reset with
  lock := 1, tables := tables
  line := { Line.start [] with recs := presentUnits, rollWaiting := false, rollTimer := some 4 }
  sessions := wr1 (wr1 State.reset.sessions 3 { state := .signedOn, teller := some 1401, role := some .clerk }) 11
    { state := .signedOn, teller := some 3310, role := some .supervisor }
  drawers := wr State.reset.drawers 3 stocked
  day := { Day.cold with state := .opened, date := some date, running := true, phase := 99 }
  journal := { records := [{ seq := 1, clock := 0, body := .opened date }], claims := 0, closed := false } }

def inDay (x : DayState) (s : State) : State := { s with day := { s.day with state := x } }

/-- The upstream queue with n frames in it. -/
def queued (n : Nat) (s : State) : State := { s with port := { s.port with queue := List.replicate n (.alarm .ceiling 3) } }

def withEngine (x : Engine) (s : State) : State := { s with line := { s.line with engine := x, replyWait := some 3 } }

/-- Unit u of position p has been selected to send. -/
def selected (p u : Nat) (s : State) : State := withEngine (.selectedSend { pos := p, unit := u, made := 0, limit := 2 }) s

def withUnit (p u : Nat) (f : UnitRec → UnitRec) (s : State) : State := s.setUnit p u (f (s.unit p u))

def withDrawer (d : Nat) (f : Drawer → Drawer) (s : State) : State := s.setDrawer d (f (s.drawer d))

/-- A message of sequence 9 is awaited from the selected unit of position 3 or 11. -/
theorem selected_awaits {s : State} {p u seq : Nat} (h : s.line.discarding = false) (k : (s.unit p u).lastIn ≠ some seq) :
    (selected p u s).Awaits p u seq := ⟨⟨_, rfl, rfl, rfl⟩, h, k⟩

/-- A captured request of position 3: a withdrawal of 500 by teller 1401, one note reserved. -/
def captured (auth : Authorisation) : Captured :=
  { pos := 3, teller := 1401
    snap := { code := 21, cls := .withdrawal, auth := auth, print := false, target := [3], mnemonic := List.replicate 6 65,
              answerForm := none }
    own := 3, cur := 0, amount := 500, equiv := some 500, rate := none, exch := none
    items := [{ drawer := 3, cur := 0, den := 2, count := 1, out := true }]
    reqList := [(2, 1)], homeList := [], account := none }

def waiting (x : EntryState) (auth : Authorisation) : Entry :=
  { tag := 1, state := x, granted := false, req := captured auth, claim := 2, timer := some 5, reason := none }

def withEntry (e : Entry) (s : State) : State :=
  { s with
    entries := wr (Vector.replicate 32 none) 0 (some e), tagCounter := 1, overrides := if e.state = .waitingOverride then [0] else []
    journal := { s.journal with claims := e.claim } }

/-- The one entry in use is the one put there. -/
theorem one_entry_only {e : Entry} {s : State} {i : Nat} {f : Entry} (h : (withEntry e s).entry i = some f) : i = 0 ∧ f = e := by
  unfold State.entry withEntry at h
  by_cases hi : i = 0
  · subst hi
    have : some e = some f := h
    exact ⟨rfl, by cases this; rfl⟩
  · rw [rd_wr_other _ (Ne.symm hi), rd_replicate] at h
    cases h

/-- A table with one entry in use is sound. -/
theorem one_entry_sound (e : Entry) (s : State) (h : 1 ≤ e.tag ∧ e.tag ≤ 65535) : (withEntry e s).EntriesSound := by
  refine ⟨?_, ?_, ?_⟩
  · intro i f hf
    rw [(one_entry_only hf).2]
    exact h
  · intro i j f g hf hg _
    rw [(one_entry_only hf).1, (one_entry_only hg).1]
  · intro i j f g hf hg _ _ _
    rw [(one_entry_only hf).1, (one_entry_only hg).1]

/-- The state that a command leaves. -/
def after (c : Instr) (s : State) : State :=
  match exec c s with
  | .next t => t
  | _ => s

/-- The branch with a withdrawal of 500 at the centre, its claim of 1 taken and its note reserved. -/
def pledged : State := withEntry { waiting .waitingCentre .central with claim := 1 }
  (withDrawer 3 (fun d => { d with reserved := putCount CountTable.zero 0 2 1 }) branch)

theorem pledged_journal : pledged.JournalSound :=
  ⟨fun i e h => by obtain ⟨-, rfl⟩ := one_entry_only h; decide, by decide +kernel, by decide +kernel, by decide +kernel⟩

theorem pledged_reservations : pledged.ReservationsSound := by
  have key : ∀ d, d ≤ 24 → ∀ c, c < 4 → ∀ k, k ≤ 12 →
      countAt (pledged.drawer d).reserved c k = pledged.overEntries (fun e => itemSum e.req.items true d c k) ∧
      countAt (pledged.drawer d).incoming c k = pledged.overEntries (fun e => itemSum e.req.items false d c k) ∧
      countAt (pledged.drawer d).reserved c k ≤ countAt (pledged.drawer d).book c k := by decide +kernel
  refine ⟨fun c e h => ?_, fun i e x h hx => ?_, fun i e h k => ?_, fun d c k hd hc _ hk => ?_, fun d c k hd hc _ hk => ?_,
    fun d hd h => absurd ?_ h⟩
  · by_cases hc : c < 4
    · exact (show ∀ c, c < 4 → ∀ e, pledged.tables.currency c = some e → e.faces.length ≤ 12 by
        intro c hc
        have : pledged.tables.currency c = none ∨ (pledged.tables.currency c).map (fun e => e.faces.length) = some 2 := by
          revert c
          decide +kernel
        rintro e he
        rw [he] at this
        rcases this with h | h <;> simp_all) c hc e h
    · unfold Tables.currency at h
      rw [rd_outside _ (by omega)] at h
      cases h
  · obtain ⟨-, rfl⟩ := one_entry_only h
    revert x
    decide
  · obtain ⟨-, rfl⟩ := one_entry_only h
    revert k
    decide
  · exact ⟨(key d hd c hc k hk).1, (key d hd c hc k hk).2.1⟩
  · exact (key d hd c hc k hk).2.2
  · revert d
    decide +kernel

/-- The journal one record short of 15,360. -/
def nearlyFull (s : State) : State :=
  { s with journal := { s.journal with records := List.replicate 15359 { seq := 1, clock := 0, body := .reopenDay } } }

theorem nearlyFull_notice (s : State) : (nearlyFull s).nearlyFullNotice = [.alarm .journalNearlyFull 0] :=
  if_pos (congrArg (· + 1) List.length_replicate)

theorem queued_notice (n : Nat) (s : State) : (queued n s).nearlyFullNotice = s.nearlyFullNotice := rfl

theorem queued_length (n : Nat) (s : State) : (queued n s).port.queue.length = n := List.length_replicate

/-- With 63 frames queued the nearly-full alarm takes the last slot. -/
theorem alarm_takes_last_slot (s : State) :
    64 ≤ (queued 63 (nearlyFull s)).port.queue.length + (queued 63 (nearlyFull s)).nearlyFullNotice.length := by
  rw [queued_length, queued_notice, nearlyFull_notice]
  decide

/-- The books cover one reservation item that a drawer holds the notes of. -/
theorem one_item_covered (s : State) (i : Item) (h : i.count ≤ countAt (s.drawer i.drawer).book i.cur i.den) :
    BooksCover [i] s := by
  intro d c k _ _ _ _
  unfold itemSum
  by_cases hm : (i.out == true && i.drawer == d && i.cur == c && i.den == k) = true
  · simp only [Bool.and_eq_true, beq_iff_eq] at hm
    obtain ⟨⟨⟨_, rfl⟩, rfl⟩, rfl⟩ := hm
    simp [List.filter]
    split <;> simp [h]
  · have : [i].filter (fun i => i.out == true && i.drawer == d && i.cur == c && i.den == k) = [] := by
      simpa using hm
    rw [this]
    simp

/-- What the cross-reference checks say where the first three pass (R19). -/
theorem last_checks {t : Tables} (h : ∀ j, t.field j = none ∨ t.fieldSound j = true)
    (hp : Tables.firstBroken allPositions t.positionSound = none)
    (hc : Tables.firstBroken (List.range 128) t.codeSound = none) :
    t.crossCheck = if t.faces 0 = [] then some (4, .currencies, 0)
      else if (List.range 128).all (fun i => (rd t.codes i none).isNone) then some (5, .codes, 0) else none := by
  have hf : Tables.firstBroken (List.range 512) t.fieldSound = none := by
    refine List.find?_eq_none.2 fun j _ => ?_
    rcases h j with h | h
    · simp [Tables.fieldSound, h]
    · simp [h]
  simp only [Tables.crossCheck, hp, hc, hf]

theorem cold_field (j : Nat) : Tables.cold.field j = none := rd_replicate ..

theorem tables_field (j : Nat) : tables.field j = none ∨ tables.fieldSound j = true := by
  by_cases h : j = 0
  · subst h
    exact Or.inr (by decide +kernel)
  · exact Or.inl ((rd_wr_other _ (Ne.symm h) _ _).trans (cold_field j))

/-- The sample tables pass every cross-reference check. -/
theorem test_tables_pass : tables.crossCheck = none :=
  (last_checks tables_field (by decide +kernel) (by decide +kernel)).trans (by decide +kernel)

/-- Tables with nothing in them fail check 4. -/
theorem test_cold_tables_fail : Tables.cold.crossCheck = some (4, .currencies, 0) :=
  (last_checks (fun j => Or.inl (cold_field j)) (by decide +kernel) (by decide +kernel)).trans (by decide +kernel)

/-- A first currency and nothing else. -/
def codeless : Tables := { Tables.cold with currencies := tables.currencies }

/-- With a first currency and no code check 5 fails. -/
theorem test_codeless_tables_fail : codeless.crossCheck = some (5, .codes, 0) :=
  (last_checks (t := codeless) (fun j => Or.inl (cold_field j)) (by decide +kernel) (by decide +kernel)).trans
    (by decide +kernel)

/-- So do the sample tables with a rate in them. -/
theorem test_rates_pass : (tables.store 3 (.rate (some { buy := 7, sell := 9 }))).crossCheck = none :=
  (last_checks (t := tables.store 3 (.rate (some { buy := 7, sell := 9 }))) (fun j => tables_field j) (by decide +kernel)
    (by decide +kernel)).trans (by decide +kernel)

/-- A field that shows a drawer's count of a denomination. -/
def countField (c d : Nat) : FieldEntry := { row := 2, col := 1, width := 10, attr := 0, source := .drawerCount c d, format := .left }

/-! ### A state and operands for every statement with hypotheses -/

theorem witness_StepTakesFrontCommand : (branch.withPending [.grant, .sendWindow]).pending = .grant :: [.sendWindow] := rfl

/-- Timers that run out at the next tick: an override wait, the unit reply wait, the open alarm of the vault, and the ack wait. -/
def ticking : State :=
  let s := withEntry { waiting .waitingOverride .branch with timer := some 1 } (withDrawer 0 (fun d => { d with openAlarm := some 1 }) branch)
  { s with line := { s.line with replyWait := some 1, rollTimer := some 1 }, day := { s.day with ackTimer := some 1 } }

theorem witness_TickCountsTimersDown : ticking.pending = [] ∧ ticking.line.engine ≠ .waitProbe 3 .presence false ∧
    (withEngine (.waitProbe 3 .presence false) branch).line.engine = .waitProbe 3 .presence false ∧
    (ticking.entry 0).map (·.timer) = some (some 1) ∧ (ticking.drawer 0).openAlarm = some 1 ∧
    ticking.line.replyWait = some 1 ∧ ticking.day.running = true ∧ ticking.day.phase = 99 ∧
    (ticking.withPending [.dayClockTick]).pending = .dayClockTick :: [] := by decide +kernel

/-- R80, R174: what runs out at a tick waits as commands. -/
theorem test_tick_expiries : (match step ticking with | .next t => t.pending | _ => []) =
    [.unitReplyWaitExpiry, .rollCallTimerExpiry, .overrideWaitExpiry 0, .openAlarmExpiry 0, .ackWaitExpiry, .dayClockTick] := by
  decide +kernel

/-- The branch with the vault proved and every drawer empty: its day can complete. -/
def proved : State := { branch with drawers := wr State.reset.drawers 0 { Drawer.cold with state := .balanced } }

theorem branch_window (x : DayState) : (inDay x proved).WindowSound :=
  ⟨Nat.le_refl 0, Nat.le_refl 0, Nat.le_refl 0, show 0 ≤ 4 by decide, fun _ => rfl⟩

/-- Entries in each state, each day state, and a cutoff whose day completes at the warm start. -/
theorem witness_WarmStart :
    pledged.entry 0 = some { waiting .waitingCentre .central with claim := 1 } ∧
    (waiting .waitingCentre .central).req.snap.cls ≠ .inquiry ∧
    (withEntry (waiting .reversing .central) branch).entry 0 = some (waiting .reversing .central) ∧
    branch.entry 31 = none ∧ (inDay .noDay branch).day.state = .noDay ∧ branch.day.state = .opened ∧
    (inDay .sent branch).day.state = .sent ∧ (inDay .sending branch).day.state = .sending ∧
    (inDay .held branch).day.state = .held ∧ pledged.JournalSound ∧ pledged.ReservationsSound ∧
    (inDay .cutoff proved).WindowSound ∧ (inDay .cutoff proved).day.state = .cutoff ∧
    (inDay .cutoff proved).warmScreens.canComplete = true :=
  ⟨by decide +kernel, by decide, by decide +kernel, by decide +kernel, rfl, rfl, rfl, rfl, rfl, pledged_journal,
    pledged_reservations, branch_window _, rfl, by decide +kernel⟩

/-- R88, R199: an entry at the centre is reversed by a warm start, and a day in CUTOFF that can complete is SENDING. -/
theorem test_warm_start : (after (.powerOn 0 true) pledged).port.queue = [.reversal 1 .restart] ∧
    (after (.powerOn 0 true) pledged).journal.records.length = 3 ∧
    (after (.powerOn 0 true) (inDay .cutoff proved)).day.state = .sending := by decide +kernel

theorem witness_ReceivePathAndNodeFilter :
    (digits.take 7).length < 8 ∧ 1024 < num [2, 1, 0, 0, 4, 1, 0, 0] 4 2 ∧
    [2, 1, 0, 0, 0, 1, 0, 0].length ≠ 8 + num [2, 1, 0, 0, 0, 1, 0, 0] 4 2 ∧
    ¬ (1 ≤ num [0, 1, 0, 0, 0, 0, 0, 0] 0 1 ∧ num [0, 1, 0, 0, 0, 0, 0, 0] 0 1 ≤ 4) ∧
    ¬ (1 ≤ num [5, 1, 0, 0, 0, 0, 0, 0] 0 1 ∧ num [5, 1, 0, 0, 0, 0, 0, 0] 0 1 ≤ 4) ∧
    crc16Bytes [3, 1, 0, 2, 0, 0] ≠ [0, 0] ∧
    2 ≠ branch.port.node ∧ ¬ (2 = 255 ∧ 2 = 2 ∧ ([1] : List Byte).head? = some 1) ∧
    255 ≠ branch.port.node ∧ ¬ (255 = 255 ∧ 2 = 2 ∧ ([2] : List Byte).head? = some 1) := by decide +kernel

theorem witness_UpstreamTransmission :
    let s := { branch with port := { branch.port with queue := [.alarm .ceiling 3], transmitting := true } }
    s.port.transmitting = true ∧ s.port.queue = .alarm .ceiling 3 :: [] ∧ 64 ≤ (queued 64 branch).port.queue.length ∧
    (queued 64 branch).lock = 1 := by decide +kernel

/-- The bounds of the reads: the last free slot of the queue, the first and last index, drawer, position and record. -/
theorem witness_ReadsAnswered : (queued 63 branch).port.queue.length < 64 ∧
    Section.positions.hasIndex 1 = true ∧ Section.positions.hasIndex 24 = true ∧ Section.fields.hasIndex 511 = true ∧
    1 ≤ branch.journal.records.length ∧ 1 < 65536 ∧ (255 : Byte) ≠ 0 ∧ branch.survey.state ≠ .running ∧
    ({ branch with survey := { branch.survey with state := .running } } : State).survey.state = .running := by
  decide +kernel

theorem witness_RequestsRefused : (queued 63 branch).port.queue.length < 64 ∧ ([1] : List Byte).length ≠ 0 ∧
    ([] : List Byte).length ≠ 1 ∧ ([1] : List Byte).length ≠ 2 ∧ ([1, 2] : List Byte).length ≠ 3 ∧
    (date.take 7).length ≠ 8 ∧ ([1, 2, 3] : List Byte).length ≠ 3 + Section.rates.size ∧
    24 < (25 : Byte).toNat ∧ 3 < (4 : Byte).toNat ∧ 31 < (32 : Byte).toNat ∧
    256 * (0 : Byte).toNat + (0 : Byte).toNat = 0 ∧ branch.journal.records.length < 256 * (0 : Byte).toNat + (2 : Byte).toNat ∧
    11 < (12 : Byte).toNat ∧ Section.positions.hasIndex 0 = false ∧ Section.positions.hasIndex 25 = false ∧
    branch.lock ≠ 0 ∧ branch.day.state ≠ .noDay ∧ branch.day.state ≠ .sent ∧ date.length = 8 ∧
    State.validDate [50, 48, 50, 51, 48, 50, 50, 57] = false ∧ (inDay .cutoff branch).day.state ≠ .opened ∧
    branch.day.state ≠ .cutoff ∧ branch.day.state ≠ .held ∧ (3 : Byte) ≠ 1 ∧ (3 : Byte) ≠ 2 ∧
    ({ branch with survey := { branch.survey with state := .running } } : State).survey.state = .running := by
  decide +kernel

/-- The first record of a journal that one READ JOURNAL does not return whole, and its seventeenth. -/
theorem witness_DataOfReads :
    let s : State := { branch with journal := {
      branch.journal with records := List.replicate 17 { seq := 1, clock := 0, body := .reopenDay } } }
    1 ≤ 1 ∧ (s.journalFrom 1).length = 16 ∧ s.journal.records[1 - 1 + (s.journalFrom 1).length]?.isSome = true := by
  decide +kernel

/-- The tables before going live, in which every section may be written. -/
def offline : State := { inDay .noDay branch with lock := 0 }

/-- The entry passes the checks of a write before going live. -/
def storable (x : Section) (i : Nat) (e : TableEntry) : Bool :=
  x.hasIndex i && e.bytes.length == x.size && offline.writable x && parseContent x e.bytes == some e && e.sound i &&
    e.agrees offline.tables i && !offline.inUse i e

/-- A rate entry of currency 1: buy 7, sell 9. -/
def rateContent : List Byte := (TableEntry.rate (some { buy := 7, sell := 9 })).bytes

theorem witness_TableWriteStores : (tables.store 3 (.rate (some { buy := 7, sell := 9 }))).crossCheck = none ∧
    Section.rates.hasIndex 3 = true ∧ (1 : Byte) ≠ 0 ∧
    rateContent.length = Section.rates.size ∧ (inDay .opened branch).writable .rates = true ∧
    parseContent .rates rateContent = some (.rate (some { buy := 7, sell := 9 })) ∧
    TableEntry.sound 3 (.rate (some { buy := 7, sell := 9 })) = true ∧
    TableEntry.agrees tables 3 (.rate (some { buy := 7, sell := 9 })) = true ∧
    branch.inUse 3 (.rate (some { buy := 7, sell := 9 })) = false ∧ branch.port.queue.length < 64 :=
  ⟨test_rates_pass, by decide +kernel⟩

/-- A write of each section whose effects the statement names: the current form, a field it covers, a text, a message, a currency, a
signed-on teller's entry, a position that loses its serving unit and one that becomes a pair, and a PARAMS content. -/
theorem witness_TableWriteStores_sections : offline.lock = 0 ∧
    storable .forms 0 (.form (some (sampleForm false))) = true ∧
    storable .fields 0 (.field (some { row := 3, col := 1, width := 9, attr := 0, source := .tellerId, format := .left })) = true ∧
    storable .texts 5 (.text (some [65])) = true ∧ storable .messages 1 (.message (some [65])) = true ∧
    storable .currencies 0
      (.currency (some { letters := [65, 66, 67], exponent := 2, faces := [5, 500], tolerance := 0, ceiling := 9 })) = true ∧
    storable .tellers 0 (.teller (some (sampleTeller 1401 .supervisor))) = true ∧
    storable .positions 3 (.position (some { samplePosition with units := [0, 1] })) = true ∧
    storable .positions 11 (.position (some { samplePosition with pair := true })) = true ∧
    (branch.screen 3).form = 0 ∧ (branch.session 3).teller = some 1401 ∧
    (1 :: List.replicate 22 (0 : Byte)).length = 23 ∧ num (1 :: List.replicate 22 (0 : Byte)) 0 1 ≠ 0 := by decide +kernel

/-- The checks of TABLE WRITE, each failed in turn. -/
theorem witness_TableWriteChecksInOrder : Section.rates.hasIndex 0 = false ∧ Section.rates.hasIndex 4 = false ∧
    branch.writable .forms = false ∧ ({ branch with lock := 2 } : State).writable .forms = false ∧
    (inDay .sent branch).writable .forms = true ∧
    parseContent .forms (List.replicate Section.forms.size 255) = none ∧
    TableEntry.agrees tables 5 (.teller (some (sampleTeller 1401 .clerk))) = false ∧
    ((tables.store 0 (.form none)).crossCheck = some (1, .positions, 3)) ∧
    branch.inUse 0 (.teller none) = true ∧ branch.lock ≤ 2 := by decide +kernel

theorem witness_CrossChecksInOrder :
    (tables.store 0 (.form none)).crossCheck = some (1, .positions, 3) ∧
    (Tables.cold.store 5 (.code (some { sampleCode 30 .deposit .branch with answerForm := some 9 }))).crossCheck =
      some (2, .codes, 5) ∧
    (Tables.cold.store 0 (.field (some (countField 0 3)))).crossCheck = some (3, .fields, 0) ∧
    Tables.cold.crossCheck = some (4, .currencies, 0) ∧ codeless.crossCheck = some (5, .codes, 0) ∧
    tables.crossCheck = none :=
  ⟨by decide +kernel, by decide +kernel, by decide +kernel, test_cold_tables_fail, test_codeless_tables_fail,
    test_tables_pass⟩

theorem witness_LockByLevel : (queued 63 branch).port.queue.length < 64 ∧ (0 : Byte) ≠ 1 ∧ (3 : Byte) ≠ 2 ∧
    State.reset.lock = 0 ∧ State.reset.tables.crossCheck = some (4, .currencies, 0) ∧
    ({ branch with lock := 0 } : State).tables.crossCheck = none ∧ branch.lock = 1 ∧
    2 ≤ ({ branch with lock := 2 } : State).lock ∧ tables.position 3 = some samplePosition ∧
    tables.position 4 = none :=
  ⟨by decide +kernel, by decide, by decide, rfl, test_cold_tables_fail, test_tables_pass, by decide +kernel⟩

theorem witness_OpenDay : (queued 62 (inDay .noDay branch)).port.queue.length + 2 ≤ 64 ∧ date.length = 8 ∧ branch.lock ≠ 0 ∧
    (inDay .sent branch).day.state = .sent ∧ State.validDate date = true := by decide +kernel

theorem witness_CutoffCloseAndReopen : (selected 11 0 branch).Awaits 11 0 9 ∧ (queued 61 branch).port.queue.length + 3 ≤ 64 ∧ branch.day.state = .opened ∧
    branch.canComplete = false ∧ (inDay .cutoff branch).day.state = .cutoff ∧ 1 ≤ branch.generalSpace ∧
    branch.journal.closed = false ∧ ((branch.accepted 11 0 9).copyRole 11).supervisor 11 = true ∧
    ((branch.accepted 3 0 9).copyRole 3).supervisor 3 = false :=
  ⟨selected_awaits (by decide +kernel) (by decide +kernel), by decide +kernel⟩

theorem witness_CutoffCompletes : proved.WindowSound ∧ (queued 56 proved).port.queue.length + 8 ≤ 64 ∧
    proved.day.state = .opened ∧ proved.canComplete = true ∧ (proved.session 3).state ≠ .signedOff :=
  ⟨branch_window .opened, by decide +kernel⟩

theorem witness_PackingRespectsLimits : ∀ r ∈ [({ seq := 1, clock := 0, body := .opened date } : Record)], r.size ≤ 1000 := by
  decide +kernel

/-- A batch of four blocks in SENDING, one acknowledged and three queued. -/
def sending : State := { inDay .sending branch with
  day := { branch.day with
    state := .sending, blocks := (List.range 4).map (fun k => { first := 32 * k + 1, count := 32 }), acked := 1, sent := 3
    highest := 3, ackTimer := some 5 } }

theorem witness_BatchAcknowledgments : sending.day.acked < 2 ∧ 3 ≤ sending.day.highest ∧
    ¬ (sending.day.acked < 1) ∧ ¬ (4 ≤ sending.day.highest) ∧ 2 ≠ sending.day.blocks.length ∧
    4 = ({ sending with day := { sending.day with highest := 4 } } : State).day.blocks.length ∧
    sending.day.state = .sending ∧ (inDay .held sending).day.state = .held := by decide +kernel

theorem witness_AckWaitExpiryAndResume : sending.day.state = .sending ∧ sending.day.ackTimer ≠ none ∧
    ({ sending with day := { sending.day with expiries := 6 } } : State).day.expiries < 7 ∧
    ({ sending with day := { sending.day with expiries := 7 } } : State).day.expiries = 7 ∧
    (queued 63 sending).port.queue.length < 64 ∧ (queued 58 (inDay .held sending)).port.queue.length + 6 ≤ 64 := by
  decide +kernel

/-! Requests in flight. -/

/-- An ANSWER payload: approve or decline, reason 3, balance 700, no items. -/
def answerBytes (approve : Bool) : List Byte := (if approve then [1, 0] else [2, 3]) ++ 1 :: be 6 700 ++ be 4 0 ++ [0]

def answer (approve : Bool) : Answer :=
  { approve := approve, reason := if approve then 0 else 3, balance := some 700, item := 0, items := [] }

def atCentre : State := withEntry (waiting .waitingCentre .central) branch

def atOverride (auth : Authorisation) : State := withEntry (waiting .waitingOverride auth) branch

theorem witness_AnswerDeclines : atCentre.EntriesSound ∧ parseAnswer (answerBytes false) = some (answer false) ∧
    (answer false).approve = false ∧ atCentre.entry 0 = some (waiting .waitingCentre .central) ∧
    (waiting .waitingCentre .central).tag = 1 ∧ (digits.take 9).length < 14 ∧
    (parseAnswer (answerBytes false)).isSome = true ∧ branch.entry 0 = none :=
  ⟨one_entry_sound _ _ (by decide), by decide +kernel, rfl, by decide +kernel, rfl, by decide +kernel⟩

/-- With the sample tables every drawer unit the branch has is PRESENT. -/
theorem drawers_served {s : State} (ht : s.tables = tables) (hl : s.line = branch.line) (d : Nat)
    (hd : s.tables.serving d = true) : (s.unit d 2).presence = .present := by
  have key : ∀ d, d < 25 → branch.tables.serving d = true → (branch.unit d 2).presence = .present := by decide +kernel
  rw [State.unit_congr (s := branch) (congrArg Line.recs hl)]
  rw [ht] at hd
  by_cases h : d < 25
  · exact key d h hd
  · have : tables.position d = none := by
      unfold Tables.position rd1
      rw [if_neg (by omega), rd_outside _ (by omega)]
    simp [Tables.serving, Tables.installed, this] at hd

theorem witness_AnswerApproves : atCentre.EntriesSound ∧ parseAnswer (answerBytes true) = some (answer true) ∧
    atCentre.entry 0 = some (waiting .waitingCentre .central) ∧ (captured .central).snap.cls ≠ .inquiry ∧
    BooksCover (captured .central).items atCentre ∧ (captured .central).snap.print = false ∧
    (∀ d, atCentre.tables.serving d = true → (atCentre.unit d 2).presence = .present) :=
  ⟨one_entry_sound _ _ (by decide), by decide +kernel, by decide +kernel, by decide,
    one_item_covered _ _ (by decide +kernel), rfl, drawers_served rfl rfl⟩

theorem witness_CentreWaitEnds : atCentre.EntriesSound ∧ atCentre.entry 0 = some (waiting .waitingCentre .central) ∧
    (waiting .waitingCentre .central).timer ≠ none ∧ (waiting .waitingCentre .central).req.snap.cls ≠ .inquiry ∧
    (queued 63 atCentre).port.queue.length + (queued 63 atCentre).nearlyFullNotice.length < 64 ∧
    64 ≤ (queued 63 (nearlyFull atCentre)).port.queue.length + (queued 63 (nearlyFull atCentre)).nearlyFullNotice.length ∧
    (selected 3 0 atCentre).Awaits 3 0 9 :=
  ⟨one_entry_sound _ _ (by decide), by decide +kernel, by decide, by decide, by decide +kernel,
    alarm_takes_last_slot _,
    selected_awaits (by decide +kernel) (by decide +kernel)⟩

theorem witness_OverrideWaitEnds : (selected 11 0 (atOverride .branch)).Awaits 11 0 9 ∧
    (withEntry (waiting .waitingOverride .branch) (selected 11 0 branch)).EntriesSound ∧
    (atOverride .branch).entry 0 = some (waiting .waitingOverride .branch) ∧
    (waiting .waitingOverride .branch).timer ≠ none ∧ (waiting .waitingOverride .branch).granted = false ∧
    ((selected 11 0 (atOverride .branch)).accepted 11 0 9 |>.copyRole 11).supervisor 11 = true ∧
    (branch.session 11).teller ≠ some (waiting .waitingOverride .branch).req.teller ∧ (branch.session 11).teller ≠ none :=
  ⟨selected_awaits (by decide +kernel) (by decide +kernel), one_entry_sound _ _ (by decide), by decide +kernel, by decide,
    rfl, by decide +kernel⟩

theorem witness_OverrideGranted : (selected 11 0 (atOverride .branch)).Awaits 11 0 9 ∧
    (branch.session 11).teller = some 3310 ∧ 3310 ≠ (waiting .waitingOverride .branch).req.teller ∧
    (waiting .waitingOverride .branch).req.equiv.getD 0 ≤ (atOverride .branch).overrideLimit 3310 ∧
    (waiting .waitingOverride .central).req.snap.auth = .central ∧ (waiting .waitingOverride .branch).req.snap.auth = .branch ∧
    BooksCover (waiting .waitingOverride .branch).req.items (atOverride .branch) ∧
    (queued 63 (atOverride .central)).port.queue.length + (queued 63 (atOverride .central)).nearlyFullNotice.length < 64 ∧
    64 ≤ (queued 63 (nearlyFull (atOverride .central))).port.queue.length +
      (queued 63 (nearlyFull (atOverride .central))).nearlyFullNotice.length :=
  ⟨selected_awaits (by decide +kernel) (by decide +kernel), by decide +kernel, by decide, by decide +kernel, rfl, rfl,
    one_item_covered _ _ (by decide +kernel), by decide +kernel, alarm_takes_last_slot _⟩

theorem witness_OverrideChecked : (selected 11 0 (atOverride .branch)).Awaits 11 0 9 ∧
    (atOverride .branch).supervisor 11 = true ∧ (atOverride .branch).supervisor 3 = false ∧
    (∀ e, (atOverride .branch).entry 0 = some e → e.tag = 2 → e.state ≠ .waitingOverride) ∧
    (branch.session 3).teller = some (waiting .waitingOverride .branch).req.teller ∧
    (withEntry { waiting .waitingOverride .branch with granted := true } branch).EntriesSound ∧
    (atOverride .branch).overrideLimit 3310 <
      ({ captured .branch with equiv := some 100001 } : Captured).equiv.getD 0 := by
  refine ⟨selected_awaits (by decide +kernel) (by decide +kernel), by decide +kernel, by decide +kernel, ?_,
    by decide +kernel, one_entry_sound _ _ (by decide), by decide +kernel⟩
  intro e he
  have h : (atOverride .branch).entry 0 = some (waiting .waitingOverride .branch) := by decide +kernel
  rw [h] at he
  cases he
  decide

theorem witness_FreedSlotsFilled :
    (withEntry (waiting .reversing .central) branch).entry 0 = some (waiting .reversing .central) ∧
    (queued 63 branch).port.queue.length < 64 ∧ 64 ≤ (queued 64 branch).port.queue.length ∧
    (withEntry { waiting .waitingOverride .central with granted := true } branch).entry 0 =
      some { waiting .waitingOverride .central with granted := true } ∧
    (∀ e, atCentre.entry 0 = some e → e.state ≠ .reversing) ∧
    (∀ e, (atOverride .central).entry 0 = some e → e.state ≠ .waitingOverride ∨ e.granted = false) := by
  refine ⟨by decide +kernel, by decide +kernel, by decide +kernel, by decide +kernel, fun e he => ?_, fun e he => ?_⟩
  · rw [(one_entry_only he).2]
    decide
  · rw [(one_entry_only he).2]
    decide

/-! Messages and sessions. -/

/-- A message of each kind that breaks its size or a value, and operands at the ends of their ranges. -/
theorem witness_MessageReachesItsOwnerOnce : (selected 3 0 branch).Awaits 3 0 9 ∧ (selected 3 1 branch).Awaits 3 1 9 ∧
    (selected 3 2 branch).Awaits 3 2 9 ∧
    [(0, 2, [1]), (0, 13, []), (0, 1, [5]), (0, 7, [0, 1]), (0, 9, []), (0, 5, [21]), (0, 8, [3, 13, 0, 0, 0]), (1, 4, []),
      (1, 1, [5]), (1, 3, [6]), (2, 1, [0])].all (fun (x : Nat × Nat × List Byte) => parseMessage x.1 x.2.1 x.2.2 == .bad) = true ∧
    ((selected 3 0 (withUnit 3 0 (fun u => { u with lastIn := some 9 }) branch)).unit 3 0).lastIn = some 9 ∧
    plainRequest.wellFormed = true ∧ fitsLists [[1], [], [], []] = true ∧ (List.replicate 20 (65 : Byte)).length ≤ 20 :=
  ⟨selected_awaits (by decide +kernel) (by decide +kernel), selected_awaits (by decide +kernel) (by decide +kernel),
    selected_awaits (by decide +kernel) (by decide +kernel), by decide +kernel⟩

/-- Position 3 of the branch signed off. -/
def signedOff : State := { branch with sessions := wr1 branch.sessions 3 Session.off }

/-- Position 3 of the branch suspended. -/
def suspended : State :=
  { branch with sessions := wr1 branch.sessions 3 { state := .suspended, teller := some 1401, role := some .clerk } }

/-- The journal with no more general space than n. -/
def spaceOf (n : Nat) (s : State) : State := { s with journal := { s.journal with claims := 16384 - s.journal.records.length - n } }

theorem witness_SignOn : (selected 3 0 signedOff).Awaits 3 0 9 ∧ signedOff.tables.findTeller 1401 ≠ none ∧
    signedOff.tables.findTeller 99 = none ∧ signedOff.heldElsewhere 3 1401 = false ∧ signedOff.heldElsewhere 3 3310 = true ∧
    1 ≤ (spaceOf 65 signedOff).generalSpace ∧ (spaceOf 64 signedOff).generalSpace < 1 ∧
    (signedOff.session 3).state = .signedOff ∧ (branch.session 3).state ≠ .signedOff ∧ State.reset.lock = 0 :=
  ⟨selected_awaits (by decide +kernel) (by decide +kernel), by decide +kernel⟩

theorem no_entry_no_wait {s : State} {p : Nat} (h : s.entries = Vector.replicate 32 none) : ¬ s.HasWaiting p := by
  rintro ⟨i, e, he, _⟩
  unfold State.entry at he
  rw [h] at he
  simp only [rd, Vector.getElem?_replicate] at he
  split at he <;> cases he

theorem witness_SignOffSuspendAndResume : (selected 3 0 branch).Awaits 3 0 9 ∧ ¬ branch.HasWaiting 3 ∧ atCentre.HasWaiting 3 ∧
    -63 ≤ (spaceOf 1 branch).generalSpace ∧ (spaceOf 0 branch).generalSpace < -63 ∧ branch.journal.closed = false ∧
    (branch.session 3).state = .signedOn ∧ (suspended.session 3).state = .suspended ∧
    (suspended.session 3).teller = some 1401 ∧ (suspended.session 3).teller ≠ some 3310 ∧
    (signedOff.session 3).state = .signedOff ∧
    suspended.tables.findTeller 1401 = some (sampleTeller 1401 .clerk) :=
  ⟨selected_awaits (by decide +kernel) (by decide +kernel), no_entry_no_wait rfl,
    ⟨0, waiting .waitingCentre .central, by decide +kernel, by decide, rfl⟩, by decide +kernel⟩

/-- A request at position 3 for an amount under a code. -/
def requestOf (code amount : Nat) : Request := { plainRequest with code := code, amount := amount }

/-- The state in which a request of position 3 is checked. -/
def checking : State := ((selected 3 0 branch).accepted 3 0 9).copyRole 3

theorem witness_RequestRefused : (selected 3 0 branch).Awaits 3 0 9 ∧
    checking.firstRefusal 3 (requestOf 99 500) = some { outcome := .codeUnknown, cash := none } ∧
    checking.firstRefusal 3 (requestOf 21 0) = some { outcome := .amount, cash := none } ∧
    checking.firstRefusal 3 (requestOf 21 50500) = some { outcome := .noCash, cash := none } ∧
    checking.firstRefusal 3 (requestOf 21 505) = some { outcome := .noChange, cash := none } :=
  ⟨selected_awaits (by decide +kernel) (by decide +kernel), by decide +kernel⟩

/-- What the checks give for a withdrawal of n notes of 500. -/
def passed (n : Nat) (override : Bool) : Passed :=
  { equiv := some (500 * n), exch := none, items := [{ drawer := 3, cur := 0, den := 2, count := n, out := true }]
    reqList := [(2, n)], homeList := [], override := override, claim := if override then 2 else 1 }

/-- A withdrawal of 500 at the centre, and one of 1,500 that is over the teller's limit of 1,000. -/
theorem witness_RequestWaits : (selected 3 0 branch).Awaits 3 0 9 ∧ checking.firstRefusal 3 (requestOf 21 500) = none ∧
    checking.tables.findCode 21 = some (sampleCode 21 .withdrawal .central) ∧
    checking.checksFrom8 3 (requestOf 21 500) (sampleCode 21 .withdrawal .central) = .ok (passed 1 false) ∧
    checking.firstRefusal 3 (requestOf 22 1500) = none ∧
    checking.checksFrom8 3 (requestOf 22 1500) (sampleCode 22 .withdrawal .branch) = .ok (passed 3 true) :=
  ⟨selected_awaits (by decide +kernel) (by decide +kernel), by decide +kernel⟩

theorem witness_RequestPostedAtOnce : (selected 3 0 branch).Awaits 3 0 9 ∧
    BooksCover (passed 2 false).items (selected 3 0 branch) ∧ checking.firstRefusal 3 (requestOf 22 1000) = none ∧
    checking.tables.findCode 22 = some (sampleCode 22 .withdrawal .branch) ∧
    checking.checksFrom8 3 (requestOf 22 1000) (sampleCode 22 .withdrawal .branch) = .ok (passed 2 false) :=
  ⟨selected_awaits (by decide +kernel) (by decide +kernel), one_item_covered _ _ (by decide +kernel), by decide +kernel⟩

/-- The drawer's unit takes the RELEASE, is not present, or has one waiting; a ceiling of 100 is passed; 38 frames wait. -/
theorem witness_PostingReleases : (selected 3 0 branch).Awaits 3 0 9 ∧ checking.firstRefusal 3 (requestOf 22 1000) = none ∧
    checking.checksFrom8 3 (requestOf 22 1000) (sampleCode 22 .withdrawal .branch) = .ok (passed 2 false) ∧
    atCentre.EntriesSound ∧ parseAnswer (answerBytes true) = some (answer true) ∧
    atCentre.entry 0 = some (waiting .waitingCentre .central) ∧ branch.tables.serving 3 = true ∧
    branch.tables.serving 4 = false ∧ branch.offerAnswer 3 2 = .taken ∧
    (withUnit 3 2 (fun u => { u with presence := .absent }) branch).offerAnswer 3 2 = .undelivered ∧
    { msg := .release, cls := .urgent } ∈
      ((withUnit 3 2 (fun u => { u with queue := [{ msg := .release, cls := .urgent }] }) branch).unit 3 2).queue ∧
    (queued 38 branch).port.queue.length + 26 ≤ 64 :=
  ⟨selected_awaits (by decide +kernel) (by decide +kernel), by decide +kernel, by decide +kernel,
    one_entry_sound _ _ (by decide), by decide +kernel⟩

/-- The branch with currency 1 at a buy rate of 108,430,000 and a NONCASH code 30 that takes it. -/
def foreign : State := { checking with tables := { tables with
  currencies := wr tables.currencies 1 (some { letters := [68, 69, 70], exponent := 2, faces := [5], tolerance := 0, ceiling := 0 })
  rates := wr tables.rates 0 (some { buy := 108430000, sell := 0 })
  codes := wr tables.codes 3 (some { sampleCode 30 .nonCash .branch with allowed := [1] }) } }

/-- The foreign amount of 03: 50,000 of currency 1 makes an E of 54,215, over the limit, and the rate read is captured. -/
theorem test_captured_rate :
    let r : Request := { requestOf 30 50000 with cur := 1 }
    let e : CodeEntry := { sampleCode 30 .nonCash .branch with allowed := [1] }
    foreign.firstRefusal 3 r = none ∧
    (match foreign.checksFrom8 3 r e with
      | .ok x => (x.equiv, x.override, x.claim, x.items, (foreign.capture 3 r e x).rate)
      | .error _ => (none, false, 0, [], none)) = (some 54215, true, 2, [], some 108430000) := by decide +kernel

theorem witness_NotesAndExchangeFigures : (∀ f ∈ homeFaces, 0 < f) ∧ 0 < 5 := by decide +kernel

/-! Drawers. -/

/-- Counts of 3 notes of 5 and of n of 500. -/
def keyed (n : Nat) : List (List Nat) := [[3, n], [], [], []]

/-- Position 11 in reply to the select, its supervisor 3310 signed on. -/
def supervising (s : State) : State := selected 11 0 s

def inState (x : DrawerState) (n : Nat) (s : State) : State := withDrawer 3 (fun d => { d with state := x, recount := n }) s

theorem witness_CountsChecked : (supervising branch).Awaits 11 0 9 ∧ (selected 3 0 branch).Awaits 3 0 9 ∧
    ((selected 3 0 branch).accepted 3 0 9 |>.copyRole 3).supervisor 3 = false ∧
    ((supervising branch).accepted 11 0 9 |>.copyRole 11).supervisor 11 = true ∧
    branch.tables.ownDrawer 3 = 3 ∧ branch.tables.ownDrawer 11 = 11 ∧
    (branch.drawer 3).physical = .closed ∧ (branch.drawer 3).releasePending = false ∧
    ((inState .balanced 0 branch).drawer 3).state = .balanced ∧
    ((inState .awaitingAccept 2 branch).drawer 3).state = .awaitingAccept ∧
    countAt ((withDrawer 3 (fun d => { d with reserved := putCount CountTable.zero 0 2 1 }) branch).drawer 3).reserved 0 2 = 1 ∧
    ((keyed 1).getD 0 []).length = (tables.faces 0).length ∧ (([] : List Nat)).length ≠ (tables.faces 0).length ∧
    valueOf [5, 500] [3, 1] = 515 ∧ 999999999999 < valueOf [5, 500] [3, 2000000000] ∧
    (signedOff.session 3).state = .signedOff ∧ (suspended.session 3).state = .suspended ∧
    -63 ≤ (spaceOf 1 branch).generalSpace ∧ (spaceOf 0 branch).generalSpace < -63 ∧
    ((supervising (inState .balanced 1 branch)).accepted 11 0 9 |>.copyRole 11).supervisor 11 = true ∧
    branch.day.state ≠ .cutoff ∧ ¬ (branch.generalSpace < 1 ∨ branch.journal.closed = true) ∧
    (inDay .cutoff branch).day.state = .cutoff ∧ (branch.drawer 3).state ≠ .balanced :=
  ⟨selected_awaits (by decide +kernel) (by decide +kernel), selected_awaits (by decide +kernel) (by decide +kernel),
    by decide +kernel⟩

/-- A count of 50,015 is out of a book of 50,000 by more than the tolerance of 10; one of 50,010 is not. -/
theorem witness_DrawerProof : (selected 3 0 branch).Awaits 3 0 9 ∧
    firstFailure (checking.countChecks 3 3 (keyed 100)) = none ∧
    firstFailure (((supervising (inState .awaitingAccept 2 branch)).accepted 11 0 9 |>.copyRole 11).acceptDiffChecks 11 3
      (keyed 100)) = none ∧
    ((valueOf [5, 500] [2, 100] : Int) - branch.bookValue 3 0).natAbs ≤ 10 ∧
    10 < ((valueOf [5, 500] [3, 100] : Int) - branch.bookValue 3 0).natAbs ∧
    branch.tables.currency 1 = none ∧
    (branch.drawer 3).state = .active ∧ ((inState .outOfBalance 1 branch).drawer 3).recount = 1 ∧
    ((inState .outOfBalance 2 branch).drawer 3).recount = 2 :=
  ⟨selected_awaits (by decide +kernel) (by decide +kernel), by decide +kernel⟩

/-- A drawer with a serving unit and one without, in each physical state and with each release flag. -/
theorem witness_DrawerUnitMessages : (selected 3 2 branch).Awaits 3 2 9 ∧ branch.tables.serving 3 = true ∧
    branch.tables.serving 4 = false ∧ (branch.drawer 3).physical = .closed ∧ (branch.drawer 3).releasePending = false ∧
    (branch.drawer 3).releaseDelivered = false ∧ (queued 62 branch).port.queue.length + 2 ≤ 64 ∧
    1 ≤ (spaceOf 65 branch).generalSpace ∧ (spaceOf 64 branch).generalSpace < 1 ∧ branch.tables.ownDrawer 3 = 3 ∧
    (inDay .noDay branch).day.state = .noDay ∧ branch.day.state ≠ .noDay ∧
    ((withDrawer 3 (fun d => { d with openAlarm := some 1, physical := .opened }) branch).drawer 3).openAlarm ≠ none ∧
    ((withDrawer 3 (fun d => { d with releaseDelivered := true }) branch).drawer 3).releaseDelivered = true :=
  ⟨selected_awaits (by decide +kernel) (by decide +kernel), by decide +kernel⟩

/-! Passbooks. -/

/-- A book of layout 1 at page 3, line 4: the last place of the last page. -/
def lastPlace : Book := { account := [65], layout := 1, page := 3, line := 4 }

/-- A job of one line, store place 0, still to send. -/
def oneLine : Job :=
  { account := [65], layout := 1, lines := [0], next := 1, confirmed := 0, page := 3, line := 4, owed := none
    pacing := some 1, bookWait := none }

/-- Position 3's printer holds the book and has the job, in a state and with a message in flight. -/
def printing (x : PrinterState) (f : Flight) (j : Job) (s : State) : State :=
  { s with
    printers := wr1 s.printers 3 { Printer.start with
      state := x, book := some lastPlace, job := some j, flight := f, lineWait := some 1 }
    store := wr s.store 0 (some { item := 7, date := date, mnemonic := [65], amount := 500, balance := none }) }

/-- Position 3's printer waits for the job's book. -/
def bookless (j : Job) (s : State) : State :=
  { s with printers := wr1 s.printers 3 { Printer.start with state := .waitBook, job := some { j with bookWait := some 1 } } }

/-- The layout of the sample book, and reports at the edges of its pages and lines. -/
theorem witness_BookInserted : (selected 3 1 branch).Awaits 3 1 9 ∧ branch.tables.layout 1 = some sampleLayout ∧
    (1 ≤ 3 ∧ 3 ≤ sampleLayout.pages ∧ 1 ≤ 4 ∧ 4 ≤ sampleLayout.lines) ∧ branch.tables.layout 7 = none ∧
    ((bookless oneLine branch).printer 3).state = .waitBook ∧
    ((bookless oneLine branch).printer 3).job = some { oneLine with bookWait := some 1 } ∧
    (branch.offerAnswer 3 1 = .taken) ∧
    ((printing .ready .none oneLine branch).printer 3).state = .ready :=
  ⟨selected_awaits (by decide +kernel) (by decide +kernel), by decide +kernel, by decide, by decide +kernel⟩

theorem witness_PrinterStops : (selected 3 1 (printing .printing (.line true) oneLine branch)).Awaits 3 1 9 ∧
    ((printing .printing (.line true) oneLine branch).printer 3).state = .printing ∧
    ((printing .fault .none oneLine branch).printer 3).state = .fault ∧
    ((printing .jammed .none oneLine branch).printer 3).state = .jammed ∧
    (printing .fault .none oneLine branch).offerAnswer 3 1 = .taken ∧
    ((printing .printing (.line true) oneLine branch).printer 3).lineWait ≠ none :=
  ⟨selected_awaits (by decide +kernel) (by decide +kernel), by decide +kernel⟩

/-- A line confirmed at the last free slot of the upstream queue and at a full queue, as the job's last line and not. -/
theorem witness_LineConfirmedAndPageTurned : (selected 3 1 (printing .printing (.line true) oneLine branch)).Awaits 3 1 9 ∧
    ((printing .printing (.line true) oneLine branch).printer 3).job = some oneLine ∧
    ((printing .printing (.line true) oneLine branch).printer 3).book = some lastPlace ∧
    oneLine.lines[oneLine.confirmed]? = some 0 ∧
    (rd (printing .printing (.line true) oneLine branch).store 0 none).isSome = true ∧
    oneLine.confirmed + 1 = oneLine.lines.length ∧ ({ oneLine with lines := [0, 1] } : Job).lines.length ≠ 1 ∧
    (queued 63 branch).port.queue.length < 64 ∧ 64 ≤ (queued 64 branch).port.queue.length ∧
    ((printing .printing (.turn true) oneLine branch).printer 3).flight = .turn true ∧
    ¬ ((printing .ready .none oneLine branch).printer 3).state = .printing ∧ branch.offerAnswer 3 1 = .taken ∧
    (withUnit 3 1 (fun u => { u with queue := List.replicate 4 { msg := .eject, cls := .print } }) branch).offerAnswer 3 1 =
      .full :=
  ⟨selected_awaits (by decide +kernel) (by decide +kernel), by decide +kernel⟩

theorem witness_PacingExpiryAndQueueRoom :
    ((printing .ready .none oneLine branch).printer 3).job = some oneLine ∧ oneLine.pacing ≠ none ∧
    ({ oneLine with next := 2 } : Job).lines.length < ({ oneLine with next := 2 } : Job).next ∧
    ((printing .ready .none oneLine branch).printer 3).book = some lastPlace ∧
    oneLine.lines[oneLine.next - 1]? = some 0 ∧ branch.tables.layout lastPlace.layout = some sampleLayout ∧
    lastPlace.line ≤ sampleLayout.lines ∧ (printing .ready .none oneLine branch).offerAnswer 3 1 = .taken ∧
    branch.tables.layout 0 = none ∧ sampleLayout.lines < 5 ∧ 2 < sampleLayout.pages ∧ sampleLayout.pages ≤ 3 ∧
    sampleLayout.autoTurn = true ∧ ({ sampleLayout with autoTurn := false } : LayoutEntry).autoTurn = false ∧
    (branch.unit 3 1).presence = .present ∧ (branch.printer 3).job = none ∧
    (branch.unit 3 1).queue.length + (branch.printer 3).kept.length ≤ 4 := by decide +kernel

/-- An entry whose code prints, for the account of the book. -/
def printable : Entry :=
  { waiting .waitingCentre .central with
    req := { captured .central with
      snap := { (captured .central).snap with print := true }, account := some lastPlace.account } }

/-- The book and its job in a READY and in a PRINTING printer, with a place for the item, and a printer without a book. -/
theorem witness_PostingPrints :
    (withEntry printable (printing .ready .none oneLine branch)).EntriesSound ∧
    parseAnswer (answerBytes true) = some (answer true) ∧ (answer true).approve = true ∧
    (withEntry printable branch).entry 0 = some printable ∧ printable.state = .waitingCentre ∧
    printable.req.snap.print = true ∧ printable.req.snap.cls ≠ .inquiry ∧
    (∀ d, (withEntry printable branch).tables.serving d = true →
      ((withEntry printable branch).unit d 2).presence = .present) ∧
    ((printing .ready .none oneLine branch).printer 3).book = some lastPlace ∧
    printable.req.account = some lastPlace.account ∧ oneLine.lines.length + 1 ≤ 32 ∧ (branch.printer 3).book = none ∧
    ((printing .printing (.line true) oneLine branch).printer 3).state = .printing :=
  ⟨one_entry_sound _ _ (by decide), by decide +kernel, rfl, by decide +kernel, rfl, rfl, by decide, drawers_served rfl rfl,
    by decide +kernel⟩

/-- R159: the current item joins the job's lines at the lowest free place of the store. -/
theorem test_posting_prints :
    ((after (.answer 1 (answerBytes true)) (withEntry printable (printing .printing (.line true) oneLine branch))).printer 3).job.map
      (·.lines) = some [0, 1] := by decide +kernel

theorem witness_BookWaitExpiryAndOwedNotice :
    ((bookless { oneLine with owed := some 7 } branch).printer 3).job = some { oneLine with owed := some 7, bookWait := some 1 } ∧
    ((bookless oneLine branch).printer 3).book = none ∧ (queued 63 branch).port.queue.length < 64 ∧
    64 ≤ (queued 64 branch).port.queue.length ∧ ((bookless oneLine branch).printer 3).carried = none ∧
    oneLine.confirmed ≠ oneLine.lines.length := by decide +kernel

/-! Screens and the station line. -/

theorem witness_FormSelected : (selected 3 0 branch).Awaits 3 0 9 ∧ branch.tables.position 3 = some samplePosition ∧
    0 ∈ samplePosition.forms ∧ 1 ∈ samplePosition.forms ∧ ¬ 2 ∈ samplePosition.forms ∧
    branch.tables.form 1 = some (sampleForm true) ∧ (sampleForm true).selectable = true ∧ (branch.screen 3).form = 0 ∧
    (branch.screen 3).urgent = false :=
  ⟨selected_awaits (by decide +kernel) (by decide +kernel), by decide +kernel, by decide, by decide, by decide, by decide +kernel,
    rfl, by decide +kernel⟩

/-- Nothing waits for a line on which no unit is PRESENT, no roll call is due and no survey runs. -/
theorem nothing_waits {s : State} (h : ∀ p u, (s.unit p u).presence ≠ .present) (hr : s.line.rollWaiting = false)
    (hs : s.survey.state ≠ .running) : ∀ c, ¬ s.Waits c := by
  rintro (_ | _ | _ | _ | _ | _) hw
  · obtain ⟨p, u, _, _, _, hp, _⟩ := hw
    exact h p u hp
  · exact absurd (hr.symm.trans hw) (by decide)
  · obtain ⟨p, u, _, _, _, hp, _⟩ := hw
    exact h p u hp
  · obtain ⟨p, u, _, _, _, hp, _⟩ := hw
    exact h p u hp
  · obtain ⟨p, u, _, _, _, hp, _⟩ := hw
    exact h p u hp
  · exact hs hw

/-- A line with no unit PRESENT, in which a roll call or a survey may wait. -/
def quiet (roll : Bool) (x : Survey) : State :=
  { State.reset with line := { Line.start [] with rollWaiting := roll }, survey := x }

theorem quiet_absent (roll : Bool) (x : Survey) (p u : Nat) : ((quiet roll x).unit p u).presence ≠ .present := by
  have h : (quiet roll x).posRec p = PosRec.start := rd1_replicate ..
  have k : (quiet roll x).unit p u = UnitRec.start := by
    unfold State.unit
    rw [h]
    exact rd_replicate ..
  rw [k]
  decide

/-- A survey of position 3 alone, at its presence probe or at its second ECHO probe. -/
def probing (kind : ProbeKind) (mode : SurveyMode) : Survey :=
  { Survey.start with state := .running, mode := mode, list := [3], rest := [3], probes := [kind] }

/-- An idle line, a roll call alone, and a survey alone at each kind of probe. -/
theorem witness_GrantServesOneRequester : (quiet false Survey.start).line.engine = .idle ∧
    (∀ c, ¬ (quiet false Survey.start).Waits c) ∧ (quiet true Survey.start).Grants .rollCall ∧
    (∀ kind mode, (quiet false (probing kind mode)).Grants .survey) ∧
    (probing (.echo 0 2) .echo).probes = [.echo 0 2] := by
  refine ⟨rfl, nothing_waits (quiet_absent _ _) rfl (by decide), ⟨rfl, ?_⟩, fun kind mode => ⟨rfl, ?_⟩, rfl⟩
  · rintro (_ | _ | _ | _ | _ | _) hw
    · obtain ⟨p, u, _, _, _, hp, _⟩ := hw
      exact absurd hp (quiet_absent _ _ p u)
    all_goals exact (show 2 ≤ LineClass.priority _ by decide)
  · have none : ∀ {p u}, ((quiet false (probing kind mode)).unit p u).presence = .present → False :=
      fun h => quiet_absent _ _ _ _ h
    rintro (_ | _ | _ | _ | _ | _) hw
    · obtain ⟨p, u, _, _, _, hp, _⟩ := hw
      exact (none hp).elim
    · exact absurd (show false = true from hw) (by decide)
    · obtain ⟨p, u, _, _, _, hp, _⟩ := hw
      exact (none hp).elim
    · obtain ⟨p, u, _, _, _, hp, _⟩ := hw
      exact (none hp).elim
    · obtain ⟨p, u, _, _, _, hp, _⟩ := hw
      exact (none hp).elim
    · exact Nat.le_refl _

/-- A position record with unit u alone PRESENT, with an outbound queue and an attention. -/
def onlyUnit (u : Nat) (x : List Queued) (attention : Bool) : PosRec :=
  { missed := 0
    units := wr (Vector.replicate 3 UnitRec.start) u
      { UnitRec.start with presence := .present, queue := x, attention := attention } }

/-- A line whose one PRESENT unit is unit u of position 3. -/
def alone (u : Nat) (x : List Queued) (attention : Bool) : State :=
  { quiet false Survey.start with
    tables := tables
    line := { Line.start [] with
      rollWaiting := false, recs := wr1 (Vector.replicate 24 PosRec.start) 3 (onlyUnit u x attention) } }

/-- Rows dirty, and clear-pending set or not, on position 3's screen. -/
def unsent (rows : List Nat) (clear : Bool) (s : State) : State :=
  { s with screens := wr1 s.screens 3 { s.screen 3 with dirty := rows, clearPending := clear } }

theorem alone_only {u : Nat} (x : List Queued) (attention : Bool) (p v : Nat)
    (h : ((alone u x attention).unit p v).presence = .present) : p = 3 ∧ v = u := by
  have k : (alone u x attention).unit p v = rd (if 3 = p ∧ 1 ≤ 3 ∧ 3 ≤ 24 then onlyUnit u x attention else PosRec.start).units v
      UnitRec.start := by
    unfold State.unit State.posRec
    rw [show (alone u x attention).line.recs = wr1 (Vector.replicate 24 PosRec.start) 3 (onlyUnit u x attention) from rfl,
      rd1_wr1, rd1_replicate]
  rw [k] at h
  by_cases hp : 3 = p
  · refine ⟨hp.symm, ?_⟩
    rw [if_pos ⟨hp, by decide⟩] at h
    by_cases hv : u = v
    · exact hv.symm
    · unfold onlyUnit at h
      rw [rd_wr_other _ hv, rd_replicate] at h
      cases h
  · rw [if_neg (fun k => hp k.1)] at h
    unfold PosRec.start at h
    rw [rd_replicate] at h
    cases h

/-- With one PRESENT unit, which waits in one class, and neither roll call nor survey due, the arbiter grants that class to it. -/
theorem alone_granted {s : State} {c : LineClass} {u : Nat} (hu : u ≤ 2)
    (only : ∀ p v, (s.unit p v).presence = .present → p = 3 ∧ v = u) (hr : s.line.rollWaiting = false)
    (hs : s.survey.state ≠ .running) (hc : c ≠ .rollCall ∧ c ≠ .survey) (hq : s.Requests c 3 u)
    (others : ∀ d, s.Requests d 3 u → d = c) (last : ∀ d, s.line.lastServed d = none) : s.GrantsTo c 3 u := by
  have key : ∀ d p v, s.Requests d p v → d = c ∧ p = 3 ∧ v = u := by
    intro d p v h
    obtain ⟨rfl, rfl⟩ := only p v h.1
    exact ⟨others d h, rfl, rfl⟩
  refine ⟨⟨?_, ?_⟩, by decide, by decide, hu, hq, ?_, ?_⟩
  · rcases c with _ | _ | _ | _ | _ | _
    · exact ⟨3, u, by decide, by decide, hu, hq⟩
    · exact absurd rfl hc.1
    · exact ⟨3, u, by decide, by decide, hu, hq⟩
    · exact ⟨3, u, by decide, by decide, hu, hq⟩
    · exact ⟨3, u, by decide, by decide, hu, hq⟩
    · exact absurd rfl hc.2
  · have same : ∀ d, s.Waits d → d = c := by
      rintro (_ | _ | _ | _ | _ | _) h
      · obtain ⟨p, v, _, _, _, h⟩ := h
        exact (key _ p v h).1
      · exact absurd (hr.symm.trans h) (by decide)
      · obtain ⟨p, v, _, _, _, h⟩ := h
        exact (key _ p v h).1
      · obtain ⟨p, v, _, _, _, h⟩ := h
        exact (key _ p v h).1
      · obtain ⟨p, v, _, _, _, h⟩ := h
        exact (key _ p v h).1
      · exact absurd h hs
    intro d h
    rw [same d h]
    split <;> exact Nat.le_refl _
  · intro q v h
    rw [last c] at h
    cases h
  · intro q v _ _ _ h
    obtain ⟨_, rfl, rfl⟩ := key c q v h
    exact Nat.le_refl _

theorem alone_unserved {u : Nat} {x : List Queued} {attention : Bool} (d : LineClass) :
    (alone u x attention).line.lastServed d = none := by
  cases d <;> rfl

/-- A release for a drawer, an attention, a printer message and a row for a screen, each alone on the line. -/
theorem witness_GrantServesOneRequester_units :
    (alone 2 [{ msg := .release, cls := .urgent }] false).GrantsTo .urgent 3 2 ∧ (alone 0 [] true).GrantsTo .service 3 0 ∧
    (alone 1 [{ msg := .eject, cls := .print }] false).GrantsTo .print 3 1 ∧
    (alone 0 [{ msg := .clear, cls := .refresh }] false).GrantsTo .refresh 3 0 := by
  refine ⟨alone_granted (by decide) (alone_only _ _) rfl (by decide) (by decide)
      ⟨rfl, Or.inl ⟨rfl, _, rfl, rfl⟩⟩ ?_ alone_unserved,
    alone_granted (by decide) (alone_only _ _) rfl (by decide) (by decide) ⟨rfl, rfl⟩ ?_ alone_unserved,
    alone_granted (by decide) (alone_only _ _) rfl (by decide) (by decide) ⟨rfl, rfl, by decide⟩ ?_ alone_unserved,
    alone_granted (by decide) (alone_only _ _) rfl (by decide) (by decide)
      ⟨rfl, rfl, Or.inl ⟨_, rfl, rfl⟩⟩ ?_ alone_unserved⟩
  · rintro (_ | _ | _ | _ | _ | _) ⟨_, h⟩
    · rfl
    · exact h.elim
    · cases h
    · cases h.1
    · cases h.1
    · exact h.elim
  · rintro (_ | _ | _ | _ | _ | _) ⟨_, h⟩
    · obtain ⟨h, _⟩ | ⟨_, ⟨q, h, _⟩ | ⟨_, h⟩⟩ := h
      · cases h
      · cases h
      · exact absurd rfl h
    · exact h.elim
    · rfl
    · cases h.1
    · obtain ⟨_, ⟨q, h, _⟩ | ⟨_, h | h⟩⟩ := h
      · cases h
      · exact absurd rfl h
      · cases h
    · exact h.elim
  · rintro (_ | _ | _ | _ | _ | _) ⟨_, h⟩
    · obtain ⟨h, _⟩ | ⟨h, _⟩ := h <;> cases h
    · exact h.elim
    · cases h
    · rfl
    · cases h.1
    · exact h.elim
  · rintro (_ | _ | _ | _ | _ | _) ⟨_, h⟩
    · obtain ⟨h, _⟩ | ⟨_, ⟨q, h, k⟩ | ⟨h, _⟩⟩ := h
      · cases h
      · cases h
        cases k
      · cases h
    · exact h.elim
    · cases h
    · cases h.1
    · rfl
    · exact h.elim

theorem unsent_granted (rows : List Nat) (clear : Bool)
    (hu : ((unsent rows clear (alone 0 [] false)).screen 3).urgentRows tables = [])
    (hr : ((unsent rows clear (alone 0 [] false)).screen 3).otherRows tables ≠ [] ∨
      ((unsent rows clear (alone 0 [] false)).screen 3).clearPending = true) :
    (unsent rows clear (alone 0 [] false)).GrantsTo .refresh 3 0 := by
  refine alone_granted (by decide) (alone_only [] false) rfl (show SurveyState.idle ≠ .running by decide) (by decide)
    ⟨rfl, rfl, Or.inr ⟨rfl, hr⟩⟩ ?_ alone_unserved
  rintro (_ | _ | _ | _ | _ | _) ⟨_, h⟩
  · obtain ⟨h, _⟩ | ⟨_, ⟨q, h, _⟩ | ⟨_, h⟩⟩ := h
    · cases h
    · cases h
    · exact absurd hu h
  · exact h.elim
  · cases h
  · cases h.1
  · rfl
  · exact h.elim

/-- A screen with an empty queue: a CLEAR that needs no dirty row, and a dirty row 24. -/
theorem witness_ComposerBuildsOnGrant :
    (unsent [] true (alone 0 [] false)).GrantsTo .refresh 3 0 ∧ (unsent [24] false (alone 0 [] false)).GrantsTo .refresh 3 0 ∧
    (alone 0 [] false).line.engine = .idle ∧ ((alone 0 [] false).unit 3 0).queue = [] ∧
    24 ∈ ((unsent [24] false (alone 0 [] false)).screen 3).otherRows tables ∧
    ¬ 24 ∈ ((unsent [24] false (alone 0 [] false)).screen 3).blankKnown :=
  ⟨unsent_granted _ _ (by decide +kernel) (by decide +kernel), unsent_granted _ _ (by decide +kernel) (by decide +kernel), rfl, rfl,
    by decide +kernel⟩

/-- Roll call with slots of positions 3 and 11 to come, and with the last slot alone. -/
theorem witness_RollCallSlots : (withEngine (.rollCall [3, 11]) branch).line.engine = .rollCall (3 :: [11]) ∧
    (withEngine (.rollCall [24]) branch).line.engine = .rollCall (24 :: []) ∧
    (withEngine (.rollCall [3, 11]) branch).line.discarding = false ∧
    (withEngine (.rollCall [3, 11]) branch).line.replyWait ≠ none ∧ (branch.posRec 3).missed ≠ 2 ∧
    (branch.unit 3 0).presence = .present ∧ ((alone 0 [] false).unit 3 1).presence ≠ .present ∧
    (rd1 (wr1 (Vector.replicate 24 PosRec.start) 3 { PosRec.start with missed := 2 }) 3 PosRec.start).missed = 2 ∧
    2 ∈ tables.installed 3 ∧ branch.line.rollTimer = some 4 := by decide +kernel

/-- A transfer of a drawer release, with a retry left and with none. -/
def transferring (made : Nat) : State :=
  withEngine (.waitReply { pos := 3, unit := 2, made := made, limit := 2 }) (alone 2 [{ msg := .release, cls := .urgent }] false)

theorem witness_OutboundTransferReplies :
    (transferring 1).line.engine = .waitReply { pos := 3, unit := 2, made := 1, limit := 2 } ∧
    (transferring 1).line.discarding = false ∧
    ((transferring 1).unit 3 2).queue = { msg := .release, cls := .urgent } :: [] ∧
    (transferring 1).tables.serving 3 = true ∧ (transferring 1).line.replyWait ≠ none ∧ 1 < 2 ∧
    (transferring 2).line.engine = .waitReply { pos := 3, unit := 2, made := 2, limit := 2 } ∧
    (3, 2, 1) ≠ (3, 2, ((transferring 1).unit 3 2).outSeq) := by decide +kernel

/-- A frame that fails its check, one that fails its form and a sound message of another unit, and the engine in each state. -/
theorem witness_InboundTransferAndDiscards :
    parseStation [0x03, 0x20, 0x00, 0x09, 0x00, 0x00] = some .badCheck ∧ parseStation [0x03, 0x07] = some .badForm ∧
    parseStation [0x03] = none ∧ parseStation (messageFrame 4 0 1 9 (be 2 1401)) = some (.message 4 0 9 (.signOn 1401)) ∧
    branch.line.engine = .idle ∧
    (selected 3 0 branch).line.engine = .selectedSend { pos := 3, unit := 0, made := 0, limit := 2 } ∧
    (selected 3 0 branch).line.discarding = false ∧ (selected 3 0 branch).line.replyWait ≠ none ∧ ¬ 2 < 2 := by
  decide +kernel

/-- A survey's presence probe and its first ECHO probe, each awaited, with one position left and with more. -/
theorem witness_SurveyRuns :
    (withEngine (.waitProbe 3 .presence false) (quiet false (probing .presence .presence))).line.engine =
      .waitProbe 3 .presence false ∧
    (withEngine (.waitProbe 3 (.echo 0 1) true) (quiet false (probing (.echo 0 2) .echo))).line.engine =
      .waitProbe 3 (.echo 0 1) true ∧
    (withEngine (.waitProbe 3 .presence false) (quiet false (probing .presence .presence))).line.replyWait ≠ none ∧
    (quiet false Survey.start).line.discarding = false ∧ Survey.start.state ≠ .running ∧
    (probing .presence .presence).rest.drop 1 = [] ∧
    parseStation [0x03, 0x20, 0x00, 0x09, 0x00, 0x00] = some .badCheck := by decide +kernel

/-! The rules of the whole machine. -/

/-- A unit's frame and an office-link frame that carry a command, at the ends of their addresses. -/
theorem witness_StationBytesAreTheirCommand : Instr.wellFormed (.signOn 24 255 65535) = true ∧
    stationFrame (.signOn 24 255 65535) = some (messageFrame 24 0 1 255 [255, 255]) ∧
    (stationFrame (.rollAnswer 1 7 0)).isSome = true ∧ (stationFrame (.accept 24 2 255)).isSome = true := by decide +kernel

theorem witness_OfficeBytesAreTheirCommand : Instr.wellFormed (.lock 65535 [1]) = true ∧
    officeParts (.lock 65535 [1]) = some (2, 65535, [5, 1]) ∧ (officeParts (.batchAck 0)).isSome = true ∧
    (officeParts (.restart 7 [1] 0)).isSome = true ∧ 1 ≤ State.reset.port.node ∧ State.reset.port.node ≤ 254 ∧
    State.reset.port.straps = 0 := by decide +kernel

theorem witness_CapacitiesKept : ((quiet true Survey.start).withPending [.olrdyDeasserted]).Bounded ∧
    ((quiet true Survey.start).withPending [.olrdyDeasserted]).WindowSound ∧
    step ((quiet true Survey.start).withPending [.olrdyDeasserted]) = .next (quiet true Survey.start) := by
  have h : ∀ p, ((quiet true Survey.start).withPending [.olrdyDeasserted]).posRec p = PosRec.start := fun p => rd1_replicate ..
  refine ⟨⟨Nat.zero_le _, fun p u => ?_, ?_, Nat.zero_le _, show 0 < 8 by decide, fun p => ?_, Nat.zero_le _, Nat.zero_le _⟩,
    ⟨Nat.le_refl 0, Nat.le_refl 0, Nat.le_refl 0, show 0 ≤ 4 by decide, fun _ => rfl⟩, rfl⟩
  · have k : ((quiet true Survey.start).withPending [.olrdyDeasserted]).unit p u = UnitRec.start := by
      unfold State.unit
      rw [h]
      exact rd_replicate ..
    rw [k]
    decide
  · unfold Counters.Bounded
    decide
  · rw [h]
    decide

/-- A batch of four blocks with one acknowledged and three sent, and the acknowledgment of the second. -/
theorem witness_CapacitiesKept_window : sending.WindowSound ∧ goesOn (step (sending.withPending [.batchAck 2])) :=
  ⟨⟨by decide +kernel, by decide +kernel, by decide +kernel, by decide +kernel, by decide +kernel⟩, _, rfl⟩

theorem witness_PendingTableKept : atCentre.EntriesSound ∧ (atOverride .branch).OverridesSound ∧
    goesOn (step (atCentre.withPending [.olrdyAsserted])) ∧ goesOn (step ((atOverride .branch).withPending [.overrideWaitExpiry 0])) := by
  refine ⟨one_entry_sound _ _ (by decide),
    ⟨by decide, fun i => ⟨fun h => ⟨waiting .waitingOverride .branch, ?_, rfl, rfl⟩,
      fun ⟨e, h, _⟩ => by rw [(one_entry_only h).1]; decide⟩, by decide⟩, ⟨_, rfl⟩, _, rfl⟩
  obtain rfl := List.mem_singleton.1 (show i ∈ [0] from h)
  rfl

theorem witness_JournalNumberedAndAppended : branch.JournalNumbered ∧
    goesOn (step (branch.withPending [.reopenDay 1 []])) ∧
    Instr.reopenDay 1 [] ≠ .openDay 1 [] ∧ branch.journal.records.length = 1 := by
  refine ⟨?_, ⟨_, rfl⟩, by decide, rfl⟩
  intro i r h
  rcases i with _ | i
  · cases h
    rfl
  · cases h

/-- A withdrawal of 500 at the centre, with its claim and its note, and the expiry that takes both. -/
theorem witness_JournalPlacesKept : pledged.JournalSound ∧ goesOn (step (pledged.withPending [.approvalWaitExpiry 0])) :=
  ⟨pledged_journal, _, rfl⟩

theorem witness_ReservationsKept : pledged.ReservationsSound ∧ goesOn (step (pledged.withPending [.approvalWaitExpiry 0])) :=
  ⟨pledged_reservations, _, rfl⟩

/-- Commands that carry no bytes, and what they answer. -/
theorem witness_LockAndTablesHold : exec .olrdyDeasserted branch =
    .next ({ branch with port := { branch.port with olrdy := false } } : State) ∧
    Instr.olrdyDeasserted ≠ .powerOn 0 true ∧ Instr.olrdyDeasserted ≠ .tableWrite 0 [] ∧
    exec .dayClockTick branch = .next ({ branch with day := { branch.day with clock := 1 } } : State) ∧
    Instr.dayClockTick ≠ .answer 1 [] := ⟨rfl, by decide, by decide, rfl, by decide⟩
/-! ### One step each -/

/-- R52: teller 1401 signs on at position 3, with the role of the TELLERS entry. -/
theorem test_sign_on : (after (.signOn 3 9 1401) (selected 3 0 signedOff)).session 3 =
    { state := .signedOn, teller := some 1401, role := some .clerk } := by decide +kernel

/-- R103: a withdrawal of two notes of 500 from drawer 3 leaves 98 of its 100 and releases the drawer. -/
theorem test_withdrawal_posted :
    countAt ((after (.request 3 9 (requestOf 22 1000)) (selected 3 0 branch)).drawer 3).book 0 2 = 98 ∧
    ((after (.request 3 9 (requestOf 22 1000)) (selected 3 0 branch)).drawer 3).releasePending = true := by decide +kernel

/-- R71: a central request is queued to the centre with tag 1 and its note is reserved. -/
theorem test_request_to_centre :
    ((after (.request 3 9 (requestOf 21 500)) (selected 3 0 branch)).entry 0).map (fun e => (e.tag, e.state)) =
      some (1, .waitingCentre) ∧
    countAt ((after (.request 3 9 (requestOf 21 500)) (selected 3 0 branch)).drawer 3).reserved 0 2 = 1 ∧
    (after (.request 3 9 (requestOf 21 500)) (selected 3 0 branch)).port.queue.length = 1 := by decide +kernel

/-- R193, R194: the acknowledgment of block 2 of 4 opens the window to block 4. -/
theorem test_batch_ack : (after (.batchAck 2) sending).day.acked = 2 ∧ (after (.batchAck 2) sending).day.sent = 4 ∧
    (after (.batchAck 2) sending).port.queue.length = 1 := by decide +kernel

/-- R116, R118: 500 over in the drawer is OUT_OF_BALANCE; 10 over is within the tolerance and BALANCED. -/
theorem test_count : ((after (.count 3 9 3 (keyed 101)) (selected 3 0 branch)).drawer 3).state = .outOfBalance ∧
    ((after (.count 3 9 3 [[2, 100], [], [], []]) (selected 3 0 branch)).drawer 3).state = .balanced := by decide +kernel

/-- R149: form 1 becomes current, every row dirty. -/
theorem test_form : ((after (.form 3 9 1) (selected 3 0 branch)).screen 3).form = 1 ∧
    ((after (.form 3 9 1) (selected 3 0 branch)).screen 3).dirty.length = 24 := by decide +kernel

end Sys2Proof.Tests
end

