-- ==== Sys2Proof/Proofs/ScreenOutcomes.lean ====
section
/-! What an outcome shown at a position leaves on the screens (R137), and whom a copied role leaves signed on (R51). -/

namespace Sys2Proof.Machine

namespace Screen

variable (t : Tables) (sc : Screen)

@[simp] theorem settle_last : (sc.settle t).last = sc.last := by
  unfold settle
  split
  · rfl
  · rfl

@[simp] theorem settle_view : (sc.settle t).view = sc.view := by
  unfold settle
  split
  · rfl
  · rfl

@[simp] theorem takeOutcome_last (o : Shown) : (sc.takeOutcome t o).last = some o := rfl
@[simp] theorem takeOutcome_view (o : Shown) :
    (sc.takeOutcome t o).view = { sc.view with stateMsg := some (.shown o) } := rfl

end Screen

namespace State

variable (s : State)

theorem screen_onScreen_same {p : Nat} (hp : 1 ≤ p ∧ p ≤ 24) (f : Tables → Screen → Screen) :
    (s.onScreen p f).screen p = f s.tables (s.screen p) := by
  unfold onScreen
  rw [screen_setScreen, if_pos ⟨rfl, hp⟩]

theorem screen_onScreen_other {p q : Nat} (h : q ≠ p) (f : Tables → Screen → Screen) :
    (s.onScreen p f).screen q = s.screen q := by
  unfold onScreen
  rw [screen_setScreen, if_neg fun hc => h hc.1.symm]

theorem showAt_shows {p : Nat} (hp : 1 ≤ p ∧ p ≤ 24) (o : Shown) : Shows (s.showAt p o) p o := by
  unfold Shows showAt
  rw [screen_onScreen_same s hp]
  simp

theorem screen_showAt_other {p q : Nat} (h : q ≠ p) (o : Shown) : (s.showAt p o).screen q = s.screen q :=
  screen_onScreen_other s h _

theorem showAt_eq (p : Nat) (o : Shown) : s.showAt p o = { s with screens := (s.showAt p o).screens } := rfl

/-- The three facts above as the statements on messages ask for them: the one outcome of an event is shown at the sender. -/
theorem shown_at_sender {out : Host.Outcome State Fault Refusal} {p : Nat} {o : Shown} (h : out = .next (s.showAt p o))
    (hp : 1 ≤ p ∧ p ≤ 24) :
    ∃ u : State, out = .next u ∧ u = { s with screens := u.screens } ∧ Shows u p o ∧
      ∀ q, q ≠ p → u.screen q = s.screen q :=
  ⟨s.showAt p o, h, s.showAt_eq p o, s.showAt_shows hp o, fun _ hq => s.screen_showAt_other hq o⟩

theorem session_setSession {p : Nat} (hp : 1 ≤ p ∧ p ≤ 24) (x : Session) : (s.setSession p x).session p = x := by
  unfold setSession
  split
  · assumption
  · rw [session_congr (sessionReport_within _ p .sessions (by decide)), session_withSessions, if_pos ⟨rfl, hp⟩]

theorem copyRole_teller {p : Nat} (hp : 1 ≤ p ∧ p ≤ 24) :
    ((s.copyRole p).session p).teller = (s.session p).teller := by
  unfold copyRole
  split
  · rfl
  · split
    · rw [session_setSession s hp]
    · rfl

@[simp] theorem copyRole_entry (p i : Nat) : (s.copyRole p).entry i = s.entry i :=
  entry_congr (copyRole_within s p .entries (by decide)) i

@[simp] theorem copyRole_tables (p : Nat) : (s.copyRole p).tables = s.tables := copyRole_within s p .tables (by decide)

end State

end Sys2Proof.Machine
end

