-- ==== Sys2Proof/Proofs/MessageDelivery.lean ====
section
/-! A message that the engine awaits reaches its owner in the state that has accepted it (R38, R40). -/

namespace Sys2Proof.Machine.State

variable {s : State}

/-- The steps of R38 in their order (ACCEPT, the unit's record, UNSELECT) come to the accepted state. -/
theorem endTransfer_setUnit_sendLine (s : State) (p u seq : Nat) :
    ((s.sendLine (.reply .accept p u seq)).setUnit p u
      { (s.sendLine (.reply .accept p u seq)).unit p u with attention := false, lastIn := some seq }).endTransfer =
    s.accepted p u seq := by
  simp only [endTransfer, idle, sendLine, setUnit, setPosRec, accepted, withLine, List.append_assoc, List.singleton_append]
  rfl

/-- A message that the engine awaits is no repeat: it is accepted and delivered (R38). -/
theorem receive_of_awaits {p u seq : Nat} (h : s.Awaits p u seq) (m : InMsg) :
    s.receive (.message p u seq m) = (s.accepted p u seq).deliver p m := by
  obtain ⟨⟨x, hx, rfl, rfl⟩, hd, hl⟩ := h
  have hnew : ((s.unit x.pos x.unit).lastIn == some seq) = false := beq_false_of_ne hl
  simp [receive, hd, hx, receiveInbound, acceptInbound, hnew, endTransfer_setUnit_sendLine]

@[simp] theorem accepted_entry (p u seq i : Nat) : (s.accepted p u seq).entry i = s.entry i := rfl
@[simp] theorem accepted_session (p u seq q : Nat) : (s.accepted p u seq).session q = s.session q := rfl
@[simp] theorem accepted_tables (p u seq : Nat) : (s.accepted p u seq).tables = s.tables := rfl

end Sys2Proof.Machine.State
end

