-- ==== Sys2Proof/Proofs/OverrideChecks.lean ====
section
/-! The checks of OVERRIDE (R81): what the search by tag finds, each failing check, and the message from arrival to outcome. -/

namespace Sys2Proof.Machine.State

variable {s : State} {p q seq tag decision i : Nat} {e : Entry} {grant : Bool}

/-! ### The search by tag -/

/-- Tags are distinct, so the entry that waits for an override under a tag is the one found (R69). -/
theorem overrideOf_of_entry (hs : s.EntriesSound) (he : s.entry i = some e) (hst : e.state = .waitingOverride) :
    s.overrideOf e.tag = some (i, e) := by
  cases hf : s.overrideOf e.tag with
  | none => simpa [hst] using findEntry_none s hf he
  | some found =>
    obtain ⟨j, f⟩ := found
    obtain ⟨hj, htest⟩ := findEntry_some s hf
    simp only [Bool.and_eq_true, beq_iff_eq] at htest
    obtain rfl := hs.tagsDistinct j i f e hj he htest.2
    rw [he] at hj
    cases hj
    rfl

theorem overrideOf_eq_none (h : ∀ i e, s.entry i = some e → e.tag = tag → e.state ≠ .waitingOverride) :
    s.overrideOf tag = none := by
  cases hf : s.overrideOf tag with
  | none => rfl
  | some found =>
    obtain ⟨j, f⟩ := found
    obtain ⟨hj, htest⟩ := findEntry_some s hf
    simp only [Bool.and_eq_true, beq_iff_eq] at htest
    exact absurd htest.1 (h j f hj htest.2)

/-! ### The checks in their order -/

theorem decideOverride_not_supervisor (h : s.supervisor p = false) :
    s.decideOverride p tag grant = s.showAt p .role := by
  simp [decideOverride, h]

theorem decideOverride_not_found (h : s.supervisor p = true) (hf : s.overrideOf tag = none) :
    s.decideOverride p tag grant = s.showAt p .tooLate := by
  simp [decideOverride, h, hf]

/-- What is left to check once a supervisor has named a waiting entry: whose request it is, whether it is granted, and the
supervisor's limit for a grant. -/
theorem decideOverride_found {sup : Nat} (h : s.supervisor p = true) (ht : (s.session p).teller = some sup)
    (hf : s.overrideOf tag = some (i, e)) :
    s.decideOverride p tag grant =
      if e.req.teller = sup then s.showAt p .role
      else if e.granted = true then s.showAt p .tooLate
      else if grant = true then
        if s.overrideLimit sup < e.req.equiv.getD 0 then s.showAt p .overLimit else s.grantOverride i e sup
      else s.endOverride i e .overrideRefused := by
  simp [decideOverride, h, ht, hf]

/-! ### The message -/

theorem takeOverride_of_decision (h : decision = 1 ∨ decision = 2) :
    s.takeOverride p tag decision = (s.copyRole p).decideOverride p tag (decide (decision = 1)) := by
  obtain rfl | rfl := h
  · rfl
  · rfl

theorem takeOverride_of_other (h1 : decision ≠ 1) (h2 : decision ≠ 2) :
    s.takeOverride p tag decision = s.countLineBadMessage := by
  simp [takeOverride, h1, h2]

theorem exec_override_of_awaits (h : s.Awaits q 0 seq) :
    exec (.override q seq tag decision) s = .next ((s.accepted q 0 seq).takeOverride q tag decision) :=
  congrArg Host.Outcome.next (receive_of_awaits h (.override tag decision))

/-- An OVERRIDE that the engine awaits comes to the checks with the sender's role copied (R51, R81). -/
theorem exec_override_of_decision (h : s.Awaits q 0 seq) (hd : decision = 1 ∨ decision = 2) :
    exec (.override q seq tag decision) s =
      .next (((s.accepted q 0 seq).copyRole q).decideOverride q tag (decide (decision = 1))) := by
  rw [exec_override_of_awaits h, takeOverride_of_decision hd]

end Sys2Proof.Machine.State

namespace Sys2Proof.Proofs

open Sys2Proof.Machine Sys2Proof.Machine.State

/-- Settles O28: the message comes to the checks of R81 by exec_override_of_decision, and each failing check shows its outcome at
the sender in the state that has accepted the message and copied the sender's role. -/
theorem overrideChecked : Obligations.OverrideChecked := by
  unfold Obligations.OverrideChecked
  intro s b q seq tag decision hawaits hq1 hq24 hb shown
  have hq : 1 ≤ q ∧ q ≤ 24 := ⟨hq1, hq24⟩
  have hentry : ∀ i, b.entry i = s.entry i := fun i => by simp [hb]
  refine ⟨fun h1 h2 => ?_, fun hdecision => ?_⟩
  · rw [exec_override_of_awaits hawaits, takeOverride_of_other h1 h2]
    rfl
  have hexec : exec (.override q seq tag decision) s = .next (b.decideOverride q tag (decide (decision = 1))) := by
    rw [hb, exec_override_of_decision hawaits hdecision]
  have hshown : ∀ o, b.decideOverride q tag (decide (decision = 1)) = b.showAt q o → shown o :=
    fun o ho => b.shown_at_sender (by rw [hexec, ho]) hq
  refine ⟨fun hsup => hshown _ (decideOverride_not_supervisor hsup), fun hsup => ⟨fun hnone => ?_, ?_⟩⟩
  · refine hshown _ (decideOverride_not_found hsup (overrideOf_eq_none fun i e he => ?_))
    exact hnone i e (by rw [← hentry, he])
  · rintro hsound i e sup he rfl hwaiting hteller
    have hbsound : b.EntriesSound := by
      have hentries : b.entries = s.entries := by
        rw [hb]
        exact copyRole_within _ q .entries (by decide)
      unfold EntriesSound
      rwa [hentries]
    have hbteller : (b.session q).teller = some sup := by
      rw [hb, copyRole_teller _ hq, accepted_session, hteller]
    have hlimit : b.overrideLimit sup = s.overrideLimit sup := by simp [hb, overrideLimit]
    have hchecks := decideOverride_found (grant := decide (decision = 1)) hsup hbteller
      (overrideOf_of_entry hbsound ((hentry i).trans he) hwaiting)
    refine ⟨fun hown => ?_, fun hother hgranted => ?_, fun hother hgranted hgrant hover => ?_⟩
    · exact hshown _ (by rw [hchecks, if_pos hown])
    · exact hshown _ (by rw [hchecks, if_neg hother, if_pos hgranted])
    · exact hshown _ (by rw [hchecks]; simp [hother, hgranted, hgrant, hlimit, hover])

end Sys2Proof.Proofs
end

