-- ==== Sys2Proof/Proofs/CountedBooks.lean ====
section
/-! The book counts that a count's lists leave in a drawer, and the differences and the proof read from them (R114, R116, R117,
R124). -/

namespace Sys2Proof.Machine

variable {t : CountTable} {c k n : Nat} {lists : List (List Nat)}

/-! ### Count tables -/

theorem countAt_putCount (t : CountTable) (c den x k n : Nat) :
    countAt (putCount t c den x) k n =
      if (c = k ∧ c < 4) ∧ den = n ∧ 1 ≤ den ∧ den ≤ 12 then x else countAt t k n := by
  unfold countAt putCount
  rw [rd_wr]
  by_cases h : c = k ∧ c < 4
  · obtain ⟨rfl, hc⟩ := h
    simp only [hc, and_self, true_and, if_true]
    exact rd1_wr1 ..
  · simp [h]

theorem replaceCurrency_nil (t : CountTable) (c : Nat) : State.replaceCurrency t c [] = t := rfl

/-- One more counted count goes to the next denomination position. -/
theorem replaceCurrency_concat (t : CountTable) (c : Nat) (counts : List Nat) (x : Nat) :
    State.replaceCurrency t c (counts ++ [x]) = putCount (State.replaceCurrency t c counts) c (counts.length + 1) x := by
  simp [State.replaceCurrency, List.mapIdx_concat]

theorem countAt_replaceCurrency (hc : c < 4) (hn : 1 ≤ n ∧ n ≤ 12) (counts : List Nat) :
    countAt (State.replaceCurrency t c counts) k n =
      if c = k ∧ n ≤ counts.length then counts.getD (n - 1) 0 else countAt t k n := by
  induction counts using List.reverseRecOn with
  | nil =>
    have hn0 : ¬ n ≤ 0 := by omega
    simp [replaceCurrency_nil, hn0]
  | append_singleton counts x ih =>
    rw [replaceCurrency_concat, countAt_putCount, ih, List.length_append, List.length_singleton]
    by_cases hk : c = k
    · obtain hlt | rfl | hgt : n ≤ counts.length ∨ n = counts.length + 1 ∨ counts.length + 1 < n := by omega
      · rw [if_neg (by omega), if_pos ⟨hk, hlt⟩, if_pos ⟨hk, by omega⟩, List.getD_append _ _ _ _ (by omega)]
      · rw [if_pos ⟨⟨hk, hc⟩, rfl, hn⟩, if_pos ⟨hk, le_rfl⟩]
        simp
      · rw [if_neg (by omega), if_neg (by omega), if_neg (by omega)]
    · simp [hk]

/-- The currencies of a list replaced one after another: each takes its own list. -/
theorem countAt_foldl_replaceCurrency (hn : 1 ≤ n ∧ n ≤ 12) (cs : List Nat) (hcs : ∀ c ∈ cs, c < 4) :
    countAt (cs.foldl (fun t c => State.replaceCurrency t c (lists.getD c [])) t) k n =
      if k ∈ cs ∧ n ≤ (lists.getD k []).length then (lists.getD k []).getD (n - 1) 0 else countAt t k n := by
  induction cs generalizing t with
  | nil => simp
  | cons c cs ih =>
    rw [List.foldl_cons, ih fun x hx => hcs x (List.mem_cons_of_mem c hx),
      countAt_replaceCurrency (hcs c List.mem_cons_self) hn]
    by_cases hck : c = k
    · subst hck
      simp only [true_and, List.mem_cons, true_or]
      split_ifs with hin hlen hlen
      · rfl
      · exact absurd hin.2 hlen
      · rfl
      · rfl
    · simp [hck, Ne.symm hck]

namespace State

variable (s : State) {d : Nat}

/-! ### The books replaced (R117, R124) -/

/-- The book counts of drawer d once the counted counts have replaced those of every defined currency (R117). -/
def countedBook (d : Nat) (lists : List (List Nat)) : CountTable :=
  s.definedCurrencies.foldl (fun t c => replaceCurrency t c (lists.getD c [])) (s.drawer d).book

theorem mem_definedCurrencies : k ∈ s.definedCurrencies ↔ k < 4 ∧ (s.tables.currency k).isSome = true := by
  simp [definedCurrencies]

theorem length_of_listsFit (h : s.listsFit lists = true) (hk : k < 4) :
    (lists.getD k []).length = (s.tables.faces k).length := by
  simp only [listsFit, List.all_eq_true, List.mem_range, beq_iff_eq] at h
  exact h k hk

/-- Lists of the form of R114 set every count of a face: a currency without faces has none to set. -/
theorem countAt_countedBook (hfit : s.listsFit lists = true) (hk : k < 4) (hn : 1 ≤ n ∧ n ≤ 12) :
    countAt (s.countedBook d lists) k n =
      if n ≤ (s.tables.faces k).length then (lists.getD k []).getD (n - 1) 0 else countAt (s.drawer d).book k n := by
  rw [countedBook, countAt_foldl_replaceCurrency hn _ fun c hc => (s.mem_definedCurrencies.mp hc).1]
  simp only [mem_definedCurrencies, s.length_of_listsFit hfit hk]
  cases hcur : s.tables.currency k with
  | some e => simp [hk]
  | none =>
    have hn0 : ¬ n ≤ 0 := by omega
    simp [Tables.faces, hcur, hn0]

/-- The ceiling test changes the ceiling alert of its drawer alone (R106). -/
theorem ceilingTest_drawer (d : Nat) :
    ∃ x, ∀ e, (s.ceilingTest d).drawer e = (s.setDrawer d { s.drawer d with ceiling := x }).drawer e := by
  unfold ceilingTest
  split
  · exact ⟨true, drawer_congr (((alertReport_within _ d).after ((alarm_within _ .ceiling d).mono
      (m := [.port, .counters, .screens]))) .drawers (by decide))⟩
  · split
    · exact ⟨false, drawer_congr (alertReport_within _ d .drawers (by decide))⟩
    · refine ⟨(s.drawer d).ceiling, fun e => ?_⟩
      rw [drawer_setDrawer]
      split
      · next h => rw [h.1]
      · rfl

/-- The replacement gives drawer d the counted counts; the ceiling test that follows may change its ceiling alert (R117, R124). -/
theorem replaceBook_drawer (d : Nat) (lists : List (List Nat)) :
    ∃ x, ∀ e, (s.replaceBook d lists).drawer e =
      (s.setDrawer d { s.drawer d with book := s.countedBook d lists, ceiling := x }).drawer e := by
  have hreports : ∀ (cs : List Nat) (t : State) (e : Nat),
      (cs.foldl (fun t c => t.countReport d c) t).drawer e = t.drawer e := fun cs t =>
    drawer_congr (Within.fold (m := [.screens]) _ (fun t c => countReport_within t d c) cs t .drawers (by decide))
  obtain ⟨x, hx⟩ := ceilingTest_drawer (s.definedCurrencies.foldl (fun t c => t.countReport d c)
    (s.setDrawer d { s.drawer d with book := s.countedBook d lists })) d
  refine ⟨x, fun e => (hx e).trans ?_⟩
  simp only [drawer_setDrawer, hreports]
  split
  · next h => simp [h.2]
  · rfl

/-! ### The proof's arithmetic (R116) -/

/-- The proof passes when every defined currency's difference is within its tolerance (R116). -/
theorem proves_iff : s.proves d lists = true ↔ ∀ k e, k < 4 → s.tables.currency k = some e →
    ((valueOf e.faces (lists.getD k []) : Int) - s.bookValue d k).natAbs ≤ e.tolerance := by
  simp only [proves, List.all_eq_true, List.mem_range]
  refine forall_congr' fun k => ?_
  cases hcur : s.tables.currency k with
  | none => simp
  | some e => simp [difference, countedValue, Tables.faces, hcur]

/-- The differences of a PROOF record: counted value less book value, 0 for an undefined currency (R116, R122). -/
theorem differences_eq : s.differences d lists = (List.range 4).map (fun k => if s.tables.currency k = none then 0 else
    (valueOf (s.tables.faces k) (lists.getD k []) : Int) - s.bookValue d k) := by
  refine List.map_congr_left fun k _ => ?_
  cases hcur : s.tables.currency k with
  | none => simp [difference, hcur]
  | some e => simp [difference, countedValue, hcur]

end State

end Sys2Proof.Machine
end

