-- ==== Sys2Proof/Proofs/DrawerProofs.lean ====
section
/-! COUNT and ACCEPT_DIFF from arrival to outcome: a proof that passes or is accepted, and a proof that fails (R114 to R124). -/

namespace Sys2Proof.Machine.State

variable {s t : State} {p seq d e n : Nat} {lists : List (List Nat)} {result : ProofResult} {x : DrawerState} {o : Shown}

/-! ### What the message finds: drawers, books and journal as they were before it -/

@[simp] theorem accepted_drawer (p u seq d : Nat) : (s.accepted p u seq).drawer d = s.drawer d := rfl
@[simp] theorem accepted_bookValue (p u seq d c : Nat) : (s.accepted p u seq).bookValue d c = s.bookValue d c := rfl
@[simp] theorem accepted_proves (p u seq d : Nat) (lists : List (List Nat)) :
    (s.accepted p u seq).proves d lists = s.proves d lists := rfl
@[simp] theorem accepted_differences (p u seq d : Nat) (lists : List (List Nat)) :
    (s.accepted p u seq).differences d lists = s.differences d lists := rfl
@[simp] theorem accepted_withRecord (p u seq : Nat) (r : Body) : (s.accepted p u seq).withRecord r = s.withRecord r := rfl

/-- A record written later in the same event is the one that would have been written before it (R172, R173). -/
theorem withRecord_congr (hj : t.journal = s.journal) (hd : t.day = s.day) (r : Body) : t.withRecord r = s.withRecord r := by
  unfold withRecord
  rw [hj, hd]

@[simp] theorem copyRole_drawer (p d : Nat) : (s.copyRole p).drawer d = s.drawer d :=
  drawer_congr (copyRole_within s p .drawers (by decide)) d

@[simp] theorem copyRole_bookValue (p d c : Nat) : (s.copyRole p).bookValue d c = s.bookValue d c := by
  unfold bookValue
  rw [copyRole_drawer, copyRole_tables]

@[simp] theorem copyRole_proves (p d : Nat) (lists : List (List Nat)) :
    (s.copyRole p).proves d lists = s.proves d lists := by
  simp [proves, difference, countedValue]

@[simp] theorem copyRole_differences (p d : Nat) (lists : List (List Nat)) :
    (s.copyRole p).differences d lists = s.differences d lists := by
  simp [differences, difference, countedValue]

@[simp] theorem copyRole_withRecord (p : Nat) (r : Body) : (s.copyRole p).withRecord r = s.withRecord r :=
  withRecord_congr (copyRole_within s p .journal (by decide)) (copyRole_within s p .day (by decide)) r

/-! ### The shared operations: a record appended, a drawer's state set -/

theorem append_journal (s : State) (r : Body) : (s.append r).journal = s.withRecord r := by
  unfold append
  dsimp only
  split
  · exact alarm_within _ .journalNearlyFull 0 .journal (by decide)
  · rfl

theorem append_drawer (s : State) (r : Body) (d : Nat) : (s.append r).drawer d = s.drawer d :=
  drawer_congr (append_within s r .drawers (by decide)) d

theorem setDrawerState_drawer (s : State) (d : Nat) (x : DrawerState) (n e : Nat) :
    (s.setDrawerState d x n).drawer e = (s.setDrawer d { s.drawer d with state := x, recount := n }).drawer e :=
  drawer_congr (drawerStateReport_within _ d .drawers (by decide)) e

theorem showAt_drawer (s : State) (p : Nat) (o : Shown) (d : Nat) : (s.showAt p o).drawer d = s.drawer d := rfl

/-- The fields that a drawer message may change are the only ones in which the state after it differs. -/
theorem eq_of_within (h : Within [.drawers, .booksKept, .port, .counters, .screens, .journal, .records] s t) :
    t = { s with drawers := t.drawers, screens := t.screens, port := t.port, counters := t.counters
                 journal := t.journal } := by
  rw [State.mk.injEq]
  exact ⟨rfl, rfl, h .lock (by decide), h .tables (by decide), h .line (by decide), h .survey (by decide),
    h .sessions (by decide), h .entries (by decide), h .tagCounter (by decide), h .overrides (by decide), rfl, rfl,
    h .printers (by decide), h .store (by decide), rfl, h .day (by decide), h .freeDraws (by decide),
    h .pending (by decide)⟩

/-! ### A proof that balances or is accepted (R117, R120) -/

/-- The effects of R117 up to the test of completion: books replaced, PROOF record, BALANCED, outcome. -/
def drawerBalanced (s : State) (p d : Nat) (lists : List (List Nat)) (result : ProofResult) : State :=
  let t := (s.replaceBook d lists).append
    (.proof p ((s.session p).teller.getD 0) d result (s.differences d lists))
  (t.setDrawerState d .balanced (t.drawer d).recount).showAt p .balanced

theorem balanceDrawer_eq : s.balanceDrawer p d lists result = (s.drawerBalanced p d lists result).testCompletion := rfl

theorem drawerBalanced_within : Within [.drawers, .booksKept, .port, .counters, .screens, .journal, .records] s
    (s.drawerBalanced p d lists result) :=
  (showAt_within _ _ _).after ((setDrawerState_within _ _ _ _).after
    ((append_within _ _).after ((replaceBook_within s _ _).mono)))

/-- One PROOF record, with the differences taken before the books were replaced (R117, R122). -/
theorem drawerBalanced_journal : (s.drawerBalanced p d lists result).journal =
    s.withRecord (.proof p ((s.session p).teller.getD 0) d result (s.differences d lists)) := by
  have hreplace := replaceBook_within s d lists
  calc (s.drawerBalanced p d lists result).journal
      = ((s.replaceBook d lists).append
          (.proof p ((s.session p).teller.getD 0) d result (s.differences d lists))).journal :=
        setDrawerState_within _ _ _ _ .journal (by decide)
    _ = (s.replaceBook d lists).withRecord _ := append_journal _ _
    _ = s.withRecord _ := withRecord_congr (hreplace .journal (by decide)) (hreplace .day (by decide)) _

/-- Drawer d takes the counted counts and is BALANCED, its recount number kept; only its ceiling alert may change besides. -/
theorem drawerBalanced_drawer (hd : d ≤ 24) : ∃ x, ∀ e, (s.drawerBalanced p d lists result).drawer e =
    (s.setDrawer d { s.drawer d with book := s.countedBook d lists, state := .balanced, ceiling := x }).drawer e := by
  obtain ⟨x, hx⟩ := s.replaceBook_drawer d lists
  refine ⟨x, fun e => ?_⟩
  have hd' : d < 25 := by omega
  simp only [drawerBalanced, showAt_drawer, setDrawerState_drawer, drawer_setDrawer, append_drawer, hx, hd', and_true,
    if_true]
  split
  · rfl
  · rfl

theorem drawerBalanced_shows (hp : 1 ≤ p ∧ p ≤ 24) : Shows (s.drawerBalanced p d lists result) p .balanced :=
  showAt_shows _ hp _

/-! ### A proof that fails (R118) -/

/-- The effects of R118 up to the test of completion: the drawer's state and recount number by the table, and the outcome. -/
def proofFailed (s : State) (p d : Nat) : State :=
  let (x, n, o) := afterFailure (s.drawer d).state (s.drawer d).recount
  (if (s.drawer d).state = x ∧ (s.drawer d).recount = n then s else s.setDrawerState d x n).showAt p o

theorem failProof_eq : s.failProof p d = (s.proofFailed p d).testCompletion := rfl

/-- A change that is none is not made: the drawer holds the state and recount number anyway. -/
theorem proofFailed_drawer (h : afterFailure (s.drawer d).state (s.drawer d).recount = (x, n, o)) (e : Nat) :
    (s.proofFailed p d).drawer e = (s.setDrawer d { s.drawer d with state := x, recount := n }).drawer e := by
  simp only [proofFailed, h, showAt_drawer]
  split
  · next hsame =>
    obtain ⟨rfl, rfl⟩ := hsame
    rw [drawer_setDrawer]
    split
    · next hde => rw [hde.1]
    · rfl
  · exact setDrawerState_drawer s d x n e

theorem proofFailed_shows (hp : 1 ≤ p ∧ p ≤ 24)
    (h : afterFailure (s.drawer d).state (s.drawer d).recount = (x, n, o)) : Shows (s.proofFailed p d) p o := by
  simp only [proofFailed, h]
  exact showAt_shows _ hp _

theorem proofFailed_within : Within [.drawers, .screens] s (s.proofFailed p d) := by
  unfold proofFailed
  generalize afterFailure (s.drawer d).state (s.drawer d).recount = f
  obtain ⟨x, n, o⟩ := f
  refine (showAt_within _ _ _).after ?_
  split
  · exact Within.refl _ s
  · exact setDrawerState_within s _ _ _

/-- A row of the table of R118: what the drawer becomes and what its sender is shown. -/
theorem proofFailed_becomes (hp : 1 ≤ p ∧ p ≤ 24) (hd : d ≤ 24)
    (h : afterFailure (s.drawer d).state (s.drawer d).recount = (x, n, o)) :
    (s.proofFailed p d).drawer d = { s.drawer d with state := x, recount := n } ∧ Shows (s.proofFailed p d) p o := by
  refine ⟨?_, proofFailed_shows hp h⟩
  rw [proofFailed_drawer h, drawer_setDrawer, if_pos ⟨rfl, by omega⟩]

theorem proofFailed_drawer_other (h : e ≠ d) : (s.proofFailed p d).drawer e = s.drawer e := by
  rw [proofFailed_drawer rfl, drawer_setDrawer, if_neg fun hc => h hc.1.symm]

theorem proofFailed_eq : s.proofFailed p d =
    { s with drawers := (s.proofFailed p d).drawers, screens := (s.proofFailed p d).screens } := by
  have h : Within [.drawers, .screens] s (s.proofFailed p d) := proofFailed_within
  have heq := eq_of_within h.mono
  rwa [h .port (by decide), h .counters (by decide), h .journal (by decide)] at heq

/-! ### The messages -/

/-- A COUNT that passes its checks goes to the proof, in the state that has accepted it (R115, R116). -/
theorem exec_count_of_checked (h : s.Awaits p 0 seq) (hd : d ≤ 24) (ht : t = (s.accepted p 0 seq).copyRole p)
    (hc : firstFailure (t.countChecks p d lists) = none) :
    exec (.count p seq d lists) s = .next
      (if t.proves d lists = true then (t.drawerBalanced p d lists .balanced).testCompletion
       else (t.proofFailed p d).testCompletion) := by
  subst ht
  have hd' : ¬ 24 < d := by omega
  have harrival : exec (.count p seq d lists) s = .next ((s.accepted p 0 seq).takeCount p d lists) :=
    congrArg Host.Outcome.next (receive_of_awaits h (.count d lists))
  simp only [harrival, takeCount, hd', if_false, hc, balanceDrawer_eq, failProof_eq]

/-- An ACCEPT_DIFF that passes its checks is accepted whatever its differences (R120). -/
theorem exec_acceptDiff_of_checked (h : s.Awaits p 0 seq) (hd : d ≤ 24) (ht : t = (s.accepted p 0 seq).copyRole p)
    (hc : firstFailure (t.acceptDiffChecks p d lists) = none) :
    exec (.acceptDiff p seq d lists) s = .next (t.drawerBalanced p d lists .accepted).testCompletion := by
  subst ht
  have hd' : ¬ 24 < d := by omega
  have harrival : exec (.acceptDiff p seq d lists) s = .next ((s.accepted p 0 seq).takeAcceptDiff p d lists) :=
    congrArg Host.Outcome.next (receive_of_awaits h (.acceptDiff d lists))
  simp only [harrival, takeAcceptDiff, hd', if_false, hc, balanceDrawer_eq]

/-- The checks of both messages hold the form of the lists (R114, R115, R120). -/
theorem listsFit_of_checked (h : firstFailure (s.countChecks p d lists) = none ∨
    firstFailure (s.acceptDiffChecks p d lists) = none) : s.listsFit lists = true := by
  have hform : (!s.listsFit lists) = false := by
    obtain h | h := h
    · exact firstFailure_none h (!s.listsFit lists, .breakdownMismatch) (by simp [countChecks])
    · exact firstFailure_none h (!s.listsFit lists, .breakdownMismatch) (by simp [acceptDiffChecks])
  simpa using hform

end Sys2Proof.Machine.State

namespace Sys2Proof.Proofs

open Sys2Proof.Machine Sys2Proof.Machine.State

/-- Settles O39: both messages come to drawerBalanced or to proofFailed in the state b that has accepted the message and copied the
sender's role, and b holds the drawers, the books, the journal and the sender's teller of s. -/
theorem drawerProof : Obligations.DrawerProof := by
  unfold Obligations.DrawerProof
  refine ⟨fun s b c p seq d lists result hawaits hp1 hp24 hd hb hcase => ?_,
    fun s b p seq d lists hawaits hp1 hp24 hd hb hchecks hfails => ?_⟩
  · have hp : 1 ≤ p ∧ p ≤ 24 := ⟨hp1, hp24⟩
    have htables : b.tables = s.tables := by simp [hb]
    have hdrawer : ∀ e, b.drawer e = s.drawer e := fun e => by simp [hb]
    have hrecord : ∀ r, b.withRecord r = s.withRecord r := fun r => by simp [hb]
    have hdiffs : b.differences d lists = s.differences d lists := by simp [hb]
    have hteller : (b.session p).teller = (s.session p).teller := by
      rw [hb, copyRole_teller _ hp, accepted_session]
    obtain ⟨hexec, hfit⟩ : exec c s = .next (b.drawerBalanced p d lists result).testCompletion ∧
        b.listsFit lists = true := by
      obtain ⟨rfl, rfl, hchecks, hproof⟩ | ⟨rfl, rfl, hchecks⟩ := hcase
      · have hproves : b.proves d lists = true := by
          rw [hb, copyRole_proves, accepted_proves, proves_iff]
          exact hproof
        exact ⟨by rw [exec_count_of_checked hawaits hd hb hchecks, if_pos hproves], listsFit_of_checked (.inl hchecks)⟩
      · exact ⟨exec_acceptDiff_of_checked hawaits hd hb hchecks, listsFit_of_checked (.inr hchecks)⟩
    obtain ⟨x, hx⟩ := drawerBalanced_drawer (s := b) (p := p) (lists := lists) (result := result) hd
    have hcounted : (b.drawerBalanced p d lists result).drawer d =
        { s.drawer d with book := b.countedBook d lists, state := .balanced, ceiling := x } := by
      rw [hx, drawer_setDrawer, if_pos ⟨rfl, by omega⟩, hdrawer]
    refine ⟨b.drawerBalanced p d lists result, hexec, drawerBalanced_shows hp, ?_, fun e he => ?_, ?_,
      fun k n hk hn1 hn12 => ?_⟩
    · have hfields := eq_of_within (drawerBalanced_within (s := b) (p := p) (d := d) (lists := lists) (result := result))
      rwa [drawerBalanced_journal, hrecord, hteller, hdiffs, differences_eq] at hfields
    · rw [hx, drawer_setDrawer, if_neg fun hc => he hc.1.symm, hdrawer]
    · rw [hcounted]
    · rw [hcounted, countAt_countedBook b hfit hk ⟨hn1, hn12⟩, htables, hdrawer]
  · have hp : 1 ≤ p ∧ p ≤ 24 := ⟨hp1, hp24⟩
    have hdrawer : ∀ e, b.drawer e = s.drawer e := fun e => by simp [hb]
    have hproves : ¬ b.proves d lists = true := by
      rw [hb, copyRole_proves, accepted_proves, proves_iff]
      obtain ⟨k, e, hk, he, hover⟩ := hfails
      exact fun hwithin => absurd (hwithin k e hk he) (Nat.not_le.mpr hover)
    refine ⟨b.proofFailed p d, ?_, proofFailed_eq, fun e he => ?_, ?_⟩
    · rw [exec_count_of_checked hawaits hd hb hchecks, if_neg hproves]
    · rw [proofFailed_drawer_other he, hdrawer]
    · rw [← hdrawer]
      refine ⟨fun hstate => ?_, fun hstate hn => ?_, fun hstate hn => ?_, fun hstate => ?_⟩
      · exact proofFailed_becomes hp hd (by rw [hstate]; rfl)
      · exact proofFailed_becomes hp hd (by rw [hstate, hn]; rfl)
      · exact proofFailed_becomes hp hd (by rw [hstate, hn]; rfl)
      · exact proofFailed_becomes hp hd (by rw [hstate]; rfl)

end Sys2Proof.Proofs
end

