-- ==== Sys2Proof/Proofs/FormSelection.lean ====
section
/-! FORM from arrival to screen: what a form change does to one screen, when a form named is taken, and the message (R149, R143,
R144). -/

namespace Sys2Proof.Machine

/-- A bank in which a record is written back as it was read is the same bank. -/
theorem wr1_rd1 {α : Type} {n : Nat} (v : Vector α n) (p : Nat) (d : α) : wr1 v p (rd1 v p d) = v := by
  unfold wr1 rd1 wr rd
  by_cases hp : p = 0
  · rw [if_pos hp]
  · rw [if_neg hp, if_neg hp]
    ext j hj
    rw [Vector.getElem_setIfInBounds]
    split
    · next h => simp [h, hj]
    · rfl

/-! ### One screen -/

namespace Screen

variable {t : Tables} {sc : Screen} {f : Nat}

/-- The urgent test changes no field but the urgent flag (R144). -/
theorem settle_eq (t : Tables) (sc : Screen) : sc.settle t = { sc with urgent := (sc.settle t).urgent } := by
  unfold settle
  split
  · rfl
  · rfl

/-- The urgent test never sets the flag (R144). -/
theorem urgent_of_settle_urgent (h : (sc.settle t).urgent = true) : sc.urgent = true := by
  unfold settle at h
  split at h
  · cases h
  · exact h

/-- The urgent test leaves a screen whose flag is clear, or that has an urgent row, as it is (R144). -/
theorem settle_eq_self (h : sc.urgent = false ∨ sc.urgentRows t ≠ []) : sc.settle t = sc := by
  unfold settle
  split
  · next hnone =>
    obtain hclear | hrow := h
    · rw [← hclear]
    · exact absurd hnone hrow
  · rfl

theorem setForm_same : sc.setForm sc.form = sc := if_pos rfl

theorem setForm_other (h : f ≠ sc.form) : sc.setForm f = { sc with form := f, dirty := allRows, clearPending := true } :=
  if_neg h.symm

end Screen

namespace State

variable {s : State} {p f seq : Nat}

/-! ### The screen takes a form -/

/-- A change that leaves the position's screen as it is changes nothing. -/
theorem onScreen_eq_self {g : Tables → Screen → Screen} (h : g s.tables (s.screen p) = s.screen p) : s.onScreen p g = s := by
  unfold onScreen
  rw [h]
  exact congrArg s.withScreens (wr1_rd1 s.screens p _)

theorem takeForm_eq (s : State) (p f : Nat) : s.takeForm p f = { s with screens := (s.takeForm p f).screens } := rfl

/-- The form already current changes nothing (R143, R149). -/
theorem takeForm_same (h : (s.screen p).urgent = false ∨ (s.screen p).urgentRows s.tables ≠ []) :
    s.takeForm p (s.screen p).form = s :=
  onScreen_eq_self (by rw [Screen.setForm_same, Screen.settle_eq_self h])

/-- Another form becomes current with every row dirty, clear-pending set and the urgent flag tested (R143, R144). -/
theorem screen_takeForm_same (hp : 1 ≤ p ∧ p ≤ 24) (hf : f ≠ (s.screen p).form) :
    (s.takeForm p f).screen p =
      ({ s.screen p with form := f, dirty := allRows, clearPending := true } : Screen).settle s.tables := by
  unfold takeForm
  rw [screen_onScreen_same s hp, Screen.setForm_other hf]

theorem screen_takeForm_other {q : Nat} (h : q ≠ p) (f : Nat) : (s.takeForm p f).screen q = s.screen q :=
  screen_onScreen_other s h _

/-! ### The message -/

/-- What R149 asks of a form named at a position. -/
def FormAllowed (s : State) (p f : Nat) : Prop :=
  ∃ e x, s.tables.position p = some e ∧ f ∈ e.forms ∧ s.tables.form f = some x ∧ x.selectable = true

theorem takeFormMessage_of_allowed (h : s.FormAllowed p f) : s.takeFormMessage p f = s.takeForm p f := by
  obtain ⟨e, x, hposition, hlisted, hform, hselectable⟩ := h
  simp [takeFormMessage, hposition, hform, hlisted, hselectable]

theorem takeFormMessage_of_not_allowed (h : ¬ s.FormAllowed p f) : s.takeFormMessage p f = s := by
  unfold takeFormMessage
  split
  · next e x hposition hform =>
    refine if_neg fun hboth => h ⟨e, x, hposition, ?_, hform, ?_⟩
    · simpa using (Bool.and_eq_true_iff.mp hboth).1
    · exact (Bool.and_eq_true_iff.mp hboth).2
  · rfl

theorem exec_form_of_awaits (h : s.Awaits p 0 seq) (f : Nat) :
    exec (.form p seq f) s = .next ((s.accepted p 0 seq).takeFormMessage p f) :=
  congrArg Host.Outcome.next (receive_of_awaits h (.form f))

theorem parseMessage_form_of_length {payload : List Byte} (h : payload.length ≠ 1) : parseMessage 0 0x0B payload = .bad :=
  if_neg h

/-- A message that its unit's rows or its layout rule out is accepted, discarded and counted (R38, R40). -/
theorem exec_lineBadMessage_of_bad {u kind : Nat} {payload : List Byte} (h : s.Awaits p u seq)
    (hbad : parseMessage u kind payload = .bad) :
    exec (.lineBadMessage p u kind seq payload) s = .next (s.accepted p u seq).countLineBadMessage := by
  have harrival : exec (.lineBadMessage p u kind seq payload) s =
      .next (s.receive (.message p u seq (parseMessage u kind payload))) := rfl
  rw [harrival, receive_of_awaits h, hbad]
  rfl

end State

end Sys2Proof.Machine

namespace Sys2Proof.Proofs

open Sys2Proof.Machine Sys2Proof.Machine.State

/-- Settles O46: the message comes to takeFormMessage in the state b that has accepted it, and b holds the tables and the screens
of s, so that R149 and R143 read the same there. -/
theorem formSelected : Obligations.FormSelected := by
  unfold Obligations.FormSelected
  intro s b p seq f hawaits hp1 hp24 hb allowed
  have hp : 1 ≤ p ∧ p ≤ 24 := ⟨hp1, hp24⟩
  have hexec : exec (.form p seq f) s = .next (b.takeFormMessage p f) := by rw [hb, exec_form_of_awaits hawaits]
  have htables : b.tables = s.tables := by rw [hb, accepted_tables]
  have hscreen : ∀ q, b.screen q = s.screen q := fun q => by rw [hb]; rfl
  have hallowed : b.FormAllowed p f ↔ allowed := by unfold FormAllowed; rw [htables]
  refine ⟨fun payload hlength => ?_, fun hnot => ?_, fun hall hsame hurgent => ?_, fun hall hother => ?_⟩
  · rw [exec_lineBadMessage_of_bad hawaits (parseMessage_form_of_length hlength), hb]
    rfl
  · rw [hexec, takeFormMessage_of_not_allowed (mt hallowed.mp hnot)]
  · rw [← hscreen, ← htables] at hurgent
    rw [hexec, takeFormMessage_of_allowed (hallowed.mpr hall), hsame, ← hscreen, takeForm_same hurgent]
  · have htaken := screen_takeForm_same (s := b) hp (by rwa [hscreen])
    rw [hscreen] at htaken
    refine ⟨b.takeForm p f, ?_, b.takeForm_eq p f, ?_, fun hurgent => ?_, fun q hq => ?_⟩
    · rw [hexec, takeFormMessage_of_allowed (hallowed.mpr hall)]
    · rw [htaken]
      exact Screen.settle_eq ..
    · rw [htaken] at hurgent
      exact (Screen.urgent_of_settle_urgent hurgent :)
    · rw [screen_takeForm_other hq, hscreen]

end Sys2Proof.Proofs
end

