-- ==== Sys2Proof/Proofs/SendWindow.lean ====
section
/-! The send window (R193): a run of blocks put into the upstream queue, how many the window lets through, and the window test
as one update of the state. -/

namespace Sys2Proof.Machine.State

variable {s : State}

/-! ### A run of blocks -/

/-- How many of the n blocks from s + 1 on have been queued before, so that each counts as a resend (R193). -/
def resends (s : State) (n : Nat) : Nat :=
  ((List.range' (s.day.sent + 1) n).filter (fun k => decide (k ≤ s.day.highest))).length

/-- The state once the n blocks from s + 1 on have been queued. -/
def blocksQueued (s : State) (n : Nat) : State :=
  { s with
    port := { s.port with
      queue := s.port.queue ++ (List.range' (s.day.sent + 1) n).map s.blockFrame
      transmitting := s.port.transmitting || s.port.olrdy }
    counters := { s.counters with
      batchResend := max s.counters.batchResend (min 65535 (s.counters.batchResend + s.resends n)) }
    day := { s.day with
      sent := s.day.sent + n, highest := max s.day.highest (s.day.sent + n)
      ackTimer := some (s.day.ackTimer.getD s.tables.params.batchAck) } }

theorem windowTested_eq_blocksQueued (s : State) :
    s.windowTested = if s.windowRoom = 0 then s else s.blocksQueued s.windowRoom := rfl

@[simp] theorem enqueue_eq_withFrame (s : State) (f : UpFrame) : s.enqueue f = s.withFrame f := by
  have hqueue : (s.port.queue ++ [f]).isEmpty = false := by simp
  simp [enqueue, beginTransmit, withFrame, withPort, hqueue]

theorem bump_eq_max (n : Nat) : bump n = max n (min 65535 (n + 1)) := by
  unfold bump Config.counterMax
  split <;> omega

theorem resends_one (s : State) : s.resends 1 = if s.day.sent + 1 ≤ s.day.highest then 1 else 0 := by
  unfold resends
  split
  · next h => simp [h]
  · next h => simp [h]

/-- The model queues its blocks one at a time. -/
theorem queueBlock_eq_blocksQueued (s : State) : s.queueBlock = s.blocksQueued 1 := by
  have hcounter : (if s.day.sent + 1 ≤ s.day.highest then bump s.counters.batchResend else s.counters.batchResend) =
      max s.counters.batchResend (min 65535 (s.counters.batchResend + s.resends 1)) := by
    rw [resends_one]
    split
    · exact bump_eq_max _
    · omega
  unfold queueBlock blocksQueued
  dsimp only
  rw [← hcounter, enqueue_eq_withFrame]
  split
  · rfl
  · rfl

/-- The block table and the records stay, so a block's frame is the same whenever it is queued. -/
@[simp] theorem blocksQueued_blockFrame (s : State) (n : Nat) : (s.blocksQueued n).blockFrame = s.blockFrame := rfl

theorem blocksQueued_port (s : State) (n : Nat) : (s.blocksQueued n).port = { s.port with
    queue := s.port.queue ++ (List.range' (s.day.sent + 1) n).map s.blockFrame
    transmitting := s.port.transmitting || s.port.olrdy } := rfl

theorem blocksQueued_counters (s : State) (n : Nat) : (s.blocksQueued n).counters = { s.counters with
    batchResend := max s.counters.batchResend (min 65535 (s.counters.batchResend + s.resends n)) } := rfl

theorem blocksQueued_day (s : State) (n : Nat) : (s.blocksQueued n).day = { s.day with
    sent := s.day.sent + n, highest := max s.day.highest (s.day.sent + n)
    ackTimer := some (s.day.ackTimer.getD s.tables.params.batchAck) } := rfl

@[simp] theorem blocksQueued_sent (s : State) (n : Nat) : (s.blocksQueued n).day.sent = s.day.sent + n := rfl

theorem blocks_append (s : State) (m n : Nat) : List.range' (s.day.sent + 1) (m + n) =
    List.range' (s.day.sent + 1) m ++ List.range' (s.day.sent + m + 1) n := by
  rw [← List.range'_append_1, Nat.add_right_comm]

/-- A block that stands behind a run is a resend by the h from before that run. -/
theorem resends_add (s : State) (m n : Nat) : s.resends (m + n) = s.resends m + (s.blocksQueued m).resends n := by
  have hlater : (List.range' (s.day.sent + m + 1) n).filter (fun k => decide (k ≤ (s.blocksQueued m).day.highest)) =
      (List.range' (s.day.sent + m + 1) n).filter (fun k => decide (k ≤ s.day.highest)) := by
    refine List.filter_congr fun k hk => decide_eq_decide.mpr ?_
    have hlow : s.day.sent + m + 1 ≤ k := (List.mem_range'_1.mp hk).1
    rw [blocksQueued_day]
    dsimp only
    omega
  unfold resends
  rw [blocksQueued_sent, hlater, blocks_append, List.filter_append, List.length_append]

/-- Two runs of blocks, one after the other, are one run. -/
theorem blocksQueued_add (s : State) (m n : Nat) : (s.blocksQueued m).blocksQueued n = s.blocksQueued (m + n) := by
  have hport : ((s.blocksQueued m).blocksQueued n).port = (s.blocksQueued (m + n)).port := by
    simp [blocksQueued_port, blocksQueued_day, blocks_append]
  have hcounters : ((s.blocksQueued m).blocksQueued n).counters = (s.blocksQueued (m + n)).counters := by
    have hstop : ∀ c a b : Nat, max (max c (min 65535 (c + a))) (min 65535 (max c (min 65535 (c + a)) + b)) =
        max c (min 65535 (c + (a + b))) := by omega
    simp only [blocksQueued_counters, resends_add, hstop]
  have hday : ((s.blocksQueued m).blocksQueued n).day = (s.blocksQueued (m + n)).day := by
    have hhighest : max (max s.day.highest (s.day.sent + m)) (s.day.sent + (m + n)) =
        max s.day.highest (s.day.sent + (m + n)) := by omega
    simp only [blocksQueued_day, Nat.add_assoc, hhighest, Option.getD_some]
  calc (s.blocksQueued m).blocksQueued n
      = { s with port := ((s.blocksQueued m).blocksQueued n).port
                 counters := ((s.blocksQueued m).blocksQueued n).counters
                 day := ((s.blocksQueued m).blocksQueued n).day } := rfl
    _ = s.blocksQueued (m + n) := by rw [hport, hcounters, hday]; rfl

/-! ### How many the window lets through -/

theorem windowOpen_iff : s.windowOpen = true ↔ s.day.state = .sending ∧ s.day.sent < s.day.blocks.length ∧
    s.day.sent - s.day.acked < 4 ∧ s.port.queue.length < 64 := by
  simp only [windowOpen, hasRoom, Bool.and_eq_true, beq_iff_eq, decide_eq_true_eq, and_assoc]
  rfl

theorem windowOpen_iff_windowRoom_pos : s.windowOpen = true ↔ 0 < s.windowRoom := by
  rw [windowOpen_iff, windowRoom]
  split
  · next h =>
    simp only [h, true_and]
    omega
  · next h => simp [h]

theorem windowRoom_le (s : State) : s.windowRoom ≤ 4 := by
  unfold windowRoom
  split
  · omega
  · omega

/-- A block queued takes one from what the window still lets through, of the four blocks that one event can queue (R193). -/
theorem windowRoom_queueBlock {fuel : Nat} (h : s.windowOpen = true) (hfuel : fuel < 4) :
    min fuel s.queueBlock.windowRoom + 1 = min (fuel + 1) s.windowRoom := by
  obtain ⟨hsending, htotal, hwindow, hroom⟩ := windowOpen_iff.mp h
  simp only [queueBlock_eq_blocksQueued, windowRoom, blocksQueued_day, blocksQueued_port, hsending, if_true,
    List.length_append, List.length_map, List.length_range']
  omega

theorem queueBlocks_eq_blocksQueued {fuel : Nat} (hfuel : fuel ≤ 4) :
    queueBlocks fuel s =
      if min fuel s.windowRoom = 0 then s else s.blocksQueued (min fuel s.windowRoom) := by
  induction fuel generalizing s with
  | zero => simp [queueBlocks]
  | succ fuel ih =>
    unfold queueBlocks
    by_cases hopen : s.windowOpen = true
    · have hstep := windowRoom_queueBlock (fuel := fuel) hopen hfuel
      rw [if_pos hopen, ih (by omega), ← hstep, if_neg (Nat.succ_ne_zero _)]
      split
      · next hlast => rw [hlast, queueBlock_eq_blocksQueued]
      · rw [Nat.add_comm, ← blocksQueued_add, ← queueBlock_eq_blocksQueued]
    · have hnone : s.windowRoom = 0 := Nat.eq_zero_of_not_pos (mt windowOpen_iff_windowRoom_pos.mpr hopen)
      rw [if_neg hopen, if_pos (by omega)]

/-- The window test is the update that R193 describes. -/
theorem testWindow_eq_windowTested (s : State) : s.testWindow = s.windowTested := by
  have hroom : min Config.window s.windowRoom = s.windowRoom := Nat.min_eq_right s.windowRoom_le
  rw [windowTested_eq_blocksQueued, testWindow, queueBlocks_eq_blocksQueued (fuel := Config.window) le_rfl, hroom]

/-- Outside SENDING the window queues nothing (R193). -/
theorem windowTested_of_not_sending (h : s.day.state ≠ .sending) : s.windowTested = s := by
  have hroom : s.windowRoom = 0 := if_neg h
  rw [windowTested_eq_blocksQueued, if_pos hroom]

end Sys2Proof.Machine.State
end

