-- ==== Sys2Proof/Proofs/DayStateReports.lean ====
section
/-! A new day state and its DAY notice: marks alone on the screens, and a frame queued or a notice counted as lost (R6, R141,
R184, R189). -/

namespace Sys2Proof.Machine

/-! ### Marks alone on the screens (R141) -/

theorem Screen.mark_eq (t : Tables) (touched : Source → Bool) (sc : Screen) :
    sc.mark t touched = { sc with dirty := (sc.mark t touched).dirty } := rfl

theorem Screen.mem_mark_dirty {t : Tables} {touched : Source → Bool} {sc : Screen} {r : Nat} (h1 : 1 ≤ r) (h24 : r ≤ 24)
    (h : r ∈ sc.dirty) : r ∈ (sc.mark t touched).dirty := by
  refine List.mem_filter.mpr ⟨List.mem_range'_1.mpr ⟨h1, by omega⟩, ?_⟩
  simp [h]

theorem OnlyMarks.refl (s : State) : OnlyMarks s s := fun _ => ⟨rfl, fun _ _ _ h => h⟩

theorem OnlyMarks.trans {s t u : State} (h : OnlyMarks s t) (g : OnlyMarks t u) : OnlyMarks s u := by
  intro p
  obtain ⟨hscreen, hdirty⟩ := h p
  obtain ⟨gscreen, gdirty⟩ := g p
  refine ⟨?_, fun r h1 h24 hr => gdirty r h1 h24 (hdirty r h1 h24 hr)⟩
  rw [hscreen] at gscreen
  exact gscreen

/-- Marks are told by the screens, whatever else two states differ in. -/
theorem OnlyMarks.congr {s s' t t' : State} (h : OnlyMarks s t) (hs : s'.screens = s.screens) (ht : t'.screens = t.screens) :
    OnlyMarks s' t' := by
  intro p
  rw [State.screen_congr hs, State.screen_congr ht]
  exact h p

namespace State

theorem onScreen_mark_onlyMarks (s : State) (p : Nat) (touched : Source → Bool) :
    OnlyMarks s (s.onScreen p fun t sc => sc.mark t touched) := by
  intro q
  unfold onScreen
  rw [screen_setScreen]
  split
  · next h =>
    obtain ⟨rfl, _⟩ := h
    exact ⟨Screen.mark_eq .., fun r => Screen.mem_mark_dirty⟩
  · exact ⟨rfl, fun _ _ _ h => h⟩

theorem touch_onlyMarks (s : State) (ps : List Nat) (touched : Source → Bool) : OnlyMarks s (s.touch ps touched) := by
  induction ps generalizing s with
  | nil => exact .refl s
  | cons p ps ih => exact (s.onScreen_mark_onlyMarks p touched).trans (ih _)

theorem dayReport_onlyMarks (s : State) : OnlyMarks s s.dayReport := s.touch_onlyMarks allPositions _

/-- A new day state does nothing to the screens but mark rows (R184). -/
theorem setDayState_onlyMarks (s : State) (x : DayState) : OnlyMarks s (s.setDayState x) :=
  OnlyMarks.congr (s.withDay { s.day with state := x }).dayReport_onlyMarks rfl rfl

theorem setDayState_eq (s : State) (x : DayState) :
    s.setDayState x = { s with day := { s.day with state := x }, screens := (s.setDayState x).screens } := by
  have hreport := dayReport_within (s.withDay { s.day with state := x })
  have heq := eq_of_within hreport.mono
  rwa [hreport .port (by decide), hreport .counters (by decide), hreport .journal (by decide),
    hreport .drawers (by decide)] at heq

/-- A notice takes the free slot or, when there is none, is dropped and counted (R6). -/
theorem offerNotice_eq (s : State) (f : UpFrame) : s.offerNotice f =
    { s with
      port := if s.port.queue.length < 64 then (s.withFrame f).port else s.port
      counters := if s.port.queue.length < 64 then s.counters
                  else { s.counters with noticeLost := oneMore s.counters.noticeLost } } := by
  have hroom : s.hasRoom = true ↔ s.port.queue.length < 64 := decide_eq_true_iff
  unfold offerNotice
  by_cases h : s.port.queue.length < 64
  · rw [if_pos (hroom.mpr h), if_pos h, if_pos h, enqueue_eq_withFrame]
    rfl
  · rw [if_neg (mt hroom.mp h), if_neg h, if_neg h]
    rfl

/-- What R184 and R189 change besides the marks: the day state, and the port or the count of lost notices. -/
theorem setDayState_dayNotice_eq (s : State) (x : DayState) : (s.setDayState x).dayNotice =
    { s with
      day := { s.day with state := x }
      screens := (s.setDayState x).dayNotice.screens
      port := if s.port.queue.length < 64 then (s.withFrame (.day x s.day.date)).port else s.port
      counters := if s.port.queue.length < 64 then s.counters
                  else { s.counters with noticeLost := oneMore s.counters.noticeLost } } := by
  obtain ⟨screens, hreported⟩ : ∃ screens, s.setDayState x =
      { s with day := { s.day with state := x }, screens := screens } := ⟨_, s.setDayState_eq x⟩
  rw [hreported, dayNotice, offerNotice_eq]
  rfl

theorem setDayState_dayNotice_onlyMarks (s : State) (x : DayState) : OnlyMarks s (s.setDayState x).dayNotice :=
  (s.setDayState_onlyMarks x).congr rfl (dayNotice_within _ .screens (by decide))

end State

end Sys2Proof.Machine
end

