-- ==== Sys2Proof/Proofs/BatchAcks.lean ====
section
/-! BATCH_ACK and BATCH_NACK: what is taken and what is ignored (R194, R195, R198). -/

namespace Sys2Proof.Machine.State

variable {s : State} {n : Nat}

theorem outstanding_iff : s.outstanding n = true ↔ s.day.acked < n ∧ n ≤ s.day.highest := by
  simp [outstanding]

/-- The acknowledgment of block n entered in the day record, in day state x and with the ack-wait timer as given (R194). -/
def blockAcked (s : State) (n : Nat) (x : DayState) (timer : Option Nat) : State :=
  { s with day := { s.day with state := x, acked := n, sent := max s.day.sent n, expiries := 0, ackTimer := timer } }

theorem takeAck_of_not_outstanding
    (h : ¬ ((s.day.state = .sending ∨ s.day.state = .held) ∧ s.day.acked < n ∧ n ≤ s.day.highest)) :
    s.takeAck n = s.countBatchAckIgnored := by
  unfold takeAck
  exact if_neg (by rwa [outstanding_iff])

/-- An acknowledgment that takes effect: the last block's ends the batch, any other has the window tested (R194, R198). -/
theorem takeAck_of_outstanding (hstate : s.day.state = .sending ∨ s.day.state = .held) (hlow : s.day.acked < n)
    (hhigh : n ≤ s.day.highest) :
    s.takeAck n =
      if n = s.day.blocks.length then ((s.blockAcked n s.day.state none).setDayState .sent).dayNotice
      else (s.blockAcked n s.day.state
        (if s.day.state = .sending ∧ n < s.day.highest then some s.tables.params.batchAck else none)).testWindow :=
  if_pos ⟨hstate, outstanding_iff.mpr ⟨hlow, hhigh⟩⟩

theorem takeNack_of_outstanding (hstate : s.day.state = .sending) (hlow : s.day.acked < n) (hhigh : n ≤ s.day.highest) :
    s.takeNack n = ({ s with day := { s.day with sent := n - 1 } } : State).windowTested := by
  rw [← testWindow_eq_windowTested]
  exact if_pos ⟨hstate, outstanding_iff.mpr ⟨hlow, hhigh⟩⟩

theorem takeNack_of_not_outstanding (h : ¬ (s.day.state = .sending ∧ s.day.acked < n ∧ n ≤ s.day.highest)) :
    s.takeNack n = s.countBatchAckIgnored := by
  unfold takeNack
  exact if_neg (by rwa [outstanding_iff])

theorem exec_sendWindow (s : State) : exec .sendWindow s = .next s.testWindow := rfl
theorem exec_batchAck (n : Nat) (s : State) : exec (.batchAck n) s = .next (s.takeAck n) := rfl
theorem exec_batchNack (n : Nat) (s : State) : exec (.batchNack n) s = .next (s.takeNack n) := rfl

end Sys2Proof.Machine.State

namespace Sys2Proof.Proofs

open Sys2Proof.Machine Sys2Proof.Machine.State

/-- Settles O20: the window test is the update of R193 (testWindow_eq_windowTested), an acknowledgment or a nack of an outstanding
block comes to takeAck_of_outstanding or takeNack_of_outstanding, and any other is counted as ignored. -/
theorem batchAcknowledgments : Obligations.BatchAcknowledgments := by
  unfold Obligations.BatchAcknowledgments
  refine ⟨fun s => ?_, fun n s => ?_, fun n s => ⟨?_, ?_⟩⟩
  · rw [exec_sendWindow, testWindow_eq_windowTested]
  · rw [exec_batchAck]
    refine ⟨fun hignored => ?_, fun hlow hhigh =>
      ⟨fun hsending hlast => ?_, fun hheld hlast => ?_, fun hstate hlast => ?_⟩⟩
    · rw [takeAck_of_not_outstanding hignored]
      rfl
    · rw [takeAck_of_outstanding (.inl hsending) hlow hhigh, if_neg hlast, testWindow_eq_windowTested]
      simp only [hsending, true_and]
      rfl
    · have hstopped : ¬ (s.day.state = .sending ∧ n < s.day.highest) := by simp [hheld]
      rw [takeAck_of_outstanding (.inr hheld) hlow hhigh, if_neg hlast, if_neg hstopped,
        testWindow_eq_windowTested, hheld, windowTested_of_not_sending (by simp [blockAcked])]
      rfl
    · rw [takeAck_of_outstanding hstate hlow hhigh, if_pos hlast]
      have hmarks := setDayState_dayNotice_onlyMarks (s.blockAcked n s.day.state none) .sent
      exact ⟨_, rfl, hmarks.congr rfl rfl, setDayState_dayNotice_eq ..⟩
  · rintro ⟨hsending, hlow, hhigh⟩
    rw [exec_batchNack, takeNack_of_outstanding hsending hlow hhigh]
  · intro hignored
    rw [exec_batchNack, takeNack_of_not_outstanding hignored]
    rfl

end Sys2Proof.Proofs
end

