-- ==== Sys2Proof/Proofs/Commands.lean ====
section
/-! What each command can change (one list of aspects per command, one lemma over all of them), and the statements about every
command that follow from these lists: that it goes on, that the journal only grows, and what the lock level, the tables and the
book counts are left to. -/

set_option Elab.async false

namespace Sys2Proof.Machine

open State

/-! ### The messages that move money (R93, R103, R117, R120) -/

/-- The messages of a unit that may change a book count: a request, a grant, and a proof that balances or is accepted. -/
def InMsg.movesMoney : InMsg → Bool
  | .request _ => true
  | .override _ _ => true
  | .count _ _ => true
  | .acceptDiff _ _ => true
  | _ => false

/-- The frame is a message that may change a book count. -/
def RxFrame.movesMoney : RxFrame → Bool
  | .message _ _ _ m => m.movesMoney
  | _ => false

namespace State

theorem deliver_booksKept (s : State) (p : Nat) {m : InMsg} (h : m.movesMoney = false) : BooksKept s (s.deliver p m) := by
  cases m with
  | request r => cases h
  | override tag decision => cases h
  | count d lists => cases h
  | acceptDiff d lists => cases h
  | signOn teller => exact takeSignOn_within s _ _ .booksKept (by decide)
  | signOff => exact takeSignOff_within s _ .booksKept (by decide)
  | suspend => exact takeSuspend_within s _ .booksKept (by decide)
  | resume teller => exact takeResume_within s _ _ .booksKept (by decide)
  | cancel => exact takeCancel_within s _ .booksKept (by decide)
  | reopen d => exact takeReopen_within s _ _ .booksKept (by decide)
  | form f => exact takeFormMessage_within s _ _ .booksKept (by decide)
  | close => exact takeClose_within s _ .booksKept (by decide)
  | bookIn account layout page line => exact takeBookIn_within s _ _ _ _ _ .booksKept (by decide)
  | bookOut => exact takeBookOut_within s _ .booksKept (by decide)
  | status v =>
    cases v with
    | ready => exact takeReady_within s _ .booksKept (by decide)
    | lineDone => exact takeLineDone_within s _ .booksKept (by decide)
    | jam => exact takeJam_within s _ .booksKept (by decide)
    | jamCleared => exact takeJamCleared_within s _ .booksKept (by decide)
    | turned => exact takeTurned_within s _ .booksKept (by decide)
  | opened => exact takeOpened_within s _ .booksKept (by decide)
  | closed => exact takeClosed_within s _ .booksKept (by decide)
  | fault => exact takeFault_within s _ .booksKept (by decide)
  | bad => exact countLineBadMessage_within s .booksKept (by decide)

theorem acceptInbound_booksKept (s : State) (x : Transfer) (n : Nat) {m : InMsg} (h : m.movesMoney = false) :
    BooksKept s (s.acceptInbound x n m) := by
  unfold acceptInbound
  dsimp only
  split
  · exact fun _ => rfl
  · exact fun d => deliver_booksKept _ _ h d

theorem receiveInbound_booksKept (s : State) (x : Transfer) {f : RxFrame} (h : f.movesMoney = false) :
    BooksKept s (s.receiveInbound x f) := by
  unfold receiveInbound
  split
  · split
    · exact acceptInbound_booksKept s x _ h
    · exact rejectInbound_within s x _ .booksKept (by decide)
  · split
    · exact endTransfer_within s .booksKept (by decide)
    · exact rejectInbound_within s x _ .booksKept (by decide)
  · exact rejectInbound_within s x _ .booksKept (by decide)

/-- A frame that carries none of these messages leaves every book count as it is. -/
theorem receive_booksKept (s : State) {f : RxFrame} (h : f.movesMoney = false) : BooksKept s (s.receive f) := by
  unfold receive
  split
  · exact fun _ => rfl
  · dsimp only
    have hmarked : BooksKept s (if f = .badForm then s.withLine { s.line with discarding := true } else s) := by
      split <;> exact fun _ => rfl
    generalize (if f = .badForm then s.withLine { s.line with discarding := true } else s) = t at hmarked ⊢
    refine Aspect.trans .booksKept hmarked ?_
    split
    · exact discardFrame_within _ _ .booksKept (by decide)
    · exact discardFrame_within _ _ .booksKept (by decide)
    · exact receiveSlot_within _ _ _ .booksKept (by decide)
    · exact receiveInbound_booksKept _ _ h
    · exact receiveReply_within _ _ _ .booksKept (by decide)
    · exact receiveProbe_within _ _ _ _ _ .booksKept (by decide)

end State

/-! ### The aspects that a command may break -/

/-- A start: everything but the capacities, the numbering and the sound tables. -/
def Aspect.atStart : List Aspect :=
  [.port, .portRest, .queueGrows, .counters, .lock, .lockRises, .tables, .line, .lineRest, .survey, .sessions, .entries,
    .tagCounter, .overrides, .drawers, .booksKept, .screens, .printers, .store, .journal, .records, .journalGrows, .day,
    .dayState]

/-- The bytes of an office-link frame may carry any request, a start among them. -/
def Aspect.atOfficeBytes : List Aspect := .freeDraws :: atStart

/-- A frame of the station line that moves no money. -/
def Aspect.atFrame : List Aspect :=
  [.drawers, .port, .counters, .screens, .journal, .records, .line, .lineRest, .printers, .store, .sessions, .day,
    .dayState, .entries, .entriesKept, .tagCounter, .overrides, .freeDraws, .survey]

/-- A message that may move money, or bytes that may carry one. -/
def Aspect.atMoney : List Aspect := .booksKept :: atFrame

/-- The end of an entry, with the completion that may follow. -/
def Aspect.atEnd : List Aspect :=
  [.drawers, .screens, .journal, .records, .port, .counters, .sessions, .day, .dayState, .entries, .overrides]

/-- A printer's timer or room in its queue. -/
def Aspect.atPrinter : List Aspect := [.port, .line, .printers, .screens, .store]

/-- A request that is answered. -/
def Aspect.atReply : List Aspect := [.port, .portRest, .counters]

/-- What a command may break. -/
def mayBreak : Instr → List Aspect
  | .powerOn .. | .restart .. => Aspect.atStart
  | .badFrame .. | .wrongNodeFrame .. => Aspect.atOfficeBytes
  | .olrdyAsserted | .olrdyDeasserted => [.port, .portRest]
  | .frameSent => [.port, .portRest, .queueGrows]
  | .reversalNoticeQueued .. | .approvalWaitExpiry .. | .overrideWaitExpiry .. => Aspect.atEnd
  | .grantedRequestQueued .. => [.port, .entries, .screens]
  | .owedNoticeQueued .. | .outboundQueueRoom .. | .pacingTimerExpiry .. | .lineCompletionWaitExpiry ..
  | .bookWaitExpiry .. => Aspect.atPrinter
  | .sendWindow | .batchNack .. => [.day, .port, .counters]
  | .answer .. => .portRest :: Aspect.atMoney
  | .batchAck .. | .ackWaitExpiry => [.day, .dayState, .port, .counters, .screens]
  | .identify .. | .readStatus .. | .readCounters .. | .tableRead .. | .readDrawer .. | .readSession .. | .readPending ..
  | .readJournal .. | .readSurveyPosition .. | .unknown .. => Aspect.atReply
  | .tableWrite .. => [.tables, .drawers, .screens, .sessions, .port, .portRest, .counters]
  | .lock .. => [.lock, .screens, .port, .portRest, .counters]
  | .openDay .. =>
    [.day, .dayState, .journal, .records, .journalGrows, .port, .portRest, .counters, .drawers, .screens]
  | .cutoff .. | .reopenDay .. | .resumeBatch .. =>
    [.sessions, .screens, .journal, .records, .port, .portRest, .counters, .day, .dayState, .drawers]
  | .startSurvey .. | .readSurveySummary .. => [.survey, .line, .lineRest, .port, .portRest, .counters]
  | .rollCallTimerExpiry | .lineSilent => [.line, .lineRest]
  | .grant | .unitReplyWaitExpiry =>
    [.screens, .line, .lineRest, .printers, .store, .drawers, .survey, .counters, .port]
  | .rollAnswer .. | .accept .. | .reject .. | .busy .. | .echo .. | .signOn .. | .signOff .. | .suspend .. | .resume ..
  | .cancel .. | .reopen .. | .form .. | .close .. | .bookIn .. | .bookOut .. | .statusReady .. | .lineDone ..
  | .turned .. | .jam .. | .jamCleared .. | .opened .. | .closed .. | .fault .. => Aspect.atFrame
  | .lineFrameDiscarded .. | .inboundFrameRejected .. | .surveyProbeBadReply .. | .repeatMessage .. | .lineBadMessage ..
  | .request .. | .override .. | .count .. | .acceptDiff .. => Aspect.atMoney
  | .openAlarmExpiry .. => [.drawers, .port, .counters, .screens]
  | .dayClockTick => [.day]

theorem receive_within_atMoney (s : State) (f : RxFrame) : Within Aspect.atMoney s (s.receive f) := (receive_within s f).mono

theorem receive_within_atFrame (s : State) {f : RxFrame} (h : f.movesMoney = false) :
    Within Aspect.atFrame s (s.receive f) :=
  Within.restore .booksKept (receive_within_atMoney s f) (receive_booksKept s h)

theorem receiveBytes_within_atMoney (s : State) (bs : List Byte) : Within Aspect.atMoney s (s.receiveBytes bs) :=
  (receiveBytes_within s bs).mono

/-- Every command comes to a next state, and breaks no aspect but those listed. -/
theorem exec_within (c : Instr) (s : State) : ∃ t, exec c s = .next t ∧ Within (mayBreak c) s t := by
  cases c with
  | powerOn straps retv => exact ⟨_, rfl, powerOn_within s _ _⟩
  | badFrame frame => exact ⟨_, rfl, (receiveOffice_within s _).mono rfl⟩
  | wrongNodeFrame kind node tag payload => exact ⟨_, rfl, (filterNode_within s _ _ _ _).mono rfl⟩
  | olrdyAsserted => exact ⟨_, rfl, linkReady_within s⟩
  | olrdyDeasserted => exact ⟨_, rfl, linkStalled_within s⟩
  | frameSent => exact ⟨_, rfl, frameLeaves_within s⟩
  | reversalNoticeQueued index => exact ⟨_, rfl, (queueReversal_within s _).mono rfl⟩
  | grantedRequestQueued index => exact ⟨_, rfl, queueGranted_within s _⟩
  | owedNoticeQueued pos => exact ⟨_, rfl, queueOwed_within s _⟩
  | sendWindow => exact ⟨_, rfl, (testWindow_within s).mono rfl⟩
  | answer tag payload => exact ⟨_, rfl, (takeAnswer_within s _ _).mono rfl⟩
  | batchAck block => exact ⟨_, rfl, takeAck_within s _⟩
  | batchNack block => exact ⟨_, rfl, takeNack_within s _⟩
  | identify tag params => exact ⟨_, rfl, answerRead_within s _ _ _ _ _⟩
  | readStatus tag params => exact ⟨_, rfl, answerRead_within s _ _ _ _ _⟩
  | readCounters tag params => exact ⟨_, rfl, mgmtReadCounters_within s _ _⟩
  | tableWrite tag params => exact ⟨_, rfl, mgmtTableWrite_within s _ _⟩
  | tableRead tag params => exact ⟨_, rfl, answerRead_within s _ _ _ _ _⟩
  | lock tag params => exact ⟨_, rfl, mgmtLock_within s _ _⟩
  | openDay tag params => exact ⟨_, rfl, mgmtOpen_within s _ _⟩
  | cutoff tag params => exact ⟨_, rfl, mgmtCut_within s _ _⟩
  | reopenDay tag params => exact ⟨_, rfl, (mgmtReopen_within s _ _).mono rfl⟩
  | resumeBatch tag params => exact ⟨_, rfl, (mgmtResume_within s _ _).mono rfl⟩
  | readDrawer tag params => exact ⟨_, rfl, answerRead_within s _ _ _ _ _⟩
  | readSession tag params => exact ⟨_, rfl, answerRead_within s _ _ _ _ _⟩
  | readPending tag params => exact ⟨_, rfl, answerRead_within s _ _ _ _ _⟩
  | readJournal tag params => exact ⟨_, rfl, answerRead_within s _ _ _ _ _⟩
  | startSurvey tag params => exact ⟨_, rfl, (mgmtSurvey_within s _ _).mono rfl⟩
  | readSurveyPosition tag params => exact ⟨_, rfl, answerRead_within s _ _ _ _ _⟩
  | readSurveySummary tag params => exact ⟨_, rfl, mgmtSurveySummary_within s _ _⟩
  | restart tag params straps => exact ⟨_, rfl, restart_within s _ _ _⟩
  | unknown code tag params => exact ⟨_, rfl, reply_within s _ _ _⟩
  | rollCallTimerExpiry => exact ⟨_, rfl, rollTimerExpires_within s⟩
  | grant => exact ⟨_, rfl, (grant_within s).mono rfl⟩
  | rollAnswer pos presence attention => exact ⟨_, rfl, receive_within_atFrame s rfl⟩
  | unitReplyWaitExpiry => exact ⟨_, rfl, (replyWaitExpires_within s).mono rfl⟩
  | accept pos unit seq => exact ⟨_, rfl, receive_within_atFrame s rfl⟩
  | reject pos unit seq => exact ⟨_, rfl, receive_within_atFrame s rfl⟩
  | busy pos unit seq => exact ⟨_, rfl, receive_within_atFrame s rfl⟩
  | echo pos unit pattern => exact ⟨_, rfl, receive_within_atFrame s rfl⟩
  | lineFrameDiscarded frame => exact ⟨_, rfl, receiveBytes_within_atMoney s _⟩
  | inboundFrameRejected frame => exact ⟨_, rfl, receiveBytes_within_atMoney s _⟩
  | repeatMessage pos unit kind seq payload => exact ⟨_, rfl, receive_within_atMoney s _⟩
  | lineBadMessage pos unit kind seq payload => exact ⟨_, rfl, receive_within_atMoney s _⟩
  | outboundQueueRoom pos unit => exact ⟨_, rfl, (queueRoom_within s _ _).mono rfl⟩
  | signOn pos seq teller => exact ⟨_, rfl, receive_within_atFrame s rfl⟩
  | signOff pos seq => exact ⟨_, rfl, receive_within_atFrame s rfl⟩
  | suspend pos seq => exact ⟨_, rfl, receive_within_atFrame s rfl⟩
  | resume pos seq teller => exact ⟨_, rfl, receive_within_atFrame s rfl⟩
  | request pos seq r => exact ⟨_, rfl, receive_within_atMoney s _⟩
  | cancel pos seq => exact ⟨_, rfl, receive_within_atFrame s rfl⟩
  | override pos seq tag decision => exact ⟨_, rfl, receive_within_atMoney s _⟩
  | count pos seq drawer lists => exact ⟨_, rfl, receive_within_atMoney s _⟩
  | acceptDiff pos seq drawer lists => exact ⟨_, rfl, receive_within_atMoney s _⟩
  | reopen pos seq drawer => exact ⟨_, rfl, receive_within_atFrame s rfl⟩
  | form pos seq form => exact ⟨_, rfl, receive_within_atFrame s rfl⟩
  | close pos seq => exact ⟨_, rfl, receive_within_atFrame s rfl⟩
  | bookIn pos seq account layout page line => exact ⟨_, rfl, receive_within_atFrame s rfl⟩
  | bookOut pos seq => exact ⟨_, rfl, receive_within_atFrame s rfl⟩
  | statusReady pos seq => exact ⟨_, rfl, receive_within_atFrame s rfl⟩
  | lineDone pos seq => exact ⟨_, rfl, receive_within_atFrame s rfl⟩
  | turned pos seq => exact ⟨_, rfl, receive_within_atFrame s rfl⟩
  | jam pos seq => exact ⟨_, rfl, receive_within_atFrame s rfl⟩
  | jamCleared pos seq => exact ⟨_, rfl, receive_within_atFrame s rfl⟩
  | opened pos seq => exact ⟨_, rfl, receive_within_atFrame s rfl⟩
  | closed pos seq => exact ⟨_, rfl, receive_within_atFrame s rfl⟩
  | fault pos seq => exact ⟨_, rfl, receive_within_atFrame s rfl⟩
  | approvalWaitExpiry index => exact ⟨_, rfl, (approvalExpires_within s _).mono rfl⟩
  | overrideWaitExpiry index => exact ⟨_, rfl, (overrideExpires_within s _).mono rfl⟩
  | openAlarmExpiry drawer => exact ⟨_, rfl, openAlarmExpires_within s _⟩
  | pacingTimerExpiry pos => exact ⟨_, rfl, (pacingExpires_within s _).mono rfl⟩
  | lineCompletionWaitExpiry pos => exact ⟨_, rfl, (lineWaitExpires_within s _).mono rfl⟩
  | bookWaitExpiry pos => exact ⟨_, rfl, (bookWaitExpires_within s _).mono rfl⟩
  | ackWaitExpiry => exact ⟨_, rfl, ackWaitExpires_within s⟩
  | dayClockTick => exact ⟨_, rfl, clockTick_within s⟩
  | surveyProbeBadReply frame => exact ⟨_, rfl, receiveBytes_within_atMoney s _⟩
  | lineSilent => exact ⟨_, rfl, fallSilent_within s⟩

/-- An aspect that is not listed holds from a command's state to the next. -/
theorem exec_keeps {c : Instr} {s t : State} (h : exec c s = .next t) {a : Aspect} (ha : a ∉ mayBreak c) : a.Holds s t := by
  obtain ⟨u, hu, hw⟩ := exec_within c s
  rw [h] at hu
  cases hu
  exact hw a ha

/-! ### What no command breaks -/

/-- The aspects that no command breaks: the waiting commands, the capacities, the journal's numbers, the send window and the
pending request table. -/
def Aspect.unbroken : List Aspect :=
  [.pending, .queueBounded, .unitsBounded, .countersBounded, .lockBounded, .grantBounded, .tagBounded, .clockBounded,
    .journalNumbered, .windowSound, .entriesSound]

theorem unbroken_not_mem_mayBreak (c : Instr) : ∀ a ∈ Aspect.unbroken, a ∉ mayBreak c := by
  cases c <;> exact of_decide_eq_true rfl

/-- What a tick may break besides the waiting commands. -/
def Aspect.ticking : List Aspect := [.line, .lineRest, .survey, .entries, .drawers, .printers, .day]

theorem unbroken_not_ticking : ∀ a ∈ Aspect.unbroken, a ∉ Aspect.ticking := by
  decide

/-- A step keeps what neither a command nor a tick breaks. -/
theorem step_keeps {s t : State} (h : step s = .next t) {a : Aspect} (ha : a ∈ Aspect.unbroken) (hp : a ≠ .pending) :
    a.Holds s t := by
  unfold step at h
  split at h
  · injection h with h
    rw [← h]
    have hlisted : a ∉ Aspect.ticking ++ [.pending] := by
      simpa [hp] using unbroken_not_ticking a ha
    exact tick_within s a hlisted
  · next c rest _ =>
    have hpending : a.Holds s (s.withPending rest) := withPending_within s rest a (by simpa using hp)
    exact a.trans hpending (exec_keeps h (unbroken_not_mem_mayBreak c a ha))

end Sys2Proof.Machine

namespace Sys2Proof.Proofs

open Sys2Proof.Machine Sys2Proof.Machine.State

/-- Settles O1: by the definition of a step. -/
theorem stepTakesFrontCommand : Obligations.StepTakesFrontCommand := by
  unfold Obligations.StepTakesFrontCommand
  intro c rest s h
  unfold step
  rw [h]

/-- Settles O3: every command comes to a next state and none breaks the aspect of the waiting commands. -/
theorem everyCommandGoesOn : Obligations.EveryCommandGoesOn := by
  unfold Obligations.EveryCommandGoesOn
  intro c s
  obtain ⟨t, ht, hw⟩ := exec_within c s
  exact ⟨t, ht, hw .pending (unbroken_not_mem_mayBreak c .pending (by decide))⟩

/-- Settles O57: no step breaks the numbering, and the commands that may break the journal's growth are those named. -/
theorem journalNumberedAndAppended : Obligations.JournalNumberedAndAppended := by
  unfold Obligations.JournalNumberedAndAppended
  refine ⟨fun s t hs h => step_keeps h (a := .journalNumbered) (by decide) (by decide) hs,
    fun c s t h hpower hrestart hopen hbytes hnode => exec_keeps h (a := .journalGrows) ?_⟩
  cases c with
  | powerOn straps retv => exact absurd rfl (hpower straps retv)
  | restart tag ps straps => exact absurd rfl (hrestart tag ps straps)
  | openDay tag ps => exact absurd rfl (hopen tag ps)
  | badFrame bytes => exact absurd rfl (hbytes bytes)
  | wrongNodeFrame kind node tag payload => exact absurd rfl (hnode kind node tag payload)
  | _ => exact of_decide_eq_true rfl

/-- Settles O60: which commands may break the lock level's rise, the tables and the book counts is read off their lists. -/
theorem lockAndTablesHold : Obligations.LockAndTablesHold := by
  unfold Obligations.LockAndTablesHold
  intro c s t h hpower hrestart hbytes hnode
  refine ⟨⟨exec_keeps h (a := .lockRises) ?_, fun hwrite => exec_keeps h (a := .tables) ?_⟩,
    fun hframe hmessage hanswer hrequest hoverride hcount => exec_keeps h (a := .booksKept) ?_⟩
  · cases c with
    | powerOn straps retv => exact absurd rfl (hpower straps retv)
    | restart tag ps straps => exact absurd rfl (hrestart tag ps straps)
    | badFrame bytes => exact absurd rfl (hbytes bytes)
    | wrongNodeFrame kind node tag payload => exact absurd rfl (hnode kind node tag payload)
    | _ => exact of_decide_eq_true rfl
  · cases c with
    | powerOn straps retv => exact absurd rfl (hpower straps retv)
    | restart tag ps straps => exact absurd rfl (hrestart tag ps straps)
    | badFrame bytes => exact absurd rfl (hbytes bytes)
    | wrongNodeFrame kind node tag payload => exact absurd rfl (hnode kind node tag payload)
    | tableWrite tag ps => exact absurd rfl (hwrite tag ps)
    | _ => exact of_decide_eq_true rfl
  · cases c with
    | powerOn straps retv => exact absurd rfl (hpower straps retv)
    | restart tag ps straps => exact absurd rfl (hrestart tag ps straps)
    | badFrame bytes => exact absurd rfl (hbytes bytes)
    | wrongNodeFrame kind node tag payload => exact absurd rfl (hnode kind node tag payload)
    | answer tag payload => exact absurd rfl (hanswer tag payload)
    | request p seq r => exact absurd rfl (hrequest p seq r)
    | override p seq tag decision => exact absurd rfl (hoverride p seq tag decision)
    | count p seq d lists => exact absurd rfl (hcount p seq d lists).1
    | acceptDiff p seq d lists => exact absurd rfl (hcount p seq d lists).2
    | lineFrameDiscarded bytes => exact absurd rfl (hframe bytes).1
    | inboundFrameRejected bytes => exact absurd rfl (hframe bytes).2.1
    | surveyProbeBadReply bytes => exact absurd rfl (hframe bytes).2.2
    | repeatMessage p u kind seq payload => exact absurd rfl (hmessage p u kind seq payload).1
    | lineBadMessage p u kind seq payload => exact absurd rfl (hmessage p u kind seq payload).2
    | _ => exact of_decide_eq_true rfl

end Sys2Proof.Proofs
end

