-- ==== Sys2Proof/Proofs/Folds.lean ====
section
/-! Two tools for operations over the whole state: a run over a bank that changes each record by its own value, and the
record update that a list of aspects leaves possible. -/

set_option Elab.async false

namespace Sys2Proof.Machine

/-- A run over places, each step changing what is read at its own place alone, and that by what stood there: in the end every
place of the run has been changed once. -/
theorem foldl_places {σ β : Type} (read : σ → Nat → β) (f : σ → Nat → σ) (g : σ → Nat → β → β)
    (hother : ∀ s i j, i ≠ j → read (f s i) j = read s j) (hg : ∀ s i j x, g (f s i) j x = g s j x) {l : List Nat}
    (hsame : ∀ s, ∀ i ∈ l, read (f s i) i = g s i (read s i)) (hl : l.Nodup) (s : σ) (j : Nat) :
    read (l.foldl f s) j = if j ∈ l then g s j (read s j) else read s j := by
  induction l generalizing s with
  | nil => simp
  | cons i l ih =>
    obtain ⟨hi, hl⟩ := List.nodup_cons.mp hl
    rw [List.foldl_cons, ih (fun s k hk => hsame s k (List.mem_cons_of_mem i hk)) hl]
    by_cases hij : i = j
    · subst hij
      simp [hi, hsame s i List.mem_cons_self]
    · have hji : ¬ j = i := fun h => hij h.symm
      simp [hji, hother _ _ _ hij, hg]

theorem mem_allPositions {p : Nat} : p ∈ allPositions ↔ 1 ≤ p ∧ p ≤ 24 := by
  simp only [allPositions, List.mem_range'_1]
  omega

theorem mem_allDrawers {d : Nat} : d ∈ allDrawers ↔ d ≤ 24 := by
  simp only [allDrawers, List.mem_range]
  omega

theorem allPositions_nodup : allPositions.Nodup := List.nodup_range'

theorem allDrawers_nodup : allDrawers.Nodup := List.nodup_range

namespace State

variable (s : State)

/-- A position outside 1 to 24 and a drawer above 24 read as the default record. -/
theorem printer_outside {p : Nat} (h : ¬ (1 ≤ p ∧ p ≤ 24)) : s.printer p = Printer.start := by
  unfold printer rd1
  split
  · rfl
  · exact rd_outside _ (by omega) _

theorem screen_outside {p : Nat} (h : ¬ (1 ≤ p ∧ p ≤ 24)) : s.screen p = Screen.start 0 false := by
  unfold screen rd1
  split
  · rfl
  · exact rd_outside _ (by omega) _

theorem session_outside {p : Nat} (h : ¬ (1 ≤ p ∧ p ≤ 24)) : s.session p = Session.off := by
  unfold session rd1
  split
  · rfl
  · exact rd_outside _ (by omega) _

theorem drawer_outside {d : Nat} (h : 24 < d) : s.drawer d = Drawer.cold := rd_outside _ (by omega) _

theorem entry_outside {i : Nat} (h : 32 ≤ i) : s.entry i = none := rd_outside _ h _

/-- The state whose fields are those of t where the aspects listed allow a change, and those of s elsewhere. -/
def merge (s : State) (m : List Aspect) (t : State) : State where
  port := if m.contains .port then t.port else s.port
  counters := if m.contains .counters then t.counters else s.counters
  lock := if m.contains .lock then t.lock else s.lock
  tables := if m.contains .tables then t.tables else s.tables
  line := if m.contains .line then t.line else s.line
  survey := if m.contains .survey then t.survey else s.survey
  sessions := if m.contains .sessions then t.sessions else s.sessions
  entries := if m.contains .entries then t.entries else s.entries
  tagCounter := if m.contains .tagCounter then t.tagCounter else s.tagCounter
  overrides := if m.contains .overrides then t.overrides else s.overrides
  drawers := if m.contains .drawers then t.drawers else s.drawers
  screens := if m.contains .screens then t.screens else s.screens
  printers := if m.contains .printers then t.printers else s.printers
  store := if m.contains .store then t.store else s.store
  journal := if m.contains .journal then t.journal else s.journal
  day := if m.contains .day then t.day else s.day
  freeDraws := if m.contains .freeDraws then t.freeDraws else s.freeDraws
  pending := if m.contains .pending then t.pending else s.pending

end State

/-- What a list of aspects leaves possible, as a record update. -/
theorem Within.eq_merge {m : List Aspect} {s t : State} (h : Within m s t) : t = s.merge m t := by
  have pick : ∀ {α : Type} (a : Aspect) (x y : α), (a ∉ m → x = y) → x = if m.contains a then x else y := by
    intro α a x y hxy
    by_cases ha : a ∈ m
    · simp [ha]
    · simpa [ha] using hxy ha
  have fields : ∀ u : State, t.port = u.port → t.counters = u.counters → t.lock = u.lock → t.tables = u.tables →
      t.line = u.line → t.survey = u.survey → t.sessions = u.sessions → t.entries = u.entries →
      t.tagCounter = u.tagCounter → t.overrides = u.overrides → t.drawers = u.drawers → t.screens = u.screens →
      t.printers = u.printers → t.store = u.store → t.journal = u.journal → t.day = u.day →
      t.freeDraws = u.freeDraws → t.pending = u.pending → t = u := by
    intro u
    cases t
    cases u
    simp only [State.mk.injEq]
    intros
    simp_all
  exact fields _ (pick .port _ _ (h .port)) (pick .counters _ _ (h .counters)) (pick .lock _ _ (h .lock))
    (pick .tables _ _ (h .tables)) (pick .line _ _ (h .line)) (pick .survey _ _ (h .survey))
    (pick .sessions _ _ (h .sessions)) (pick .entries _ _ (h .entries)) (pick .tagCounter _ _ (h .tagCounter))
    (pick .overrides _ _ (h .overrides)) (pick .drawers _ _ (h .drawers)) (pick .screens _ _ (h .screens))
    (pick .printers _ _ (h .printers)) (pick .store _ _ (h .store)) (pick .journal _ _ (h .journal))
    (pick .day _ _ (h .day)) (pick .freeDraws _ _ (h .freeDraws)) (pick .pending _ _ (h .pending))

end Sys2Proof.Machine
end

