-- ==== Sys2Proof/Proofs/Tick.lean ====
section
/-! What a tick does to each timer, and which expiries it puts into the queue of commands waiting (1.5, R174). -/

set_option Elab.async false

namespace Sys2Proof.Machine

/-- The command of an expiry waits when its timer runs out. -/
theorem mem_expiry {t : Option Nat} {c d : Instr} : c ∈ expiry t d ↔ c = d ∧ t = some 1 := by
  unfold expiry runsOut
  split <;> simp_all

theorem expiry_nodup (t : Option Nat) (c : Instr) : (expiry t c).Nodup := by
  unfold expiry
  split <;> simp

/-- The place that a timer's command names. -/
def timerPlace : Instr → Nat
  | .approvalWaitExpiry i => i
  | .overrideWaitExpiry i => i
  | .openAlarmExpiry d => d
  | .pacingTimerExpiry p => p
  | .lineCompletionWaitExpiry p => p
  | .bookWaitExpiry p => p
  | _ => 0

/-- The rank of a timer's command in the order in which expiries that fall due together wait. -/
def timerRank : Instr → Nat
  | .rollCallTimerExpiry => 1
  | .approvalWaitExpiry _ => 2
  | .overrideWaitExpiry _ => 2
  | .openAlarmExpiry _ => 3
  | .pacingTimerExpiry _ => 4
  | .lineCompletionWaitExpiry _ => 4
  | .bookWaitExpiry _ => 4
  | .ackWaitExpiry => 5
  | .dayClockTick => 6
  | _ => 0

/-- Lists built place by place repeat nothing when no list does and each command names its place. -/
theorem flatMap_nodup_of_place {l : List Nat} (hl : l.Nodup) {f : Nat → List Instr} (hf : ∀ i, (f i).Nodup)
    (hplace : ∀ i, ∀ c ∈ f i, timerPlace c = i) : (l.flatMap f).Nodup := by
  rw [List.nodup_flatMap]
  refine ⟨fun i _ => hf i, hl.imp fun {i j} hij c hi hj => hij ?_⟩
  rw [← hplace i c hi, hplace j c hj]

/-- Expiries that rank below k and are not repeated. -/
def RankedBelow (k : Nat) (l : List Instr) : Prop := l.Nodup ∧ ∀ c ∈ l, timerRank c < k

theorem RankedBelow.append {l m : List Instr} {k : Nat} (h : RankedBelow k l) (hm : m.Nodup)
    (hrank : ∀ c ∈ m, timerRank c = k) : RankedBelow (k + 1) (l ++ m) := by
  obtain ⟨hl, hlow⟩ := h
  refine ⟨List.nodup_append.mpr ⟨hl, hm, fun a ha b hb hab => ?_⟩, fun c hc => ?_⟩
  · have := hlow a ha
    have := hrank b hb
    subst hab
    omega
  · rcases List.mem_append.mp hc with hc | hc
    · have := hlow c hc
      omega
    · have := hrank c hc
      omega

namespace State

variable (s : State)

/-! ### The expiries that fall due (R75, R80, R110, R160, R167, R169, R174, R196) -/

theorem mem_entryExpiry {i : Nat} {c : Instr} : c ∈ s.entryExpiry i ↔
    ∃ e, s.entry i = some e ∧ e.timer = some 1 ∧
      ((c = .approvalWaitExpiry i ∧ e.state = .waitingCentre) ∨ (c = .overrideWaitExpiry i ∧ e.state = .waitingOverride)) := by
  unfold entryExpiry
  cases he : s.entry i with
  | none => simp
  | some e => cases hs : e.state <;> simp [mem_expiry, hs, and_comm]

theorem entryExpiry_nodup (i : Nat) : (s.entryExpiry i).Nodup := by
  unfold entryExpiry
  split
  · exact List.nodup_nil
  · split
    · exact expiry_nodup _ _
    · exact expiry_nodup _ _
    · exact List.nodup_nil

theorem mem_printerExpiry {p : Nat} {c : Instr} : c ∈ s.printerExpiry p ↔
    (c = .lineCompletionWaitExpiry p ∧ (s.printer p).lineWait = some 1) ∨
      ∃ j, (s.printer p).job = some j ∧
        ((c = .pacingTimerExpiry p ∧ j.pacing = some 1) ∨ (c = .bookWaitExpiry p ∧ j.bookWait = some 1)) := by
  unfold printerExpiry
  simp only [List.mem_append, mem_expiry]
  cases (s.printer p).job with
  | none => simp
  | some j =>
    simp only [Option.bind_some, Option.some.injEq, exists_eq_left']
    tauto

theorem printerExpiry_nodup (p : Nat) : (s.printerExpiry p).Nodup := by
  unfold printerExpiry
  rw [List.nodup_append, List.nodup_append]
  simp only [expiry_nodup, true_and, List.mem_append, mem_expiry]
  refine ⟨?_, ?_⟩
  · rintro a ⟨rfl, _⟩ b ⟨rfl, _⟩
    simp
  · rintro a (⟨rfl, _⟩ | ⟨rfl, _⟩) b ⟨rfl, _⟩ <;> simp

theorem mem_expiries {c : Instr} : c ∈ s.expiries ↔
    (c = .unitReplyWaitExpiry ∧ s.line.replyWait = some 1) ∨
    (c = .rollCallTimerExpiry ∧ s.line.rollTimer = some 1) ∨
    (∃ i, i < 32 ∧ c ∈ s.entryExpiry i) ∨
    (∃ d, d ≤ 24 ∧ c = .openAlarmExpiry d ∧ (s.drawer d).openAlarm = some 1) ∨
    (∃ p, 1 ≤ p ∧ p ≤ 24 ∧ c ∈ s.printerExpiry p) ∨
    (c = .ackWaitExpiry ∧ s.day.ackTimer = some 1) ∨
    (c = .dayClockTick ∧ s.day.running = true ∧ s.day.phase = 99) := by
  have hclock : c ∈ (if s.day.running && s.day.phase == 99 then [Instr.dayClockTick] else []) ↔
      c = .dayClockTick ∧ s.day.running = true ∧ s.day.phase = 99 := by
    split <;> simp_all
  unfold expiries
  simp only [List.mem_append, mem_expiry, List.mem_flatMap, hclock, mem_allDrawers, mem_allPositions, List.mem_range, and_assoc, or_assoc]

theorem expiries_nodup : s.expiries.Nodup := by
  have hfirst : RankedBelow 1 (expiry s.line.replyWait .unitReplyWaitExpiry) :=
    ⟨expiry_nodup _ _, fun c hc => by rw [(mem_expiry.mp hc).1]; decide⟩
  have hentries : ((List.range 32).flatMap s.entryExpiry).Nodup := by
    refine flatMap_nodup_of_place List.nodup_range s.entryExpiry_nodup fun i c hc => ?_
    obtain ⟨e, _, _, ⟨rfl, _⟩ | ⟨rfl, _⟩⟩ := s.mem_entryExpiry.mp hc <;> rfl
  have hdrawers : (allDrawers.flatMap (fun d => expiry (s.drawer d).openAlarm (.openAlarmExpiry d))).Nodup := by
    refine flatMap_nodup_of_place allDrawers_nodup (fun d => expiry_nodup _ _) fun d c hc => ?_
    rw [(mem_expiry.mp hc).1]
    rfl
  have hprinters : (allPositions.flatMap s.printerExpiry).Nodup := by
    refine flatMap_nodup_of_place allPositions_nodup s.printerExpiry_nodup fun p c hc => ?_
    obtain ⟨rfl, _⟩ | ⟨j, _, ⟨rfl, _⟩ | ⟨rfl, _⟩⟩ := s.mem_printerExpiry.mp hc <;> rfl
  have hclock : (if s.day.running && s.day.phase == 99 then [Instr.dayClockTick] else []).Nodup := by
    split <;> simp
  refine ((((((hfirst.append (expiry_nodup _ _) fun c hc => ?_).append hentries fun c hc => ?_).append hdrawers
    fun c hc => ?_).append hprinters fun c hc => ?_).append (expiry_nodup _ _) fun c hc => ?_).append hclock
    fun c hc => ?_).1
  · rw [(mem_expiry.mp hc).1]
    rfl
  · obtain ⟨i, _, hc⟩ := List.mem_flatMap.mp hc
    obtain ⟨e, _, _, ⟨rfl, _⟩ | ⟨rfl, _⟩⟩ := s.mem_entryExpiry.mp hc <;> rfl
  · obtain ⟨d, _, hc⟩ := List.mem_flatMap.mp hc
    rw [(mem_expiry.mp hc).1]
    rfl
  · obtain ⟨p, _, hc⟩ := List.mem_flatMap.mp hc
    obtain ⟨rfl, _⟩ | ⟨j, _, ⟨rfl, _⟩ | ⟨rfl, _⟩⟩ := s.mem_printerExpiry.mp hc <;> rfl
  · rw [(mem_expiry.mp hc).1]
    rfl
  · split at hc
    · rw [List.mem_singleton.mp hc]
      rfl
    · cases hc

/-! ### The timers after a tick -/

/-- A tick up to the entries, the drawers and the printers. -/
def tickEntries : State := (List.range 32).foldl tickEntry s.tickLine
def tickDrawers : State := allDrawers.foldl tickDrawer s.tickEntries
def tickPrinters : State := allPositions.foldl tickPrinter s.tickDrawers

theorem tick_eq : s.tick = s.tickPrinters.tickDay.withPending (s.tickPrinters.pending ++ s.expiries) := by
  simp only [tick, tickPrinters, tickDrawers, tickEntries]

theorem tickEntries_within : Within [.entries] s.tickLine s.tickEntries := Within.fold _ (fun t i => tickEntry_within t i) _ _

theorem tickDrawers_within : Within [.drawers] s.tickEntries s.tickDrawers := Within.fold _ (fun t d => tickDrawer_within t d) _ _

theorem tickPrinters_within : Within [.printers] s.tickDrawers s.tickPrinters :=
  Within.fold _ (fun t p => tickPrinter_within t p) _ _

theorem tick_after_printers : Within [.day, .pending] s.tickPrinters s.tick := by
  rw [tick_eq]
  exact (withPending_within _ _).after (tickDay_within _).mono

theorem tick_after_drawers : Within [.printers, .day, .pending] s.tickDrawers s.tick :=
  s.tick_after_printers.after s.tickPrinters_within.mono

theorem tick_after_entries : Within [.drawers, .printers, .day, .pending] s.tickEntries s.tick :=
  s.tick_after_drawers.after s.tickDrawers_within.mono

theorem tick_after_line : Within [.entries, .drawers, .printers, .day, .pending] s.tickLine s.tick :=
  s.tick_after_entries.after s.tickEntries_within.mono

theorem before_tickDrawers : Within [.line, .lineRest, .survey, .entries] s s.tickEntries :=
  s.tickEntries_within.after (tickLine_within s).mono

theorem before_tickPrinters : Within [.line, .lineRest, .survey, .entries, .drawers] s s.tickDrawers :=
  s.tickDrawers_within.after s.before_tickDrawers.mono

theorem before_tickDay : Within [.line, .lineRest, .survey, .entries, .drawers, .printers] s s.tickPrinters :=
  s.tickPrinters_within.after s.before_tickPrinters.mono

theorem tickLine_line : s.tickLine.line =
    { s.line with replyWait := s.line.replyWait.map (· - 1), rollTimer := s.line.rollTimer.map (· - 1) } := by
  unfold tickLine
  cases s.line.engine <;> rfl

theorem tickLine_survey : s.tickLine.survey = match s.line.engine with
    | .waitProbe _ _ _ => { s.survey with elapsed := min 255 (s.survey.elapsed + 1) }
    | _ => s.survey := by
  unfold tickLine
  cases s.line.engine <;> rfl

theorem tick_line : s.tick.line =
    { s.line with replyWait := s.line.replyWait.map (· - 1), rollTimer := s.line.rollTimer.map (· - 1) } :=
  ((s.tick_after_line) .line (by decide)).trans s.tickLine_line

theorem tick_survey : s.tick.survey = match s.line.engine with
    | .waitProbe _ _ _ => { s.survey with elapsed := min 255 (s.survey.elapsed + 1) }
    | _ => s.survey :=
  ((s.tick_after_line) .survey (by decide)).trans s.tickLine_survey

theorem tickEntry_same (i : Nat) : (s.tickEntry i).entry i =
    (s.entry i).map (fun e => { e with timer := e.timer.map (· - 1) }) := by
  unfold tickEntry
  cases he : s.entry i with
  | none => simp [he]
  | some e =>
    have hi : i < 32 := entry_index s he
    simp [entry_setEntry, hi, tickDown]

theorem tickEntry_other {i j : Nat} (h : i ≠ j) : (s.tickEntry i).entry j = s.entry j := by
  unfold tickEntry
  split
  · rfl
  · simp [entry_setEntry, h]

theorem tick_entry (i : Nat) : s.tick.entry i = (s.entry i).map (fun e => { e with timer := e.timer.map (· - 1) }) := by
  have hafter : s.tick.entry i = s.tickEntries.entry i := entry_congr (s.tick_after_entries .entries (by decide)) i
  have hbefore : s.tickLine.entry i = s.entry i := entry_congr (tickLine_within s .entries (by decide)) i
  have hrun := foldl_places entry tickEntry (fun _ _ e => e.map (fun e => { e with timer := e.timer.map (· - 1) }))
    (fun t i j h => t.tickEntry_other h) (fun _ _ _ _ => rfl) (l := List.range 32) (fun t i _ => t.tickEntry_same i)
    List.nodup_range s.tickLine i
  rw [hafter, tickEntries, hrun, hbefore]
  split
  · rfl
  · next h =>
    rw [entry_outside s (by simpa using h)]
    rfl

theorem tickDrawer_same (d : Nat) : (s.tickDrawer d).drawer d =
    { s.drawer d with openAlarm := (s.drawer d).openAlarm.map (· - 1) } := by
  unfold tickDrawer
  rw [drawer_setDrawer]
  split
  · rfl
  · next h =>
    have hd : 24 < d := by
      simp only [true_and] at h
      omega
    rw [drawer_outside s hd]
    rfl

theorem tick_drawer (d : Nat) : s.tick.drawer d = { s.drawer d with openAlarm := (s.drawer d).openAlarm.map (· - 1) } := by
  have hafter : s.tick.drawer d = s.tickDrawers.drawer d := drawer_congr (s.tick_after_drawers .drawers (by decide)) d
  have hbefore : s.tickEntries.drawer d = s.drawer d := drawer_congr (s.before_tickDrawers .drawers (by decide)) d
  have hother : ∀ (t : State) (i j : Nat), i ≠ j → (t.tickDrawer i).drawer j = t.drawer j := by
    intro t i j h
    simp [tickDrawer, drawer_setDrawer, h]
  have hrun := foldl_places drawer tickDrawer (fun _ _ x => { x with openAlarm := x.openAlarm.map (· - 1) })
    hother (fun _ _ _ _ => rfl) (fun t d _ => t.tickDrawer_same d) allDrawers_nodup s.tickEntries d
  rw [hafter, tickDrawers, hrun, hbefore]
  split
  · rfl
  · next h =>
    have hd : 24 < d := by simpa [mem_allDrawers] using h
    rw [drawer_outside s hd]
    rfl

theorem tickPrinter_same (p : Nat) : (s.tickPrinter p).printer p = (s.printer p).tick := by
  unfold tickPrinter
  rw [printer_setPrinter]
  split
  · rfl
  · next h =>
    rw [printer_outside s (by simpa using h)]
    rfl

theorem tick_printer (p : Nat) : s.tick.printer p = (s.printer p).tick := by
  have hafter : s.tick.printer p = s.tickPrinters.printer p := printer_congr (s.tick_after_printers .printers (by decide)) p
  have hbefore : s.tickDrawers.printer p = s.printer p := printer_congr (s.before_tickPrinters .printers (by decide)) p
  have hother : ∀ (t : State) (i j : Nat), i ≠ j → (t.tickPrinter i).printer j = t.printer j := by
    intro t i j h
    simp [tickPrinter, printer_setPrinter, h]
  have hrun := foldl_places printer tickPrinter (fun _ _ x => x.tick) hother (fun _ _ _ _ => rfl)
    (fun t p _ => t.tickPrinter_same p) allPositions_nodup s.tickDrawers p
  rw [hafter, tickPrinters, hrun, hbefore]
  split
  · rfl
  · next h =>
    rw [printer_outside s (by simpa [mem_allPositions] using h)]
    rfl

theorem tick_day : s.tick.day = { s.day with
    ackTimer := s.day.ackTimer.map (· - 1), phase := if s.day.running then (s.day.phase + 1) % 100 else s.day.phase } := by
  have hday : s.tickPrinters.day = s.day := s.before_tickDay .day (by decide)
  rw [tick_eq, withPending_day, tickDay, withDay_day, hday]
  rfl

theorem tick_pending : s.tick.pending = s.pending ++ s.expiries := by
  have hpending : s.tickPrinters.pending = s.pending := s.before_tickDay .pending (by decide)
  rw [tick_eq, withPending_pending, hpending]

/-- DAY_CLOCK_TICK raises the clock of a running day up to its stop (R174). -/
theorem clockTick_eq : s.clockTick = { s with day := { s.day with
    clock := if s.day.running = true ∧ s.day.clock < 16777215 then s.day.clock + 1 else s.day.clock } } := by
  unfold clockTick
  by_cases h : s.day.running = true ∧ s.day.clock < Config.dayClockMax
  · have h' : s.day.running = true ∧ s.day.clock < 16777215 := h
    rw [if_pos h, if_pos h']
    rfl
  · have h' : ¬ (s.day.running = true ∧ s.day.clock < 16777215) := h
    rw [if_neg h, if_neg h']

end State

end Sys2Proof.Machine

namespace Sys2Proof.Proofs

open Sys2Proof.Machine Sys2Proof.Machine.State

/-- Settles O2: each bank counted down place by place, and the list of the expiries due. -/
theorem tickCountsTimersDown : Obligations.TickCountsTimersDown := by
  unfold Obligations.TickCountsTimersDown
  refine ⟨fun s hs => ⟨s.tick, ?_, (tick_within s).eq_merge, s.tick_line, s.tick_entry, s.tick_drawer, s.tick_printer,
    ?_, ?_, s.tick_day, ?_, ?_⟩, ?_⟩
  · unfold step
    rw [hs]
  · rintro ⟨p, k, stopped, h⟩
    rw [s.tick_survey, h]
  · intro h
    rw [s.tick_survey]
    split
    · next p k stopped hp => exact absurd hp (h p k stopped)
    · rfl
  · rw [s.tick_pending, hs]
    exact s.expiries_nodup
  · intro c
    have hentry : (∃ i, i < 32 ∧ c ∈ s.entryExpiry i) ↔ ∃ i, c ∈ s.entryExpiry i := by
      refine ⟨fun ⟨i, _, h⟩ => ⟨i, h⟩, fun ⟨i, h⟩ => ⟨i, ?_, h⟩⟩
      obtain ⟨e, he, _⟩ := s.mem_entryExpiry.mp h
      exact entry_index s he
    rw [s.tick_pending, hs, List.nil_append, s.mem_expiries, hentry]
    simp only [mem_entryExpiry, mem_printerExpiry]
  · intro s rest hs
    have hstep : step s = .next (s.withPending rest).clockTick := by
      unfold step
      rw [hs]
      rfl
    rw [hstep, clockTick_eq]
    rfl

end Sys2Proof.Proofs
end

