-- ==== Sys2Proof/Proofs/ByteFacts.lean ====
section
/-! Values as bytes and back (R201): the sizes of fields, and what the readers of Machine/Bytes.lean find in them. -/

set_option Elab.async false

namespace Sys2Proof.Machine

@[simp] theorem toNat_toByte (n : Nat) : (toByte n).toNat = n % 256 := by
  simp [toByte]

@[simp] theorem length_be (k n : Nat) : (be k n).length = k := by
  induction k with
  | zero => rfl
  | succ k ih => simp [be, ih]

theorem foldl_beNat (bs : List Byte) (acc : Nat) :
    bs.foldl (fun acc b => acc * 256 + b.toNat) acc = acc * 256 ^ bs.length + beNat bs := by
  induction bs generalizing acc with
  | nil => simp [beNat]
  | cons b bs ih =>
    simp only [beNat, List.foldl_cons, List.length_cons] at ih ⊢
    rw [ih (acc * 256 + b.toNat), ih (0 * 256 + b.toNat)]
    ring

@[simp] theorem beNat_nil : beNat [] = 0 := rfl

theorem beNat_cons (b : Byte) (bs : List Byte) : beNat (b :: bs) = b.toNat * 256 ^ bs.length + beNat bs := by
  have h := foldl_beNat bs (0 * 256 + b.toNat)
  rw [show beNat (b :: bs) = bs.foldl (fun acc b => acc * 256 + b.toNat) (0 * 256 + b.toNat) from rfl, h, Nat.zero_mul,
    Nat.zero_add]

theorem beNat_be (k n : Nat) : beNat (be k n) = n % 256 ^ k := by
  induction k generalizing n with
  | zero => simp [be, Nat.mod_one]
  | succ k ih =>
    rw [be, beNat_cons, length_be, ih, toNat_toByte, pow_succ, Nat.mod_mul]
    ring

/-! ### Slices -/

@[simp] theorem slice_zero_length (bs : List Byte) (off : Nat) : slice bs off 0 = [] := rfl

@[simp] theorem slice_cons_succ (b : Byte) (bs : List Byte) (off n : Nat) : slice (b :: bs) (off + 1) n = slice bs off n := rfl

@[simp] theorem slice_cons_zero (b : Byte) (bs : List Byte) (n : Nat) : slice (b :: bs) 0 (n + 1) = b :: slice bs 0 n := rfl

theorem slice_all {bs : List Byte} {n : Nat} (h : bs.length ≤ n) : slice bs 0 n = bs := by
  simp [slice, h]

/-- A field at the front of the bytes, read whole. -/
theorem slice_append_field (xs ys : List Byte) : slice (xs ++ ys) 0 xs.length = xs := by
  simp [slice]

theorem slice_append_front {xs ys : List Byte} {n : Nat} (h : xs.length = n) : slice (xs ++ ys) 0 n = xs := by
  subst h
  exact slice_append_field xs ys

/-- Bytes behind a field of a known size. -/
theorem slice_append_behind {xs ys : List Byte} {k off n : Nat} (h : xs.length = k) (hk : k ≤ off) :
    slice (xs ++ ys) off n = slice ys (off - k) n := by
  subst h
  unfold slice
  rw [List.drop_append, List.drop_eq_nil_of_le hk, List.nil_append]

@[simp] theorem num_cons_succ (b : Byte) (bs : List Byte) (off n : Nat) : num (b :: bs) (off + 1) n = num bs off n := rfl

@[simp] theorem num_cons_one (b : Byte) (bs : List Byte) : num (b :: bs) 0 1 = b.toNat := by
  rw [num, show slice (b :: bs) 0 1 = [b] from rfl, beNat_cons]
  simp

theorem num_cons_two (a b : Byte) (bs : List Byte) : num (a :: b :: bs) 0 2 = 256 * a.toNat + b.toNat := by
  have h : slice (a :: b :: bs) 0 2 = [a, b] := rfl
  rw [num, h, beNat_cons, beNat_cons]
  simp
  ring

theorem num_append_behind {xs ys : List Byte} {k off n : Nat} (h : xs.length = k) (hk : k ≤ off) :
    num (xs ++ ys) off n = num ys (off - k) n := by
  unfold num
  rw [slice_append_behind h hk]

/-- A number at the front of the bytes. -/
theorem num_be_append (k n : Nat) (bs : List Byte) : num (be k n ++ bs) 0 k = n % 256 ^ k := by
  rw [num, slice_append_front (length_be k n), beNat_be]

theorem num_be (k n : Nat) : num (be k n) 0 k = n % 256 ^ k := by
  rw [num, slice_all (Nat.le_of_eq (length_be k n)), beNat_be]

theorem num_be_append_of_lt {k n : Nat} (h : n < 256 ^ k) (bs : List Byte) : num (be k n ++ bs) 0 k = n := by
  rw [num_be_append, Nat.mod_eq_of_lt h]

theorem num_be_of_lt {k n : Nat} (h : n < 256 ^ k) : num (be k n) 0 k = n := by
  rw [num_be, Nat.mod_eq_of_lt h]

/-! ### Sizes of fields -/

@[simp] theorem length_padTo {α : Type} (n : Nat) (d : α) (l : List α) : (padTo n d l).length = n := by
  simp only [padTo, List.length_take, List.length_append, List.length_replicate]
  omega

@[simp] theorem length_textField (cap : Nat) (t : Text) : (textField cap t).length = cap + 1 := by
  simp [textField]

@[simp] theorem length_accountField (a : Option Text) : (accountField a).length = 21 := by
  simp [accountField]

@[simp] theorem length_beInt (k : Nat) (i : Int) : (beInt k i).length = k := length_be _ _

@[simp] theorem length_countsBytes (l : Counts) : (countsBytes l).length = 1 + 3 * l.length := by
  induction l with
  | nil => rfl
  | cons p l ih =>
    simp only [countsBytes, List.length_cons, List.flatMap_cons, List.length_append, length_be] at ih ⊢
    omega

theorem length_flatMap_const {α : Type} {l : List α} {f : α → List Byte} {k : Nat} (h : ∀ x ∈ l, (f x).length = k) :
    (l.flatMap f).length = k * l.length := by
  induction l with
  | nil => simp
  | cons a l ih =>
    have := ih fun x hx => h x (List.mem_cons_of_mem a hx)
    simp only [List.flatMap_cons, List.length_append, List.length_cons, h a List.mem_cons_self, this]
    ring

end Sys2Proof.Machine
end

