-- ==== Sys2Proof/Proofs/Replies.lean ====
section
/-! The office link port and the management replies (R1 to R11): the receive path, the node filter, transmission, and what a
reply leaves with room in the upstream queue and without. -/

set_option Elab.async false

namespace Sys2Proof.Machine

namespace State

variable (s : State)

/-! ### A reply with room and without (R4, R6, R7) -/

theorem hasRoom_iff : s.hasRoom = true ↔ s.port.queue.length < 64 := decide_eq_true_iff

theorem reply_of_room {s : State} (h : s.port.queue.length < 64) (code : Byte) (tag : Nat) (v : Verdict) :
    s.reply code tag v = s.withReply (s.replyOf code tag v) := by
  unfold reply
  rw [if_pos (s.hasRoom_iff.mpr h), enqueue_eq_withFrame]
  rfl

theorem reply_of_full {s : State} (h : 64 ≤ s.port.queue.length) (code : Byte) (tag : Nat) (v : Verdict) :
    s.reply code tag v = s.countNoticeLost := by
  have hroom : ¬ s.hasRoom = true := fun hr => absurd (s.hasRoom_iff.mp hr) (by omega)
  unfold reply
  rw [if_neg hroom]

theorem reply_done {s : State} (h : s.port.queue.length < 64) (code : Byte) (tag : Nat) (d : List Byte) :
    s.reply code tag (.done d) = s.withReply (s.doneReply code tag d) := reply_of_room h code tag _

theorem reply_refused {s : State} (h : s.port.queue.length < 64) (code : Byte) (tag : Nat) (o : MgmtOutcome) :
    s.reply code tag (refusal o) = s.withReply (s.refusedReply code tag o) := reply_of_room h code tag _

/-! ### Requests by the size of their parameters (R7) -/

theorem answerRead_of_size {bs : List Byte} {size : Nat} (h : bs.length = size) (code : Byte) (tag : Nat) (v : Verdict) :
    s.answerRead code tag size bs v = s.reply code tag v := by
  rw [answerRead, if_pos h]

theorem answerRead_of_other {bs : List Byte} {size : Nat} (h : bs.length ≠ size) (code : Byte) (tag : Nat) (v : Verdict) :
    s.answerRead code tag size bs v = s.reply code tag (refusal .badContent) := by
  rw [answerRead, if_neg h]

theorem answerDo_of_size {bs : List Byte} {size : Nat} (h : bs.length = size) (code : Byte) (tag : Nat) (f : State × Verdict) :
    s.answerDo code tag size bs f = f.1.reply code tag f.2 := by
  rw [answerDo, if_pos h]

theorem answerDo_of_other {bs : List Byte} {size : Nat} (h : bs.length ≠ size) (code : Byte) (tag : Nat)
    (f : State × Verdict) : s.answerDo code tag size bs f = s.reply code tag (refusal .badContent) := by
  rw [answerDo, if_neg h]

/-- A request refused as it stands leaves all but the reply. -/
theorem answerDo_refused {bs : List Byte} {size : Nat} (h : bs.length = size) (code : Byte) (tag : Nat) {f : State × Verdict}
    {o : MgmtOutcome} (hf : f = (s, refusal o)) : s.answerDo code tag size bs f = s.reply code tag (refusal o) := by
  rw [answerDo, if_pos h, hf]

/-! ### The receive path (R1, R2, R4) -/

theorem parseOffice_eq_none {bs : List Byte} (h : bs.length < 8 ∨ 1024 < num bs 4 2 ∨ bs.length ≠ 8 + num bs 4 2 ∨
      ¬ (1 ≤ num bs 0 1 ∧ num bs 0 1 ≤ 4) ∨ crc16Bytes (bs.take (bs.length - 2)) ≠ bs.drop (bs.length - 2)) :
    parseOffice bs = none := by
  unfold parseOffice
  dsimp only
  refine if_neg ?_
  rintro ⟨hlen, hsize, htotal, hkind, hcheck⟩
  simp only [inRange, Bool.and_eq_true, decide_eq_true_eq] at hkind
  have hbody : 6 + num bs 4 2 = bs.length - 2 := by omega
  rw [hbody] at hcheck
  have hfront : slice bs 0 (bs.length - 2) = bs.take (bs.length - 2) := rfl
  have hend : slice bs (bs.length - 2) 2 = bs.drop (bs.length - 2) := by
    unfold slice
    exact List.take_of_length_le (by rw [List.length_drop]; omega)
  rw [hfront, hend] at hcheck
  rcases h with h | h | h | h | h
  · omega
  · omega
  · omega
  · exact h hkind
  · exact h hcheck

theorem dropBadFrame_eq : s.dropBadFrame = { s with
    counters := { s.counters with linkBadFrame := if s.counters.linkBadFrame < 65535 then s.counters.linkBadFrame + 1
                                                  else s.counters.linkBadFrame }
    port := { s.port with prevFailed := true } } := rfl

theorem nodeAccepts_own (kind : Nat) (payload : List Byte) : s.nodeAccepts kind s.port.node payload = true := by
  simp [nodeAccepts]

theorem filterNode_own (kind tag : Nat) (payload : List Byte) :
    s.filterNode kind s.port.node tag payload = s.route kind tag payload := by
  rw [filterNode, if_pos (s.nodeAccepts_own kind payload)]

theorem nodeAccepts_other {kind node : Nat} {payload : List Byte} (h : node ≠ s.port.node)
    (hid : ¬ (node = 255 ∧ kind = 2 ∧ payload.head? = some 1)) : s.nodeAccepts kind node payload = false := by
  rw [Bool.eq_false_iff]
  intro ha
  simp only [nodeAccepts, Bool.or_eq_true, Bool.and_eq_true, beq_iff_eq] at ha
  rcases ha with ha | ⟨⟨h1, h2⟩, h3⟩
  · exact h ha
  · exact hid ⟨h1, h2, h3⟩

end State

end Sys2Proof.Machine

namespace Sys2Proof.Proofs

open Sys2Proof.Machine Sys2Proof.Machine.State

/-- Settles O7: the reader of a frame fails on each of the five faults, and the node filter by the frame's node. -/
theorem receivePathAndNodeFilter : Obligations.ReceivePathAndNodeFilter := by
  unfold Obligations.ReceivePathAndNodeFilter
  refine ⟨fun frame s h => ?_, fun kind node tag payload s => ⟨fun hnode hid => ?_, fun params => ?_, ?_, ?_, ?_⟩⟩
  · have hreceive : s.receiveOffice frame = s.dropBadFrame := by
      rw [receiveOffice, parseOffice_eq_none h]
    show Host.Outcome.next (s.receiveOffice frame) = _
    rw [hreceive, dropBadFrame_eq]
  · have hfilter : s.filterNode kind node tag payload = s.countLinkWrongNode := by
      rw [filterNode, s.nodeAccepts_other hnode hid]
      rfl
    show Host.Outcome.next (s.filterNode kind node tag payload) = _
    rw [hfilter]
    rfl
  · have haccept : s.nodeAccepts 2 255 (1 :: params) = true := by simp [nodeAccepts]
    show Host.Outcome.next (s.filterNode 2 255 tag (1 :: params)) = .next (s.mgmtIdentify tag params)
    rw [filterNode, if_pos haccept]
    rfl
  · exact congrArg Host.Outcome.next (s.filterNode_own 1 tag payload)
  · exact congrArg Host.Outcome.next (s.filterNode_own 3 tag [])
  · exact congrArg Host.Outcome.next (s.filterNode_own 4 tag [])

/-- Settles O8: transmission by the port's own fields; a reply that finds the queue full leaves the counted loss alone. -/
theorem upstreamTransmission : Obligations.UpstreamTransmission := by
  unfold Obligations.UpstreamTransmission
  refine ⟨fun s => ⟨?_, rfl, fun f rest htransmitting hqueue => ?_⟩, fun s tag ps hfull => ⟨fun c hc => ?_, ?_, fun hlock => ?_⟩⟩
  · show Host.Outcome.next s.linkReady = _
    simp [linkReady, beginTransmit, withPort]
  · show Host.Outcome.next s.frameLeaves = _
    simp [frameLeaves, htransmitting, hqueue, beginTransmit, withPort]
  · have hread : ∀ (code : Byte) (size : Nat) (v : Verdict), s.answerRead code tag size ps v = s.countNoticeLost :=
      fun code size v => reply_of_full hfull code tag _
    simp only [List.mem_cons, List.not_mem_nil, or_false] at hc
    rcases hc with rfl | rfl | rfl | rfl | rfl | rfl | rfl | rfl | rfl
    · exact congrArg Host.Outcome.next (hread _ _ _)
    · exact congrArg Host.Outcome.next (hread _ _ _)
    · exact congrArg Host.Outcome.next (hread _ _ _)
    · exact congrArg Host.Outcome.next (hread _ _ _)
    · exact congrArg Host.Outcome.next (hread _ _ _)
    · exact congrArg Host.Outcome.next (hread _ _ _)
    · exact congrArg Host.Outcome.next (hread _ _ _)
    · exact congrArg Host.Outcome.next (hread _ _ _)
    · exact congrArg Host.Outcome.next (reply_of_full hfull 0 tag (refusal .unknown))
  · exact congrArg Host.Outcome.next (reply_of_full (s := s.withCounters Counters.zero) hfull 0x0E tag _)
  · have hraised : s.takeLock 2 = (s.withLock 2, .done []) := by simp [takeLock, hlock]
    have hanswer : s.mgmtLock tag [2] = (s.withLock 2).reply 0x05 tag (.done []) := by
      rw [mgmtLock, num_cons_one, show (2 : Byte).toNat = 2 from rfl, hraised]
      rfl
    have hlost : s.mgmtLock tag [2] = (s.withLock 2).countNoticeLost := hanswer.trans (reply_of_full (s := s.withLock 2) hfull _ _ _)
    exact congrArg Host.Outcome.next hlost

end Sys2Proof.Proofs
end

