-- ==== Sys2Proof/Proofs/Requests.lean ====
section
/-! The management requests as they are answered (R7 to R13): the reads with their data, the refusals, and the checks of TABLE
WRITE in their order. -/

set_option Elab.async false

namespace Sys2Proof.Machine

/-! ### Sections and indices in bytes (R13, R201) -/

theorem sectionOf_code (x : Section) : sectionOf x.code = some x := by
  cases x <;> rfl

theorem sectionOf_above {n : Nat} (h : 11 < n) : sectionOf n = none := by
  unfold sectionOf
  split <;> first | omega | rfl

theorem Section.code_lt (x : Section) : x.code < 12 := by
  cases x <;> decide

theorem sectionOf_byte (x : Section) (bs : List Byte) : sectionOf (num (toByte x.code :: bs) 0 1) = some x := by
  have hx := x.code_lt
  rw [num_cons_one, toNat_toByte, Nat.mod_eq_of_lt (by omega), sectionOf_code]

theorem Section.index_lt {x : Section} {i : Nat} (h : x.hasIndex i = true) : i < 65536 := by
  cases x <;> simp [Section.hasIndex, inRange] at h <;> omega

/-- The section and the index of a request's parameters, read back. -/
theorem num_index {b : Byte} {i : Nat} (h : i < 65536) (bs : List Byte) : num (b :: (be 2 i ++ bs)) 1 2 = i := by
  rw [num_cons_succ, num_be_append_of_lt (by simpa using h)]

theorem toNat_of_le {n : Nat} (h : n ≤ 255) : (toByte n).toNat = n := by
  rw [toNat_toByte, Nat.mod_eq_of_lt (by omega)]

theorem outside_positions {a : Byte} (h : a = 0 ∨ 24 < a.toNat) : ¬ inRange 1 24 a.toNat = true := by
  simp only [inRange, Bool.and_eq_true, decide_eq_true_eq]
  rcases h with rfl | h
  · decide
  · omega

namespace State

variable (s : State)

/-! ### TABLE WRITE and TABLE READ (R13) -/

theorem tableRead_of_index {x : Section} {i : Nat} (h : x.hasIndex i = true) :
    s.tableRead (toByte x.code :: be 2 i) = .done (s.tables.read x i).bytes := by
  have hi : num (toByte x.code :: be 2 i) 1 2 = i := by
    rw [num_cons_succ, num_be_of_lt (by simpa using Section.index_lt h)]
  rw [tableRead, sectionOf_byte]
  dsimp only
  rw [hi, if_pos h]

theorem tableRead_of_section {x : Section} {a b : Byte} (h : x.hasIndex (256 * a.toNat + b.toNat) = false) :
    s.tableRead [toByte x.code, a, b] = refusal .badIndex := by
  have hi : num [toByte x.code, a, b] 1 2 = 256 * a.toNat + b.toNat := num_cons_two a b []
  rw [tableRead, sectionOf_byte]
  dsimp only
  rw [hi, h]
  rfl

theorem tableRead_of_above {c a b : Byte} (h : 11 < c.toNat) : s.tableRead [c, a, b] = refusal .badSection := by
  rw [tableRead, num_cons_one, sectionOf_above h]

/-- A TABLE WRITE whose content has its section's size goes on with section, index, intent and content. -/
theorem tableWrite_of_section (x : Section) {i : Nat} (hi : i < 65536) (intent : Byte) {content : List Byte}
    (hsize : content.length = x.size) : s.tableWrite (toByte x.code :: be 2 i ++ intent :: content) =
      s.writeSection x i (intent != 0) content := by
  have hlist : toByte x.code :: be 2 i ++ intent :: content = toByte x.code :: (be 2 i ++ intent :: content) := rfl
  have hlen : (toByte x.code :: (be 2 i ++ intent :: content)).length = 4 + x.size := by
    simp only [List.length_cons, List.length_append, length_be, hsize]
    omega
  have hintent : num (toByte x.code :: (be 2 i ++ intent :: content)) 3 1 = intent.toNat := by
    rw [num_cons_succ, num_append_behind (length_be 2 i) (Nat.le_refl 2), num_cons_one]
  have hrest : (toByte x.code :: (be 2 i ++ intent :: content)).drop 4 = content := by
    rw [List.drop_succ_cons, List.drop_append, length_be]
    simp
  have hflag : (intent.toNat != 0) = (intent != 0) := by
    rw [Bool.eq_iff_iff]
    simp [← BitVec.toNat_inj]
  rw [hlist, tableWrite, if_neg (List.cons_ne_nil _ _), sectionOf_byte]
  dsimp only
  rw [if_neg (by simp [hlen]), num_index hi, hintent, hrest, hflag]

theorem tableWrite_of_size (x : Section) {ps : List Byte} (h : ps.length ≠ 3 + x.size) :
    s.tableWrite (toByte x.code :: ps) = (s, refusal .badContent) := by
  have hlen : (toByte x.code :: ps).length ≠ 4 + x.size := by
    rw [List.length_cons]
    omega
  rw [tableWrite, if_neg (List.cons_ne_nil _ _), sectionOf_byte]
  exact if_pos hlen

theorem tableWrite_of_above {c : Byte} (h : 11 < c.toNat) (ps : List Byte) :
    s.tableWrite (c :: ps) = (s, refusal .badSection) := by
  rw [tableWrite, if_neg (List.cons_ne_nil _ _), num_cons_one, sectionOf_above h]

theorem mgmtTableWrite_of {t : State} {tag : Nat} {ps : List Byte} {v : Verdict} (h : s.tableWrite ps = (t, v)) :
    s.mgmtTableWrite tag ps = t.reply 0x03 tag v := by
  rw [mgmtTableWrite, h]

/-! ### The reads that look at another block (R9, R11, R47, R87, R182) -/

theorem stopSurvey_of_not_running (h : s.survey.state ≠ .running) : s.stopSurvey = s := by
  rw [stopSurvey, if_neg h]

/-- A running survey is stopped: the survey and, at a probe on the line, the engine's state change. -/
theorem stopSurvey_of_running (h : s.survey.state = .running) : s.stopSurvey = { s with
    survey := { s.survey with state := .done, rest := [], probes := [] }
    line := { s.line with engine := match s.line.engine with
      | .waitProbe p k _ => .waitProbe p k true
      | e => e } } := by
  rw [stopSurvey, if_pos h]
  cases hengine : s.line.engine <;> simp only [withSurvey, withLine, ← hengine]

theorem stopSurvey_summary : s.stopSurvey.surveySummary = [toByte s.stopSurvey.survey.state.code, toByte s.survey.min,
    toByte s.survey.max, toByte s.survey.list.length, toByte s.survey.validCount, toByte s.survey.faultCount] := by
  by_cases h : s.survey.state = .running
  · rw [s.stopSurvey_of_running h]
    rfl
  · rw [s.stopSurvey_of_not_running h]
    rfl

end State

end Sys2Proof.Machine

namespace Sys2Proof.Proofs

open Sys2Proof.Machine Sys2Proof.Machine.State

/-- Settles O9: each request's parameters read back, and its reply with room in the queue. -/
theorem readsAnswered : Obligations.ReadsAnswered := by
  unfold Obligations.ReadsAnswered
  refine ⟨fun s tag h => ?_, fun s tag h => ?_⟩
  · have hread : ∀ (code : Byte) (bs : List Byte) (v : Verdict) (d : List Byte), v = .done d →
        s.answerRead code tag bs.length bs v = s.withReply (s.doneReply code tag d) := by
      intro code bs v d hv
      rw [answerRead_of_size s rfl, hv, reply_done h]
    refine ⟨?_, ?_, fun x i hi => ?_, fun d c hd hc => ?_, fun p h1 h24 => ?_, fun i hi => ?_, fun n h1 hn hmax => ?_,
      fun p h1 h24 => ?_⟩
    · exact congrArg Host.Outcome.next (hread 0x01 [] _ _ rfl)
    · exact congrArg Host.Outcome.next (hread 0x02 [] _ _ rfl)
    · exact congrArg Host.Outcome.next (hread 0x04 (toByte x.code :: be 2 i) _ _ (s.tableRead_of_index hi))
    · have hverdict : s.readDrawer (num [toByte d, toByte c] 0 1) (num [toByte d, toByte c] 1 1) =
          .done (s.drawerData d c) := by
        rw [num_cons_succ, num_cons_one, num_cons_one, toNat_of_le (by omega), toNat_of_le (by omega), readDrawer,
          if_neg (by omega)]
      exact congrArg Host.Outcome.next (hread 0x0A [toByte d, toByte c] _ _ hverdict)
    · have hp : inRange 1 24 p = true := by simp [inRange, h1, h24]
      refine congrArg Host.Outcome.next (hread 0x0B [toByte p] _ _ ?_)
      rw [num_cons_one, toNat_of_le (by omega), readSession, if_pos hp]
      rfl
    · refine congrArg Host.Outcome.next (hread 0x0C [toByte i] _ _ ?_)
      rw [num_cons_one, toNat_of_le (by omega), readPending, if_neg (by omega)]
      cases s.entry i <;> rfl
    · refine congrArg Host.Outcome.next (hread 0x0D (be 2 n) _ _ ?_)
      have hused : ¬ (n = 0 ∨ s.usedCount < n) := by
        simp only [usedCount]
        omega
      rw [num_be_of_lt (by simpa using hmax), readJournal, if_neg hused]
      rfl
    · have hp : inRange 1 24 p = true := by simp [inRange, h1, h24]
      refine congrArg Host.Outcome.next (hread 0x10 [toByte p] _ _ ?_)
      rw [num_cons_one, toNat_of_le (by omega), readSurveyPosition, if_pos hp]
  · refine ⟨?_, fun b hb => ?_, s.stopSurvey, ?_, ?_, fun hidle => s.stopSurvey_of_not_running hidle, fun hrun => ?_⟩
    · exact congrArg Host.Outcome.next (reply_done h 0x0E tag s.counters.bytes)
    · have hclear : (num [b] 0 1 != 0) = true := by
        rw [num_cons_one]
        simpa [← BitVec.toNat_inj] using hb
      have hverdict : s.readCounters (num [b] 0 1 != 0) = (s.withCounters Counters.zero, .done s.counters.bytes) := by
        rw [hclear]
        rfl
      have hanswer : s.mgmtReadCounters tag [b] = (s.withCounters Counters.zero).reply 0x0E tag (.done s.counters.bytes) := by
        rw [mgmtReadCounters, hverdict]
        rfl
      exact congrArg Host.Outcome.next (hanswer.trans (reply_done (s := s.withCounters Counters.zero) h 0x0E tag _))
    · exact (stopSurvey_within s).eq_merge
    · have hroom : s.stopSurvey.port.queue.length < 64 := by
        rw [(stopSurvey_within s) .port (by decide)]
        exact h
      have hanswer : s.mgmtSurveySummary tag [] = s.stopSurvey.reply 0x11 tag (.done s.stopSurvey.surveySummary) := rfl
      rw [reply_done hroom, stopSurvey_summary] at hanswer
      exact congrArg Host.Outcome.next hanswer
    · rw [s.stopSurvey_of_running hrun]
      exact ⟨rfl, rfl⟩

/-- Settles O11: the size of the parameters first, then the request's own checks; a refusal leaves the state it found. -/
theorem requestsRefused : Obligations.RequestsRefused := by
  unfold Obligations.RequestsRefused
  refine ⟨fun s tag ps h => ?_, fun s tag a b h => ?_, fun s tag date b h => ?_⟩
  · have hread : ∀ (code : Byte) (size : Nat) (v : Verdict), ps.length ≠ size →
        s.answerRead code tag size ps v = s.withReply (s.refusedReply code tag .badContent) := by
      intro code size v hsize
      rw [answerRead_of_other s hsize, reply_refused h]
    have hdo : ∀ (code : Byte) (size : Nat) (f : State × Verdict), ps.length ≠ size →
        s.answerDo code tag size ps f = s.withReply (s.refusedReply code tag .badContent) := by
      intro code size f hsize
      rw [answerDo_of_other s hsize, reply_refused h]
    have hwrite : ∀ bs : List Byte, s.tableWrite bs = (s, refusal .badContent) →
        s.mgmtTableWrite tag bs = s.withReply (s.refusedReply 0x03 tag .badContent) := by
      intro bs hbs
      rw [mgmtTableWrite_of s hbs, reply_refused h]
    have hrestart : ∀ straps, ps.length ≠ 1 →
        s.restart tag ps straps = s.withReply (s.refusedReply 0x12 tag .badContent) := by
      intro straps hsize
      rw [restart, if_neg fun hc => hsize hc.1, if_neg fun hc => hsize hc.1, reply_refused h]
    refine ⟨fun code => ?_, fun hsize => ⟨?_, ?_, ?_, ?_, ?_, ?_⟩, fun hsize => ⟨?_, ?_, ?_, ?_, ?_, ?_, fun straps => ?_⟩,
      fun hsize => ⟨?_, ?_⟩, fun hsize => ?_, fun hsize => ?_, ?_, fun x hsize => ?_⟩
    · exact congrArg Host.Outcome.next (reply_refused h code tag .unknown)
    · exact congrArg Host.Outcome.next (hread _ _ _ hsize)
    · exact congrArg Host.Outcome.next (hread _ _ _ hsize)
    · exact congrArg Host.Outcome.next (hdo _ _ _ hsize)
    · exact congrArg Host.Outcome.next (hdo _ _ _ hsize)
    · exact congrArg Host.Outcome.next (hdo _ _ _ hsize)
    · exact congrArg Host.Outcome.next (hdo _ _ _ hsize)
    · exact congrArg Host.Outcome.next (hdo _ _ _ hsize)
    · exact congrArg Host.Outcome.next (hread _ _ _ hsize)
    · exact congrArg Host.Outcome.next (hread _ _ _ hsize)
    · exact congrArg Host.Outcome.next (hdo _ _ _ hsize)
    · exact congrArg Host.Outcome.next (hdo _ _ _ hsize)
    · exact congrArg Host.Outcome.next (hread _ _ _ hsize)
    · exact congrArg Host.Outcome.next (hrestart straps hsize)
    · exact congrArg Host.Outcome.next (hread _ _ _ hsize)
    · exact congrArg Host.Outcome.next (hread _ _ _ hsize)
    · exact congrArg Host.Outcome.next (hread _ _ _ hsize)
    · exact congrArg Host.Outcome.next (hdo _ _ _ hsize)
    · exact congrArg Host.Outcome.next (hwrite [] rfl)
    · exact congrArg Host.Outcome.next (hwrite _ (s.tableWrite_of_size x hsize))
  · have hread : ∀ (code : Byte) (bs : List Byte) (v : Verdict) (o : MgmtOutcome), v = refusal o →
        s.answerRead code tag bs.length bs v = s.withReply (s.refusedReply code tag o) := by
      intro code bs v o hv
      rw [answerRead_of_size s rfl, hv, reply_refused h]
    refine ⟨fun hout => ?_, fun hout => ⟨?_, ?_⟩, fun hout => ?_, fun hout => ?_, fun c hc => ⟨?_, fun ps => ?_⟩, fun x hx => ?_⟩
    · refine congrArg Host.Outcome.next (hread 0x0A [a, b] _ _ ?_)
      rw [num_cons_succ, num_cons_one, num_cons_one, readDrawer, if_pos hout]
    · refine congrArg Host.Outcome.next (hread 0x0B [a] _ _ ?_)
      rw [num_cons_one, readSession, if_neg (outside_positions hout)]
    · refine congrArg Host.Outcome.next (hread 0x10 [a] _ _ ?_)
      rw [num_cons_one, readSurveyPosition, if_neg (outside_positions hout)]
    · refine congrArg Host.Outcome.next (hread 0x0C [a] _ _ ?_)
      rw [num_cons_one, readPending, if_pos hout]
    · refine congrArg Host.Outcome.next (hread 0x0D [a, b] _ _ ?_)
      rw [num_cons_two, readJournal]
      exact if_pos hout
    · exact congrArg Host.Outcome.next (hread 0x04 [c, a, b] _ _ (s.tableRead_of_above hc))
    · refine congrArg Host.Outcome.next ?_
      exact (mgmtTableWrite_of s (s.tableWrite_of_above hc ps)).trans (reply_refused h 0x03 tag .badSection)
    · exact congrArg Host.Outcome.next (hread 0x04 [toByte x.code, a, b] _ _ (s.tableRead_of_section hx))
  · have hdo : ∀ (code : Byte) (bs : List Byte) (f : State × Verdict) (o : MgmtOutcome), f = (s, refusal o) →
        s.answerDo code tag bs.length bs f = s.withReply (s.refusedReply code tag o) := by
      intro code bs f o hf
      rw [answerDo_refused s rfl code tag hf, reply_refused h]
    have hopen : ∀ o, date.length = 8 → s.mgmtOpenDay date = (s, refusal o) →
        s.mgmtOpen tag date = s.withReply (s.refusedReply 0x06 tag o) := by
      intro o hsize hf
      have hanswer := hdo 0x06 date _ o hf
      rw [hsize] at hanswer
      exact hanswer
    refine ⟨fun hsize hstate => ?_, fun hsize hlock hstate hdate => ?_, fun hstate => ?_, fun hstate => ?_, fun hstate => ?_,
      fun h1 h2 => ?_, fun hmode hrun => ?_, fun h1 h2 straps => ?_⟩
    · refine congrArg Host.Outcome.next (hopen .state hsize ?_)
      have hcheck : (!s.live || (s.day.state != .noDay && s.day.state != .sent)) = true := by
        simpa [live] using hstate
      rw [mgmtOpenDay, if_pos hcheck]
    · refine congrArg Host.Outcome.next (hopen .badContent hsize ?_)
      have hcheck : ¬ (!s.live || (s.day.state != .noDay && s.day.state != .sent)) = true := by
        simp only [live, Bool.or_eq_true, Bool.and_eq_true, bne_iff_ne, Bool.not_eq_true', bne_eq_false_iff_eq]
        rintro (hlock' | ⟨h1, h2⟩)
        · exact hlock hlock'
        · exact hstate.elim h1 h2
      rw [mgmtOpenDay, if_neg hcheck, hdate]
      rfl
    · refine congrArg Host.Outcome.next (hdo 0x07 [] _ .state ?_)
      rw [mgmtCutoff, if_neg hstate]
    · refine congrArg Host.Outcome.next (hdo 0x08 [] _ .state ?_)
      have hcheck : ¬ (s.day.state = .cutoff ∧ s.generalRoom = true) := by
        simp only [generalRoom, Bool.and_eq_true, decide_eq_true_eq]
        rintro ⟨hcut, _, hspace⟩
        rcases hstate with hstate | hstate
        · exact hstate hcut
        · omega
      rw [mgmtReopenDay, if_neg hcheck]
    · refine congrArg Host.Outcome.next (hdo 0x09 [] _ .state ?_)
      rw [mgmtResumeBatch, if_neg hstate]
    · refine congrArg Host.Outcome.next (hdo 0x0F [b] _ .badContent ?_)
      have hn1 : ¬ b.toNat = 1 := fun hb => h1 (BitVec.eq_of_toNat_eq hb)
      have hn2 : ¬ b.toNat = 2 := fun hb => h2 (BitVec.eq_of_toNat_eq hb)
      rw [num_cons_one, mgmtStartSurvey, if_neg hn1, if_neg hn2]
    · refine congrArg Host.Outcome.next (hdo 0x0F [b] _ .busy ?_)
      rcases hmode with rfl | rfl
      · exact if_pos hrun
      · exact if_pos hrun
    · have hn1 : ¬ (([b] : List Byte).length = 1 ∧ num [b] 0 1 = 1) := by
        rw [num_cons_one]
        exact fun hb => h1 (BitVec.eq_of_toNat_eq hb.2)
      have hn2 : ¬ (([b] : List Byte).length = 1 ∧ num [b] 0 1 = 2) := by
        rw [num_cons_one]
        exact fun hb => h2 (BitVec.eq_of_toNat_eq hb.2)
      have hrestart : s.restart tag [b] straps = s.reply 0x12 tag (refusal .badContent) := by
        rw [restart, if_neg hn1, if_neg hn2]
      exact congrArg Host.Outcome.next (hrestart.trans (reply_refused h 0x12 tag .badContent))

end Sys2Proof.Proofs
end

