-- ==== Sys2Proof/Proofs/TableChecks.lean ====
section
/-! The checks of TABLE WRITE, the cross-reference checks and LOCK (R13, R18, R19, R20, R150). -/

set_option Elab.async false

namespace Sys2Proof.Machine

namespace Tables

variable (t : Tables)

/-! ### The cross-reference checks (R19) -/

theorem firstBroken_none {indices : List Nat} {ok : Nat → Bool} :
    firstBroken indices ok = none ↔ ∀ i ∈ indices, ok i = true := by
  simp [firstBroken]

theorem firstBroken_range {n k : Nat} {ok : Nat → Bool} :
    firstBroken (List.range n) ok = some k ↔ k < n ∧ ok k = false ∧ ∀ i, i < k → ok i = true := by
  unfold firstBroken
  rw [List.find?_range_eq_some]
  simp only [Bool.not_eq_true', List.mem_range, Bool.not_not]
  tauto

theorem firstBroken_positions {k : Nat} {ok : Nat → Bool} (h : firstBroken allPositions ok = some k) :
    1 ≤ k ∧ k ≤ 24 ∧ ok k = false ∧ ∀ p, 1 ≤ p → p < k → ok p = true := by
  unfold firstBroken allPositions at h
  rw [List.find?_range'_eq_some] at h
  obtain ⟨hok, hmem, hlow⟩ := h
  rw [List.mem_range'_1] at hmem
  refine ⟨hmem.1, by omega, by simpa using hok, fun p h1 hp => ?_⟩
  simpa using hlow p h1 hp

theorem positionSound_iff {p : Nat} :
    t.positionSound p = true ↔ ∀ e, t.position p = some e → (t.form e.defaultForm).isSome = true := by
  unfold positionSound
  split <;> simp_all

theorem codeSound_iff {i : Nat} : t.codeSound i = true ↔
    ∀ e f, rd t.codes i none = some e → e.answerForm = some f → (t.form f).isSome = true := by
  unfold codeSound
  cases rd t.codes i none with
  | none => simp
  | some e =>
    cases he : e.answerForm with
    | none =>
      simp only [Option.bind_some, he, true_iff]
      rintro _ f ⟨⟩ hf
      rw [he] at hf
      cases hf
    | some f =>
      simp only [Option.bind_some, he]
      refine ⟨?_, fun h => h e f rfl he⟩
      rintro h _ g ⟨⟩ hg
      rw [he] at hg
      cases hg
      exact h

theorem sourceSound_iff {x : Source} : t.sourceSound x = true ↔ ∀ c d, x.currency = some (c, d) →
    ∃ k, t.currency c = some k ∧ ∀ n, d = some n → 1 ≤ n ∧ n ≤ k.faces.length := by
  unfold sourceSound
  split
  · next h => simp [h]
  · next c d h =>
    rw [h]
    simp only [Option.some.injEq, Prod.mk.injEq]
    constructor
    · rintro hs _ _ ⟨rfl, rfl⟩
      cases hk : t.currency c with
      | none => simp [hk] at hs
      | some k => cases d <;> simp_all [inRange]
    · intro hs
      obtain ⟨k, hk, hd⟩ := hs c d ⟨rfl, rfl⟩
      cases d <;> simp_all [inRange]

theorem fieldSound_iff {i : Nat} : t.fieldSound i = true ↔ ∀ e, t.field i = some e → ∀ c d, e.source.currency = some (c, d) →
    ∃ k, t.currency c = some k ∧ ∀ n, d = some n → 1 ≤ n ∧ n ≤ k.faces.length := by
  unfold fieldSound
  split
  · next e he => simp [he, sourceSound_iff]
  · next he => simp [he]

theorem faces_ne_nil_iff : t.faces 0 ≠ [] ↔ ∃ k, t.currency 0 = some k ∧ k.faces ≠ [] := by
  unfold faces
  cases t.currency 0 <;> simp

theorem codes_defined_iff :
    ¬ (List.range 128).all (fun i => (rd t.codes i none).isNone) = true ↔ ∃ i e, rd t.codes i none = some e := by
  constructor
  · intro h
    simp only [List.all_eq_true, not_forall] at h
    obtain ⟨i, _, hi⟩ := h
    obtain ⟨e, he⟩ := Option.ne_none_iff_exists'.mp (by simpa using hi)
    exact ⟨i, e, he⟩
  · rintro ⟨i, e, he⟩ h
    have hi : i < 128 := by
      by_contra hn
      rw [rd_outside _ (Nat.le_of_not_lt hn)] at he
      cases he
    have := List.all_eq_true.mp h i (List.mem_range.mpr hi)
    simp [he] at this

end Tables

/-! ### TABLE WRITE by its first failing check (R13) -/

namespace State

variable (s : State)

/-- The lock level and the day state that let a section be written (R20). -/
theorem writable_iff {x : Section} : s.writable x = true ↔
    x = .rates ∨ x = .tellers ∨ x = .surveyMask ∨ s.lock = 0 ∨
      (s.lock = 1 ∧ (s.day.state = .noDay ∨ s.day.state = .sent)) := by
  have hsection : (!x.structural) = true ↔ x = .rates ∨ x = .tellers ∨ x = .surveyMask := by
    cases x <;> decide
  unfold writable
  simp only [Bool.or_eq_true, Bool.and_eq_true, beq_iff_eq, hsection]
  tauto

theorem writeChecked_of_unparsed {x : Section} {content : List Byte} (h : parseContent x content = none) (i : Nat) :
    s.writeChecked x i content = (s, refusal .badContent) := by
  rw [writeChecked, h]

theorem writeChecked_of_unsound {x : Section} {content : List Byte} {e : TableEntry} {i : Nat}
    (h : parseContent x content = some e) (hbad : e.sound i = false ∨ e.agrees s.tables i = false) :
    s.writeChecked x i content = (s, refusal .badContent) := by
  have hbad' : (!e.sound i || !e.agrees s.tables i) = true := by simpa using hbad
  rw [writeChecked, h]
  exact if_pos hbad'

/-- Past step 7 a live part makes the cross-reference checks. -/
theorem writeChecked_of_cross {x : Section} {content : List Byte} {e : TableEntry} {i c k : Nat} {y : Section}
    (h : parseContent x content = some e) (hsound : e.sound i = true) (hagrees : e.agrees s.tables i = true)
    (hcross : (if s.lock = 0 then none else (s.tables.store i e).crossCheck) = some (c, y, k)) :
    s.writeChecked x i content = (s, .refused .badContent c y.code k) := by
  have hgood : ¬ (!e.sound i || !e.agrees s.tables i) = true := by simp [hsound, hagrees]
  have hlive : (if s.live then (s.tables.store i e).crossCheck else none) = some (c, y, k) := by
    by_cases hlock : s.lock = 0 <;> simp_all [live]
  rw [writeChecked, h]
  dsimp only
  rw [if_neg hgood, hlive]

/-- Past the cross-reference checks the entry's use decides. -/
theorem writeChecked_of_passed {x : Section} {content : List Byte} {e : TableEntry} {i : Nat}
    (h : parseContent x content = some e) (hsound : e.sound i = true) (hagrees : e.agrees s.tables i = true)
    (hcross : (if s.lock = 0 then none else (s.tables.store i e).crossCheck) = none) :
    s.writeChecked x i content = if s.inUse i e then (s, refusal .inUse)
      else (s.storeEntry i e, .done (0 :: ((s.tables.store i e).read x i).bytes)) := by
  have hgood : ¬ (!e.sound i || !e.agrees s.tables i) = true := by simp [hsound, hagrees]
  have hlive : (if s.live then (s.tables.store i e).crossCheck else none) = none := by
    by_cases hlock : s.lock = 0 <;> simp_all [live]
  rw [writeChecked, h]
  dsimp only
  rw [if_neg hgood, hlive]

theorem writeSection_of_clear {x : Section} {i : Nat} (h : x.hasIndex i = true) (content : List Byte) :
    s.writeSection x i false content =
      (s, .done (flagByte (contentMatches x content (s.tables.read x i)) :: (s.tables.read x i).bytes)) := by
  rw [writeSection, h]
  rfl

theorem writeSection_of_writable {x : Section} {i : Nat} (h : x.hasIndex i = true) (hwritable : s.writable x = true)
    (hidle : ¬ (x = .surveyMask ∧ s.survey.state = .running)) (content : List Byte) :
    s.writeSection x i true content = s.writeChecked x i content := by
  rw [writeSection, h, hwritable]
  exact if_neg hidle

/-! ### LOCK by the level it finds (R19) -/

theorem takeLock_of_other {n : Nat} (h1 : n ≠ 1) (h2 : n ≠ 2) : s.takeLock n = (s, refusal .badContent) := by
  rw [takeLock, if_pos ⟨h1, h2⟩]

theorem takeLock_of_cross {n c i : Nat} {x : Section} (h : n = 1 ∨ n = 2) (hlock : s.lock = 0)
    (hcross : s.tables.crossCheck = some (c, x, i)) : s.takeLock n = (s, .refused .badContent c x.code i) := by
  rw [takeLock, if_neg (by omega), if_pos hlock, hcross]

theorem takeLock_of_live {n : Nat} (h : n = 1 ∨ n = 2) (hlock : s.lock = 0) (hcross : s.tables.crossCheck = none) :
    s.takeLock n = ((s.withLock n).goLive, .done []) := by
  rw [takeLock, if_neg (by omega), if_pos hlock, hcross]

theorem takeLock_of_one {n : Nat} (h : n = 1 ∨ n = 2) (hlock : s.lock = 1) : s.takeLock n = (s.withLock n, .done []) := by
  rw [takeLock, if_neg (by omega), if_neg (by omega), if_pos hlock]

theorem takeLock_of_two {n : Nat} (h : n = 1 ∨ n = 2) (hlock : 2 ≤ s.lock) : s.takeLock n = (s, .done []) := by
  rw [takeLock, if_neg (by omega), if_neg (by omega), if_neg (by omega)]

theorem mgmtLock_of_verdict {b : Byte} {t : State} {v : Verdict} (h : s.takeLock b.toNat = (t, v)) (tag : Nat) :
    s.mgmtLock tag [b] = t.reply 0x05 tag v := by
  rw [mgmtLock, num_cons_one, h]
  rfl

theorem takeDefaultForm_eq {p : Nat} {e : PositionEntry} (h : s.tables.position p = some e) :
    s.takeDefaultForm p = s.takeForm p e.defaultForm := by
  rw [takeDefaultForm, h]

theorem position_index {t : Tables} {p : Nat} {e : PositionEntry} (h : t.position p = some e) : 1 ≤ p ∧ p ≤ 24 := by
  by_contra hn
  unfold Tables.position rd1 at h
  split at h
  · cases h
  · rw [rd_outside _ (by omega)] at h
    cases h

/-- The screen of a position once it has taken the default form of the position's entry. -/
def defaultFormed (t : Tables) (p : Nat) (sc : Screen) : Screen :=
  match t.position p with
  | some e => (sc.setForm e.defaultForm).settle t
  | none => sc

theorem defaultFormed_form {t : Tables} {p : Nat} {e : PositionEntry} (h : t.position p = some e) (sc : Screen) :
    (defaultFormed t p sc).form = e.defaultForm := by
  unfold defaultFormed
  rw [h]
  dsimp only
  rw [Screen.settle_eq]
  unfold Screen.setForm
  split
  · assumption
  · rfl

theorem defaultFormed_undefined {t : Tables} {p : Nat} (h : t.position p = none) (sc : Screen) :
    defaultFormed t p sc = sc := by
  unfold defaultFormed
  rw [h]

theorem screen_takeDefaultForm_same (p : Nat) :
    (s.takeDefaultForm p).screen p = defaultFormed s.tables p (s.screen p) := by
  unfold takeDefaultForm defaultFormed
  cases h : s.tables.position p with
  | none => rfl
  | some e => exact screen_onScreen_same s (position_index h) _

theorem screen_takeDefaultForm_other {p q : Nat} (h : p ≠ q) : (s.takeDefaultForm p).screen q = s.screen q := by
  unfold takeDefaultForm
  split
  · exact screen_takeForm_other (Ne.symm h) _
  · rfl

theorem takeDefaultForm_tables (p : Nat) : (s.takeDefaultForm p).tables = s.tables :=
  takeDefaultForm_within s p .tables (by decide)

/-- Going live: the screen of each defined position takes the entry's default form, the others stay (R150). -/
theorem goLive_screen (p : Nat) : s.goLive.screen p = defaultFormed s.tables p (s.screen p) := by
  have hrun := foldl_places screen takeDefaultForm (fun t p sc => defaultFormed t.tables p sc)
    (fun t i j h => t.screen_takeDefaultForm_other h) (fun t i j x => by rw [t.takeDefaultForm_tables])
    (fun t p _ => t.screen_takeDefaultForm_same p) (allPositions_nodup.filter (fun p => (s.tables.position p).isSome)) s p
  rw [goLive, hrun]
  split
  · rfl
  · next h =>
    have hnone : s.tables.position p = none := by
      by_contra hn
      obtain ⟨e, he⟩ := Option.ne_none_iff_exists'.mp hn
      exact h (List.mem_filter.mpr ⟨mem_allPositions.mpr (position_index he), by simp [he]⟩)
    rw [defaultFormed_undefined hnone]

end State

end Sys2Proof.Machine

namespace Sys2Proof.Proofs

open Sys2Proof.Machine Sys2Proof.Machine.State

/-- Settles O13: the branches of TABLE WRITE in the order in which it takes them. -/
theorem tableWriteChecksInOrder : Obligations.TableWriteChecksInOrder := by
  unfold Obligations.TableWriteChecksInOrder
  refine ⟨fun s tag i x intent content h hi hsize => ?_, fun s x _ => s.writable_iff⟩
  have hanswer : ∀ v r, s.writeSection x i (intent != 0) content = (s, v) → s.replyOf 0x03 tag v = r →
      exec (.tableWrite tag (toByte x.code :: be 2 i ++ intent :: content)) s = .next (s.withReply r) := by
    intro v r hwrite hr
    rw [← s.tableWrite_of_section x hi intent hsize] at hwrite
    refine congrArg Host.Outcome.next ?_
    rw [mgmtTableWrite_of s hwrite, reply_of_room h, hr]
  dsimp only
  split
  · next hindex => exact hanswer (refusal .badIndex) _ (by rw [writeSection, hindex]; rfl) rfl
  · next hindex =>
    have hindex : x.hasIndex i = true := by simpa using hindex
    split
    · next hintent =>
      have hclear : (intent != 0) = false := by simpa using hintent
      exact hanswer _ _ (by rw [hclear, s.writeSection_of_clear hindex]) rfl
    · next hintent =>
      have hset : (intent != 0) = true := by simpa using hintent
      split
      · next hlocked => exact hanswer (refusal .locked) _ (by rw [hset, writeSection, hindex, hlocked]; rfl) rfl
      · next hlocked =>
        have hwritable : s.writable x = true := by simpa using hlocked
        split
        · next hrun =>
          exact hanswer (refusal .busy) _ (by rw [hset, writeSection, hindex, hwritable]; exact if_pos hrun) rfl
        · next hidle =>
          have hchecked := s.writeSection_of_writable hindex hwritable hidle content
          split
          · next hparse =>
            exact hanswer (refusal .badContent) _ (by rw [hset, hchecked, s.writeChecked_of_unparsed hparse]) rfl
          · next e hparse =>
            split
            · next hbad =>
              exact hanswer (refusal .badContent) _ (by rw [hset, hchecked, s.writeChecked_of_unsound hparse hbad]) rfl
            · next hgood =>
              have hsound : e.sound i = true := by simpa using fun hb => hgood (Or.inl hb)
              have hagrees : e.agrees s.tables i = true := by simpa using fun hb => hgood (Or.inr hb)
              split
              · next c y k hcross =>
                exact hanswer _ _ (by rw [hset, hchecked, s.writeChecked_of_cross hparse hsound hagrees hcross]) rfl
              · next hcross =>
                intro huse
                refine hanswer (refusal .inUse) _ ?_ rfl
                rw [hset, hchecked, s.writeChecked_of_passed hparse hsound hagrees hcross, if_pos huse]

/-- Settles O14: each check in turn, by the first index at which it is broken. -/
theorem crossChecksInOrder : Obligations.CrossChecksInOrder := by
  unfold Obligations.CrossChecksInOrder
  intro t
  dsimp only
  simp only [← t.positionSound_iff, ← t.codeSound_iff, ← t.fieldSound_iff, ← t.faces_ne_nil_iff, ← t.codes_defined_iff]
  unfold Tables.crossCheck
  have hpositions : Tables.firstBroken allPositions t.positionSound = none ↔ ∀ p, 1 ≤ p → p ≤ 24 → t.positionSound p = true := by
    simp only [Tables.firstBroken_none, mem_allPositions, and_imp]
  have hcodes : Tables.firstBroken (List.range 128) t.codeSound = none ↔ ∀ i, i < 128 → t.codeSound i = true := by
    simp only [Tables.firstBroken_none, List.mem_range]
  have hfields : Tables.firstBroken (List.range 512) t.fieldSound = none ↔ ∀ i, i < 512 → t.fieldSound i = true := by
    simp only [Tables.firstBroken_none, List.mem_range]
  rw [← hpositions, ← hcodes, ← hfields]
  cases h1 : Tables.firstBroken allPositions t.positionSound with
  | some p =>
    obtain ⟨hp1, hp24, hbroken, hbelow⟩ := Tables.firstBroken_positions h1
    refine ⟨by simp, ?_⟩
    rintro n x k ⟨⟩
    exact Or.inl ⟨rfl, rfl, hp1, hp24, by simp [hbroken], hbelow⟩
  | none =>
    cases h2 : Tables.firstBroken (List.range 128) t.codeSound with
    | some i =>
      obtain ⟨hi, hbroken, hbelow⟩ := Tables.firstBroken_range.mp h2
      refine ⟨by simp, ?_⟩
      rintro n x k ⟨⟩
      exact Or.inr (Or.inl ⟨rfl, rfl, hi, by simp [hbroken], rfl, hbelow⟩)
    | none =>
      cases h3 : Tables.firstBroken (List.range 512) t.fieldSound with
      | some i =>
        obtain ⟨hi, hbroken, hbelow⟩ := Tables.firstBroken_range.mp h3
        refine ⟨by simp, ?_⟩
        rintro n x k ⟨⟩
        exact Or.inr (Or.inr (Or.inl ⟨rfl, rfl, hi, by simp [hbroken], rfl, rfl, hbelow⟩))
      | none =>
        dsimp only
        by_cases h4 : t.faces 0 = []
        · rw [if_pos h4]
          refine ⟨by simp [h4], ?_⟩
          rintro n x k ⟨⟩
          exact Or.inr (Or.inr (Or.inr (Or.inl ⟨rfl, rfl, rfl, fun hn => hn h4, rfl, rfl, rfl⟩)))
        · rw [if_neg h4]
          by_cases h5 : (List.range 128).all (fun i => (rd t.codes i none).isNone) = true
          · rw [if_pos h5]
            refine ⟨by simp [h5], ?_⟩
            rintro n x k ⟨⟩
            exact Or.inr (Or.inr (Or.inr (Or.inr ⟨rfl, rfl, rfl, fun hn => hn h5, rfl, rfl, rfl, h4⟩)))
          · rw [if_neg h5]
            exact ⟨⟨fun _ => ⟨rfl, rfl, rfl, h4, h5⟩, fun _ => rfl⟩, fun n x k h => by cases h⟩

/-- Settles O15: LOCK by its value and the level found. -/
theorem lockByLevel : Obligations.LockByLevel := by
  unfold Obligations.LockByLevel
  refine fun s tag b h => ⟨fun h1 h2 => ?_, fun hb => ?_⟩
  · have hn1 : b.toNat ≠ 1 := fun hb => h1 (BitVec.eq_of_toNat_eq hb)
    have hn2 : b.toNat ≠ 2 := fun hb => h2 (BitVec.eq_of_toNat_eq hb)
    exact congrArg Host.Outcome.next
      ((s.mgmtLock_of_verdict (s.takeLock_of_other hn1 hn2) tag).trans (reply_refused h 0x05 tag .badContent))
  · have hlevel : b.toNat = 1 ∨ b.toNat = 2 := by
      rcases hb with rfl | rfl
      · exact Or.inl rfl
      · exact Or.inr rfl
    refine ⟨fun hlock c x k hcross => ?_, fun hlock hcross => ⟨(s.withLock b.toNat).goLive, ?_, ?_, fun p e he => ?_,
      fun p he => ?_⟩, fun hlock => ?_, fun hlock => ?_⟩
    · exact congrArg Host.Outcome.next
        ((s.mgmtLock_of_verdict (s.takeLock_of_cross hlevel hlock hcross) tag).trans (reply_of_room h 0x05 tag _))
    · exact ((goLive_within (s.withLock b.toNat)).eq_merge)
    · have hroom : (s.withLock b.toNat).goLive.port.queue.length < 64 := by
        rw [(goLive_within (s.withLock b.toNat)) .port (by decide)]
        exact h
      exact congrArg Host.Outcome.next
        ((s.mgmtLock_of_verdict (s.takeLock_of_live hlevel hlock hcross) tag).trans (reply_done hroom 0x05 tag []))
    · rw [(s.withLock b.toNat).goLive_screen p]
      exact defaultFormed_form he _
    · rw [(s.withLock b.toNat).goLive_screen p]
      exact defaultFormed_undefined he _
    · exact congrArg Host.Outcome.next ((s.mgmtLock_of_verdict (s.takeLock_of_one hlevel hlock) tag).trans
        (reply_done (s := s.withLock b.toNat) h 0x05 tag []))
    · exact congrArg Host.Outcome.next
        ((s.mgmtLock_of_verdict (s.takeLock_of_two hlevel hlock) tag).trans (reply_done h 0x05 tag []))

end Sys2Proof.Proofs
end

