-- ==== Sys2Proof/Proofs/ReadData.lean ====
section
/-! What replies and reads carry (R8, R11, R87, R173, R182, R205): the status summary, the data of a drawer, the records of a
run, and the bytes and sizes of entries and records. -/

set_option Elab.async false

namespace Sys2Proof.Machine

/-! ### The pending request table as a list of its places (R67) -/

theorem toList_eq_map_rd {α : Type} {n : Nat} (v : Vector α n) (d : α) :
    v.toList = (List.range n).map (fun i => rd v i d) := by
  apply List.ext_getElem
  · simp
  · intro i h1 h2
    have hi : i < n := by simpa using h1
    simp [rd, hi]

theorem State.entries_toList (s : State) : s.entries.toList = (List.range 32).map s.entry := toList_eq_map_rd s.entries none

theorem State.pendingCount_eq (s : State) :
    s.pendingCount = ((List.range 32).filter (fun i => (s.entry i).isSome)).length := by
  unfold pendingCount
  rw [s.entries_toList, List.filter_map, List.length_map]
  rfl

/-! ### A run of journal records (R182) -/

theorem takeRecords_prefix (most room : Nat) (records : List Record) : takeRecords most room records <+: records := by
  induction most generalizing room records with
  | zero => exact List.nil_prefix
  | succ most ih =>
    cases records with
    | nil => exact List.nil_prefix
    | cons r rest =>
      unfold takeRecords
      split
      · exact List.cons_prefix_cons.mpr ⟨rfl, ih _ _⟩
      · exact List.nil_prefix

theorem takeRecords_length (most room : Nat) (records : List Record) : (takeRecords most room records).length ≤ most := by
  induction most generalizing room records with
  | zero => exact Nat.le_refl 0
  | succ most ih =>
    cases records with
    | nil => exact Nat.zero_le _
    | cons r rest =>
      unfold takeRecords
      split
      · exact Nat.succ_le_succ (ih _ _)
      · exact Nat.zero_le _

theorem takeRecords_size (most room : Nat) (records : List Record) :
    ((takeRecords most room records).map (·.size)).sum ≤ room := by
  induction most generalizing room records with
  | zero => exact Nat.zero_le _
  | succ most ih =>
    cases records with
    | nil => exact Nat.zero_le _
    | cons r rest =>
      unfold takeRecords
      split
      · next h =>
        have := ih (room - r.size) rest
        simp only [List.map_cons, List.sum_cons]
        omega
      · exact Nat.zero_le _

/-- The record after a run is left out by one of the two limits. -/
theorem takeRecords_stops (most room : Nat) (records : List Record) (r : Record)
    (h : records[(takeRecords most room records).length]? = some r) :
    (takeRecords most room records).length = most ∨ room < ((takeRecords most room records).map (·.size)).sum + r.size := by
  induction most generalizing room records with
  | zero => exact Or.inl rfl
  | succ most ih =>
    cases records with
    | nil => simp at h
    | cons x rest =>
      unfold takeRecords at h ⊢
      split
      · next hx =>
        rw [if_pos hx, List.length_cons, List.getElem?_cons_succ] at h
        rcases ih _ _ h with hlen | hsize
        · exact Or.inl (by rw [List.length_cons, hlen])
        · right
          simp only [List.map_cons, List.sum_cons]
          omega
      · next hx =>
        rw [if_neg hx] at h
        cases h
        exact Or.inr (by simpa using hx)

/-! ### Sizes of what is written (R87, R205) -/

theorem Entry.bytes_length (e : Entry) : e.bytes.length = 66 + 6 * e.req.items.length := by
  have hitems : (e.req.items.flatMap Item.bytes).length = 6 * e.req.items.length :=
    length_flatMap_const fun i _ => by simp [Item.bytes]
  unfold Entry.bytes
  cases e.req.exch with
  | none =>
    simp only [List.length_append, length_be, List.length_cons, List.length_nil, List.length_replicate, hitems,
      length_accountField]
    omega
  | some x =>
    simp only [List.length_append, length_be, List.length_cons, List.length_nil, length_beInt, hitems, length_accountField]
    omega

theorem Figures.bytes_length (f : Figures) : f.bytes.length = 104 := by
  simp only [Figures.bytes, List.length_append, length_beInt]

theorem PostBody.bytes_length (p : PostBody) : p.bytes.length + 8 = (Body.post p).size := by
  unfold PostBody.bytes Body.size
  cases hx : p.exch with
  | none =>
    simp only [hx, List.length_append, length_be, List.length_cons, List.length_nil, length_padTo, length_accountField,
      length_countsBytes]
    omega
  | some x =>
    simp only [hx, List.length_append, length_be, List.length_cons, List.length_nil, length_padTo, length_accountField,
      length_countsBytes, length_beInt]
    omega

theorem Body.bytes_length (b : Body) : b.bytes.length + 8 = b.size := by
  cases b with
  | post p => exact p.bytes_length
  | proof pos teller drawer result diffs =>
    have h : ((padTo 4 0 diffs).flatMap (beInt 6)).length = 6 * (padTo 4 0 diffs).length :=
      length_flatMap_const fun _ _ => length_beInt 6 _
    simp [Body.bytes, Body.size, h]
  | settlement figures last =>
    have h : ((padTo 4 Figures.zero figures).flatMap Figures.bytes).length = 104 * (padTo 4 Figures.zero figures).length :=
      length_flatMap_const fun f _ => f.bytes_length
    simp [Body.bytes, Body.size, h]
  | _ => simp [Body.bytes, Body.size]

theorem Record.bytes_length (r : Record) : r.bytes.length = r.size := by
  have h := r.body.bytes_length
  simp only [Record.bytes, Record.size, List.length_append, length_be, List.length_cons, List.length_nil]
  omega

theorem Figures.bytes_eq (f : Figures) : f.bytes =
    [f.opening, f.deposits, f.withdrawals, f.exchangeIn, f.exchangeOut, f.homeIn, f.homeOut, f.residue, f.deliveries,
      f.shipments, f.overShort, f.closing, f.records].flatMap (beInt 8) := by
  simp only [Figures.bytes, List.flatMap_cons, List.flatMap_nil, List.append_nil, List.append_assoc]

namespace State

variable (s : State)

theorem summary_eq : s.summary = {
    lock := s.lock, live := decide (s.lock ≠ 0), held := decide (s.day.state = .held)
    nearlyFull := decide (15360 ≤ s.journal.records.length), inReserve := decide (s.generalSpace < 1)
    prevFailed := s.port.prevFailed, day := s.day.state, survey := s.survey.state
    pendingCount := ((List.range 32).filter (fun i => (s.entry i).isSome)).length
    freeSlots := 64 - s.port.queue.length - 1 } := by
  have hlive : s.live = decide (s.lock ≠ 0) := by
    by_cases h : s.lock = 0 <;> simp [live, h]
  have hheld : (s.day.state == .held) = decide (s.day.state = .held) := by
    rw [Bool.eq_iff_iff, beq_iff_eq, decide_eq_true_iff]
  unfold summary
  rw [hlive, hheld, s.pendingCount_eq]
  rfl

theorem drawerCounts_eq (d c : Nat) : s.drawerCounts d c = (List.range' 1 12).flatMap (fun k =>
    if s.tables.currency c = none ∨ (d ≠ 0 ∧ s.tables.ownDrawer d ≠ d) then [0, 0, 0, 0, 0, 0]
    else be 2 (countAt (s.drawer d).book c k) ++ be 2 (countAt (s.drawer d).reserved c k) ++
      be 2 (countAt (s.drawer d).incoming c k)) := by
  have hunused : ((s.tables.currency c).isNone || s.tables.unusedByPair d) = true ↔
      s.tables.currency c = none ∨ (d ≠ 0 ∧ s.tables.ownDrawer d ≠ d) := by
    simp [Tables.unusedByPair]
  unfold drawerCounts
  by_cases h : s.tables.currency c = none ∨ (d ≠ 0 ∧ s.tables.ownDrawer d ≠ d)
  · rw [if_pos (hunused.mpr h)]
    simp only [if_pos h]
    rfl
  · rw [if_neg fun hn => h (hunused.mp hn)]
    simp only [if_neg h]

/-- The data of READ DRAWER (R11, R95). -/
theorem drawerData_eq (d c : Nat) : s.drawerData d c =
    [toByte (match (s.drawer d).state with | .active => 1 | .outOfBalance => 2 | .awaitingAccept => 3 | .balanced => 4),
      toByte (match (s.drawer d).physical with | .closed => 1 | .opened => 2 | .unknown => 3),
      toByte ((if (s.drawer d).ceiling then 1 else 0) + (if (s.drawer d).openLong then 2 else 0) +
        if (s.drawer d).forced then 4 else 0),
      toByte (s.drawer d).recount, if (s.drawer d).releasePending then 1 else 0] ++ be 2 (s.drawer d).openings ++
    [if (s.drawer d).postedToday then 1 else 0] ++ be 6 (rd (s.drawer d).opening c 0) ++
    [toByte (s.tables.faces c).length] ++ (List.range' 1 12).flatMap (fun k =>
      if s.tables.currency c = none ∨ (d ≠ 0 ∧ s.tables.ownDrawer d ≠ d) then [0, 0, 0, 0, 0, 0]
      else be 2 (countAt (s.drawer d).book c k) ++ be 2 (countAt (s.drawer d).reserved c k) ++
        be 2 (countAt (s.drawer d).incoming c k)) := by
  have hstate : ∀ x : DrawerState, x.code =
      match x with | .active => 1 | .outOfBalance => 2 | .awaitingAccept => 3 | .balanced => 4 := by
    intro x
    cases x <;> rfl
  have hphysical : ∀ x : Physical, x.code = match x with | .closed => 1 | .opened => 2 | .unknown => 3 := by
    intro x
    cases x <;> rfl
  have halert : (s.drawer d).alertBits = (if (s.drawer d).ceiling then 1 else 0) +
      (if (s.drawer d).openLong then 2 else 0) + if (s.drawer d).forced then 4 else 0 := by
    unfold Drawer.alertBits
    cases (s.drawer d).ceiling <;> cases (s.drawer d).openLong <;> cases (s.drawer d).forced <;> rfl
  unfold drawerData
  dsimp only
  rw [hstate, hphysical, halert, s.drawerCounts_eq]
  rfl

end State

theorem Entry.bytes_eq (e : Entry) : e.bytes = be 2 e.tag ++
    [toByte (match e.state with | .waitingOverride => 1 | .waitingCentre => 2 | .reversing => 3),
      if e.granted then 1 else 0, toByte e.req.pos] ++ be 2 e.req.teller ++
    [toByte e.req.snap.code, toByte e.req.snap.cls.code, if e.req.snap.auth = .central then 2 else 1,
      toByte e.req.cur] ++ be 6 e.req.amount ++ be 6 (e.req.equiv.getD 0) ++
    (match e.req.exch with
      | some x => be 5 x.rate ++ be 6 x.cash ++ beInt 6 x.residue
      | none => List.replicate 17 0) ++
    [toByte e.req.items.length] ++
    e.req.items.flatMap (fun x => [toByte x.drawer, toByte x.cur, toByte x.den] ++ be 2 x.count ++
      [if x.out then 1 else 2]) ++
    accountField e.req.account ++ [toByte e.claim] ++ be 2 (e.timer.getD 0) ++
    [toByte (match e.reason with | none => 0 | some .timeout => 1 | some .cancelled => 2 | some .restart => 3)] := by
  have hstate : ∀ x : EntryState, x.code =
      match x with | .waitingOverride => 1 | .waitingCentre => 2 | .reversing => 3 := by
    intro x
    cases x <;> rfl
  have hauth : toByte e.req.snap.auth.code = if e.req.snap.auth = .central then 2 else 1 := by
    cases e.req.snap.auth <;> rfl
  have hreason : (e.reason.map ExpiryReason.code).getD 0 =
      match e.reason with | none => 0 | some .timeout => 1 | some .cancelled => 2 | some .restart => 3 := by
    cases e.reason with
    | none => rfl
    | some r => cases r <;> rfl
  unfold Entry.bytes
  rw [hstate, hauth, hreason]
  rfl

end Sys2Proof.Machine

namespace Sys2Proof.Proofs

open Sys2Proof.Machine Sys2Proof.Machine.State

/-- Settles O10: each figure of the replies and reads against the layout that names it. -/
theorem dataOfReads : Obligations.DataOfReads := by
  unfold Obligations.DataOfReads
  refine ⟨fun s => ⟨rfl, s.summary_eq, s.drawerData_eq, fun n h1 => ⟨takeRecords_prefix _ _ _, takeRecords_length _ _ _,
    takeRecords_size _ _ _, fun r hr => takeRecords_stops 16 1009 _ r ?_⟩⟩, fun e => ⟨e.bytes_length, e.bytes_eq⟩,
    fun r => ⟨?_, r.bytes_length, ?_⟩⟩
  · rw [List.getElem?_drop]
    exact hr
  · obtain ⟨seq, clock, body⟩ := r
    cases body with
    | post b =>
      obtain ⟨pos, teller, drawer, code, mnemonic, cls, cur, amount, exch, tag, account, reqList, homeList⟩ := b
      cases exch <;> rfl
    | expired p t code cur a tag account reason => cases reason <;> rfl
    | signOff p t cause => cases cause <;> rfl
    | proof p t d result diffs => cases result <;> rfl
    | settlement figures last =>
      have hfigures : Figures.bytes = fun f : Figures => [f.opening, f.deposits, f.withdrawals, f.exchangeIn, f.exchangeOut,
          f.homeIn, f.homeOut, f.residue, f.deliveries, f.shipments, f.overShort, f.closing, f.records].flatMap (beInt 8) :=
        funext Figures.bytes_eq
      unfold Record.bytes Body.bytes
      rw [hfigures]
      rfl
    | _ => rfl
  · obtain ⟨seq, clock, body⟩ := r
    cases body with
    | post b =>
      show Body.size (.post b) = _
      unfold Body.size
      cases hx : b.exch with
      | none => simp [hx]
      | some x =>
        simp only [hx, Option.isSome_some, if_true]
        omega
    | _ => rfl

end Sys2Proof.Proofs
end

