-- ==== Sys2Proof/Proofs/Packing.lean ====
section
/-! Packing (R192): what the blocks of a journal are, as one predicate on a list of blocks, which the packer's run meets. -/

set_option Elab.async false

namespace Sys2Proof.Machine

/-- The sizes of records added up. -/
def sizeSum (records : List Record) : Nat := (records.map (·.size)).sum

/-- The records that count records from place i on name. -/
def recordsAt (records : List Record) (i count : Nat) : List Record := (records.drop i).take count

/-- Blocks that hold the records from place i on, in order and end to end, each within both limits and none that could take the
record after it. -/
def Packs (records : List Record) : Nat → List Block → Prop
  | i, [] => i = records.length
  | i, b :: rest =>
    (b.first = i + 1 ∧ 1 ≤ b.count ∧ b.count ≤ 32 ∧ sizeSum (recordsAt records i b.count) ≤ 1000 ∧
      ∀ r, records[i + b.count]? = some r → b.count = 32 ∨ 1000 < sizeSum (recordsAt records i b.count) + r.size) ∧
    i + b.count ≤ records.length ∧ Packs records (i + b.count) rest

theorem recordsAt_middle (front held rest : List Record) :
    recordsAt (front ++ held ++ rest) front.length held.length = held := by
  simp [recordsAt, List.append_assoc]

/-- The packer with a block begun: the records before it are packed, those it holds keep both limits. -/
theorem packFrom_packs (rest front held : List Record) (hlen : held.length ≤ 32) (hsize : sizeSum held ≤ 1000)
    (hrest : ∀ r ∈ rest, r.size ≤ 1000) :
    Packs (front ++ held ++ rest) front.length (packFrom rest (front.length + 1) held.length (sizeSum held)) := by
  induction rest generalizing front held with
  | nil =>
    unfold packFrom
    split
    · next h =>
      have : held = [] := List.eq_nil_of_length_eq_zero h
      simp [Packs, this]
    · next h =>
      have hheld := recordsAt_middle front held []
      refine ⟨⟨rfl, Nat.pos_of_ne_zero h, hlen, by rw [hheld]; exact hsize, fun r hr => ?_⟩, by simp, by simp [Packs]⟩
      simp at hr
  | cons r rest ih =>
    have hsplit : front ++ held ++ r :: rest = front ++ (held ++ [r]) ++ rest := by simp
    unfold packFrom
    split
    · next h =>
      have hr : r.size ≤ 1000 := hrest r List.mem_cons_self
      have hlen' : (held ++ [r]).length = held.length + 1 := by simp
      have hsize' : sizeSum (held ++ [r]) = sizeSum held + r.size := by simp [sizeSum]
      have hfits : held.length + 1 ≤ 32 ∧ sizeSum held + r.size ≤ 1000 := by
        rcases h with h | h
        · have hnil : held = [] := List.eq_nil_of_length_eq_zero h
          subst hnil
          simp [sizeSum, hr]
        · omega
      have hnext := ih front (held ++ [r]) (by omega) (by omega) fun x hx => hrest x (List.mem_cons_of_mem r hx)
      rw [hlen', hsize'] at hnext
      rw [hsplit]
      exact hnext
    · next h =>
      have hheld := recordsAt_middle front held (r :: rest)
      have hnext := ih (front ++ held) [r] (by simp) (by simpa [sizeSum] using hrest r List.mem_cons_self)
        fun x hx => hrest x (List.mem_cons_of_mem r hx)
      rw [List.length_append, show front ++ held ++ [r] ++ rest = front ++ held ++ r :: rest by simp] at hnext
      refine ⟨⟨rfl, Nat.pos_of_ne_zero fun h0 => h (Or.inl h0), hlen, by rw [hheld]; exact hsize, fun x hx => ?_⟩, by simp, ?_⟩
      · have hxr : r = x := by
          rw [← List.length_append, List.getElem?_append_right (Nat.le_refl _), Nat.sub_self] at hx
          simpa using hx
        subst hxr
        rw [hheld]
        show held.length = 32 ∨ 1000 < sizeSum held + r.size
        omega
      · have hfirst : front.length + 1 + held.length = front.length + held.length + 1 := by omega
        have hone : sizeSum [r] = r.size := by simp [sizeSum]
        rw [hone] at hnext
        rw [hfirst]
        exact hnext

theorem pack_packs {records : List Record} (h : ∀ r ∈ records, r.size ≤ 1000) : Packs records 0 (pack records) :=
  packFrom_packs records [] [] (by simp) (by simp [sizeSum]) h

/-- The records of packed blocks, one after the other. -/
theorem Packs.flatMap {records : List Record} {blocks : List Block} {i : Nat} (h : Packs records i blocks) :
    blocks.flatMap (fun b => (records.drop (b.first - 1)).take b.count) = records.drop i := by
  induction blocks generalizing i with
  | nil =>
    have hi : i = records.length := h
    simp [hi]
  | cons b rest ih =>
    obtain ⟨⟨hfirst, _⟩, hend, hrest⟩ := h
    rw [List.flatMap_cons, ih hrest, hfirst, Nat.add_sub_cancel, ← List.drop_drop, List.take_append_drop]

/-- Each block of a packed list, with where it begins. -/
theorem Packs.block {records : List Record} {blocks : List Block} {i k : Nat} {b : Block} (h : Packs records i blocks)
    (hb : blocks[k]? = some b) : ∃ j, j = i + ((blocks.take k).map (·.count)).sum ∧ b.first = j + 1 ∧ 1 ≤ b.count ∧
      b.count ≤ 32 ∧ sizeSum (recordsAt records j b.count) ≤ 1000 ∧
      ∀ r, records[j + b.count]? = some r → b.count = 32 ∨ 1000 < sizeSum (recordsAt records j b.count) + r.size := by
  induction blocks generalizing i k with
  | nil => simp at hb
  | cons c rest ih =>
    obtain ⟨hc, _, hrest⟩ := h
    cases k with
    | zero =>
      obtain rfl : c = b := by simpa using hb
      exact ⟨i, by simp, hc⟩
    | succ k =>
      obtain ⟨j, hj, hblock⟩ := ih hrest (by simpa using hb)
      refine ⟨j, ?_, hblock⟩
      rw [hj, List.take_succ_cons, List.map_cons, List.sum_cons]
      omega

end Sys2Proof.Machine

namespace Sys2Proof.Proofs

open Sys2Proof.Machine Sys2Proof.Machine.State

/-- Settles O19: the packer's run keeps the predicate Packs, from which each clause is read. -/
theorem packingRespectsLimits : Obligations.PackingRespectsLimits := by
  unfold Obligations.PackingRespectsLimits
  intro records h
  have hpacks := pack_packs h
  refine ⟨hpacks.flatMap, fun k b hb => ?_⟩
  obtain ⟨j, hj, hfirst, hblock⟩ := hpacks.block hb
  have hplace : b.first - 1 = j := by omega
  refine ⟨by omega, ?_⟩
  dsimp only
  rw [hplace]
  exact hblock

end Sys2Proof.Proofs
end

