-- ==== Sys2Proof/Proofs/DayEvents.lean ====
section
/-! The day's events while completion waits: opening, cutoff and reopening, the ack wait (R174, R180 to R189, R196, R197). -/

set_option Elab.async false

namespace Sys2Proof.Machine

namespace State

variable (s : State)

/-! ### A record and a notice with room in the upstream queue (R172, R180, R189) -/

/-- An append: the record, and the nearly-full alarm when it is due (R172, R180). -/
theorem append_eq (b : Body) : s.append b =
    { s with journal := s.withRecord b, port := s.portAfterRecord, counters := s.countersAfterRecord } := by
  have hwrite : s.writeRecord b = { s with journal := s.withRecord b } := rfl
  have hused : (s.writeRecord b).usedCount = Config.nearlyFull ↔ s.journal.records.length + 1 = 15360 := by
    simp [writeRecord, usedCount, Config.nearlyFull]
  unfold append
  dsimp only
  by_cases hdue : s.journal.records.length + 1 = 15360
  · rw [if_pos (hused.mpr hdue), alarm, offerNotice_eq, hwrite]
    by_cases hroom : s.port.queue.length < 64
    · simp only [portAfterRecord, countersAfterRecord, hdue, hroom, not_true_eq_false, and_self, and_false, if_true,
        if_false]
      rfl
    · simp only [portAfterRecord, countersAfterRecord, hdue, hroom, not_false_eq_true, and_self, and_false, if_true,
        if_false]
      rfl
  · rw [if_neg fun h => hdue (hused.mp h), hwrite]
    simp only [portAfterRecord, countersAfterRecord, hdue, false_and, if_false]

theorem countersAfterRecord_of_room (h : s.port.queue.length < 64) : s.countersAfterRecord = s.counters := by
  rw [countersAfterRecord, if_neg fun hn => hn.2 h]

theorem portAfterRecord_queue (h : s.port.queue.length < 64) : s.portAfterRecord.queue = s.port.queue ++ s.nearlyFullNotice := by
  unfold portAfterRecord nearlyFullNotice
  by_cases hdue : s.journal.records.length + 1 = 15360
  · rw [if_pos ⟨hdue, h⟩, if_pos hdue]
    rfl
  · rw [if_neg fun hn => hdue hn.1, if_neg hdue, List.append_nil]

theorem nearlyFullNotice_length : s.nearlyFullNotice.length ≤ 1 := by
  unfold nearlyFullNotice
  split <;> simp

/-- A frame queued behind the nearly-full alarm of a record. -/
theorem portAfterRecord_withFrame (h : s.port.queue.length < 64) (f : UpFrame) :
    { s.portAfterRecord with
      queue := s.portAfterRecord.queue ++ [f]
      transmitting := s.portAfterRecord.transmitting || s.portAfterRecord.olrdy } =
    { s.port with
      queue := s.port.queue ++ s.nearlyFullNotice ++ [f], transmitting := s.port.transmitting || s.port.olrdy } := by
  rw [s.portAfterRecord_queue h]
  unfold portAfterRecord
  split
  · simp [withFrame]
  · rfl

/-- A record, a new day state and its notice, with room for both frames. -/
theorem recordAndNotice_eq (b : Body) (x : DayState) (h : s.port.queue.length + 2 ≤ 64) :
    ((s.append b).setDayState x).dayNotice = { s with
      screens := (((s.append b).setDayState x).dayNotice).screens, day := { s.day with state := x }
      journal := s.withRecord b
      port := { s.port with
        queue := s.port.queue ++ s.nearlyFullNotice ++ [.day x s.day.date]
        transmitting := s.port.transmitting || s.port.olrdy } } := by
  have hfree : s.port.queue.length < 64 := by omega
  have hroom : (s.append b).port.queue.length < 64 := by
    have hone := s.nearlyFullNotice_length
    rw [append_eq]
    show s.portAfterRecord.queue.length < 64
    rw [s.portAfterRecord_queue hfree, List.length_append]
    omega
  have hnotice := setDayState_dayNotice_eq (s.append b) x
  rw [if_pos hroom, if_pos hroom] at hnotice
  have happend : s.append b = { s with journal := s.withRecord b, port := s.portAfterRecord } := by
    rw [append_eq, s.countersAfterRecord_of_room hfree]
  generalize hu : ((s.append b).setDayState x).dayNotice = u at hnotice ⊢
  rw [hnotice, happend, ← s.portAfterRecord_withFrame hfree]
  rfl

theorem recordAndNotice_onlyMarks (b : Body) (x : DayState) : OnlyMarks s ((s.append b).setDayState x).dayNotice :=
  (setDayState_dayNotice_onlyMarks (s.append b) x).congr (append_within s b .screens (by decide)).symm rfl

/-- The completion test looks at the entries, the drawers and the currencies alone (R190). -/
theorem canComplete_congr {s t : State} (he : t.entries = s.entries) (hd : t.drawers = s.drawers) (ht : t.tables = s.tables) :
    t.canComplete = s.canComplete := by
  unfold canComplete pendingCount exempt bookValue
  simp only [he, ht, drawer_congr hd]

/-- The completion test after a record, a new day state and its notice is the one before. -/
theorem recordAndNotice_canComplete (b : Body) (x : DayState) :
    (((s.append b).setDayState x).dayNotice).canComplete = s.canComplete := by
  have hnotice := setDayState_dayNotice_eq (s.append b) x
  have happend := append_within s b
  exact canComplete_congr ((congrArg State.entries hnotice).trans (happend .entries (by decide)))
    ((congrArg State.drawers hnotice).trans (happend .drawers (by decide)))
    ((congrArg State.tables hnotice).trans (happend .tables (by decide)))

/-- A cutoff whose test fails goes no further. -/
theorem takeCutoff_of_waiting {p t : Option Nat} (h : s.canComplete = false) :
    s.takeCutoff p t = ((s.append (.cutoff p t)).setDayState .cutoff).dayNotice := by
  unfold takeCutoff testCompletion
  rw [if_neg]
  rintro ⟨_, hc⟩
  rw [s.recordAndNotice_canComplete, h] at hc
  cases hc

/-- A copy of the state in which only a message's acknowledgment and a role have been entered: the day is the same. -/
theorem acceptedRole_day {p seq : Nat} {b : State} (hb : b = (s.accepted p 0 seq).copyRole p) :
    b.port = s.port ∧ b.day = s.day ∧ b.journal = s.journal ∧ b.canComplete = s.canComplete := by
  have hrole := copyRole_within (s.accepted p 0 seq) p
  subst hb
  exact ⟨hrole .port (by decide), hrole .day (by decide), hrole .journal (by decide),
    canComplete_congr (hrole .entries (by decide)) (hrole .drawers (by decide)) (hrole .tables (by decide))⟩

theorem takeClose_of_supervisor {p : Nat} {b : State} (hb : b = s.copyRole p) (hrole : b.supervisor p = true) :
    s.takeClose p = if b.day.state ≠ .opened then b.showAt p .dayClosed else b.takeCutoff (some p) (b.session p).teller := by
  subst hb
  simp [takeClose, hrole]

theorem takeClose_of_teller {p : Nat} {b : State} (hb : b = s.copyRole p) (hrole : b.supervisor p = false) :
    s.takeClose p = b.showAt p .role := by
  subst hb
  simp [takeClose, hrole]

/-! ### OPEN DAY (R125, R181, R185) -/

/-- A drawer carried forward: its opening values are its book values, its state and alerts start afresh (R125). -/
def carried (t : Tables) (x : Drawer) : Drawer :=
  { x with
    opening := #v[valueOf (t.faces 0) (countsOf x.book 0), valueOf (t.faces 1) (countsOf x.book 1),
      valueOf (t.faces 2) (countsOf x.book 2), valueOf (t.faces 3) (countsOf x.book 3)]
    state := .active, recount := 0, openings := 0, postedToday := false, ceiling := false, openLong := false
    forced := false }

theorem carryDrawer_drawer (d e : Nat) :
    (s.carryDrawer d).drawer e = (s.setDrawer d (carried s.tables (s.drawer d))).drawer e := by
  have hreport : ∀ t : State, ((if (s.drawer d).state = .active then t else t.drawerStateReport d).alertReport d).drawer e =
      t.drawer e := by
    intro t
    have hstate : (if (s.drawer d).state = .active then t else t.drawerStateReport d).drawer e = t.drawer e := by
      split
      · rfl
      · exact drawer_congr (drawerStateReport_within t d .drawers (by decide)) e
    rw [← hstate]
    exact drawer_congr (alertReport_within _ d .drawers (by decide)) e
  exact hreport _

theorem carryDrawers_drawer {d : Nat} (hd : d ≤ 24) : s.carryDrawers.drawer d = carried s.tables (s.drawer d) := by
  have hother : ∀ (t : State) (i j : Nat), i ≠ j → (t.carryDrawer i).drawer j = t.drawer j := by
    intro t i j hij
    rw [t.carryDrawer_drawer, drawer_setDrawer, if_neg fun hn => hij hn.1]
  have hsame : ∀ (t : State), ∀ i ∈ allDrawers, (t.carryDrawer i).drawer i = carried t.tables (t.drawer i) := by
    intro t i hi
    have hbound : i < 25 := by
      have := mem_allDrawers.mp hi
      omega
    rw [t.carryDrawer_drawer, drawer_setDrawer, if_pos ⟨rfl, hbound⟩]
  have hrun := foldl_places drawer carryDrawer (fun t _ x => carried t.tables x) hother
    (fun t i j x => by rw [carryDrawer_within t i .tables (by decide)]) hsame allDrawers_nodup s d
  rw [if_pos (mem_allDrawers.mpr hd)] at hrun
  exact hrun

/-- OPEN DAY up to its drawers: the journal with its OPEN record, the day record afresh (R181, R185). -/
def dayOpened (s : State) (date : Text) : State :=
  { s with
    journal := { records := [{ seq := 1, clock := 0, body := .opened date }], claims := s.journal.claims, closed := false }
    day := { s.day with
      date := some date, clock := 0, running := true, phase := 0, settlement := List.replicate 4 Figures.zero
      lastSeq := 0, blocks := [], acked := 0, sent := 0, highest := 0, expiries := 0, ackTimer := none } }

theorem openJournal_eq (t : State) (date : Text) : t.openJournal date = { t with journal :=
    { records := [{ seq := 1, clock := t.day.clock, body := .opened date }], claims := t.journal.claims, closed := false } } := by
  have hundue : ¬ ([] : List Record).length + 1 = 15360 := by simp
  have hport : ∀ u : State, u.journal.records = [] → u.portAfterRecord = u.port := by
    intro u hu
    rw [portAfterRecord, hu, if_neg fun h => hundue h.1]
  have hcounters : ∀ u : State, u.journal.records = [] → u.countersAfterRecord = u.counters := by
    intro u hu
    rw [countersAfterRecord, hu, if_neg fun h => hundue h.1]
  unfold openJournal
  rw [append_eq, hport _ rfl, hcounters _ rfl]
  rfl

theorem openDay_eq (date : Text) : s.openDay date = ((s.dayOpened date).carryDrawers.setDayState .opened).dayNotice := by
  unfold openDay
  dsimp only
  rw [openJournal_eq]
  have hday : ∀ t u : State, t = u → (t.carryDrawers.setDayState .opened).dayNotice = (u.carryDrawers.setDayState .opened).dayNotice :=
    fun t u h => h ▸ rfl
  exact hday _ _ rfl

theorem openDay_drawer (date : Text) {d : Nat} (hd : d ≤ 24) :
    (s.openDay date).drawer d = carried s.tables (s.drawer d) := by
  have hnotice : (s.openDay date).drawers = (s.dayOpened date).carryDrawers.drawers := by
    have h := congrArg State.drawers (setDayState_dayNotice_eq (s.dayOpened date).carryDrawers .opened)
    dsimp only at h
    rw [openDay_eq, h]
  exact (drawer_congr hnotice d).trans ((s.dayOpened date).carryDrawers_drawer hd)

theorem openDay_state (date : Text) (h : s.port.queue.length < 64) : s.openDay date = { s with
    port := (s.withFrame (.day .opened (some date))).port
    drawers := (s.openDay date).drawers, screens := (s.openDay date).screens
    journal := { records := [{ seq := 1, clock := 0, body := .opened date }], claims := s.journal.claims, closed := false }
    day := { state := .opened, date := some date, clock := 0, running := true, phase := 0,
             settlement := List.replicate 4 Figures.zero, lastSeq := 0, blocks := [], acked := 0, sent := 0,
             highest := 0, expiries := 0, ackTimer := none } } := by
  obtain ⟨drawers, screens, hcarried⟩ : ∃ drawers screens, (s.dayOpened date).carryDrawers =
      { s.dayOpened date with drawers := drawers, screens := screens } :=
    ⟨_, _, (carryDrawers_within (s.dayOpened date)).eq_merge⟩
  have hnotice := setDayState_dayNotice_eq (s.dayOpened date).carryDrawers .opened
  rw [hcarried] at hnotice
  rw [openDay_eq, hcarried]
  generalize (setDayState _ .opened).dayNotice = u at hnotice ⊢
  have hroom : (s.dayOpened date).port.queue.length < 64 := h
  rw [if_pos hroom, if_pos hroom] at hnotice
  rw [hnotice]
  rfl

/-! ### The ack wait (R196, R197) -/

theorem ackWaitExpires_of_few (hstate : s.day.state = .sending) (htimer : s.day.ackTimer ≠ none)
    (hfew : s.day.expiries < 7) : s.ackWaitExpires = ({ s with day := { s.day with
      expiries := s.day.expiries + 1, sent := s.day.acked
      ackTimer := some s.tables.params.batchAck } } : State).windowTested := by
  have hrun : s.day.state = .sending ∧ s.day.ackTimer.isSome = true :=
    ⟨hstate, Option.isSome_iff_ne_none.mpr htimer⟩
  have hbelow : s.day.expiries + 1 < Config.heldAfter := by
    show s.day.expiries + 1 < 8
    omega
  unfold ackWaitExpires
  rw [if_pos hrun]
  dsimp only
  rw [if_pos hbelow, testWindow_eq_windowTested]
  rfl

/-- The eighth expiry: the batch is HELD before its alarm is offered (R196). -/
theorem ackWaitExpires_of_eighth (hstate : s.day.state = .sending) (htimer : s.day.ackTimer ≠ none)
    (heighth : s.day.expiries = 7) : s.ackWaitExpires =
      (({ s with day := { s.day with expiries := 8, sent := s.day.acked, ackTimer := none } } : State).setDayState
        .held).alarm .batchHeld 0 := by
  have hrun : s.day.state = .sending ∧ s.day.ackTimer.isSome = true :=
    ⟨hstate, Option.isSome_iff_ne_none.mpr htimer⟩
  have hreached : ¬ s.day.expiries + 1 < Config.heldAfter := by
    show ¬ s.day.expiries + 1 < 8
    omega
  unfold ackWaitExpires
  rw [if_pos hrun]
  dsimp only
  rw [if_neg hreached, heighth]
  rfl

/-- The window tested queues four blocks at most. -/
theorem windowTested_queue_length : s.windowTested.port.queue.length ≤ s.port.queue.length + 4 := by
  have hroom := s.windowRoom_le
  unfold windowTested
  dsimp only
  split
  · omega
  · simp only [List.length_append, List.length_map, List.length_range']
    omega

/-- RESUME BATCH up to the window: the day SENDING again, with its notice (R197). -/
def batchResumed (s : State) : State :=
  ((({ s with day := { s.day with expiries := 0, sent := s.day.acked } } : State).setDayState .sending).dayNotice)

theorem resumeBatch_eq : s.resumeBatch = s.batchResumed.windowTested := by
  rw [← testWindow_eq_windowTested]
  rfl

theorem batchResumed_onlyMarks : OnlyMarks s s.batchResumed :=
  setDayState_dayNotice_onlyMarks ({ s with day := { s.day with expiries := 0, sent := s.day.acked } } : State) .sending

theorem batchResumed_eq (h : s.port.queue.length < 64) : s.batchResumed =
    { s with port := (s.withFrame (.day .sending s.day.date)).port, screens := s.batchResumed.screens
             day := { s.day with state := .sending, expiries := 0, sent := s.day.acked } } := by
  have hnotice := setDayState_dayNotice_eq
    ({ s with day := { s.day with expiries := 0, sent := s.day.acked } } : State) .sending
  rw [if_pos h, if_pos h] at hnotice
  exact hnotice

end State

end Sys2Proof.Machine

namespace Sys2Proof.Proofs

open Sys2Proof.Machine Sys2Proof.Machine.State

/-- Settles O16: the day record afresh, the drawers carried forward one by one, and the notice before the reply. -/
theorem openDay : Obligations.OpenDay := by
  unfold Obligations.OpenDay
  intro s tag date hroom hsize hlock hstate hdate
  have hfree : s.port.queue.length < 64 := by omega
  refine ⟨s.openDay date, ?_, s.openDay_state date hfree, fun d hd => s.openDay_drawer date hd⟩
  have hcheck : (!s.live || (s.day.state != .noDay && s.day.state != .sent)) = false := by
    rcases hstate with h | h <;> simp [live, hlock, h]
  have hverdict : s.mgmtOpenDay date = (s.openDay date, .done []) := by
    rw [mgmtOpenDay, hcheck, hdate]
    rfl
  have hanswer : s.mgmtOpen tag date = (s.openDay date).reply 0x06 tag (.done []) := by
    rw [mgmtOpen, answerDo_of_size s hsize, hverdict]
  have hafter : (s.openDay date).port.queue.length < 64 := by
    have hlen : (s.openDay date).port.queue.length = s.port.queue.length + 1 := by
      rw [s.openDay_state date hfree]
      simp [withFrame]
    omega
  exact congrArg Host.Outcome.next (hanswer.trans (reply_done hafter 0x06 tag []))

/-- Settles O17: a record and a notice with room for both, where the completion test fails. -/
theorem cutoffCloseAndReopen : Obligations.CutoffCloseAndReopen := by
  unfold Obligations.CutoffCloseAndReopen
  intro s tag hroom
  have hone := s.nearlyFullNotice_length
  have hrecorded : ∀ b x, ((s.append b).setDayState x).dayNotice.port.queue.length < 64 := by
    intro b x
    rw [s.recordAndNotice_eq b x (by omega)]
    simp only [List.length_append, List.length_cons, List.length_nil]
    omega
  refine ⟨fun b p seq hawaits h1 h24 hb => ?_, fun hopen hwait => ?_, fun hcutoff hspace hclosed => ?_⟩
  · obtain ⟨hport, hday, hjournal, hcomplete⟩ := s.acceptedRole_day hb
    have htaken : exec (.close p seq) s = .next ((s.accepted p 0 seq).takeClose p) :=
      congrArg Host.Outcome.next (receive_of_awaits hawaits .close)
    refine ⟨fun hrole => ?_, fun hrole hshut => ?_, fun hrole hopen hwait => ?_⟩
    · exact shown_at_sender b (htaken.trans (by rw [takeClose_of_teller _ hb hrole])) ⟨h1, h24⟩
    · refine shown_at_sender b (htaken.trans ?_) ⟨h1, h24⟩
      rw [takeClose_of_supervisor _ hb hrole, hday, if_pos hshut]
    · have hteller : (b.session p).teller = (s.session p).teller := by
        rw [hb, copyRole_teller _ ⟨h1, h24⟩]
        rfl
      have hcut : (s.accepted p 0 seq).takeClose p =
          ((b.append (.cutoff (some p) (s.session p).teller)).setDayState .cutoff).dayNotice := by
        rw [takeClose_of_supervisor _ hb hrole, hday, if_neg (not_not_intro hopen), hteller,
          b.takeCutoff_of_waiting (hcomplete.trans hwait)]
      have hrecord := b.recordAndNotice_eq (.cutoff (some p) (s.session p).teller) .cutoff (by rw [hport]; omega)
      refine ⟨_, htaken.trans (congrArg Host.Outcome.next hcut), b.recordAndNotice_onlyMarks _ _, hrecord.trans ?_⟩
      rw [withRecord_congr hjournal hday, hport, hday, nearlyFullNotice, hjournal]
      rfl
  · have hverdict : s.mgmtCutoff = (((s.append (.cutoff none none)).setDayState .cutoff).dayNotice, .done []) := by
      rw [mgmtCutoff, if_pos hopen, s.takeCutoff_of_waiting hwait]
    have hanswer : s.mgmtCut tag [] = (((s.append (.cutoff none none)).setDayState .cutoff).dayNotice).reply 0x07 tag (.done []) := by
      rw [mgmtCut, hverdict]
      rfl
    exact ⟨_, congrArg Host.Outcome.next (hanswer.trans (reply_done (hrecorded _ _) 0x07 tag [])),
      s.recordAndNotice_onlyMarks _ _, s.recordAndNotice_eq _ _ (by omega)⟩
  · have hgeneral : s.generalRoom = true := by simp [generalRoom, hclosed, hspace]
    have hverdict : s.mgmtReopenDay = (((s.append .reopenDay).setDayState .opened).dayNotice, .done []) := by
      rw [mgmtReopenDay, if_pos ⟨hcutoff, hgeneral⟩]
      rfl
    have hanswer : s.mgmtReopen tag [] = (((s.append .reopenDay).setDayState .opened).dayNotice).reply 0x08 tag (.done []) := by
      rw [mgmtReopen, hverdict]
      rfl
    exact ⟨_, congrArg Host.Outcome.next (hanswer.trans (reply_done (hrecorded _ _) 0x08 tag [])),
      s.recordAndNotice_onlyMarks _ _, s.recordAndNotice_eq _ _ (by omega)⟩

/-- Settles O21: the expiry by its number, and RESUME BATCH, whose notice and blocks leave a slot for the reply. -/
theorem ackWaitExpiryAndResume : Obligations.AckWaitExpiryAndResume := by
  unfold Obligations.AckWaitExpiryAndResume
  refine fun s => ⟨fun hstate htimer hfew => ?_, fun hstate htimer heighth hroom => ?_, fun tag hstate hroom => ?_⟩
  · exact congrArg Host.Outcome.next (s.ackWaitExpires_of_few hstate htimer hfew)
  · let t : State := { s with day := { s.day with expiries := 8, sent := s.day.acked, ackTimer := none } }
    obtain ⟨screens, hset⟩ : ∃ screens, t.setDayState .held =
        { t with day := { t.day with state := .held }, screens := screens } := ⟨_, t.setDayState_eq .held⟩
    have hmarks : OnlyMarks s (t.setDayState .held) := (t.setDayState_onlyMarks .held).congr rfl rfl
    refine ⟨(t.setDayState .held).alarm .batchHeld 0,
      congrArg Host.Outcome.next (s.ackWaitExpires_of_eighth hstate htimer heighth),
      hmarks.congr rfl (alarm_within _ _ _ .screens (by decide)), ?_⟩
    have hfree : (t.setDayState .held).port.queue.length < 64 := by
      rw [hset]
      exact hroom
    rw [alarm, offerNotice_eq, if_pos hfree, if_pos hfree, hset]
    rfl
  · have hfree : s.port.queue.length < 64 := by omega
    have hmarks : OnlyMarks s s.batchResumed := s.batchResumed_onlyMarks
    refine ⟨s.batchResumed, s.batchResumed.windowTested, hmarks, s.batchResumed_eq hfree, rfl, ?_⟩
    have hverdict : s.mgmtResumeBatch = (s.batchResumed.windowTested, .done []) := by
      rw [mgmtResumeBatch, if_pos hstate, resumeBatch_eq]
    have hanswer : s.mgmtResume tag [] = s.batchResumed.windowTested.reply 0x09 tag (.done []) := by
      rw [mgmtResume, hverdict, answerDo_of_size s (bs := []) (size := 0) rfl]
    have hafter : s.batchResumed.windowTested.port.queue.length < 64 := by
      have hblocks := s.batchResumed.windowTested_queue_length
      have hqueue : s.batchResumed.port.queue.length = s.port.queue.length + 1 := by
        rw [s.batchResumed_eq hfree]
        simp [withFrame]
      omega
    have hreplied := hanswer.trans (reply_done hafter 0x09 tag [])
    exact congrArg Host.Outcome.next hreplied

end Sys2Proof.Proofs
end

