-- ==== Sys2Proof/Proofs/ScreenMarks.lean ====
section
/-! What an event leaves of a screen: the rows it marks join the dirty set, and form, view and last outcome may all be kept
(R130, R141 to R144). -/

set_option Elab.async false

namespace Sys2Proof.Machine

/-! ### One screen -/

/-- Screen y shows what x showed, and every row that was dirty in x is dirty in y. -/
structure Screen.Keeps (x y : Screen) : Prop where
  form : y.form = x.form
  view : y.view = x.view
  last : y.last = x.last
  dirty : ∀ r, 1 ≤ r → r ≤ 24 → r ∈ x.dirty → r ∈ y.dirty

namespace Screen

variable {t : Tables} {x y z : Screen}

theorem Keeps.refl (x : Screen) : x.Keeps x := ⟨rfl, rfl, rfl, fun _ _ _ h => h⟩

theorem Keeps.trans (h : x.Keeps y) (g : y.Keeps z) : x.Keeps z :=
  ⟨g.form.trans h.form, g.view.trans h.view, g.last.trans h.last,
    fun r h1 h24 hr => g.dirty r h1 h24 (h.dirty r h1 h24 hr)⟩

theorem keeps_addDirty (more : Nat → Bool) : x.Keeps (x.addDirty more) := by
  refine ⟨rfl, rfl, rfl, fun r h1 h24 hr => List.mem_filter.mpr ⟨List.mem_range'_1.mpr ⟨h1, by omega⟩, ?_⟩⟩
  simp [hr]

theorem mem_mark {touched : Source → Bool} {r : Nat} : r ∈ (x.mark t touched).dirty ↔
    1 ≤ r ∧ r ≤ 24 ∧ (r ∈ x.dirty ∨ x.holds t touched r = true) := by
  unfold mark addDirty
  have hrow : r < 1 + 24 ↔ r ≤ 24 := by omega
  simp only [List.mem_filter, allRows, List.mem_range'_1, Bool.or_eq_true, List.contains_iff_mem, hrow, and_assoc]

theorem keeps_settle (t : Tables) : x.Keeps (x.settle t) := by
  rw [settle_eq]
  exact ⟨rfl, rfl, rfl, fun _ _ _ h => h⟩

/-- Which set a row is drawn from does not depend on its marks. -/
theorem holds_congr {touched : Source → Bool} {r : Nat} (hf : y.form = x.form) (ha : y.alert = x.alert)
    (ho : y.override = x.override) : y.holds t touched r = x.holds t touched r := by
  unfold holds fieldsOf
  rw [hf, ha, ho]

/-- A change of the conditions keeps what the screen shows and sets both conditions (R135, R142). -/
theorem keeps_setConditions (t : Tables) (a o : Bool) : x.Keeps (x.setConditions t a o) := by
  have hnext : x.Keeps { x with alert := a, override := o } := ⟨rfl, rfl, rfl, fun _ _ _ h => h⟩
  unfold setConditions
  split
  · exact .refl x
  · split
    · exact hnext.trans (keeps_settle t)
    · exact (hnext.trans (keeps_addDirty _)).trans (keeps_settle t)

theorem setConditions_override (t : Tables) (a o : Bool) : (x.setConditions t a o).override = o := by
  unfold setConditions
  split
  · next h => exact h.2
  · split
    · rw [settle_eq]
    · rw [settle_eq]
      rfl

theorem setConditions_alert (t : Tables) (a o : Bool) : (x.setConditions t a o).alert = a := by
  unfold setConditions
  split
  · next h => exact h.1
  · split
    · rw [settle_eq]
    · rw [settle_eq]
      rfl

end Screen

/-! ### The screens of the part -/

/-- Every screen of t shows what it showed in s, with its dirty rows still dirty. -/
def ScreensKeep (s t : State) : Prop := ∀ p, (s.screen p).Keeps (t.screen p)

theorem ScreensKeep.refl (s : State) : ScreensKeep s s := fun _ => .refl _

theorem ScreensKeep.trans {s t u : State} (h : ScreensKeep s t) (g : ScreensKeep t u) : ScreensKeep s u :=
  fun p => (h p).trans (g p)

theorem ScreensKeep.congr {s s' t t' : State} (h : ScreensKeep s t) (hs : s'.screens = s.screens)
    (ht : t'.screens = t.screens) : ScreensKeep s' t' := by
  intro p
  rw [State.screen_congr hs, State.screen_congr ht]
  exact h p

theorem OnlyMarks.keeps {s t : State} (h : OnlyMarks s t) : ScreensKeep s t := by
  intro p
  obtain ⟨hscreen, hdirty⟩ := h p
  exact ⟨by rw [hscreen], by rw [hscreen], by rw [hscreen], hdirty⟩

namespace State

variable (s : State)

/-- A change made on the screen of each position of a list: each listed screen is changed once, and the others stay. -/
theorem onScreens_screen {ps : List Nat} (hps : ps.Nodup) (hin : ∀ p ∈ ps, 1 ≤ p ∧ p ≤ 24)
    (f : Tables → Screen → Screen) (p : Nat) :
    (s.onScreens ps f).screen p = if p ∈ ps then f s.tables (s.screen p) else s.screen p :=
  foldl_places (fun t q => t.screen q) (fun t q => t.onScreen q f) (fun t _ x => f t.tables x)
    (fun t _ _ hij => screen_onScreen_other t (Ne.symm hij) f) (fun _ _ _ _ => rfl)
    (fun t q hq => screen_onScreen_same t (hin q hq) f) hps s p

theorem touch_screen {ps : List Nat} (hps : ps.Nodup) (hin : ∀ p ∈ ps, 1 ≤ p ∧ p ≤ 24) (touched : Source → Bool)
    (p : Nat) : (s.touch ps touched).screen p = if p ∈ ps then (s.screen p).mark s.tables touched else s.screen p :=
  s.onScreens_screen hps hin _ p

theorem touchAll_screen (touched : Source → Bool) {p : Nat} (hp : 1 ≤ p ∧ p ≤ 24) :
    (s.touch allPositions touched).screen p = (s.screen p).mark s.tables touched := by
  rw [s.touch_screen allPositions_nodup (fun q hq => mem_allPositions.mp hq), if_pos (mem_allPositions.mpr hp)]

/-- A new day state marks the rows that show the day state or the business date (R141, R184). -/
theorem setDayState_screen (x : DayState) {p : Nat} (hp : 1 ≤ p ∧ p ≤ 24) : (s.setDayState x).screen p =
    (s.screen p).mark s.tables (fun y => y == .dayState || y == .businessDate) := by
  rw [setDayState, dayReport, touchAll_screen _ _ hp]
  rfl

theorem sessionReport_keeps (p : Nat) : ScreensKeep s (s.sessionReport p) := by
  have hconditions : ScreensKeep s (s.reevaluate p) := by
    intro q
    unfold reevaluate onScreen
    rw [screen_setScreen]
    split
    · next h =>
      obtain ⟨rfl, _⟩ := h
      exact Screen.keeps_setConditions ..
    · exact .refl _
  exact hconditions.trans (touch_onlyMarks _ _ _).keeps

theorem setSession_keeps (p : Nat) (x : Session) : ScreensKeep s (s.setSession p x) := by
  unfold setSession
  split
  · exact .refl s
  · exact (sessionReport_keeps (s.withSessions (wr1 s.sessions p x)) p).congr rfl rfl

theorem screen_sessionReport_other {p q : Nat} (h : q ≠ p) : (s.sessionReport p).screen q = s.screen q := by
  unfold sessionReport touch onScreens reevaluate
  rw [List.foldl_cons, List.foldl_nil, screen_onScreen_other _ h, screen_onScreen_other _ h]

/-- A change of one position's session is passed to its own screen alone (R51). -/
theorem screen_setSession_other {p q : Nat} (h : q ≠ p) (x : Session) : (s.setSession p x).screen q = s.screen q := by
  unfold setSession
  split
  · rfl
  · rw [screen_sessionReport_other _ h]
    rfl

/-- Once a session has changed, the OVERRIDE condition is that of the new session (R51, R135). -/
theorem override_setSession {p : Nat} (hp : 1 ≤ p ∧ p ≤ 24) {x : Session} (h : s.session p ≠ x) :
    ((s.setSession p x).screen p).override = (x.state == .signedOn && x.role == some .supervisor && !s.overrides.isEmpty) := by
  have hsession : (s.withSessions (wr1 s.sessions p x)).session p = x := by
    rw [session_withSessions, if_pos ⟨rfl, hp⟩]
  unfold setSession
  rw [if_neg h]
  generalize hw : s.withSessions (wr1 s.sessions p x) = w at hsession
  have hnow : w.overrideNow p = (x.state == .signedOn && x.role == some .supervisor && !s.overrides.isEmpty) := by
    rw [overrideNow, supervisor, hsession, ← hw]
    rfl
  have hmark : ((w.sessionReport p).screen p).override = ((w.reevaluate p).screen p).override := by
    obtain ⟨hscreen, _⟩ := (w.reevaluate p).touch_onlyMarks [p] (fun x => x == .tellerId || overrideSource x) p
    rw [sessionReport, hscreen]
  rw [hmark, reevaluate, screen_onScreen_same w hp, Screen.setConditions_override, hnow]

end State

end Sys2Proof.Machine
end

