-- ==== Sys2Proof/Proofs/Completion.lean ====
section
/-! Completion: its test, its closing records with the nearly-full alarm where one is due, the settlement, and the start of
the batch (R178, R180, R190 to R193). -/

set_option Elab.async false

namespace Sys2Proof.Machine

/-! ### Records written in one event (R172, R178, R180) -/

/-- Bodies as the records that follow n records at a clock. -/
def recordsFrom (n clock : Nat) (bodies : List Body) : List Record :=
  bodies.mapIdx fun i b => { seq := n + 1 + i, clock := clock, body := b }

@[simp] theorem recordsFrom_length (n clock : Nat) (bodies : List Body) :
    (recordsFrom n clock bodies).length = bodies.length := List.length_mapIdx

@[simp] theorem recordsFrom_bodies (n clock : Nat) (bodies : List Body) :
    (recordsFrom n clock bodies).map (·.body) = bodies := by
  exact List.ext_getElem (by simp) fun i _ _ => by simp [recordsFrom]

theorem recordsFrom_append (n clock : Nat) (a b : List Body) :
    recordsFrom n clock (a ++ b) = recordsFrom n clock a ++ recordsFrom (n + a.length) clock b := by
  unfold recordsFrom
  rw [List.mapIdx_append]
  refine congrArg _ (List.ext_getElem (by simp) fun i _ _ => ?_)
  simp only [List.getElem_mapIdx, Record.mk.injEq, and_true]
  omega

theorem getElem_recordsFrom {n clock i : Nat} {bodies : List Body} {r : Record}
    (h : (recordsFrom n clock bodies)[i]? = some r) : r.seq = n + 1 + i ∧ r.clock = clock := by
  simp only [recordsFrom, List.getElem?_mapIdx, Option.map_eq_some_iff] at h
  obtain ⟨b, -, rfl⟩ := h
  exact ⟨rfl, rfl⟩

/-- The notice that k records appended after n bring: the alarm when one of them is the 15,360th (R180). -/
def crossing (n k : Nat) : List UpFrame := if n < 15360 ∧ 15360 ≤ n + k then [.alarm .journalNearlyFull 0] else []

theorem crossing_length (n k : Nat) : (crossing n k).length ≤ 1 := by
  unfold crossing
  split <;> simp

theorem crossing_zero (n : Nat) : crossing n 0 = [] := if_neg (by omega)

theorem crossing_succ (n k : Nat) : crossing n (k + 1) = crossing n k ++ crossing (n + k) 1 := by
  unfold crossing
  by_cases hbefore : n < 15360 ∧ 15360 ≤ n + k
  · rw [if_pos (by omega), if_pos hbefore, if_neg (by omega)]
    rfl
  · by_cases hlast : n + k < 15360 ∧ 15360 ≤ n + k + 1
    · rw [if_pos (by omega), if_neg hbefore, if_pos hlast]
      rfl
    · rw [if_neg (by omega), if_neg hbefore, if_neg hlast]
      rfl

namespace State

variable {s t : State}

/-- While a frame is queued the link transmits if it may: a frame more leaves the flag as it is (R5). -/
def LinkRuns (s : State) : Prop := s.port.transmitting = (s.port.transmitting || s.port.olrdy)

/-- The records of the bodies stand behind those of s, and the notice that they bring is queued. -/
structure Wrote (s t : State) (bodies : List Body) : Prop where
  journal : t.journal = { s.journal with
    records := s.journal.records ++ recordsFrom s.journal.records.length s.day.clock bodies }
  port : t.port = { s.port with queue := s.port.queue ++ crossing s.journal.records.length bodies.length }
  day : t.day = s.day
  counters : t.counters = s.counters

theorem Wrote.refl (s : State) : Wrote s s [] := by
  refine ⟨?_, ?_, rfl, rfl⟩
  · simp [recordsFrom]
  · simp [crossing_zero]

theorem Wrote.congr {t' : State} {bodies : List Body} (h : Wrote s t bodies) (hj : t'.journal = t.journal)
    (hp : t'.port = t.port) (hd : t'.day = t.day) (hc : t'.counters = t.counters) : Wrote s t' bodies :=
  ⟨hj.trans h.journal, hp.trans h.port, hd.trans h.day, hc.trans h.counters⟩

theorem Wrote.append {bodies : List Body} (h : Wrote s t bodies) (hruns : s.LinkRuns)
    (hroom : s.port.queue.length + 1 < 64) (b : Body) : Wrote s (t.append b) (bodies ++ [b]) := by
  have hused : t.journal.records.length = s.journal.records.length + bodies.length := by
    rw [h.journal]
    simp
  have hfree : t.port.queue.length < 64 := by
    have := crossing_length s.journal.records.length bodies.length
    rw [h.port]
    simp only [List.length_append]
    omega
  rw [append_eq]
  refine ⟨?_, ?_, h.day, ?_⟩
  · show t.withRecord b = _
    rw [withRecord, hused, h.journal, h.day, recordsFrom_append]
    simp [recordsFrom, Nat.add_assoc]
  · show t.portAfterRecord = _
    have hdue : t.journal.records.length + 1 = 15360 ↔
        t.journal.records.length < 15360 ∧ 15360 ≤ t.journal.records.length + 1 := by omega
    rw [List.length_append, List.length_singleton, crossing_succ, ← hused, portAfterRecord]
    unfold crossing
    by_cases hlast : t.journal.records.length + 1 = 15360
    · rw [if_pos ⟨hlast, hfree⟩, if_pos (hdue.mp hlast)]
      rw [withFrame, h.port]
      have := hruns.symm
      simp [this, crossing]
    · rw [if_neg fun hn => hlast hn.1, if_neg fun hn => hlast (hdue.mpr hn), h.port]
      simp [crossing]
  · exact (countersAfterRecord_of_room t hfree).trans h.counters

/-! ### The sessions end (R56, R191) -/

/-- The SIGN_OFF records of the closing: one for each open session among the positions given, in their order. -/
def closingBodies (s : State) (ps : List Nat) : List Body :=
  (ps.filter fun p => (s.session p).state != .signedOff).map fun p => .signOff p ((s.session p).teller.getD 0) .closing

theorem endSession_of_off {p : Nat} (h : (s.session p).state = .signedOff) : s.endSession p = s := if_pos h

theorem endSession_of_on {p : Nat} (h : (s.session p).state ≠ .signedOff) : s.endSession p =
    (s.setSession p Session.off).append (.signOff p ((s.session p).teller.getD 0) .closing) := if_neg h

theorem session_setSession_other {p q : Nat} (h : p ≠ q) (x : Session) : (s.setSession p x).session q = s.session q := by
  unfold setSession
  split
  · rfl
  · exact (session_congr (sessionReport_within _ _ .sessions (by decide)) q).trans
      ((session_withSessions ..).trans (if_neg fun hc => h hc.1))

theorem session_append (b : Body) (q : Nat) : (s.append b).session q = s.session q :=
  session_congr (append_within s b .sessions (by decide)) q

theorem session_endSession_other {p q : Nat} (h : p ≠ q) : (s.endSession p).session q = s.session q := by
  by_cases hoff : (s.session p).state = .signedOff
  · rw [endSession_of_off hoff]
  · rw [endSession_of_on hoff, session_append, session_setSession_other h]

theorem session_endSession_same {p : Nat} (hp : 1 ≤ p ∧ p ≤ 24) (h : (s.session p).state ≠ .signedOff) :
    (s.endSession p).session p = Session.off := by
  rw [endSession_of_on h, session_append, session_setSession s hp]

theorem endSession_keeps (p : Nat) : ScreensKeep s (s.endSession p) := by
  by_cases hoff : (s.session p).state = .signedOff
  · rw [endSession_of_off hoff]
    exact .refl s
  · rw [endSession_of_on hoff]
    exact (s.setSession_keeps p Session.off).congr rfl (append_within _ _ .screens (by decide))

theorem screen_endSession_other {p q : Nat} (h : p ≠ q) : (s.endSession p).screen q = s.screen q := by
  by_cases hoff : (s.session p).state = .signedOff
  · rw [endSession_of_off hoff]
  · rw [endSession_of_on hoff, screen_congr (append_within _ _ .screens (by decide)),
      screen_setSession_other _ (Ne.symm h)]

/-- A session that ends leaves no OVERRIDE condition (R51, R135). -/
theorem override_endSession {p : Nat} (hp : 1 ≤ p ∧ p ≤ 24) (h : (s.session p).state ≠ .signedOff) :
    ((s.endSession p).screen p).override = false := by
  have hchanged : s.session p ≠ Session.off := by
    intro hoff
    rw [hoff] at h
    exact h rfl
  rw [endSession_of_on h, screen_congr (append_within _ _ .screens (by decide)), override_setSession s hp hchanged]
  rfl

/-- The sessions of a run of positions end, one after the other. -/
theorem Wrote.endSessions {ps : List Nat} (hps : ps.Nodup) {bodies : List Body} (h : Wrote s t bodies)
    (hruns : s.LinkRuns) (hroom : s.port.queue.length + 1 < 64) (hsame : ∀ p ∈ ps, t.session p = s.session p) :
    Wrote s (ps.foldl endSession t) (bodies ++ s.closingBodies ps) := by
  induction ps generalizing t bodies with
  | nil => simpa [closingBodies] using h
  | cons p ps ih =>
    obtain ⟨hp, hps⟩ := List.nodup_cons.mp hps
    have hrest : ∀ q ∈ ps, (t.endSession p).session q = s.session q := fun q hq => by
      have hpq : p ≠ q := fun h => hp (h ▸ hq)
      rw [session_endSession_other hpq, hsame q (List.mem_cons_of_mem p hq)]
    have hhere := hsame p List.mem_cons_self
    rw [List.foldl_cons]
    by_cases hoff : (s.session p).state = .signedOff
    · have hbodies : s.closingBodies (p :: ps) = s.closingBodies ps := by simp [closingBodies, hoff]
      rw [endSession_of_off (hhere ▸ hoff)] at hrest ⊢
      rw [hbodies]
      exact ih hps h hrest
    · have hbodies : s.closingBodies (p :: ps) =
          .signOff p ((s.session p).teller.getD 0) .closing :: s.closingBodies ps := by simp [closingBodies, hoff]
      have hon : (t.session p).state ≠ .signedOff := hhere ▸ hoff
      have hset := setSession_within t p Session.off
      have hwrote : Wrote s (t.endSession p) (bodies ++ [.signOff p ((s.session p).teller.getD 0) .closing]) := by
        rw [endSession_of_on hon, hhere]
        exact (h.congr (hset .journal (by decide)) (hset .port (by decide)) (hset .day (by decide))
          (hset .counters (by decide))).append hruns hroom _
      rw [hbodies, List.append_cons]
      exact ih hps hwrote hrest

theorem endSessions_wrote (hruns : s.LinkRuns) (hroom : s.port.queue.length + 1 < 64) :
    Wrote s s.endSessions (s.closingBodies allPositions) :=
  (Wrote.refl s).endSessions allPositions_nodup hruns hroom fun _ _ => rfl

theorem endSessions_keeps : ScreensKeep s s.endSessions := by
  have hends : ∀ (ps : List Nat) (t : State), ScreensKeep t (ps.foldl endSession t) := by
    intro ps
    induction ps with
    | nil => exact ScreensKeep.refl
    | cons q ps ih => exact fun t => (endSession_keeps q).trans (ih _)
  exact hends _ s

/-- What becomes of a position's session and OVERRIDE condition when its session ends. -/
def ended (x : Session × Bool) : Session × Bool := if x.1.state = .signedOff then x else (Session.off, false)

theorem endSession_ended {p : Nat} (hp : 1 ≤ p ∧ p ≤ 24) : ((s.endSession p).session p, ((s.endSession p).screen p).override) =
    ended (s.session p, (s.screen p).override) := by
  unfold ended
  by_cases hoff : (s.session p).state = .signedOff
  · rw [endSession_of_off hoff, if_pos hoff]
  · rw [session_endSession_same hp hoff, override_endSession hp hoff, if_neg hoff]

theorem endSessions_ended {p : Nat} (hp : 1 ≤ p ∧ p ≤ 24) : (s.endSessions.session p, (s.endSessions.screen p).override) =
    ended (s.session p, (s.screen p).override) := by
  have hplaces := foldl_places (fun t q => (t.session q, (t.screen q).override)) endSession (fun _ _ x => ended x)
    (fun t i j hij => by rw [session_endSession_other hij, screen_endSession_other hij]) (fun _ _ _ _ => rfl)
    (fun t q hq => endSession_ended (mem_allPositions.mp hq)) allPositions_nodup s p
  rwa [if_pos (mem_allPositions.mpr hp)] at hplaces

theorem endSessions_off (p : Nat) : (s.endSessions.session p).state = .signedOff := by
  by_cases hp : 1 ≤ p ∧ p ≤ 24
  · have hends : s.endSessions.session p = (ended (s.session p, (s.screen p).override)).1 :=
      congrArg Prod.fst (endSessions_ended hp)
    rw [hends, ended]
    split
    · next hoff => exact hoff
    · rfl
  · rw [session_outside _ hp]
    rfl

theorem endSessions_override {p : Nat} (hp : 1 ≤ p ∧ p ≤ 24) (h : (s.session p).state ≠ .signedOff) :
    (s.endSessions.screen p).override = false := by
  have hends : (s.endSessions.screen p).override = (ended (s.session p, (s.screen p).override)).2 :=
    congrArg Prod.snd (endSessions_ended hp)
  rw [hends, ended, if_neg h]

/-! ### The release flags and the figures (R126, R191) -/

/-- A drawer with its release flags clear (R191). -/
def released (x : Drawer) : Drawer := { x with releasePending := false, releaseDelivered := false }

theorem clearReleases_drawer {d : Nat} (hd : d ≤ 24) : s.clearReleases.drawer d = released (s.drawer d) := by
  have hplaces := foldl_places (fun t q => t.drawer q) (fun t q => t.setDrawer q (released (t.drawer q)))
    (fun _ _ x => released x)
    (fun t i j hij => (drawer_setDrawer ..).trans (if_neg fun h => hij h.1)) (fun _ _ _ _ => rfl)
    (fun t i hi => (drawer_setDrawer ..).trans (if_pos ⟨rfl, Nat.lt_succ_of_le (mem_allDrawers.mp hi)⟩)) allDrawers_nodup s d
  rwa [if_pos (mem_allDrawers.mpr hd)] at hplaces

/-- The figures look at the POST and PROOF records and at the drawers' books and opening values (R126). -/
theorem figures_congr (ht : t.tables = s.tables) (hposts : postsOf t.journal.records = postsOf s.journal.records)
    (hproofs : ∀ c, (t.journal.records.map (proofDiff c)).sum = (s.journal.records.map (proofDiff c)).sum)
    (hdrawers : ∀ d ∈ allDrawers, (t.drawer d).book = (s.drawer d).book ∧ (t.drawer d).opening = (s.drawer d).opening)
    (c : Nat) : t.figures c = s.figures c := by
  have hopening : allDrawers.map (fun d => ((rd (t.drawer d).opening c 0 : Nat) : Int)) =
      allDrawers.map (fun d => ((rd (s.drawer d).opening c 0 : Nat) : Int)) :=
    List.map_congr_left fun d hd => by rw [(hdrawers d hd).2]
  have hclosing : allDrawers.map (fun d => (t.bookValue d c : Int)) = allDrawers.map (fun d => (s.bookValue d c : Int)) :=
    List.map_congr_left fun d hd => by rw [bookValue, bookValue, (hdrawers d hd).1, ht]
  unfold figures
  rw [ht, hposts, hproofs, hopening, hclosing]

theorem clearReleases_figures (c : Nat) : s.clearReleases.figures c = s.figures c := by
  have hclear := clearReleases_within s
  refine figures_congr (hclear .tables (by decide)) (by rw [hclear .journal (by decide)])
    (fun _ => by rw [hclear .journal (by decide)]) (fun d hd => ?_) c
  rw [clearReleases_drawer (mem_allDrawers.mp hd)]
  exact ⟨rfl, rfl⟩

/-- A body that is neither a POST nor a PROOF enters no figure. -/
def Silent (b : Body) : Prop := (∀ p, b ≠ .post p) ∧ ∀ w x y z v, b ≠ .proof w x y z v

theorem postsOf_silent {l : List Record} (h : ∀ r ∈ l, Silent r.body) : postsOf l = [] := by
  refine List.filterMap_eq_nil_iff.mpr fun r hr => ?_
  split
  · next p hp => exact absurd hp ((h r hr).1 p)
  · rfl

theorem proofDiffs_silent {l : List Record} (h : ∀ r ∈ l, Silent r.body) (c : Nat) : (l.map (proofDiff c)).sum = 0 := by
  refine List.sum_eq_zero fun x hx => ?_
  obtain ⟨r, hr, rfl⟩ := List.mem_map.mp hx
  unfold proofDiff
  split
  · next hp => exact absurd hp ((h r hr).2 _ _ _ _ _)
  · rfl

theorem figures_append {new : List Record} (hjournal : t.journal.records = s.journal.records ++ new)
    (hsilent : ∀ r ∈ new, Silent r.body) (ht : t.tables = s.tables) (hd : t.drawers = s.drawers) (c : Nat) :
    t.figures c = s.figures c := by
  refine figures_congr ht ?_ (fun c => ?_) (fun d _ => by rw [drawer_congr hd]; exact ⟨rfl, rfl⟩) c
  · rw [hjournal, postsOf, List.filterMap_append]
    exact (congrArg _ (postsOf_silent hsilent)).trans (List.append_nil _)
  · rw [hjournal, List.map_append, List.sum_append, proofDiffs_silent hsilent, add_zero]

theorem Wrote.figures {bodies : List Body} (h : Wrote s t bodies) (hsilent : ∀ b ∈ bodies, Silent b)
    (ht : t.tables = s.tables) (hd : t.drawers = s.drawers) (c : Nat) : t.figures c = s.figures c := by
  refine figures_append (congrArg Journal.records h.journal) (fun r hr => hsilent _ ?_) ht hd c
  rw [← recordsFrom_bodies s.journal.records.length s.day.clock bodies]
  exact List.mem_map_of_mem hr

/-! ### The batch starts (R189, R191, R193) -/

/-- A block that has begun is packed. -/
theorem packFrom_ne_nil (rest : List Record) {first count size : Nat} (h : count ≠ 0) : packFrom rest first count size ≠ [] := by
  induction rest generalizing first count size with
  | nil => simp [packFrom, h]
  | cons r rest ih =>
    unfold packFrom
    split
    · exact ih (Nat.succ_ne_zero count)
    · simp

theorem pack_ne_nil {records : List Record} (h : records ≠ []) : pack records ≠ [] := by
  obtain ⟨r, rest, rfl⟩ := List.exists_cons_of_ne_nil h
  have hfirst : pack (r :: rest) = packFrom rest 1 1 (0 + r.size) := by
    rw [pack, packFrom, if_pos (Or.inl rfl)]
  rw [hfirst]
  exact packFrom_ne_nil rest one_ne_zero

/-- The frames of the first four blocks, as they are queued when the batch starts. -/
def openingBlocks (records : List Record) : List UpFrame :=
  ((pack records).take 4).mapIdx fun i b =>
    .block (i + 1) (pack records).length ((records.drop (b.first - 1)).take b.count)

theorem withFrame_port (f : UpFrame) : (s.withFrame f).port = { s.port with
    queue := s.port.queue ++ [f], transmitting := s.port.transmitting || s.port.olrdy } := rfl

/-- The blocks that an opened window queues are the first of the batch. -/
theorem openingBlocks_eq (hblocks : s.day.blocks = pack s.journal.records) (hsent : s.day.sent = 0) :
    (List.range' (s.day.sent + 1) (min 4 s.day.blocks.length)).map s.blockFrame = openingBlocks s.journal.records := by
  refine List.ext_getElem (by simp [openingBlocks, hblocks]) fun i hi _ => ?_
  have hlt : i < s.day.blocks.length := by
    simp at hi
    omega
  have hplace : 0 + 1 + 1 * i - 1 = i := by omega
  have hblock : i < (pack s.journal.records).length := hblocks ▸ hlt
  simp only [List.getElem_map, List.getElem_range', openingBlocks, List.getElem_mapIdx, List.getElem_take, blockFrame,
    blockCount, hsent, hblocks, hplace, List.getD_eq_getElem _ _ hblock]
  congr 1
  omega

theorem startSending_eq (hroom : s.port.queue.length + 5 ≤ 64) (hblocks : s.day.blocks = pack s.journal.records)
    (hrecords : s.journal.records ≠ []) (hacked : s.day.acked = 0) (hsent : s.day.sent = 0) (hhighest : s.day.highest = 0) :
    s.startSending = { s with
      screens := s.startSending.screens
      port := { s.port with
        queue := s.port.queue ++ [.day .sending s.day.date] ++ openingBlocks s.journal.records
        transmitting := s.port.transmitting || s.port.olrdy }
      day := { s.day with
        state := .sending, sent := min 4 (pack s.journal.records).length
        highest := min 4 (pack s.journal.records).length
        ackTimer := some (s.day.ackTimer.getD s.tables.params.batchAck) } } := by
  have hfree : s.port.queue.length < 64 := by omega
  have hpacked : 0 < (pack s.journal.records).length := List.length_pos_iff.mpr (pack_ne_nil hrecords)
  obtain ⟨screens, hnotice⟩ : ∃ screens, (s.setDayState .sending).dayNotice = { s with
      day := { s.day with state := .sending }, screens := screens
      port := (s.withFrame (.day .sending s.day.date)).port } := by
    have heq := setDayState_dayNotice_eq s .sending
    rw [if_pos hfree, if_pos hfree] at heq
    exact ⟨_, heq⟩
  have hstart : s.startSending = ((s.setDayState .sending).dayNotice).windowTested := testWindow_eq_windowTested _
  rw [hstart, hnotice]
  generalize hu : ({ s with day := { s.day with state := .sending }, screens := screens
                            port := (s.withFrame (.day .sending s.day.date)).port } : State) = u
  have hport : u.port = (s.withFrame (.day .sending s.day.date)).port := by rw [← hu]
  have hday : u.day = { s.day with state := .sending } := by rw [← hu]
  have hjournal : u.journal = s.journal := by rw [← hu]
  have hcounters : u.counters = s.counters := by rw [← hu]
  have hwindow : u.windowRoom = min 4 u.day.blocks.length := by
    have hqueue : u.port.queue.length = s.port.queue.length + 1 := by
      rw [hport]
      simp [withFrame_port]
    rw [windowRoom, hqueue, hday, if_pos rfl, hsent, hacked]
    dsimp only
    omega
  have hresent : u.resends u.windowRoom = 0 := by
    refine List.length_eq_zero_iff.mpr (List.filter_eq_nil_iff.mpr fun k hk => ?_)
    have hk1 := (List.mem_range'_1.mp hk).1
    simp only [hday, hhighest, decide_eq_true_eq]
    omega
  have hframes := openingBlocks_eq (s := u) (by rw [hday, hjournal, hblocks]) (by rw [hday, hsent])
  rw [windowTested_eq_blocksQueued, if_neg (by rw [hwindow, hday, hblocks]; omega), blocksQueued, hresent, hwindow, hframes,
    hcounters, hday, hjournal, hport, hblocks, hsent, hhighest]
  have hcounter : max s.counters.batchResend (min 65535 (s.counters.batchResend + 0)) = s.counters.batchResend := by omega
  have htransmits : (s.port.transmitting || s.port.olrdy || s.port.olrdy) = (s.port.transmitting || s.port.olrdy) := by
    rw [Bool.or_assoc, Bool.or_self]
  subst hu
  simp only [hcounter, withFrame_port, htransmits, Nat.zero_add, Nat.zero_max]

/-! ### Completion whole (R190, R191) -/

/-- The bodies that completion writes: the SIGN_OFF records and the SETTLEMENT record (R178, R191). -/
def completionBodies (s : State) : List Body :=
  s.closingBodies allPositions ++ [.settlement ((List.range 4).map s.figures)
    (s.journal.records.length + (s.closingBodies allPositions).length + 1)]

/-- The records of the journal once completion has closed it. -/
def closedRecords (s : State) : List Record :=
  s.journal.records ++ recordsFrom s.journal.records.length s.day.clock s.completionBodies

theorem closingBodies_silent (ps : List Nat) : ∀ b ∈ s.closingBodies ps, Silent b := by
  intro b hb
  obtain ⟨p, -, rfl⟩ := List.mem_map.mp hb
  exact ⟨fun _ h => (nomatch h), fun _ _ _ _ _ h => (nomatch h)⟩

theorem closedRecords_length : s.closedRecords.length =
    s.journal.records.length + (s.closingBodies allPositions).length + 1 := by
  simp [closedRecords, completionBodies, Nat.add_assoc]

/-- The state that the SETTLEMENT record finds: no session open and no release flag set. -/
theorem settlementBody_eq (hruns : s.LinkRuns) (hroom : s.port.queue.length + 1 < 64) :
    s.endSessions.clearReleases.settlementBody = .settlement ((List.range 4).map s.figures)
      (s.journal.records.length + (s.closingBodies allPositions).length + 1) := by
  have hends := s.endSessions_within
  have hwrote := endSessions_wrote hruns hroom
  have hused : s.endSessions.clearReleases.usedCount =
      s.journal.records.length + (s.closingBodies allPositions).length := by
    rw [usedCount, clearReleases_within s.endSessions .journal (by decide), hwrote.journal]
    simp
  have hfigures : (List.range 4).map s.endSessions.clearReleases.figures = (List.range 4).map s.figures :=
    List.map_congr_left fun c _ => (clearReleases_figures c).trans (hwrote.figures (closingBodies_silent _)
      (hends .tables (by decide)) (hends .drawers (by decide)) c)
  rw [settlementBody, hused, hfigures]

theorem settlement_wrote (hruns : s.LinkRuns) (hroom : s.port.queue.length + 1 < 64) :
    Wrote s (s.endSessions.clearReleases.append s.endSessions.clearReleases.settlementBody) s.completionBodies := by
  have hclear := s.endSessions.clearReleases_within
  rw [settlementBody_eq hruns hroom]
  exact ((endSessions_wrote hruns hroom).congr (hclear .journal (by decide)) (hclear .port (by decide))
    (hclear .day (by decide)) (hclear .counters (by decide))).append hruns hroom _

/-- The day record of a completion that has closed the journal and opened the window. -/
def sendingDay (s : State) : Day := { s.day with
  state := .sending, settlement := (List.range 4).map s.figures, lastSeq := s.closedRecords.length
  blocks := pack s.closedRecords, sent := min 4 (pack s.closedRecords).length
  highest := min 4 (pack s.closedRecords).length
  ackTimer := some (s.day.ackTimer.getD s.tables.params.batchAck) }

/-- The journal, the port, the day record and the counters once completion has closed the journal and started the batch. -/
structure Completes (s t : State) : Prop where
  journal : t.journal = { s.journal with records := s.closedRecords, closed := true }
  port : t.port = { s.port with
    queue := s.port.queue ++ crossing s.journal.records.length s.completionBodies.length ++ [.day .sending s.day.date] ++
      openingBlocks s.closedRecords }
  day : t.day = s.sendingDay
  counters : t.counters = s.counters

theorem complete_completes (hruns : s.LinkRuns) (hroom : s.port.queue.length + 6 ≤ 64) (hacked : s.day.acked = 0)
    (hsent : s.day.sent = 0) (hhighest : s.day.highest = 0) : Completes s s.complete := by
  have hbody := settlementBody_eq hruns (by omega)
  have hwrote := settlement_wrote hruns (by omega)
  have htables : (s.endSessions.clearReleases.append s.endSessions.clearReleases.settlementBody).tables = s.tables :=
    ((append_within _ _ .tables (by decide)).trans (clearReleases_within _ .tables (by decide))).trans
      (endSessions_within s .tables (by decide))
  obtain ⟨hfigures, hlast⟩ := Body.settlement.inj hbody
  rw [← closedRecords_length] at hlast
  have hstart : s.complete = s.endSessions.clearReleases.settle.startSending := rfl
  generalize hw : s.endSessions.clearReleases.append s.endSessions.clearReleases.settlementBody = w at hwrote htables
  have hclosed : s.endSessions.clearReleases.settle = { w with
      journal := { w.journal with closed := true }
      day := { w.day with
        settlement := (List.range 4).map s.figures, lastSeq := s.closedRecords.length, blocks := pack s.closedRecords } } := by
    rw [settle, hw, closeJournal, hfigures, hlast]
    dsimp only [withJournal]
    rw [hwrote.journal]
    rfl
  rw [hstart, hclosed]
  have hjournal := hwrote.journal
  have hport := hwrote.port
  have hday := hwrote.day
  have hcounters := hwrote.counters
  have hone := crossing_length s.journal.records.length s.completionBodies.length
  have hrecords : w.journal.records = s.closedRecords := congrArg Journal.records hjournal
  have hsome : s.closedRecords ≠ [] := List.ne_nil_of_length_pos (by rw [closedRecords_length]; omega)
  rw [startSending_eq (by simp only [hport, List.length_append]; omega) (by dsimp only; rw [hrecords])
    (by dsimp only; rwa [hrecords]) (by simp only [hday, hacked]) (by simp only [hday, hsent]) (by simp only [hday, hhighest])]
  refine ⟨?_, ?_, ?_, hcounters⟩
  · dsimp only
    rw [hjournal]
    rfl
  · dsimp only
    rw [hjournal, hport, hday]
    dsimp only
    rw [← hruns]
    rfl
  · dsimp only
    rw [hjournal, hday, htables]
    rfl

/-- After the sessions and the release flags, completion touches neither sessions nor drawers. -/
theorem closing_within (hst : s.day.state = .cutoff) :
    Within [.journal, .records, .port, .counters, .day, .dayState, .screens] s.endSessions.clearReleases s.complete := by
  have hsettle := settle_within s.endSessions.clearReleases (by
    rw [clearReleases_within _ .day (by decide), endSessions_within _ .day (by decide), hst])
  have hsend := startSending_within s.endSessions.clearReleases.settle (by
    rw [hsettle .dayState (by decide), clearReleases_within _ .day (by decide), endSessions_within _ .day (by decide), hst])
  exact hsend.after hsettle.mono

theorem complete_session (hst : s.day.state = .cutoff) (p : Nat) : (s.complete.session p).state = .signedOff := by
  rw [session_congr (closing_within hst .sessions (by decide)), session_congr (clearReleases_within _ .sessions (by decide)),
    endSessions_off]

theorem complete_drawer (hst : s.day.state = .cutoff) {d : Nat} (hd : d ≤ 24) :
    s.complete.drawer d = released (s.drawer d) := by
  rw [drawer_congr (closing_within hst .drawers (by decide)), clearReleases_drawer hd,
    drawer_congr (endSessions_within _ .drawers (by decide))]

theorem startSending_onlyMarks : OnlyMarks s s.startSending :=
  (s.setDayState_dayNotice_onlyMarks .sending).congr rfl (testWindow_within _ .screens (by decide))

/-- The rows that show the day state or the date are marked as the batch starts (R141, R184). -/
theorem startSending_dirty {p r : Nat} (hp : 1 ≤ p ∧ p ≤ 24) (hr : 1 ≤ r ∧ r ≤ 24)
    (h : (s.startSending.screen p).holds s.tables (fun y => y == .dayState || y == .businessDate) r = true) :
    r ∈ (s.startSending.screen p).dirty := by
  have hscreen : s.startSending.screen p = (s.screen p).mark s.tables (fun y => y == .dayState || y == .businessDate) := by
    rw [← setDayState_screen s .sending hp]
    exact (screen_congr (testWindow_within _ .screens (by decide)) p).trans
      (screen_congr (dayNotice_within _ .screens (by decide)) p)
  rw [hscreen] at h ⊢
  have hsame := Screen.holds_congr (t := s.tables) (x := s.screen p)
    (y := (s.screen p).mark s.tables (fun y => y == .dayState || y == .businessDate))
    (touched := fun y => y == .dayState || y == .businessDate) (r := r) rfl rfl rfl
  exact Screen.mem_mark.mpr ⟨hr.1, hr.2, Or.inr (hsame.symm.trans h)⟩

/-- The screens at the time the batch starts are those that the ended sessions leave. -/
theorem settled_screens (hst : s.day.state = .cutoff) : s.endSessions.clearReleases.settle.screens = s.endSessions.screens := by
  have hsettle := settle_within s.endSessions.clearReleases (by
    rw [clearReleases_within _ .day (by decide), endSessions_within _ .day (by decide), hst])
  rw [hsettle .screens (by decide), clearReleases_within _ .screens (by decide)]

theorem complete_marks (hst : s.day.state = .cutoff) : OnlyMarks s.endSessions s.complete :=
  (startSending_onlyMarks (s := s.endSessions.clearReleases.settle)).congr (settled_screens hst).symm rfl

theorem complete_dirty (hst : s.day.state = .cutoff) {p r : Nat} (hp : 1 ≤ p ∧ p ≤ 24) (hr : 1 ≤ r ∧ r ≤ 24)
    (h : (s.complete.screen p).holds s.tables (fun y => y == .dayState || y == .businessDate) r = true) :
    r ∈ (s.complete.screen p).dirty := by
  have htables : s.endSessions.clearReleases.settle.tables = s.tables := by
    have hsettle := settle_within s.endSessions.clearReleases (by
      rw [clearReleases_within _ .day (by decide), endSessions_within _ .day (by decide), hst])
    rw [hsettle .tables (by decide), clearReleases_within _ .tables (by decide), endSessions_within _ .tables (by decide)]
  refine startSending_dirty (s := s.endSessions.clearReleases.settle) hp hr ?_
  rw [htables]
  exact h

/-! ### The test (R190) -/

theorem canComplete_iff (s : State) : s.canComplete = true ↔
    (∀ i, i < 32 → s.entry i = none) ∧ (s.drawer 0).state = .balanced ∧
    ∀ d, 1 ≤ d → d ≤ 24 → (s.drawer d).state = .balanced ∨
      ((s.drawer d).state = .active ∧ (∀ c, c < 4 → s.bookValue d c = 0) ∧ (s.drawer d).postedToday = false) := by
  have hnone : s.pendingCount = 0 ↔ ∀ i, i < 32 → s.entry i = none := by
    rw [pendingCount_eq, List.length_eq_zero_iff, List.filter_eq_nil_iff]
    simp only [List.mem_range, Bool.not_eq_true, Option.isSome_eq_false_iff, Option.isNone_iff_eq_none]
  simp only [canComplete, exempt, Bool.and_eq_true, beq_iff_eq, List.all_eq_true, Bool.or_eq_true, mem_allPositions,
    List.mem_range, Bool.not_eq_true', hnone, and_imp, and_assoc]
  exact and_congr_right fun _ => and_comm

theorem takeCutoff_of_complete {p t : Option Nat} (h : s.canComplete = true) :
    s.takeCutoff p t = (((s.append (.cutoff p t)).setDayState .cutoff).dayNotice).complete := by
  have hday : (((s.append (.cutoff p t)).setDayState .cutoff).dayNotice).day.state = .cutoff := by
    rw [dayNotice_within _ .day (by decide), setDayState_day]
  unfold takeCutoff testCompletion
  rw [if_pos ⟨hday, (s.recordAndNotice_canComplete _ _).trans h⟩]

end State
end Sys2Proof.Machine

namespace Sys2Proof.Proofs

open Sys2Proof.Machine Sys2Proof.Machine.State

/-- The nearly-full alarm of the CUTOFF record, and that of the k records behind it. -/
theorem cutoff_crossing (n k : Nat) :
    (n + 1 = 15360 → crossing (n + 1) k = []) ∧
    (n + 1 ≠ 15360 → crossing (n + 1) k = if n < 15360 ∧ 15360 ≤ n + 1 + k then [.alarm .journalNearlyFull 0] else []) := by
  unfold crossing
  refine ⟨fun h => if_neg (by omega), fun h => ?_⟩
  have hiff : (n + 1 < 15360 ∧ 15360 ≤ n + 1 + k) ↔ (n < 15360 ∧ 15360 ≤ n + 1 + k) := by omega
  simp only [hiff]

theorem cutoff_notices_length (s : State) (k : Nat) :
    s.nearlyFullNotice.length + (crossing (s.journal.records.length + 1) k).length ≤ 1 := by
  obtain ⟨hat, _⟩ := cutoff_crossing s.journal.records.length k
  by_cases h : s.journal.records.length + 1 = 15360
  · rw [hat h]
    exact s.nearlyFullNotice_length
  · rw [nearlyFullNotice, if_neg h]
    simpa using crossing_length (s.journal.records.length + 1) k

/-- Settles O18: the test as stated, and the events of completion one after the other. -/
theorem cutoffCompletes : Obligations.CutoffCompletes := by
  unfold Obligations.CutoffCompletes
  refine ⟨canComplete_iff, fun s tag hwindow hroom hopen hcomplete => ?_⟩
  have hclean := hwindow.unsettled (Or.inr (Or.inl hopen))
  have hsh := hwindow.sentHighest
  have has := hwindow.ackedSent
  generalize hc : ((s.append (.cutoff none none)).setDayState .cutoff).dayNotice = c
  have heq : c = _ := hc.symm.trans (s.recordAndNotice_eq (.cutoff none none) .cutoff (by omega))
  have hone := s.nearlyFullNotice_length
  have hport : c.port = { s.port with
      queue := s.port.queue ++ s.nearlyFullNotice ++ [.day .cutoff s.day.date]
      transmitting := s.port.transmitting || s.port.olrdy } := by rw [heq]
  have hday : c.day = { s.day with state := .cutoff } := by rw [heq]
  have hjournal : c.journal = s.withRecord (.cutoff none none) := by rw [heq]
  have hmarks : OnlyMarks s c := hc ▸ s.recordAndNotice_onlyMarks _ _
  have hst : c.day.state = .cutoff := by rw [hday]
  have hdone : Completes c c.complete := complete_completes (by rw [LinkRuns, hport]; simp)
    (by rw [hport]; simp only [List.length_append, List.length_singleton]; omega)
    (by rw [hday]; dsimp only; omega) (by rw [hday]; dsimp only; omega) (by rw [hday]; dsimp only; omega)
  have htaken : s.takeCutoff none none = c.complete := by rw [takeCutoff_of_complete hcomplete, hc]
  have hsame : c.sessions = s.sessions ∧ c.drawers = s.drawers ∧ c.tables = s.tables ∧ c.counters = s.counters := by
    rw [heq]
    exact ⟨rfl, rfl, rfl, rfl⟩
  obtain ⟨hsessions, hdrawers, htables, hcounters⟩ := hsame
  have hfigures : (List.range 4).map c.figures = (List.range 4).map s.figures :=
    List.map_congr_left fun k _ => figures_append (congrArg Journal.records hjournal)
      (fun r hr => by
        rw [List.mem_singleton.mp hr]
        exact ⟨fun _ h => (nomatch h), fun _ _ _ _ _ h => (nomatch h)⟩) htables hdrawers k
  have hbodies : c.closingBodies allPositions = s.closingBodies allPositions := by
    unfold closingBodies
    simp only [session_congr hsessions]
  have hclosed : c.closedRecords = s.journal.records ++ recordsFrom s.journal.records.length s.day.clock
      (.cutoff none none :: c.completionBodies) := by
    rw [closedRecords, hjournal, hday, ← List.singleton_append, recordsFrom_append]
    simp [withRecord, recordsFrom]
  have hlength : c.complete.journal.records.length = c.closedRecords.length := by rw [hdone.journal]
  have hverdict : s.mgmtCutoff = (c.complete, .done []) := by
    rw [mgmtCutoff, if_pos hopen, htaken]
  have hanswer : s.mgmtCut tag [] = c.complete.reply 0x07 tag (.done []) := by
    rw [mgmtCut, hverdict, answerDo_of_size s (bs := []) (size := 0) rfl]
  have hafter : c.complete.port.queue.length < 64 := by
    have hcross := cutoff_notices_length s c.completionBodies.length
    have hcount : c.journal.records.length = s.journal.records.length + 1 := by rw [hjournal]; simp [withRecord]
    rw [← hcount] at hcross
    have hblocks : (openingBlocks c.closedRecords).length ≤ 4 := by simp [openingBlocks]
    rw [hdone.port, hport]
    simp only [List.length_append, List.length_singleton]
    omega
  have hreplied := hanswer.trans (reply_done hafter 0x07 tag [])
  refine ⟨c.complete, congrArg Host.Outcome.next hreplied, ?_, ?_, ⟨?_, ?_⟩, ?_, ?_, complete_session hst, ?_, ⟨?_, ?_, ?_⟩, ?_⟩
  · have hmerge := (takeCutoff_within s none none hopen).eq_merge
    rw [htaken] at hmerge
    calc c.complete = { s with
          port := c.complete.port, sessions := c.complete.sessions, drawers := c.complete.drawers
          screens := c.complete.screens, journal := c.complete.journal, day := c.complete.day
          counters := c.complete.counters } := hmerge
      _ = _ := by rw [hdone.counters, hcounters]
  · rw [hlength, closedRecords_length, hbodies, hdone.journal, hclosed, List.map_append, recordsFrom_bodies, completionBodies,
      hbodies, hfigures]
    simp [closingBodies]
  · rw [hdone.journal, hclosed]
    exact List.prefix_append _ _
  · intro i r hi hr
    rw [hdone.journal, hclosed, List.getElem?_append_right hi] at hr
    obtain ⟨hseq, hclock⟩ := getElem_recordsFrom hr
    exact ⟨by omega, hclock⟩
  · rw [hdone.journal]
  · rw [hdone.journal, hjournal]
    rfl
  · intro d hd
    rw [complete_drawer hst hd, drawer_congr hdrawers]
    rfl
  · rw [hdone.day, hdone.journal, sendingDay, hfigures, hday, htables]
  · rw [hdone.day, sendingDay, hday]
    dsimp only
    omega
  · intro crossed atOnce nearlyFull
    have hgrows : s.journal.records.length + 1 + c.completionBodies.length = c.complete.journal.records.length := by
      rw [hlength, hclosed]
      simp only [List.length_append, recordsFrom_length, List.length_cons]
      omega
    obtain ⟨hat, hlater⟩ := cutoff_crossing s.journal.records.length c.completionBodies.length
    have hnow : nearlyFull (crossed ∧ atOnce) = s.nearlyFullNotice := by
      have hiff : (crossed ∧ atOnce) ↔ s.journal.records.length + 1 = 15360 :=
        ⟨fun h => h.2, fun h => ⟨⟨by omega, by omega⟩, h⟩⟩
      exact if_congr hiff rfl rfl
    have hthen : nearlyFull (crossed ∧ ¬ atOnce) = crossing (s.journal.records.length + 1) c.completionBodies.length := by
      by_cases h : s.journal.records.length + 1 = 15360
      · rw [hat h]
        exact if_neg fun hn => hn.2 h
      · rw [hlater h]
        have hcrossed : crossed ↔ s.journal.records.length < 15360 ∧ 15360 ≤ s.journal.records.length + 1 +
            c.completionBodies.length := by rw [hgrows]
        exact if_congr ((and_iff_left h).trans hcrossed) rfl rfl
    have hcount : c.journal.records.length = s.journal.records.length + 1 := by rw [hjournal]; simp [withRecord]
    rw [hnow, hthen, hdone.port, hdone.journal, hport, hcount, hday]
    rfl
  · intro p h1 h24
    have hkeeps : (s.screen p).Keeps (c.complete.screen p) :=
      (hmarks.keeps p).trans ((endSessions_keeps p).trans ((complete_marks hst).keeps p))
    refine ⟨⟨hkeeps.form, hkeeps.view, hkeeps.last⟩, hkeeps.dirty, fun hon => ?_, fun r hr1 hr24 hholds => ?_⟩
    · rw [← session_congr hsessions] at hon
      obtain ⟨hscreen, _⟩ := complete_marks hst p
      have hover : (c.complete.screen p).override = (c.endSessions.screen p).override := by rw [hscreen]
      exact hover.trans (endSessions_override ⟨h1, h24⟩ hon)
    · rw [← htables] at hholds
      exact complete_dirty hst ⟨h1, h24⟩ ⟨hr1, hr24⟩ hholds

end Sys2Proof.Proofs
end

