-- ==== Sys2Proof/Proofs/Starts.lean ====
section
/-! The cold start and the state after reset (R12, R21, R22, R48, R66, R89, R112, R151, R171, R183, R200). -/

set_option Elab.async false

namespace Sys2Proof.Machine

namespace State

/-! ### The banks after reset -/

theorem reset_entry (i : Nat) : State.reset.entry i = none := rd_replicate ..
theorem reset_session (p : Nat) : State.reset.session p = Session.off := rd1_replicate ..
theorem reset_drawer (d : Nat) : State.reset.drawer d = Drawer.cold := rd_replicate ..
theorem reset_posRec (p : Nat) : State.reset.posRec p = PosRec.start := rd1_replicate ..
theorem reset_screen (p : Nat) : State.reset.screen p = Screen.start 0 false := rd1_replicate ..
theorem reset_printer (p : Nat) : State.reset.printer p = Printer.start := rd1_replicate ..

theorem reset_unit (p u : Nat) : State.reset.unit p u = UnitRec.start := by
  unfold unit
  rw [reset_posRec]
  exact rd_replicate ..

/-- What the close of the day may still need is bounded by the sessions, the drawers and two records. -/
theorem closingNeed_le (s : State) : s.closingNeed ≤ 51 := by
  have hsessions : (allPositions.filter (fun p => (s.session p).state != .signedOff)).length ≤ 24 :=
    List.length_filter_le _ _
  have hdrawers : (allDrawers.filter (fun d => (s.drawer d).state != .balanced)).length ≤ 25 := List.length_filter_le _ _
  unfold closingNeed
  split <;> omega

/-- A figure summed over a table without entries. -/
theorem overEntries_of_empty {s : State} (h : ∀ i, s.entry i = none) (f : Entry → Nat) : s.overEntries f = 0 := by
  refine List.sum_eq_zero fun x hx => ?_
  obtain ⟨i, -, rfl⟩ := List.mem_map.mp hx
  rw [h]

end State

theorem countAt_zero (c k : Nat) : countAt CountTable.zero c k = 0 := by
  unfold countAt
  rw [CountTable.zero, rd_replicate]
  exact rd1_replicate ..

end Sys2Proof.Machine

namespace Sys2Proof.Proofs

open Sys2Proof.Machine Sys2Proof.Machine.State

/-- Settles O4: both cold starts are the one operation, and each bank of its result holds one value throughout. -/
theorem coldStart : Obligations.ColdStart := by
  unfold Obligations.ColdStart
  refine ⟨fun s straps tag => ⟨rfl, rfl⟩, ?_⟩
  intro s
  refine ⟨⟨rfl, rfl, rfl, rfl⟩, rfl, rfl, rfl, rfl, fun i => ?_, ⟨rfl, rfl, rfl, rfl⟩, fun p u => ?_, ⟨rfl, rfl, rfl, rfl, rfl⟩, reset_session,
    reset_entry, rfl, rfl, fun d c k => ?_, fun p => ?_, fun p => ?_, fun i => rd_replicate .., rfl,
    ⟨rfl, rfl, rfl, rfl, rfl, rfl, rfl, rfl⟩⟩
  · exact ⟨rd1_replicate .., rd_replicate .., rd1_replicate .., rd_replicate .., rd_replicate .., rd_replicate ..,
      rd_replicate .., rd_replicate .., rd_replicate .., rd_replicate ..⟩
  · exact ⟨congrArg PosRec.missed (reset_posRec p), reset_unit p u⟩
  · have hdrawer := reset_drawer d
    refine ⟨?_, ?_, ?_, ?_, ?_, ?_⟩
    all_goals rw [hdrawer]
    · rfl
    · rfl
    · exact countAt_zero c k
    · exact countAt_zero c k
    · exact countAt_zero c k
    · rfl
  · exact ⟨congrArg Screen.form (reset_screen p), congrArg Screen.dirty (reset_screen p),
      congrArg Screen.view (reset_screen p), congrArg Screen.last (reset_screen p)⟩
  · exact ⟨congrArg Printer.state (reset_printer p), congrArg Printer.job (reset_printer p),
      congrArg Printer.book (reset_printer p), congrArg Printer.carried (reset_printer p)⟩

theorem reset_bounded : State.reset.Bounded where
  queue := Nat.zero_le _
  units p u := by
    rw [reset_unit]
    exact Nat.zero_le _
  counters := by
    unfold Counters.Bounded
    decide
  lock := by decide
  grantCount := by decide
  missed p := by
    rw [reset_posRec]
    exact Nat.zero_le _
  tagCounter := Nat.zero_le _
  clock := Nat.zero_le _

theorem reset_entriesSound : State.reset.EntriesSound := by
  have hnone : ∀ i e, State.reset.entry i ≠ some e := fun i e h => by simp [reset_entry] at h
  exact ⟨fun i e h => absurd h (hnone i e), fun i _ e _ h => absurd h (hnone i e), fun i _ e _ h => absurd h (hnone i e)⟩

theorem reset_overridesSound : State.reset.OverridesSound where
  once := List.nodup_nil
  listed i := by simp [reset_entry, show State.reset.overrides = [] from rfl]
  capacity := Nat.zero_le _

theorem reset_journalSound : State.reset.JournalSound where
  held i e h := by simp [reset_entry] at h
  claims := (overEntries_of_empty reset_entry _).symm
  closed := by decide
  places := by
    have hneed := State.reset.closingNeed_le
    show 0 + 0 + State.reset.closingNeed ≤ 16384
    omega

theorem reset_reservationsSound : State.reset.ReservationsSound where
  faces c e h := by simp [show State.reset.tables.currency c = none from rd_replicate ..] at h
  items i e x h := by simp [reset_entry] at h
  unreserved i e h := by simp [reset_entry] at h
  counts d c k _ _ _ _ := by
    rw [reset_drawer, overEntries_of_empty reset_entry, overEntries_of_empty reset_entry]
    exact ⟨countAt_zero c k, countAt_zero c k⟩
  covered d c k _ _ _ _ := by
    rw [reset_drawer]
    exact le_refl _
  resting d _ _ c k _ _ _ := by
    rw [reset_drawer]
    exact ⟨countAt_zero c k, countAt_zero c k⟩

theorem reset_journalNumbered : State.reset.JournalNumbered := fun _ _ h => by cases h

/-- Settles O6: nothing is in use after reset, and every count is 0. -/
theorem invariantsHoldAtReset : Obligations.InvariantsHoldAtReset := by
  unfold Obligations.InvariantsHoldAtReset
  refine ⟨reset_bounded, reset_journalNumbered, ⟨le_refl _, le_refl _, le_refl _, by decide, fun _ => rfl⟩,
    reset_entriesSound, reset_overridesSound, reset_journalSound, reset_reservationsSound⟩

end Sys2Proof.Proofs
end

