-- ==== Sys2Proof/Proofs/CashItems.lean ====
section
/-! Lists of reservation items: made, released and posted, drawer by drawer and count by count (R98, R102, R103). -/

set_option Elab.async false

namespace Sys2Proof.Machine

/-! ### Sums of items -/

/-- What one item adds to a sum of items. -/
def Item.share (i : Item) (out : Bool) (d c k : Nat) : Nat :=
  if i.out = out ∧ i.drawer = d ∧ i.cur = c ∧ i.den = k then i.count else 0

@[simp] theorem itemSum_nil (out : Bool) (d c k : Nat) : itemSum [] out d c k = 0 := rfl

@[simp] theorem itemSum_cons (i : Item) (items : List Item) (out : Bool) (d c k : Nat) :
    itemSum (i :: items) out d c k = i.share out d c k + itemSum items out d c k := by
  unfold itemSum Item.share
  by_cases h : i.out = out ∧ i.drawer = d ∧ i.cur = c ∧ i.den = k
  · obtain ⟨h1, h2, h3, h4⟩ := h
    simp [h1, h2, h3, h4]
  · rw [if_neg h, List.filter_cons_of_neg (by simpa [and_assoc] using h), Nat.zero_add]

theorem itemSum_append (a b : List Item) (out : Bool) (d c k : Nat) :
    itemSum (a ++ b) out d c k = itemSum a out d c k + itemSum b out d c k := by
  simp [itemSum]

theorem Item.share_other {i : Item} {d : Nat} (h : i.drawer ≠ d) (out : Bool) (c k : Nat) : i.share out d c k = 0 :=
  if_neg fun hc => h hc.2.1

/-! ### One item on one drawer -/

/-- A count outside the table reads as 0. -/
theorem countAt_outside {t : CountTable} {c k : Nat} (h : ¬ (c < 4 ∧ 1 ≤ k ∧ k ≤ 12)) : countAt t c k = 0 := by
  have hplace : ∀ v : Vector Nat 12, ¬ (1 ≤ k ∧ k ≤ 12) → rd1 v k 0 = 0 := by
    intro v hk
    unfold rd1
    split
    · rfl
    · exact rd_outside _ (by omega) _
  unfold countAt
  by_cases hc : c < 4
  · exact hplace _ fun hk => h ⟨hc, hk⟩
  · rw [rd_outside _ (by omega)]
    exact rd1_replicate ..

namespace Drawer

variable (x : Drawer) (i : Item)

theorem release_eq : x.release i = { x with reserved := (x.release i).reserved, incoming := (x.release i).incoming } := by
  unfold release
  split <;> rfl

theorem reserve_eq : x.reserve i = { x with reserved := (x.reserve i).reserved, incoming := (x.reserve i).incoming } := by
  unfold reserve
  split <;> rfl

theorem post_eq : x.post i = { x with
    book := (x.post i).book, reserved := (x.post i).reserved, incoming := (x.post i).incoming, postedToday := true } := by
  unfold post
  dsimp only
  split <;> rfl

/-- One count of a table less an item's count. -/
theorem countAt_put_sub (t : CountTable) (c k : Nat) : countAt (putCount t i.cur i.den (countAt t i.cur i.den - i.count)) c k =
    countAt t c k - (if i.cur = c ∧ i.den = k then i.count else 0) := by
  rw [countAt_putCount]
  by_cases h : i.cur = c ∧ i.den = k
  · obtain ⟨rfl, rfl⟩ := h
    by_cases hin : i.cur < 4 ∧ 1 ≤ i.den ∧ i.den ≤ 12
    · obtain ⟨hc, hk⟩ := hin
      simp [hc, hk]
    · rw [if_neg fun h => hin ⟨h.1.2, h.2.2⟩, countAt_outside hin, Nat.zero_sub]
  · rw [if_neg fun hc => h ⟨hc.1.1, hc.2.1⟩, if_neg h, Nat.sub_zero]

theorem countAt_put_add (t : CountTable) {c k : Nat} (hin : c < 4 ∧ 1 ≤ k ∧ k ≤ 12) :
    countAt (putCount t i.cur i.den (countAt t i.cur i.den + i.count)) c k =
      countAt t c k + (if i.cur = c ∧ i.den = k then i.count else 0) := by
  rw [countAt_putCount]
  by_cases h : i.cur = c ∧ i.den = k
  · obtain ⟨rfl, rfl⟩ := h
    simp [hin]
  · rw [if_neg fun hc => h ⟨hc.1.1, hc.2.1⟩, if_neg h, Nat.add_zero]


theorem release_counts (c k : Nat) :
    countAt (x.release i).reserved c k = countAt x.reserved c k - i.share true i.drawer c k ∧
    countAt (x.release i).incoming c k = countAt x.incoming c k - i.share false i.drawer c k := by
  unfold release Item.share
  cases hout : i.out with
  | true => simp [countAt_put_sub]
  | false => simp [countAt_put_sub]

theorem reserve_counts {c k : Nat} (hin : c < 4 ∧ 1 ≤ k ∧ k ≤ 12) :
    countAt (x.reserve i).reserved c k = countAt x.reserved c k + i.share true i.drawer c k ∧
    countAt (x.reserve i).incoming c k = countAt x.incoming c k + i.share false i.drawer c k := by
  unfold reserve Item.share
  cases hout : i.out with
  | true => simp [countAt_put_add _ _ hin]
  | false => simp [countAt_put_add _ _ hin]

theorem post_counts {c k : Nat} (hin : c < 4 ∧ 1 ≤ k ∧ k ≤ 12) :
    countAt (x.post i).book c k =
      countAt x.book c k + i.share false i.drawer c k - i.share true i.drawer c k ∧
    countAt (x.post i).reserved c k = countAt x.reserved c k - i.share true i.drawer c k ∧
    countAt (x.post i).incoming c k = countAt x.incoming c k - i.share false i.drawer c k := by
  unfold post Item.share
  cases hout : i.out with
  | true => simp [countAt_put_sub]
  | false => simp [countAt_put_sub, countAt_put_add _ _ hin]

end Drawer

namespace State

variable (s : State)

/-! ### A list of items -/

theorem eachItem_cons (i : Item) (items : List Item) (f : Drawer → Item → Drawer) :
    s.eachItem (i :: items) f = (s.setDrawer i.drawer (f (s.drawer i.drawer) i)).eachItem items f := rfl

/-- The drawer that an item names, and the others. -/
theorem drawer_setItem (i : Item) (f : Drawer → Item → Drawer) (d : Nat) :
    (s.setDrawer i.drawer (f (s.drawer i.drawer) i)).drawer d =
      if i.drawer = d ∧ d ≤ 24 then f (s.drawer d) i else s.drawer d := by
  rw [drawer_setDrawer]
  by_cases h : i.drawer = d
  · subst h
    simp [Nat.lt_succ_iff]
  · simp [h]

theorem countAt_cold {d : Nat} (hd : 24 < d) (c k : Nat) :
    countAt (s.drawer d).reserved c k = 0 ∧ countAt (s.drawer d).incoming c k = 0 := by
  rw [drawer_outside s hd]
  exact ⟨countAt_zero c k, countAt_zero c k⟩

/-- Releasing a list takes the sums of its items from the counts and changes nothing else (R102). -/
theorem eachItem_released (items : List Item) : ReservationsReleased items s (s.eachItem items Drawer.release) := by
  induction items generalizing s with
  | nil => exact fun d => ⟨rfl, fun c k => ⟨rfl, rfl⟩⟩
  | cons i items ih =>
    intro d
    obtain ⟨hrest, hcounts⟩ := ih (s.setDrawer i.drawer ((s.drawer i.drawer).release i)) d
    rw [← eachItem_cons] at hrest hcounts
    rw [drawer_setItem s i Drawer.release d] at hrest hcounts
    by_cases h : i.drawer = d ∧ d ≤ 24
    · obtain ⟨rfl, hd⟩ := h
      rw [if_pos ⟨rfl, hd⟩] at hrest hcounts
      refine ⟨?_, fun c k => ?_⟩
      · rw [hrest, Drawer.release_eq]
      · obtain ⟨hres, hinc⟩ := hcounts c k
        obtain ⟨hres1, hinc1⟩ := (s.drawer i.drawer).release_counts i c k
        rw [hres, hinc, hres1, hinc1, itemSum_cons, itemSum_cons, Nat.sub_sub, Nat.sub_sub]
        exact ⟨rfl, rfl⟩
    · rw [if_neg h] at hrest hcounts
      refine ⟨hrest, fun c k => ?_⟩
      obtain ⟨hres, hinc⟩ := hcounts c k
      by_cases hd : d ≤ 24
      · have hother : i.drawer ≠ d := fun hi => h ⟨hi, hd⟩
        rw [hres, hinc, itemSum_cons, itemSum_cons, Item.share_other hother, Item.share_other hother, Nat.zero_add, Nat.zero_add]
        exact ⟨rfl, rfl⟩
      · obtain ⟨hres0, hinc0⟩ := s.countAt_cold (Nat.lt_of_not_le hd) c k
        rw [hres, hinc, hres0, hinc0]
        simp

/-- Reserving a list adds the sums of its items to the counts and changes nothing else (R98). -/
theorem eachItem_reserved (items : List Item) : ReservationsMade items s (s.eachItem items Drawer.reserve) := by
  induction items generalizing s with
  | nil => exact fun d => ⟨rfl, fun _ c k _ _ _ => ⟨rfl, rfl⟩⟩
  | cons i items ih =>
    intro d
    obtain ⟨hrest, hcounts⟩ := ih (s.setDrawer i.drawer ((s.drawer i.drawer).reserve i)) d
    rw [← eachItem_cons] at hrest hcounts
    rw [drawer_setItem s i Drawer.reserve d] at hrest hcounts
    by_cases h : i.drawer = d ∧ d ≤ 24
    · obtain ⟨rfl, hd⟩ := h
      rw [if_pos ⟨rfl, hd⟩] at hrest hcounts
      refine ⟨?_, fun _ c k hc h1 h12 => ?_⟩
      · rw [hrest, Drawer.reserve_eq]
      · obtain ⟨hres, hinc⟩ := hcounts hd c k hc h1 h12
        obtain ⟨hres1, hinc1⟩ := (s.drawer i.drawer).reserve_counts i ⟨hc, h1, h12⟩
        rw [hres, hinc, hres1, hinc1, itemSum_cons, itemSum_cons, Nat.add_assoc, Nat.add_assoc]
        exact ⟨rfl, rfl⟩
    · rw [if_neg h] at hrest hcounts
      refine ⟨hrest, fun hd c k hc h1 h12 => ?_⟩
      obtain ⟨hres, hinc⟩ := hcounts hd c k hc h1 h12
      have hother : i.drawer ≠ d := fun hi => h ⟨hi, hd⟩
      rw [hres, hinc, itemSum_cons, itemSum_cons, Item.share_other hother, Item.share_other hother, Nat.zero_add, Nat.zero_add]
      exact ⟨rfl, rfl⟩

/-- Posting a list moves its items into the books (R103). -/
theorem eachItem_posted (items : List Item) (hcover : BooksCover items s) :
    ItemsPosted items s (s.eachItem items Drawer.post) := by
  induction items generalizing s with
  | nil => exact fun d hd => ⟨fun c k _ _ _ => ⟨rfl, rfl, rfl⟩, by simp [eachItem], rfl, rfl, rfl, rfl⟩
  | cons i items ih =>
    have hstep : ∀ {d c k : Nat}, d ≤ 24 → c < 4 → 1 ≤ k → k ≤ 12 →
        countAt ((s.setDrawer i.drawer ((s.drawer i.drawer).post i)).drawer d).book c k + i.share true d c k =
          countAt (s.drawer d).book c k + i.share false d c k := by
      intro d c k hd hc h1 h12
      have hcovered := hcover d c k hd hc h1 h12
      rw [itemSum_cons] at hcovered
      rw [drawer_setItem]
      by_cases h : i.drawer = d
      · subst h
        obtain ⟨hbook, _, _⟩ := (s.drawer i.drawer).post_counts i ⟨hc, h1, h12⟩
        rw [if_pos ⟨rfl, hd⟩, hbook]
        omega
      · rw [if_neg fun hn => h hn.1, Item.share_other h, Item.share_other h]
    have hrest := ih (s.setDrawer i.drawer ((s.drawer i.drawer).post i)) fun d c k hd hc h1 h12 => by
      have hcovered := hcover d c k hd hc h1 h12
      have hbook := hstep hd hc h1 h12
      rw [itemSum_cons] at hcovered
      omega
    rw [← eachItem_cons] at hrest
    intro d hd
    obtain ⟨hcounts, hposted, hopening, hstate, hphysical, hopenings⟩ := hrest d hd
    rw [drawer_setItem] at hposted hopening hstate hphysical hopenings
    by_cases h : i.drawer = d
    · subst h
      rw [if_pos ⟨rfl, hd⟩] at hposted hopening hstate hphysical hopenings
      rw [Drawer.post_eq] at hposted hopening hstate hphysical hopenings
      refine ⟨fun c k hc h1 h12 => ?_, ?_, hopening, hstate, hphysical, hopenings⟩
      · obtain ⟨hbook, hres, hinc⟩ := hcounts c k hc h1 h12
        have hfirst := hstep hd hc h1 h12
        obtain ⟨_, hres1, hinc1⟩ := (s.drawer i.drawer).post_counts i ⟨hc, h1, h12⟩
        rw [drawer_setItem, if_pos ⟨rfl, hd⟩] at hres hinc
        rw [itemSum_cons, itemSum_cons, hres, hinc, hres1, hinc1, Nat.sub_sub, Nat.sub_sub]
        exact ⟨by omega, rfl, rfl⟩
      · simpa using hposted
    · have hn : ¬ (i.drawer = d ∧ d ≤ 24) := fun hn => h hn.1
      rw [if_neg hn] at hposted hopening hstate hphysical hopenings
      refine ⟨fun c k hc h1 h12 => ?_, ?_, hopening, hstate, hphysical, hopenings⟩
      · have hthis := hcounts c k hc h1 h12
        rw [drawer_setItem, if_neg hn] at hthis
        rw [itemSum_cons, itemSum_cons, Item.share_other h, Item.share_other h, Nat.zero_add, Nat.zero_add]
        exact hthis
      · rw [hposted, List.any_cons, beq_false_of_ne h, Bool.false_or]

/-! ### With the reports to the screens -/

theorem releaseItems_drawer (items : List Item) (d : Nat) :
    (s.releaseItems items).drawer d = (s.eachItem items Drawer.release).drawer d :=
  drawer_congr (itemReports_within _ _ .drawers (by decide)) d

theorem reserveItems_drawer (items : List Item) (d : Nat) :
    (s.reserveItems items).drawer d = (s.eachItem items Drawer.reserve).drawer d :=
  drawer_congr (itemReports_within _ _ .drawers (by decide)) d

theorem releaseItems_released (items : List Item) : ReservationsReleased items s (s.releaseItems items) := by
  intro d
  rw [releaseItems_drawer]
  exact s.eachItem_released items d

theorem reserveItems_made (items : List Item) : ReservationsMade items s (s.reserveItems items) := by
  intro d
  rw [reserveItems_drawer]
  exact s.eachItem_reserved items d

/-- A ceiling test changes no drawer but for its ceiling alert (R106). -/
theorem ceilingTest_rest (d e : Nat) : (s.ceilingTest d).drawer e =
    { s.drawer e with ceiling := ((s.ceilingTest d).drawer e).ceiling } := by
  obtain ⟨x, hx⟩ := s.ceilingTest_drawer d
  rw [hx, drawer_setDrawer]
  split
  · next h => rw [h.1]
  · rfl

theorem ceilingTests_rest (ds : List Nat) (e : Nat) : (s.ceilingTests ds).drawer e =
    { s.drawer e with ceiling := ((s.ceilingTests ds).drawer e).ceiling } := by
  induction ds generalizing s with
  | nil => rfl
  | cons d ds ih =>
    have hrest := ih (s.ceilingTest d)
    rw [s.ceilingTest_rest d e] at hrest
    exact hrest

/-- Effect 1 of the posting hand-off: the items enter the books, whatever the ceiling tests find (R86, R103). -/
theorem postItems_posted (items : List Item) (hcover : BooksCover items s) : ItemsPosted items s (s.postItems items) := by
  intro d hd
  have hrest := (s.eachItem items Drawer.post).ceilingTests_rest (itemDrawers items) d
  obtain ⟨hcounts, hposted, hopening, hstate, hphysical, hopenings⟩ := s.eachItem_posted items hcover d hd
  rw [postItems, hrest]
  exact ⟨hcounts, hposted, hopening, hstate, hphysical, hopenings⟩

end State

/-- A posting is told by what the drawers hold apart from their flags. -/
theorem ItemsPosted.congr {items : List Item} {s s' t t' : State} (h : ItemsPosted items s t)
    (hs : s'.drawers = s.drawers) (ht : ∀ d, (t'.drawer d).book = (t.drawer d).book ∧
      (t'.drawer d).reserved = (t.drawer d).reserved ∧ (t'.drawer d).incoming = (t.drawer d).incoming ∧
      (t'.drawer d).postedToday = (t.drawer d).postedToday ∧ (t'.drawer d).opening = (t.drawer d).opening ∧
      (t'.drawer d).state = (t.drawer d).state ∧ (t'.drawer d).physical = (t.drawer d).physical ∧
      (t'.drawer d).openings = (t.drawer d).openings) : ItemsPosted items s' t' := by
  intro d hd
  obtain ⟨hbook, hres, hinc, hposted, hopening, hstate, hphysical, hopenings⟩ := ht d
  rw [State.drawer_congr hs, hbook, hres, hinc, hposted, hopening, hstate, hphysical, hopenings]
  exact h d hd

/-- The releases are told by the drawers alone. -/
theorem ReservationsReleased.congr {items : List Item} {s s' t t' : State} (h : ReservationsReleased items s t)
    (hs : s'.drawers = s.drawers) (ht : t'.drawers = t.drawers) : ReservationsReleased items s' t' := by
  intro d
  rw [State.drawer_congr hs, State.drawer_congr ht]
  exact h d

theorem ReservationsMade.congr {items : List Item} {s s' t t' : State} (h : ReservationsMade items s t)
    (hs : s'.drawers = s.drawers) (ht : t'.drawers = t.drawers) : ReservationsMade items s' t' := by
  intro d
  rw [State.drawer_congr hs, State.drawer_congr ht]
  exact h d

end Sys2Proof.Machine
end

