-- ==== Sys2Proof/Proofs/WarmStarts.lean ====
section
/-! The warm start (R21, R66, R88, R113, R151, R178, R183, R199): what becomes of each entry, drawer and screen, and the
completion that may end it. -/

set_option Elab.async false

namespace Sys2Proof.Machine

/-! ### One entry at a warm start (R88) -/

namespace Entry

variable (e : Entry)

/-- The EXPIRED record that a warm start writes for an entry: one for each that it reverses. -/
def warmBody : Option Body :=
  if e.state = .waitingCentre ∧ e.req.snap.cls ≠ .inquiry then
    some (.expired e.req.pos e.req.teller e.req.snap.code e.req.cur e.req.amount e.tag e.req.account .restart)
  else none

/-- What a warm start leaves of an entry until its notice is queued. -/
def warmed : Option Entry :=
  match e.state with
  | .reversing => some e
  | .waitingCentre => if e.req.snap.cls = .inquiry then none else some (e.reversing .restart)
  | .waitingOverride => none

/-- The reservations that a warm start releases for an entry. -/
def warmItems : List Item :=
  match e.state with
  | .reversing => []
  | .waitingCentre => if e.req.snap.cls = .inquiry then [] else e.req.items
  | .waitingOverride => e.req.items

/-- The claims that a warm start releases for an entry. -/
def warmClaim : Nat :=
  match e.state with
  | .reversing => 0
  | .waitingCentre => if e.req.snap.cls = .inquiry then e.claim else 1
  | .waitingOverride => e.claim

/-- The notice that a warm start queues for an entry. -/
def warmNotice : Option UpFrame :=
  if e.state = .waitingCentre ∧ e.req.snap.cls ≠ .inquiry then some (.reversal e.tag .restart)
  else if e.state = .reversing then some (.reversal e.tag (e.reason.getD .timeout))
  else none

/-- The notice of a REVERSING entry (R77). -/
def notice : Option UpFrame :=
  if e.state = .reversing then some (.reversal e.tag (e.reason.getD .timeout)) else none

/-- What a warm start leaves of an entry has the notice that the start queues. -/
theorem warmed_notice : e.warmed.bind notice = e.warmNotice := by
  unfold warmed warmNotice notice
  cases hst : e.state with
  | reversing => simp [hst]
  | waitingCentre =>
    by_cases hcls : e.req.snap.cls = .inquiry
    · simp [hcls]
    · simp [hcls, reversing]
  | waitingOverride => simp

theorem warmed_reversing {f : Entry} (h : e.warmed = some f) : f.state = .reversing := by
  unfold warmed at h
  split at h
  · next hst => rwa [← Option.some.inj h]
  · split at h
    · cases h
    · rw [← Option.some.inj h]
      rfl
  · cases h

end Entry

theorem ReservationsReleased.nil (s : State) : ReservationsReleased [] s s := fun _ => ⟨rfl, fun _ _ => ⟨rfl, rfl⟩⟩

/-- Releasing two lists one after the other releases both. -/
theorem ReservationsReleased.trans {a b : List Item} {s t u : State} (h : ReservationsReleased a s t)
    (g : ReservationsReleased b t u) : ReservationsReleased (a ++ b) s u := by
  intro d
  obtain ⟨hrest, hcounts⟩ := h d
  obtain ⟨grest, gcounts⟩ := g d
  refine ⟨?_, fun c k => ?_⟩
  · rw [hrest] at grest
    exact grest
  · obtain ⟨hres, hinc⟩ := hcounts c k
    obtain ⟨gres, ginc⟩ := gcounts c k
    rw [gres, ginc, hres, hinc, itemSum_append, itemSum_append, Nat.sub_sub, Nat.sub_sub]
    exact ⟨rfl, rfl⟩

namespace State

variable {s t : State}

theorem warmEntry_of_none {i : Nat} (h : t.entry i = none) : t.warmEntry i = t := by
  rw [warmEntry, h]

/-- The four ways in which a warm start takes an entry: a REVERSING one is kept, an INQUIRY at the centre and a waiting
override are freed, and any other is reversed. -/
theorem warmEntry_cases {i : Nat} {e : Entry} (h : t.entry i = some e) :
    (e.state = .reversing ∧ t.warmEntry i = t) ∨
    (e.state = .waitingCentre ∧ e.req.snap.cls = .inquiry ∧ t.warmEntry i = (t.releaseClaim e.claim).freeEntry i) ∨
    (e.state = .waitingCentre ∧ e.req.snap.cls ≠ .inquiry ∧ t.warmEntry i = t.warmReverse i e) ∨
    (e.state = .waitingOverride ∧
      t.warmEntry i = ((t.releaseItems e.req.items).releaseClaim e.claim).freeEntry i) := by
  unfold warmEntry
  rw [h]
  dsimp only
  cases hst : e.state with
  | reversing => exact Or.inl ⟨rfl, rfl⟩
  | waitingCentre =>
    dsimp only
    by_cases hcls : e.req.snap.cls = .inquiry
    · exact Or.inr (Or.inl ⟨rfl, hcls, if_pos hcls⟩)
    · exact Or.inr (Or.inr (Or.inl ⟨rfl, hcls, if_neg hcls⟩))
  | waitingOverride => exact Or.inr (Or.inr (Or.inr ⟨rfl, rfl⟩))

theorem warmEntry_entry {i : Nat} {e : Entry} (h : t.entry i = some e) (hi : i < 32) (j : Nat) :
    (t.warmEntry i).entry j = if i = j then e.warmed else t.entry j := by
  have hset : ∀ (u : State) (x : Option Entry), u.entries = t.entries →
      (u.setEntry i x).entry j = if i = j then x else t.entry j := by
    intro u x hu
    rw [entry_setEntry, entry_congr hu]
    simp [hi]
  obtain ⟨hst, heq⟩ | ⟨hst, hcls, heq⟩ | ⟨hst, hcls, heq⟩ | ⟨hst, heq⟩ := warmEntry_cases h
  all_goals rw [heq, Entry.warmed, hst]
  · dsimp only
    split
    · next hij => exact hij ▸ h
    · rfl
  · dsimp only
    rw [if_pos hcls]
    exact hset _ _ rfl
  · dsimp only
    rw [if_neg hcls]
    exact hset _ _ (releaseItems_within t _ .entries (by decide))
  · exact hset _ _ (releaseItems_within t _ .entries (by decide))

theorem warmEntry_released {i : Nat} {e : Entry} (h : t.entry i = some e) :
    ReservationsReleased e.warmItems t (t.warmEntry i) := by
  obtain ⟨hst, heq⟩ | ⟨hst, hcls, heq⟩ | ⟨hst, hcls, heq⟩ | ⟨hst, heq⟩ := warmEntry_cases h
  all_goals rw [heq, Entry.warmItems, hst]
  · exact .nil t
  · dsimp only
    rw [if_pos hcls]
    exact (ReservationsReleased.nil t).congr rfl rfl
  · dsimp only
    rw [if_neg hcls]
    exact (t.releaseItems_released e.req.items).congr rfl rfl
  · exact (t.releaseItems_released e.req.items).congr rfl rfl

theorem warmEntry_journal {i : Nat} {e : Entry} (h : t.entry i = some e) : (t.warmEntry i).journal = { t.journal with
    records := t.journal.records ++ recordsFrom t.journal.records.length t.day.clock e.warmBody.toList
    claims := t.journal.claims - e.warmClaim } := by
  have hrelease := releaseItems_within t e.req.items
  have hjournal : (t.releaseItems e.req.items).journal = t.journal := hrelease .journal (by decide)
  have hday : (t.releaseItems e.req.items).day = t.day := hrelease .day (by decide)
  obtain ⟨hst, heq⟩ | ⟨hst, hcls, heq⟩ | ⟨hst, hcls, heq⟩ | ⟨hst, heq⟩ := warmEntry_cases h
  all_goals rw [heq, Entry.warmBody, Entry.warmClaim, hst]
  · simp [recordsFrom]
  · simp [hcls, recordsFrom, freeEntry, setEntry, releaseClaim, withJournal, withEntries]
  · dsimp only
    rw [if_neg hcls, if_pos ⟨rfl, hcls⟩]
    show ((((t.releaseItems e.req.items).releaseClaim 1).writeRecord (e.expiredBody .restart))).journal = _
    simp only [writeRecord, releaseClaim, withJournal, usedCount, hjournal, hday]
    rfl
  · simp [recordsFrom, freeEntry, setEntry, releaseClaim, withJournal, withEntries, hjournal]

/-- The entries of a list of places have been taken by the warm start: their records, claims and reservations. -/
structure Warmed (s t : State) (done : List Nat) : Prop where
  journal : t.journal = { s.journal with
    records := s.journal.records ++ recordsFrom s.journal.records.length s.day.clock
      (done.filterMap fun i => (s.entry i).bind Entry.warmBody)
    claims := s.journal.claims - (done.map fun i => ((s.entry i).map Entry.warmClaim).getD 0).sum }
  released : ReservationsReleased (done.flatMap fun i => ((s.entry i).map Entry.warmItems).getD []) s t
  entries : ∀ j, t.entry j = if j ∈ done then (s.entry j).bind Entry.warmed else s.entry j

theorem Warmed.nil (s : State) : Warmed s s [] := by
  refine ⟨?_, .nil s, fun j => by simp⟩
  simp [recordsFrom]

/-- A place that the run has not reached holds what it held. -/
theorem Warmed.step {done : List Nat} (h : Warmed s t done) (hday : t.day = s.day) {i : Nat} (hi : i < 32)
    (hnew : i ∉ done) : Warmed s (t.warmEntry i) (done ++ [i]) := by
  have hhere : t.entry i = s.entry i := by rw [h.entries, if_neg hnew]
  cases he : s.entry i with
  | none =>
    rw [warmEntry_of_none (hhere.trans he)]
    refine ⟨?_, ?_, fun j => ?_⟩
    · simpa [List.filterMap_append, he] using h.journal
    · simpa [he] using h.released
    · rw [h.entries]
      by_cases hj : j = i
      · subst hj
        simp [hnew, he]
      · simp [hj]
  | some e =>
    have hsome := hhere.trans he
    refine ⟨?_, ?_, fun j => ?_⟩
    · rw [warmEntry_journal hsome, h.journal, hday]
      simp only [List.filterMap_append, List.map_append, List.sum_append, recordsFrom_append, List.length_append,
        recordsFrom_length, List.append_assoc]
      cases hb : e.warmBody <;> simp [he, hb, Nat.sub_sub]
    · have hreleased := h.released.trans (warmEntry_released hsome)
      simpa [List.flatMap_append, he] using hreleased
    · rw [warmEntry_entry hsome hi, h.entries]
      by_cases hj : i = j
      · subst hj
        simp [he]
      · simp [hj, Ne.symm hj]

/-- The whole table. -/
theorem warmed_all : Warmed s ((List.range 32).foldl warmEntry s) (List.range 32) := by
  have hrun : ∀ (l done : List Nat) (t : State), (done ++ l).Nodup → (∀ i ∈ l, i < 32) → t.day = s.day → Warmed s t done →
      Warmed s (l.foldl warmEntry t) (done ++ l) := by
    intro l
    induction l with
    | nil => exact fun done t _ _ _ h => by simpa using h
    | cons i l ih =>
      intro done t hnodup hlt hday h
      have hnew : i ∉ done := fun hmem => (List.nodup_append.mp hnodup).2.2 i hmem i List.mem_cons_self rfl
      rw [List.foldl_cons, List.append_cons]
      exact ih (done ++ [i]) _ (by rwa [← List.append_cons]) (fun j hj => hlt j (List.mem_cons_of_mem i hj))
        ((warmEntry_within t i .day (by decide)).trans hday) (h.step hday (hlt i List.mem_cons_self) hnew)
  exact hrun (List.range 32) [] s (by simpa using List.nodup_range) (fun i hi => List.mem_range.mp hi) rfl (.nil s)

/-! ### The reversal notices (R77, R88) -/

/-- Frames queued on a link at once, with room for all: transmission begins if it may (R5). -/
def withFrames (p : Port) (frames : List UpFrame) : Port :=
  { p with queue := p.queue ++ frames, transmitting := p.transmitting || p.olrdy && !frames.isEmpty }

theorem withFrames_nil (p : Port) : withFrames p [] = p := by simp [withFrames]

theorem withFrames_concat (p : Port) (frames : List UpFrame) (f : UpFrame) :
    withFrames p (frames ++ [f]) = { withFrames p frames with
      queue := (withFrames p frames).queue ++ [f]
      transmitting := (withFrames p frames).transmitting || (withFrames p frames).olrdy } := by
  unfold withFrames
  cases p.transmitting <;> cases p.olrdy <;> simp

/-- The entries of a list of places have been taken by the offers of reversal notices. -/
structure Offered (s t : State) (done : List Nat) : Prop where
  port : t.port = withFrames s.port (done.filterMap fun i => (s.entry i).bind Entry.notice)
  entries : ∀ j, t.entry j = if j ∈ done then none else s.entry j

theorem Offered.nil (s : State) : Offered s s [] := ⟨(withFrames_nil _).symm, fun j => by simp⟩

theorem offerReversal_of_none {i : Nat} (h : t.entry i = none) : t.offerReversal i = t := by
  rw [offerReversal, h]

theorem offerReversal_of_room {i : Nat} {e : Entry} (h : t.entry i = some e) (hst : e.state = .reversing)
    (hroom : t.port.queue.length < 64) :
    t.offerReversal i = (t.withFrame (.reversal e.tag (e.reason.getD .timeout))).freeEntry i := by
  rw [offerReversal, h]
  dsimp only
  rw [if_pos ⟨hst, (hasRoom_iff t).mpr hroom⟩, enqueue_eq_withFrame]

theorem Offered.step {done : List Nat} (h : Offered s t done) {i : Nat} (hi : i < 32) (hnew : i ∉ done)
    (hroom : s.port.queue.length + done.length < 64) (hrev : ∀ e, s.entry i = some e → e.state = .reversing) :
    Offered s (t.offerReversal i) (done ++ [i]) := by
  have hhere : t.entry i = s.entry i := by rw [h.entries, if_neg hnew]
  cases he : s.entry i with
  | none =>
    rw [offerReversal_of_none (hhere.trans he)]
    refine ⟨?_, fun j => ?_⟩
    · simpa [List.filterMap_append, he] using h.port
    · rw [h.entries]
      by_cases hj : j = i
      · subst hj
        simp [he]
      · simp [hj]
  | some e =>
    have hlen : (done.filterMap fun i => (s.entry i).bind Entry.notice).length ≤ done.length := List.length_filterMap_le ..
    have hfree : t.port.queue.length < 64 := by
      rw [h.port]
      simp only [withFrames, List.length_append]
      omega
    rw [offerReversal_of_room (hhere.trans he) (hrev e he) hfree]
    refine ⟨?_, fun j => ?_⟩
    · rw [List.filterMap_append]
      simp only [List.filterMap_cons, he, Option.bind_some, Entry.notice, hrev e he, if_true, List.filterMap_nil]
      rw [withFrames_concat, ← h.port]
      rfl
    · have hset := entry_setEntry (t.withFrame (.reversal e.tag (e.reason.getD .timeout))) i j none
      refine hset.trans ?_
      rw [entry_congr (s := t) (t := t.withFrame (.reversal e.tag (e.reason.getD .timeout))) rfl, h.entries]
      by_cases hj : i = j
      · subst hj
        simp [hi]
      · simp [hj, Ne.symm hj]

theorem offered_all (hroom : s.port.queue.length + 32 ≤ 64) (hrev : ∀ i e, s.entry i = some e → e.state = .reversing) :
    Offered s ((List.range 32).foldl offerReversal s) (List.range 32) := by
  have hrun : ∀ (l done : List Nat) (t : State), (done ++ l).Nodup → (∀ i ∈ l, i < 32) → done.length + l.length ≤ 32 →
      Offered s t done → Offered s (l.foldl offerReversal t) (done ++ l) := by
    intro l
    induction l with
    | nil => exact fun done t _ _ _ h => by simpa using h
    | cons i l ih =>
      intro done t hnodup hlt hlen h
      have hnew : i ∉ done := fun hmem => (List.nodup_append.mp hnodup).2.2 i hmem i List.mem_cons_self rfl
      rw [List.length_cons] at hlen
      rw [List.foldl_cons, List.append_cons]
      exact ih (done ++ [i]) _ (by rwa [← List.append_cons]) (fun j hj => hlt j (List.mem_cons_of_mem i hj))
        (by simp only [List.length_append, List.length_singleton]; omega)
        (h.step (hlt i List.mem_cons_self) hnew (by omega) (hrev i))
  exact hrun (List.range 32) [] s (by simpa using List.nodup_range) (fun i hi => List.mem_range.mp hi) (by simp) (.nil s)

/-! ### The phases of the start -/

/-- The RESTART record, where one is written (R66, R177). -/
def restartBodies (s : State) : List Body :=
  if (s.day.state = .opened ∨ s.day.state = .cutoff) ∧ 1 ≤ s.generalSpace ∧ s.journal.closed = false then [.restart] else []

/-- The EXPIRED records of a warm start, in index order (R88). -/
def expiredBodies (s : State) : List Body := (List.range 32).filterMap fun i => (s.entry i).bind Entry.warmBody

/-- The REVERSAL notices of a warm start, in index order (R88). -/
def reversalNotices (s : State) : List UpFrame := (List.range 32).filterMap fun i => (s.entry i).bind Entry.warmNotice

/-- The state once the units, the drawers and the RESTART record are done. -/
def warmBegun (s : State) (straps : Nat) (retv : Bool) : State := ((s.warmUnits straps retv).warmDrawers).restartRecord

/-- The state of a warm start before its completion test. -/
def warmKept (s : State) (straps : Nat) (retv : Bool) : State :=
  (((s.warmBegun straps retv).warmEntries).warmDay).warmScreens

theorem warmStart_eq (straps : Nat) (retv : Bool) : s.warmStart straps retv = (s.warmKept straps retv).warmCompletion := rfl

variable (s) (straps : Nat) (retv : Bool)

theorem warmBegun_within : Within [.drawers, .journal, .records] (s.warmUnits straps retv) (s.warmBegun straps retv) :=
  (restartRecord_within _).after ((warmDrawers_within _).mono)

theorem warmBegun_journal : (s.warmBegun straps retv).journal = { s.journal with
    records := s.journal.records ++ recordsFrom s.journal.records.length s.day.clock s.restartBodies } := by
  have hdrawers := (s.warmUnits straps retv).warmDrawers_within
  have hjournal : (s.warmUnits straps retv).warmDrawers.journal = s.journal := hdrawers .journal (by decide)
  have hday : (s.warmUnits straps retv).warmDrawers.day = s.day := hdrawers .day (by decide)
  have hroom : (s.warmUnits straps retv).warmDrawers.generalRoom = true ↔ 1 ≤ s.generalSpace ∧ s.journal.closed = false := by
    unfold generalRoom generalSpace usedCount
    rw [hjournal]
    simp [and_comm]
  unfold warmBegun restartRecord restartBodies
  by_cases h : (s.day.state = .opened ∨ s.day.state = .cutoff) ∧ 1 ≤ s.generalSpace ∧ s.journal.closed = false
  · rw [if_pos h, if_pos (by rw [hday]; exact ⟨h.1, hroom.mpr h.2⟩)]
    simp only [writeRecord, withJournal, usedCount, hjournal, hday]
    rfl
  · rw [if_neg h, if_neg (by rw [hday]; exact fun hc => h ⟨hc.1, hroom.mp hc.2⟩), hjournal]
    simp [recordsFrom]

theorem warmBegun_entry (i : Nat) : (s.warmBegun straps retv).entry i = s.entry i :=
  entry_congr (s.warmBegun_within straps retv .entries (by decide)) i

theorem warmBegun_drawer {d : Nat} (hd : d ≤ 24) : (s.warmBegun straps retv).drawer d = { s.drawer d with
    physical := if s.tables.serving d then .unknown else .closed, openAlarm := none } := by
  have hplaces := foldl_places (fun t q => t.drawer q) warmDrawer
    (fun t q x => ({ x with physical := if t.tables.serving q then .unknown else .closed, openAlarm := none } : Drawer))
    (fun t i j hij => (drawer_setDrawer ..).trans (if_neg fun h => hij h.1)) (fun _ _ _ _ => rfl)
    (fun t i hi => (drawer_setDrawer ..).trans (if_pos ⟨rfl, Nat.lt_succ_of_le (mem_allDrawers.mp hi)⟩)) allDrawers_nodup
    (s.warmUnits straps retv) d
  rw [if_pos (mem_allDrawers.mpr hd)] at hplaces
  exact (drawer_congr (restartRecord_within _ .drawers (by decide)) d).trans hplaces

/-- The table once the warm start has taken the entries, before their notices are offered. -/
def warmTable (s : State) (straps : Nat) (retv : Bool) : State :=
  (List.range 32).foldl warmEntry (s.warmBegun straps retv)

theorem warmTable_warmed : Warmed (s.warmBegun straps retv) (s.warmTable straps retv) (List.range 32) := warmed_all

theorem warmTable_within : Within [.drawers, .screens, .journal, .records, .entries] (s.warmBegun straps retv)
    (s.warmTable straps retv) := Within.fold _ (fun t i => warmEntry_within t i) _ _

theorem warmTable_entry (i : Nat) : (s.warmTable straps retv).entry i = (s.entry i).bind Entry.warmed := by
  rw [(s.warmTable_warmed straps retv).entries, warmBegun_entry]
  split
  · rfl
  · next h => simp [s.entry_outside (Nat.le_of_not_lt fun hi => h (List.mem_range.mpr hi))]

theorem warmTable_port : (s.warmTable straps retv).port = (s.warmUnits straps retv).port :=
  (s.warmTable_within straps retv .port (by decide)).trans (s.warmBegun_within straps retv .port (by decide))

theorem warmEntries_offered : Offered (s.warmTable straps retv) (s.warmBegun straps retv).warmEntries (List.range 32) := by
  refine offered_all ?_ fun i e he => ?_
  · rw [warmTable_port]
    show 0 + 32 ≤ 64
    decide
  · rw [warmTable_entry, Option.bind_eq_some_iff] at he
    obtain ⟨f, -, hf⟩ := he
    exact f.warmed_reversing hf

theorem warmEntries_entries : (s.warmBegun straps retv).warmEntries.entries = Vector.replicate 32 none := by
  refine Vector.ext fun i hi => ?_
  have hnone := (s.warmEntries_offered straps retv).entries i
  rw [if_pos (List.mem_range.mpr hi)] at hnone
  rw [Vector.getElem_replicate, ← hnone]
  simp [entry, rd, hi]

theorem warmEntries_port : (s.warmBegun straps retv).warmEntries.port =
    withFrames (s.warmUnits straps retv).port s.reversalNotices := by
  have hnotices : ((List.range 32).filterMap fun i => ((s.warmTable straps retv).entry i).bind Entry.notice) =
      s.reversalNotices := by
    refine List.filterMap_congr fun i _ => ?_
    rw [warmTable_entry]
    cases s.entry i with
    | none => rfl
    | some e => exact e.warmed_notice
  rw [(s.warmEntries_offered straps retv).port, warmTable_port, hnotices]

/-- The offers of the notices change the port and the table alone. -/
theorem warmOffers_within : Within [.port, .entries] (s.warmTable straps retv) (s.warmBegun straps retv).warmEntries :=
  Within.fold _ (fun t i => offerReversal_within t i) _ _

theorem warmEntries_journal : (s.warmBegun straps retv).warmEntries.journal = { s.journal with
    records := s.journal.records ++
      recordsFrom s.journal.records.length s.day.clock (s.restartBodies ++ s.expiredBodies)
    claims := s.journal.claims - ((List.range 32).map fun i => ((s.entry i).map Entry.warmClaim).getD 0).sum } := by
  have hday : (s.warmBegun straps retv).day = s.day := s.warmBegun_within straps retv .day (by decide)
  rw [s.warmOffers_within straps retv .journal (by decide), (s.warmTable_warmed straps retv).journal, hday,
    warmBegun_journal]
  simp only [warmBegun_entry, List.length_append, recordsFrom_length, recordsFrom_append, List.append_assoc]
  rfl

theorem warmEntries_released : ReservationsReleased
    ((List.range 32).flatMap fun i => ((s.entry i).map Entry.warmItems).getD []) (s.warmBegun straps retv)
    (s.warmBegun straps retv).warmEntries := by
  have hreleased := (s.warmTable_warmed straps retv).released
  simp only [warmBegun_entry] at hreleased
  exact hreleased.congr rfl (s.warmOffers_within straps retv .drawers (by decide))

/-! ### The day record and the screens (R151, R199) -/

/-- The notice of a batch that the start holds. -/
def heldNotice (s : State) : List UpFrame :=
  if s.day.state = .sending ∨ s.day.state = .held then [.alarm .batchHeld 0] else []

theorem alarm_of_room (h : t.port.queue.length < 64) (k : AlarmKind) (d : Nat) :
    t.alarm k d = t.withFrame (.alarm k d) := by
  rw [alarm, offerNotice, if_pos ((hasRoom_iff t).mpr h), enqueue_eq_withFrame]

theorem warmDay_eq (h : t.port.queue.length < 64) : t.warmDay = { t with
    port := withFrames t.port t.heldNotice
    day := { t.day with
      state := if t.day.state = .sending ∨ t.day.state = .held then .held else t.day.state
      sent := if t.day.state = .sending ∨ t.day.state = .held then t.day.acked else t.day.sent
      expiries := 0, ackTimer := none } } := by
  unfold warmDay heldNotice
  by_cases hst : t.day.state = .sending ∨ t.day.state = .held
  · rw [if_pos hst, if_pos hst, if_pos hst, if_pos hst]
    refine (alarm_of_room (t := ((t.withDay { t.day with expiries := 0, ackTimer := none }).withDay
      { t.day with expiries := 0, ackTimer := none, state := .held, sent := t.day.acked })) h .batchHeld 0).trans ?_
    simp only [withFrames, List.isEmpty_cons, Bool.not_false, Bool.and_true]
    rfl
  · rw [if_neg hst, if_neg hst, if_neg hst, if_neg hst, withFrames_nil]
    rfl

theorem warmScreens_screen {p : Nat} (hp : 1 ≤ p ∧ p ≤ 24) :
    t.warmScreens.screen p = Screen.start (t.startForm p) (t.alertNow p) := by
  have hplaces := foldl_places (fun t q => t.screen q)
    (fun t q => t.setScreen q (Screen.start (t.startForm q) (t.alertNow q)))
    (fun t q _ => Screen.start (t.startForm q) (t.alertNow q))
    (fun t i j hij => (screen_setScreen ..).trans (if_neg fun h => hij h.1)) (fun _ _ _ _ => rfl)
    (fun t i hi => (screen_setScreen ..).trans (if_pos ⟨rfl, mem_allPositions.mp hi⟩)) allPositions_nodup t p
  rwa [if_pos (mem_allPositions.mpr hp)] at hplaces

/-! ### The state before the completion test -/

theorem reversalNotices_length : s.reversalNotices.length ≤ 32 := by
  exact (List.length_filterMap_le _ _).trans (le_of_eq List.length_range)

theorem warmEntries_day : (s.warmBegun straps retv).warmEntries.day = s.day :=
  ((s.warmOffers_within straps retv .day (by decide)).trans (s.warmTable_within straps retv .day (by decide))).trans
    (s.warmBegun_within straps retv .day (by decide))

theorem warmEntries_free : (s.warmBegun straps retv).warmEntries.port.queue.length < 64 := by
  have hlen := s.reversalNotices_length
  rw [warmEntries_port]
  show (([] : List UpFrame) ++ s.reversalNotices).length < 64
  rw [List.nil_append]
  omega

/-- The frames that a warm start queues before its completion test. -/
def warmQueue (s : State) : List UpFrame := s.reversalNotices ++ s.heldNotice

theorem withFrames_append (p : Port) (a b : List UpFrame) : withFrames (withFrames p a) b = withFrames p (a ++ b) := by
  unfold withFrames
  cases p.transmitting <;> cases p.olrdy <;> cases a <;> simp

theorem warmKept_port : (s.warmKept straps retv).port = withFrames (s.warmUnits straps retv).port s.warmQueue := by
  have hheld : (s.warmBegun straps retv).warmEntries.heldNotice = s.heldNotice := by rw [heldNotice, warmEntries_day]; rfl
  have hscreens : (s.warmKept straps retv).port = (s.warmBegun straps retv).warmEntries.warmDay.port :=
    warmScreens_within _ .port (by decide)
  rw [hscreens, warmDay_eq (s.warmEntries_free straps retv), hheld]
  dsimp only
  rw [warmEntries_port, withFrames_append]
  rfl

theorem warmKept_day : (s.warmKept straps retv).day = { s.day with
    state := if s.day.state = .sending ∨ s.day.state = .held then .held else s.day.state
    sent := if s.day.state = .sending ∨ s.day.state = .held then s.day.acked else s.day.sent
    expiries := 0, ackTimer := none } := by
  have hscreens : (s.warmKept straps retv).day = (s.warmBegun straps retv).warmEntries.warmDay.day :=
    warmScreens_within _ .day (by decide)
  rw [hscreens, warmDay_eq (s.warmEntries_free straps retv)]
  dsimp only
  rw [warmEntries_day]

/-- The phases after the units of the part. -/
theorem warmKept_within : Within [.drawers, .journal, .records, .port, .entries, .day, .dayState, .screens] (s.warmUnits straps retv)
    (s.warmKept straps retv) := by
  have hcounters : (s.warmBegun straps retv).warmEntries.warmDay.counters = (s.warmBegun straps retv).warmEntries.counters := by
    rw [warmDay_eq (s.warmEntries_free straps retv)]
  have hday : Within [.day, .dayState, .port] (s.warmBegun straps retv).warmEntries (s.warmBegun straps retv).warmEntries.warmDay :=
    Within.restore .counters (warmDay_within _).mono hcounters
  exact (warmScreens_within _).after (hday.after ((warmEntries_within _).after ((s.warmBegun_within straps retv).mono)))

theorem warmKept_entries : (s.warmKept straps retv).entries = Vector.replicate 32 none := by
  have hlater : (s.warmKept straps retv).entries = (s.warmBegun straps retv).warmEntries.entries :=
    (warmScreens_within _ .entries (by decide)).trans (warmDay_within _ .entries (by decide))
  rw [hlater, warmEntries_entries]

theorem warmKept_journal : (s.warmKept straps retv).journal = { s.journal with
    records := s.journal.records ++
      recordsFrom s.journal.records.length s.day.clock (s.restartBodies ++ s.expiredBodies)
    claims := s.journal.claims - ((List.range 32).map fun i => ((s.entry i).map Entry.warmClaim).getD 0).sum } := by
  have hlater : (s.warmKept straps retv).journal = (s.warmBegun straps retv).warmEntries.journal :=
    (warmScreens_within _ .journal (by decide)).trans (warmDay_within _ .journal (by decide))
  rw [hlater, warmEntries_journal]

theorem warmKept_released : ReservationsReleased
    ((List.range 32).flatMap fun i => ((s.entry i).map Entry.warmItems).getD []) (s.warmBegun straps retv)
    (s.warmKept straps retv) :=
  (s.warmEntries_released straps retv).congr rfl
    ((warmScreens_within _ .drawers (by decide)).trans (warmDay_within _ .drawers (by decide)))

theorem warmKept_drawer {d : Nat} (hd : d ≤ 24) : (s.warmKept straps retv).drawer d = { s.drawer d with
    reserved := ((s.warmKept straps retv).drawer d).reserved, incoming := ((s.warmKept straps retv).drawer d).incoming
    physical := if s.tables.serving d then .unknown else .closed, openAlarm := none } := by
  obtain ⟨hrest, _⟩ := s.warmKept_released straps retv d
  rw [warmBegun_drawer s straps retv hd] at hrest
  exact hrest

theorem warmKept_screen {p : Nat} (hp : 1 ≤ p ∧ p ≤ 24) : (s.warmKept straps retv).screen p = {
    form := ((s.tables.position p).map (·.defaultForm)).getD 0
    alert := (s.drawer (s.tables.ownDrawer p)).ceiling || (s.drawer (s.tables.ownDrawer p)).openLong ||
      (s.drawer (s.tables.ownDrawer p)).forced
    override := false, dirty := [], urgent := false, clearPending := false, blankKnown := [], view := View.empty
    last := none } := by
  have hlast := warmScreens_within ((s.warmBegun straps retv).warmEntries.warmDay)
  have htables : ((s.warmBegun straps retv).warmEntries.warmDay).tables = s.tables :=
    (hlast .tables (by decide)).symm.trans (s.warmKept_within straps retv .tables (by decide))
  have hown : s.tables.ownDrawer p ≤ 24 := by
    unfold Tables.ownDrawer
    split <;> omega
  have hdrawer := (drawer_congr (hlast .drawers (by decide)) (s.tables.ownDrawer p)).symm.trans
    (s.warmKept_drawer straps retv hown)
  have halert : ((s.warmBegun straps retv).warmEntries.warmDay).alertNow p = (s.drawer (s.tables.ownDrawer p)).anyAlert := by
    rw [alertNow, htables, hdrawer]
    simp only [Drawer.anyAlert]
  refine (warmScreens_screen hp).trans ?_
  rw [startForm, htables, halert]
  rfl

/-- A warm start before its completion test, field by field. -/
theorem warmKept_eq : s.warmKept straps retv = { s.warmUnits straps retv with
    port := withFrames (s.warmUnits straps retv).port s.warmQueue
    entries := Vector.replicate 32 none
    drawers := (s.warmKept straps retv).drawers
    screens := (s.warmKept straps retv).screens
    journal := { s.journal with
      records := s.journal.records ++
        recordsFrom s.journal.records.length s.day.clock (s.restartBodies ++ s.expiredBodies)
      claims := (s.warmKept straps retv).journal.claims }
    day := { s.day with
      state := if s.day.state = .sending ∨ s.day.state = .held then .held else s.day.state
      sent := if s.day.state = .sending ∨ s.day.state = .held then s.day.acked else s.day.sent
      expiries := 0, ackTimer := none } } := by
  have hjournal : ({ s.journal with
      records := s.journal.records ++
        recordsFrom s.journal.records.length s.day.clock (s.restartBodies ++ s.expiredBodies)
      claims := (s.warmKept straps retv).journal.claims } : Journal) = (s.warmKept straps retv).journal := by
    rw [warmKept_journal]
  rw [hjournal, ← warmKept_port, ← warmKept_day, ← s.warmKept_entries straps retv]
  exact (s.warmKept_within straps retv).eq_merge

end State

end Sys2Proof.Machine

namespace Sys2Proof.Proofs

open Sys2Proof.Machine Sys2Proof.Machine.State

theorem warmKept_claims {s : State} (h : s.JournalSound) (straps : Nat) (retv : Bool) :
    (s.warmKept straps retv).journal.claims = 0 := by
  have hsame : ((List.range 32).map fun i => ((s.entry i).map Entry.warmClaim).getD 0).sum = s.journal.claims := by
    rw [h.claims]
    refine congrArg List.sum (List.map_congr_left fun i _ => ?_)
    cases he : s.entry i with
    | none => rfl
    | some e =>
      obtain ⟨hdue, _⟩ := h.held i e he
      show e.warmClaim = e.claim
      unfold Entry.warmClaim
      rw [hdue, Entry.claimDue]
      cases hst : e.state with
      | reversing => rfl
      | waitingOverride => rfl
      | waitingCentre =>
        dsimp only
        split <;> rfl
  rw [warmKept_journal, hsame, Nat.sub_self]

theorem itemSum_flatMap {α : Type} (l : List α) (f : α → List Item) (out : Bool) (d c k : Nat) :
    itemSum (l.flatMap f) out d c k = (l.map fun a => itemSum (f a) out d c k).sum := by
  induction l with
  | nil => rfl
  | cons a l ih => rw [List.flatMap_cons, itemSum_append, ih, List.map_cons, List.sum_cons]

theorem warmKept_unreserved {s : State} (h : s.ReservationsSound) (straps : Nat) (retv : Bool) {d k n : Nat} (hd : d ≤ 24)
    (hk : k < 4) (h1 : 1 ≤ n) (h12 : n ≤ 12) :
    countAt ((s.warmKept straps retv).drawer d).reserved k n = 0 ∧
    countAt ((s.warmKept straps retv).drawer d).incoming k n = 0 := by
  have hsum : ∀ out, itemSum ((List.range 32).flatMap fun i => ((s.entry i).map Entry.warmItems).getD []) out d k n =
      s.overEntries (fun e => itemSum e.req.items out d k n) := by
    intro out
    rw [itemSum_flatMap]
    refine congrArg List.sum (List.map_congr_left fun i _ => ?_)
    cases he : s.entry i with
    | none => rfl
    | some e =>
      show itemSum e.warmItems out d k n = itemSum e.req.items out d k n
      unfold Entry.warmItems
      cases hst : e.state with
      | reversing => rw [h.unreserved i e he (Or.inl hst)]
      | waitingOverride => rfl
      | waitingCentre =>
        dsimp only
        split
        · next hcls => rw [h.unreserved i e he (Or.inr hcls)]
        · rfl
  obtain ⟨_, hcounts⟩ := s.warmKept_released straps retv d
  obtain ⟨hres, hinc⟩ := hcounts k n
  obtain ⟨sres, sinc⟩ := h.counts d k n hd hk h1 h12
  rw [hres, hinc, warmBegun_drawer s straps retv hd, hsum, hsum, sres, sinc]
  exact ⟨Nat.sub_self _, Nat.sub_self _⟩

/-- The SETTLEMENT record that a completing warm start writes. -/
def startSettlement (u : State) : Record :=
  { seq := u.journal.records.length + 1, clock := u.day.clock
    body := .settlement ((List.range 4).map u.figures) (u.journal.records.length + 1) }

/-- The state of a completing warm start once its journal is closed. -/
theorem warmClosed_eq (u : State) : u.clearReleases.closeJournal (u.clearReleases.writeRecord u.clearReleases.settlementBody) =
    { u with
      drawers := u.clearReleases.drawers
      journal := { u.journal with records := u.journal.records ++ [startSettlement u], closed := true }
      day := { u.day with
        settlement := (List.range 4).map u.figures, lastSeq := u.journal.records.length + 1
        blocks := pack (u.journal.records ++ [startSettlement u]) } } := by
  obtain ⟨drawers, hclear⟩ : ∃ drawers, u.clearReleases = { u with drawers := drawers } :=
    ⟨_, (clearReleases_within u).eq_merge⟩
  have hfigures : (List.range 4).map u.clearReleases.figures = (List.range 4).map u.figures :=
    List.map_congr_left fun c _ => clearReleases_figures c
  rw [closeJournal, settlementBody, hfigures, hclear]
  rfl

/-- Settles O5: the phases of the start in their order, and the completion that its test may end in. -/
theorem warmStart : Obligations.WarmStart := by
  unfold Obligations.WarmStart
  intro s straps tag retv c hc held restart expired notices queue
  have htaken : exec c s = .next (s.warmStart straps retv) := by
    obtain ⟨rfl, rfl⟩ | ⟨rfl, rfl⟩ := hc
    · show Host.Outcome.next (s.powerOn straps true) = _
      rw [powerOn, if_pos rfl]
    · show Host.Outcome.next (s.restart tag [2] straps) = _
      rw [State.restart, if_neg (by decide), if_pos (by decide)]
  refine ⟨s.warmKept straps retv, ?_, fun d hd => s.warmKept_drawer straps retv hd,
    fun p h1 h24 => s.warmKept_screen straps retv ⟨h1, h24⟩, fun h => warmKept_claims h straps retv,
    fun h d k n hd hk h1 h12 => warmKept_unreserved h straps retv hd hk h1 h12, fun hstays => ?_, fun hwindow hcut hcan => ?_⟩
  · have heq := s.warmKept_eq straps retv
    generalize s.warmKept straps retv = u at heq ⊢
    exact heq
  · rw [htaken, warmStart_eq]
    refine congrArg Host.Outcome.next (if_neg fun h => hstays ⟨?_, h.2⟩)
    obtain ⟨hst, _⟩ := h
    rw [warmKept_day] at hst
    by_cases hheld : s.day.state = .sending ∨ s.day.state = .held
    · simp [hheld] at hst
    · simpa [hheld] using hst
  · have hstate : (s.warmKept straps retv).day.state = .cutoff := by
      rw [warmKept_day]
      simp [hcut]
    have hcomplete : exec c s = .next ((s.warmKept straps retv).clearReleases.closeJournal
        ((s.warmKept straps retv).clearReleases.writeRecord (s.warmKept straps retv).clearReleases.settlementBody)).startSending := by
      rw [htaken, warmStart_eq, warmCompletion, if_pos ⟨hstate, hcan⟩]
    have hday := s.warmKept_day straps retv
    have hport := s.warmKept_port straps retv
    have htables : (s.warmKept straps retv).tables = s.tables := s.warmKept_within straps retv .tables (by decide)
    have hclean := hwindow.unsettled (Or.inr (Or.inr hcut))
    have hsh := hwindow.sentHighest
    have has := hwindow.ackedSent
    have hlen := s.reversalNotices_length
    have hheld : s.heldNotice = [] := if_neg (by simp [hcut])
    have hqueue : (s.warmKept straps retv).port.queue = s.reversalNotices := by
      rw [hport, warmQueue, hheld, List.append_nil]
      rfl
    have hruns : ((s.warmKept straps retv).port.transmitting || (s.warmKept straps retv).port.olrdy) = s.port.olrdy := by
      rw [hport]
      show (false || s.port.olrdy && !s.warmQueue.isEmpty || s.port.olrdy) = s.port.olrdy
      cases s.port.olrdy <;> simp
    have hclock : (s.warmKept straps retv).day.clock = s.day.clock := by rw [hday]
    have hdate : (s.warmKept straps retv).day.date = s.day.date := by rw [hday]
    have hmarks := startSending_onlyMarks (s := (s.warmKept straps retv).clearReleases.closeJournal
        ((s.warmKept straps retv).clearReleases.writeRecord (s.warmKept straps retv).clearReleases.settlementBody))
    have hcleared := fun d hd => clearReleases_drawer (s := s.warmKept straps retv) (d := d) hd
    generalize s.warmKept straps retv = u at *
    rw [warmClosed_eq] at hcomplete hmarks
    generalize hz : ({ u with
      drawers := u.clearReleases.drawers
      journal := { u.journal with records := u.journal.records ++ [startSettlement u], closed := true }
      day := { u.day with
        settlement := (List.range 4).map u.figures, lastSeq := u.journal.records.length + 1
        blocks := pack (u.journal.records ++ [startSettlement u]) } } : State) = z at hcomplete hmarks
    have hsend := startSending_eq (s := z) (by rw [← hz]; show u.port.queue.length + 5 ≤ 64; rw [hqueue]; omega)
      (by rw [← hz]) (by rw [← hz]; simp) (by rw [← hz, hday]; show s.day.acked = 0; omega)
      (by rw [← hz, hday]; simp only [hcut]; simp; omega) (by rw [← hz, hday]; exact hclean)
    have hack : u.day.ackTimer = none := by rw [hday]
    refine ⟨z.startSending, hcomplete, ?_⟩
    intro figures last records total
    have hrecords : u.journal.records ++ [startSettlement u] = records := by rw [startSettlement, hclock]
    have hdrawers : z.startSending.drawers = z.drawers := by rw [hsend]
    refine ⟨hmarks.congr (by rw [← hz]) rfl, fun d hd => ?_, ?_⟩
    · exact (drawer_congr (hdrawers.trans (by rw [← hz])) d).trans (hcleared d hd)
    · refine hsend.trans ?_
      rw [hdrawers]
      generalize z.startSending.screens = screens
      subst hz
      dsimp only
      rw [hrecords, hruns, hdate, hack, htables]
      rfl

end Sys2Proof.Proofs
end

