-- ==== Sys2Proof/Proofs/ScreenFacts.lean ====
section
/-! What each change of a screen leaves of its form, its view and its last outcome (R130, R137, R143), and which reports do
nothing to a screen but mark rows or test its conditions. -/

set_option Elab.async false

namespace Sys2Proof.Machine

namespace Screen

variable {t : Tables} {sc : Screen}

@[simp] theorem settle_form : (sc.settle t).form = sc.form := by rw [settle_eq]

@[simp] theorem mark_form (touched : Source → Bool) : (sc.mark t touched).form = sc.form := rfl
@[simp] theorem mark_view (touched : Source → Bool) : (sc.mark t touched).view = sc.view := rfl
@[simp] theorem mark_last (touched : Source → Bool) : (sc.mark t touched).last = sc.last := rfl

@[simp] theorem setForm_form (f : Nat) : (sc.setForm f).form = f := by
  unfold setForm
  split
  · next h => exact h
  · rfl

@[simp] theorem setForm_view (f : Nat) : (sc.setForm f).view = sc.view := by
  unfold setForm
  split <;> rfl

@[simp] theorem setForm_last (f : Nat) : (sc.setForm f).last = sc.last := by
  unfold setForm
  split <;> rfl

@[simp] theorem takeOutcome_form (o : Shown) : (sc.takeOutcome t o).form = sc.form := rfl

@[simp] theorem takeBalance_view (b : Option Int) : (sc.takeBalance t b).view = { sc.view with balance := b } := by
  unfold takeBalance
  dsimp only
  split <;> rfl

@[simp] theorem takeBalance_form (b : Option Int) : (sc.takeBalance t b).form = sc.form := by
  unfold takeBalance
  dsimp only
  split <;> rfl

@[simp] theorem takeBalance_last (b : Option Int) : (sc.takeBalance t b).last = sc.last := by
  unfold takeBalance
  dsimp only
  split <;> rfl

/-- The form that an answer names, or none: KEEP leaves the form current. -/
def takeAnswerForm (form : Option Nat) (sc : Screen) : Screen :=
  match form with
  | some f => sc.setForm f
  | none => sc

@[simp] theorem takeAnswerForm_form (form : Option Nat) : (sc.takeAnswerForm form).form = form.getD sc.form := by
  cases form with
  | none => rfl
  | some f => exact setForm_form f

@[simp] theorem takeAnswerForm_view (form : Option Nat) : (sc.takeAnswerForm form).view = sc.view := by
  cases form with
  | none => rfl
  | some f => exact setForm_view f

@[simp] theorem takeAnswerForm_last (form : Option Nat) : (sc.takeAnswerForm form).last = sc.last := by
  cases form with
  | none => rfl
  | some f => exact setForm_last f

end Screen

/-- A screen of t shows what it showed in s wherever its dirty rows were only added to. -/
theorem ScreensKeep.showsAsBefore {s t : State} (h : ScreensKeep s t) (p : Nat) : ShowsAsBefore s t p :=
  ⟨(h p).form, (h p).view, (h p).last⟩

namespace State

variable (s : State)

/-! ### Reports that mark rows or test conditions -/

theorem countReport_onlyMarks (d c : Nat) : OnlyMarks s (s.countReport d c) := s.touch_onlyMarks _ _

theorem itemReports_onlyMarks (items : List Item) : OnlyMarks s (s.itemReports items) := by
  induction items generalizing s with
  | nil => exact .refl s
  | cons i items ih => exact (s.countReport_onlyMarks i.drawer i.cur).trans (ih _)

theorem releaseItems_onlyMarks (items : List Item) : OnlyMarks s (s.releaseItems items) :=
  ((s.eachItem items Drawer.release).itemReports_onlyMarks _).congr
    (eachItem_within s items Drawer.release .screens (by decide)).symm rfl

theorem reserveItems_onlyMarks (items : List Item) : OnlyMarks s (s.reserveItems items) :=
  ((s.eachItem items Drawer.reserve).itemReports_onlyMarks _).congr
    (eachItem_within s items Drawer.reserve .screens (by decide)).symm rfl

/-- A change made on one screen keeps the screens when it keeps that one. -/
theorem onScreen_keeps (p : Nat) {f : Tables → Screen → Screen} (h : (s.screen p).Keeps (f s.tables (s.screen p))) :
    ScreensKeep s (s.onScreen p f) := by
  intro q
  unfold onScreen
  rw [screen_setScreen]
  split
  · next hq =>
    obtain ⟨rfl, _⟩ := hq
    exact h
  · exact .refl _

theorem reevaluate_keeps (p : Nat) : ScreensKeep s (s.reevaluate p) := s.onScreen_keeps p (Screen.keeps_setConditions ..)

theorem reevaluateAll_keeps (ps : List Nat) : ScreensKeep s (s.reevaluateAll ps) := by
  induction ps generalizing s with
  | nil => exact .refl s
  | cons p ps ih => exact (s.reevaluate_keeps p).trans (ih _)

theorem alertReport_keeps (d : Nat) : ScreensKeep s (s.alertReport d) := s.reevaluateAll_keeps _

theorem setOverrides_keeps (l : List Nat) : ScreensKeep s (s.setOverrides l) := by
  unfold setOverrides
  split
  · exact .refl s
  · exact ((s.withOverrides l).reevaluateAll_keeps allPositions).trans (touch_onlyMarks _ _ _).keeps |>.congr rfl rfl

/-- The list itself becomes what it is set to. -/
theorem setOverrides_overrides (l : List Nat) : (s.setOverrides l).overrides = l := by
  unfold setOverrides
  split
  · next h => exact h
  · exact (touch_within _ _ _ .overrides (by decide)).trans (reevaluateAll_within _ _ .overrides (by decide))

theorem showAt_keepsOthers {p q : Nat} (h : q ≠ p) (o : Shown) : ShowsAsBefore s (s.showAt p o) q := by
  unfold ShowsAsBefore
  rw [screen_showAt_other s h]
  exact ⟨rfl, rfl, rfl⟩

end State

/-- What is shown is told by the screens alone. -/
theorem Shows.congr {t u : State} {p : Nat} {o : Shown} (h : Shows t p o) (hu : u.screens = t.screens) : Shows u p o := by
  unfold Shows
  rw [State.screen_congr hu]
  exact h

theorem ShowsAsBefore.trans {s t u : State} {p : Nat} (h : ShowsAsBefore s t p) (g : ShowsAsBefore t u p) :
    ShowsAsBefore s u p := by
  obtain ⟨hf, hv, hl⟩ := h
  obtain ⟨gf, gv, gl⟩ := g
  exact ⟨gf.trans hf, gv.trans hv, gl.trans hl⟩

theorem ShowsAsBefore.congr {s s' t t' : State} {p : Nat} (h : ShowsAsBefore s t p) (hs : s'.screens = s.screens)
    (ht : t'.screens = t.screens) : ShowsAsBefore s' t' p := by
  unfold ShowsAsBefore
  rw [State.screen_congr hs, State.screen_congr ht]
  exact h

end Sys2Proof.Machine
end

