-- ==== Sys2Proof/Proofs/EntryEvents.lean ====
section
/-! The ends of an entry: a freed slot, a declined answer, an expiry, a cancel and a refusal (R72, R74 to R78, R80, R83,
R84). -/

set_option Elab.async false

namespace Sys2Proof.Machine

namespace State

variable {s : State} {i : Nat} {e : Entry}

/-! ### The entry that a search finds -/

/-- The entry that a test takes alone is the one found. -/
theorem findEntry_of_unique {test : Entry → Bool} (he : s.entry i = some e) (htest : test e = true)
    (honly : ∀ j f, s.entry j = some f → test f = true → j = i) : s.findEntry test = some (i, e) := by
  cases hf : s.findEntry test with
  | none => exact absurd htest (by simp [findEntry_none s hf he])
  | some found =>
    obtain ⟨j, f⟩ := found
    obtain ⟨hj, hjtest⟩ := findEntry_some s hf
    obtain rfl := honly j f hj hjtest
    rw [he] at hj
    cases hj
    rfl

/-- Tags are distinct, so an answer finds the entry that waits under its tag (R69, R72). -/
theorem answered_of_entry (hs : s.EntriesSound) (he : s.entry i = some e) (hst : e.state = .waitingCentre) :
    s.findEntry (fun f => f.state == .waitingCentre && f.tag == e.tag) = some (i, e) :=
  findEntry_of_unique he (by simp [hst]) fun j f hj htest => by
    simp only [Bool.and_eq_true, beq_iff_eq] at htest
    exact hs.tagsDistinct j i f e hj he htest.2

/-- A position has one waiting entry at most, so a cancel finds it (R67, R78). -/
theorem waitingAt_of_entry (hs : s.EntriesSound) (he : s.entry i = some e) (hw : e.waits = true) :
    s.waitingAt e.req.pos = some (i, e) :=
  findEntry_of_unique he (by simp [hw]) fun j f hj htest => by
    simp only [Bool.and_eq_true, beq_iff_eq] at htest
    exact hs.oneWaiting j i f e hj he htest.1 hw htest.2

theorem waitingAt_eq_none_iff {p : Nat} : s.waitingAt p = none ↔ ¬ s.HasWaiting p := by
  constructor
  · rintro h ⟨i, e, he, hst, hp⟩
    have htest := findEntry_none s h he
    simp [Entry.waits, hst, hp] at htest
  · intro h
    cases hf : s.waitingAt p with
    | none => rfl
    | some found =>
      obtain ⟨j, f⟩ := found
      obtain ⟨hj, htest⟩ := findEntry_some s hf
      simp only [Entry.waits, Bool.and_eq_true, bne_iff_ne, beq_iff_eq] at htest
      exact absurd ⟨j, f, hj, htest⟩ h

/-! ### The table -/

theorem wr_wr {α : Type} {n : Nat} (v : Vector α n) (k : Nat) (x y : α) : wr (wr v k x) k y = wr v k y := by
  simp [wr]

theorem entry_setEntry_same (hi : i < 32) (x : Option Entry) : (s.setEntry i x).entry i = x := by
  rw [entry_setEntry, if_pos ⟨rfl, hi⟩]

/-! ### A claimed record (R175) -/

/-- A record against a claim: the claim is used, the record written, and the nearly-full alarm queued when it is due. -/
theorem appendClaimed_eq (b : Body) : s.appendClaimed b = { s with
    journal := { s.withRecord b with claims := s.journal.claims - 1 }, port := s.portAfterRecord
    counters := s.countersAfterRecord } := append_eq _ b

/-! ### Freed slots (R77, R83) -/

theorem queueReversal_of_reversing (he : s.entry i = some e) (hst : e.state = .reversing) (hroom : s.port.queue.length < 64) :
    s.queueReversal i = ({ s with
      port := (s.withFrame (.reversal e.tag (e.reason.getD .timeout))).port
      entries := wr s.entries i none } : State).testCompletion := by
  have hoffer := offerReversal_of_room he hst hroom
  rw [queueReversal, he]
  dsimp only
  rw [if_pos ⟨hst, (hasRoom_iff s).mpr hroom⟩, hoffer]
  rfl

theorem queueReversal_of_other (h : 64 ≤ s.port.queue.length ∨ ∀ e, s.entry i = some e → e.state ≠ .reversing) :
    s.queueReversal i = s := by
  unfold queueReversal
  split
  · next e he =>
    refine if_neg fun hc => ?_
    obtain hfull | hother := h
    · exact absurd ((hasRoom_iff s).mp hc.2) (Nat.not_lt.mpr hfull)
    · exact hother e he hc.1
  · rfl

/-- An entry forwarded to the centre: its REQUEST is queued, its wait loaded, and its position shows it (R70, R82, R83). -/
theorem forward_eq : s.forward i e = { s with
    port := (s.withFrame (.request e.centreRequest)).port, screens := (s.forward i e).screens
    entries := wr s.entries i (some { e with
      state := .waitingCentre, granted := false, timer := some s.tables.params.approval }) } := by
  unfold forward
  rw [enqueue_eq_withFrame]
  rfl

theorem forward_screen_same (hp : 1 ≤ e.req.pos ∧ e.req.pos ≤ 24) :
    (s.forward i e).screen e.req.pos = (s.screen e.req.pos).report s.tables .waiting := by
  unfold forward reportEntry
  rw [screen_onScreen_same _ hp, enqueue_eq_withFrame]
  rfl

theorem forward_screen_other {p : Nat} (h : p ≠ e.req.pos) : (s.forward i e).screen p = s.screen p := by
  unfold forward reportEntry
  rw [screen_onScreen_other _ h, enqueue_eq_withFrame]
  rfl

theorem queueGranted_of_granted (he : s.entry i = some e) (hst : e.state = .waitingOverride) (hg : e.granted = true)
    (hroom : s.port.queue.length < 64) : s.queueGranted i = s.forward i e := by
  rw [queueGranted, he]
  exact if_pos ⟨hst, hg, (hasRoom_iff s).mpr hroom⟩

theorem queueGranted_of_other
    (h : 64 ≤ s.port.queue.length ∨ ∀ e, s.entry i = some e → e.state ≠ .waitingOverride ∨ e.granted = false) :
    s.queueGranted i = s := by
  unfold queueGranted
  split
  · next e he =>
    refine if_neg fun hc => ?_
    obtain hfull | hother := h
    · exact absurd ((hasRoom_iff s).mp hc.2.2) (Nat.not_lt.mpr hfull)
    · obtain hst | hg := hother e he
      · exact hst hc.1
      · simp [hg] at hc
  · rfl

/-! ### The screen that an answer reaches (R73, R74) -/

/-- A balance that an answer passes on; without one the screen keeps its own. -/
def passBalance (t : Tables) (balance : Option Int) (sc : Screen) : Screen :=
  match balance with
  | some b => sc.takeBalance t (some b)
  | none => sc

theorem passBalance_form (t : Tables) (balance : Option Int) (sc : Screen) : (passBalance t balance sc).form = sc.form := by
  cases balance with
  | none => rfl
  | some b => exact Screen.takeBalance_form _

theorem passBalance_view (t : Tables) (balance : Option Int) (sc : Screen) :
    (passBalance t balance sc).view = { sc.view with balance := balance.or sc.view.balance } := by
  cases balance with
  | none => rfl
  | some b => exact Screen.takeBalance_view _

theorem showWithForm_screen {p : Nat} (hp : 1 ≤ p ∧ p ≤ 24) (o : Shown) (form : Option Nat) :
    (s.showWithForm p o form).screen p = (((s.screen p).takeOutcome s.tables o).takeAnswerForm form).settle s.tables := by
  unfold showWithForm
  rw [screen_onScreen_same s hp]
  cases form <;> rfl

theorem answerScreen_screen {c : Captured} (hp : 1 ≤ c.pos ∧ c.pos ≤ 24) (balance : Option Int) (o : Shown) :
    (s.answerScreen c balance o).screen c.pos =
      (((passBalance s.tables balance (s.screen c.pos)).takeOutcome s.tables o).takeAnswerForm c.snap.answerForm).settle
        s.tables := by
  unfold answerScreen
  rw [showWithForm_screen hp, screen_onScreen_same s hp]
  cases balance <;> rfl

theorem answerScreen_other {c : Captured} {p : Nat} (h : p ≠ c.pos) (balance : Option Int) (o : Shown) :
    (s.answerScreen c balance o).screen p = s.screen p := by
  unfold answerScreen showWithForm
  rw [screen_onScreen_other _ h, screen_onScreen_other _ h]

/-- What an answer leaves on the screen of its position: the outcome, the answer form or the form as it was, and the balance
it carries. -/
theorem answerScreen_shows {c : Captured} (hp : 1 ≤ c.pos ∧ c.pos ≤ 24) (balance : Option Int) (o : Shown) :
    Shows (s.answerScreen c balance o) c.pos o ∧
    ((s.answerScreen c balance o).screen c.pos).form = c.snap.answerForm.getD (s.screen c.pos).form ∧
    ∀ b, balance = some b → ((s.answerScreen c balance o).screen c.pos).view.balance = some b := by
  unfold Shows
  rw [answerScreen_screen hp]
  refine ⟨⟨by simp, by simp⟩, by simp [passBalance_form], fun b hb => ?_⟩
  subst hb
  simp [passBalance_view]

/-! ### DECLINE (R74) -/

/-- The state of a declined answer before the completion test. -/
def declined (s : State) (i : Nat) (e : Entry) (a : Answer) : State :=
  (((s.releaseItems e.req.items).releaseClaim e.claim).answerScreen e.req a.balance (.declined a.reason)).freeEntry i

theorem releaseItems_eq (items : List Item) : s.releaseItems items = { s with
    drawers := (s.releaseItems items).drawers, screens := (s.releaseItems items).screens } :=
  (releaseItems_within s items).eq_merge

theorem takeAnswer_of_decline {tag : Nat} {payload : List Byte} {a : Answer} (hs : s.EntriesSound)
    (hp : parseAnswer payload = some a) (ha : a.approve = false) (he : s.entry i = some e) (htag : e.tag = tag)
    (hst : e.state = .waitingCentre) : s.takeAnswer tag payload = (s.declined i e a).testCompletion := by
  subst htag
  unfold takeAnswer
  rw [hp, answered_of_entry hs he hst]
  dsimp only
  rw [ha]
  rfl

theorem takeAnswer_of_approve {tag : Nat} {payload : List Byte} {a : Answer} (hs : s.EntriesSound)
    (hp : parseAnswer payload = some a) (ha : a.approve = true) (he : s.entry i = some e) (htag : e.tag = tag)
    (hst : e.state = .waitingCentre) : s.takeAnswer tag payload = s.approve i e a := by
  subst htag
  unfold takeAnswer
  rw [hp, answered_of_entry hs he hst]
  dsimp only
  rw [ha]
  rfl

theorem takeAnswer_of_bad {tag : Nat} {payload : List Byte} (h : parseAnswer payload = none) :
    s.takeAnswer tag payload = s.dropBadFrame := by
  unfold takeAnswer
  rw [h]

theorem takeAnswer_of_late {tag : Nat} {payload : List Byte} (hp : (parseAnswer payload).isSome = true)
    (h : ∀ i e, s.entry i = some e → e.tag = tag → e.state ≠ .waitingCentre) :
    s.takeAnswer tag payload = s.countLateAnswer := by
  obtain ⟨a, ha⟩ := Option.isSome_iff_exists.mp hp
  have hnone : s.findEntry (fun f => f.state == .waitingCentre && f.tag == tag) = none := by
    cases hf : s.findEntry (fun f => f.state == .waitingCentre && f.tag == tag) with
    | none => rfl
    | some found =>
      obtain ⟨j, f⟩ := found
      obtain ⟨hj, htest⟩ := findEntry_some s hf
      simp only [Bool.and_eq_true, beq_iff_eq] at htest
      exact absurd htest.1 (h j f hj htest.2)
  unfold takeAnswer
  rw [ha, hnone]

theorem declined_eq (a : Answer) : s.declined i e a = { s with
    entries := wr s.entries i none, drawers := (s.declined i e a).drawers, screens := (s.declined i e a).screens
    journal := { s.journal with claims := s.journal.claims - e.claim } } := by
  have hmerge := releaseItems_eq (s := s) e.req.items
  unfold declined
  generalize s.releaseItems e.req.items = r at hmerge ⊢
  rw [hmerge]
  rfl

/-! ### The end of a wait for the centre (R75, R77, R78) -/

/-- The state of a wait that has ended, with the record written and the outcome shown, before the notice is offered. -/
def reversed (s : State) (i : Nat) (e : Entry) (reason : ExpiryReason) (o : Shown) : State :=
  (s.beginReversing i e reason).showAt e.req.pos o

theorem endCentre_of_inquiry (h : e.req.snap.cls = .inquiry) (reason : ExpiryReason) (o : Shown) :
    s.endCentre i e reason o = ((s.showAt e.req.pos o).freeEntry i).testCompletion := if_pos h

theorem endCentre_of_other (h : e.req.snap.cls ≠ .inquiry) (reason : ExpiryReason) (o : Shown) :
    s.endCentre i e reason o = ((s.reversed i e reason o).offerReversal i).testCompletion := if_neg h

theorem reversed_eq (reason : ExpiryReason) (o : Shown) : s.reversed i e reason o = { s with
    entries := wr s.entries i (some (e.reversing reason)), drawers := (s.releaseItems e.req.items).drawers
    screens := (s.reversed i e reason o).screens, port := s.portAfterRecord, counters := s.countersAfterRecord
    journal := { s.withRecord (e.expiredBody reason) with claims := s.journal.claims - 1 } } := by
  have hmerge := releaseItems_eq (s := s) e.req.items
  unfold reversed beginReversing
  rw [appendClaimed_eq]
  generalize s.releaseItems e.req.items = r at hmerge ⊢
  rw [hmerge]
  rfl

theorem reversed_shows (hp : 1 ≤ e.req.pos ∧ e.req.pos ≤ 24) (reason : ExpiryReason) (o : Shown) :
    Shows (s.reversed i e reason o) e.req.pos o := showAt_shows _ hp o

theorem reversed_entry (hi : i < 32) (reason : ExpiryReason) (o : Shown) (j : Nat) :
    (s.reversed i e reason o).entry j = if i = j then some (e.reversing reason) else s.entry j := by
  have hset := entry_setEntry s i j (some (e.reversing reason))
  rw [entry_congr (t := s.reversed i e reason o) (s := s.setEntry i (some (e.reversing reason))) (by rw [reversed_eq]; rfl),
    hset]
  simp [hi]

/-- The slots that are used once a record has been written. -/
theorem portAfterRecord_length : 64 ≤ s.port.queue.length + s.nearlyFullNotice.length ↔
    64 ≤ s.portAfterRecord.queue.length := by
  by_cases h : s.port.queue.length < 64
  · rw [s.portAfterRecord_queue h, List.length_append]
  · rw [portAfterRecord, if_neg fun hn => h hn.2]
    omega

theorem offerReversal_of_full (h : 64 ≤ s.port.queue.length) : s.offerReversal i = s := by
  unfold offerReversal
  split
  · exact if_neg fun hc => absurd ((hasRoom_iff s).mp hc.2) (Nat.not_lt.mpr h)
  · rfl

/-- The notice of an ended wait finds a free slot: it is queued and the entry freed (R77). -/
theorem reversed_offered_of_room (hi : i < 32) (reason : ExpiryReason) (o : Shown)
    (hroom : s.port.queue.length + s.nearlyFullNotice.length < 64) :
    (s.reversed i e reason o).offerReversal i = { s with
      entries := wr s.entries i none, drawers := (s.releaseItems e.req.items).drawers
      screens := (s.reversed i e reason o).screens
      journal := { s.withRecord (e.expiredBody reason) with claims := s.journal.claims - 1 }
      port := { s.port with
        queue := s.port.queue ++ s.nearlyFullNotice ++ [.reversal e.tag reason]
        transmitting := s.port.transmitting || s.port.olrdy } } := by
  have hfree : s.port.queue.length < 64 := by omega
  have hport : (s.reversed i e reason o).port = s.portAfterRecord := by rw [reversed_eq]
  have hqueue : (s.reversed i e reason o).port.queue.length < 64 := by
    rw [hport]
    exact Nat.lt_of_not_le fun h => absurd (portAfterRecord_length.mpr h) (Nat.not_le.mpr hroom)
  have hentry : (s.reversed i e reason o).entry i = some (e.reversing reason) := by
    rw [reversed_entry hi, if_pos rfl]
  rw [offerReversal_of_room hentry rfl hqueue]
  have hframe := s.portAfterRecord_withFrame hfree (.reversal e.tag reason)
  have hcounters := s.countersAfterRecord_of_room hfree
  have heq := s.reversed_eq (i := i) (e := e) reason o
  generalize (s.reversed i e reason o) = r at heq ⊢
  rw [heq, ← hframe, hcounters]
  show ({ s with
    port := _, counters := _, entries := wr (wr s.entries i (some (e.reversing reason))) i none, drawers := _, screens := _
    journal := _ } : State) = _
  rw [wr_wr]
  rfl

theorem approvalExpires_of_running (he : s.entry i = some e) (hst : e.state = .waitingCentre) (ht : e.timer ≠ none) :
    s.approvalExpires i = s.endCentre i e .timeout .noAnswer := by
  rw [approvalExpires, he]
  exact if_pos ⟨hst, Option.isSome_iff_ne_none.mpr ht⟩

theorem overrideExpires_of_running (he : s.entry i = some e) (hst : e.state = .waitingOverride) (ht : e.timer ≠ none) :
    s.overrideExpires i = s.endOverride i e .noOverride := by
  rw [overrideExpires, he]
  exact if_pos ⟨hst, Option.isSome_iff_ne_none.mpr ht⟩

theorem takeCancel_of_entry (hs : s.EntriesSound) (he : s.entry i = some e) (hw : e.waits = true) :
    s.takeCancel e.req.pos =
      if e.state = .waitingOverride then s.endOverride i e .cancelled else s.endCentre i e .cancelled .cancelled := by
  rw [takeCancel, waitingAt_of_entry hs he hw]

/-! ### The end of a wait for an override (R78, R80, R84) -/

/-- The state of an override wait that has ended, before the completion test. -/
def overrideEnded (s : State) (i : Nat) (e : Entry) (o : Shown) : State :=
  ((((s.setOverrides (s.overrides.filter (· != i))).releaseItems e.req.items).releaseClaim e.claim).showAt e.req.pos
    o).freeEntry i

theorem endOverride_eq (o : Shown) : s.endOverride i e o = (s.overrideEnded i e o).testCompletion := rfl

theorem setOverrides_eq (l : List Nat) : s.setOverrides l = { s with
    overrides := l, screens := (s.setOverrides l).screens } := by
  have hmerge := (setOverrides_within s l).eq_merge
  have hlist := s.setOverrides_overrides l
  generalize s.setOverrides l = t at hmerge hlist ⊢
  rw [← hlist]
  exact hmerge

theorem overrideEnded_eq (o : Shown) : s.overrideEnded i e o = { s with
    entries := wr s.entries i none, overrides := s.overrides.filter (· != i)
    drawers := (s.overrideEnded i e o).drawers, screens := (s.overrideEnded i e o).screens
    journal := { s.journal with claims := s.journal.claims - e.claim } } := by
  have hlist := setOverrides_eq (s := s) (s.overrides.filter (· != i))
  have hmerge := releaseItems_eq (s := s.setOverrides (s.overrides.filter (· != i))) e.req.items
  unfold overrideEnded
  generalize (s.setOverrides (s.overrides.filter (· != i))).releaseItems e.req.items = r at hmerge ⊢
  rw [hmerge]
  generalize s.setOverrides (s.overrides.filter (· != i)) = t at hlist ⊢
  rw [hlist]
  rfl

theorem overrideEnded_released (o : Shown) : ReservationsReleased e.req.items s (s.overrideEnded i e o) :=
  (releaseItems_released (s.setOverrides (s.overrides.filter (· != i))) e.req.items).congr
    (setOverrides_within s _ .drawers (by decide)).symm rfl

theorem overrideEnded_shows (hp : 1 ≤ e.req.pos ∧ e.req.pos ≤ 24) (o : Shown) :
    Shows (s.overrideEnded i e o) e.req.pos o := (showAt_shows _ hp o).congr rfl

theorem overrideEnded_others {p : Nat} (h : p ≠ e.req.pos) (o : Shown) : ShowsAsBefore s (s.overrideEnded i e o) p := by
  have hlist := s.setOverrides_keeps (s.overrides.filter (· != i))
  have hrelease := (releaseItems_onlyMarks (s.setOverrides (s.overrides.filter (· != i))) e.req.items).keeps
  have hshow := showAt_keepsOthers
    (((s.setOverrides (s.overrides.filter (· != i))).releaseItems e.req.items).releaseClaim e.claim) h o
  exact ((hlist.trans hrelease).showsAsBefore p).trans (hshow.congr rfl rfl)

/-- A position that holds a session is one of the 24. -/
theorem position_of_supervisor {q : Nat} (h : s.supervisor q = true) : 1 ≤ q ∧ q ≤ 24 := by
  by_contra hq
  rw [supervisor, session_outside s hq] at h
  exact absurd h (by decide)

/-- A refusal that passes its checks ends the wait (R81, R84). -/
theorem exec_refuse {q seq : Nat} {b : State} (hs : s.EntriesSound) (he : s.entry i = some e)
    (hst : e.state = .waitingOverride) (hawaits : s.Awaits q 0 seq) (hb : b = (s.accepted q 0 seq).copyRole q)
    (hsup : b.supervisor q = true) (hg : e.granted = false) {sup : Nat} (ht : (s.session q).teller = some sup)
    (hother : e.req.teller ≠ sup) :
    exec (.override q seq e.tag 2) s = .next (b.endOverride i e .overrideRefused) := by
  have hq := position_of_supervisor hsup
  have hentries : b.entries = s.entries := by
    rw [hb]
    exact copyRole_within _ q .entries (by decide)
  have hbsound : b.EntriesSound := by
    unfold EntriesSound
    rwa [hentries]
  have hbteller : (b.session q).teller = some sup := by
    rw [hb, copyRole_teller _ hq, accepted_session, ht]
  have hfound := overrideOf_of_entry hbsound ((entry_congr hentries i).trans he) hst
  rw [exec_override_of_decision hawaits (Or.inr rfl), ← hb, decideOverride_found hsup hbteller hfound, if_neg hother]
  simp [hg]

end State

end Sys2Proof.Machine

namespace Sys2Proof.Proofs

open Sys2Proof.Machine Sys2Proof.Machine.State

/-- Settles O22: the layouts that an ANSWER can break, the search that finds nothing, and the entry that is declined. -/
theorem answerDeclines : Obligations.AnswerDeclines := by
  unfold Obligations.AnswerDeclines
  refine ⟨fun s tag payload => ⟨fun hbroken => ?_, fun hparsed hnone => ?_⟩,
    fun s tag i payload a e hs hparsed ha he htag hst h1 h24 => ?_⟩
  · have hbad : parseAnswer payload = none := by
      refine if_neg fun hgood => ?_
      simp only [inRange, Bool.and_eq_true, decide_eq_true_eq] at hgood
      omega
    exact congrArg Host.Outcome.next (takeAnswer_of_bad hbad)
  · exact congrArg Host.Outcome.next (takeAnswer_of_late hparsed hnone)
  · have hrelease : ScreensKeep s ((s.releaseItems e.req.items).releaseClaim e.claim) :=
      (s.releaseItems_onlyMarks e.req.items).keeps.congr rfl rfl
    obtain ⟨hshows, hform, hbalance⟩ := answerScreen_shows (s := (s.releaseItems e.req.items).releaseClaim e.claim)
      (c := e.req) ⟨h1, h24⟩ a.balance (.declined a.reason)
    refine ⟨s.declined i e a, congrArg Host.Outcome.next (takeAnswer_of_decline hs hparsed ha he htag hst), declined_eq a,
      entry_setEntry_same (entry_index s he) none, ?_, hshows.congr rfl, fun f hf => ?_, fun hkeep => ?_, hbalance,
      fun p hp => ?_⟩
    · exact (s.releaseItems_released e.req.items).congr rfl (answerScreen_within
        ((s.releaseItems e.req.items).releaseClaim e.claim) e.req a.balance (.declined a.reason) .drawers (by decide))
    · rw [hf] at hform
      exact hform
    · rw [hkeep] at hform
      exact hform.trans (hrelease e.req.pos).form
    · have hother := answerScreen_other (s := (s.releaseItems e.req.items).releaseClaim e.claim) hp a.balance
        (.declined a.reason)
      have hbefore := hrelease.showsAsBefore p
      unfold ShowsAsBefore at hbefore ⊢
      rw [← hother] at hbefore
      exact hbefore

/-- Settles O25: the expiry and the cancel come to the one end, taken with room for its notice and without. -/
theorem centreWaitEnds : Obligations.CentreWaitEnds := by
  unfold Obligations.CentreWaitEnds
  intro s b c i p seq e reason o hs he hst hpos h1 h24 hcause
  subst hpos
  have hi := entry_index s he
  have hsame : (b = s ∨ b = s.accepted e.req.pos 0 seq) ∧ exec c s = .next (b.endCentre i e reason o) := by
    obtain ⟨rfl, ht, rfl, rfl, rfl⟩ | ⟨rfl, hawaits, rfl, rfl, rfl⟩ := hcause
    · exact ⟨Or.inl rfl, congrArg Host.Outcome.next (approvalExpires_of_running he hst ht)⟩
    · have hcancel := takeCancel_of_entry (s := s.accepted e.req.pos 0 seq) hs he (by simp [Entry.waits, hst])
      rw [hst, if_neg (by decide)] at hcancel
      exact ⟨Or.inr rfl, (congrArg Host.Outcome.next (receive_of_awaits hawaits .cancel)).trans
        (congrArg Host.Outcome.next hcancel)⟩
  obtain ⟨hb, hexec⟩ := hsame
  refine ⟨fun hcls => ?_, fun hcls hroom => ?_, fun hcls hfull => ?_⟩
  · rw [hexec, endCentre_of_inquiry hcls]
    refine ⟨_, rfl, (showAt_shows b ⟨h1, h24⟩ o).congr rfl, ?_⟩
    obtain rfl | rfl := hb
    · rfl
    · rfl
  · have hbroom : b.port.queue.length + b.nearlyFullNotice.length < 64 := by
      obtain rfl | rfl := hb
      · exact hroom
      · exact hroom
    have heq := reversed_offered_of_room (s := b) (i := i) (e := e) hi reason o hbroom
    have hreleased : ReservationsReleased e.req.items s ((b.reversed i e reason o).offerReversal i) := by
      refine (b.releaseItems_released e.req.items).congr ?_ (by rw [heq])
      obtain rfl | rfl := hb
      · rfl
      · rfl
    have hshows : Shows ((b.reversed i e reason o).offerReversal i) e.req.pos o :=
      (reversed_shows ⟨h1, h24⟩ reason o).congr (by rw [heq])
    rw [hexec, endCentre_of_other hcls]
    refine ⟨_, rfl, hshows, hreleased, ?_⟩
    generalize (b.reversed i e reason o).offerReversal i = u at heq ⊢
    have hdrawers : u.drawers = (b.releaseItems e.req.items).drawers := by rw [heq]
    have hscreens : u.screens = (b.reversed i e reason o).screens := by rw [heq]
    rw [hdrawers, hscreens]
    obtain rfl | rfl := hb
    · exact heq
    · exact heq
  · have hbfull : 64 ≤ (b.reversed i e reason o).port.queue.length := by
      rw [reversed_eq]
      refine portAfterRecord_length.mp ?_
      obtain rfl | rfl := hb
      · exact hfull
      · exact hfull
    rw [hexec, endCentre_of_other hcls, offerReversal_of_full hbfull]
    have heq := b.reversed_eq (i := i) (e := e) reason o
    refine ⟨_, rfl, reversed_shows ⟨h1, h24⟩ reason o, ?_, ?_, fun j hj => ?_, ?_⟩
    · refine (b.releaseItems_released e.req.items).congr ?_ (by rw [heq])
      obtain rfl | rfl := hb
      · rfl
      · rfl
    · rw [reversed_entry hi, if_pos rfl]
      rfl
    · rw [reversed_entry hi, if_neg (Ne.symm hj)]
      obtain rfl | rfl := hb
      · rfl
      · rfl
    · generalize b.reversed i e reason o = u at heq ⊢
      have hdrawers : u.drawers = (b.releaseItems e.req.items).drawers := by rw [heq]
      have hentries : u.entries = wr b.entries i (some (e.reversing reason)) := by rw [heq]
      rw [hdrawers, hentries]
      obtain rfl | rfl := hb
      · exact heq
      · exact heq

/-- Settles O26: the expiry, the cancel and the refusal come to the one end. -/
theorem overrideWaitEnds : Obligations.OverrideWaitEnds := by
  unfold Obligations.OverrideWaitEnds
  intro s b c i p q seq e o hs he hst hpos h1 h24 hcause
  subst hpos
  have hsame : (b.entries = s.entries ∧ b.overrides = s.overrides ∧ b.journal = s.journal ∧ b.drawers = s.drawers) ∧
      exec c s = .next (b.endOverride i e o) := by
    obtain ⟨rfl, ht, rfl, rfl⟩ | ⟨rfl, hawaits, rfl, rfl⟩ | ⟨rfl, hawaits, hb, hsup, hg, hother, hteller, rfl⟩ := hcause
    · exact ⟨⟨rfl, rfl, rfl, rfl⟩, congrArg Host.Outcome.next (overrideExpires_of_running he hst ht)⟩
    · have hcancel := takeCancel_of_entry (s := s.accepted e.req.pos 0 seq) hs he (by simp [Entry.waits, hst])
      rw [if_pos hst] at hcancel
      exact ⟨⟨rfl, rfl, rfl, rfl⟩, (congrArg Host.Outcome.next (receive_of_awaits hawaits .cancel)).trans
        (congrArg Host.Outcome.next hcancel)⟩
    · have hrole := copyRole_within (s.accepted q 0 seq) q
      obtain ⟨sup, ht⟩ := Option.ne_none_iff_exists'.mp hteller
      refine ⟨?_, exec_refuse hs he hst hawaits hb hsup hg ht fun h => hother (by rw [ht, h])⟩
      rw [hb]
      exact ⟨hrole .entries (by decide), hrole .overrides (by decide), hrole .journal (by decide),
        hrole .drawers (by decide)⟩
  obtain ⟨⟨hentries, hoverrides, hjournal, hdrawers⟩, hexec⟩ := hsame
  have heq := overrideEnded_eq (s := b) (i := i) (e := e) o
  refine ⟨b.overrideEnded i e o, hexec, ?_, ?_, (overrideEnded_released o).congr hdrawers.symm rfl,
    overrideEnded_shows ⟨h1, h24⟩ o, fun r hr => overrideEnded_others hr o⟩
  · exact entry_setEntry_same (entry_index s he) none
  · rw [hentries, hoverrides, hjournal] at heq
    exact heq

/-- Settles O29: each freed slot by the state of the entry it is offered to. -/
theorem freedSlotsFilled : Obligations.FreedSlotsFilled := by
  unfold Obligations.FreedSlotsFilled
  refine fun s i => ⟨fun e he hroom => ⟨fun hst => ?_, fun hst hg => ?_⟩, fun h => ?_, fun h => ?_⟩
  · exact congrArg Host.Outcome.next (queueReversal_of_reversing he hst hroom)
  · refine ⟨s.forward i e, congrArg Host.Outcome.next (queueGranted_of_granted he hst hg hroom), forward_eq, fun h1 h24 => ?_,
      fun p hp => forward_screen_other hp⟩
    rw [forward_screen_same ⟨h1, h24⟩]
    rfl
  · exact congrArg Host.Outcome.next (queueReversal_of_other h)
  · exact congrArg Host.Outcome.next (queueGranted_of_other h)

end Sys2Proof.Proofs
end

