-- ==== Sys2Proof/Proofs/PrinterOps.lean ====
section
/-! The operations of the passbook controller reach one position's printer, its queue and its screen, and nothing of any other
position (R151 to R170). -/

set_option Elab.async false

namespace Sys2Proof.Machine

/-- Two states that agree in the missed counts, in every unit but the printer of position p, in every other position's printer
and screen, and in the form of p's own screen; of the printer's unit record the queue alone may differ. -/
structure OnlyPrinter (p : Nat) (s t : State) : Prop where
  missed : ∀ q, (t.posRec q).missed = (s.posRec q).missed
  units : ∀ q u, ¬ (q = p ∧ u = 1) → t.unit q u = s.unit q u
  own : t.unit p 1 = { s.unit p 1 with queue := (t.unit p 1).queue }
  printers : ∀ q, q ≠ p → t.printer q = s.printer q
  screens : ∀ q, q ≠ p → t.screen q = s.screen q
  form : (t.screen p).form = (s.screen p).form

namespace OnlyPrinter

variable {p : Nat} {s t u : State}

theorem refl (p : Nat) (s : State) : OnlyPrinter p s s :=
  ⟨fun _ => rfl, fun _ _ _ => rfl, rfl, fun _ _ => rfl, fun _ _ => rfl, rfl⟩

theorem trans (h : OnlyPrinter p s t) (g : OnlyPrinter p t u) : OnlyPrinter p s u where
  missed q := (g.missed q).trans (h.missed q)
  units q v hq := (g.units q v hq).trans (h.units q v hq)
  own := by
    have hown := g.own
    rw [h.own] at hown
    exact hown
  printers q hq := (g.printers q hq).trans (h.printers q hq)
  screens q hq := (g.screens q hq).trans (h.screens q hq)
  form := g.form.trans h.form

/-- The relation is told by the units, the printers and the screens alone. -/
theorem congr {s' t' : State} (h : OnlyPrinter p s t) (hs : s'.line.recs = s.line.recs ∧ s'.printers = s.printers ∧
    s'.screens = s.screens) (ht : t'.line.recs = t.line.recs ∧ t'.printers = t.printers ∧ t'.screens = t.screens) :
    OnlyPrinter p s' t' := by
  obtain ⟨hrecs, hprinters, hscreens⟩ := hs
  obtain ⟨grecs, gprinters, gscreens⟩ := ht
  have hrec : ∀ q, s'.posRec q = s.posRec q := fun q => by unfold State.posRec; rw [hrecs]
  have grec : ∀ q, t'.posRec q = t.posRec q := fun q => by unfold State.posRec; rw [grecs]
  refine ⟨fun q => ?_, fun q v hq => ?_, ?_, fun q hq => ?_, fun q hq => ?_, ?_⟩
  · rw [hrec, grec]
    exact h.missed q
  · rw [State.unit_congr hrecs, State.unit_congr grecs]
    exact h.units q v hq
  · rw [State.unit_congr hrecs, State.unit_congr grecs]
    exact h.own
  · rw [State.printer_congr hprinters, State.printer_congr gprinters]
    exact h.printers q hq
  · rw [State.screen_congr hscreens, State.screen_congr gscreens]
    exact h.screens q hq
  · rw [State.screen_congr hscreens, State.screen_congr gscreens]
    exact h.form

end OnlyPrinter

namespace State

variable (s : State) {p : Nat}

/-! ### One change -/

theorem setPrinter_only (p : Nat) (x : Printer) : OnlyPrinter p s (s.setPrinter p x) :=
  ⟨fun _ => rfl, fun _ _ _ => rfl, rfl,
    fun _ hq => (printer_setPrinter ..).trans (if_neg fun h => hq h.1.symm), fun _ _ => rfl, rfl⟩

theorem onScreen_only (p : Nat) {f : Tables → Screen → Screen} (h : (f s.tables (s.screen p)).form = (s.screen p).form) :
    OnlyPrinter p s (s.onScreen p f) where
  missed _ := rfl
  units _ _ _ := rfl
  own := rfl
  printers _ _ := rfl
  screens _ hq := screen_onScreen_other s hq f
  form := by
    by_cases hp : 1 ≤ p ∧ p ≤ 24
    · rw [screen_onScreen_same s hp, h]
    · rw [screen_outside s hp, screen_outside _ hp]

theorem showAt_only (p : Nat) (o : Shown) : OnlyPrinter p s (s.showAt p o) := s.onScreen_only p (by simp)

theorem setPrinterState_only (p : Nat) (x : PrinterState) : OnlyPrinter p s (s.setPrinterState p x) := by
  unfold setPrinterState
  split
  · exact .refl p s
  · exact (s.setPrinter_only p _).trans (onScreen_only
      (s.setPrinter p { s.printer p with state := x }) p (f := fun t sc => sc.mark t (· == .printState)) rfl)

theorem withStore_only (v : Vector (Option PrintLine) 256) : OnlyPrinter p s (s.withStore v) :=
  (OnlyPrinter.refl p s).congr ⟨rfl, rfl, rfl⟩ ⟨rfl, rfl, rfl⟩

/-- A unit record set at the printer of p, with another queue. -/
theorem setUnit_only (p : Nat) (queue : List Queued) :
    OnlyPrinter p s (s.setUnit p 1 { s.unit p 1 with queue := queue }) where
  missed q := by
    unfold setUnit
    rw [posRec_setPosRec]
    split
    · next h => rw [h.1]
    · rfl
  units q u h := by
    rw [unit_setUnit]
    exact if_neg fun hc => h ⟨hc.1.1.symm, hc.2.1.symm⟩
  own := by
    rw [unit_setUnit]
    split <;> rfl
  printers _ _ := rfl
  screens _ _ := rfl
  form := rfl

theorem offer_only (p : Nat) (m : OutMsg) (c : LineClass) : OnlyPrinter p s (s.offer p 1 m c) := by
  unfold offer
  split
  · exact s.setUnit_only p _
  · exact .refl p s

theorem enqueue_only (f : UpFrame) : OnlyPrinter p s (s.enqueue f) :=
  (OnlyPrinter.refl p s).congr ⟨rfl, rfl, rfl⟩ (by rw [enqueue_eq_withFrame]; exact ⟨rfl, rfl, rfl⟩)

/-! ### The operations -/

theorem offerPrinter_only (p : Nat) (m : OutMsg) : OnlyPrinter p s (s.offerPrinter p m) := by
  unfold offerPrinter
  split
  · exact s.offer_only p m .print
  · exact s.setPrinter_only p _
  · exact .refl p s

theorem loseFlight_only (p : Nat) : OnlyPrinter p s (s.loseFlight p) :=
  (s.setPrinter_only p _).trans (setUnit_only _ p _)

theorem clearBook_only (p : Nat) : OnlyPrinter p s (s.clearBook p) := s.setPrinter_only p _

theorem loadBookWait_only (p : Nat) : OnlyPrinter p s (s.loadBookWait p) := s.setPrinter_only p _

theorem awaitBook_only (p : Nat) : OnlyPrinter p s (s.awaitBook p) := by
  unfold awaitBook
  split
  · exact (s.loadBookWait_only p).trans (setPrinterState_only _ p _)
  · exact s.setPrinterState_only p _

theorem abandonJob_only (p : Nat) (o : Shown) : OnlyPrinter p s (s.abandonJob p o) := by
  unfold abandonJob
  split
  · exact .refl p s
  · next j hj =>
    dsimp only
    have hend : ∀ x : Printer, OnlyPrinter p s (((s.freeLines j.lines).setPrinter p x).showAt p o) := fun x =>
      ((s.withStore_only _).trans (setPrinter_only _ p x)).trans (showAt_only _ p o)
    split
    · exact (((hend _).trans (offerPrinter_only _ p _)).trans (clearBook_only _ p)).trans (setPrinterState_only _ p _)
    · split
      · exact (hend _).trans (setPrinterState_only _ p _)
      · exact hend _

theorem completeJob_only (p : Nat) (j : Job) : OnlyPrinter p s (s.completeJob p j) :=
  ((((s.offerPrinter_only p _).trans (showAt_only _ p _)).trans (withStore_only _ _)).trans (setPrinter_only _ p _)).trans
    (setPrinterState_only _ p _)

theorem testJob_only (p : Nat) : OnlyPrinter p s (s.testJob p) := by
  unfold testJob
  split
  · split
    · exact s.completeJob_only p _
    · exact .refl p s
  · exact .refl p s

theorem sendPrint_only (p : Nat) (m : OutMsg) (f : Flight) (j : Job) : OnlyPrinter p s (s.sendPrint p m f j) := by
  unfold sendPrint
  split
  · exact ((s.offer_only p m _).trans (setPrinter_only _ p _)).trans (setPrinterState_only _ p _)
  · exact .refl p s

theorem pageEnd_only (p : Nat) (j : Job) (b : Book) (l : LayoutEntry) : OnlyPrinter p s (s.pageEnd p j b l) := by
  unfold pageEnd
  split
  · exact s.abandonJob_only p _
  · split
    · exact s.sendPrint_only p _ _ _
    · exact ((s.setPrinter_only p _).trans (setPrinterState_only _ p _)).trans (showAt_only _ p _)

theorem printLoop_only (p : Nat) : OnlyPrinter p s (s.printLoop p) := by
  unfold printLoop
  split
  · split
    · split
      · exact s.abandonJob_only p _
      · split
        · split
          · exact s.sendPrint_only p _ _ _
          · exact .refl p s
        · exact s.pageEnd_only p _ _ _
    · exact .refl p s
  · exact .refl p s

theorem handLines_only (p : Nat) (a : Option Text) (items : List PrintLine) :
    OnlyPrinter p s (s.handLines p a items).1 := by
  unfold handLines
  split
  · dsimp only
    split
    · split
      · exact .refl p s
      · exact ((s.withStore_only _).trans (setPrinter_only _ p _)).trans (printLoop_only _ p)
    · exact .refl p s
  · exact .refl p s

theorem offerPrinted_only (p : Nat) (j : Job) (item : Nat) : OnlyPrinter p s (s.offerPrinted p j item) := by
  unfold offerPrinted
  split
  · exact (s.enqueue_only _).trans (setPrinter_only _ p _)
  · exact s.setPrinter_only p _

theorem queueOwed_only (p : Nat) : OnlyPrinter p s (s.queueOwed p) := by
  unfold queueOwed
  split
  · split
    · exact ((s.enqueue_only _).trans (setPrinter_only _ p _)).trans (printLoop_only _ p)
    · split
      · exact .refl p s
      · split
        · exact .refl p s
        · exact (((s.enqueue_only _).trans (setPrinter_only _ p _)).trans (testJob_only _ p)).trans (printLoop_only _ p)
  · exact .refl p s

theorem refuseBook_only (p : Nat) : OnlyPrinter p s (s.refuseBook p) :=
  (s.offerPrinter_only p _).trans (showAt_only _ p _)

theorem countLineBadMessage_only : OnlyPrinter p s s.countLineBadMessage :=
  (OnlyPrinter.refl p s).congr ⟨rfl, rfl, rfl⟩ ⟨rfl, rfl, rfl⟩

theorem takeBookIn_only (p : Nat) (a : Text) (l g n : Nat) : OnlyPrinter p s (s.takeBookIn p a l g n) := by
  unfold takeBookIn
  split
  · exact .refl p s
  · split
    · exact (s.setPrinter_only p _).trans (setPrinterState_only _ p _)
    · exact s.refuseBook_only p
  · split
    · exact .refl p s
    · split
      · exact ((s.setPrinter_only p _).trans (setPrinterState_only _ p _)).trans (printLoop_only _ p)
      · exact s.refuseBook_only p
  · exact s.countLineBadMessage_only

theorem takeBookOut_only (p : Nat) : OnlyPrinter p s (s.takeBookOut p) := by
  have hlost := ((s.loseFlight_only p).trans (clearBook_only _ p)).trans (awaitBook_only _ p)
  unfold takeBookOut
  split
  · exact hlost
  · exact hlost
  · exact s.awaitBook_only p
  · exact .refl p s

theorem takeReady_only (p : Nat) : OnlyPrinter p s (s.takeReady p) := by
  unfold takeReady
  split
  · exact (s.offerPrinter_only p _).trans (awaitBook_only _ p)
  · exact .refl p s

theorem confirmLine_only (p : Nat) (j : Job) (b : Book) : OnlyPrinter p s (s.confirmLine p j b) :=
  (((s.setPrinter_only p _).trans (offerPrinted_only _ p _ _)).trans (setPrinterState_only _ p _)).trans (testJob_only _ p)

theorem takeLineDone_only (p : Nat) : OnlyPrinter p s (s.takeLineDone p) := by
  unfold takeLineDone
  split
  · exact s.confirmLine_only p _ _
  · exact s.countLineBadMessage_only

theorem takeTurned_only (p : Nat) : OnlyPrinter p s (s.takeTurned p) := by
  unfold takeTurned
  split
  · exact ((s.setPrinter_only p _).trans (setPrinterState_only _ p _)).trans (printLoop_only _ p)
  · exact s.countLineBadMessage_only

theorem printerStops_only (p : Nat) (x : PrinterState) (o : Shown) : OnlyPrinter p s (s.printerStops p x o) :=
  ((((s.loseFlight_only p).trans (clearBook_only _ p)).trans (loadBookWait_only _ p)).trans
    (setPrinterState_only _ p _)).trans (showAt_only _ p _)

theorem takeJam_only (p : Nat) : OnlyPrinter p s (s.takeJam p) := by
  unfold takeJam
  split
  · exact .refl p s
  · exact .refl p s
  · exact s.printerStops_only p _ _

theorem takeJamCleared_only (p : Nat) : OnlyPrinter p s (s.takeJamCleared p) := by
  unfold takeJamCleared
  split
  · exact s.awaitBook_only p
  · exact .refl p s

theorem lineWaitExpires_only (p : Nat) : OnlyPrinter p s (s.lineWaitExpires p) := by
  unfold lineWaitExpires
  split
  · exact s.printerStops_only p _ _
  · exact .refl p s

theorem pacingExpires_only (p : Nat) : OnlyPrinter p s (s.pacingExpires p) := by
  unfold pacingExpires
  split
  · exact .refl p s
  · split
    · exact (s.setPrinter_only p _).trans (printLoop_only _ p)
    · exact .refl p s

theorem bookWaitExpires_only (p : Nat) : OnlyPrinter p s (s.bookWaitExpires p) := by
  unfold bookWaitExpires
  split
  · exact .refl p s
  · split
    · exact s.abandonJob_only p _
    · exact .refl p s

theorem printerDelivered_only (p : Nat) (m : OutMsg) : OnlyPrinter p s (s.printerDelivered p m) := by
  unfold printerDelivered
  split
  · exact s.setPrinter_only p _
  · exact s.setPrinter_only p _
  · exact .refl p s

theorem printerMessageReturned_only (p : Nat) (m : OutMsg) : OnlyPrinter p s (s.printerMessageReturned p m) := by
  unfold printerMessageReturned
  split
  · exact s.printerStops_only p _ _
  · exact s.printerStops_only p _ _
  · exact .refl p s

theorem printerAbsent_only (p : Nat) : OnlyPrinter p s (s.printerAbsent p) :=
  ((s.abandonJob_only p _).trans (setPrinter_only _ p _)).trans (setPrinterState_only _ p _)

theorem printerReturned_only (p : Nat) : OnlyPrinter p s (s.printerReturned p) :=
  (s.setPrinterState_only p _).trans (offerPrinter_only _ p _)

theorem offerKept_only (p : Nat) (kept : List OutMsg) : OnlyPrinter p s (s.offerKept p kept) := by
  induction kept generalizing s with
  | nil => exact s.setPrinter_only p _
  | cons m rest ih =>
    unfold offerKept
    split
    · exact (s.offer_only p m _).trans (ih _)
    · exact s.setPrinter_only p _
    · exact s.setPrinter_only p _

theorem printerRoom_only (p : Nat) : OnlyPrinter p s (s.printerRoom p) :=
  (s.offerKept_only p _).trans (printLoop_only _ p)

end State

end Sys2Proof.Machine
end

