-- ==== Sys2Proof/Proofs/Posting.lean ====
section
/-! The posting hand-off (R86): what it writes, what it leaves of drawers, units and screens, and the outcome it shows. -/

set_option Elab.async false

namespace Sys2Proof.Machine

namespace State

variable {s : State} {c : Captured} {tag : Option Nat} {ans : Option Answer}

/-! ### The phases of a posting -/

/-- Effects 1 and 2: the items in the books and the POST record against its claim (R86). -/
def recorded (s : State) (c : Captured) (tag : Option Nat) : State := (s.postItems c.items).appendClaimed (c.postBody tag)

/-- Effects 4 and 5 behind the print lines: the releases and the screens (R86, R107). -/
def concluded (s : State) (c : Captured) (ans : Option Answer) (notPrinted : Bool) : State :=
  ((s.releaseDrawers (itemDrawers c.items)).postScreens c ans notPrinted).showNotReleased
    (s.refusedReleases (itemDrawers c.items))

theorem post_eq : s.post c tag ans =
    ((s.recorded c tag).postLines c ans).1.concluded c ans ((s.recorded c tag).postLines c ans).2 := rfl

theorem postLines_of_unprinted (h : c.snap.print = false) (ans : Option Answer) : s.postLines c ans = (s, false) := by
  cases ans with
  | none => rfl
  | some a => simp [postLines, h]

theorem recorded_within : Within [.drawers, .booksKept, .port, .counters, .screens, .journal, .records] s (s.recorded c tag) :=
  (appendClaimed_within _ _).after ((postItems_within s _).mono)

theorem concluded_within (b : Bool) : Within [.drawers, .line, .screens] s (s.concluded c ans b) :=
  (showNotReleased_within _ _).after ((postScreens_within _ _ _ _).after ((releaseDrawers_within _ _).mono))

theorem recorded_journal : (s.recorded c tag).journal =
    { s.withRecord (c.postBody tag) with claims := s.journal.claims - 1 } := by
  have hitems := postItems_within s c.items
  have hjournal : (s.postItems c.items).journal = s.journal := hitems .journal (by decide)
  have hrecord := withRecord_congr hjournal (hitems .day (by decide)) (c.postBody tag)
  unfold recorded
  rw [appendClaimed_eq]
  dsimp only
  rw [hrecord, hjournal]

theorem post_journal : (s.post c tag ans).journal =
    { s.withRecord (c.postBody tag) with claims := s.journal.claims - 1 } := by
  rw [post_eq, concluded_within _ .journal (by decide), postLines_within _ _ _ .journal (by decide), recorded_journal]

/-! ### The drawers -/

/-- The drawers that a list of items names, each once, in ascending order. -/
theorem itemDrawers_nodup (items : List Item) : (itemDrawers items).Nodup := allDrawers_nodup.filter _

theorem mem_itemDrawers {items : List Item} {d : Nat} : d ∈ itemDrawers items ↔ d ≤ 24 ∧ ∃ x ∈ items, x.drawer = d := by
  simp only [itemDrawers, List.mem_filter, mem_allDrawers, List.any_eq_true, beq_iff_eq]

theorem offerRelease_drawers (d : Nat) : (s.offerRelease d).drawers = s.drawers := offerRelease_within s d .drawers (by decide)

/-- The drawers named that have a serving unit become release-pending, and no other changes (R107). -/
theorem releaseDrawers_drawer {ds : List Nat} (hds : ds.Nodup) (hin : ∀ d ∈ ds, d ≤ 24) (d : Nat) :
    (s.releaseDrawers ds).drawer d =
      if d ∈ ds ∧ s.tables.serving d = true then { s.drawer d with releasePending := true } else s.drawer d := by
  have hset : ∀ (t : State) (e j : Nat),
      ((t.setDrawer e { t.drawer e with releasePending := true }).offerRelease e).drawer j =
        if e = j ∧ e < 25 then { t.drawer e with releasePending := true } else t.drawer j := fun t e j =>
    (drawer_congr (offerRelease_drawers e) j).trans (drawer_setDrawer ..)
  have hplaces := foldl_places (fun t j => t.drawer j)
    (fun t e => (t.setDrawer e { t.drawer e with releasePending := true }).offerRelease e)
    (fun _ _ x => { x with releasePending := true })
    (fun t i j hij => (hset t i j).trans (if_neg fun h => hij h.1)) (fun _ _ _ _ => rfl)
    (l := ds.filter s.tables.serving)
    (fun t i hi => (hset t i i).trans (if_pos ⟨rfl, Nat.lt_succ_of_le (hin i (List.mem_filter.mp hi).1)⟩))
    (hds.filter _) s d
  simp only [List.mem_filter] at hplaces
  exact hplaces

theorem postScreens_drawers (b : Bool) : (s.postScreens c ans b).drawers = s.drawers :=
  postScreens_within s c ans b .drawers (by decide)

theorem concluded_drawer (b : Bool) (d : Nat) : (s.concluded c ans b).drawer d =
    if d ∈ itemDrawers c.items ∧ s.tables.serving d = true then { s.drawer d with releasePending := true }
    else s.drawer d := by
  rw [← releaseDrawers_drawer (itemDrawers_nodup c.items) (fun e he => (mem_itemDrawers.mp he).1) d]
  exact (drawer_congr (showNotReleased_within _ _ .drawers (by decide)) d).trans
    (drawer_congr (postScreens_drawers b) d)

/-- A posting moves its items into the books (R86, R103). -/
theorem post_posted (hcover : BooksCover c.items s) : ItemsPosted c.items s (s.post c tag ans) := by
  refine (s.postItems_posted c.items hcover).congr rfl fun d => ?_
  have hlines : ((s.recorded c tag).postLines c ans).1.drawer d = (s.postItems c.items).drawer d :=
    (drawer_congr (postLines_within _ _ _ .drawers (by decide)) d).trans
      (drawer_congr (appendClaimed_within _ _ .drawers (by decide)) d)
  rw [post_eq, concluded_drawer, hlines]
  split
  · exact ⟨rfl, rfl, rfl, rfl, rfl, rfl, rfl, rfl⟩
  · exact ⟨rfl, rfl, rfl, rfl, rfl, rfl, rfl, rfl⟩

/-! ### The outcomes of a posting (R86, R107) -/

/-- Screen y differs from x by outcomes shown and rows marked: form, conditions and balance are the same, and the dirty rows
of x are dirty in y. -/
structure Reshown (x y : Screen) : Prop where
  form : y.form = x.form
  alert : y.alert = x.alert
  override : y.override = x.override
  balance : y.view.balance = x.view.balance
  dirty : ∀ r, 1 ≤ r → r ≤ 24 → r ∈ x.dirty → r ∈ y.dirty

theorem Reshown.refl (x : Screen) : Reshown x x := ⟨rfl, rfl, rfl, rfl, fun _ _ _ h => h⟩

theorem Reshown.trans {x y z : Screen} (h : Reshown x y) (g : Reshown y z) : Reshown x z :=
  ⟨g.form.trans h.form, g.alert.trans h.alert, g.override.trans h.override, g.balance.trans h.balance,
    fun r h1 h24 hr => g.dirty r h1 h24 (h.dirty r h1 h24 hr)⟩

theorem reshown_outcome (t : Tables) (o : Shown) (x : Screen) : Reshown x ((x.takeOutcome t o).settle t) := by
  rw [Screen.settle_eq]
  refine ⟨rfl, rfl, rfl, rfl, fun r h1 h24 hr => ?_⟩
  exact Screen.mem_mark_dirty (sc := { x with
    last := some o, view := { x.view with stateMsg := some (.shown o) }, urgent := true }) h1 h24 hr

theorem showAt_reshown (p : Nat) (o : Shown) (q : Nat) : Reshown (s.screen q) ((s.showAt p o).screen q) := by
  unfold showAt onScreen
  rw [screen_setScreen]
  split
  · next h =>
    rw [h.1]
    exact reshown_outcome ..
  · exact .refl _

theorem showAll_reshown (ps : List Nat) (o : Shown) (q : Nat) : Reshown (s.screen q) ((s.showAll ps o).screen q) := by
  induction ps generalizing s with
  | nil => exact .refl _
  | cons p ps ih => exact (showAt_reshown p o q).trans (ih (s := s.showAt p o))

theorem showNotReleased_reshown (ds : List Nat) (q : Nat) : Reshown (s.screen q) ((s.showNotReleased ds).screen q) := by
  induction ds generalizing s with
  | nil => exact .refl _
  | cons d ds ih =>
    exact (showAll_reshown (s.tables.drawerPositions d) .drawerNotReleased q).trans
      (ih (s := s.showAll (s.tables.drawerPositions d) .drawerNotReleased))

/-- An outcome that is already shown stays shown when it is the only one shown again. -/
theorem showAt_shows_again {p q : Nat} {o : Shown} (h : Shows s q o) : Shows (s.showAt p o) q o := by
  by_cases hq : q = p
  · subst hq
    by_cases hp : 1 ≤ q ∧ q ≤ 24
    · exact showAt_shows s hp o
    · unfold Shows at h ⊢
      rwa [screen_outside _ hp, ← screen_outside s hp]
  · unfold Shows at h ⊢
    rwa [screen_showAt_other s hq]

theorem showAll_shows {ps : List Nat} {o : Shown} {q : Nat} (hq : 1 ≤ q ∧ q ≤ 24) (h : q ∈ ps ∨ Shows s q o) :
    Shows (s.showAll ps o) q o := by
  induction ps generalizing s with
  | nil => exact h.resolve_left List.not_mem_nil
  | cons p ps ih =>
    refine ih (s := s.showAt p o) ?_
    obtain hmem | hshown := h
    · obtain rfl | hmem := List.mem_cons.mp hmem
      · exact Or.inr (showAt_shows s hq o)
      · exact Or.inl hmem
    · exact Or.inr (showAt_shows_again hshown)

/-- DRAWER_NOT_RELEASED is shown at every position of a drawer whose RELEASE was refused (R107). -/
theorem showNotReleased_shows {ds : List Nat} {q : Nat} (hq : 1 ≤ q ∧ q ≤ 24)
    (h : s.tables.ownDrawer q ∈ ds ∨ Shows s q .drawerNotReleased) : Shows (s.showNotReleased ds) q .drawerNotReleased := by
  induction ds generalizing s with
  | nil => exact h.resolve_left List.not_mem_nil
  | cons d ds ih =>
    have htables : (s.showAll (s.tables.drawerPositions d) .drawerNotReleased).tables = s.tables :=
      showAll_within s _ _ .tables (by decide)
    refine ih (s := s.showAll (s.tables.drawerPositions d) .drawerNotReleased) ?_
    rw [htables]
    obtain hmem | hshown := h
    · obtain rfl | hmem := List.mem_cons.mp hmem
      · refine Or.inr (showAll_shows hq (Or.inl ?_))
        exact List.mem_filter.mpr ⟨mem_allPositions.mpr hq, by simp⟩
      · exact Or.inl hmem
    · exact Or.inr (showAll_shows hq (Or.inr hshown))

/-- The outcome of a posting whose print lines were queued or not due, or not queued. -/
def postOutcome (notPrinted : Bool) : Shown := if notPrinted then .notPrinted else .approved

/-- The screen of the requesting position before effect 5's own marks: the answer form taken and the drawer rows marked. -/
def formed (s : State) (c : Captured) : State :=
  (match c.snap.answerForm with
    | some f => s.takeForm c.pos f
    | none => s).itemReports c.items

/-- The balance that an answer leaves; a posting without an answer leaves the screen's own. -/
def answerBalance (t : Tables) (ans : Option Answer) (sc : Screen) : Screen :=
  match ans with
  | some a => sc.takeBalance t a.balance
  | none => sc

theorem formed_form (hp : 1 ≤ c.pos ∧ c.pos ≤ 24) :
    ((s.formed c).screen c.pos).form = c.snap.answerForm.getD (s.screen c.pos).form := by
  unfold formed
  rw [((itemReports_onlyMarks _ _).keeps c.pos).form]
  cases c.snap.answerForm with
  | none => rfl
  | some f =>
    show ((s.takeForm c.pos f).screen c.pos).form = f
    unfold takeForm
    rw [screen_onScreen_same s hp]
    simp

theorem formed_tables : (s.formed c).tables = s.tables := by
  unfold formed
  rw [itemReports_within _ _ .tables (by decide)]
  cases c.snap.answerForm <;> rfl

theorem postScreens_screen (hp : 1 ≤ c.pos ∧ c.pos ≤ 24) (b : Bool) : (s.postScreens c ans b).screen c.pos =
    ((((answerBalance s.tables ans ((s.formed c).screen c.pos)).mark s.tables Screen.viewSource).takeOutcome s.tables
      (postOutcome b)).settle s.tables) := by
  rw [← formed_tables (s := s) (c := c)]
  exact screen_onScreen_same (s.formed c) hp _

theorem answerBalance_form (t : Tables) (sc : Screen) : (answerBalance t ans sc).form = sc.form := by
  cases ans with
  | none => rfl
  | some a => exact Screen.takeBalance_form _

theorem answerBalance_balance (t : Tables) (sc : Screen) {a : Answer} (h : ans = some a) :
    (answerBalance t ans sc).view.balance = a.balance := by
  rw [h]
  simp [answerBalance]

theorem postScreens_shows (hp : 1 ≤ c.pos ∧ c.pos ≤ 24) (b : Bool) :
    Shows (s.postScreens c ans b) c.pos (postOutcome b) := by
  unfold Shows
  rw [postScreens_screen hp]
  exact ⟨by simp, by simp⟩

theorem releaseDrawers_screens (ds : List Nat) : (s.releaseDrawers ds).screens = s.screens :=
  releaseDrawers_within s ds .screens (by decide)

/-- The form and the balance on the requesting position's screen after a posting (R86, R150). -/
theorem concluded_form (hp : 1 ≤ c.pos ∧ c.pos ≤ 24) (b : Bool) :
    ((s.concluded c ans b).screen c.pos).form = c.snap.answerForm.getD (s.screen c.pos).form := by
  unfold concluded
  rw [(showNotReleased_reshown _ _).form, postScreens_screen hp]
  simp only [Screen.settle_form, Screen.takeOutcome_form, Screen.mark_form, answerBalance_form]
  rw [formed_form hp, screen_congr (releaseDrawers_screens _)]

theorem concluded_balance (hp : 1 ≤ c.pos ∧ c.pos ≤ 24) (b : Bool) {a : Answer} (h : ans = some a) :
    ((s.concluded c ans b).screen c.pos).view.balance = a.balance := by
  unfold concluded
  rw [(showNotReleased_reshown _ _).balance, postScreens_screen hp]
  simp [answerBalance_balance _ _ h]

/-- The outcome stands when no RELEASE is refused (R107). -/
theorem concluded_shows (hp : 1 ≤ c.pos ∧ c.pos ≤ 24) (b : Bool)
    (hpresent : s.refusedReleases (itemDrawers c.items) = []) : Shows (s.concluded c ans b) c.pos (postOutcome b) := by
  unfold concluded
  rw [hpresent]
  exact postScreens_shows hp b

theorem refusedReleases_of_present (h : ∀ d, s.tables.serving d = true → (s.unit d 2).presence = .present) (ds : List Nat) :
    s.refusedReleases ds = [] := by
  refine List.filter_eq_nil_iff.mpr fun d hd => ?_
  have hpresent := h d (List.mem_filter.mp hd).2
  unfold releaseRefused offerAnswer
  rw [if_neg (not_not_intro hpresent)]
  split <;> simp

/-! ### A posting whole -/

/-- What a posting leaves possible, as a record update: of the line the units' records alone. -/
theorem post_merge : s.post c tag ans = { s with
    drawers := (s.post c tag ans).drawers, screens := (s.post c tag ans).screens
    printers := (s.post c tag ans).printers, store := (s.post c tag ans).store
    line := { s.line with recs := (s.post c tag ans).line.recs }
    port := (s.post c tag ans).port, counters := (s.post c tag ans).counters
    journal := { s.withRecord (c.postBody tag) with claims := s.journal.claims - 1 } } := by
  have hmerge := (post_within s c tag ans).eq_merge
  have hline : (s.post c tag ans).line = { s.line with recs := (s.post c tag ans).line.recs } :=
    post_within s c tag ans .lineRest (by decide)
  have hjournal := post_journal (s := s) (c := c) (tag := tag) (ans := ans)
  generalize s.post c tag ans = u at hmerge hline hjournal ⊢
  rw [← hline, ← hjournal]
  exact hmerge

/-- Without print lines a posting touches neither printers nor store. -/
theorem post_unprinted (h : ((s.recorded c tag).postLines c ans).1 = s.recorded c tag) :
    (s.post c tag ans).printers = s.printers ∧ (s.post c tag ans).store = s.store := by
  rw [post_eq, concluded_within _ .printers (by decide), concluded_within _ .store (by decide), h]
  exact ⟨recorded_within .printers (by decide), recorded_within .store (by decide)⟩

end State

end Sys2Proof.Machine

namespace Sys2Proof.Proofs

open Sys2Proof.Machine Sys2Proof.Machine.State

/-- Settles O23: an INQUIRY is shown and freed; any other class takes the posting hand-off. -/
theorem answerApproves : Obligations.AnswerApproves := by
  unfold Obligations.AnswerApproves
  intro s tag i payload a e hs hparsed ha he htag hst h1 h24
  have hi := entry_index s he
  have hexec : exec (.answer tag payload) s = .next (s.approve i e a) :=
    congrArg Host.Outcome.next (takeAnswer_of_approve hs hparsed ha he htag hst)
  by_cases hcls : e.req.snap.cls = .inquiry
  · have happrove : s.approve i e a = ((s.answerScreen e.req a.balance .approved).freeEntry i).testCompletion := if_pos hcls
    obtain ⟨hshows, hform, hbalance⟩ := answerScreen_shows (s := s) (c := e.req) ⟨h1, h24⟩ a.balance .approved
    refine ⟨(s.answerScreen e.req a.balance .approved).freeEntry i, by rw [hexec, happrove], entry_setEntry_same hi none,
      fun f hf => ?_, hbalance, fun _ => ⟨rfl, hshows.congr rfl, fun p hp => answerScreen_other hp _ _⟩,
      fun h => absurd hcls h⟩
    rw [hf] at hform
    exact hform
  · have happrove : s.approve i e a = ((s.post e.req (some e.tag) (some a)).freeEntry i).testCompletion := if_neg hcls
    have hpos : 1 ≤ e.req.pos ∧ e.req.pos ≤ 24 := ⟨h1, h24⟩
    refine ⟨(s.post e.req (some e.tag) (some a)).freeEntry i, by rw [hexec, happrove], entry_setEntry_same hi none,
      fun f hf => ?_, fun b hb => ?_, fun h => absurd h hcls, fun _ hcover => ⟨?_, ?_, fun hprint hpresent => ⟨?_, ?_⟩⟩⟩
    · have hform := concluded_form (s := ((s.recorded e.req (some e.tag)).postLines e.req (some a)).1) (ans := some a) hpos
        ((s.recorded e.req (some e.tag)).postLines e.req (some a)).2
      rw [hf] at hform
      exact hform
    · exact (concluded_balance hpos _ rfl).trans hb
    · have hmerge := post_merge (s := s) (c := e.req) (tag := some e.tag) (ans := some a)
      generalize s.post e.req (some e.tag) (some a) = u at hmerge ⊢
      rw [hmerge]
      rfl
    · exact (post_posted hcover).congr rfl fun d => ⟨rfl, rfl, rfl, rfl, rfl, rfl, rfl, rfl⟩
    · have hlines := postLines_of_unprinted (s := s.recorded e.req (some e.tag)) hprint (some a)
      have hnone : (s.recorded e.req (some e.tag)).refusedReleases (itemDrawers e.req.items) = [] := by
        refine refusedReleases_of_present (fun d hd => ?_) _
        have hwithin := recorded_within (s := s) (c := e.req) (tag := some e.tag)
        rw [unit_congr (congrArg Line.recs (hwithin .line (by decide)))]
        rw [hwithin .tables (by decide)] at hd
        exact hpresent d hd
      have hshows := concluded_shows (c := e.req) (ans := some a) hpos false hnone
      refine Shows.congr (t := s.post e.req (some e.tag) (some a)) ?_ rfl
      rw [post_eq, hlines]
      exact hshows
    · obtain ⟨hprinters, hstore⟩ := post_unprinted (s := s) (c := e.req) (tag := some e.tag) (ans := some a)
        (by rw [postLines_of_unprinted hprint])
      rw [← hprinters, ← hstore]
      rfl

end Sys2Proof.Proofs
end

