-- ==== Sys2Proof/Proofs/Grants.lean ====
section
/-! A granted override: posted at once, forwarded to the centre, or kept until a slot is free (R81 to R83). -/

set_option Elab.async false

namespace Sys2Proof.Machine

namespace State

variable {s b : State} {i : Nat} {e : Entry} {sup : Nat}

/-- The entry once its grant has used a claim and stopped its wait (R82). -/
def grantedEntry (e : Entry) : Entry := { e with claim := e.claim - 1, timer := none }

/-- The state of a grant before its way is taken: the entry off the list, the OVERRIDE record written (R82). -/
def granting (s : State) (i : Nat) (e : Entry) (sup : Nat) : State :=
  ((s.setOverrides (s.overrides.filter (· != i))).appendClaimed (e.overrideBody sup)).setEntry i (some (grantedEntry e))

theorem granting_eq : s.granting i e sup = { s with
    overrides := s.overrides.filter (· != i), screens := (s.granting i e sup).screens
    entries := wr s.entries i (some (grantedEntry e))
    journal := { s.withRecord (e.overrideBody sup) with claims := s.journal.claims - 1 }
    port := s.portAfterRecord, counters := s.countersAfterRecord } := by
  have hlist := setOverrides_eq (s := s) (s.overrides.filter (· != i))
  unfold granting
  rw [appendClaimed_eq]
  generalize s.setOverrides (s.overrides.filter (· != i)) = t at hlist ⊢
  rw [hlist]
  rfl

theorem grantOverride_of_branch (h : e.req.snap.auth = .branch) : s.grantOverride i e sup =
    (((s.granting i e sup).post e.req (some e.tag) none).freeEntry i).testCompletion := by
  unfold grantOverride
  rw [h]
  rfl

theorem grantOverride_of_room (h : e.req.snap.auth = .central)
    (hroom : s.port.queue.length + s.nearlyFullNotice.length < 64) :
    s.grantOverride i e sup = (s.granting i e sup).forward i (grantedEntry e) := by
  have hfree : (s.granting i e sup).hasRoom = true := by
    rw [hasRoom_iff, granting_eq]
    exact Nat.lt_of_not_le fun hn => absurd (portAfterRecord_length.mpr hn) (Nat.not_le.mpr hroom)
  unfold grantOverride
  rw [h]
  exact if_pos hfree

theorem grantOverride_of_full (h : e.req.snap.auth = .central)
    (hfull : 64 ≤ s.port.queue.length + s.nearlyFullNotice.length) : s.grantOverride i e sup =
      ((s.granting i e sup).setEntry i (some { grantedEntry e with granted := true })).reportEntry e.req.pos .queued := by
  have hnone : ¬ (s.granting i e sup).hasRoom = true := by
    rw [hasRoom_iff, granting_eq]
    exact Nat.not_lt.mpr (portAfterRecord_length.mp hfull)
  unfold grantOverride
  rw [h]
  exact if_neg hnone

/-- A grant that passes its checks is taken (R81, R82). -/
theorem exec_grant {q seq : Nat} (hs : s.EntriesSound) (he : s.entry i = some e) (hst : e.state = .waitingOverride)
    (hg : e.granted = false) (hawaits : s.Awaits q 0 seq) (hb : b = (s.accepted q 0 seq).copyRole q)
    (hsup : b.supervisor q = true) (ht : (s.session q).teller = some sup) (hother : sup ≠ e.req.teller)
    (hlimit : e.req.equiv.getD 0 ≤ s.overrideLimit sup) :
    exec (.override q seq e.tag 1) s = .next (b.grantOverride i e sup) := by
  have hq := position_of_supervisor hsup
  have hentries : b.entries = s.entries := by
    rw [hb]
    exact copyRole_within _ q .entries (by decide)
  have hbsound : b.EntriesSound := by
    unfold EntriesSound
    rwa [hentries]
  have hbteller : (b.session q).teller = some sup := by
    rw [hb, copyRole_teller _ hq, accepted_session, ht]
  have hblimit : b.overrideLimit sup = s.overrideLimit sup := by simp [hb, overrideLimit]
  have hfound := overrideOf_of_entry hbsound ((entry_congr hentries i).trans he) hst
  rw [exec_override_of_decision hawaits (Or.inl rfl), ← hb, decideOverride_found hsup hbteller hfound,
    if_neg (Ne.symm hother)]
  simp [hg, hblimit, Nat.not_lt.mpr hlimit]

end State

end Sys2Proof.Machine

namespace Sys2Proof.Proofs

open Sys2Proof.Machine Sys2Proof.Machine.State

/-- Settles O27: the three ways of a grant. -/
theorem overrideGranted : Obligations.OverrideGranted := by
  unfold Obligations.OverrideGranted
  intro s b i q seq e sup hs he hst hg h1 h24 hawaits hb hsup hteller hother hlimit
  have hexec := exec_grant hs he hst hg hawaits hb hsup hteller hother hlimit
  have hrole := copyRole_within (s.accepted q 0 seq) q
  have hsame : b.entries = s.entries ∧ b.overrides = s.overrides ∧ b.journal = s.journal ∧ b.day = s.day ∧
      b.drawers = s.drawers ∧ b.port = s.port ∧ b.counters = s.counters ∧ b.tables = s.tables := by
    rw [hb]
    exact ⟨hrole .entries (by decide), hrole .overrides (by decide), hrole .journal (by decide), hrole .day (by decide),
      hrole .drawers (by decide), hrole .port (by decide), hrole .counters (by decide), hrole .tables (by decide)⟩
  obtain ⟨hentries, hoverrides, hjournal, hday, hdrawers, hport, hcounters, htables⟩ := hsame
  have hnotice : b.nearlyFullNotice = s.nearlyFullNotice := by rw [nearlyFullNotice, hjournal]; rfl
  have hrecord : b.withRecord (e.overrideBody sup) = s.withRecord (e.overrideBody sup) := withRecord_congr hjournal hday _
  have heq := granting_eq (s := b) (i := i) (e := e) (sup := sup)
  refine ⟨fun hauth hroom => ?_, fun hauth hfull => ?_, fun hauth hcover => ?_⟩
  · have hbroom : b.port.queue.length + b.nearlyFullNotice.length < 64 := by rwa [hport, hnotice]
    have hfree : b.port.queue.length < 64 := by omega
    have hframe := b.portAfterRecord_withFrame hfree (.request e.centreRequest)
    have hforward := forward_eq (s := b.granting i e sup) (i := i) (e := grantedEntry e)
    refine ⟨(b.granting i e sup).forward i (grantedEntry e), by rw [hexec, grantOverride_of_room hauth hbroom], ?_, ?_⟩
    · exact (congrArg (fun x => x.view.stateMsg) (forward_screen_same (e := grantedEntry e) ⟨h1, h24⟩)).trans rfl
    · generalize (b.granting i e sup).forward i (grantedEntry e) = u at hforward ⊢
      generalize b.granting i e sup = t at heq hforward
      rw [hforward, heq, b.countersAfterRecord_of_room hfree]
      dsimp only
      rw [hport, hnotice] at hframe
      rw [wr_wr, hrecord, hentries, hoverrides, hjournal, htables, ← hframe]
      rfl
  · have hbfull : 64 ≤ b.port.queue.length + b.nearlyFullNotice.length := by rwa [hport, hnotice]
    refine ⟨((b.granting i e sup).setEntry i (some { grantedEntry e with granted := true })).reportEntry e.req.pos .queued,
      by rw [hexec, grantOverride_of_full hauth hbfull], ?_, ?_⟩
    · exact congrArg (fun x => x.view.stateMsg) (screen_onScreen_same _ ⟨h1, h24⟩ _)
    · have hportAfter : b.portAfterRecord = s.portAfterRecord := by
        unfold portAfterRecord withFrame
        rw [hport, hjournal]
        rfl
      have hcountersAfter : b.countersAfterRecord = s.countersAfterRecord := by
        unfold countersAfterRecord
        rw [hport, hjournal, hcounters]
      have hreport : ∀ t : State, t.reportEntry e.req.pos .queued =
          { t with screens := (t.reportEntry e.req.pos .queued).screens } := fun _ => rfl
      rw [hreport]
      generalize b.granting i e sup = t at heq ⊢
      rw [heq]
      show ({ b with
        entries := wr (wr b.entries i (some (grantedEntry e))) i (some { grantedEntry e with granted := true })
        overrides := _, screens := _, port := _, counters := _, journal := _ } : State) = _
      rw [wr_wr, hrecord, hentries, hoverrides, hjournal, hportAfter, hcountersAfter]
      rfl
  · have hmerge := post_merge (s := b.granting i e sup) (c := e.req) (tag := some e.tag) (ans := none)
    have hposted := post_posted (s := b.granting i e sup) (c := e.req) (tag := some e.tag) (ans := none)
    obtain ⟨hprinters, hstore⟩ := post_unprinted (s := b.granting i e sup) (c := e.req) (tag := some e.tag) (ans := none) rfl
    have hgdrawers : (b.granting i e sup).drawers = s.drawers := by rw [heq]; exact hdrawers
    have hgjournal : (b.granting i e sup).journal =
        { s.withRecord (e.overrideBody sup) with claims := s.journal.claims - 1 } := by
      rw [heq]
      dsimp only
      rw [hrecord, hjournal]
    have hcovered : BooksCover e.req.items (b.granting i e sup) := fun d c k hd hc h1 h12 => by
      rw [drawer_congr hgdrawers]
      exact hcover d c k hd hc h1 h12
    refine ⟨((b.granting i e sup).post e.req (some e.tag) none).freeEntry i, by rw [hexec, grantOverride_of_branch hauth],
      ?_, ?_, ?_, ?_⟩
    · exact (hposted hcovered).congr hgdrawers.symm fun d => ⟨rfl, rfl, rfl, rfl, rfl, rfl, rfl, rfl⟩
    · show ((b.granting i e sup).post e.req (some e.tag) none).journal.claims = _
      rw [post_journal, hgjournal]
    · show ((b.granting i e sup).post e.req (some e.tag) none).journal.records.map (·.body) = _
      rw [post_journal]
      simp only [withRecord, hgjournal]
      simp
    · generalize (b.granting i e sup).post e.req (some e.tag) none = u at hmerge hprinters hstore ⊢
      rw [hprinters, hstore] at hmerge
      generalize hg : b.granting i e sup = t at hmerge heq
      have hj : u.journal = _ := congrArg State.journal hmerge
      dsimp only at hj
      rw [← hj] at hmerge
      generalize hx : u.journal = j at hmerge
      rw [heq] at hmerge
      refine (congrArg (fun x => x.freeEntry i) hmerge).trans ?_
      show ({ b with
        entries := wr (wr b.entries i (some (grantedEntry e))) i none
        overrides := _, screens := _, drawers := _, line := _, port := _, counters := _, journal := _ } : State) = _
      rw [wr_wr, hentries, hoverrides, ← hx]
      rfl

end Sys2Proof.Proofs
end

