-- ==== Sys2Proof/Proofs/Acceptance.lean ====
section
/-! The acceptance of a REQUEST (R58 to R62): its checks as one answer, and the ways of a request that passes. -/

set_option Elab.async false

namespace Sys2Proof.Machine

namespace State

variable {s b : State} {p seq : Nat} {r : Request} {e : CodeEntry} {x : Passed} {f : Refused}

/-! ### The checks as one answer -/

/-- The code and the figures of a request that passes the checks of R59 to R62, or the refusal of the first that fails. -/
def acceptance (s : State) (p : Nat) (r : Request) : Except Refused (CodeEntry × Passed) :=
  match firstFailure (s.sessionChecks p r) with
  | some o => .error { outcome := o, cash := none }
  | none =>
    match s.tables.findCode r.code with
    | none => .error { outcome := .codeUnknown, cash := none }
    | some e =>
      match firstFailure (s.codeChecks p r e) with
      | some o => .error { outcome := o, cash := none }
      | none =>
        match s.checksFrom8 p r e with
        | .error f => .error f
        | .ok x => .ok (e, x)

theorem takeRequest_of_error (h : (s.copyRole p).acceptance p r = .error f) :
    s.takeRequest p r = (s.copyRole p).refuse p r f := by
  unfold takeRequest
  unfold acceptance at h
  grind

theorem takeRequest_of_ok (h : (s.copyRole p).acceptance p r = .ok (e, x)) :
    s.takeRequest p r = (s.copyRole p).carryThrough p r e x := by
  unfold takeRequest
  unfold acceptance at h
  grind

theorem freeIndex_isNone_iff : s.freeIndex.isNone = true ↔ s.pendingCount = 32 := by
  have hfull : s.pendingCount = 32 ↔ ∀ i ∈ List.range 32, (s.entry i).isSome = true := by
    rw [s.pendingCount_eq]
    exact List.length_filter_eq_length_iff (l := List.range 32)
  rw [hfull, Option.isNone_iff_eq_none]
  simp [freeIndex, List.find?_eq_none, Option.ne_none_iff_isSome]

theorem firstFailure_sessionChecks : firstFailure (s.sessionChecks p r) =
    if s.lock = 0 then some .notLive
    else if (s.session p).state = .signedOff then some .notSignedOn
    else if (s.session p).state = .suspended then some .suspended
    else if (s.waitingAt p).isSome = true then some .busy
    else if (s.tables.findCode r.code).isNone = true then some .codeUnknown else none := by
  simp [sessionChecks, firstFailure, live]

theorem firstFailure_codeChecks : firstFailure (s.codeChecks p r e) =
    if (((s.session p).role.map Role.rank).getD 0) < e.minRole.rank then some .role
    else if (e.cls.customer = true ∧ s.day.state ≠ .opened) ∨ (s.day.state ≠ .opened ∧ s.day.state ≠ .cutoff) then
      some .dayClosed
    else if 3 < r.cur ∨ r.cur ∉ e.allowed ∨ s.tables.currency r.cur = none then some .currency else none := by
  have hday : s.dayRefuses e.cls = true ↔
      (e.cls.customer = true ∧ s.day.state ≠ .opened) ∨ (s.day.state ≠ .opened ∧ s.day.state ≠ .cutoff) := by
    simp only [dayRefuses, Bool.and_eq_true, Bool.or_eq_true, bne_iff_ne]
    tauto
  have hcur : (decide (3 < r.cur) || !e.allowed.contains r.cur || (s.tables.currency r.cur).isNone) = true ↔
      3 < r.cur ∨ r.cur ∉ e.allowed ∨ s.tables.currency r.cur = none := by
    simp [or_assoc]
  simp only [codeChecks, firstFailure, hday, hcur, decide_eq_true_eq]

theorem firstFailure_amountChecks {cls : TxClass} : firstFailure (s.amountChecks r cls) =
    if s.rateNeeded cls r.cur = some 0 then some .rateMissing
    else if cls ≠ .inquiry ∧ (r.amount = 0 ∨ 999999999999 < r.amount ∨ 999999999999 < (s.equivOf cls r).getD 0 ∨
        (s.exchangeOf cls r ≠ none ∧ (((s.exchangeOf cls r).map (·.cash)).getD 0 = 0 ∨
          999999999999 < ((s.exchangeOf cls r).map (·.cash)).getD 0))) then some .amount
    else none := by
  have hmax (n : Nat) : decide (Config.amountMax < n) = decide (999999999999 < n) := rfl
  unfold amountChecks
  cases hx : s.exchangeOf cls r with
  | none => simp [firstFailure, hmax, or_assoc]
  | some y => simp [firstFailure, hmax, or_assoc]

theorem firstFailure_spaceChecks {override : Bool} {claim : Nat} : firstFailure (s.spaceChecks e override claim) =
    if s.generalSpace < claim then some .journalFull
    else if ((e.auth = .central ∨ e.cls = .inquiry) ∨ override = true) ∧ s.pendingCount = 32 then some .tableFull
    else if (e.auth = .central ∨ e.cls = .inquiry) ∧ override = false ∧ 64 ≤ s.port.queue.length then some .linkBusy
    else none := by
  have htable : ((goesToCentre e || override) && s.freeIndex.isNone) = true ↔
      ((e.auth = .central ∨ e.cls = .inquiry) ∨ override = true) ∧ s.pendingCount = 32 := by
    rw [Bool.and_eq_true, freeIndex_isNone_iff]
    simp [goesToCentre]
  have hlink : (goesToCentre e && !override && !s.hasRoom) = true ↔
      (e.auth = .central ∨ e.cls = .inquiry) ∧ override = false ∧ 64 ≤ s.port.queue.length := by
    simp [goesToCentre, ← Nat.not_lt, ← hasRoom_iff, and_assoc]
  simp only [spaceChecks, firstFailure, htable, hlink, decide_eq_true_eq]

theorem targetClosed_iff {drawers : List Nat} :
    s.targetClosed drawers = true ↔ ∃ d ∈ drawers, (s.drawer d).state ≠ .active := by
  simp [targetClosed]

/-- The refusal of an answer. -/
def refusalOf {α : Type} : Except Refused α → Option Refused
  | .error f => some f
  | .ok _ => none

/-- Checks 8 to 17 alone, as the statements name them. -/
theorem refusalOf_checksFrom8 : refusalOf (s.checksFrom8 p r e) =
    let fails (o : Shown) : Option Refused := some { outcome := o, cash := none }
    let exch := s.exchangeOf e.cls r
    let cash := (exch.map (·.cash)).getD 0
    let equiv := s.equivOf e.cls r
    let out := outSide e.cls (s.tables.ownDrawer p) r cash
    let override := s.needsOverride p e equiv
    let central := e.auth = .central ∨ e.cls = .inquiry
    if s.rateNeeded e.cls r.cur = some 0 then fails .rateMissing
    else if e.cls ≠ .inquiry ∧ (r.amount = 0 ∨ 999999999999 < r.amount ∨ 999999999999 < equiv.getD 0 ∨
        (exch ≠ none ∧ (cash = 0 ∨ 999999999999 < cash))) then fails .amount
    else match s.breakdownCheck e r cash with
    | some f => some f
    | none =>
      if ∃ d ∈ e.cls.target (s.tables.ownDrawer p), (s.drawer d).state ≠ .active then fails .drawerState
      else match s.outgoingSide out with
      | .error o => fails o
      | .ok leaving =>
        if s.incomingSideFits (inSide e.cls (s.tables.ownDrawer p) r leaving) = false then fails .drawerFull
        else if s.generalSpace < (if e.cls = .inquiry then 0 else if override then 2 else 1) then fails .journalFull
        else if (central ∨ override = true) ∧ s.pendingCount = 32 then fails .tableFull
        else if central ∧ override = false ∧ 64 ≤ s.port.queue.length then fails .linkBusy
        else none := by
  unfold checksFrom8
  simp only [firstFailure_amountChecks, firstFailure_spaceChecks, targetClosed_iff, Bool.not_eq_true',
    Nat.cast_ite, Nat.cast_zero, Nat.cast_one, Nat.cast_ofNat]
  by_cases hrate : s.rateNeeded e.cls r.cur = some 0
  · simp only [if_pos hrate, refusalOf]
  simp only [if_neg hrate]
  symm
  split
  · simp only [refusalOf]
  cases s.breakdownCheck e r (((s.exchangeOf e.cls r).map (·.cash)).getD 0) with
  | some f => rfl
  | none =>
    dsimp only
    by_cases hclosed : ∃ d ∈ e.cls.target (s.tables.ownDrawer p), (s.drawer d).state ≠ .active
    · simp only [if_pos hclosed, refusalOf]
    simp only [if_neg hclosed]
    cases s.outgoingSide (outSide e.cls (s.tables.ownDrawer p) r (((s.exchangeOf e.cls r).map (·.cash)).getD 0)) with
    | error o => rfl
    | ok leaving =>
      dsimp only
      split
      · simp only [refusalOf]
      by_cases hspace : s.generalSpace <
          if e.cls = .inquiry then 0 else if s.needsOverride p e (s.equivOf e.cls r) = true then 2 else 1
      · simp only [if_pos hspace, refusalOf]
      simp only [if_neg hspace]
      split
      · simp only [refusalOf]
      split
      · simp only [refusalOf]
      · simp only [refusalOf]

/-- The refusal that the statements name is the model's (R59 to R62, R105). -/
theorem firstRefusal_eq : s.firstRefusal p r = refusalOf (s.acceptance p r) := by
  unfold firstRefusal acceptance
  simp only [firstFailure_sessionChecks]
  by_cases hlock : s.lock = 0
  · simp only [if_pos hlock, refusalOf]
  simp only [if_neg hlock]
  by_cases hout : (s.session p).state = .signedOff
  · simp only [if_pos hout, refusalOf]
  simp only [if_neg hout]
  by_cases hsusp : (s.session p).state = .suspended
  · simp only [if_pos hsusp, refusalOf]
  simp only [if_neg hsusp]
  by_cases hbusy : (s.waitingAt p).isSome = true
  · simp only [if_pos hbusy, refusalOf]
  simp only [if_neg hbusy]
  cases s.tables.findCode r.code with
  | none => rfl
  | some e =>
    have hrest : refusalOf (match s.checksFrom8 p r e with
        | .error f => Except.error f
        | .ok x => Except.ok (e, x)) = refusalOf (s.checksFrom8 p r e) := by
      cases s.checksFrom8 p r e <;> rfl
    simp only [Option.isNone_some, Bool.false_eq_true, if_false, firstFailure_codeChecks]
    split
    · simp only [refusalOf]
    split
    · simp only [refusalOf]
    split
    · simp only [refusalOf]
    exact refusalOf_checksFrom8.symm.trans hrest.symm

/-! ### From the message to its way -/

/-- What a message from position p leaves of the state once it is accepted and the role of its sender copied (R38, R51). -/
structure Roled (s : State) (p : Nat) (b : State) : Prop where
  entries : b.entries = s.entries
  overrides : b.overrides = s.overrides
  tagCounter : b.tagCounter = s.tagCounter
  journal : b.journal = s.journal
  day : b.day = s.day
  drawers : b.drawers = s.drawers
  port : b.port = s.port
  counters : b.counters = s.counters
  tables : b.tables = s.tables
  lock : b.lock = s.lock
  printers : b.printers = s.printers
  store : b.store = s.store
  units : ∀ q u, u ≠ 0 → b.unit q u = s.unit q u
  tellers : (b.session p).teller = (s.session p).teller
  screens : ScreensKeep s b

theorem copyRole_keeps (p : Nat) : ScreensKeep s (s.copyRole p) := by
  unfold copyRole
  split
  · exact .refl s
  · split
    · exact setSession_keeps _ _ _
    · exact .refl s

theorem accepted_unit_other {q u : Nat} (hu : u ≠ 0) : (s.accepted p 0 seq).unit q u = s.unit q u := by
  unfold accepted
  rw [unit_setUnit]
  split
  · next h => exact absurd h.2.1.symm hu
  · rfl

theorem roled (hp : 1 ≤ p ∧ p ≤ 24) (hb : b = (s.accepted p 0 seq).copyRole p) : s.Roled p b := by
  have hrole := copyRole_within (s.accepted p 0 seq) p
  rw [hb]
  exact ⟨hrole .entries (by decide), hrole .overrides (by decide), hrole .tagCounter (by decide), hrole .journal (by decide),
    hrole .day (by decide), hrole .drawers (by decide), hrole .port (by decide), hrole .counters (by decide),
    hrole .tables (by decide), hrole .lock (by decide), hrole .printers (by decide), hrole .store (by decide),
    fun q u hu => (unit_congr (congrArg Line.recs (hrole .line (by decide))) q u).trans (accepted_unit_other hu),
    copyRole_teller _ hp, (copyRole_keeps (s := s.accepted p 0 seq) p)⟩

theorem acceptance_of_refused (h : s.firstRefusal p r = some f) : s.acceptance p r = .error f := by
  rw [firstRefusal_eq] at h
  cases hx : s.acceptance p r with
  | error g => rw [hx] at h; cases h; rfl
  | ok y => rw [hx] at h; cases h

theorem acceptance_of_passed (h : s.firstRefusal p r = none) (hcode : s.tables.findCode r.code = some e)
    (hx : s.checksFrom8 p r e = .ok x) : s.acceptance p r = .ok (e, x) := by
  rw [firstRefusal_eq] at h
  unfold acceptance at h ⊢
  grind [refusalOf]

theorem exec_request (h : s.Awaits p 0 seq) : exec (.request p seq r) s = .next ((s.accepted p 0 seq).takeRequest p r) :=
  congrArg Host.Outcome.next (receive_of_awaits h (.request r))

theorem exec_request_refused (h : s.Awaits p 0 seq) (hb : b = (s.accepted p 0 seq).copyRole p)
    (hr : b.firstRefusal p r = some f) : exec (.request p seq r) s = .next (b.refuse p r f) := by
  subst hb
  rw [exec_request h, takeRequest_of_error (acceptance_of_refused hr)]

theorem exec_request_passed (h : s.Awaits p 0 seq) (hb : b = (s.accepted p 0 seq).copyRole p)
    (hr : b.firstRefusal p r = none) (hcode : s.tables.findCode r.code = some e) (hx : b.checksFrom8 p r e = .ok x) :
    exec (.request p seq r) s = .next (b.carryThrough p r e x) := by
  subst hb
  rw [exec_request h, takeRequest_of_ok (acceptance_of_passed hr (by rwa [copyRole_tables]) hx)]

/-! ### A request that passes -/

/-- The C of a request's exchange, 0 for a class that is none (R104). -/
def cashOf (s : State) (cls : TxClass) (r : Request) : Nat := ((s.exchangeOf cls r).map (·.cash)).getD 0

/-- What the checks 8 to 17 have found of a request that passes them, and what they work out of it (R60 to R64). -/
structure PassedChecks (s : State) (p : Nat) (r : Request) (e : CodeEntry) (x : Passed) (leaving : Counts) : Prop where
  amounts : firstFailure (s.amountChecks r e.cls) = none
  breakdown : s.breakdownCheck e r (s.cashOf e.cls r) = none
  target : s.targetClosed (e.cls.target (s.tables.ownDrawer p)) = false
  outgoing : s.outgoingSide (outSide e.cls (s.tables.ownDrawer p) r (s.cashOf e.cls r)) = .ok leaving
  incoming : s.incomingSideFits (inSide e.cls (s.tables.ownDrawer p) r leaving) = true
  space : firstFailure (s.spaceChecks e x.override x.claim) = none
  equiv : x.equiv = s.equivOf e.cls r
  exch : x.exch = s.exchangeOf e.cls r
  override : x.override = s.needsOverride p e x.equiv
  claim : x.claim = if e.cls = .inquiry then 0 else if x.override then 2 else 1
  items : x.items = itemsOf (outSide e.cls (s.tables.ownDrawer p) r (s.cashOf e.cls r)) leaving
    (inSide e.cls (s.tables.ownDrawer p) r leaving)

theorem checksFrom8_passed (h : s.checksFrom8 p r e = .ok x) : ∃ leaving, s.PassedChecks p r e x leaving := by
  unfold checksFrom8 at h
  split at h
  · cases h
  next hamounts =>
  dsimp only at h
  split at h
  · cases h
  next hbreakdown =>
  split at h
  · cases h
  next htarget =>
  split at h
  · cases h
  next leaving hout =>
  split at h
  · cases h
  next hin =>
  split at h
  · cases h
  next hspace =>
  cases h
  exact ⟨leaving, hamounts, hbreakdown, by simpa using htarget, hout, by simpa using hin, hspace, rfl, rfl, rfl, rfl, rfl⟩

/-- The state of a request that has passed, before its way: reservations and claim made, the view taken (R64). -/
def passing (s : State) (p : Nat) (r : Request) (e : CodeEntry) (x : Passed) : State :=
  ((s.reserveItems x.items).takeClaim x.claim).onScreen p (fun tb sc =>
    sc.setView tb r.code (some e.mnemonic) r.cur (amountRead (some e) r) (Passed.viewEquiv x) r.account)

theorem carryThrough_eq : s.carryThrough p r e x =
    if goesToCentre e || x.override then (s.passing p r e x).createEntry (s.capture p r e x) x.override x.claim
    else ((s.passing p r e x).post (s.capture p r e x) none none).testCompletion := rfl

theorem passing_eq : s.passing p r e x = { s with
    drawers := (s.reserveItems x.items).drawers, screens := (s.passing p r e x).screens
    journal := { s.journal with claims := s.journal.claims + x.claim } } := by
  have hmerge := (reserveItems_within s x.items).eq_merge
  unfold passing
  generalize s.reserveItems x.items = t at hmerge ⊢
  rw [hmerge]
  rfl

theorem passing_screen (hp : 1 ≤ p ∧ p ≤ 24) : (s.passing p r e x).screen p =
    (((s.reserveItems x.items).takeClaim x.claim).screen p).setView s.tables r.code (some e.mnemonic) r.cur
      (amountRead (some e) r) (Passed.viewEquiv x) r.account := by
  unfold passing
  rw [screen_onScreen_same _ hp]
  have htables : ((s.reserveItems x.items).takeClaim x.claim).tables = s.tables :=
    reserveItems_within s x.items .tables (by decide)
  rw [htables]

/-- The screen of the position once the view is taken: form, last outcome and the rest of the view are as they were (R137). -/
theorem passing_shown (hp : 1 ≤ p ∧ p ≤ 24) : ((s.passing p r e x).screen p).form = (s.screen p).form ∧
    ((s.passing p r e x).screen p).last = (s.screen p).last ∧
    ((s.passing p r e x).screen p).view = { (s.screen p).view with
      code := some r.code, mnemonic := some e.mnemonic, cur := some r.cur, amount := amountRead (some e) r
      equiv := Passed.viewEquiv x, account := r.account, balance := none } := by
  have hkeeps := (reserveItems_onlyMarks (s := s) x.items).keeps p
  have hclaim : ((s.reserveItems x.items).takeClaim x.claim).screen p = (s.reserveItems x.items).screen p := rfl
  rw [passing_screen hp, hclaim]
  unfold Screen.setView
  exact ⟨hkeeps.form, hkeeps.last, by rw [Screen.mark_view, hkeeps.view]⟩

end State

end Sys2Proof.Machine

namespace Sys2Proof.Proofs

open Sys2Proof.Machine Sys2Proof.Machine.State

/-- Settles O33: the refusal on the screen of its position, the counter, and nothing else. -/
theorem requestRefused : Obligations.RequestRefused := by
  unfold Obligations.RequestRefused
  intro s b p seq r f hawaits h1 h24 hb hrefused
  have hp : 1 ≤ p ∧ p ≤ 24 := ⟨h1, h24⟩
  have hroled := roled hp hb
  have hscreen : (b.refuse p r f).screen p =
      (((((b.screen p).setView b.tables r.code ((b.tables.findCode r.code).map (·.mnemonic)) r.cur
        (amountRead (b.tables.findCode r.code) r) f.cash r.account).takeOutcome b.tables f.outcome).takeAnswerForm
          ((b.tables.findCode r.code).bind (·.answerForm))).settle b.tables) := by
    unfold refuse
    exact (showWithForm_screen hp _ _).trans (by rw [screen_onScreen_same _ hp]; rfl)
  refine ⟨b.refuse p r f, exec_request_refused hawaits hb hrefused, ?_, ?_, ?_, ?_, fun q hq => ?_⟩
  · rw [← hroled.counters]
    rfl
  · unfold Shows
    rw [hscreen]
    simp
  · rw [hscreen, hroled.tables]
    unfold amountRead
    cases s.tables.findCode r.code with
    | none => simp [Screen.setView]
    | some e => simp [Screen.setView]
  · rw [hscreen, hroled.tables]
    simp [Screen.setView, (hroled.screens p).form]
  · have hcount : ∀ t : State, t.countRefused.screen q = t.screen q := fun _ => rfl
    unfold refuse showWithForm
    rw [hcount]
    exact (screen_onScreen_other _ hq _).trans (screen_onScreen_other _ hq _)

end Sys2Proof.Proofs
end

