-- ==== Sys2Proof/Proofs/RequestWays.lean ====
section
/-! The ways of a request that passes (R65, R70, R71): an entry made, or the request posted at once. -/

set_option Elab.async false

namespace Sys2Proof.Machine

namespace State

variable {s b : State} {p seq : Nat} {r : Request} {e : CodeEntry} {x : Passed} {c : Captured} {i claim : Nat}

/-! ### The free place (R67) -/

theorem freeIndex_lowest (h : s.freeIndex = some i) : i < 32 ∧ s.entry i = none ∧ ∀ j, j < i → s.entry j ≠ none := by
  obtain ⟨h32, hnone⟩ := freeIndex_some s h
  refine ⟨h32, hnone, fun j hj hjnone => ?_⟩
  have hbefore := (List.find?_range_eq_some.mp h).2.2 j hj
  simp [hjnone] at hbefore

theorem PassedChecks.free {leaving : Counts} (h : s.PassedChecks p r e x leaving)
    (hway : (goesToCentre e || x.override) = true) : ∃ i, s.freeIndex = some i := by
  have htable := firstFailure_none h.space ((goesToCentre e || x.override) && s.freeIndex.isNone, .tableFull)
    (by simp [spaceChecks])
  refine Option.isSome_iff_exists.mp ?_
  simpa [hway] using htable

theorem PassedChecks.room {leaving : Counts} (h : s.PassedChecks p r e x leaving) (hway : goesToCentre e = true)
    (hoverride : x.override = false) : s.port.queue.length < 64 := by
  have hlink := firstFailure_none h.space (goesToCentre e && !x.override && !s.hasRoom, .linkBusy) (by simp [spaceChecks])
  exact (hasRoom_iff s).mp (by simpa [hway, hoverride] using hlink)

/-- The captured fields written out (R68, R91). -/
theorem capture_eq : s.capture p r e x = {
    pos := p, teller := ((s.session p).teller.getD 0), own := s.tables.ownDrawer p
    snap := {
      code := e.code, cls := e.cls, auth := e.auth, print := e.print, mnemonic := e.mnemonic
      answerForm := e.answerForm
      target := match e.cls with
        | .nonCash => [] | .inquiry => []
        | .transferIn => [s.tables.ownDrawer p, 0] | .transferOut => [s.tables.ownDrawer p, 0]
        | .delivery => [0] | .shipment => [0]
        | _ => [s.tables.ownDrawer p] }
    cur := r.cur, amount := if e.cls = .inquiry then 0 else r.amount, equiv := x.equiv, exch := x.exch
    rate := match e.cls with
      | .exchangeBuy => some (s.tables.buyRate r.cur)
      | .exchangeSell => some (s.tables.sellRate r.cur)
      | .inquiry => none
      | _ => if r.cur = 0 then none else some (s.tables.buyRate r.cur)
    items := x.items, reqList := x.reqList, homeList := x.homeList, account := r.account } := by
  have hamount : (amountRead (some e) r).getD 0 = if e.cls = .inquiry then 0 else r.amount := by
    unfold amountRead
    by_cases h : e.cls = .inquiry
    · simp [h]
    · simp [h]
  unfold capture
  rw [hamount]
  cases e.cls <;> rfl

theorem capture_congr {t : State} (hs : (t.session p).teller = (s.session p).teller) (ht : t.tables = s.tables) :
    t.capture p r e x = s.capture p r e x := by
  unfold capture rateNeeded
  rw [hs, ht]

/-! ### The entry made (R67 to R71) -/

/-- The entry of a captured request, as it waits for an override (R71). -/
def newEntry (s : State) (c : Captured) (claim : Nat) : Entry :=
  { tag := s.nextTag, state := .waitingOverride, granted := false, req := c, claim := claim
    timer := some s.tables.params.overrideWait, reason := none }

theorem createEntry_centre (h : s.freeIndex = some i) :
    s.createEntry c false claim = (s.withTagCounter s.nextTag).forward i (s.newEntry c claim) := by
  unfold createEntry
  rw [h]
  rfl

theorem createEntry_override (h : s.freeIndex = some i) : s.createEntry c true claim =
    ((((s.withTagCounter s.nextTag).setEntry i (some (s.newEntry c claim))).setOverrides (s.overrides ++ [i])).reportEntry
      c.pos (.shown .needsOverride)) := by
  unfold createEntry
  rw [h]
  rfl

/-- The entry as it stands once made: at the centre, or waiting for its override (R70, R71). -/
def madeEntry (s : State) (c : Captured) (override : Bool) (claim : Nat) : Entry :=
  { tag := s.nextTag, state := if override then .waitingOverride else .waitingCentre, granted := false, req := c, claim := claim
    timer := some (if override then s.tables.params.overrideWait else s.tables.params.approval), reason := none }

theorem createEntry_eq (h : s.freeIndex = some i) (override : Bool) : s.createEntry c override claim = { s with
    entries := wr s.entries i (some (s.madeEntry c override claim)), tagCounter := s.nextTag
    screens := (s.createEntry c override claim).screens
    overrides := if override then s.overrides ++ [i] else s.overrides
    port := if override then s.port else (s.withFrame (.request (s.madeEntry c override claim).centreRequest)).port } := by
  cases override with
  | false =>
    rw [createEntry_centre h]
    exact forward_eq
  | true =>
    rw [createEntry_override h]
    have hlist := setOverrides_eq (s := (s.withTagCounter s.nextTag).setEntry i (some (s.newEntry c claim)))
      (s.overrides ++ [i])
    generalize ((s.withTagCounter s.nextTag).setEntry i (some (s.newEntry c claim))).setOverrides (s.overrides ++ [i]) = t
      at hlist ⊢
    have hreport : ∀ m, t.reportEntry c.pos m = { t with screens := (t.reportEntry c.pos m).screens } := fun _ => rfl
    rw [hreport, hlist]
    rfl

/-- The position of a new entry shows its wait; form and last outcome stay (R137). -/
theorem createEntry_shown (h : s.freeIndex = some i) (hp : 1 ≤ c.pos ∧ c.pos ≤ 24) (override : Bool) :
    ((s.createEntry c override claim).screen c.pos).form = (s.screen c.pos).form ∧
    ((s.createEntry c override claim).screen c.pos).last = (s.screen c.pos).last ∧
    ((s.createEntry c override claim).screen c.pos).view = { (s.screen c.pos).view with
      stateMsg := some (if override then .shown .needsOverride else .waiting) } := by
  cases override with
  | false =>
    rw [createEntry_centre h]
    have hscreen := forward_screen_same (s := s.withTagCounter s.nextTag) (i := i) (e := s.newEntry c claim) hp
    rw [show c.pos = (s.newEntry c claim).req.pos from rfl, hscreen]
    exact ⟨rfl, rfl, rfl⟩
  | true =>
    rw [createEntry_override h]
    have hkeeps := setOverrides_keeps (s := (s.withTagCounter s.nextTag).setEntry i (some (s.newEntry c claim)))
      (s.overrides ++ [i]) c.pos
    unfold reportEntry
    rw [screen_onScreen_same _ hp]
    refine ⟨hkeeps.form, hkeeps.last, ?_⟩
    have hview := hkeeps.view
    unfold Screen.report
    rw [Screen.mark_view, hview]
    rfl

theorem nextTag_congr {t : State} (he : t.entries = s.entries) (hc : t.tagCounter = s.tagCounter) : t.nextTag = s.nextTag := by
  have hin : ∀ tag, t.tagInUse tag = s.tagInUse tag := fun tag => by rw [tagInUse, tagInUse, he]
  have hfrom : ∀ fuel tag, t.tagFrom fuel tag = s.tagFrom fuel tag := fun fuel => by
    induction fuel with
    | zero => exact fun _ => rfl
    | succ n ih => exact fun tag => by simp only [tagFrom, hin, ih]
  rw [nextTag, nextTag, hfrom, hc]

theorem freeIndex_congr {t : State} (he : t.entries = s.entries) : t.freeIndex = s.freeIndex := by
  unfold freeIndex
  simp only [entry_congr he]

end State

end Sys2Proof.Machine

namespace Sys2Proof.Proofs

open Sys2Proof.Machine Sys2Proof.Machine.State

/-- Settles O34: the entry at the lowest free index, forwarded to the centre or put on the override order list. -/
theorem requestWaits : Obligations.RequestWaits := by
  unfold Obligations.RequestWaits
  intro s b p seq r e x hawaits h1 h24 hb hpassed hcode hx hway
  have hp : 1 ≤ p ∧ p ≤ 24 := ⟨h1, h24⟩
  have hroled := roled hp hb
  obtain ⟨leaving, hchecks⟩ := checksFrom8_passed hx
  have hexec := exec_request_passed hawaits hb hpassed hcode hx
  have hcentre : (goesToCentre e || x.override) = true := by
    rcases hway with h | h | h <;> simp [goesToCentre, h]
  rw [carryThrough_eq, if_pos hcentre] at hexec
  obtain ⟨i, hi⟩ := hchecks.free hcentre
  rw [freeIndex_congr hroled.entries] at hi
  obtain ⟨h32, hnone, hlowest⟩ := freeIndex_lowest hi
  have hpassing := passing_eq (s := b) (p := p) (r := r) (e := e) (x := x)
  have hshown := passing_shown (s := b) (r := r) (e := e) (x := x) hp
  have hpentries : (b.passing p r e x).entries = s.entries := by rw [hpassing]; exact hroled.entries
  have hmade := createEntry_eq (s := b.passing p r e x) (c := b.capture p r e x) (claim := x.claim)
    ((freeIndex_congr hpentries).trans hi) x.override
  have hscreen := createEntry_shown (s := b.passing p r e x) (c := b.capture p r e x) (claim := x.claim)
    ((freeIndex_congr hpentries).trans hi) hp x.override
  have htag : (b.passing p r e x).nextTag = s.nextTag := nextTag_congr hpentries (by rw [hpassing]; exact hroled.tagCounter)
  refine ⟨_, i, s.nextTag, hexec, hnone, h32, hlowest, (nextTag_range s).1, (nextTag_range s).2,
    fun j f hf => nextTag_ne s hf, ?_, ?_, ?_, ?_, ?_⟩
  · exact (b.reserveItems_made x.items).congr rfl (by rw [hmade]; rfl)
  · exact hscreen.1.trans hshown.1
  · exact hscreen.2.1.trans hshown.2.1
  · refine hscreen.2.2.trans ?_
    show ({ ((b.passing p r e x).screen p).view with stateMsg := _ } : View) = _
    rw [hshown.2.2]
    rfl
  · intro captured entry
    have hcapture : captured = b.capture p r e x :=
      capture_eq.symm.trans (capture_congr (r := r) (e := e) (x := x) hroled.tellers hroled.tables).symm
    have htables : (b.passing p r e x).tables = s.tables := by rw [hpassing]; exact hroled.tables
    have hport : (b.passing p r e x).port = s.port := by rw [hpassing]; exact hroled.port
    have hoverrides : (b.passing p r e x).overrides = s.overrides := by rw [hpassing]; exact hroled.overrides
    have hentry : (b.passing p r e x).madeEntry (b.capture p r e x) x.override x.claim = entry := by
      unfold madeEntry
      rw [htag, htables, hchecks.claim, ← hcapture]
    have hclaim : entry.claim = x.claim := hchecks.claim.symm
    clear_value entry
    rw [hentry, htag, hpentries, hoverrides, withFrame_port, hport] at hmade
    generalize (b.passing p r e x).createEntry (b.capture p r e x) x.override x.claim = u at hmade ⊢
    rw [hmade, hpassing, hclaim, hroled.journal]
    rfl

/-- Settles O35: the reservations made are the reservations posted, and the claim taken is the claim used. -/
theorem requestPostedAtOnce : Obligations.RequestPostedAtOnce := by
  unfold Obligations.RequestPostedAtOnce
  intro s b p seq r e x hawaits h1 h24 hb hpassed hcode hx hauth hcls hoverride hcover
  have hp : 1 ≤ p ∧ p ≤ 24 := ⟨h1, h24⟩
  have hroled := roled hp hb
  obtain ⟨leaving, hchecks⟩ := checksFrom8_passed hx
  have hexec := exec_request_passed hawaits hb hpassed hcode hx
  have hclaim : x.claim = 1 := by simp [hchecks.claim, hcls, hoverride]
  rw [carryThrough_eq, if_neg (by simp [goesToCentre, hauth, hcls, hoverride])] at hexec
  have hpassing := passing_eq (s := b) (p := p) (r := r) (e := e) (x := x)
  have hmerge := post_merge (s := b.passing p r e x) (c := b.capture p r e x) (tag := none) (ans := none)
  have hposted := post_posted (s := b.passing p r e x) (c := b.capture p r e x) (tag := none) (ans := none)
  obtain ⟨hprinters, hstore⟩ := post_unprinted (s := b.passing p r e x) (c := b.capture p r e x) (tag := none) (ans := none) rfl
  have hmade := b.reserveItems_made x.items
  have hdrawers : ∀ d, (b.passing p r e x).drawer d = (b.reserveItems x.items).drawer d :=
    fun _ => rfl
  have hbdrawer : ∀ d, b.drawer d = s.drawer d := drawer_congr hroled.drawers
  have hbook : ∀ d, ((b.passing p r e x).drawer d).book = (s.drawer d).book ∧
      ((b.passing p r e x).drawer d).postedToday = (s.drawer d).postedToday := fun d => by
    rw [hdrawers, (hmade d).1, hbdrawer]
    exact ⟨rfl, rfl⟩
  have hcovered : BooksCover (b.capture p r e x).items (b.passing p r e x) := fun d c k hd hc hk h12 => by
    rw [(hbook d).1]
    exact hcover d c k hd hc hk h12
  refine ⟨(b.passing p r e x).post (b.capture p r e x) none none, hexec, ?_, fun d hd => ⟨fun c k hc hk h12 => ?_, ?_⟩,
    fun hpresent => ?_⟩
  · generalize (b.passing p r e x).post (b.capture p r e x) none none = u at hmerge hprinters hstore ⊢
    rw [hprinters, hstore] at hmerge
    have hj : u.journal = _ := congrArg State.journal hmerge
    dsimp only at hj
    rw [← hj] at hmerge
    have hrecord : u.journal = s.withRecord ((b.capture p r e x).postBody none) := by
      rw [hj, hpassing]
      simp [withRecord, hroled.journal, hroled.day, hclaim]
    rw [hpassing] at hmerge
    rw [hmerge, ← hrecord]
  · obtain ⟨hcounts, -⟩ := hposted hcovered d hd
    obtain ⟨hpaid, hreserved, hincoming⟩ := hcounts c k hc hk h12
    obtain ⟨hres, hinc⟩ := (hmade d).2 hd c k hc hk h12
    rw [(hbook d).1] at hpaid
    rw [hreserved, hincoming, hdrawers, hres, hinc, hbdrawer]
    exact ⟨hpaid, Nat.add_sub_cancel .., Nat.add_sub_cancel ..⟩
  · obtain ⟨-, htoday, -⟩ := hposted hcovered d hd
    rw [htoday, (hbook d).2]
    rfl
  · have hnone : ((b.passing p r e x).recorded (b.capture p r e x) none).refusedReleases
        (itemDrawers (b.capture p r e x).items) = [] := by
      refine refusedReleases_of_present (fun d hd => ?_) _
      have hrecorded := recorded_within (s := b.passing p r e x) (c := b.capture p r e x) (tag := none)
      rw [unit_congr (congrArg Line.recs (hrecorded .line (by decide))), hpassing]
      rw [hrecorded .tables (by decide), hpassing] at hd
      exact (congrArg UnitRec.presence (hroled.units d 2 (by decide))).trans (hpresent d (by rw [← hroled.tables]; exact hd))
    rw [post_eq]
    exact concluded_shows (c := b.capture p r e x) hp false hnone

end Sys2Proof.Proofs
end

