-- ==== Sys2Proof/Proofs/Releases.lean ====
section
/-! What a posting does to the drawers it names beyond the books: ceiling alerts, their alarms, releases (R86, R106, R107). -/

set_option Elab.async false

namespace Sys2Proof.Machine

/-- A drawer's books exceed some defined currency's ceiling (R106). -/
def Drawer.over (t : Tables) (x : Drawer) : Bool :=
  (List.range 4).any (fun c =>
    match t.currency c with
    | some e => decide (0 < e.ceiling) && decide (e.ceiling < valueOf (t.faces c) (countsOf x.book c))
    | none => false)

namespace State

variable {s t : State} {c : Captured} {tag : Option Nat} {ans : Option Answer}

/-! ### The ceiling tests (R106) -/

theorem overCeiling_eq (d : Nat) : s.overCeiling d = (s.drawer d).over s.tables := rfl

theorem over_iff (d : Nat) : (s.drawer d).over s.tables = true ↔
    ∃ k e, s.tables.currency k = some e ∧ 0 < e.ceiling ∧ e.ceiling < s.bookValue d k := by
  simp only [Drawer.over, List.any_eq_true, List.mem_range]
  constructor
  · rintro ⟨k, -, hk⟩
    cases he : s.tables.currency k with
    | none => simp [he] at hk
    | some e =>
      simp only [he, Bool.and_eq_true, decide_eq_true_eq] at hk
      exact ⟨k, e, he, hk⟩
  · rintro ⟨k, e, he, hk⟩
    have h4 : k < 4 := by
      by_contra hn
      simp [Tables.currency, rd, hn] at he
    refine ⟨k, h4, ?_⟩
    simp only [he, Bool.and_eq_true, decide_eq_true_eq]
    exact hk

theorem ceilingTest_tables (d : Nat) : (s.ceilingTest d).tables = s.tables := ceilingTest_within s d .tables (by decide)

/-- The ceiling alert of a drawer tested says whether its books are over (R106). -/
theorem ceilingTest_sets (d e : Nat) : (s.ceilingTest d).drawer e =
    if d = e ∧ d < 25 then { s.drawer e with ceiling := (s.drawer e).over s.tables } else s.drawer e := by
  have hset : ∀ x : Drawer, (s.setDrawer d x).drawer e = if d = e ∧ d < 25 then x else s.drawer e :=
    fun x => drawer_setDrawer ..
  have hover := s.overCeiling_eq d
  unfold ceilingTest
  split
  · next h =>
    have halarm := ((alertReport_within ((s.setDrawer d { s.drawer d with ceiling := true }).alarm .ceiling d) d).after
      ((alarm_within _ .ceiling d).mono (m := [.port, .counters, .screens]))) .drawers (by decide)
    rw [drawer_congr halarm, hset]
    split
    · next he =>
      rw [← he.1, ← hover]
      simp_all
    · rfl
  · split
    · next h =>
      rw [drawer_congr (alertReport_within _ d .drawers (by decide)), hset]
      split
      · next he =>
        rw [← he.1, ← hover]
        simp_all
      · rfl
    · next h1 h2 =>
      split
      · next he =>
        rw [← he.1, ← hover]
        have hsame : s.overCeiling d = (s.drawer d).ceiling := by
          cases ho : s.overCeiling d <;> cases hc : (s.drawer d).ceiling <;> simp_all
        rw [hsame]
      · rfl

theorem ceilingTests_drawer {ds : List Nat} (hds : ds.Nodup) (hin : ∀ d ∈ ds, d ≤ 24) (d : Nat) :
    (s.ceilingTests ds).drawer d =
      if d ∈ ds then { s.drawer d with ceiling := (s.drawer d).over s.tables } else s.drawer d :=
  foldl_places (fun t j => t.drawer j) ceilingTest (fun t _ x => { x with ceiling := x.over t.tables })
    (fun t i j hij => (t.ceilingTest_sets i j).trans (if_neg fun h => hij h.1))
    (fun t i j x => by rw [ceilingTest_tables])
    (fun t i hi => (t.ceilingTest_sets i i).trans (if_pos ⟨rfl, Nat.lt_succ_of_le (hin i hi)⟩)) hds s d

/-- The drawers among those tested whose books newly exceed a ceiling (R106). -/
def newlyOver (s : State) (ds : List Nat) : List Nat := ds.filter (fun d => s.overCeiling d && !(s.drawer d).ceiling)

/-- With room for every alarm, one is queued for each drawer that newly is over, in the order of the tests (R106). -/
theorem ceilingTests_port {ds : List Nat} (hds : ds.Nodup) (hroom : s.port.queue.length + ds.length ≤ 64) :
    (s.ceilingTests ds).port = withFrames s.port ((s.newlyOver ds).map (.alarm .ceiling)) := by
  induction ds generalizing s with
  | nil => exact (withFrames_nil _).symm
  | cons d ds ih =>
    obtain ⟨hd, hrest⟩ := List.nodup_cons.mp hds
    have hfree : s.port.queue.length < 64 := by
      rw [List.length_cons] at hroom
      omega
    have hport : (s.ceilingTest d).port =
        withFrames s.port (if s.overCeiling d && !(s.drawer d).ceiling then [.alarm .ceiling d] else []) := by
      unfold ceilingTest
      split
      · next h =>
        rw [alertReport_within _ d .port (by decide),
          alarm_of_room (t := s.setDrawer d { s.drawer d with ceiling := true }) hfree]
        simp [withFrames, withFrame_port]
      · next h =>
        rw [withFrames_nil]
        split
        · exact alertReport_within _ d .port (by decide)
        · rfl
    have hlater : (s.ceilingTest d).newlyOver ds = s.newlyOver ds := by
      refine List.filter_congr fun e he => ?_
      have hne : ¬ (d = e ∧ d < 25) := fun h => hd (h.1 ▸ he)
      rw [overCeiling_eq, overCeiling_eq, ceilingTest_tables, ceilingTest_sets, if_neg hne]
    have hlength : (s.ceilingTest d).port.queue.length + ds.length ≤ 64 := by
      rw [hport]
      rw [List.length_cons] at hroom
      split
      · simp only [withFrames, List.length_append, List.length_singleton]
        omega
      · rw [withFrames_nil]
        omega
    show ((s.ceilingTest d).ceilingTests ds).port = _
    rw [ih hrest hlength, hport, hlater, withFrames_append]
    unfold newlyOver
    rw [List.filter_cons]
    split <;> simp_all

/-! ### The releases (R107) -/

theorem serving_position {d : Nat} (h : s.tables.serving d = true) : 1 ≤ d ∧ d ≤ 24 := by
  by_contra hn
  have hnone : s.tables.position d = none := by
    unfold Tables.position rd1
    split
    · rfl
    · exact rd_outside _ (by omega) _
  simp [Tables.serving, Tables.installed, hnone] at h

theorem offerRelease_unit_other {d e : Nat} (h : d ≠ e) : (s.offerRelease d).unit e 2 = s.unit e 2 := by
  unfold offerRelease offer
  split
  · rfl
  · split
    · rw [unit_setUnit]
      exact if_neg fun hc => h hc.1.1
    · rfl

end State

/-- The record of a drawer's serving unit once a RELEASE is offered to it, unless one waits there (R34, R107). -/
def UnitRec.takeRelease (x : UnitRec) : UnitRec :=
  if x.presence = .present ∧ x.queue.length < 4 ∧ ¬ ∃ q ∈ x.queue, q.msg = .release then
    { x with queue := x.queue ++ [{ msg := .release, cls := .urgent }] }
  else x

namespace State

variable {s t : State} {c : Captured} {tag : Option Nat} {ans : Option Answer}

theorem releaseQueued_iff {d : Nat} : s.releaseQueued d = true ↔ ∃ q ∈ (s.unit d 2).queue, q.msg = .release := by
  simp [releaseQueued]

theorem offerAnswer_taken_iff {p u : Nat} :
    s.offerAnswer p u = .taken ↔ (s.unit p u).presence = .present ∧ (s.unit p u).queue.length < 4 := by
  unfold offerAnswer
  split
  · next h => simp [h]
  · next h =>
    split
    · next hroom => exact iff_of_true rfl ⟨not_not.mp h, hroom⟩
    · next hroom => exact iff_of_false Offer.noConfusion fun hc => hroom hc.2

theorem offerRelease_unit {d : Nat} (hd : 1 ≤ d ∧ d ≤ 24) : (s.offerRelease d).unit d 2 = (s.unit d 2).takeRelease := by
  unfold offerRelease UnitRec.takeRelease
  split
  · next h => exact (if_neg fun hc => hc.2.2 (releaseQueued_iff.mp h)).symm
  · next h =>
    unfold offer
    split
    · next hoffer =>
      obtain ⟨hpresent, hroom⟩ := offerAnswer_taken_iff.mp hoffer
      rw [unit_setUnit, if_pos ⟨⟨rfl, hd⟩, rfl, by decide⟩, if_pos ⟨hpresent, hroom, fun hc => h (releaseQueued_iff.mpr hc)⟩]
    · next hoffer =>
      exact (if_neg fun hc => hoffer (offerAnswer_taken_iff.mpr ⟨hc.1, hc.2.1⟩)).symm

/-- Of the drawers named, those with a serving unit have a RELEASE offered to it (R107). -/
theorem releaseDrawers_unit {ds : List Nat} (hds : ds.Nodup) (d : Nat) : (s.releaseDrawers ds).unit d 2 =
    if d ∈ ds ∧ s.tables.serving d = true then (s.unit d 2).takeRelease else s.unit d 2 := by
  have hplaces := foldl_places (fun t j => t.unit j 2)
    (fun t e => (t.setDrawer e { t.drawer e with releasePending := true }).offerRelease e)
    (fun _ _ x => x.takeRelease)
    (fun t i j hij => offerRelease_unit_other hij) (fun _ _ _ _ => rfl)
    (l := ds.filter s.tables.serving)
    (fun t i hi => offerRelease_unit (serving_position (List.mem_filter.mp hi).2)) (hds.filter _) s d
  simp only [List.mem_filter] at hplaces
  exact hplaces

/-! ### The drawers of a posting -/

theorem eachItem_other {f : Drawer → Item → Drawer} {items : List Item} {d : Nat} (h : ∀ x ∈ items, x.drawer ≠ d) :
    (s.eachItem items f).drawer d = s.drawer d := by
  induction items generalizing s with
  | nil => rfl
  | cons i items ih =>
    rw [eachItem_cons, ih fun x hx => h x (List.mem_cons_of_mem i hx), drawer_setDrawer]
    exact if_neg fun hc => h i List.mem_cons_self hc.1

/-- A posting of items leaves the flags of a drawer (R103). -/
theorem eachItem_post_flags (items : List Item) (d : Nat) :
    ((s.eachItem items Drawer.post).drawer d).releasePending = (s.drawer d).releasePending ∧
      ((s.eachItem items Drawer.post).drawer d).ceiling = (s.drawer d).ceiling := by
  induction items generalizing s with
  | nil => exact ⟨rfl, rfl⟩
  | cons i items ih =>
    obtain ⟨hpending, hceiling⟩ := ih (s := s.setDrawer i.drawer ((s.drawer i.drawer).post i))
    rw [eachItem_cons, hpending, hceiling, drawer_setDrawer]
    split
    · next h =>
      rw [Drawer.post_eq, h.1]
      exact ⟨rfl, rfl⟩
    · exact ⟨rfl, rfl⟩

theorem postItems_drawer {items : List Item} (d : Nat) : (s.postItems items).drawer d =
    if d ∈ itemDrawers items then { (s.eachItem items Drawer.post).drawer d with
      ceiling := ((s.eachItem items Drawer.post).drawer d).over s.tables } else (s.eachItem items Drawer.post).drawer d := by
  unfold postItems
  rw [ceilingTests_drawer (itemDrawers_nodup items) fun d hd => (mem_itemDrawers.mp hd).1]
  rw [eachItem_within s items _ .tables (by decide)]

theorem post_drawer (d : Nat) : (s.post c tag ans).drawer d =
    if d ∈ itemDrawers c.items ∧ s.tables.serving d = true then
      { (s.postItems c.items).drawer d with releasePending := true } else (s.postItems c.items).drawer d := by
  have hdrawer : ((s.recorded c tag).postLines c ans).1.drawer d = (s.postItems c.items).drawer d :=
    (drawer_congr (postLines_within _ _ _ .drawers (by decide)) d).trans
      (drawer_congr (appendClaimed_within _ _ .drawers (by decide)) d)
  have htables : ((s.recorded c tag).postLines c ans).1.tables = s.tables :=
    (postLines_within _ _ _ .tables (by decide)).trans (recorded_within .tables (by decide))
  rw [post_eq, concluded_drawer, htables, hdrawer]

theorem post_drawer_other {d : Nat} (h : ¬ ∃ x ∈ c.items, x.drawer = d) :
    (s.post c tag ans).drawer d = s.drawer d := by
  have hnot : d ∉ itemDrawers c.items := fun hc => h (mem_itemDrawers.mp hc).2
  rw [post_drawer, if_neg fun hc => hnot hc.1, postItems_drawer, if_neg hnot]
  exact eachItem_other fun x hx hxd => h ⟨x, hx, hxd⟩

theorem post_drawer_named {d : Nat} (h : d ∈ itemDrawers c.items) :
    ((s.post c tag ans).drawer d).ceiling = ((s.post c tag ans).drawer d).over s.tables ∧
      ((s.post c tag ans).drawer d).releasePending = (s.tables.serving d || (s.drawer d).releasePending) := by
  rw [post_drawer, postItems_drawer, if_pos h]
  split
  · next hs => exact ⟨rfl, by rw [hs.2]; rfl⟩
  · next hs =>
    have hserving : s.tables.serving d = false := by simpa [h] using hs
    rw [hserving]
    exact ⟨rfl, (eachItem_post_flags ..).1⟩

/-- The print lines reach no unit of a drawer (R158). -/
theorem postLines_unit (d : Nat) : (s.postLines c ans).1.unit d 2 = s.unit d 2 := by
  unfold postLines
  split
  · split
    · exact (handLines_only s _ _ _).units d 2 fun hc => absurd hc.2 (by decide)
    · rfl
  · rfl

theorem recorded_unit (d : Nat) : (s.recorded c tag).unit d 2 = s.unit d 2 :=
  unit_congr (congrArg Line.recs (recorded_within .line (by decide))) d 2

theorem concluded_unit (b : Bool) (d : Nat) : (s.concluded c ans b).unit d 2 =
    (s.releaseDrawers (itemDrawers c.items)).unit d 2 :=
  (unit_congr (congrArg Line.recs (showNotReleased_within _ _ .line (by decide))) d 2).trans
    (unit_congr (congrArg Line.recs (postScreens_within _ c ans b .line (by decide))) d 2)

theorem postLines_tables : (s.postLines c ans).1.tables = s.tables := postLines_within s c ans .tables (by decide)

theorem recorded_tables : (s.recorded c tag).tables = s.tables := recorded_within .tables (by decide)

theorem post_unit (d : Nat) : (s.post c tag ans).unit d 2 =
    if d ∈ itemDrawers c.items ∧ s.tables.serving d = true then (s.unit d 2).takeRelease else s.unit d 2 := by
  rw [post_eq, concluded_unit, releaseDrawers_unit (itemDrawers_nodup _), postLines_tables, recorded_tables, postLines_unit,
    recorded_unit]

/-! ### The notices and the screens of a posting -/

/-- The alarms of the ceiling tests stand before the nearly-full alarm of the POST record (R106, R180). -/
theorem post_port (hroom : s.port.queue.length + 26 ≤ 64) : (s.post c tag ans).port = withFrames s.port
    (((s.eachItem c.items Drawer.post).newlyOver (itemDrawers c.items)).map (.alarm .ceiling) ++ s.nearlyFullNotice) := by
  have heach := eachItem_within s c.items Drawer.post
  have hport : (s.eachItem c.items Drawer.post).port = s.port := heach .port (by decide)
  have hdrawers : (itemDrawers c.items).length ≤ 25 := List.length_filter_le _ allDrawers
  have htests : (s.postItems c.items).port = withFrames s.port
      (((s.eachItem c.items Drawer.post).newlyOver (itemDrawers c.items)).map (.alarm .ceiling)) := by
    rw [← hport]
    exact ceilingTests_port (itemDrawers_nodup _) (by rw [hport]; omega)
  have hjournal : (s.postItems c.items).journal = s.journal := postItems_within s c.items .journal (by decide)
  have hnotice : (s.postItems c.items).nearlyFullNotice = s.nearlyFullNotice := by
    rw [nearlyFullNotice, hjournal]
    rfl
  have hlength : ((s.eachItem c.items Drawer.post).newlyOver (itemDrawers c.items)).length ≤ 25 :=
    (List.length_filter_le ..).trans hdrawers
  have hfree : (s.postItems c.items).port.queue.length < 64 := by
    rw [htests]
    simp only [withFrames, List.length_append, List.length_map]
    omega
  have hrecord : (s.postItems c.items).portAfterRecord =
      withFrames (s.postItems c.items).port (s.postItems c.items).nearlyFullNotice := by
    unfold portAfterRecord nearlyFullNotice
    split
    · next h => rw [if_pos h.1]; simp [withFrames, withFrame_port]
    · next h => rw [if_neg fun hn => h ⟨hn, hfree⟩, withFrames_nil]
  have hrecorded : (s.recorded c tag).port = (s.postItems c.items).portAfterRecord := by
    unfold recorded
    rw [appendClaimed_eq]
  rw [post_eq, concluded_within _ .port (by decide), postLines_within _ _ _ .port (by decide), hrecorded, hrecord, hnotice,
    htests, withFrames_append]

/-- Where a RELEASE is refused as undelivered, every position of the drawer shows it (R107). -/
theorem post_notReleased {d q : Nat} (hq : 1 ≤ q ∧ q ≤ 24) (hown : s.tables.ownDrawer q = d) (hd : d ∈ itemDrawers c.items)
    (hserving : s.tables.serving d = true) (hoffer : s.offerAnswer d 2 = .undelivered)
    (hwaits : ¬ ∃ x ∈ (s.unit d 2).queue, x.msg = .release) : Shows (s.post c tag ans) q .drawerNotReleased := by
  rw [post_eq]
  unfold concluded
  generalize hlines : (s.recorded c tag).postLines c ans = lines
  have hunit : lines.1.unit d 2 = s.unit d 2 := by rw [← hlines, postLines_unit, recorded_unit]
  have htables : lines.1.tables = s.tables := by rw [← hlines, postLines_tables, recorded_tables]
  have hrefused : d ∈ lines.1.refusedReleases (itemDrawers c.items) := by
    refine List.mem_filter.mpr ⟨List.mem_filter.mpr ⟨hd, by rw [htables]; exact hserving⟩, ?_⟩
    have hnot : lines.1.releaseQueued d = false := by
      rw [Bool.eq_false_iff, Ne, releaseQueued_iff, hunit]
      exact hwaits
    have hanswer : lines.1.offerAnswer d 2 = .undelivered := by
      rw [← hoffer]
      unfold offerAnswer
      rw [hunit]
    simp [releaseRefused, hnot, hanswer]
  refine showNotReleased_shows hq (Or.inl ?_)
  rw [postScreens_within _ _ _ _ .tables (by decide), releaseDrawers_within _ _ .tables (by decide), htables, hown]
  exact hrefused

/-- A row that holds a source of the view or of the outcome is dirty once both have been marked (R144). -/
theorem outcome_marks (tb : Tables) (o : Shown) (x : Screen) {r : Nat} (h1 : 1 ≤ r) (h24 : r ≤ 24)
    (hholds : (((x.mark tb Screen.viewSource).takeOutcome tb o).settle tb).holds tb (fun y => y ∈ [Source.txnCode,
      .txnCurrency, .txnAmount, .txnEquiv, .txnAccount, .balance, .txnState, .message]) r = true) :
    r ∈ (((x.mark tb Screen.viewSource).takeOutcome tb o).settle tb).dirty := by
  have hsource : ∀ y : Source, decide (y ∈ [Source.txnCode, .txnCurrency, .txnAmount, .txnEquiv, .txnAccount, .balance,
      .txnState, .message]) = (Screen.viewSource y || outcomeSource y) := fun y => by cases y <;> rfl
  have hkeeps : ∀ f, (((x.mark tb Screen.viewSource).takeOutcome tb o).settle tb).holds tb f r = x.holds tb f r := fun f => by
    refine Screen.holds_congr ?_ ?_ ?_ <;> rw [Screen.settle_eq] <;> rfl
  rw [hkeeps] at hholds
  have hany : x.holds tb Screen.viewSource r = true ∨ x.holds tb outcomeSource r = true := by
    unfold Screen.holds at hholds ⊢
    simp only [List.any_eq_true, hsource, Bool.or_eq_true] at hholds ⊢
    obtain ⟨e, he, hview | hout⟩ := hholds
    · exact Or.inl ⟨e, he, hview⟩
    · exact Or.inr ⟨e, he, hout⟩
  rw [Screen.settle_eq]
  show r ∈ ((x.mark tb Screen.viewSource).takeOutcome tb o).dirty
  refine Screen.mem_mark.mpr ⟨h1, h24, ?_⟩
  obtain hview | hout := hany
  · exact Or.inl (Screen.mem_mark.mpr ⟨h1, h24, Or.inr hview⟩)
  · exact Or.inr ((Screen.holds_congr rfl rfl rfl).trans hout)

/-- The rows of the view, TXN_STATE and MESSAGE are marked at the requesting position (R86). -/
theorem post_marks (hp : 1 ≤ c.pos ∧ c.pos ≤ 24) {r : Nat} (h1 : 1 ≤ r) (h24 : r ≤ 24)
    (hholds : ((s.post c tag ans).screen c.pos).holds s.tables (fun y => y ∈ [Source.txnCode, .txnCurrency, .txnAmount,
      .txnEquiv, .txnAccount, .balance, .txnState, .message]) r = true) :
    r ∈ ((s.post c tag ans).screen c.pos).dirty := by
  rw [post_eq] at hholds ⊢
  unfold concluded at hholds ⊢
  generalize hlines : (s.recorded c tag).postLines c ans = lines at hholds ⊢
  have htables : (lines.1.releaseDrawers (itemDrawers c.items)).tables = s.tables := by
    rw [releaseDrawers_within _ _ .tables (by decide), ← hlines, postLines_tables, recorded_tables]
  have hreshown := showNotReleased_reshown (s := (lines.1.releaseDrawers (itemDrawers c.items)).postScreens c ans lines.2)
    (lines.1.refusedReleases (itemDrawers c.items)) c.pos
  refine hreshown.dirty r h1 h24 ?_
  rw [Screen.holds_congr hreshown.form hreshown.alert hreshown.override, postScreens_screen hp, htables] at hholds
  rw [postScreens_screen hp, htables]
  exact outcome_marks _ _ _ h1 h24 hholds

/-! ### Seen from the state before the event -/

/-- What the acceptance of a request, or nothing, has changed before the posting: the reservations of the drawers that the
items name, claims, sessions and screens. -/
structure PostingBase (items : List Item) (s t : State) : Prop where
  tables : t.tables = s.tables
  port : t.port = s.port
  records : t.journal.records = s.journal.records
  units : ∀ d, t.unit d 2 = s.unit d 2
  flags : ∀ d, (t.drawer d).releasePending = (s.drawer d).releasePending ∧ (t.drawer d).ceiling = (s.drawer d).ceiling
  others : ∀ d, (¬ ∃ x ∈ items, x.drawer = d) → t.drawer d = s.drawer d

theorem PostingBase.refl (items : List Item) (s : State) : PostingBase items s s :=
  ⟨rfl, rfl, rfl, fun _ => rfl, fun _ => ⟨rfl, rfl⟩, fun _ _ => rfl⟩

/-- The drawers that newly are over after the posting, in ascending order (R106). -/
theorem newlyOver_post (hbase : PostingBase c.items s t) :
    (t.eachItem c.items Drawer.post).newlyOver (itemDrawers c.items) =
      (List.range 25).filter (fun d => ((t.post c tag ans).drawer d).ceiling && !(s.drawer d).ceiling) := by
  unfold newlyOver itemDrawers
  rw [List.filter_filter]
  refine List.filter_congr fun d hd => ?_
  have hd24 : d ≤ 24 := mem_allDrawers.mp hd
  rw [(eachItem_post_flags _ d).2, (hbase.flags d).2]
  by_cases hnamed : d ∈ itemDrawers c.items
  · have hany := (List.mem_filter.mp hnamed).2
    rw [hany, Bool.and_true, (post_drawer_named hnamed).1, overCeiling_eq, eachItem_within _ _ _ .tables (by decide)]
    congr 1
    rw [post_drawer, postItems_drawer, if_pos hnamed]
    split <;> rfl
  · have hnot : ¬ ∃ x ∈ c.items, x.drawer = d := fun hc => hnamed (mem_itemDrawers.mpr ⟨hd24, hc⟩)
    have hany : c.items.any (fun i => i.drawer == d) = false := by
      simpa using hnot
    rw [hany, Bool.and_false, post_drawer_other hnot, hbase.others d hnot]
    simp

/-- The two events that post: the request that is carried through at once, and the answer that approves (R65, R73). -/
theorem posting_of_event {s b : State} {i : Instr} {p seq : Nat} {items : List Item} (hp : 1 ≤ p ∧ p ≤ 24)
    (h : (∃ (r : Request) (e : CodeEntry) (x : Passed), i = .request p seq r ∧ s.Awaits p 0 seq ∧
        b = (s.accepted p 0 seq).copyRole p ∧ b.firstRefusal p r = none ∧ s.tables.findCode r.code = some e ∧
        b.checksFrom8 p r e = .ok x ∧ e.auth = .branch ∧ e.cls ≠ .inquiry ∧ x.override = false ∧ items = x.items) ∨
      (∃ (tag i' : Nat) (payload : List Byte) (a : Answer) (e : Entry), i = .answer tag payload ∧ b = s ∧
        s.EntriesSound ∧ parseAnswer payload = some a ∧ a.approve = true ∧ s.entry i' = some e ∧ e.tag = tag ∧
        e.state = .waitingCentre ∧ e.req.snap.cls ≠ .inquiry ∧ e.req.pos = p ∧ items = e.req.items)) :
    ∃ (t : State) (cap : Captured) (tag : Option Nat) (ans : Option Answer) (u : State), PostingBase items s t ∧ cap.pos = p ∧
      cap.items = items ∧ exec i s = .next u.testCompletion ∧ u.drawers = (t.post cap tag ans).drawers ∧
      u.line = (t.post cap tag ans).line ∧ u.port = (t.post cap tag ans).port ∧
      u.screens = (t.post cap tag ans).screens ∧ u.tables = s.tables := by
  obtain ⟨r, e, x, rfl, hawaits, hb, hpassed, hcode, hx, hauth, hcls, hoverride, rfl⟩ |
    ⟨tag, j, payload, a, e, rfl, -, hs, hparsed, ha, he, htag, hst, hcls, hpos, rfl⟩ := h
  · have hroled := roled hp hb
    have hexec := exec_request_passed hawaits hb hpassed hcode hx
    rw [carryThrough_eq, if_neg (by simp [goesToCentre, hauth, hcls, hoverride])] at hexec
    have hpassing := passing_eq (s := b) (p := p) (r := r) (e := e) (x := x)
    have hbase : PostingBase x.items s (b.passing p r e x) := by
      have hmade := b.reserveItems_made x.items
      have hbdrawer := drawer_congr hroled.drawers
      refine ⟨?_, ?_, ?_, fun d => ?_, fun d => ?_, fun d hn => ?_⟩
      · rw [hpassing]; exact hroled.tables
      · rw [hpassing]; exact hroled.port
      · rw [hpassing]
        show b.journal.records = _
        rw [hroled.journal]
      · exact (unit_congr (by rw [hpassing]) d 2).trans (hroled.units d 2 (by decide))
      · show ((b.reserveItems x.items).drawer d).releasePending = _ ∧ ((b.reserveItems x.items).drawer d).ceiling = _
        rw [(hmade d).1, hbdrawer]
        exact ⟨rfl, rfl⟩
      · show (b.reserveItems x.items).drawer d = _
        rw [reserveItems_drawer, eachItem_other fun y hy hyd => hn ⟨y, hy, hyd⟩, hbdrawer]
    exact ⟨b.passing p r e x, b.capture p r e x, none, none, _, hbase, rfl, rfl, hexec, rfl, rfl, rfl, rfl,
      (post_within _ _ _ _ .tables (by decide)).trans hbase.tables⟩
  · have hexec : exec (.answer tag payload) s = .next (s.approve j e a) :=
      congrArg Host.Outcome.next (takeAnswer_of_approve hs hparsed ha he htag hst)
    have happrove : s.approve j e a = ((s.post e.req (some e.tag) (some a)).freeEntry j).testCompletion := if_neg hcls
    rw [happrove] at hexec
    exact ⟨s, e.req, some e.tag, some a, _, .refl _ _, hpos, rfl, hexec, rfl, rfl, rfl, rfl,
      post_within s _ _ _ .tables (by decide)⟩

end State

end Sys2Proof.Machine

namespace Sys2Proof.Proofs

open Sys2Proof.Machine Sys2Proof.Machine.State

/-- Settles O36: the posting seen from the state before the request or the answer. -/
theorem postingReleases : Obligations.PostingReleases := by
  unfold Obligations.PostingReleases
  intro s b c p seq items hroom h1 h24 hevent named waits
  have hp : 1 ≤ p ∧ p ≤ 24 := ⟨h1, h24⟩
  obtain ⟨t, cap, tag, ans, u, hbase, hpos, hitems, hexec, hdrawers, hline, hport, hscreens, hutables⟩ := posting_of_event hp hevent
  subst hitems hpos
  have hdrawer : ∀ d, u.drawer d = (t.post cap tag ans).drawer d := drawer_congr hdrawers
  have hunit : ∀ d, u.unit d 2 = if d ∈ itemDrawers cap.items ∧ s.tables.serving d = true
      then (s.unit d 2).takeRelease else s.unit d 2 := fun d => by
    rw [unit_congr (congrArg Line.recs hline) d 2, post_unit, hbase.tables, hbase.units]
  have hmem : ∀ d, d ≤ 24 → named d → d ∈ itemDrawers cap.items := fun d hd hn => mem_itemDrawers.mpr ⟨hd, hn⟩
  refine ⟨u, hexec, fun d hd hn => ⟨?_, ?_⟩, fun d hd hn => ⟨?_, fun hserving => ⟨?_, ?_⟩, fun hserving => ⟨?_, ?_, ?_, ?_⟩⟩,
    ?_, ?_⟩
  · rw [hdrawer, post_drawer_other hn, hbase.others d hn]
  · rw [hunit, if_neg fun hc => hn (mem_itemDrawers.mp hc.1).2]
  · rw [hdrawer, (post_drawer_named (hmem d hd hn)).1, hbase.tables, ← hdrawer, ← hutables]
    exact over_iff d
  · rw [hdrawer, (post_drawer_named (hmem d hd hn)).2, hbase.tables, hserving, Bool.false_or, (hbase.flags d).1]
  · rw [hunit, if_neg fun hc => by simp [hserving] at hc]
  · rw [hdrawer, (post_drawer_named (hmem d hd hn)).2, hbase.tables, hserving, Bool.true_or]
  · intro htaken hwaits
    obtain ⟨hpresent, hfree⟩ := offerAnswer_taken_iff.mp htaken
    rw [hunit, if_pos ⟨hmem d hd hn, hserving⟩, UnitRec.takeRelease, if_pos ⟨hpresent, hfree, hwaits⟩]
  · intro hrefused
    rw [hunit, if_pos ⟨hmem d hd hn, hserving⟩, UnitRec.takeRelease, if_neg]
    rintro ⟨hpresent, hfree, hfirst⟩
    obtain hoffer | hwaits := hrefused
    · exact hoffer (offerAnswer_taken_iff.mpr ⟨hpresent, hfree⟩)
    · exact hfirst hwaits
  · intro hoffer hwaits q hq1 hq24 hown
    refine Shows.congr (post_notReleased ⟨hq1, hq24⟩ (by rw [hbase.tables]; exact hown) (hmem d hd hn)
      (by rw [hbase.tables]; exact hserving) ?_ ?_) hscreens
    · rw [← hoffer]
      unfold offerAnswer
      rw [hbase.units]
    · rw [hbase.units]
      exact hwaits
  · intro alarms
    have halarms : ((t.eachItem cap.items Drawer.post).newlyOver (itemDrawers cap.items)).map (UpFrame.alarm .ceiling) =
        alarms := by
      rw [newlyOver_post (tag := tag) (ans := ans) hbase]
      simp only [alarms, hdrawer]
    have hnotice : t.nearlyFullNotice = s.nearlyFullNotice := by
      unfold nearlyFullNotice
      rw [hbase.records]
    rw [hport, post_port (by rw [hbase.port]; exact hroom), halarms, hnotice, hbase.port, withFrames, List.append_assoc]
  · intro r hr1 hr24 hholds
    rw [screen_congr hscreens] at hholds ⊢
    exact post_marks hp hr1 hr24 (by rw [hbase.tables]; exact hholds)

end Sys2Proof.Proofs
end

