-- ==== Sys2Proof/Proofs/PrintLines.lean ====
section
/-! The print lines that a posting hands to the passbook printer (R158, R159), and what the print loop reads. -/

set_option Elab.async false

namespace Sys2Proof.Machine

/-- Two states that agree in all that the print loop reads and writes, the screens apart. -/
structure SamePrinting (s t : State) : Prop where
  printers : t.printers = s.printers
  store : t.store = s.store
  tables : t.tables = s.tables
  recs : t.line.recs = s.line.recs

namespace SamePrinting

variable {s t : State} {p : Nat}

theorem printer (h : SamePrinting s t) (p : Nat) : t.printer p = s.printer p := State.printer_congr h.printers p

theorem setPrinter (h : SamePrinting s t) (p : Nat) (x : Printer) : SamePrinting (s.setPrinter p x) (t.setPrinter p x) :=
  ⟨congrArg (fun v => wr1 v p x) h.printers, h.store, h.tables, h.recs⟩

theorem onScreen (h : SamePrinting s t) (p : Nat) (f g : Tables → Screen → Screen) :
    SamePrinting (s.onScreen p f) (t.onScreen p g) := ⟨h.printers, h.store, h.tables, h.recs⟩

theorem setPrinterState (h : SamePrinting s t) (p : Nat) (x : PrinterState) :
    SamePrinting (s.setPrinterState p x) (t.setPrinterState p x) := by
  unfold State.setPrinterState
  rw [h.printer]
  split
  · exact h
  · have hset := h.setPrinter p { s.printer p with state := x }
    exact ⟨hset.printers, hset.store, hset.tables, hset.recs⟩

theorem offerAnswer (h : SamePrinting s t) (p u : Nat) : t.offerAnswer p u = s.offerAnswer p u := by
  unfold State.offerAnswer
  rw [State.unit_congr h.recs]

theorem setUnit (h : SamePrinting s t) (p u : Nat) (x : UnitRec) : SamePrinting (s.setUnit p u x) (t.setUnit p u x) := by
  refine ⟨h.printers, h.store, h.tables, ?_⟩
  have hrec : t.posRec p = s.posRec p := by
    unfold State.posRec
    rw [h.recs]
  unfold State.setUnit
  rw [hrec]
  exact congrArg (fun v => wr1 v p _) h.recs

theorem offer (h : SamePrinting s t) (p u : Nat) (m : OutMsg) (c : LineClass) :
    SamePrinting (s.offer p u m c) (t.offer p u m c) := by
  unfold State.offer
  rw [h.offerAnswer, State.unit_congr h.recs]
  split
  · exact h.setUnit p u _
  · exact h

theorem offerPrinter (h : SamePrinting s t) (p : Nat) (m : OutMsg) :
    SamePrinting (s.offerPrinter p m) (t.offerPrinter p m) := by
  unfold State.offerPrinter
  rw [h.offerAnswer, h.printer]
  split
  · exact h.offer p 1 m .print
  · exact h.setPrinter p _
  · exact h

theorem freeLines (h : SamePrinting s t) (places : List Nat) : SamePrinting (s.freeLines places) (t.freeLines places) :=
  ⟨h.printers, congrArg (fun v => places.foldl (fun v i => wr v i none) v) h.store, h.tables, h.recs⟩

theorem clearBook (h : SamePrinting s t) (p : Nat) : SamePrinting (s.clearBook p) (t.clearBook p) := by
  unfold State.clearBook
  rw [h.printer]
  exact h.setPrinter p _

theorem abandonJob (h : SamePrinting s t) (p : Nat) (o : Shown) : SamePrinting (s.abandonJob p o) (t.abandonJob p o) := by
  unfold State.abandonJob
  rw [h.printer]
  split
  · exact h
  · next j hj =>
    have hshown := ((h.freeLines j.lines).setPrinter p { s.printer p with
      job := none, flight := .none, lineWait := none, carried := match j.owed with
        | some item => some (j.account, item)
        | none => (s.printer p).carried }).onScreen p (fun t sc => (sc.takeOutcome t o).settle t)
          (fun t sc => (sc.takeOutcome t o).settle t)
    dsimp only
    split
    · exact ((hshown.offerPrinter p .eject).clearBook p).setPrinterState p .noBook
    · split
      · exact hshown.setPrinterState p .noBook
      · exact hshown

theorem sendPrint (h : SamePrinting s t) (p : Nat) (m : OutMsg) (flight : Flight) (j : Job) :
    SamePrinting (s.sendPrint p m flight j) (t.sendPrint p m flight j) := by
  have hoffer := h.offer p 1 m .print
  unfold State.sendPrint
  rw [h.offerAnswer]
  split
  · dsimp only
    rw [hoffer.printer]
    exact (hoffer.setPrinter p _).setPrinterState p .printing
  · exact h

theorem pageEnd (h : SamePrinting s t) (p : Nat) (j : Job) (b : Book) (l : LayoutEntry) :
    SamePrinting (s.pageEnd p j b l) (t.pageEnd p j b l) := by
  unfold State.pageEnd
  rw [h.printer, h.tables]
  split
  · exact h.abandonJob p _
  · split
    · exact h.sendPrint p _ _ j
    · exact ((h.setPrinter p _).setPrinterState p .waitBook).onScreen p _ _

/-- The print loop does to the printers and the store what it finds there and in the units and the tables (R160). -/
theorem printLoop (h : SamePrinting s t) (p : Nat) : SamePrinting (s.printLoop p) (t.printLoop p) := by
  have hnext : ∀ j, t.nextLine j = s.nextLine j := fun j => by
    unfold State.nextLine
    rw [h.store]
  unfold State.printLoop
  rw [h.printer, h.tables]
  split
  · next j b _ _ =>
    split
    · split
      · exact h.abandonJob p _
      · split
        · rw [hnext]
          split
          · exact h.sendPrint p _ _ _
          · exact h
        · exact h.pageEnd p _ _ _
    · exact h
  · exact h

end SamePrinting

/-! ### The items due (R159) -/

namespace State

theorem newItems_sublist (held : List Nat) (items : List PrintLine) : (newItems held items).Sublist items := by
  induction items generalizing held with
  | nil => exact .slnil
  | cons x rest ih =>
    unfold newItems
    split
    · exact (ih held).cons x
    · exact (ih _).cons_cons x

theorem newItems_not_held {held : List Nat} {items : List PrintLine} {x : PrintLine} (h : x ∈ newItems held items) :
    x.item ∉ held := by
  induction items generalizing held with
  | nil => simp [newItems] at h
  | cons y rest ih =>
    unfold newItems at h
    split at h
    · exact ih h
    · next hy =>
      obtain rfl | hmem := List.mem_cons.mp h
      · simpa using hy
      · exact fun hc => ih hmem (List.mem_cons_of_mem _ hc)

theorem newItems_nodup (held : List Nat) (items : List PrintLine) : ((newItems held items).map (·.item)).Nodup := by
  induction items generalizing held with
  | nil => exact List.nodup_nil
  | cons x rest ih =>
    unfold newItems
    split
    · exact ih held
    · rw [List.map_cons, List.nodup_cons]
      refine ⟨fun hc => ?_, ih _⟩
      obtain ⟨y, hy, hyx⟩ := List.mem_map.mp hc
      exact newItems_not_held hy (hyx ▸ List.mem_cons_self)

/-- What is left of an item is the first of the list that names it. -/
theorem newItems_first {held : List Nat} {items : List PrintLine} {x : PrintLine} (h : x ∈ newItems held items) :
    items.find? (fun y => y.item == x.item) = some x := by
  induction items generalizing held with
  | nil => simp [newItems] at h
  | cons y rest ih =>
    unfold newItems at h
    split at h
    · next hy =>
      have hne : ¬ y.item = x.item := fun hc => newItems_not_held h (hc ▸ by simpa using hy)
      rw [List.find?_cons_of_neg (by simpa using hne)]
      exact ih h
    · obtain rfl | hmem := List.mem_cons.mp h
      · simp
      · have hne : ¬ y.item = x.item := fun hc => newItems_not_held hmem (hc ▸ List.mem_cons_self)
        rw [List.find?_cons_of_neg (by simpa using hne)]
        exact ih hmem

/-- Every item is held already or left. -/
theorem newItems_covers {held : List Nat} {items : List PrintLine} {x : PrintLine} (h : x ∈ items) :
    x.item ∈ held ∨ ∃ y ∈ newItems held items, y.item = x.item := by
  induction items generalizing held with
  | nil => cases h
  | cons z rest ih =>
    unfold newItems
    split
    · next hz =>
      obtain rfl | hmem := List.mem_cons.mp h
      · exact Or.inl (by simpa using hz)
      · exact ih hmem
    · obtain rfl | hmem := List.mem_cons.mp h
      · exact Or.inr ⟨x, List.mem_cons_self, rfl⟩
      · obtain hin | ⟨y, hy, hyx⟩ := ih (held := z.item :: held) hmem
        · obtain hz | hheld := List.mem_cons.mp hin
          · exact Or.inr ⟨z, List.mem_cons_self, hz.symm⟩
          · exact Or.inl hheld
        · exact Or.inr ⟨y, List.mem_cons_of_mem _ hy, hyx⟩

/-! ### The hand-over (R158, R159) -/

variable {s t : State} {p : Nat} {account : Option Text} {items : List PrintLine} {b : Book}

/-- The places of the lines that position p's job holds. -/
def heldLines (s : State) (p : Nat) : List Nat := ((s.printer p).job.map (·.lines)).getD []

/-- The items of a list that are left once those that the job holds are passed over (R159). -/
def freshItems (s : State) (p : Nat) (items : List PrintLine) : List PrintLine :=
  newItems ((s.heldLines p).filterMap (fun i => (rd s.store i none).map (·.item))) items

/-- The lines due can be queued: the printer holds the account's book, and they fit the store and the job (R158, R159). -/
def LinesFit (s : State) (p : Nat) (account : Option Text) (items : List PrintLine) : Prop :=
  ∃ b, (s.printer p).book = some b ∧ account = some b.account ∧
    ((s.printer p).state = .ready ∨ (s.printer p).state = .printing) ∧
    (s.freshItems p items).length ≤ s.freePlaces.length ∧ (s.heldLines p).length + (s.freshItems p items).length ≤ 32

/-- The state with lines in the store's lowest free places and at the end of the job's list (R159). -/
def storing (s : State) (p : Nat) (b : Book) (lines : List PrintLine) : State :=
  (s.withStore ((s.freePlaces.zip lines).foldl (fun v q => wr v q.1 (some q.2)) s.store)).setPrinter p
    { s.printer p with job := some { jobFor (s.printer p) b with
      lines := s.heldLines p ++ s.freePlaces.take lines.length } }

theorem jobFor_lines : (jobFor (s.printer p) b).lines = s.heldLines p := by
  unfold jobFor heldLines
  cases (s.printer p).job <;> rfl

theorem freshItems_eq : newItems (s.jobItems (jobFor (s.printer p) b)) items = s.freshItems p items := by
  unfold freshItems jobItems
  rw [jobFor_lines]

theorem handLines_of_unfit (h : ¬ s.LinesFit p account items) : s.handLines p account items = (s, false) := by
  unfold handLines
  split
  · next a b ha hb =>
    dsimp only
    rw [freshItems_eq, jobFor_lines]
    exact if_neg fun hc => h ⟨_, hb, by rw [hc.2.1], hc.1, hc.2.2.1, hc.2.2.2⟩
  · rfl

theorem handLines_of_none (h : s.LinesFit p account items) (hnone : s.freshItems p items = []) :
    s.handLines p account items = (s, true) := by
  obtain ⟨b, hbook, haccount, hstate, hplaces, hjob⟩ := h
  unfold handLines
  rw [hbook, haccount]
  dsimp only
  rw [freshItems_eq, jobFor_lines, if_pos ⟨hstate, rfl, hplaces, hjob⟩, if_pos hnone]

theorem handLines_of_fresh (h : s.LinesFit p account items) (hsome : s.freshItems p items ≠ [])
    (hbook : (s.printer p).book = some b) :
    s.handLines p account items = ((s.storing p b (s.freshItems p items)).printLoop p, true) := by
  obtain ⟨b', hbook', haccount, hstate, hplaces, hjob⟩ := h
  obtain rfl : b' = b := Option.some.inj (hbook'.symm.trans hbook)
  unfold handLines
  rw [hbook, haccount]
  dsimp only
  rw [freshItems_eq, jobFor_lines, if_pos ⟨hstate, rfl, hplaces, hjob⟩, if_neg hsome]
  rfl

theorem map_fst_zip_sublist {α β : Type} (l : List α) (m : List β) : ((l.zip m).map Prod.fst).Sublist l := by
  induction l generalizing m with
  | nil => exact .slnil
  | cons x l ih =>
    cases m with
    | nil => exact List.nil_sublist _
    | cons y m => exact (ih m).cons_cons x

/-- Lines written at distinct places of the store are read there, and the other places stay. -/
theorem rd_foldl_wr {pairs : List (Nat × PrintLine)} (hdistinct : (pairs.map Prod.fst).Nodup) (hin : ∀ q ∈ pairs, q.1 < 256)
    (v : Vector (Option PrintLine) 256) (n : Nat) : rd (pairs.foldl (fun v q => wr v q.1 (some q.2)) v) n none =
      ((pairs.find? (fun y => y.1 == n)).map (·.2)).or (rd v n none) := by
  induction pairs generalizing v with
  | nil => rfl
  | cons q pairs ih =>
    obtain ⟨hq, hrest⟩ := List.nodup_cons.mp hdistinct
    rw [List.foldl_cons, ih hrest (fun x hx => hin x (List.mem_cons_of_mem _ hx)), rd_wr]
    by_cases hn : q.1 = n
    · have hlater : pairs.find? (fun y => y.1 == n) = none := by
        refine List.find?_eq_none.mpr fun y hy hyn => hq ?_
        rw [hn, ← beq_iff_eq.mp hyn]
        exact List.mem_map_of_mem hy
      rw [List.find?_cons_of_pos (by simpa using hn), hlater, if_pos ⟨hn, hin q List.mem_cons_self⟩]
      rfl
    · rw [List.find?_cons_of_neg (by simpa using hn), if_neg fun hc => hn hc.1]

/-- What stands in the store once lines are stored (R159). -/
theorem storing_store (lines : List PrintLine) (n : Nat) : rd (s.storing p b lines).store n none =
    (((s.freePlaces.zip lines).find? (fun y => y.1 == n)).map (·.2)).or (rd s.store n none) := by
  refine rd_foldl_wr ((map_fst_zip_sublist _ _).nodup (List.nodup_range.filter _)) (fun q hq => ?_) s.store n
  exact List.mem_range.mp (List.mem_filter.mp (List.of_mem_zip hq).1).1

theorem printLoop_of_printing (h : (s.printer p).state = .printing) : s.printLoop p = s := by
  unfold printLoop
  split
  · exact if_neg fun hc => by rw [h] at hc; cases hc.1
  · rfl

theorem freshItems_congr (h : SamePrinting s t) (p : Nat) (items : List PrintLine) :
    t.freshItems p items = s.freshItems p items := by
  unfold State.freshItems State.heldLines
  rw [h.printer, h.store]

theorem storing_congr (h : SamePrinting s t) (p : Nat) (b : Book) (lines : List PrintLine) :
    SamePrinting (s.storing p b lines) (t.storing p b lines) := by
  have hfree : t.freePlaces = s.freePlaces := by
    unfold State.freePlaces
    rw [h.store]
  unfold State.storing State.heldLines
  rw [hfree, h.printer, h.store]
  generalize List.foldl _ s.store _ = v
  exact SamePrinting.setPrinter (s := s.withStore v) (t := t.withStore v) ⟨h.printers, rfl, h.tables, h.recs⟩ p _

theorem linesFit_congr (h : SamePrinting s t) : t.LinesFit p account items ↔ s.LinesFit p account items := by
  have hfree : t.freePlaces = s.freePlaces := by
    unfold State.freePlaces
    rw [h.store]
  unfold LinesFit heldLines
  rw [hfree, h.printer, freshItems_congr h]

variable {c : Captured} {a : Answer} {tag : Option Nat}

theorem postLines_printed (h : c.snap.print = true) : s.postLines c (some a) =
    ((s.handLines c.pos c.account (a.items.map AnswerItem.line ++ [s.currentItem c a])).1,
      !(s.handLines c.pos c.account (a.items.map AnswerItem.line ++ [s.currentItem c a])).2) := by
  unfold postLines
  exact if_pos h

theorem recorded_samePrinting : SamePrinting s (s.recorded c tag) :=
  ⟨recorded_within .printers (by decide), recorded_within .store (by decide), recorded_within .tables (by decide),
    congrArg Line.recs (recorded_within .line (by decide))⟩

/-- A posting whose lines are due leaves printers and store as the hand-over does, and shows whether they were queued. -/
theorem post_printed (h : c.snap.print = true) (hp : 1 ≤ c.pos ∧ c.pos ≤ 24)
    (hpresent : ∀ d, s.tables.serving d = true → (s.unit d 2).presence = .present) :
    ∃ lines : State × Bool, (s.recorded c tag).handLines c.pos c.account
        (a.items.map AnswerItem.line ++ [s.currentItem c a]) = lines ∧
      (s.post c tag (some a)).printers = lines.1.printers ∧ (s.post c tag (some a)).store = lines.1.store ∧
      Shows (s.post c tag (some a)) c.pos (if lines.2 then .approved else .notPrinted) := by
  refine ⟨_, rfl, ?_⟩
  have hitem : (s.recorded c tag).currentItem c a = s.currentItem c a := by
    unfold currentItem
    rw [recorded_within .day (by decide)]
  have hlines := postLines_printed (s := s.recorded c tag) (a := a) h
  rw [hitem] at hlines
  have hrefused : ((s.recorded c tag).postLines c (some a)).1.refusedReleases (itemDrawers c.items) = [] := by
    refine refusedReleases_of_present (fun d hd => ?_) _
    rw [postLines_tables, recorded_tables] at hd
    rw [postLines_unit, recorded_unit]
    exact hpresent d hd
  rw [post_eq, concluded_within _ .printers (by decide), concluded_within _ .store (by decide)]
  have hshows := concluded_shows (s := ((s.recorded c tag).postLines c (some a)).1) (ans := some a) hp
    ((s.recorded c tag).postLines c (some a)).2 hrefused
  rw [hlines] at hshows ⊢
  refine ⟨rfl, rfl, ?_⟩
  cases hq : ((s.recorded c tag).handLines c.pos c.account (a.items.map AnswerItem.line ++ [s.currentItem c a])).2 with
  | true => simpa [hq, postOutcome] using hshows
  | false => simpa [hq, postOutcome] using hshows

end State

end Sys2Proof.Machine

namespace Sys2Proof.Proofs

open Sys2Proof.Machine Sys2Proof.Machine.State

/-- Settles O24: the hand-over in the state before the answer, since what the posting wrote before it the printer does not read. -/
theorem postingPrints : Obligations.PostingPrints := by
  unfold Obligations.PostingPrints
  intro s tag i payload a e hs hparsed ha he htag hst hcls hprint h1 h24 hpresent p current items held names free
  have hp : 1 ≤ p ∧ p ≤ 24 := ⟨h1, h24⟩
  have hexec : exec (.answer tag payload) s = .next (s.approve i e a) :=
    congrArg Host.Outcome.next (takeAnswer_of_approve hs hparsed ha he htag hst)
  have happrove : s.approve i e a = ((s.post e.req (some e.tag) (some a)).freeEntry i).testCompletion := if_neg hcls
  obtain ⟨lines, hlines, hprinters, hstore, hshows⟩ :=
    post_printed (s := s) (a := a) (tag := some e.tag) hprint hp hpresent
  have hsame := recorded_samePrinting (s := s) (c := e.req) (tag := some e.tag)
  have hitems : a.items.map AnswerItem.line ++ [s.currentItem e.req a] = items := rfl
  rw [hitems] at hlines
  have hnames : ∀ n, n ∈ held.filterMap (fun i => (rd s.store i none).map (·.item)) ↔ names n := fun n => by
    simp only [List.mem_filterMap, Option.map_eq_some_iff, names]
    grind
  refine ⟨(s.post e.req (some e.tag) (some a)).freeEntry i, s.freshItems p items, by rw [hexec, happrove],
    ⟨newItems_sublist _ _, newItems_nodup _ _, fun x hx => ⟨fun hn => newItems_not_held hx ((hnames _).mpr hn),
      newItems_first hx⟩, fun x hx => ?_⟩, fun hfits => ?_, fun hfits => ⟨?_, fun hnone => ?_, fun b hbook hsome => ?_⟩⟩
  · exact (newItems_covers hx).imp_left (hnames _).mp
  · have hunfit : ¬ (s.recorded e.req (some e.tag)).LinesFit p e.req.account items :=
      fun hc => hfits ((linesFit_congr hsame).mp hc)
    rw [handLines_of_unfit hunfit] at hlines
    subst hlines
    exact ⟨hprinters.trans hsame.printers, hstore.trans hsame.store, hshows⟩
  · have hfit := (linesFit_congr hsame).mpr hfits
    have hqueued : lines.2 = true := by
      rw [← hlines]
      by_cases hnone : (s.recorded e.req (some e.tag)).freshItems p items = []
      · rw [handLines_of_none hfit hnone]
      · obtain ⟨b, hbook, -⟩ := hfit
        rw [handLines_of_fresh ((linesFit_congr hsame).mpr hfits) hnone hbook]
    rw [hqueued] at hshows
    exact hshows
  · have hfit := (linesFit_congr hsame).mpr hfits
    rw [handLines_of_none hfit (by rw [freshItems_congr hsame]; exact hnone)] at hlines
    subst hlines
    exact ⟨hprinters.trans hsame.printers, hstore.trans hsame.store⟩
  · intro job stored
    have hfit := (linesFit_congr hsame).mpr hfits
    rw [handLines_of_fresh (b := b) hfit (by rw [freshItems_congr hsame]; exact hsome)
      (by rw [hsame.printer]; exact hbook), freshItems_congr hsame] at hlines
    have hstoring := storing_congr hsame p b (s.freshItems p items)
    have hloop := hstoring.printLoop p
    subst hlines
    have hstored : ∀ v : State, v.store = (s.storing p b (s.freshItems p items)).store → stored v := fun v hv n => by
      rw [hv]
      exact storing_store _ n
    refine ⟨fun hprinting => ?_, fun _ => ⟨s.storing p b (s.freshItems p items), rfl, hstored _ rfl, ?_, ?_⟩⟩
    · have hstate : ((s.storing p b (s.freshItems p items)).printer p).state = .printing := by
        unfold storing
        rw [printer_setPrinter, if_pos ⟨rfl, hp⟩]
        exact hprinting
      rw [printLoop_of_printing hstate] at hloop
      exact ⟨hprinters.trans hloop.printers, hstored _ (hstore.trans hloop.store)⟩
    · exact hprinters.trans hloop.printers
    · exact hstore.trans hloop.store

end Sys2Proof.Proofs
end

