-- ==== Sys2Proof/Proofs/CashFigures.lean ====
section
/-! Note selection and the figures of an exchange (R100, R104). -/

set_option Elab.async false

namespace Sys2Proof.Machine

theorem pairsValue_nil (faces : List Nat) : pairsValue faces [] = 0 := rfl

theorem pairsValue_cons (faces : List Nat) (q : Nat × Nat) (pairs : List (Nat × Nat)) :
    pairsValue faces (q :: pairs) = q.2 * faces.getD (q.1 - 1) 0 + pairsValue faces pairs := rfl

/-- One step of the walk: the lesser of what is available and what the amount holds of the face (R100). -/
theorem noteWalk_cons (den face available : Nat) (rest : List (Nat × Nat × Nat)) (amount : Nat) :
    noteWalk ((den, face, available) :: rest) amount =
      ((if min available (amount / face) = 0 then [] else [(den, min available (amount / face))]) ++
        (noteWalk rest (amount - min available (amount / face) * face)).1,
        (noteWalk rest (amount - min available (amount / face) * face)).2) := by
  rw [noteWalk]
  dsimp only
  split <;> rfl

/-- What a walk takes and what it leaves make up the amount (R100). -/
theorem noteWalk_value {faces : List Nat} {notes : List (Nat × Nat × Nat)}
    (h : ∀ x ∈ notes, faces.getD (x.1 - 1) 0 = x.2.1) (amount : Nat) :
    pairsValue faces (noteWalk notes amount).1 + (noteWalk notes amount).2 = amount := by
  induction notes generalizing amount with
  | nil => simp [noteWalk, pairsValue_nil]
  | cons x rest ih =>
    obtain ⟨den, face, available⟩ := x
    have hface : faces.getD (den - 1) 0 = face := h _ List.mem_cons_self
    rw [noteWalk_cons]
    have hrest := ih (fun y hy => h y (List.mem_cons_of_mem _ hy)) (amount - min available (amount / face) * face)
    have hle : min available (amount / face) * face ≤ amount :=
      (Nat.mul_le_mul_right _ (Nat.min_le_right ..)).trans (Nat.div_mul_le_self ..)
    split
    · next hk =>
      rw [hk] at hrest ⊢
      simpa using hrest
    · rw [List.singleton_append, pairsValue_cons, hface]
      dsimp only
      omega

/-- What a walk takes is of the notes it walks, at least one and no more than are available (R100). -/
theorem noteWalk_taken {notes : List (Nat × Nat × Nat)} {amount d n : Nat} (h : (d, n) ∈ (noteWalk notes amount).1) :
    1 ≤ n ∧ ∃ x ∈ notes, x.1 = d ∧ n ≤ x.2.2 := by
  induction notes generalizing amount with
  | nil => simp [noteWalk] at h
  | cons x rest ih =>
    obtain ⟨den, face, available⟩ := x
    rw [noteWalk_cons] at h
    obtain hnow | hlater := List.mem_append.mp h
    · split at hnow
      · cases hnow
      · next hk =>
        obtain ⟨rfl, rfl⟩ := Prod.mk.inj (List.mem_singleton.mp hnow)
        exact ⟨Nat.pos_of_ne_zero hk, _, List.mem_cons_self, rfl, Nat.min_le_left ..⟩
    · obtain ⟨h1, y, hy, hyd⟩ := ih hlater
      exact ⟨h1, y, List.mem_cons_of_mem _ hy, hyd⟩

/-- The notes of a currency with what is available of each, largest face first. -/
theorem mem_notes {faces : List Nat} {available : Nat → Nat} {x : Nat × Nat × Nat}
    (h : x ∈ (faces.mapIdx (fun i f => (i + 1, f, available (i + 1)))).reverse) :
    1 ≤ x.1 ∧ x.1 ≤ faces.length ∧ faces.getD (x.1 - 1) 0 = x.2.1 ∧ x.2.2 = available x.1 := by
  rw [List.mem_reverse, List.mem_mapIdx] at h
  obtain ⟨i, hi, rfl⟩ := h
  exact ⟨Nat.le_add_left .., hi, by simp [hi], rfl⟩

/-! ### Floors and ceilings (R104) -/

theorem le_ceilDiv_mul (a : Nat) {b : Nat} (hb : 0 < b) : a ≤ ceilDiv a b * b ∧ ceilDiv a b * b < a + b := by
  have hdiv := Nat.div_add_mod (a + b - 1) b
  have hmod := Nat.mod_lt (a + b - 1) hb
  have hcomm : b * ((a + b - 1) / b) = (a + b - 1) / b * b := Nat.mul_comm ..
  unfold ceilDiv
  omega

theorem div_mul_bounds (a : Nat) {b : Nat} (hb : 0 < b) : a / b * b ≤ a ∧ a < a / b * b + b := by
  have hdiv := Nat.div_add_mod a b
  have hmod := Nat.mod_lt a hb
  have hcomm : b * (a / b) = a / b * b := Nat.mul_comm ..
  omega

theorem exchangeFigures_buy (amount rate step : Nat) : exchangeFigures false amount rate step =
    { rate := rate, equiv := amount * rate / 100000000, cash := amount * rate / 100000000 / step * step
      residue := ((amount * rate / 100000000 : Nat) : Int) - ((amount * rate / 100000000 / step * step : Nat) : Int) } := by
  simp only [exchangeFigures, Bool.false_eq_true, if_false]

theorem exchangeFigures_sell (amount rate step : Nat) : exchangeFigures true amount rate step =
    { rate := rate, equiv := ceilDiv (amount * rate) 100000000
      cash := ceilDiv (ceilDiv (amount * rate) 100000000) step * step
      residue := (ceilDiv (amount * rate) 100000000 : Int) -
        ((ceilDiv (ceilDiv (amount * rate) 100000000) step * step : Nat) : Int) } := by
  simp only [exchangeFigures, if_true]

end Sys2Proof.Machine

namespace Sys2Proof.Proofs

open Sys2Proof.Machine

/-- Settles O37: the walk step by step and its sum, and the floors and ceilings with the range of the residue. -/
theorem notesAndExchangeFigures : Obligations.NotesAndExchangeFigures := by
  unfold Obligations.NotesAndExchangeFigures
  refine ⟨⟨fun _ => rfl, fun den face available rest amount _ => noteWalk_cons .., fun faces available amount _ => ?_⟩,
    fun amount rate step hstep => ?_⟩
  · intro notes
    refine ⟨noteWalk_value (fun x hx => (mem_notes hx).2.2.1) amount, fun d n hd => ?_⟩
    obtain ⟨h1, x, hx, rfl, hn⟩ := noteWalk_taken hd
    obtain ⟨hlow, hhigh, -, havailable⟩ := mem_notes hx
    exact ⟨hlow, hhigh, h1, havailable ▸ hn⟩
  · intro buy sell
    have hbuy : buy = _ := exchangeFigures_buy amount rate step
    have hsell : sell = _ := exchangeFigures_sell amount rate step
    clear_value buy sell
    obtain ⟨hfloor, hfloor'⟩ := div_mul_bounds (amount * rate) (b := 100000000) (by decide)
    obtain ⟨hbuyCash, hbuyCash'⟩ := div_mul_bounds (amount * rate / 100000000) hstep
    obtain ⟨hceil, hceil'⟩ := le_ceilDiv_mul (amount * rate) (b := 100000000) (by decide)
    obtain ⟨hsellCash, hsellCash'⟩ := le_ceilDiv_mul (ceilDiv (amount * rate) 100000000) hstep
    subst hbuy hsell
    dsimp only
    generalize hc : amount * rate / 100000000 / step * step = buyCash at *
    generalize hd : ceilDiv (ceilDiv (amount * rate) 100000000) step * step = sellCash at *
    generalize amount * rate / 100000000 = buyEquiv at *
    generalize ceilDiv (amount * rate) 100000000 = sellEquiv at *
    refine ⟨⟨rfl, hfloor, by omega, hc ▸ Nat.dvd_mul_left .., hbuyCash, hbuyCash', by omega, by omega, by omega⟩,
      ⟨rfl, hceil, hceil', hd ▸ Nat.dvd_mul_left .., hsellCash, hsellCash', by omega, by omega, by omega⟩, fun ha hr => ?_⟩
    have hproduct : 0 < amount * rate := Nat.mul_pos ha hr
    omega

end Sys2Proof.Proofs
end

