-- ==== Sys2Proof/Proofs/SessionMessages.lean ====
section
/-! SIGN_ON, SIGN_OFF, SUSPEND and RESUME (R52 to R55), and the checks of COUNT, ACCEPT_DIFF and REOPEN (R115, R120, R121). -/

set_option Elab.async false

namespace Sys2Proof.Machine

namespace State

variable {s b : State} {p seq d teller : Nat} {lists : List (List Nat)} {x : Session}

/-! ### From the message to its checks -/

theorem exec_signOn (h : s.Awaits p 0 seq) : exec (.signOn p seq teller) s = .next ((s.accepted p 0 seq).takeSignOn p teller) :=
  congrArg Host.Outcome.next (receive_of_awaits h (.signOn teller))

theorem exec_signOff (h : s.Awaits p 0 seq) : exec (.signOff p seq) s = .next ((s.accepted p 0 seq).takeSignOff p) :=
  congrArg Host.Outcome.next (receive_of_awaits h .signOff)

theorem exec_suspend (h : s.Awaits p 0 seq) : exec (.suspend p seq) s = .next ((s.accepted p 0 seq).takeSuspend p) :=
  congrArg Host.Outcome.next (receive_of_awaits h .suspend)

theorem exec_resume (h : s.Awaits p 0 seq) :
    exec (.resume p seq teller) s = .next ((s.accepted p 0 seq).takeResume p teller) :=
  congrArg Host.Outcome.next (receive_of_awaits h (.resume teller))

theorem exec_count (h : s.Awaits p 0 seq) :
    exec (.count p seq d lists) s = .next ((s.accepted p 0 seq).takeCount p d lists) :=
  congrArg Host.Outcome.next (receive_of_awaits h (.count d lists))

theorem exec_acceptDiff (h : s.Awaits p 0 seq) :
    exec (.acceptDiff p seq d lists) s = .next ((s.accepted p 0 seq).takeAcceptDiff p d lists) :=
  congrArg Host.Outcome.next (receive_of_awaits h (.acceptDiff d lists))

theorem exec_reopen (h : s.Awaits p 0 seq) : exec (.reopen p seq d) s = .next ((s.accepted p 0 seq).takeReopen p d) :=
  congrArg Host.Outcome.next (receive_of_awaits h (.reopen d))

/-! ### The room tests (R176, R179) -/

theorem generalRoom_eq_false_iff : s.generalRoom = false ↔ s.generalSpace < 1 ∨ s.journal.closed = true := by
  simp only [generalRoom, Bool.and_eq_false_iff, Bool.not_eq_false', decide_eq_false_iff_not, Int.not_le]
  exact or_comm

theorem reserveRoom_iff : s.reserveRoom = true ↔ -63 ≤ s.generalSpace ∧ s.journal.closed = false := by
  simp only [reserveRoom, Bool.and_eq_true, Bool.not_eq_true', decide_eq_true_eq]
  tauto

/-! ### The session of a position -/

theorem setSession_eq (h : s.session p ≠ x) : s.setSession p x = { s with
    sessions := wr1 s.sessions p x, screens := (s.setSession p x).screens } := by
  have hset : s.setSession p x = (s.withSessions (wr1 s.sessions p x)).sessionReport p := if_neg h
  have hmerge := (sessionReport_within (s.withSessions (wr1 s.sessions p x)) p).eq_merge
  rw [hset]
  generalize (s.withSessions (wr1 s.sessions p x)).sessionReport p = t at hmerge ⊢
  exact hmerge

/-- The checks of SIGN_ON as one refusal (R52). -/
theorem firstFailure_signOnChecks : firstFailure (s.signOnChecks p teller) =
    if s.lock = 0 then some .notLive
    else if s.day.state ≠ .opened ∧ s.day.state ≠ .cutoff then some .dayClosed
    else if (s.session p).state ≠ .signedOff then some .busy
    else if s.tables.findTeller teller = none then some .notSignedOn
    else if s.heldElsewhere p teller = true then some .busy
    else if s.generalSpace < 1 ∨ s.journal.closed = true then some .journalFull
    else none := by
  have hroom : (!s.generalRoom) = true ↔ s.generalSpace < 1 ∨ s.journal.closed = true := by
    rw [Bool.not_eq_true', generalRoom_eq_false_iff]
  simp only [signOnChecks, firstFailure, hroom, live, Bool.and_eq_true, bne_iff_ne, Option.isNone_iff_eq_none,
    Bool.not_eq_true', bne_eq_false_iff_eq]

/-- The session that a sign-on makes, with its record (R52). -/
def signedOn (s : State) (p teller : Nat) : State :=
  (s.setSession p { state := .signedOn, teller := some teller
                    role := (s.tables.findTeller teller).map (·.role) }).append (.signOn p teller)

theorem takeSignOn_of_failure {o : Shown} (h : firstFailure (s.signOnChecks p teller) = some o) :
    s.takeSignOn p teller = s.showAt p o := by
  unfold takeSignOn
  rw [h]

theorem takeSignOn_of_none (h : firstFailure (s.signOnChecks p teller) = none) :
    s.takeSignOn p teller = (s.signedOn p teller).takeDefaultForm p := by
  unfold takeSignOn
  rw [h]
  rfl

/-- A session set and a record appended: the two changes of a sign-on or a sign-off. -/
theorem setSession_append_eq (h : s.session p ≠ x) (r : Body) : (s.setSession p x).append r = { s with
    sessions := wr1 s.sessions p x, screens := (s.setSession p x).screens, journal := s.withRecord r
    port := s.portAfterRecord, counters := s.countersAfterRecord } := by
  have hset := setSession_eq h
  rw [append_eq]
  generalize s.setSession p x = t at hset ⊢
  rw [hset]
  rfl

theorem takeForm_other {q f : Nat} (h : q ≠ p) : (s.takeForm p f).screen q = s.screen q := screen_onScreen_other s h _

/-- The default form changes its position's form alone: last outcome and view stay, and so does every other screen (R150). -/
theorem takeDefaultForm_shown (p : Nat) : ((s.takeDefaultForm p).screen p).last = (s.screen p).last ∧
    ((s.takeDefaultForm p).screen p).view = (s.screen p).view ∧
    ∀ q, q ≠ p → (s.takeDefaultForm p).screen q = s.screen q := by
  cases he : s.tables.position p with
  | none =>
    unfold takeDefaultForm
    rw [he]
    exact ⟨rfl, rfl, fun _ _ => rfl⟩
  | some e =>
    rw [takeDefaultForm_eq s he]
    refine ⟨?_, ?_, fun q hq => takeForm_other hq⟩
    · unfold takeForm
      rw [screen_onScreen_same s (position_index he)]
      simp
    · unfold takeForm
      rw [screen_onScreen_same s (position_index he)]
      simp

theorem takeDefaultForm_screens (p : Nat) : s.takeDefaultForm p = { s with screens := (s.takeDefaultForm p).screens } :=
  (takeDefaultForm_within s p).eq_merge

end State

end Sys2Proof.Machine

namespace Sys2Proof.Proofs

open Sys2Proof.Machine Sys2Proof.Machine.State

/-- Settles O31: the refusal is the model's first failure, and a sign-on that passes sets its session, writes its record and takes
the default form. -/
theorem signOn : Obligations.SignOn := by
  unfold Obligations.SignOn
  intro s b p seq teller hawaits hb h1 h24 refusal
  have hp : 1 ≤ p ∧ p ≤ 24 := ⟨h1, h24⟩
  have hrefusal : firstFailure (b.signOnChecks p teller) = refusal := by
    rw [hb, firstFailure_signOnChecks]
    rfl
  have hexec := exec_signOn (teller := teller) hawaits
  rw [← hb] at hexec
  refine ⟨fun o ho => ?_, fun hnone => ?_⟩
  · rw [takeSignOn_of_failure (hrefusal.trans ho)] at hexec
    obtain ⟨u, hu, hfields, hshows, hothers⟩ := b.shown_at_sender hexec hp
    exact ⟨u, hu, hfields, hshows, fun q hq => (hothers q hq).trans (by rw [hb]; rfl)⟩
  · rw [takeSignOn_of_none (hrefusal.trans hnone)] at hexec
    have hchecks := firstFailure_none (hrefusal.trans hnone)
    have hoff := hchecks ((b.session p).state != .signedOff, .busy) (by simp [signOnChecks])
    have hknown := hchecks ((b.tables.findTeller teller).isNone, .notSignedOn) (by simp [signOnChecks])
    obtain ⟨e, he⟩ : ∃ e, b.tables.findTeller teller = some e :=
      Option.isSome_iff_exists.mp (by simpa using hknown)
    have hchanges : b.session p ≠
        { state := .signedOn, teller := some teller, role := (b.tables.findTeller teller).map (·.role) } := fun hc => by
      rw [hc] at hoff
      cases hoff
    have hset := setSession_append_eq hchanges (.signOn p teller)
    have hform := takeDefaultForm_screens (s := b.signedOn p teller) p
    obtain ⟨hlast, hview, hothers⟩ := takeDefaultForm_shown (s := b.signedOn p teller) p
    have hkeeps : ∀ q, (b.screen q).Keeps ((b.signedOn p teller).screen q) := fun q => by
      have hscreens : (b.signedOn p teller).screen q = (b.setSession p _).screen q :=
        screen_congr (append_within _ _ .screens (by decide)) q
      rw [hscreens]
      exact setSession_keeps b p _ q
    refine ⟨_, e, hexec, by rw [← he, hb]; rfl, ?_, ?_, ?_, fun x hx => ?_, fun q hq => ?_⟩
    · generalize (b.signedOn p teller).takeDefaultForm p = u at hform ⊢
      rw [hform, signedOn, hset, he, hb]
      rfl
    · rw [hlast, (hkeeps p).last, hb]
      rfl
    · rw [hview, (hkeeps p).view, hb]
      rfl
    · have htables : (b.signedOn p teller).tables = s.tables := by
        rw [signedOn, hset, hb]
        rfl
      rw [takeDefaultForm_eq _ (by rw [htables]; exact hx)]
      unfold takeForm
      rw [screen_onScreen_same _ hp]
      simp
    · rw [hothers q hq]
      have hscreens : (b.signedOn p teller).screen q = (b.setSession p _).screen q :=
        screen_congr (append_within _ _ .screens (by decide)) q
      rw [hscreens, screen_setSession_other _ hq, hb]
      rfl

/-- Settles O32: SIGN_OFF by its first failing check, SUSPEND and RESUME by the state of the session. -/
theorem signOffSuspendAndResume : Obligations.SignOffSuspendAndResume := by
  unfold Obligations.SignOffSuspendAndResume
  refine ⟨fun s b p seq hawaits hb h1 h24 => ?_, fun s b p seq teller hawaits hb h1 h24 => ?_⟩
  · intro shown
    have hp : 1 ≤ p ∧ p ≤ 24 := ⟨h1, h24⟩
    have hexec := exec_signOff hawaits
    rw [← hb] at hexec
    have hscreen : ∀ q, b.screen q = s.screen q := fun q => by rw [hb]; rfl
    have hsession : b.session p = s.session p := by rw [hb]; rfl
    have hfails : ∀ o, firstFailure (b.signOffChecks p) = some o → shown o := fun o ho => by
      have hshow : exec (.signOff p seq) s = .next (b.showAt p o) := by
        rw [hexec, takeSignOff, ho]
      obtain ⟨u, hu, hfields, hshows, hothers⟩ := b.shown_at_sender hshow hp
      exact ⟨u, hu, hfields, hshows, fun q hq => (hothers q hq).trans (hscreen q)⟩
    have hwaiting : (b.waitingAt p).isSome = true ↔ s.HasWaiting p := by
      rw [hb, ← Option.ne_none_iff_isSome, Ne, waitingAt_eq_none_iff, not_not]
      exact Iff.rfl
    have hroom : b.reserveRoom = true ↔ -63 ≤ s.generalSpace ∧ s.journal.closed = false := by
      rw [hb]
      exact reserveRoom_iff
    refine ⟨fun hoff => hfails _ ?_, fun hon hwaits => hfails _ ?_, fun hon hwaits hfull => hfails _ ?_,
      fun hon hwaits hspace hopen => ?_⟩
    · simp [signOffChecks, firstFailure, hsession, hoff]
    · simp [signOffChecks, firstFailure, hsession, hon, hwaiting.mpr hwaits]
    · have hno : b.reserveRoom = false := by
        rw [Bool.eq_false_iff, Ne, hroom]
        rintro ⟨hspace, hopen⟩
        obtain hlow | hclosed := hfull
        · omega
        · rw [hopen] at hclosed
          cases hclosed
      have hfree : (b.waitingAt p).isSome = false := by simpa [hwaits] using hwaiting
      simp [signOffChecks, firstFailure, hsession, hon, hfree, hno]
    · have hfree : (b.waitingAt p).isSome = false := by simpa [hwaits] using hwaiting
      have hnone : firstFailure (b.signOffChecks p) = none := by
        simp [signOffChecks, firstFailure, hsession, hon, hfree, hroom.mpr ⟨hspace, hopen⟩]
      have htake : b.takeSignOff p =
          (b.setSession p Session.off).append (.signOff p ((b.session p).teller.getD 0) .teller) := by
        rw [takeSignOff, hnone]
      rw [htake] at hexec
      have hchanges : b.session p ≠ Session.off := fun hc => hon (by rw [← hsession, hc]; rfl)
      have hset := setSession_append_eq hchanges (.signOff p ((b.session p).teller.getD 0) .teller)
      have hscreens : ∀ q, ((b.setSession p Session.off).append
          (.signOff p ((b.session p).teller.getD 0) .teller)).screen q = (b.setSession p Session.off).screen q :=
        screen_congr (append_within _ _ .screens (by decide))
      refine ⟨_, hexec, ?_, fun q => ?_, fun q hq => ?_⟩
      · generalize (b.setSession p Session.off).append (.signOff p ((b.session p).teller.getD 0) .teller) = u at hset ⊢
        rw [hset, hsession, hb]
        rfl
      · have hkeeps := setSession_keeps b p Session.off q
        unfold ShowsAsBefore
        rw [hscreens, hkeeps.form, hkeeps.view, hkeeps.last, hscreen]
        exact ⟨rfl, rfl, rfl⟩
      · rw [hscreens, screen_setSession_other _ hq, hscreen]
  · intro shown becomes
    have hp : 1 ≤ p ∧ p ≤ 24 := ⟨h1, h24⟩
    have hscreen : ∀ q, b.screen q = s.screen q := fun q => by rw [hb]; rfl
    have hsession : b.session p = s.session p := by rw [hb]; rfl
    have hsuspend := exec_suspend hawaits
    have hresume := exec_resume (teller := teller) hawaits
    rw [← hb] at hsuspend hresume
    have hshown : ∀ c o, exec c s = .next (b.showAt p o) → shown c o := fun c o hc => by
      obtain ⟨u, hu, hfields, hshows, hothers⟩ := b.shown_at_sender hc hp
      exact ⟨u, hu, hfields, hshows, fun q hq => (hothers q hq).trans (hscreen q)⟩
    have hbecomes : ∀ c x, exec c s = .next (b.setSession p x) → b.session p ≠ x → becomes c x := fun c x hc hx => by
      have hset := setSession_eq hx
      have hkeeps := setSession_keeps b p x p
      refine ⟨_, hc, ?_, ?_, fun q hq => ?_⟩
      · generalize b.setSession p x = u at hset ⊢
        rw [hset, hb]
        rfl
      · unfold ShowsAsBefore
        rw [hkeeps.form, hkeeps.view, hkeeps.last, hscreen]
        exact ⟨rfl, rfl, rfl⟩
      · rw [screen_setSession_other _ hq, hscreen]
    refine ⟨fun hon => ⟨hbecomes _ _ ?_ ?_, ?_⟩, fun hsusp => ⟨?_, fun hother => hshown _ _ ?_, fun hsame e he => hbecomes _ _ ?_ ?_⟩,
      fun hoff => ⟨hshown _ _ ?_, hshown _ _ ?_⟩⟩
    · rw [hsuspend, takeSuspend, hsession, hon]
    · intro hc
      rw [hsession] at hc
      rw [hc] at hon
      cases hon
    · rw [hresume, takeResume, hsession, hon]
    · rw [hsuspend, takeSuspend, hsession, hsusp]
    · rw [hresume, takeResume, hsession, hsusp]
      exact congrArg _ (if_neg hother)
    · have htables : b.tables = s.tables := by rw [hb]; rfl
      rw [hresume, takeResume, hsession, hsusp]
      refine congrArg _ ((if_pos hsame).trans ?_)
      rw [htables, he, ← hsame]
      rfl
    · intro hc
      rw [hsession] at hc
      rw [hc] at hsusp
      cases hsusp
    · rw [hsuspend, takeSuspend, hsession, hoff]
    · rw [hresume, takeResume, hsession, hoff]

end Sys2Proof.Proofs
end

