-- ==== Sys2Proof/Proofs/CountMessages.lean ====
section
/-! The checks of COUNT, ACCEPT_DIFF and REOPEN, and the REOPEN that passes (R115, R120, R121). -/

set_option Elab.async false

namespace Sys2Proof.Machine

/-- The counts of a currency are all 0 exactly when each of its twelve is. -/
theorem countsOf_zero_iff (t : CountTable) (c : Nat) :
    (∀ n ∈ countsOf t c, n = 0) ↔ ∀ k, 1 ≤ k → k ≤ 12 → countAt t c k = 0 := by
  have hcount : ∀ k (h1 : 1 ≤ k) (h12 : k ≤ 12), countAt t c k = (rd t c (Vector.replicate 12 0))[k - 1] := fun k h1 h12 => by
    unfold countAt rd1
    rw [if_neg (Nat.ne_of_gt h1)]
    simp [rd, show k - 1 < 12 by omega]
  constructor
  · intro h k h1 h12
    rw [hcount k h1 h12]
    exact h _ (by simp [countsOf])
  · intro h n hn
    obtain ⟨i, hi, rfl⟩ := List.getElem_of_mem hn
    have hlt : i < 12 := by simpa [countsOf] using hi
    have hzero := h (i + 1) (by omega) (by omega)
    rw [hcount (i + 1) (by omega) (by omega)] at hzero
    simpa [countsOf] using hzero

namespace State

variable {s b : State} {p seq d : Nat} {lists : List (List Nat)} {o : Shown}

theorem holdsReservation_eq_false_iff : s.holdsReservation d = false ↔ ∀ c k, c < 4 → 1 ≤ k → k ≤ 12 →
    countAt (s.drawer d).reserved c k = 0 ∧ countAt (s.drawer d).incoming c k = 0 := by
  have hsides : s.holdsReservation d = false ↔ ∀ c, c < 4 →
      (∀ n ∈ countsOf (s.drawer d).reserved c, n = 0) ∧ ∀ n ∈ countsOf (s.drawer d).incoming c, n = 0 := by
    simp only [holdsReservation, List.any_eq_false, List.mem_range, Bool.or_eq_true, not_or, List.any_eq_true, not_exists,
      not_and, bne_iff_ne, not_not]
  simp only [hsides, countsOf_zero_iff]
  exact ⟨fun h c k hc h1 h12 => ⟨(h c hc).1 k h1 h12, (h c hc).2 k h1 h12⟩,
    fun h c hc => ⟨fun k h1 h12 => (h c k hc h1 h12).1, fun k h1 h12 => (h c k hc h1 h12).2⟩⟩

theorem listsFit_iff : s.listsFit lists = true ↔ ∀ c, c < 4 → (lists.getD c []).length = (s.tables.faces c).length := by
  simp [listsFit]

theorem countedTooMuch_eq_false_iff : s.countedTooMuch lists = false ↔
    ∀ c, c < 4 → valueOf (s.tables.faces c) (lists.getD c []) ≤ 999999999999 := by
  have hmax (n : Nat) : decide (Config.amountMax < n) = decide (999999999999 < n) := rfl
  simp [countedTooMuch, countedValue, hmax]

theorem copyRole_state (hp : 1 ≤ p ∧ p ≤ 24) : ((s.copyRole p).session p).state = (s.session p).state := by
  unfold copyRole
  split
  · rfl
  · split
    · rw [session_setSession s hp]
    · rfl

theorem takeCount_of_failure (hd : d ≤ 24) (h : firstFailure ((s.copyRole p).countChecks p d lists) = some o) :
    s.takeCount p d lists = (s.copyRole p).showAt p o := by
  unfold takeCount
  rw [if_neg (Nat.not_lt.mpr hd)]
  dsimp only
  rw [h]

theorem takeAcceptDiff_of_failure (hd : d ≤ 24) (h : firstFailure ((s.copyRole p).acceptDiffChecks p d lists) = some o) :
    s.takeAcceptDiff p d lists = (s.copyRole p).showAt p o := by
  unfold takeAcceptDiff
  rw [if_neg (Nat.not_lt.mpr hd)]
  dsimp only
  rw [h]

theorem takeReopen_of_failure (hd : d ≤ 24) (h : firstFailure ((s.copyRole p).reopenChecks p d) = some o) :
    s.takeReopen p d = (s.copyRole p).showAt p o := by
  unfold takeReopen
  rw [if_neg (Nat.not_lt.mpr hd)]
  dsimp only
  rw [h]

/-- A REOPEN that passes, up to the test of completion: the drawer ACTIVE and its record (R121). -/
def reopened (s : State) (p d : Nat) : State :=
  (s.setDrawerState d .active 0).append (.proof p ((s.session p).teller.getD 0) d .reopened [0, 0, 0, 0])

theorem takeReopen_of_none (hd : d ≤ 24) (h : firstFailure ((s.copyRole p).reopenChecks p d) = none) :
    s.takeReopen p d = ((s.copyRole p).reopened p d).testCompletion := by
  unfold takeReopen
  rw [if_neg (Nat.not_lt.mpr hd)]
  dsimp only
  rw [h]
  rfl

theorem reopened_eq : s.reopened p d = { s with
    drawers := wr s.drawers d { s.drawer d with state := .active, recount := 0 }, screens := (s.reopened p d).screens
    journal := s.withRecord (.proof p ((s.session p).teller.getD 0) d .reopened [0, 0, 0, 0])
    port := s.portAfterRecord, counters := s.countersAfterRecord } := by
  have hreport := (drawerStateReport_within (s.setDrawer d { s.drawer d with state := .active, recount := 0 }) d).eq_merge
  unfold reopened setDrawerState
  rw [append_eq]
  generalize (s.setDrawer d { s.drawer d with state := .active, recount := 0 }).drawerStateReport d = t at hreport ⊢
  rw [hreport]
  rfl

theorem reopened_onlyMarks : OnlyMarks s (s.reopened p d) :=
  ((s.setDrawer d { s.drawer d with state := .active, recount := 0 }).touch_onlyMarks _ _).congr rfl
    (append_within _ _ .screens (by decide))

/-- The drawer is shut and no release is pending (R115). -/
theorem drawerOpen_iff : ((s.drawer d).physical != .closed || (s.drawer d).releasePending) = true ↔
    ¬ ((s.drawer d).physical = .closed ∧ (s.drawer d).releasePending = false) := by
  simp [imp_iff_not_or]

theorem firstFailure_countChecks : firstFailure (s.countChecks p d lists) =
    if (s.session p).state = .signedOff then some .notSignedOn
    else if (s.session p).state = .suspended then some .suspended
    else if ¬ (d = s.tables.ownDrawer p ∨ s.supervisor p = true) then some .role
    else if (s.drawer d).state = .balanced then some .drawerState
    else if ¬ s.holdsReservation d = false then some .busy
    else if ¬ ((s.drawer d).physical = .closed ∧ (s.drawer d).releasePending = false) then some .drawerOpen
    else if ¬ s.listsFit lists = true then some .breakdownMismatch
    else if ¬ s.countedTooMuch lists = false then some .drawerFull
    else if ¬ s.reserveRoom = true then some .journalFull
    else none := by
  have hrole : (d != s.tables.ownDrawer p && !s.supervisor p) = true ↔
      ¬ (d = s.tables.ownDrawer p ∨ s.supervisor p = true) := by simp
  simp only [countChecks, firstFailure, hrole, drawerOpen_iff, beq_iff_eq, Bool.not_eq_true', Bool.not_eq_false,
    Bool.not_eq_true]

theorem firstFailure_acceptDiffChecks : firstFailure (s.acceptDiffChecks p d lists) =
    if s.supervisor p = false ∨ d = s.tables.ownDrawer p then some .role
    else if ¬ (s.drawer d).state = .awaitingAccept then some .drawerState
    else if ¬ ((s.drawer d).physical = .closed ∧ (s.drawer d).releasePending = false) then some .drawerOpen
    else if ¬ s.listsFit lists = true then some .breakdownMismatch
    else if ¬ s.countedTooMuch lists = false then some .drawerFull
    else if ¬ s.reserveRoom = true then some .journalFull
    else none := by
  simp only [acceptDiffChecks, firstFailure, drawerOpen_iff, beq_iff_eq, bne_iff_ne, Bool.not_eq_true', Bool.not_eq_false,
    Bool.not_eq_true]
  by_cases hsup : s.supervisor p = false
  · simp [hsup]
  · simp [hsup]

theorem firstFailure_reopenChecks : firstFailure (s.reopenChecks p d) =
    if s.supervisor p = false then some .role
    else if s.day.state = .cutoff then some .dayClosed
    else if (s.drawer d).state ≠ .balanced then some .drawerState
    else if s.generalSpace < 1 ∨ s.journal.closed = true then some .journalFull
    else none := by
  have hroom : (!s.generalRoom) = true ↔ s.generalSpace < 1 ∨ s.journal.closed = true := by
    rw [Bool.not_eq_true', generalRoom_eq_false_iff]
  simp only [reopenChecks, firstFailure, hroom, Bool.not_eq_true', beq_iff_eq, bne_iff_ne]

end State

end Sys2Proof.Machine

namespace Sys2Proof.Proofs

open Sys2Proof.Machine Sys2Proof.Machine.State

/-- Settles O38: each check's outcome by the chains of the three lists of checks, and the REOPEN that none of them stops. -/
theorem countsChecked : Obligations.CountsChecked := by
  unfold Obligations.CountsChecked
  refine ⟨fun s b p seq d lists hawaits h1 h24 => ⟨fun hd c hc => ?_, fun hd hb => ?_⟩,
    fun s b p seq d hawaits h1 h24 hd hb => ?_⟩
  · obtain rfl | rfl | rfl := hc
    · rw [exec_count hawaits, takeCount, if_pos hd]
      rfl
    · rw [exec_acceptDiff hawaits, takeAcceptDiff, if_pos hd]
      rfl
    · rw [exec_reopen hawaits, takeReopen, if_pos hd]
      rfl
  · intro shown atRest noReservation fits within room own
    have hp : 1 ≤ p ∧ p ≤ 24 := ⟨h1, h24⟩
    have hroled := roled hp hb
    have hstate : (b.session p).state = (s.session p).state := by rw [hb, copyRole_state hp]; rfl
    have hdrawer : b.drawer d = s.drawer d := drawer_congr hroled.drawers d
    have hown : b.tables.ownDrawer p = s.tables.ownDrawer p := by rw [hroled.tables]
    have hfits : b.listsFit lists = true ↔ fits := by rw [listsFit_iff, hroled.tables]
    have hwithin : b.countedTooMuch lists = false ↔ within := by rw [countedTooMuch_eq_false_iff, hroled.tables]
    have hroom : b.reserveRoom = true ↔ room := by
      rw [reserveRoom_iff, generalSpace, usedCount, hroled.journal]
      exact Iff.rfl
    have hreserved : b.holdsReservation d = false ↔ noReservation := by rw [holdsReservation_eq_false_iff, hdrawer]
    have hcount : ∀ o, firstFailure (b.countChecks p d lists) = some o → shown (.count p seq d lists) o := fun o ho => by
      subst hb
      exact shown_at_sender _ (by rw [exec_count hawaits, takeCount_of_failure hd ho]) hp
    have haccept : ∀ o, firstFailure (b.acceptDiffChecks p d lists) = some o → shown (.acceptDiff p seq d lists) o :=
      fun o ho => by
        subst hb
        exact shown_at_sender _ (by rw [exec_acceptDiff hawaits, takeAcceptDiff_of_failure hd ho]) hp
    rw [firstFailure_countChecks, hstate, hown, hdrawer] at hcount
    rw [firstFailure_acceptDiffChecks, hown, hdrawer] at haccept
    have hmine : (d = s.tables.ownDrawer p ∨ b.supervisor p = true) ↔ own := Iff.rfl
    have hrest : ((s.drawer d).physical = .closed ∧ (s.drawer d).releasePending = false) ↔ atRest := Iff.rfl
    clear_value own atRest noReservation fits within room
    refine ⟨⟨fun hoff => hcount _ ?_, fun hsusp => hcount _ ?_, fun hon => ?_⟩, fun hrole => haccept _ ?_,
      fun hsup hnotOwn => ⟨fun hn => haccept _ ?_, fun hw hn => haccept _ ?_, fun hw ha hn => haccept _ ?_,
        fun hw ha hf hn => haccept _ ?_, fun hw ha hf hv hn => haccept _ ?_⟩⟩
    · exact if_pos hoff
    · grind
    · refine ⟨fun hn => hcount _ ?_, fun ho hb => hcount _ ?_, fun ho hb hn => hcount _ ?_, fun ho hb hr hn => hcount _ ?_,
        fun ho hb hr ha hn => hcount _ ?_, fun ho hb hr ha hf hn => hcount _ ?_, fun ho hb hr ha hf hw hn => hcount _ ?_⟩
      all_goals grind
    · exact if_pos hrole
    all_goals grind
  · intro refusal
    have hp : 1 ≤ p ∧ p ≤ 24 := ⟨h1, h24⟩
    have hroled := roled hp hb
    have hrefusal : firstFailure (b.reopenChecks p d) = refusal := by
      rw [firstFailure_reopenChecks, generalSpace, usedCount, hroled.journal, hroled.day, drawer_congr hroled.drawers]
      rfl
    refine ⟨fun o ho => ?_, fun hnone => ?_⟩
    · subst hb
      exact shown_at_sender _ (by rw [exec_reopen hawaits, takeReopen_of_failure hd (hrefusal.trans ho)]) hp
    · have hday : b.day.state ≠ .cutoff := by
        have hcheck := firstFailure_none (hrefusal.trans hnone) (b.day.state == .cutoff, .dayClosed) (by simp [reopenChecks])
        simpa using hcheck
      have hopen : (b.reopened p d).day.state ≠ .cutoff := by
        rw [reopened_eq]
        exact hday
      have heq := reopened_eq (s := b) (p := p) (d := d)
      refine ⟨b.reopened p d, ?_, ?_, reopened_onlyMarks⟩
      · have htake := takeReopen_of_none (s := s.accepted p 0 seq) hd (by rw [← hb]; exact hrefusal.trans hnone)
        rw [exec_reopen hawaits, htake, ← hb, testCompletion_open _ hopen]
      · have hport : b.portAfterRecord = s.portAfterRecord := by
          unfold portAfterRecord withFrame
          rw [hroled.port, hroled.journal]
          rfl
        have hcounters : b.countersAfterRecord = s.countersAfterRecord := by
          unfold countersAfterRecord
          rw [hroled.port, hroled.journal, hroled.counters]
        generalize b.reopened p d = u at heq ⊢
        rw [heq, hport, hcounters, hroled.tellers, withRecord_congr hroled.journal hroled.day, hroled.drawers,
          drawer_congr hroled.drawers]

end Sys2Proof.Proofs
end

