-- ==== Sys2Proof/Proofs/DrawerMessages.lean ====
section
/-! OPENED, CLOSED, FAULT and the open alarm of a drawer (R108 to R111). -/

set_option Elab.async false

namespace Sys2Proof.Machine

namespace State

variable {s : State} {p d seq : Nat}

theorem exec_opened (h : s.Awaits p 2 seq) : exec (.opened p seq) s = .next ((s.accepted p 2 seq).takeOpened p) :=
  congrArg Host.Outcome.next (receive_of_awaits h .opened)

theorem exec_closed (h : s.Awaits p 2 seq) : exec (.closed p seq) s = .next ((s.accepted p 2 seq).takeClosed p) :=
  congrArg Host.Outcome.next (receive_of_awaits h .closed)

theorem exec_fault (h : s.Awaits p 2 seq) : exec (.fault p seq) s = .next ((s.accepted p 2 seq).takeFault p) :=
  congrArg Host.Outcome.next (receive_of_awaits h .fault)

/-- The report of a drawer's alert flags reaches the screens alone (R95). -/
theorem alertReport_eq (d : Nat) : s.alertReport d = { s with screens := (s.alertReport d).screens } :=
  (alertReport_within s d).eq_merge

/-- Every screen of the drawer's positions shows its alerts as they now are (R95, R135). -/
theorem alertReport_alert {q : Nat} (hq : 1 ≤ q ∧ q ≤ 24) (hown : s.tables.ownDrawer q = d) :
    ((s.alertReport d).screen q).alert = s.alertNow q := by
  have hmem : q ∈ s.tables.drawerPositions d := List.mem_filter.mpr ⟨mem_allPositions.mpr hq, by simpa using hown⟩
  have hplaces := foldl_places (fun t j => (t.screen j).alert) reevaluate (fun t j _ => t.alertNow j)
    (fun t i j hij => congrArg Screen.alert (screen_onScreen_other t (Ne.symm hij) _)) (fun _ _ _ _ => rfl)
    (l := s.tables.drawerPositions d)
    (fun t i hi => by
      have hi' : 1 ≤ i ∧ i ≤ 24 := mem_allPositions.mp (List.mem_filter.mp hi).1
      exact (congrArg Screen.alert (screen_onScreen_same t hi' _)).trans (Screen.setConditions_alert ..))
    (allPositions_nodup.filter _) s q
  rw [if_pos hmem] at hplaces
  exact hplaces

/-- The drawer once its opening is reported, its release flags aside (R108). -/
def openedDrawer (s : State) (d : Nat) : Drawer := { s.drawer d with
  physical := .opened, openAlarm := some s.tables.params.openAlarm, releaseDelivered := false
  openings := if (s.drawer d).openings < 65535 then (s.drawer d).openings + 1 else (s.drawer d).openings }

theorem drawerOpens_of_released (h : (s.drawer d).releasePending = true ∨ (s.drawer d).releaseDelivered = true) :
    s.drawerOpens d = s.setDrawer d (s.openedDrawer d) := by
  have hforced : (!(s.drawer d).releasePending && !(s.drawer d).releaseDelivered) = false := by
    obtain h | h := h <;> simp [h]
  unfold drawerOpens
  simp only [hforced, Bool.or_false, Bool.false_eq_true, if_false]
  rfl

/-- A forced opening up to its report: the record where one is written, then the ALARM (R108, R183). -/
def forcedOpening (s : State) (d : Nat) : State :=
  let t := s.setDrawer d { s.openedDrawer d with forced := true }
  (if 1 ≤ s.generalSpace ∧ s.day.state ≠ .noDay then t.append (.forcedOpen d d (s.openedDrawer d).openings) else t).alarm
    .forcedOpen d

theorem drawerOpens_of_forced (hpending : (s.drawer d).releasePending = false)
    (hdelivered : (s.drawer d).releaseDelivered = false) (hopen : s.journal.closed = false) :
    s.drawerOpens d = (s.forcedOpening d).alertReport d := by
  have hroom : ∀ x, (s.setDrawer d x).generalRoom = decide (1 ≤ s.generalSpace) := fun x => by
    have hspace : (s.setDrawer d x).generalSpace = s.generalSpace := rfl
    have hclosed : (s.setDrawer d x).journal.closed = false := hopen
    rw [generalRoom, hspace, hclosed]
    rfl
  have hday : ∀ x, (s.setDrawer d x).day = s.day := fun _ => rfl
  unfold drawerOpens forcedOpening openedDrawer
  simp only [hpending, hdelivered, hroom, hday, Bool.not_false, Bool.and_self, Bool.or_true, if_true,
    Bool.and_eq_true, decide_eq_true_eq, bne_iff_ne]

theorem forcedOpening_eq (hroom : s.port.queue.length + 2 ≤ 64) : s.forcedOpening d = { s with
    drawers := wr s.drawers d { s.openedDrawer d with forced := true }
    journal := if 1 ≤ s.generalSpace ∧ s.day.state ≠ .noDay
      then s.withRecord (.forcedOpen d d (s.openedDrawer d).openings) else s.journal
    port := { s.port with
      queue := s.port.queue ++ (if 1 ≤ s.generalSpace ∧ s.day.state ≠ .noDay then s.nearlyFullNotice else []) ++
        [.alarm .forcedOpen d]
      transmitting := s.port.transmitting || s.port.olrdy } } := by
  have hfree : s.port.queue.length < 64 := by omega
  unfold forcedOpening
  dsimp only
  split
  · generalize ht : s.setDrawer d { s.openedDrawer d with forced := true } = t
    have hport : t.port = s.port := by rw [← ht]; rfl
    have hnotice : t.nearlyFullNotice = s.nearlyFullNotice := by rw [← ht]; rfl
    have htfree : t.port.queue.length < 64 := by rw [hport]; exact hfree
    have hlater : (t.append (.forcedOpen d d (s.openedDrawer d).openings)).port.queue.length < 64 := by
      rw [append_eq]
      dsimp only
      rw [t.portAfterRecord_queue htfree, List.length_append, hport]
      have hone := t.nearlyFullNotice_length
      omega
    rw [alarm_of_room hlater, append_eq, t.countersAfterRecord_of_room htfree]
    have hframe := t.portAfterRecord_withFrame htfree (.alarm .forcedOpen d)
    rw [hport, hnotice] at hframe
    rw [← hframe, ← ht]
    rfl
  · rw [alarm_of_room (t := s.setDrawer d { s.openedDrawer d with forced := true }) hfree, List.append_nil]
    rfl

end State
end Sys2Proof.Machine

namespace Sys2Proof.Proofs

open Sys2Proof.Machine Sys2Proof.Machine.State

/-- Settles O40: what the drawer becomes by its release flags, and that a report of its alerts reaches the screens alone. -/
theorem drawerUnitMessages : Obligations.DrawerUnitMessages := by
  unfold Obligations.DrawerUnitMessages
  refine ⟨fun s b p seq hawaits h1 h24 hb => ?_, fun s b p seq h1 h24 hb => ⟨fun hawaits hserving => ?_, fun hrunning hroom => ?_⟩⟩
  · have hp : 1 ≤ p ∧ p ≤ 24 := ⟨h1, h24⟩
    intro n opened
    have htables : b.tables = s.tables := by rw [hb]; rfl
    have hdrawer : b.drawer p = s.drawer p := by rw [hb]; rfl
    have hopening : b.openedDrawer p = opened := by rw [hb]; rfl
    refine ⟨fun hserving c hc => ?_, fun hserving => ⟨fun hopen => ?_, fun hshut hreleased => ?_,
      fun hshut hpending hdelivered hroom hopen => ?_⟩⟩
    · obtain rfl | rfl | rfl := hc
      · rw [exec_opened hawaits, takeOpened, if_neg (by simp [hserving]), hb]
        rfl
      · rw [exec_closed hawaits, takeClosed, if_neg (by simp [hserving]), hb]
        rfl
      · rw [exec_fault hawaits, takeFault, if_neg (by simp [hserving]), hb]
        rfl
    · rw [exec_opened hawaits, takeOpened, if_pos (by simpa using hserving), if_pos (by simpa using hopen), hb]
    · rw [exec_opened hawaits, takeOpened, if_pos (by simpa using hserving), if_neg (by simpa using hshut), ← hb,
        drawerOpens_of_released (by rw [hdrawer]; exact hreleased), hopening]
      rw [hb]
      rfl
    · have hexec : exec (.opened p seq) s = .next ((b.forcedOpening p).alertReport p) := by
        rw [exec_opened hawaits, takeOpened, if_pos (by simpa using hserving), if_neg (by simpa using hshut), ← hb,
          drawerOpens_of_forced (by rw [hdrawer]; exact hpending) (by rw [hdrawer]; exact hdelivered) (by rw [hb]; exact hopen)]
      have hforced := forcedOpening_eq (s := b) (d := p) (by rw [hb]; exact hroom)
      have hreport := alertReport_eq (s := b.forcedOpening p) p
      refine ⟨_, hexec, ?_, fun q => ?_, fun q hown hq1 hq24 => ?_⟩
      · generalize (b.forcedOpening p).alertReport p = u at hreport ⊢
        rw [hreport, hforced, hopening, hb]
        rfl
      · have hkeeps := (b.forcedOpening p).alertReport_keeps p q
        have hscreen : (b.forcedOpening p).screen q = s.screen q := by
          rw [hforced, hb]
          rfl
        rw [hscreen] at hkeeps
        exact ⟨hkeeps.form, hkeeps.view, hkeeps.last⟩
      · have htables' : (b.forcedOpening p).tables = s.tables := by rw [hforced, htables]
        rw [alertReport_alert ⟨hq1, hq24⟩ (by rw [htables']; exact hown), alertNow, htables', hown]
        have hnow : (b.forcedOpening p).drawer p = { b.openedDrawer p with forced := true } := by
          rw [hforced]
          exact (drawer_setDrawer b p p _).trans (if_pos ⟨rfl, by omega⟩)
        rw [hnow]
        simp [Drawer.anyAlert]
  · have hp : 1 ≤ p ∧ p ≤ 24 := ⟨h1, h24⟩
    have htables : b.tables.serving p = true := by rw [hb]; exact hserving
    refine ⟨fun hshut => ?_, fun hshut => ?_, ?_⟩
    · rw [exec_closed hawaits, takeClosed, if_pos (by simpa using hserving), if_pos (by simpa using hshut), hb]
    · have hexec : exec (.closed p seq) s = .next ((b.setDrawer p { s.drawer p with
          physical := .closed, openAlarm := none, openLong := false, forced := false }).alertReport p) := by
        rw [exec_closed hawaits, takeClosed, if_pos (by simpa using hserving), if_neg (by simpa using hshut), hb]
        rfl
      have hreport := alertReport_eq (s := b.setDrawer p { s.drawer p with
          physical := .closed, openAlarm := none, openLong := false, forced := false }) p
      have hkeeps := alertReport_keeps (b.setDrawer p { s.drawer p with
          physical := .closed, openAlarm := none, openLong := false, forced := false }) p
      refine ⟨_, hexec, ?_, fun q => ?_⟩
      · rw [hreport, hb]
        rfl
      · have hscreen : (b.setDrawer p { s.drawer p with
            physical := .closed, openAlarm := none, openLong := false, forced := false }).screen q = s.screen q := by
          rw [hb]
          rfl
        have hq := hkeeps q
        rw [hscreen] at hq
        exact ⟨hq.form, hq.view, hq.last⟩
    · rw [exec_fault hawaits, takeFault, if_pos (by simpa using hserving), hb]
      rfl
  · have hexec : exec (.openAlarmExpiry p) s = .next (((s.setDrawer p { s.drawer p with
        openAlarm := none, openLong := true }).alarm .openLong p).alertReport p) :=
      congrArg Host.Outcome.next (if_pos (Option.isSome_iff_ne_none.mpr hrunning))
    rw [alarm_of_room (t := s.setDrawer p { s.drawer p with openAlarm := none, openLong := true }) hroom] at hexec
    generalize ht : (s.setDrawer p { s.drawer p with openAlarm := none, openLong := true }).withFrame (.alarm .openLong p) = t
      at hexec
    have hkeeps := t.alertReport_keeps p
    refine ⟨_, hexec, ?_, fun q => ?_⟩
    · rw [alertReport_eq, ← ht]
      rfl
    · have hscreen : t.screen q = s.screen q := by
        rw [← ht]
        rfl
      have hq := hkeeps q
      rw [hscreen] at hq
      exact ⟨hq.form, hq.view, hq.last⟩

end Sys2Proof.Proofs
end

