-- ==== Sys2Proof/Proofs/PrinterFacts.lean ====
section
/-! What each operation of the passbook controller makes of its printer, its queue and the store (R151 to R170), and how the whole
state follows from it. -/

set_option Elab.async false

namespace Sys2Proof.Machine

/-- Two banks that agree at every position are equal. -/
theorem bank_ext {α : Type} {n : Nat} {v w : Vector α n} (d : α) (h : ∀ p, rd1 v p d = rd1 w p d) : v = w := by
  refine Vector.ext fun i hi => ?_
  have hp := h (i + 1)
  simpa [rd1, rd, hi] using hp

theorem wr1_wr1 {α : Type} {n : Nat} (v : Vector α n) (p : Nat) (x y : α) : wr1 (wr1 v p x) p y = wr1 v p y := by
  unfold wr1
  split
  · rfl
  · exact State.wr_wr v _ x y

/-- What an operation reaches of the state, told as a record update by what it makes of the printer (R151 to R170). -/
theorem OnlyPrinter.printers_eq {p : Nat} {s t : State} (h : OnlyPrinter p s t) (hp : 1 ≤ p ∧ p ≤ 24) :
    t.printers = wr1 s.printers p (t.printer p) := by
  refine bank_ext Printer.start fun q => ?_
  by_cases hq : q = p
  · rw [rd1_wr1, if_pos ⟨hq.symm, hp⟩, hq]
    rfl
  · rw [rd1_wr1, if_neg fun hc => hq hc.1.symm]
    exact h.printers q hq

namespace State

variable {s t : State} {p : Nat} {x : PrinterState} {o : Shown} {m : OutMsg}

/-- The state after an operation that reaches the printer, the units' records and the screens. -/
theorem eq_of_printer (hw : Within [.line, .printers, .screens] s t) (ho : OnlyPrinter p s t) (hp : 1 ≤ p ∧ p ≤ 24) :
    t = { s with
      printers := wr1 s.printers p (t.printer p), screens := t.screens, line := { s.line with recs := t.line.recs } } := by
  have hmerge := hw.eq_merge
  have hline : t.line = { s.line with recs := t.line.recs } := hw .lineRest (by decide)
  rw [← ho.printers_eq hp, ← hline]
  exact hmerge

/-- The same with the line store. -/
theorem eq_of_printer_store (hw : Within [.line, .printers, .screens, .store] s t) (ho : OnlyPrinter p s t)
    (hp : 1 ≤ p ∧ p ≤ 24) : t = { s with
      printers := wr1 s.printers p (t.printer p), screens := t.screens, line := { s.line with recs := t.line.recs }
      store := t.store } := by
  have hmerge := hw.eq_merge
  have hline : t.line = { s.line with recs := t.line.recs } := hw .lineRest (by decide)
  rw [← ho.printers_eq hp, ← hline]
  exact hmerge

/-! ### The printer after each operation -/

theorem printer_setPrinter_same (hp : 1 ≤ p ∧ p ≤ 24) (y : Printer) : (s.setPrinter p y).printer p = y := by
  rw [printer_setPrinter, if_pos ⟨rfl, hp⟩]

theorem setPrinterState_printer (hp : 1 ≤ p ∧ p ≤ 24) (x : PrinterState) :
    (s.setPrinterState p x).printer p = { s.printer p with state := x } := by
  unfold setPrinterState
  split
  · next h => rw [← h]
  · exact (printer_congr (touch_within _ _ _ .printers (by decide)) p).trans (printer_setPrinter_same hp _)

theorem setPrinterState_eq (hp : 1 ≤ p ∧ p ≤ 24) (x : PrinterState) : s.setPrinterState p x = { s with
    printers := wr1 s.printers p { s.printer p with state := x }, screens := (s.setPrinterState p x).screens } := by
  have hmerge := (setPrinterState_within s p x).eq_merge
  rw [← setPrinterState_printer hp, ← (s.setPrinterState_only p x).printers_eq hp]
  exact hmerge

theorem setPrinterState_onlyMarks (x : PrinterState) : OnlyMarks s (s.setPrinterState p x) := by
  unfold setPrinterState
  split
  · exact .refl s
  · exact ((s.setPrinter p { s.printer p with state := x }).touch_onlyMarks _ _).congr rfl rfl

/-- A printer set and its state reported. -/
theorem setPrinter_setPrinterState_eq (hp : 1 ≤ p ∧ p ≤ 24) (y : Printer) (x : PrinterState) :
    (s.setPrinter p y).setPrinterState p x = { s with
      printers := wr1 s.printers p { y with state := x }
      screens := ((s.setPrinter p y).setPrinterState p x).screens } := by
  have hset := setPrinterState_eq (s := s.setPrinter p y) hp x
  rw [printer_setPrinter_same hp] at hset
  generalize (s.setPrinter p y).setPrinterState p x = t at hset ⊢
  rw [hset]
  show ({ s with printers := wr1 (wr1 s.printers p y) p _, screens := _ } : State) = _
  rw [wr1_wr1]

theorem showAt_printer (o : Shown) (q : Nat) : (s.showAt p o).printer q = s.printer q := rfl

theorem clearBook_printer (hp : 1 ≤ p ∧ p ≤ 24) : (s.clearBook p).printer p = { s.printer p with book := none } :=
  printer_setPrinter_same hp _

theorem loseFlight_printer (hp : 1 ≤ p ∧ p ≤ 24) : (s.loseFlight p).printer p = { s.printer p with
    flight := .none, lineWait := none, job := (s.printer p).job.map (fun j => { j with next := j.confirmed + 1 }) } :=
  printer_setPrinter_same hp _

theorem loadBookWait_printer (hp : 1 ≤ p ∧ p ≤ 24) : (s.loadBookWait p).printer p = { s.printer p with
    job := (s.printer p).job.map (fun j => { j with bookWait := some s.tables.params.bookWait }) } :=
  printer_setPrinter_same hp _

theorem awaitBook_printer (hp : 1 ≤ p ∧ p ≤ 24) : (s.awaitBook p).printer p = { s.printer p with
    state := if (s.printer p).job.isSome then .waitBook else .noBook
    job := (s.printer p).job.map (fun j => { j with bookWait := some s.tables.params.bookWait }) } := by
  unfold awaitBook
  split
  · next h => rw [setPrinterState_printer hp, loadBookWait_printer hp]
  · next h =>
    have hnone : (s.printer p).job = none := by simpa using h
    rw [setPrinterState_printer hp, hnone, Option.map_none, ← hnone]

theorem printerStops_printer (hp : 1 ≤ p ∧ p ≤ 24) (x : PrinterState) (o : Shown) :
    (s.printerStops p x o).printer p = { s.printer p with
      state := x, book := none, flight := .none, lineWait := none
      job := (s.printer p).job.map (fun j =>
        { j with next := j.confirmed + 1, bookWait := some s.tables.params.bookWait }) } := by
  unfold printerStops
  rw [showAt_printer, setPrinterState_printer hp, loadBookWait_printer hp, clearBook_printer hp, loseFlight_printer hp]
  rw [Option.map_map]
  rfl

/-! ### Offers to the printer's queue (R34, R170) -/

theorem offer_printer (q : Nat) (m : OutMsg) (c : LineClass) : (s.offer p 1 m c).printer q = s.printer q := by
  unfold offer
  split <;> rfl

theorem offer_unit (hp : 1 ≤ p ∧ p ≤ 24) (m : OutMsg) (c : LineClass) : (s.offer p 1 m c).unit p 1 = { s.unit p 1 with
    queue := (s.unit p 1).queue ++ if s.offerAnswer p 1 = .taken then [{ msg := m, cls := c }] else [] } := by
  unfold offer
  split
  · next h => rw [unit_setUnit, if_pos ⟨⟨rfl, hp⟩, rfl, by decide⟩, if_pos h]
  · next h => rw [if_neg h, List.append_nil]

theorem offerPrinter_printer (hp : 1 ≤ p ∧ p ≤ 24) (m : OutMsg) : (s.offerPrinter p m).printer p = { s.printer p with
    kept := if s.offerAnswer p 1 = .full then (s.printer p).kept ++ [m] else (s.printer p).kept } := by
  unfold offerPrinter
  split
  · next h => rw [offer_printer, h]; rfl
  · next h => rw [printer_setPrinter_same hp, h]; rfl
  · next h => rw [h]; rfl

theorem offerPrinter_unit (hp : 1 ≤ p ∧ p ≤ 24) (m : OutMsg) : (s.offerPrinter p m).unit p 1 = { s.unit p 1 with
    queue := (s.unit p 1).queue ++ if s.offerAnswer p 1 = .taken then [{ msg := m, cls := .print }] else [] } := by
  unfold offerPrinter
  split
  · exact offer_unit hp m .print
  · next h =>
    rw [h]
    exact (congrArg (fun q => ({ s.unit p 1 with queue := q } : UnitRec)) (List.append_nil _)).symm
  · next h =>
    rw [h]
    exact (congrArg (fun q => ({ s.unit p 1 with queue := q } : UnitRec)) (List.append_nil _)).symm

theorem offerAnswer_congr (h : t.unit p 1 = s.unit p 1) : t.offerAnswer p 1 = s.offerAnswer p 1 := by
  unfold offerAnswer
  rw [h]

/-! ### Freed lines (R157) -/

theorem rd_foldl_none (places : List Nat) (v : Vector (Option PrintLine) 256) (n : Nat) :
    rd (places.foldl (fun v i => wr v i none) v) n none = if n ∈ places then none else rd v n none := by
  induction places generalizing v with
  | nil => simp
  | cons i places ih =>
    rw [List.foldl_cons, ih, rd_wr]
    by_cases hn : n ∈ places
    · simp [hn]
    · by_cases hi : i = n
      · subst hi
        simp only [hn, if_false, List.mem_cons, true_or, if_true, true_and]
        split
        · rfl
        · next h => exact rd_outside _ (by omega) _
      · have hi' : ¬ n = i := fun h => hi h.symm
        simp [hn, hi, hi']

theorem freeLines_store (places : List Nat) (n : Nat) :
    rd (s.freeLines places).store n none = if n ∈ places then none else rd s.store n none := rd_foldl_none places s.store n

end State

end Sys2Proof.Machine
end

