-- ==== Sys2Proof/Proofs/PrinterMessages.lean ====
section
/-! BOOK_IN, BOOK_OUT, JAM, JAM_CLEARED, STATUS READY and the line completion wait (R155, R156, R166, R167). -/

set_option Elab.async false

namespace Sys2Proof.Machine

namespace State

variable {s t b : State} {p seq layout page place : Nat} {account : Text} {x : PrinterState} {o : Shown} {m : InMsg}

/-! ### From the message to the printer -/

theorem exec_bookIn (h : s.Awaits p 1 seq) : exec (.bookIn p seq account layout page place) s =
    .next ((s.accepted p 1 seq).takeBookIn p account layout page place) :=
  congrArg Host.Outcome.next (receive_of_awaits h (.bookIn account layout page place))

theorem exec_bookOut (h : s.Awaits p 1 seq) : exec (.bookOut p seq) s = .next ((s.accepted p 1 seq).takeBookOut p) :=
  congrArg Host.Outcome.next (receive_of_awaits h .bookOut)

theorem exec_jam (h : s.Awaits p 1 seq) : exec (.jam p seq) s = .next ((s.accepted p 1 seq).takeJam p) :=
  congrArg Host.Outcome.next (receive_of_awaits h (.status .jam))

theorem exec_jamCleared (h : s.Awaits p 1 seq) :
    exec (.jamCleared p seq) s = .next ((s.accepted p 1 seq).takeJamCleared p) :=
  congrArg Host.Outcome.next (receive_of_awaits h (.status .jamCleared))

theorem exec_statusReady (h : s.Awaits p 1 seq) : exec (.statusReady p seq) s = .next ((s.accepted p 1 seq).takeReady p) :=
  congrArg Host.Outcome.next (receive_of_awaits h (.status .ready))

theorem exec_lineDone (h : s.Awaits p 1 seq) : exec (.lineDone p seq) s = .next ((s.accepted p 1 seq).takeLineDone p) :=
  congrArg Host.Outcome.next (receive_of_awaits h (.status .lineDone))

theorem exec_turned (h : s.Awaits p 1 seq) : exec (.turned p seq) s = .next ((s.accepted p 1 seq).takeTurned p) :=
  congrArg Host.Outcome.next (receive_of_awaits h (.status .turned))

/-- An accepted message leaves the queue and the presence of its unit. -/
theorem accepted_unit (hp : 1 ≤ p ∧ p ≤ 24) : (s.accepted p 1 seq).unit p 1 =
    { s.unit p 1 with attention := false, lastIn := some seq } := by
  unfold accepted
  rw [unit_setUnit, if_pos ⟨⟨rfl, hp⟩, rfl, by decide⟩]
  rfl

theorem accepted_offerAnswer (hp : 1 ≤ p ∧ p ≤ 24) : (s.accepted p 1 seq).offerAnswer p 1 = s.offerAnswer p 1 := by
  unfold offerAnswer
  rw [accepted_unit hp]

/-! ### Books (R155, R156) -/

theorem bookFits_iff : s.bookFits layout page place = true ↔
    ∃ l, s.tables.layout layout = some l ∧ 1 ≤ page ∧ page ≤ l.pages ∧ 1 ≤ place ∧ place ≤ l.lines := by
  unfold bookFits
  split
  · next h => simp [h]
  · next l h => simp [h, inRange, and_assoc]

theorem refuseBook_printer (hp : 1 ≤ p ∧ p ≤ 24) : (s.refuseBook p).printer p = { s.printer p with
    kept := if s.offerAnswer p 1 = .full then (s.printer p).kept ++ [.eject] else (s.printer p).kept } :=
  offerPrinter_printer hp .eject

theorem refuseBook_unit (hp : 1 ≤ p ∧ p ≤ 24) : (s.refuseBook p).unit p 1 = { s.unit p 1 with
    queue := (s.unit p 1).queue ++ if s.offerAnswer p 1 = .taken then [{ msg := .eject, cls := .print }] else [] } :=
  offerPrinter_unit hp .eject

theorem takeBookIn_of_noBook (h : (s.printer p).state = .noBook) : s.takeBookIn p account layout page place =
    if s.bookFits layout page place then (s.setPrinter p { s.printer p with
      book := some { account := account, layout := layout, page := page, line := place } }).setPrinterState p .ready
    else s.refuseBook p := by
  unfold takeBookIn
  rw [h]

theorem takeBookIn_of_waitBook {j : Job} (h : (s.printer p).state = .waitBook) (hj : (s.printer p).job = some j) :
    s.takeBookIn p account layout page place =
      if s.bookFits layout page place = true ∧ account = j.account ∧ layout = j.layout ∧
          (j.page < page ∨ (page = j.page ∧ j.line ≤ place)) then
        ((s.setPrinter p { s.printer p with
          book := some { account := account, layout := layout, page := page, line := place }
          job := some { j with page := page, line := place, bookWait := none } }).setPrinterState p .ready).printLoop p
      else s.refuseBook p := by
  have hcond : (s.bookFits layout page place && j.account == account && j.layout == layout
      && !earlier page place j.page j.line) = true ↔ s.bookFits layout page place = true ∧ account = j.account ∧
      layout = j.layout ∧ (j.page < page ∨ (page = j.page ∧ j.line ≤ place)) := by
    simp only [earlier, Bool.and_eq_true, beq_iff_eq, Bool.not_eq_true', Bool.or_eq_false_iff, decide_eq_false_iff_not,
      Bool.and_eq_false_iff, beq_eq_false_iff_ne]
    grind
  unfold takeBookIn
  rw [h, hj]
  dsimp only
  simp only [hcond]

theorem takeBookIn_of_other (h : (s.printer p).state = .ready ∨ (s.printer p).state = .printing ∨
    (s.printer p).state = .jammed ∨ (s.printer p).state = .fault) :
    s.takeBookIn p account layout page place = s.countLineBadMessage := by
  unfold takeBookIn
  obtain h | h | h | h := h <;> rw [h]

/-! ### Stops (R156, R166, R167) -/

theorem takeBookOut_of_held (h : (s.printer p).state = .ready ∨ (s.printer p).state = .printing) :
    s.takeBookOut p = ((s.loseFlight p).clearBook p).awaitBook p := by
  unfold takeBookOut
  obtain h | h := h <;> rw [h]

theorem takeBookOut_of_fault (h : (s.printer p).state = .fault) : s.takeBookOut p = s.awaitBook p := by
  unfold takeBookOut
  rw [h]

theorem takeBookOut_of_other (h : (s.printer p).state = .noBook ∨ (s.printer p).state = .waitBook ∨
    (s.printer p).state = .jammed) : s.takeBookOut p = s := by
  unfold takeBookOut
  obtain h | h | h := h <;> rw [h]

theorem takeJam_of_running (h : (s.printer p).state ≠ .jammed) (ha : (s.printer p).state ≠ .absent) :
    s.takeJam p = s.printerStops p .jammed .printerJam := by
  unfold takeJam
  split
  · next hc => exact absurd hc h
  · next hc => exact absurd hc ha
  · rfl

theorem takeJam_of_jammed (h : (s.printer p).state = .jammed) : s.takeJam p = s := by
  unfold takeJam
  rw [h]

theorem takeJamCleared_of_jammed (h : (s.printer p).state = .jammed) : s.takeJamCleared p = s.awaitBook p := by
  unfold takeJamCleared
  rw [h]

theorem takeJamCleared_of_other (h : (s.printer p).state ≠ .jammed) : s.takeJamCleared p = s := by
  unfold takeJamCleared
  split
  · next hc => exact absurd hc h
  · rfl

theorem takeReady_of_fault (h : (s.printer p).state = .fault) : s.takeReady p = (s.offerPrinter p .eject).awaitBook p := by
  unfold takeReady
  rw [h]

theorem takeReady_of_other (h : (s.printer p).state ≠ .fault) : s.takeReady p = s := by
  unfold takeReady
  split
  · next hc => exact absurd hc h
  · rfl

/-- A book that leaves with the line in flight lost: what it makes of the printer (R156). -/
theorem bookLost_printer (hp : 1 ≤ p ∧ p ≤ 24) : (((s.loseFlight p).clearBook p).awaitBook p).printer p = { s.printer p with
    state := if (s.printer p).job.isSome then .waitBook else .noBook, book := none, flight := .none, lineWait := none
    job := (s.printer p).job.map (fun j =>
      { j with next := j.confirmed + 1, bookWait := some s.tables.params.bookWait }) } := by
  rw [awaitBook_printer hp, clearBook_printer hp, loseFlight_printer hp]
  dsimp only
  rw [Option.map_map, Option.isSome_map]
  rfl

theorem awaitBook_unit (q u : Nat) : (s.awaitBook p).unit q u = s.unit q u :=
  unit_congr (congrArg Line.recs (awaitBook_within s p .line (by decide))) q u

end State

end Sys2Proof.Machine

namespace Sys2Proof.Proofs

open Sys2Proof.Machine Sys2Proof.Machine.State

/-- Settles O41: the printer by its state, and a book that is taken or refused. -/
theorem bookInserted : Obligations.BookInserted := by
  unfold Obligations.BookInserted
  intro s b p seq layout page place account hawaits h1 h24 hb c fits book refused
  have hp : 1 ≤ p ∧ p ≤ 24 := ⟨h1, h24⟩
  have hprinter : b.printer p = s.printer p := by rw [hb]; rfl
  have hprinters : b.printers = s.printers := by rw [hb]; rfl
  have hscreens : b.screens = s.screens := by rw [hb]; rfl
  have hoffer : b.offerAnswer p 1 = s.offerAnswer p 1 := by rw [hb, accepted_offerAnswer hp]
  have hqueue : (b.unit p 1).queue = (s.unit p 1).queue := by rw [hb, accepted_unit hp]
  have hexec : exec c s = .next (b.takeBookIn p account layout page place) := by rw [exec_bookIn hawaits, hb]
  have hfits : b.bookFits layout page place = true ↔ fits := by
    rw [hb]
    exact bookFits_iff
  have hrefused : b.takeBookIn p account layout page place = b.refuseBook p → refused := fun h => by
    have heq := eq_of_printer (refuseBook_within b p) (refuseBook_only b p) hp
    refine ⟨b.refuseBook p, by rw [hexec, h], showAt_shows _ hp _, ?_, fun htaken => ⟨?_, ?_⟩⟩
    · rw [refuseBook_printer hp, hprinters, hprinter] at heq
      rw [refuseBook_printer hp, hprinter]
      exact heq
    · rw [refuseBook_printer hp, hoffer, htaken, hprinter]
      rfl
    · rw [refuseBook_unit hp, hoffer, htaken, hqueue]
      rfl
  have hmarks : ∀ (y : Printer) (x : PrinterState), OnlyMarks s ((b.setPrinter p y).setPrinterState p x) := fun y x =>
    (setPrinterState_onlyMarks (s := b.setPrinter p y) x).congr hscreens.symm rfl
  have heq : ∀ (y : Printer) (x : PrinterState), (b.setPrinter p y).setPrinterState p x = { b with
      screens := ((b.setPrinter p y).setPrinterState p x).screens
      printers := wr1 s.printers p { y with state := x } } := fun y x => by
    rw [← hprinters]
    exact setPrinter_setPrinterState_eq hp y x
  refine ⟨fun hstate => ⟨fun hn => hrefused ?_, fun hf => ?_⟩, fun j hstate hj => ⟨fun hn => hrefused ?_,
    fun hf hacc hlay hplace => ?_⟩, fun hstate => ?_⟩
  · rw [takeBookIn_of_noBook (by rw [hprinter]; exact hstate), if_neg (by rw [hfits]; exact hn)]
  · refine ⟨(b.setPrinter p { b.printer p with book := some book }).setPrinterState p .ready, ?_, hmarks _ _, ?_⟩
    · rw [hexec, takeBookIn_of_noBook (by rw [hprinter]; exact hstate), if_pos (hfits.mpr hf)]
    · rw [hprinter]
      exact heq _ _
  · rw [takeBookIn_of_waitBook (by rw [hprinter]; exact hstate) (by rw [hprinter]; exact hj), if_neg]
    rintro ⟨hf, hacc, hlay, hplace⟩
    have hfit := hfits.mp hf
    clear_value fits
    grind
  · refine ⟨(b.setPrinter p { b.printer p with
      book := some book, job := some { j with page := page, line := place, bookWait := none } }).setPrinterState p .ready,
      ?_, hmarks _ _, ?_⟩
    · rw [hexec, takeBookIn_of_waitBook (by rw [hprinter]; exact hstate) (by rw [hprinter]; exact hj),
        if_pos ⟨hfits.mpr hf, hacc, hlay, hplace⟩]
    · rw [hprinter]
      exact heq _ _
  · rw [hexec, takeBookIn_of_other (by rw [hprinter]; exact hstate), hb]
    rfl

/-- Settles O42: each message by the printer's state, and what the stop or the release makes of the printer. -/
theorem printerStops : Obligations.PrinterStops := by
  unfold Obligations.PrinterStops
  intro s b p seq h1 h24 hb waiting x becomes stopped
  have hp : 1 ≤ p ∧ p ≤ 24 := ⟨h1, h24⟩
  have hprinter : b.printer p = s.printer p := by rw [hb]; rfl
  have hprinters : b.printers = s.printers := by rw [hb]; rfl
  have hscreen : ∀ q, b.screen q = s.screen q := fun q => by rw [hb]; rfl
  have htables : b.tables = s.tables := by rw [hb]; rfl
  have hbecomes : ∀ (c : Instr) (t u : State) (y : Printer), (t.printers = s.printers ∧ ∀ q, t.screen q = s.screen q) →
      exec c s = .next u → Within [.line, .printers, .screens] t u → OnlyPrinter p t u → u.printer p = y →
      becomes c t y := fun c t u y ⟨hps, hss⟩ hexec hwithin honly hy => by
    have heq := eq_of_printer hwithin honly hp
    rw [hy, hps] at heq
    exact ⟨u, hexec, heq, fun q hq => (honly.screens q hq).trans (hss q)⟩
  have hsame : b.printers = s.printers ∧ ∀ q, b.screen q = s.screen q := ⟨hprinters, hscreen⟩
  have hawait : (b.awaitBook p).printer p = { s.printer p with state := x, job := waiting false } := by
    rw [awaitBook_printer hp, hprinter, htables]
    rfl
  have hstops : ∀ (t : State) (y : PrinterState) (o : Shown), t.printer p = s.printer p → t.tables = s.tables →
      (t.printerStops p y o).printer p = stopped y := fun t y o ht htt => by
    rw [printerStops_printer hp, ht, htt]
    rfl
  refine ⟨fun hawaits => ⟨fun hstate => ?_, fun hstate => ?_, fun hstate => ?_, fun hstate habsent => ⟨?_, ?_⟩,
    fun hstate => ⟨?_, ?_⟩, fun hstate => ?_, fun hstate htaken => ⟨?_, ?_⟩, fun hstate => ?_⟩, fun hwait => ⟨?_, ?_⟩⟩
  · refine hbecomes _ b (((b.loseFlight p).clearBook p).awaitBook p) _ hsame ?_ ?_ ?_ ?_
    · rw [exec_bookOut hawaits, ← hb, takeBookOut_of_held (by rw [hprinter]; exact hstate)]
    · rw [← takeBookOut_of_held (by rw [hprinter]; exact hstate)]
      exact takeBookOut_within b p
    · rw [← takeBookOut_of_held (by rw [hprinter]; exact hstate)]
      exact takeBookOut_only b p
    · rw [bookLost_printer hp, hprinter, htables]
      rfl
  · refine hbecomes _ b (b.awaitBook p) _ hsame ?_ (awaitBook_within b p).mono (awaitBook_only b p) hawait
    rw [exec_bookOut hawaits, ← hb, takeBookOut_of_fault (by rw [hprinter]; exact hstate)]
  · rw [exec_bookOut hawaits, ← hb, takeBookOut_of_other (by rw [hprinter]; exact hstate)]
  · refine hbecomes _ b (b.printerStops p .jammed .printerJam) _ hsame ?_ (printerStops_within b p _ _)
      (printerStops_only b p _ _) (hstops b _ _ hprinter htables)
    rw [exec_jam hawaits, ← hb, takeJam_of_running (by rw [hprinter]; exact hstate) (by rw [hprinter]; exact habsent)]
  · intro u hu
    rw [exec_jam hawaits, ← hb, takeJam_of_running (by rw [hprinter]; exact hstate) (by rw [hprinter]; exact habsent)] at hu
    obtain rfl := Host.Outcome.next.inj hu
    exact showAt_shows _ hp _
  · rw [exec_jam hawaits, ← hb, takeJam_of_jammed (by rw [hprinter]; exact hstate)]
  · refine hbecomes _ b (b.awaitBook p) _ hsame ?_ (awaitBook_within b p).mono (awaitBook_only b p) hawait
    rw [exec_jamCleared hawaits, ← hb, takeJamCleared_of_jammed (by rw [hprinter]; exact hstate)]
  · rw [exec_jamCleared hawaits, ← hb, takeJamCleared_of_other (by rw [hprinter]; exact hstate)]
  · refine hbecomes _ b ((b.offerPrinter p .eject).awaitBook p) _ hsame ?_ ?_ ?_ ?_
    · rw [exec_statusReady hawaits, ← hb, takeReady_of_fault (by rw [hprinter]; exact hstate)]
    · rw [← takeReady_of_fault (by rw [hprinter]; exact hstate)]
      exact takeReady_within b p
    · rw [← takeReady_of_fault (by rw [hprinter]; exact hstate)]
      exact takeReady_only b p
    · have hoffer : b.offerAnswer p 1 = .taken := by rw [hb, accepted_offerAnswer hp, htaken]
      have hoffered : (b.offerPrinter p .eject).printer p = s.printer p := by
        rw [offerPrinter_printer hp, hoffer, hprinter]
        rfl
      have hoffered' : (b.offerPrinter p .eject).tables = s.tables :=
        (offerPrinter_within b p .eject .tables (by decide)).trans htables
      rw [awaitBook_printer hp, hoffered, hoffered']
      rfl
  · intro u hu
    rw [exec_statusReady hawaits, ← hb, takeReady_of_fault (by rw [hprinter]; exact hstate)] at hu
    obtain rfl := Host.Outcome.next.inj hu
    rw [awaitBook_unit, offerPrinter_unit hp, hb, accepted_offerAnswer hp, accepted_unit hp, htaken]
    rfl
  · rw [exec_statusReady hawaits, ← hb, takeReady_of_other (by rw [hprinter]; exact hstate)]
  · refine hbecomes _ s (s.printerStops p .fault .printerFault) _ ⟨rfl, fun _ => rfl⟩ ?_ (printerStops_within s p _ _)
      (printerStops_only s p _ _) (hstops s _ _ rfl rfl)
    exact congrArg Host.Outcome.next (if_pos (Option.isSome_iff_ne_none.mpr hwait))
  · intro u hu
    have hexec : exec (.lineCompletionWaitExpiry p) s = .next (s.printerStops p .fault .printerFault) :=
      congrArg Host.Outcome.next (if_pos (Option.isSome_iff_ne_none.mpr hwait))
    rw [hexec] at hu
    obtain rfl := Host.Outcome.next.inj hu
    exact showAt_shows _ hp _

end Sys2Proof.Proofs
end

