-- ==== Sys2Proof/Proofs/PrintLoops.lean ====
section
/-! The print loop, confirmed lines, turned pages, abandoned jobs and owed notices (R160 to R169). -/

set_option Elab.async false

namespace Sys2Proof.Machine

theorem Shows.keeps {s t : State} {p : Nat} {o : Shown} (h : Shows s p o) (hk : ScreensKeep s t) : Shows t p o := by
  obtain ⟨hlast, hmsg⟩ := h
  exact ⟨by rw [(hk p).last, hlast], by rw [(hk p).view, hmsg]⟩

namespace State

variable {s t b : State} {p seq : Nat} {j : Job} {k : Book} {o : Shown} {l : LayoutEntry}

/-! ### Small facts -/

theorem setPrinterState_unit (x : PrinterState) (q u : Nat) : (s.setPrinterState p x).unit q u = s.unit q u :=
  unit_congr (congrArg Line.recs (setPrinterState_within s p x .line (by decide))) q u

theorem setPrinterState_store (x : PrinterState) : (s.setPrinterState p x).store = s.store :=
  setPrinterState_within s p x .store (by decide)

theorem offerPrinter_store (m : OutMsg) : (s.offerPrinter p m).store = s.store :=
  offerPrinter_within s p m .store (by decide)

theorem offerPrinter_screens (m : OutMsg) : (s.offerPrinter p m).screens = s.screens :=
  offerPrinter_within s p m .screens (by decide)

/-- A printer emptied: EJECT offered, the book data cleared, NO_BOOK (R165, R168). -/
theorem emptied (hp : 1 ≤ p ∧ p ≤ 24) : ∃ u : State, u = ((s.offerPrinter p .eject).clearBook p).setPrinterState p .noBook ∧
    u.printer p = { s.printer p with
      state := .noBook, book := none
      kept := if s.offerAnswer p 1 = .full then (s.printer p).kept ++ [.eject] else (s.printer p).kept } ∧
    (u.unit p 1).queue = (s.unit p 1).queue ++
      (if s.offerAnswer p 1 = .taken then [{ msg := .eject, cls := .print }] else []) ∧
    u.store = s.store ∧ ScreensKeep s u := by
  refine ⟨_, rfl, ?_, ?_, ?_, ?_⟩
  · rw [setPrinterState_printer hp, clearBook_printer hp, offerPrinter_printer hp]
  · rw [setPrinterState_unit]
    show ((s.offerPrinter p .eject).unit p 1).queue = _
    rw [offerPrinter_unit hp]
  · rw [setPrinterState_store]
    exact offerPrinter_store _
  · exact (setPrinterState_onlyMarks (s := (s.offerPrinter p .eject).clearBook p) .noBook).keeps.congr
      (offerPrinter_screens _).symm rfl

/-! ### A job abandoned (R168, R169) -/

/-- The job gone from the printer, its lines freed, a notice it owed carried, and the outcome shown (R168). -/
def jobGone (s : State) (p : Nat) (j : Job) (o : Shown) : State :=
  ((s.freeLines j.lines).setPrinter p { s.printer p with
    job := none, flight := .none, lineWait := none
    carried := (j.owed.map (fun n => (j.account, n))).or (s.printer p).carried }).showAt p o

theorem jobGone_printer (hp : 1 ≤ p ∧ p ≤ 24) (o : Shown) : (s.jobGone p j o).printer p = { s.printer p with
    job := none, flight := .none, lineWait := none
    carried := (j.owed.map (fun n => (j.account, n))).or (s.printer p).carried } :=
  printer_setPrinter_same hp _

theorem jobGone_store (o : Shown) (n : Nat) :
    rd (s.jobGone p j o).store n none = if n ∈ j.lines then none else rd s.store n none := freeLines_store j.lines n

theorem jobGone_unit (o : Shown) : (s.jobGone p j o).unit p 1 = s.unit p 1 := rfl

theorem jobGone_shows (hp : 1 ≤ p ∧ p ≤ 24) (o : Shown) : Shows (s.jobGone p j o) p o := showAt_shows _ hp o

theorem abandonJob_eq (hj : (s.printer p).job = some j) (o : Shown) : s.abandonJob p o =
    if (s.printer p).book.isSome then (((s.jobGone p j o).offerPrinter p .eject).clearBook p).setPrinterState p .noBook
    else if (s.printer p).state = .waitBook then (s.jobGone p j o).setPrinterState p .noBook
    else s.jobGone p j o := by
  unfold abandonJob jobGone
  rw [hj]
  dsimp only
  cases j.owed with
  | none => simp only [beq_iff_eq, Option.map_none, Option.none_or]
  | some n => simp only [beq_iff_eq, Option.map_some, Option.some_or]

/-- What an abandoned job leaves where a book is held: the printer empty, an EJECT offered, the lines freed (R168). -/
theorem abandonJob_held (hp : 1 ≤ p ∧ p ≤ 24) (hj : (s.printer p).job = some j) (hbook : (s.printer p).book.isSome = true)
    (howed : j.owed = none) (o : Shown) :
    (s.abandonJob p o).printer p = { s.printer p with
      state := .noBook, book := none, job := none, flight := .none, lineWait := none
      kept := if s.offerAnswer p 1 = .full then (s.printer p).kept ++ [.eject] else (s.printer p).kept } ∧
    ((s.abandonJob p o).unit p 1).queue = (s.unit p 1).queue ++
      (if s.offerAnswer p 1 = .taken then [{ msg := .eject, cls := .print }] else []) ∧
    (∀ n, rd (s.abandonJob p o).store n none = if n ∈ j.lines then none else rd s.store n none) ∧
    Shows (s.abandonJob p o) p o := by
  rw [abandonJob_eq hj, if_pos hbook]
  obtain ⟨u, hu, hprinter, hqueue, hstore, hkeeps⟩ := emptied (s := s.jobGone p j o) hp
  rw [← hu]
  rw [jobGone_printer hp, offerAnswer_congr (jobGone_unit o), howed] at hprinter
  rw [jobGone_unit, offerAnswer_congr (jobGone_unit o)] at hqueue
  exact ⟨hprinter, hqueue, fun n => by rw [hstore, jobGone_store], (jobGone_shows hp o).keeps hkeeps⟩

/-- What an abandoned job leaves where no book is held: JAMMED and FAULT stay, and WAIT_BOOK becomes NO_BOOK (R168). -/
theorem abandonJob_gone (hp : 1 ≤ p ∧ p ≤ 24) (hj : (s.printer p).job = some j) (hbook : (s.printer p).book = none)
    (o : Shown) :
    s.abandonJob p o = { s with
      screens := (s.abandonJob p o).screens, store := (s.abandonJob p o).store
      printers := wr1 s.printers p { s.printer p with
        state := if (s.printer p).state = .waitBook then .noBook else (s.printer p).state
        job := none, flight := .none, lineWait := none
        carried := (j.owed.map (fun n => (j.account, n))).or (s.printer p).carried } } ∧
    (∀ n, rd (s.abandonJob p o).store n none = if n ∈ j.lines then none else rd s.store n none) ∧
    Shows (s.abandonJob p o) p o := by
  have hgone : s.jobGone p j o = { s with
      screens := (s.jobGone p j o).screens, store := (s.jobGone p j o).store
      printers := wr1 s.printers p { s.printer p with
        job := none, flight := .none, lineWait := none
        carried := (j.owed.map (fun n => (j.account, n))).or (s.printer p).carried } } := rfl
  rw [abandonJob_eq hj, if_neg (by simp [hbook])]
  split
  · have hset := setPrinterState_eq (s := s.jobGone p j o) hp .noBook
    refine ⟨?_, fun n => ?_, (jobGone_shows hp o).keeps (setPrinterState_onlyMarks .noBook).keeps⟩
    · rw [jobGone_printer hp] at hset
      generalize (s.jobGone p j o).setPrinterState p .noBook = u at hset ⊢
      rw [hset, hgone]
      show ({ s with printers := wr1 (wr1 s.printers p _) p _, screens := _, store := _ } : State) = _
      rw [wr1_wr1]
    · rw [setPrinterState_store, jobGone_store]
  · exact ⟨hgone, jobGone_store o, jobGone_shows hp o⟩

/-! ### The test for completion (R165) -/

theorem testJob_of_unfinished (hj : (s.printer p).job = some j) (h : j.confirmed ≠ j.lines.length ∨ j.owed ≠ none) :
    s.testJob p = s := by
  unfold testJob
  rw [hj]
  refine if_neg ?_
  rintro ⟨hconfirmed, howed⟩
  exact h.elim (fun hc => hc hconfirmed) (fun hc => hc howed)

theorem testJob_of_complete (hj : (s.printer p).job = some j) (h : j.confirmed = j.lines.length) (howed : j.owed = none) :
    s.testJob p = s.completeJob p j := by
  unfold testJob
  rw [hj]
  exact if_pos ⟨h, howed⟩

/-- What a complete job leaves: the printer empty, an EJECT offered, the lines freed, PRINTED_OK (R165). -/
theorem completeJob_facts (hp : 1 ≤ p ∧ p ≤ 24) :
    (s.completeJob p j).printer p = { s.printer p with
      state := .noBook, book := none, job := none
      kept := if s.offerAnswer p 1 = .full then (s.printer p).kept ++ [.eject] else (s.printer p).kept } ∧
    ((s.completeJob p j).unit p 1).queue = (s.unit p 1).queue ++
      (if s.offerAnswer p 1 = .taken then [{ msg := .eject, cls := .print }] else []) ∧
    (∀ n, rd (s.completeJob p j).store n none = if n ∈ j.lines then none else rd s.store n none) ∧
    Shows (s.completeJob p j) p .printedOk := by
  unfold completeJob
  dsimp only
  generalize ht : ((s.offerPrinter p .eject).showAt p .printedOk).freeLines j.lines = t
  have hprinter : t.printer p = (s.offerPrinter p .eject).printer p := by rw [← ht]; rfl
  have hunit : t.unit p 1 = (s.offerPrinter p .eject).unit p 1 := by rw [← ht]; rfl
  have hshows : Shows t p .printedOk := by
    rw [← ht]
    exact showAt_shows _ hp _
  refine ⟨?_, ?_, fun n => ?_, ?_⟩
  · rw [setPrinterState_printer hp, printer_setPrinter_same hp, hprinter, offerPrinter_printer hp]
  · rw [setPrinterState_unit]
    show (t.unit p 1).queue = _
    rw [hunit, offerPrinter_unit hp]
  · rw [setPrinterState_store]
    show rd t.store n none = _
    rw [← ht, freeLines_store]
    show (if n ∈ j.lines then none else rd (s.offerPrinter p .eject).store n none) = _
    rw [offerPrinter_store]
  · refine Shows.keeps (s := t.setPrinter p { t.printer p with job := none, book := none }) (hshows.congr rfl)
      (setPrinterState_onlyMarks .noBook).keeps

/-! ### Owed notices (R163) -/

theorem queueOwed_of_carried {account : Text} {n : Nat} (hroom : s.port.queue.length < 64)
    (h : (s.printer p).carried = some (account, n)) : s.queueOwed p =
      ((s.withFrame (.printed account n)).setPrinter p { s.printer p with carried := none }).printLoop p := by
  unfold queueOwed
  rw [if_pos ((hasRoom_iff s).mpr hroom), h]
  dsimp only
  rw [enqueue_eq_withFrame]
  rfl

theorem queueOwed_of_owed {n : Nat} (hroom : s.port.queue.length < 64) (hcarried : (s.printer p).carried = none)
    (hj : (s.printer p).job = some j) (howed : j.owed = some n) : s.queueOwed p =
      (((s.withFrame (.printed j.account n)).setPrinter p { s.printer p with job := some { j with owed := none } }).testJob
        p).printLoop p := by
  unfold queueOwed
  rw [if_pos ((hasRoom_iff s).mpr hroom), hcarried, hj]
  dsimp only
  rw [howed]
  dsimp only
  rw [enqueue_eq_withFrame]
  rfl

/-! ### The print loop (R160, R164) -/

/-- The conditions under which the loop looks for the next line (R160). -/
structure LoopRuns (s : State) (p : Nat) (j : Job) (k : Book) : Prop where
  job : (s.printer p).job = some j
  book : (s.printer p).book = some k
  state : (s.printer p).state = .ready
  more : j.next ≤ j.lines.length
  pacing : j.pacing = none
  owed : j.owed = none
  carried : (s.printer p).carried = none

theorem printLoop_of_jobless (h : (s.printer p).job = none) : s.printLoop p = s := by
  unfold printLoop
  rw [h]

theorem printLoop_of_sent (hj : (s.printer p).job = some j) (h : j.lines.length < j.next) : s.printLoop p = s := by
  unfold printLoop
  rw [hj]
  split
  · next hj' _ =>
    cases hj'
    exact if_neg fun hc => absurd hc.2.1 (Nat.not_le.mpr h)
  · rfl

theorem LoopRuns.undefined (h : s.LoopRuns p j k) (hl : s.tables.layout k.layout = none) :
    s.printLoop p = s.abandonJob p .bookMismatch := by
  unfold printLoop
  rw [h.job, h.book]
  dsimp only
  rw [if_pos ⟨h.state, h.more, h.pacing, h.owed, h.carried⟩, hl]

theorem LoopRuns.line {x : PrintLine} (h : s.LoopRuns p j k) (hl : s.tables.layout k.layout = some l)
    (hline : k.line ≤ l.lines) (hx : s.nextLine j = some x) : s.printLoop p =
      s.sendPrint p (.line k.page k.line (l.lineText (s.tables.exponent 0) x) false) (.line false)
        { j with next := j.next + 1 } := by
  unfold printLoop
  rw [h.job, h.book]
  dsimp only
  rw [if_pos ⟨h.state, h.more, h.pacing, h.owed, h.carried⟩, hl]
  dsimp only
  rw [if_pos hline, hx]

theorem LoopRuns.page (h : s.LoopRuns p j k) (hl : s.tables.layout k.layout = some l) (hline : l.lines < k.line) :
    s.printLoop p = s.pageEnd p j k l := by
  unfold printLoop
  rw [h.job, h.book]
  dsimp only
  rw [if_pos ⟨h.state, h.more, h.pacing, h.owed, h.carried⟩, hl]
  exact if_neg (Nat.not_le.mpr hline)

/-- A LINE or TURN whose offer is taken: in flight, the printer PRINTING (R160). -/
theorem sendPrint_taken (hp : 1 ≤ p ∧ p ≤ 24) (h : s.offerAnswer p 1 = .taken) (m : OutMsg) (flight : Flight) (j : Job) :
    (s.sendPrint p m flight j).printer p = { s.printer p with state := .printing, job := some j, flight := flight } ∧
    ((s.sendPrint p m flight j).unit p 1).queue = (s.unit p 1).queue ++ [{ msg := m, cls := .print }] ∧
    OnlyMarks s (s.sendPrint p m flight j) := by
  unfold sendPrint
  rw [h]
  dsimp only
  refine ⟨?_, ?_, ?_⟩
  · rw [setPrinterState_printer hp, printer_setPrinter_same hp, offer_printer]
  · rw [setPrinterState_unit]
    show ((s.offer p 1 m .print).unit p 1).queue = _
    rw [offer_unit hp, h]
    rfl
  · exact (setPrinterState_onlyMarks (s := (s.offer p 1 m .print).setPrinter p
      { (s.offer p 1 m .print).printer p with job := some j, flight := flight }) .printing).congr
        (offer_within s p 1 m .print .screens (by decide)).symm rfl

/-! ### Kept messages (R34, R170) -/

/-- With room for all of them every kept message joins the queue, in order (R170). -/
theorem offerKept_all (hp : 1 ≤ p ∧ p ≤ 24) {kept : List OutMsg} (hpresent : (s.unit p 1).presence = .present)
    (hroom : (s.unit p 1).queue.length + kept.length ≤ 4) :
    (s.offerKept p kept).printer p = { s.printer p with kept := [] } ∧
    (s.offerKept p kept).unit p 1 = { s.unit p 1 with
      queue := (s.unit p 1).queue ++ kept.map (fun m => { msg := m, cls := .print }) } := by
  induction kept generalizing s with
  | nil =>
    refine ⟨printer_setPrinter_same hp _, ?_⟩
    rw [List.map_nil, List.append_nil]
    rfl
  | cons m rest ih =>
    have htaken : s.offerAnswer p 1 = .taken := by
      rw [List.length_cons] at hroom
      exact offerAnswer_taken_iff.mpr ⟨hpresent, by omega⟩
    have hunit := offer_unit (s := s) hp m .print
    rw [if_pos htaken] at hunit
    have hstep : s.offerKept p (m :: rest) = (s.offer p 1 m .print).offerKept p rest := by
      rw [offerKept, htaken]
    obtain ⟨hprinter, hqueue⟩ := ih (s := s.offer p 1 m .print) (by rw [hunit]; exact hpresent) (by
      rw [hunit]
      simp only [List.length_append, List.length_cons, List.length_nil] at hroom ⊢
      omega)
    rw [hstep, hprinter, hqueue, offer_printer, hunit]
    refine ⟨rfl, ?_⟩
    simp

end State

end Sys2Proof.Machine

namespace Sys2Proof.Proofs

open Sys2Proof.Machine Sys2Proof.Machine.State

/-- Settles O45: a job abandoned at the end of its book wait, and the notices that a freed slot takes. -/
theorem bookWaitExpiryAndOwedNotice : Obligations.BookWaitExpiryAndOwedNotice := by
  unfold Obligations.BookWaitExpiryAndOwedNotice
  intro s p h1 h24
  have hp : 1 ≤ p ∧ p ≤ 24 := ⟨h1, h24⟩
  refine ⟨fun j hj hwait hbook => ?_, fun hroom => ⟨fun account n hcarried => ?_, fun j n hcarried hj howed hlast => ?_⟩,
    fun hfull => ?_⟩
  · have hexec : exec (.bookWaitExpiry p) s = .next (s.abandonJob p .notPrinted) := by
      show Host.Outcome.next (s.bookWaitExpires p) = _
      unfold bookWaitExpires
      rw [hj]
      exact congrArg _ (if_pos (Option.isSome_iff_ne_none.mpr hwait))
    obtain ⟨heq, hstore, hshows⟩ := abandonJob_gone hp hj hbook .notPrinted
    refine ⟨_, hexec, hshows, ?_, hstore, fun q hq => (s.abandonJob_only p .notPrinted).screens q hq⟩
    rw [heq]
    cases j.owed <;> rfl
  · exact ⟨_, congrArg Host.Outcome.next (queueOwed_of_carried hroom hcarried), rfl⟩
  · have hqueue := queueOwed_of_owed hroom hcarried hj howed
    rw [testJob_of_unfinished (j := { j with owed := none }) (by rw [printer_setPrinter_same hp]) (Or.inl hlast)] at hqueue
    exact ⟨_, congrArg Host.Outcome.next hqueue, rfl⟩
  · show Host.Outcome.next (s.queueOwed p) = _
    unfold queueOwed
    rw [if_neg (by rw [hasRoom_iff]; omega)]

/-- Settles O44: the loop after the pacing timer by what is left of the page and the book, and the kept messages offered again. -/
theorem pacingExpiryAndQueueRoom : Obligations.PacingExpiryAndQueueRoom := by
  unfold Obligations.PacingExpiryAndQueueRoom
  refine ⟨fun s p j k h1 h24 hj hpacing => ?_, fun s p h1 h24 => ⟨fun u hu => ?_, fun hpresent hjob hroom hfree => ?_⟩⟩
  · have hp : 1 ≤ p ∧ p ≤ 24 := ⟨h1, h24⟩
    have hexpires : s.pacingExpires p =
        (s.setPrinter p { s.printer p with job := some { j with pacing := none } }).printLoop p := by
      unfold pacingExpires
      rw [hj]
      exact if_pos (Option.isSome_iff_ne_none.mpr hpacing)
    generalize ht : s.setPrinter p { s.printer p with job := some { j with pacing := none } } = t at hexpires
    have hexec : exec (.pacingTimerExpiry p) s = .next (t.printLoop p) := congrArg Host.Outcome.next hexpires
    have hprinter : t.printer p = { s.printer p with job := some { j with pacing := none } } := by
      rw [← ht]
      exact printer_setPrinter_same hp _
    refine ⟨fun hsent => ?_, fun hready hbook hcarried howed hmore => ?_⟩
    · rw [hexec, printLoop_of_sent (j := { j with pacing := none }) (by rw [hprinter]) hsent, ← ht]
      rfl
    · intro sends abandons
      have hruns : t.LoopRuns p { j with pacing := none } k := by
        refine ⟨?_, ?_, ?_, hmore, rfl, howed, ?_⟩ <;> rw [hprinter]
        · exact hbook
        · exact hready
        · exact hcarried
      have htables : t.tables = s.tables := by rw [← ht]; rfl
      have hscreens : t.screens = s.screens := by rw [← ht]; rfl
      have hunit : t.unit p 1 = s.unit p 1 := by rw [← ht]; rfl
      have hoffer : t.offerAnswer p 1 = s.offerAnswer p 1 := offerAnswer_congr hunit
      have hpresents : t.printers = wr1 s.printers p { s.printer p with job := some { j with pacing := none } } := by
        rw [← ht]
        rfl
      have honly : OnlyPrinter p s t := by
        rw [← ht]
        exact s.setPrinter_only p _
      have habandons : ∀ o, t.printLoop p = t.abandonJob p o → abandons o := fun o ho => by
        obtain ⟨hpr, hqueue, hstore, hshows⟩ := abandonJob_held hp hruns.job (by rw [hruns.book]; rfl) howed o
        have heq := eq_of_printer_store (abandonJob_within t p o) (t.abandonJob_only p o) hp
        rw [hprinter, hoffer] at hpr
        rw [hoffer, hunit] at hqueue
        rw [hpr, hpresents, wr1_wr1] at heq
        refine ⟨_, hexec.trans (congrArg _ ho), hshows, ?_, hqueue, fun n => ?_, fun q hq => ?_⟩
        · generalize t.abandonJob p o = u at heq ⊢
          rw [heq, ← ht]
          rfl
        · rw [hstore, ← ht]
          rfl
        · exact (honly.trans (t.abandonJob_only p o)).screens q hq
      have hsends : ∀ (m : OutMsg) (flight : Flight) (j' : Job), s.offerAnswer p 1 = .taken →
          t.printLoop p = t.sendPrint p m flight j' →
          sends m { s.printer p with state := .printing, flight := flight, job := some j' } := fun m flight j' htaken hloop => by
        obtain ⟨hpr, hqueue, hmarks⟩ := sendPrint_taken hp (hoffer.trans htaken) m flight j'
        have heq := eq_of_printer (sendPrint_within t p m flight j') (t.sendPrint_only p m flight j') hp
        rw [hprinter] at hpr
        rw [hpr, hpresents, wr1_wr1] at heq
        refine ⟨_, hexec.trans (congrArg _ hloop), hmarks.congr hscreens.symm rfl, ?_, by rw [hqueue, hunit]⟩
        generalize t.sendPrint p m flight j' = u at heq ⊢
        rw [heq, ← ht]
        rfl
      refine ⟨fun hl => habandons _ (hruns.undefined (by rw [htables]; exact hl)), fun l hl =>
        ⟨fun i x hline hnext hi hx htaken => ?_, fun hpage hlast hauto htaken => ?_, fun hpage hlast hauto => ?_,
          fun hpage hlast => ?_⟩⟩
      · have hline' : t.nextLine { j with pacing := none } = some x := by
          unfold nextLine
          dsimp only
          rw [hi]
          show rd t.store i none = some x
          rw [← hx, ← ht]
          rfl
        have hloop := hruns.line (by rw [htables]; exact hl) hline hline'
        rw [htables] at hloop
        exact hsends _ _ _ htaken hloop
      · have hloop := hruns.page (by rw [htables]; exact hl) hpage
        unfold pageEnd at hloop
        rw [if_neg (Nat.not_le.mpr hlast), if_pos hauto] at hloop
        exact hsends _ _ _ htaken hloop
      · have hloop := hruns.page (by rw [htables]; exact hl) hpage
        unfold pageEnd at hloop
        rw [if_neg (Nat.not_le.mpr hlast), if_neg (by simp [hauto]), hprinter, htables] at hloop
        refine ⟨_, hexec.trans (congrArg _ hloop), showAt_shows _ hp _, fun q hq => ?_, ?_⟩
        · rw [← hloop]
          exact (honly.trans (t.printLoop_only p)).screens q hq
        · rw [showAt_eq, setPrinter_setPrinterState_eq hp, hpresents, wr1_wr1, ← ht]
          rfl
      · have hloop := hruns.page (by rw [htables]; exact hl) hpage
        unfold pageEnd at hloop
        rw [if_pos hlast] at hloop
        exact habandons _ hloop
  · refine congrArg Host.Outcome.next (if_neg ?_)
    rintro ⟨rfl, hroom, -⟩
    obtain hu | hu := hu
    · exact hu rfl
    · exact absurd hroom (Nat.not_lt.mpr hu)
  · have hp : 1 ≤ p ∧ p ≤ 24 := ⟨h1, h24⟩
    obtain ⟨hprinter, hunit⟩ := offerKept_all hp hpresent hroom
    have honly := s.offerKept_only p (s.printer p).kept
    have hexec : exec (.outboundQueueRoom p 1) s = .next (s.offerKept p (s.printer p).kept) := by
      refine congrArg Host.Outcome.next ((if_pos ⟨rfl, hfree, hpresent⟩).trans ?_)
      unfold printerRoom
      exact printLoop_of_jobless (by rw [hprinter]; exact hjob)
    have hmerge := (offerKept_within s p (s.printer p).kept).eq_merge
    have hline : (s.offerKept p (s.printer p).kept).line =
        { s.line with recs := (s.offerKept p (s.printer p).kept).line.recs } :=
      offerKept_within s p _ .lineRest (by decide)
    refine ⟨_, hexec, ?_, hunit, fun q u hqu => honly.units q u fun hc => hqu (by rw [hc.1, hc.2])⟩
    rw [← hprinter, ← honly.printers_eq hp, ← hline]
    exact hmerge

end Sys2Proof.Proofs
end

