-- ==== Sys2Proof/Proofs/ConfirmedLines.lean ====
section
/-! STATUS LINE_DONE and STATUS TURNED (R162 to R165). -/

set_option Elab.async false

namespace Sys2Proof.Machine

namespace State

variable {s : State} {p : Nat} {j : Job} {k : Book} {x : PrintLine} {i : Nat}

theorem takeLineDone_of_delivered (hst : (s.printer p).state = .printing) (hf : (s.printer p).flight = .line true)
    (hj : (s.printer p).job = some j) (hk : (s.printer p).book = some k) : s.takeLineDone p = s.confirmLine p j k := by
  unfold takeLineDone
  rw [hst, hf, hj, hk]

theorem takeLineDone_of_other (h : ¬ ((s.printer p).state = .printing ∧ (s.printer p).flight = .line true ∧
    (s.printer p).job.isSome = true ∧ (s.printer p).book.isSome = true)) : s.takeLineDone p = s.countLineBadMessage := by
  unfold takeLineDone
  split
  · next hst hf hj hk => exact absurd ⟨hst, hf, by rw [hj]; rfl, by rw [hk]; rfl⟩ h
  · rfl

theorem takeTurned_of_other (h : ¬ ((s.printer p).state = .printing ∧ (s.printer p).flight = .turn true ∧
    (s.printer p).job.isSome = true ∧ (s.printer p).book.isSome = true)) : s.takeTurned p = s.countLineBadMessage := by
  unfold takeTurned
  split
  · next hst hf hj hk => exact absurd ⟨hst, hf, by rw [hj]; rfl, by rw [hk]; rfl⟩ h
  · rfl

/-- The printer once its page has turned: READY at line 1 of the next page (R164). -/
def turned (s : State) (p : Nat) (j : Job) (k : Book) : Printer := { s.printer p with
  lineWait := none, flight := .none, book := some { k with page := k.page + 1, line := 1 }
  job := some { j with page := k.page + 1, line := 1 } }

theorem takeTurned_of_delivered (hst : (s.printer p).state = .printing) (hf : (s.printer p).flight = .turn true)
    (hj : (s.printer p).job = some j) (hk : (s.printer p).book = some k) :
    s.takeTurned p = ((s.setPrinter p (s.turned p j k)).setPrinterState p .ready).printLoop p := by
  unfold takeTurned
  rw [hst, hf, hj, hk]
  rfl

/-- The printer and the job once a delivered line is confirmed (R162). -/
def confirmedPrinter (s : State) (p : Nat) (k : Book) (job : Job) : Printer := { s.printer p with
  lineWait := none, flight := .none, book := some { k with line := k.line + 1 }, job := some job }

/-- The confirmed line takes its place in the job, with the pacing timer loaded (R162). -/
def confirmedJob (s : State) (j : Job) : Job :=
  { j with confirmed := j.confirmed + 1, pacing := some s.tables.params.pacing, line := j.line + 1 }

/-- The PRINTED notice of a confirmed line: queued, or owed by the job (R163). -/
theorem offerPrinted_of_room (hroom : s.port.queue.length < 64) (item : Nat) : s.offerPrinted p j item =
    (s.withFrame (.printed j.account item)).setPrinter p { s.printer p with job := some j } := by
  unfold offerPrinted
  rw [if_pos ((hasRoom_iff s).mpr hroom)]
  dsimp only
  rw [enqueue_eq_withFrame]
  rfl

theorem offerPrinted_of_full (hfull : 64 ≤ s.port.queue.length) (item : Nat) : s.offerPrinted p j item =
    s.setPrinter p { s.printer p with job := some { j with owed := some item } } := by
  unfold offerPrinted
  exact if_neg (by rw [hasRoom_iff]; omega)

theorem confirmLine_eq (hi : j.lines[j.confirmed]? = some i) (hx : rd s.store i none = some x) : s.confirmLine p j k =
    (((s.setPrinter p { s.printer p with
      lineWait := none, flight := .none, book := some { k with line := k.line + 1 } }).offerPrinted p (s.confirmedJob j)
        x.item).setPrinterState p .ready).testJob p := by
  unfold confirmLine
  dsimp only
  rw [hi, Option.bind_some, hx, Option.map_some, Option.getD_some]
  rfl

theorem confirmLine_of_room (hp : 1 ≤ p ∧ p ≤ 24) (hi : j.lines[j.confirmed]? = some i) (hx : rd s.store i none = some x)
    (hroom : s.port.queue.length < 64) : s.confirmLine p j k =
      (((s.withFrame (.printed j.account x.item)).setPrinter p (s.confirmedPrinter p k (s.confirmedJob j))).setPrinterState p
        .ready).testJob p := by
  rw [confirmLine_eq hi hx, offerPrinted_of_room (s := s.setPrinter p _) hroom, printer_setPrinter_same hp]
  congr 2
  show ({ s with port := _, printers := wr1 (wr1 s.printers p _) p _ } : State) = _
  rw [wr1_wr1]
  rfl

theorem confirmLine_of_full (hp : 1 ≤ p ∧ p ≤ 24) (hi : j.lines[j.confirmed]? = some i) (hx : rd s.store i none = some x)
    (hfull : 64 ≤ s.port.queue.length) : s.confirmLine p j k =
      ((s.setPrinter p (s.confirmedPrinter p k { s.confirmedJob j with owed := some x.item })).setPrinterState p
        .ready).testJob p := by
  rw [confirmLine_eq hi hx, offerPrinted_of_full (s := s.setPrinter p _) hfull, printer_setPrinter_same hp]
  congr 2
  show ({ s with printers := wr1 (wr1 s.printers p _) p _ } : State) = _
  rw [wr1_wr1]
  rfl

end State

end Sys2Proof.Machine

namespace Sys2Proof.Proofs

open Sys2Proof.Machine Sys2Proof.Machine.State

/-- Settles O43: the line confirmed with its notice queued or owed, the job's last line, and the page turned. -/
theorem lineConfirmedAndPageTurned : Obligations.LineConfirmedAndPageTurned := by
  unfold Obligations.LineConfirmedAndPageTurned
  intro s b p seq hawaits h1 h24 hb
  have hp : 1 ≤ p ∧ p ≤ 24 := ⟨h1, h24⟩
  have hprinter : b.printer p = s.printer p := by rw [hb]; rfl
  have hdone : exec (.lineDone p seq) s = .next (b.takeLineDone p) := by rw [exec_lineDone hawaits, hb]
  have hturned : exec (.turned p seq) s = .next (b.takeTurned p) := by rw [exec_turned hawaits, hb]
  refine ⟨fun hother => ?_, fun hother => ?_, fun j k hst hj hk => ⟨fun hf => ?_, fun i x hf howed hi hx => ?_⟩⟩
  · rw [hdone, takeLineDone_of_other (by rw [hprinter]; exact hother), hb]
    rfl
  · rw [hturned, takeTurned_of_other (by rw [hprinter]; exact hother), hb]
    rfl
  · refine ⟨(b.setPrinter p (b.turned p j k)).setPrinterState p .ready, ?_, ?_, ?_⟩
    · rw [hturned, takeTurned_of_delivered (by rw [hprinter]; exact hst) (by rw [hprinter]; exact hf)
        (by rw [hprinter]; exact hj) (by rw [hprinter]; exact hk)]
    · exact (setPrinterState_onlyMarks (s := b.setPrinter p (b.turned p j k)) .ready).congr (by rw [hb]; rfl) rfl
    · rw [setPrinter_setPrinterState_eq hp, turned, hprinter, hb]
      rfl
  · intro done ready
    have hline : b.takeLineDone p = b.confirmLine p j k := takeLineDone_of_delivered (by rw [hprinter]; exact hst)
      (by rw [hprinter]; exact hf) (by rw [hprinter]; exact hj) (by rw [hprinter]; exact hk)
    have hbx : rd b.store i none = some x := by rw [hb]; exact hx
    have hready : ∀ (t : State) (job : Job), t.screens = b.screens → t.printers = s.printers →
        ((t.setPrinter p (b.confirmedPrinter p k job)).setPrinterState p .ready).printer p = ready job ∧
        OnlyMarks s ((t.setPrinter p (b.confirmedPrinter p k job)).setPrinterState p .ready) ∧
        (t.setPrinter p (b.confirmedPrinter p k job)).setPrinterState p .ready = { t with
          screens := ((t.setPrinter p (b.confirmedPrinter p k job)).setPrinterState p .ready).screens
          printers := wr1 s.printers p (ready job) } := fun t job hts htp => by
      refine ⟨?_, ?_, ?_⟩
      · rw [setPrinterState_printer hp, printer_setPrinter_same hp, confirmedPrinter, hprinter]
      · exact (setPrinterState_onlyMarks (s := t.setPrinter p (b.confirmedPrinter p k job)) .ready).congr
          (by rw [hb] at hts; exact hts.symm) rfl
      · rw [← htp]
        have hset := setPrinter_setPrinterState_eq (s := t) hp (b.confirmedPrinter p k job) .ready
        rw [confirmedPrinter, hprinter] at hset ⊢
        exact hset
    refine ⟨fun hfull => ?_, fun hroom hmore => ?_, fun hroom hlast => ?_⟩
    · obtain ⟨hpr, hmarks, heq⟩ := hready b { b.confirmedJob j with owed := some x.item } rfl (by rw [hb]; rfl)
      rw [hline, confirmLine_of_full hp hi hbx (by rw [hb]; exact hfull),
        testJob_of_unfinished (j := { b.confirmedJob j with owed := some x.item }) (by rw [hpr]) (Or.inr (by simp))] at hdone
      refine ⟨_, hdone, hmarks, ?_⟩
      rw [heq, hb]
      rfl
    · obtain ⟨hpr, hmarks, heq⟩ := hready (b.withFrame (.printed j.account x.item)) (b.confirmedJob j) rfl (by rw [hb]; rfl)
      rw [hline, confirmLine_of_room hp hi hbx (by rw [hb]; exact hroom),
        testJob_of_unfinished (j := b.confirmedJob j) (by rw [hpr]) (Or.inl hmore)] at hdone
      refine ⟨_, hdone, hmarks, ?_⟩
      rw [heq, hb]
      rfl
    · obtain ⟨hpr, hmarks, heq⟩ := hready (b.withFrame (.printed j.account x.item)) (b.confirmedJob j) rfl (by rw [hb]; rfl)
      rw [hline, confirmLine_of_room hp hi hbx (by rw [hb]; exact hroom),
        testJob_of_complete (j := b.confirmedJob j) (by rw [hpr]) hlast howed] at hdone
      generalize ((b.withFrame (.printed j.account x.item)).setPrinter p
        (b.confirmedPrinter p k (b.confirmedJob j))).setPrinterState p .ready = t at hpr hmarks heq hdone
      have hlineRecs : t.line = b.line := by rw [heq]; rfl
      have hunit : t.unit p 1 = b.unit p 1 := unit_congr (congrArg Line.recs hlineRecs) p 1
      have hoffer : t.offerAnswer p 1 = s.offerAnswer p 1 := by
        rw [offerAnswer_congr hunit, hb, accepted_offerAnswer hp]
      have hqueue : (t.unit p 1).queue = (s.unit p 1).queue := by rw [hunit, hb, accepted_unit hp]
      have hstore : t.store = s.store := by rw [heq, hb]; rfl
      obtain ⟨hend, hsent, hfreed, hshows⟩ := completeJob_facts (s := t) (j := b.confirmedJob j) hp
      have hrest := eq_of_printer_store (completeJob_within t p (b.confirmedJob j)) (completeJob_only (s := t) (p := p) (b.confirmedJob j)) hp
      refine ⟨_, hdone, hshows, ?_, ?_, fun n => ?_⟩
      · rw [hend, hoffer, hpr] at hrest
        generalize t.completeJob p (b.confirmedJob j) = u at hrest ⊢
        rw [hrest, heq, hb]
        show ({ s with port := _, line := _, store := _, screens := _, printers := wr1 (wr1 s.printers p _) p _ } : State) = _
        rw [wr1_wr1]
        rfl
      · rw [hsent, hoffer, hqueue]
      · rw [hfreed, hstore]
        rfl

end Sys2Proof.Proofs
end

