-- ==== Sys2Proof/Proofs/EngineFrames.lean ====
section
/-! What the line engine does without delivering a message leaves the missed counts within their range and every drawer's
state and counts as they were (R26 to R47, R93). -/

set_option Elab.async false

namespace Sys2Proof.Machine

/-- The missed counts stay within their range. -/
def KeepsMissed (s t : State) : Prop := s.MissedBounded → t.MissedBounded

namespace KeepsMissed

variable {s t u : State}

theorem refl (s : State) : KeepsMissed s s := id

theorem after (h : KeepsMissed t u) (g : KeepsMissed s t) : KeepsMissed s u := h ∘ g

theorem of_missed (h : ∀ q, (t.posRec q).missed = (s.posRec q).missed) : KeepsMissed s t :=
  fun hs q => (h q).symm ▸ hs q

theorem of_recs (h : t.line.recs = s.line.recs) : KeepsMissed s t :=
  of_missed fun q => congrArg (fun v => (rd1 v q PosRec.start).missed) h

theorem of_within {may : List Aspect} (h : Within may s t) (hl : Aspect.line ∉ may := by decide) : KeepsMissed s t :=
  of_recs (congrArg Line.recs (h .line hl))

theorem of_only {p : Nat} (h : OnlyPrinter p s t) : KeepsMissed s t := of_missed h.missed

theorem fold {α : Type} {f : State → α → State} (h : ∀ t x, KeepsMissed t (f t x)) (l : List α) (s : State) :
    KeepsMissed s (l.foldl f s) := by
  induction l generalizing s with
  | nil => exact refl s
  | cons x l ih => exact (ih (f s x)).after (h s x)

end KeepsMissed

/-- The state of a drawer's settlement and its three tables of counts (R93). -/
def Drawer.funds (x : Drawer) : DrawerState × CountTable × CountTable × CountTable := (x.state, x.book, x.reserved, x.incoming)

/-- Every drawer has the state and the counts it had. -/
def FundsKept (s t : State) : Prop := ∀ d, (t.drawer d).funds = (s.drawer d).funds

namespace FundsKept

variable {s t u : State}

theorem refl (s : State) : FundsKept s s := fun _ => rfl

theorem after (h : FundsKept t u) (g : FundsKept s t) : FundsKept s u := fun d => (h d).trans (g d)

theorem of_drawers (h : t.drawers = s.drawers) : FundsKept s t := fun d => congrArg Drawer.funds (State.drawer_congr h d)

theorem of_within {may : List Aspect} (h : Within may s t) (hd : Aspect.drawers ∉ may := by decide) : FundsKept s t :=
  of_drawers (h .drawers hd)

theorem fold {α : Type} {f : State → α → State} (h : ∀ t x, FundsKept t (f t x)) (l : List α) (s : State) :
    FundsKept s (l.foldl f s) := by
  induction l generalizing s with
  | nil => exact refl s
  | cons x l ih => exact (ih (f s x)).after (h s x)

/-- A drawer whose record changes apart from its state and its counts. -/
theorem of_setDrawer {d : Nat} {x : Drawer} (hx : x.funds = (s.drawer d).funds) : FundsKept s (s.setDrawer d x) := by
  intro e
  rw [State.drawer_setDrawer]
  split
  · next h => rw [← h.1, hx]
  · rfl

end FundsKept

/-- What the engine may reach when it delivers nothing. -/
def Aspect.ofEngine : List Aspect :=
  [.line, .lineRest, .printers, .screens, .store, .drawers, .counters, .port, .freeDraws, .survey]

/-- What the engine does by itself: missed counts and funds. -/
structure Operates (s t : State) : Prop where
  missed : KeepsMissed s t
  funds : FundsKept s t

namespace Operates

variable {s t u : State}

theorem refl (s : State) : Operates s s := ⟨.refl s, .refl s⟩

theorem after (h : Operates t u) (g : Operates s t) : Operates s u := ⟨h.missed.after g.missed, h.funds.after g.funds⟩

theorem of_recs (h : t.line.recs = s.line.recs := by rfl) (hd : t.drawers = s.drawers := by rfl) : Operates s t :=
  ⟨.of_recs h, .of_drawers hd⟩

theorem of_within {may : List Aspect} (h : Within may s t) (hl : Aspect.line ∉ may := by decide)
    (hd : Aspect.drawers ∉ may := by decide) : Operates s t := ⟨.of_within h hl, .of_within h hd⟩

theorem of_only {p : Nat} {may : List Aspect} (h : OnlyPrinter p s t) (hw : Within may s t)
    (hd : Aspect.drawers ∉ may := by decide) : Operates s t := ⟨.of_only h, .of_within hw hd⟩

theorem fold {α : Type} {f : State → α → State} (h : ∀ t x, Operates t (f t x)) (l : List α) (s : State) :
    Operates s (l.foldl f s) :=
  ⟨.fold (fun t x => (h t x).missed) l s, .fold (fun t x => (h t x).funds) l s⟩

end Operates

namespace State

variable (s : State)

/-! ### The position records -/

theorem setPosRec_keepsMissed (p : Nat) {x : PosRec} (hx : x.missed ≤ 3) : KeepsMissed s (s.setPosRec p x) := by
  intro hs q
  rw [posRec_setPosRec]
  split
  · exact hx
  · exact hs q

theorem setUnit_keepsMissed (p u : Nat) (x : UnitRec) : KeepsMissed s (s.setUnit p u x) :=
  fun hs => setPosRec_keepsMissed s p (hs p) hs

theorem setEntry_keepsMissed (i : Nat) (x : Option Entry) : KeepsMissed s (s.setEntry i x) := .of_recs rfl

theorem setDrawer_keepsMissed (d : Nat) (x : Drawer) : KeepsMissed s (s.setDrawer d x) := .of_recs rfl

theorem offer_keepsMissed (p u : Nat) (m : OutMsg) (c : LineClass) : KeepsMissed s (s.offer p u m c) := by
  unfold offer
  split
  · exact setUnit_keepsMissed s _ _ _
  · exact .refl s

theorem offerRelease_keepsMissed (d : Nat) : KeepsMissed s (s.offerRelease d) := by
  unfold offerRelease
  split
  · exact .refl s
  · exact offer_keepsMissed s _ _ _ _

/-! ### The units' records and the drawers' own -/

theorem setPosRec_operates (p : Nat) {x : PosRec} (hx : x.missed ≤ 3) : Operates s (s.setPosRec p x) :=
  ⟨setPosRec_keepsMissed s p hx, .of_drawers rfl⟩

theorem setUnit_operates (p u : Nat) (x : UnitRec) : Operates s (s.setUnit p u x) :=
  ⟨setUnit_keepsMissed s p u x, .of_drawers rfl⟩

theorem offerRelease_operates (d : Nat) : Operates s (s.offerRelease d) :=
  ⟨offerRelease_keepsMissed s d, .of_within (offerRelease_within s d)⟩

theorem drawerUnitReturned_operates (p : Nat) : Operates s (s.drawerUnitReturned p) := by
  unfold drawerUnitReturned
  split
  · exact offerRelease_operates s p
  · exact .refl s

theorem drawerUnknown_operates (d : Nat) : Operates s (s.drawerUnknown d) := ⟨.of_recs rfl, .of_setDrawer rfl⟩

theorem drawerUnitAbsent_operates (p : Nat) : Operates s (s.drawerUnitAbsent p) := by
  unfold drawerUnitAbsent
  split
  · exact drawerUnknown_operates s p
  · exact .refl s

theorem releaseDelivered_operates (d : Nat) : Operates s (s.releaseDelivered d) := by
  unfold releaseDelivered
  split
  · exact ⟨.of_recs rfl, .of_setDrawer rfl⟩
  · exact .refl s

/-! ### Loss and return of units -/

theorem returnMessage_operates (p u : Nat) (m : OutMsg) : Operates s (s.returnMessage p u m) := by
  unfold returnMessage
  split
  · exact .of_within (screenReturned_within s p m)
  · exact .of_only (printerMessageReturned_only s p m) (printerMessageReturned_within s p m)
  · exact .of_within (showNotReleased_within s _)

theorem tellAbsent_operates (p u : Nat) : Operates s (s.tellAbsent p u) := by
  unfold tellAbsent
  split
  · exact .refl s
  · exact .of_only (printerAbsent_only s p) (printerAbsent_within s p)
  · exact drawerUnitAbsent_operates s p

theorem unitAbsent_operates (p u : Nat) : Operates s (s.unitAbsent p u) :=
  (tellAbsent_operates _ p u).after ((Operates.fold (fun t (q : Queued) => returnMessage_operates t p u q.msg) _ _).after
    (setUnit_operates s p u _))

theorem unitReturns_operates (p u : Nat) (b : Bool) : Operates s (s.unitReturns p u b) := by
  unfold unitReturns
  refine Operates.after ?_ (setUnit_operates s p u
    { presence := .present, attention := b, queue := [], outSeq := 0, lastIn := none })
  unfold returnAction
  split
  · exact .of_within (onScreen_within _ p _)
  · exact .of_only (printerReturned_only _ p) (printerReturned_within _ p)
  · exact drawerUnitReturned_operates _ p

/-! ### Roll call -/

theorem openSlot_operates (slots : List Nat) : Operates s (s.openSlot slots) := by
  unfold openSlot
  split <;> exact .of_recs

theorem dropUnpolled_operates : Operates s s.dropUnpolled := by
  refine .fold (fun t p => .fold (fun t u => ?_) _ t) _ s
  split
  · exact unitAbsent_operates t p u
  · exact .refl t

theorem beginRollCall_operates : Operates s s.beginRollCall :=
  (openSlot_operates _ _).after (Operates.after (.of_recs) ((dropUnpolled_operates _).after (.of_recs)))

theorem unitAnswered_operates (p u : Nat) (r a : Bool) : Operates s (s.unitAnswered p u r a) := by
  unfold unitAnswered
  split
  · exact setUnit_operates s p u _
  · exact unitAbsent_operates s p u
  · exact unitReturns_operates s p u a
  · exact setUnit_operates s p u _

theorem slotAnswered_operates (p m n : Nat) : Operates s (s.slotAnswered p m n) := by
  have hcleared := setPosRec_operates s p (x := { s.posRec p with missed := 0 }) (Nat.zero_le 3)
  unfold slotAnswered
  dsimp only
  generalize s.setPosRec p { s.posRec p with missed := 0 } = t at hcleared ⊢
  exact (Operates.fold (fun t u => unitAnswered_operates t p u _ _) allUnits t).after hcleared

theorem unitMissed_operates (p u : Nat) : Operates s (s.unitMissed p u) := by
  unfold unitMissed
  split
  · exact unitAbsent_operates s p u
  · exact setUnit_operates s p u _

theorem slotMissed_operates (p : Nat) : Operates s (s.slotMissed p) := by
  have hmissed : Operates s (allUnits.foldl (fun t u => t.setUnit p u { t.unit p u with attention := false })
      (s.setPosRec p { s.posRec p with missed := min 3 ((s.posRec p).missed + 1) })) :=
    (Operates.fold (fun t u => setUnit_operates t p u _) allUnits _).after
      (setPosRec_operates s p (Nat.min_le_left ..))
  have hunits := fun t => Operates.fold (fun t u => unitMissed_operates t p u) allUnits t
  unfold slotMissed
  dsimp only
  split
  · split
    · exact (Operates.of_within (alarm_within _ _ _)).after
        ((Operates.of_within (countUnitLost_within _)).after ((hunits _).after hmissed))
    · exact (hunits _).after hmissed
  · exact hmissed

/-! ### Transfers -/

theorem sendHead_operates (x : Transfer) : Operates s (s.sendHead x) := by
  unfold sendHead
  split <;> exact .of_recs

theorem loseUnit_operates (x : Transfer) : Operates s (s.loseUnit x) :=
  Operates.after (.of_recs) (unitAbsent_operates s _ _)

theorem failOutbound_operates (x : Transfer) : Operates s (s.failOutbound x) := by
  unfold failOutbound
  split
  · exact (sendHead_operates _ _).after (.of_recs)
  · exact loseUnit_operates s x

theorem failInbound_operates (x : Transfer) : Operates s (s.failInbound x) := by
  unfold failInbound
  split
  · exact .of_recs
  · exact loseUnit_operates s x

theorem tellDelivered_operates (p u : Nat) (m : OutMsg) : Operates s (s.tellDelivered p u m) := by
  unfold tellDelivered
  split
  · exact .refl s
  · exact .of_only (printerDelivered_only s p m) (printerDelivered_within s p m)
  · exact releaseDelivered_operates s p

theorem deliverHead_operates (x : Transfer) : Operates s (s.deliverHead x) := by
  unfold deliverHead
  split
  · exact .of_recs
  · exact Operates.after .of_recs ((tellDelivered_operates _ _ _ _).after (setUnit_operates s _ _ _))

/-! ### Messages and frames of the units -/

theorem rejectInbound_operates (x : Transfer) (n : Option Nat) : Operates s (s.rejectInbound x n) := by
  unfold rejectInbound
  split <;> exact .of_recs

/-- The reply to a message taken from the selected unit (R38). -/
def answered (s : State) (x : Transfer) (n : Nat) : State :=
  ((s.sendLine (.reply .accept x.pos x.unit n)).setUnit x.pos x.unit
    { (s.sendLine (.reply .accept x.pos x.unit n)).unit x.pos x.unit with attention := false, lastIn := some n }).endTransfer

theorem answered_operates (x : Transfer) (n : Nat) : Operates s (s.answered x n) :=
  Operates.after .of_recs ((setUnit_operates _ _ _ _).after .of_recs)

theorem answered_within (x : Transfer) (n : Nat) : Within [.line, .lineRest] s (s.answered x n) :=
  (endTransfer_within _).after (Within.after (k := [.line]) (setUnit_bounded _ id) (sendLine_within s _))

theorem acceptInbound_eq (x : Transfer) (n : Nat) (m : InMsg) : s.acceptInbound x n m =
    if (s.unit x.pos x.unit).lastIn == some n then s.answered x n else (s.answered x n).deliver x.pos m := rfl

theorem receiveSlot_operates (l : List Nat) (f : RxFrame) : Operates s (s.receiveSlot l f) := by
  unfold receiveSlot
  split
  · split
    · exact (openSlot_operates _ _).after (slotAnswered_operates s _ _ _)
    · exact .of_recs
  · exact .of_within (discardFrame_within s f)

theorem receiveReply_operates (x : Transfer) (f : RxFrame) : Operates s (s.receiveReply x f) := by
  unfold receiveReply
  split
  · split
    · split
      · exact deliverHead_operates s x
      · exact failOutbound_operates s x
      · exact .of_recs
    · exact .of_recs
  · exact .of_within (discardFrame_within s f)

theorem endProbe_operates (p : Nat) (d : Bool) (t : Option Nat) (f : SurveyMarks → SurveyMarks) :
    Operates s (s.endProbe p d t f) := by
  unfold endProbe
  dsimp only
  split
  · exact .of_recs
  · split <;> exact .of_recs

/-- A frame is taken without a delivery, or a message of it is delivered after the engine has answered (R25, R38, R40). -/
theorem receive_cases (f : RxFrame) :
    (Operates s (s.receive f) ∧ Within Aspect.ofEngine s (s.receive f)) ∨
    ∃ t p m, Operates s t ∧ Within Aspect.ofEngine s t ∧ s.receive f = t.deliver p m := by
  unfold receive
  split
  · exact .inl ⟨.refl s, .refl _ s⟩
  · dsimp only
    have hmarked : Operates s (if f = .badForm then s.withLine { s.line with discarding := true } else s) := by
      split <;> exact .of_recs
    have hwithin : Within Aspect.ofEngine s (if f = .badForm then s.withLine { s.line with discarding := true } else s) := by
      split
      · exact (withLine_control s).mono
      · exact .refl _ s
    generalize (if f = .badForm then s.withLine { s.line with discarding := true } else s) = t at hmarked hwithin ⊢
    have hquiet : ∀ u, Operates t u → Within Aspect.ofEngine t u → Operates s u ∧ Within Aspect.ofEngine s u :=
      fun u ho hw => ⟨ho.after hmarked, hw.after hwithin⟩
    split
    · exact .inl (hquiet _ (.of_within (discardFrame_within t f)) (discardFrame_within t f).mono)
    · exact .inl (hquiet _ (.of_within (discardFrame_within t f)) (discardFrame_within t f).mono)
    · exact .inl (hquiet _ (receiveSlot_operates t _ f) (receiveSlot_within t _ f).mono)
    · next x _ =>
      unfold receiveInbound
      have hreject : ∀ n, Operates s (t.rejectInbound x n) ∧ Within Aspect.ofEngine s (t.rejectInbound x n) := fun n =>
        hquiet _ (rejectInbound_operates t x n) (rejectInbound_within t x n).mono
      split
      · split
        · next n m _ =>
          have hanswered := hquiet _ (answered_operates t x n) (answered_within t x n).mono
          rw [acceptInbound_eq]
          split
          · exact .inl hanswered
          · exact .inr ⟨_, _, _, hanswered.1, hanswered.2, rfl⟩
        · exact .inl (hreject _)
      · split
        · exact .inl (hquiet _ .of_recs (endTransfer_within t).mono)
        · exact .inl (hreject _)
      · exact .inl (hreject _)
    · exact .inl (hquiet _ (receiveReply_operates t _ f) (receiveReply_within t _ f).mono)
    · exact .inl (hquiet _ (endProbe_operates t _ _ _ _) (endProbe_within t _ _ _ _).mono)

theorem replyWaitExpires_operates : Operates s s.replyWaitExpires := by
  unfold replyWaitExpires
  split
  · exact .refl s
  · split
    · exact (openSlot_operates _ _).after (slotMissed_operates s _)
    · exact failInbound_operates s _
    · exact failOutbound_operates s _
    · exact endProbe_operates s _ _ _ _
    · exact .of_recs

/-! ### The arbiter -/

theorem serveOutbound_operates (p u : Nat) (c : LineClass) : Operates s (s.serveOutbound p u c) := by
  unfold serveOutbound
  split
  · have hbuilt : Operates s (s.buildMessage p (c == .urgent)).1 := .of_within (buildMessage_within s p _)
    split
    · next heq =>
      rw [heq] at hbuilt
      exact (sendHead_operates _ _).after ((setUnit_operates _ p u _).after hbuilt)
    · next heq =>
      rw [heq] at hbuilt
      exact hbuilt
  · exact sendHead_operates s _

theorem sendProbe_operates : Operates s s.sendProbe := by
  unfold sendProbe
  split
  · exact .of_recs
  · exact .of_recs
  · exact .refl s

theorem grant_operates : Operates s s.grant := by
  unfold grant
  split
  · split
    · exact .refl s
    · next c _ =>
      refine Operates.after ?_ (.of_recs : Operates s (s.withLine { s.line with
        grantCount := (s.line.grantCount + 1) % 8 }))
      cases c with
      | urgent => exact (serveOutbound_operates _ _ _ _).after (.of_recs)
      | rollCall => exact beginRollCall_operates _
      | service => exact .of_recs
      | print => exact (serveOutbound_operates _ _ _ _).after (.of_recs)
      | refresh => exact (serveOutbound_operates _ _ _ _).after (.of_recs)
      | survey => exact sendProbe_operates _
  · exact .refl s


theorem rollTimerExpires_operates : Operates s s.rollTimerExpires := by
  unfold rollTimerExpires
  split
  · exact .of_recs
  · exact .refl s

theorem queueRoom_operates (p u : Nat) : Operates s (s.queueRoom p u) := by
  unfold queueRoom
  split
  · exact .of_only (printerRoom_only s p) (printerRoom_within s p)
  · exact .refl s

end State

end Sys2Proof.Machine
end

