-- ==== Sys2Proof/Proofs/MissedCounts.lean ====
section
/-! The missed counts of the positions stay within 0 to 3 (R27, R31), and with that every capacity but the journal's and the
send window in every step (O55). -/

set_option Elab.async false

namespace Sys2Proof.Machine

namespace State

variable (s : State)

/-! ### Releases and postings -/

theorem releaseDrawers_keepsMissed (ds : List Nat) : KeepsMissed s (s.releaseDrawers ds) :=
  .fold (fun t d => (offerRelease_keepsMissed (t.setDrawer d _) d).after (setDrawer_keepsMissed t d _)) _ s

theorem postLines_keepsMissed (c : Captured) (ans : Option Answer) : KeepsMissed s (s.postLines c ans).1 := by
  unfold postLines
  split
  · split
    · exact .of_only (handLines_only s c.pos _ _)
    · exact .refl s
  · exact .refl s

theorem post_keepsMissed (c : Captured) (tag : Option Nat) (ans : Option Answer) : KeepsMissed s (s.post c tag ans) := by
  unfold post
  dsimp only
  exact (KeepsMissed.of_within (showNotReleased_within _ _)).after ((KeepsMissed.of_within (postScreens_within _ _ _ _)).after
    ((releaseDrawers_keepsMissed _ _).after ((postLines_keepsMissed _ _ _).after
      ((KeepsMissed.of_within (appendClaimed_within _ _)).after (.of_within (postItems_within s _))))))

theorem approve_keepsMissed (i : Nat) (e : Entry) (a : Answer) : KeepsMissed s (s.approve i e a) := by
  unfold approve
  split
  · exact (KeepsMissed.of_within (freed_within _ i)).after (.of_within (answerScreen_within s _ _ _))
  · exact (KeepsMissed.of_within (freed_within _ i)).after (post_keepsMissed s _ _ _)

theorem takeAnswer_keepsMissed (tag : Nat) (bs : List Byte) : KeepsMissed s (s.takeAnswer tag bs) := by
  unfold takeAnswer
  split
  · exact .of_within (dropBadFrame_within s)
  · split
    · exact .of_within (countLateAnswer_within s)
    · split
      · exact approve_keepsMissed s _ _ _
      · exact .of_within (decline_within s _ _ _)

theorem forward_keepsMissed (i : Nat) (e : Entry) : KeepsMissed s (s.forward i e) := by
  unfold forward
  exact (KeepsMissed.of_within (reportEntry_within _ _ _)).after ((setEntry_keepsMissed _ i _).after
    (.of_within (enqueue_within s _)))

theorem grantOverride_keepsMissed (i : Nat) (e : Entry) (n : Nat) : KeepsMissed s (s.grantOverride i e n) := by
  unfold grantOverride
  dsimp only
  have hrecorded := (KeepsMissed.of_within (appendClaimed_within (s.setOverrides (s.overrides.filter (· != i)))
    (e.overrideBody n))).after (.of_within (setOverrides_within s _))
  have hset : ∀ x, KeepsMissed s
      (((s.setOverrides (s.overrides.filter (· != i))).appendClaimed (e.overrideBody n)).setEntry i x) := fun _ =>
    (setEntry_keepsMissed _ i _).after hrecorded
  split
  · exact (KeepsMissed.of_within (freed_within _ i)).after ((post_keepsMissed _ _ _ _).after (hset _))
  · split
    · exact (forward_keepsMissed _ i _).after (hset _)
    · exact (KeepsMissed.of_within (reportEntry_within _ _ _)).after ((setEntry_keepsMissed _ i _).after (hset _))

theorem decideOverride_keepsMissed (p tag : Nat) (g : Bool) : KeepsMissed s (s.decideOverride p tag g) := by
  have hshow : ∀ o, KeepsMissed s (s.showAt p o) := fun o => .of_within (showAt_within s p o)
  unfold decideOverride
  dsimp only
  split
  · exact hshow _
  · split
    · exact hshow _
    · split
      · exact hshow _
      · split
        · exact hshow _
        · split
          · split
            · exact hshow _
            · exact grantOverride_keepsMissed s _ _ _
          · exact .of_within (endOverride_within s _ _ _)

theorem takeOverride_keepsMissed (p tag d : Nat) : KeepsMissed s (s.takeOverride p tag d) := by
  unfold takeOverride
  have hdecide : ∀ g, KeepsMissed s ((s.copyRole p).decideOverride p tag g) := fun g =>
    (decideOverride_keepsMissed _ p tag g).after (.of_within (copyRole_within s p))
  split
  · exact hdecide true
  · split
    · exact hdecide false
    · exact .of_within (countLineBadMessage_within s)

theorem createEntry_keepsMissed (c : Captured) (o : Bool) (k : Nat) : KeepsMissed s (s.createEntry c o k) := by
  unfold createEntry
  split
  · exact .refl s
  · dsimp only
    split
    · exact (KeepsMissed.of_within (reportEntry_within _ _ _)).after ((KeepsMissed.of_within (setOverrides_within _ _)).after
        ((setEntry_keepsMissed _ _ _).after (.of_recs rfl)))
    · exact (forward_keepsMissed _ _ _).after (.of_recs rfl)

theorem carryThrough_keepsMissed (p : Nat) (r : Request) (e : CodeEntry) (x : Passed) :
    KeepsMissed s (s.carryThrough p r e x) := by
  unfold carryThrough
  dsimp only
  have hbase : ∀ f : Tables → Screen → Screen, KeepsMissed s (((s.reserveItems x.items).takeClaim x.claim).onScreen p f) :=
    fun f => (KeepsMissed.of_within (onScreen_within _ p f)).after ((KeepsMissed.of_within (takeClaim_within _ _)).after
      (.of_within (reserveItems_within s _)))
  split
  · exact (createEntry_keepsMissed _ _ _ _).after (hbase _)
  · exact (KeepsMissed.of_within (testCompletion_within _)).after ((post_keepsMissed _ _ _ _).after (hbase _))

theorem takeRequest_keepsMissed (p : Nat) (r : Request) : KeepsMissed s (s.takeRequest p r) := by
  have hrole : KeepsMissed s (s.copyRole p) := .of_within (copyRole_within s p)
  have hrefuse : ∀ f, KeepsMissed s ((s.copyRole p).refuse p r f) := fun f =>
    (KeepsMissed.of_within (refuse_within _ p r f)).after hrole
  unfold takeRequest
  dsimp only
  split
  · exact hrefuse _
  · split
    · exact hrefuse _
    · split
      · exact hrefuse _
      · split
        · exact hrefuse _
        · exact (carryThrough_keepsMissed _ _ _ _ _).after hrole

/-! ### Messages and frames of the units -/

theorem deliver_keepsMissed (p : Nat) (m : InMsg) : KeepsMissed s (s.deliver p m) := by
  cases m with
  | signOn teller => exact .of_within (takeSignOn_within s p teller)
  | signOff => exact .of_within (takeSignOff_within s p)
  | suspend => exact .of_within (takeSuspend_within s p)
  | resume teller => exact .of_within (takeResume_within s p teller)
  | request r => exact takeRequest_keepsMissed s p r
  | cancel => exact .of_within (takeCancel_within s p)
  | override tag decision => exact takeOverride_keepsMissed s p tag decision
  | count d lists => exact .of_within (takeCount_within s p d lists)
  | reopen d => exact .of_within (takeReopen_within s p d)
  | acceptDiff d lists => exact .of_within (takeAcceptDiff_within s p d lists)
  | form f => exact .of_within (takeFormMessage_within s p f)
  | close => exact .of_within (takeClose_within s p)
  | bookIn account layout page line => exact .of_only (takeBookIn_only s p account layout page line)
  | bookOut => exact .of_only (takeBookOut_only s p)
  | status v =>
    cases v with
    | ready => exact .of_only (takeReady_only s p)
    | lineDone => exact .of_only (takeLineDone_only s p)
    | jam => exact .of_only (takeJam_only s p)
    | jamCleared => exact .of_only (takeJamCleared_only s p)
    | turned => exact .of_only (takeTurned_only s p)
  | opened => exact .of_within (takeOpened_within s p)
  | closed => exact .of_within (takeClosed_within s p)
  | fault => exact .of_within (takeFault_within s p)
  | bad => exact .of_within (countLineBadMessage_within s)

theorem receive_keepsMissed (f : RxFrame) : KeepsMissed s (s.receive f) := by
  obtain ⟨hquiet, _⟩ | ⟨t, p, m, hbefore, _, heq⟩ := receive_cases s f
  · exact hquiet.missed
  · rw [heq]
    exact (deliver_keepsMissed t p m).after hbefore.missed

theorem receiveBytes_keepsMissed (bs : List Byte) : KeepsMissed s (s.receiveBytes bs) := by
  unfold receiveBytes
  split
  · exact receive_keepsMissed s _
  · exact .refl s

/-! ### Starts and the office link -/

/-- A start gives every position a missed count of 0 (R48). -/
theorem start_keepsMissed {t : State} (sent : List LineFrame) (h : t.line.recs = (Line.start sent).recs) : KeepsMissed s t := by
  intro _ q
  have hrec : t.posRec q = PosRec.start := by
    unfold posRec
    rw [h]
    exact rd1_replicate _ _
  rw [hrec]
  exact Nat.zero_le 3

theorem warmStart_keepsMissed (n : Nat) (b : Bool) : KeepsMissed s (s.warmStart n b) :=
  (KeepsMissed.of_within (warmCompletion_within _)).after ((KeepsMissed.of_within (warmScreens_within _)).after
    ((KeepsMissed.of_within (warmDay_within _)).after ((KeepsMissed.of_within (warmEntries_within _)).after
      ((KeepsMissed.of_within (restartRecord_within _)).after ((KeepsMissed.of_within (warmDrawers_within _)).after
        (start_keepsMissed s s.line.sent rfl))))))

theorem coldStart_keepsMissed (n : Nat) (b : Bool) : KeepsMissed s (s.coldStart n b) := start_keepsMissed s s.line.sent rfl

theorem powerOn_keepsMissed (n : Nat) (b : Bool) : KeepsMissed s (s.powerOn n b) := by
  unfold powerOn
  split
  · exact warmStart_keepsMissed s n b
  · exact coldStart_keepsMissed s n b

theorem restart_keepsMissed (tag : Nat) (bs : List Byte) (n : Nat) : KeepsMissed s (s.restart tag bs n) := by
  unfold restart
  split
  · exact coldStart_keepsMissed s n _
  · split
    · exact warmStart_keepsMissed s n _
    · exact .of_within (reply_within s _ _ _)

theorem stopSurvey_keepsMissed : KeepsMissed s s.stopSurvey := by
  unfold stopSurvey
  split
  · dsimp only
    split <;> exact .of_recs rfl
  · exact .refl s

theorem mgmtSurveySummary_keepsMissed (tag : Nat) (bs : List Byte) : KeepsMissed s (s.mgmtSurveySummary tag bs) := by
  unfold mgmtSurveySummary answerDo
  split
  · exact (KeepsMissed.of_within (reply_within _ _ _ _)).after (stopSurvey_keepsMissed s)
  · exact .of_within (reply_within s _ _ _)

theorem takeMgmt_keepsMissed (tag : Nat) (bs : List Byte) : KeepsMissed s (s.takeMgmt tag bs) := by
  unfold takeMgmt
  split
  · exact (KeepsMissed.of_within (reply_within _ _ _ _)).after (.of_within (drawFree_within s))
  · split
    · exact .of_within (answerRead_within s _ _ _ _ _)
    · exact .of_within (answerRead_within s _ _ _ _ _)
    · exact .of_within (mgmtTableWrite_within s _ _)
    · exact .of_within (answerRead_within s _ _ _ _ _)
    · exact .of_within (mgmtLock_within s _ _)
    · exact .of_within (mgmtOpen_within s _ _)
    · exact .of_within (mgmtCut_within s _ _)
    · exact .of_within (mgmtReopen_within s _ _)
    · exact .of_within (mgmtResume_within s _ _)
    · exact .of_within (answerRead_within s _ _ _ _ _)
    · exact .of_within (answerRead_within s _ _ _ _ _)
    · exact .of_within (answerRead_within s _ _ _ _ _)
    · exact .of_within (answerRead_within s _ _ _ _ _)
    · exact .of_within (mgmtReadCounters_within s _ _)
    · exact .of_within (mgmtSurvey_within s _ _)
    · exact .of_within (answerRead_within s _ _ _ _ _)
    · exact mgmtSurveySummary_keepsMissed s _ _
    · exact restart_keepsMissed s _ _ _
    · exact .of_within (reply_within s _ _ _)

theorem filterNode_keepsMissed (k n tag : Nat) (bs : List Byte) : KeepsMissed s (s.filterNode k n tag bs) := by
  unfold filterNode
  split
  · unfold route
    split
    · exact takeAnswer_keepsMissed s _ _
    · exact takeMgmt_keepsMissed s _ _
    · exact .of_within (takeAck_within s _)
    · exact .of_within (takeNack_within s _)
    · exact .refl s
  · exact .of_within (countLinkWrongNode_within s)

theorem receiveOffice_keepsMissed (bs : List Byte) : KeepsMissed s (s.receiveOffice bs) := by
  unfold receiveOffice
  split
  · exact .of_within (dropBadFrame_within s)
  · exact filterNode_keepsMissed s _ _ _ _

/-! ### Commands and ticks -/

theorem tick_keepsMissed : KeepsMissed s s.tick := by
  unfold tick
  dsimp only
  refine KeepsMissed.after (.of_within (withPending_within _ _)) (KeepsMissed.after (.of_within (tickDay_within _)) ?_)
  refine (KeepsMissed.fold (fun t p => .of_within (tickPrinter_within t p)) _ _).after
    ((KeepsMissed.fold (fun t d => .of_within (tickDrawer_within t d)) _ _).after
      ((KeepsMissed.fold (fun t i => .of_within (tickEntry_within t i)) _ _).after ?_))
  unfold tickLine
  dsimp only
  split <;> exact .of_recs rfl

/-- No command takes a missed count out of its range. -/
theorem exec_keepsMissed {c : Instr} {t : State} (h : exec c s = .next t) : KeepsMissed s t := by
  cases c with
  | powerOn straps retv => cases h; exact powerOn_keepsMissed s _ _
  | restart tag params straps => cases h; exact restart_keepsMissed s _ _ _
  | badFrame frame => cases h; exact receiveOffice_keepsMissed s _
  | wrongNodeFrame kind node tag payload => cases h; exact filterNode_keepsMissed s _ _ _ _
  | answer tag payload => cases h; exact takeAnswer_keepsMissed s _ _
  | readSurveySummary tag params => cases h; exact mgmtSurveySummary_keepsMissed s _ _
  | startSurvey tag params => cases h; exact .of_within (mgmtSurvey_within s _ _)
  | owedNoticeQueued pos => cases h; exact .of_only (queueOwed_only s pos)
  | pacingTimerExpiry pos => cases h; exact .of_only (pacingExpires_only s pos)
  | lineCompletionWaitExpiry pos => cases h; exact .of_only (lineWaitExpires_only s pos)
  | bookWaitExpiry pos => cases h; exact .of_only (bookWaitExpires_only s pos)
  | outboundQueueRoom pos unit => cases h; exact (queueRoom_operates s _ _).missed
  | rollCallTimerExpiry => cases h; exact (rollTimerExpires_operates s).missed
  | lineSilent => cases h; exact .of_recs rfl
  | grant => cases h; exact (grant_operates s).missed
  | unitReplyWaitExpiry => cases h; exact (replyWaitExpires_operates s).missed
  | lineFrameDiscarded frame | inboundFrameRejected frame | surveyProbeBadReply frame =>
    cases h; exact receiveBytes_keepsMissed s _
  | rollAnswer | accept | reject | busy | echo | repeatMessage | lineBadMessage | signOn | signOff | suspend | resume | request
  | cancel | override | count | acceptDiff | reopen | form | close | bookIn | bookOut | statusReady | lineDone | turned | jam
  | jamCleared | opened | closed | fault => cases h; exact receive_keepsMissed s _
  | _ => exact .of_recs (congrArg Line.recs (exec_keeps h (a := .line) (of_decide_eq_true rfl)))

/-- A step keeps the missed counts within their range. -/
theorem step_keepsMissed {t : State} (h : step s = .next t) : KeepsMissed s t := by
  unfold step at h
  split at h
  · injection h with h
    rw [← h]
    exact tick_keepsMissed s
  · exact (exec_keepsMissed _ h).after (.of_recs rfl)

end State

end Sys2Proof.Machine

namespace Sys2Proof.Proofs

open Sys2Proof.Machine Sys2Proof.Machine.State

/-- Settles O55: no command and no tick breaks a capacity or the window; the missed counts by the operations that reach them. -/
theorem capacitiesKept : Obligations.CapacitiesKept := by
  unfold Obligations.CapacitiesKept
  intro s t h
  have hkeeps : ∀ a ∈ Aspect.unbroken, a ≠ .pending → a.Holds s t := fun a ha hp => step_keeps h ha hp
  exact ⟨fun hb =>
    { queue := hkeeps .queueBounded (by decide) (by decide) hb.queue
      units := hkeeps .unitsBounded (by decide) (by decide) hb.units
      counters := hkeeps .countersBounded (by decide) (by decide) hb.counters
      lock := hkeeps .lockBounded (by decide) (by decide) hb.lock
      grantCount := hkeeps .grantBounded (by decide) (by decide) hb.grantCount
      missed := step_keepsMissed s h hb.missed
      tagCounter := hkeeps .tagBounded (by decide) (by decide) hb.tagCounter
      clock := hkeeps .clockBounded (by decide) (by decide) hb.clock },
    hkeeps .windowSound (by decide) (by decide)⟩

end Sys2Proof.Proofs
end

