-- ==== Sys2Proof/Proofs/OverrideLists.lean ====
section
/-! The override order list holds each waiting override once and no other entry (R79): what each operation on the table does to
the entries' places and to the list (O56). -/

set_option Elab.async false

namespace Sys2Proof.Machine

/-- The list stays sound. -/
def KeepsOverrides (s t : State) : Prop := s.OverridesSound → t.OverridesSound

/-- The place holds an entry that stands on the override order list: a waiting override not yet granted (R79). -/
def onList (x : Option Entry) : Bool := x.any fun e => e.state == .waitingOverride && !e.granted

theorem onList_iff {x : Option Entry} :
    onList x = true ↔ ∃ e, x = some e ∧ e.state = .waitingOverride ∧ e.granted = false := by
  cases x <;> simp [onList]

namespace State

variable {s t u : State} {i : Nat} {e : Entry}

/-- The list has room for the 32 entries because it names none twice (R79). -/
theorem overridesSound_iff : s.OverridesSound ↔ s.overrides.Nodup ∧ ∀ i, i ∈ s.overrides ↔ onList (s.entry i) = true := by
  constructor
  · exact fun h => ⟨h.once, fun i => (h.listed i).trans onList_iff.symm⟩
  · rintro ⟨honce, hlisted⟩
    refine ⟨honce, fun i => (hlisted i).trans onList_iff, ?_⟩
    have hplaces : s.overrides ⊆ List.range 32 := fun i hi => by
      obtain ⟨e, he, -⟩ := onList_iff.mp ((hlisted i).mp hi)
      exact List.mem_range.mpr (entry_index s he)
    exact ((honce.subperm hplaces).length_le).trans_eq List.length_range

end State

namespace KeepsOverrides

open State

variable {s t u : State} {i : Nat} {x : Option Entry}

theorem refl (s : State) : KeepsOverrides s s := id

theorem after (h : KeepsOverrides t u) (g : KeepsOverrides s t) : KeepsOverrides s u := h ∘ g

theorem of_list (ho : t.overrides = s.overrides) (h : ∀ i, onList (t.entry i) = onList (s.entry i)) : KeepsOverrides s t := by
  intro hs
  obtain ⟨honce, hlisted⟩ := overridesSound_iff.mp hs
  exact overridesSound_iff.mpr ⟨ho ▸ honce, fun i => by rw [ho, hlisted, h]⟩

theorem of_within {may : List Aspect} (h : Within may s t) (he : Aspect.entries ∉ may := by decide)
    (ho : Aspect.overrides ∉ may := by decide) : KeepsOverrides s t :=
  of_list (h .overrides ho) fun i => congrArg onList (entry_congr (h .entries he) i)

/-- An entry changes, on the list as before or off it as before. -/
theorem of_entry (ho : t.overrides = s.overrides) (he : t.entries = wr s.entries i x) (hx : onList x = onList (s.entry i)) :
    KeepsOverrides s t := by
  refine of_list ho fun j => ?_
  have hread : t.entry j = if i = j ∧ i < 32 then x else s.entry j := (congrArg (rd · j none) he).trans (rd_wr ..)
  rw [hread]
  split
  · next h => rw [← h.1, hx]
  · rfl

/-- An entry leaves the list. -/
theorem of_left (ho : t.overrides = s.overrides.filter (· != i)) (he : t.entries = wr s.entries i x) (hi : i < 32)
    (hx : onList x = false) : KeepsOverrides s t := by
  intro hs
  obtain ⟨honce, hlisted⟩ := overridesSound_iff.mp hs
  refine overridesSound_iff.mpr ⟨ho ▸ honce.filter _, fun j => ?_⟩
  have hread : t.entry j = if i = j ∧ i < 32 then x else s.entry j := (congrArg (rd · j none) he).trans (rd_wr ..)
  rw [ho, List.mem_filter, hlisted, hread]
  by_cases hij : i = j
  · rw [if_pos ⟨hij, hi⟩, hx, hij]
    simp
  · rw [if_neg fun h => hij h.1]
    simp [Ne.symm hij]

/-- A new entry joins the list at its tail. -/
theorem of_joined (ho : t.overrides = s.overrides ++ [i]) (he : t.entries = wr s.entries i x) (hi : i < 32)
    (hfree : s.entry i = none) (hx : onList x = true) : KeepsOverrides s t := by
  intro hs
  obtain ⟨honce, hlisted⟩ := overridesSound_iff.mp hs
  have hnew : i ∉ s.overrides := by
    rw [hlisted, hfree]
    decide
  refine overridesSound_iff.mpr ⟨?_, fun j => ?_⟩
  · rw [ho]
    exact List.nodup_append.mpr ⟨honce, List.nodup_singleton i, fun a ha b hb => by
      rw [List.mem_singleton.mp hb]
      exact fun hab => hnew (hab ▸ ha)⟩
  · have hread : t.entry j = if i = j ∧ i < 32 then x else s.entry j := (congrArg (rd · j none) he).trans (rd_wr ..)
    rw [ho, List.mem_append, List.mem_singleton, hlisted, hread]
    by_cases hij : i = j
    · simp [hij, hij ▸ hi, hx]
    · simp [hij, Ne.symm hij]

theorem fold {α : Type} {f : State → α → State} (h : ∀ t x, KeepsOverrides t (f t x)) (l : List α) (s : State) :
    KeepsOverrides s (l.foldl f s) := by
  induction l generalizing s with
  | nil => exact refl s
  | cons x l ih => exact (ih (f s x)).after (h s x)

end KeepsOverrides

namespace State

variable {s : State} {i : Nat} {e : Entry}

/-! ### The entries and the list after each operation on the table -/

theorem offList_of_state (hst : e.state ≠ .waitingOverride) : onList (some e) = false := by
  simp [onList, hst]

/-- An entry off the list is freed, and completion is tested. -/
theorem freed_keepsOverrides {t : State} {may : List Aspect} (h : Within may s t) (hoff : onList (s.entry i) = false)
    (he : Aspect.entries ∉ may := by decide) (ho : Aspect.overrides ∉ may := by decide) :
    KeepsOverrides s (t.freeEntry i).testCompletion := by
  have hcompletion := testCompletion_within (t.freeEntry i)
  refine .of_entry (i := i) (x := none) ((hcompletion .overrides (by decide)).trans (h .overrides ho)) ?_ hoff.symm
  exact (hcompletion .entries (by decide)).trans (congrArg (wr · i none) (h .entries he))

theorem approve_keepsOverrides (he : s.entry i = some e) (hst : e.state = .waitingCentre) (a : Answer) :
    KeepsOverrides s (s.approve i e a) := by
  have hoff : onList (s.entry i) = false := he ▸ offList_of_state (by rw [hst]; decide)
  unfold approve
  split
  · exact freed_keepsOverrides (answerScreen_within s _ _ _) hoff
  · exact freed_keepsOverrides (post_within s _ _ _) hoff

theorem decline_keepsOverrides (he : s.entry i = some e) (hst : e.state = .waitingCentre) (a : Answer) :
    KeepsOverrides s (s.decline i e a) := by
  have heq := declined_eq (s := s) (i := i) (e := e) a
  refine KeepsOverrides.after (.of_within (testCompletion_within (s.declined i e a))) (.of_entry (i := i) (x := none) ?_ ?_ ?_)
  · rw [heq]
  · rw [heq]
  · exact (he ▸ offList_of_state (by rw [hst]; decide)).symm

theorem takeAnswer_keepsOverrides (tag : Nat) (bs : List Byte) : KeepsOverrides s (s.takeAnswer tag bs) := by
  unfold takeAnswer
  split
  · exact .of_within (dropBadFrame_within s)
  · split
    · exact .of_within (countLateAnswer_within s)
    · next h =>
      obtain ⟨he, htest⟩ := findEntry_some s h
      have hst := eq_of_beq (Bool.and_eq_true _ _ ▸ htest).1
      split
      · exact approve_keepsOverrides he hst _
      · exact decline_keepsOverrides he hst _

theorem offerReversal_keepsOverrides (i : Nat) : KeepsOverrides s (s.offerReversal i) := by
  unfold offerReversal
  split
  · next e he =>
    split
    · next h =>
      have hqueued := enqueue_within s (.reversal e.tag (e.reason.getD .timeout))
      refine .of_entry (i := i) (x := none) (hqueued .overrides (by decide))
        (congrArg (wr · i none) (hqueued .entries (by decide))) ?_
      exact (he ▸ offList_of_state (by rw [h.1]; decide)).symm
    · exact .refl s
  · exact .refl s

theorem endCentre_keepsOverrides (he : s.entry i = some e) (hst : e.state = .waitingCentre) (reason : ExpiryReason)
    (o : Shown) : KeepsOverrides s (s.endCentre i e reason o) := by
  have hoff : onList (s.entry i) = false := he ▸ offList_of_state (by rw [hst]; decide)
  unfold endCentre
  split
  · exact freed_keepsOverrides (showAt_within s _ _) hoff
  · have heq := reversed_eq (s := s) (i := i) (e := e) reason o
    refine (KeepsOverrides.of_within (testCompletion_within _)).after ((offerReversal_keepsOverrides (s := s.reversed i e reason o)
      i).after (.of_entry (i := i) (x := some (e.reversing reason)) ?_ ?_ ?_))
    · rw [heq]
    · rw [heq]
    · exact hoff ▸ offList_of_state (e := e.reversing reason) (by simp [Entry.reversing])

theorem endOverride_keepsOverrides (he : s.entry i = some e) (o : Shown) : KeepsOverrides s (s.endOverride i e o) := by
  have heq := overrideEnded_eq (s := s) (i := i) (e := e) o
  rw [endOverride_eq]
  refine (KeepsOverrides.of_within (testCompletion_within _)).after (.of_left (i := i) (x := none) ?_ ?_ (entry_index s he) rfl)
  · rw [heq]
  · rw [heq]

theorem forward_entries : (s.forward i e).entries = wr s.entries i (some { e with
    state := .waitingCentre, granted := false, timer := some s.tables.params.approval }) := by
  rw [forward_eq]

theorem forward_overrides : (s.forward i e).overrides = s.overrides := by
  rw [forward_eq]

/-- What a grant makes of the entry: it is posted and freed, it goes to the centre, or it waits for a slot (R82). -/
theorem grantOverride_cases (sup : Nat) :
    s.grantOverride i e sup = (((s.granting i e sup).post e.req (some e.tag) none).freeEntry i).testCompletion ∨
    s.grantOverride i e sup = (s.granting i e sup).forward i (grantedEntry e) ∨
    s.grantOverride i e sup =
      ((s.granting i e sup).setEntry i (some { grantedEntry e with granted := true })).reportEntry e.req.pos .queued := by
  cases hauth : e.req.snap.auth with
  | branch => exact .inl (grantOverride_of_branch hauth)
  | central =>
    by_cases hroom : s.port.queue.length + s.nearlyFullNotice.length < 64
    · exact .inr (.inl (grantOverride_of_room hauth hroom))
    · exact .inr (.inr (grantOverride_of_full hauth (Nat.le_of_not_lt hroom)))

theorem grantOverride_keepsOverrides (he : s.entry i = some e) (sup : Nat) : KeepsOverrides s (s.grantOverride i e sup) := by
  have hi := entry_index s he
  have heq := granting_eq (s := s) (i := i) (e := e) (sup := sup)
  have hlist : (s.granting i e sup).overrides = s.overrides.filter (· != i) := by rw [heq]
  have htable : (s.granting i e sup).entries = wr s.entries i (some (grantedEntry e)) := by rw [heq]
  obtain h | h | h := grantOverride_cases (s := s) (i := i) (e := e) sup
  · have hpost := post_within (s.granting i e sup) e.req (some e.tag) none
    rw [h]
    refine (KeepsOverrides.of_within (testCompletion_within _)).after (.of_left (i := i) (x := none) ?_ ?_ hi rfl)
    · exact (hpost .overrides (by decide)).trans hlist
    · refine (congrArg (wr · i none) (hpost .entries (by decide))).trans ?_
      rw [htable, wr_wr]
  · rw [h]
    refine .of_left (i := i) ?_ ?_ hi (offList_of_state (e := { grantedEntry e with
      state := .waitingCentre, granted := false, timer := some (s.granting i e sup).tables.params.approval }) (by simp))
    · rw [forward_overrides, hlist]
    · rw [forward_entries, htable, wr_wr]
  · have hreport := reportEntry_within ((s.granting i e sup).setEntry i (some { grantedEntry e with granted := true }))
      e.req.pos .queued
    rw [h]
    refine .of_left (i := i) (x := some { grantedEntry e with granted := true }) ?_ ?_ hi (by simp [onList])
    · exact (hreport .overrides (by decide)).trans hlist
    · refine (hreport .entries (by decide)).trans ((congrArg (wr · i _) htable).trans ?_)
      rw [wr_wr]

theorem queueGranted_keepsOverrides (i : Nat) : KeepsOverrides s (s.queueGranted i) := by
  unfold queueGranted
  split
  · next e he =>
    split
    · next h =>
      refine .of_entry (i := i) forward_overrides forward_entries ?_
      rw [he]
      simp [onList, h.2.1]
    · exact .refl s
  · exact .refl s

/-! ### Messages of the units -/

theorem decideOverride_keepsOverrides (p tag : Nat) (g : Bool) : KeepsOverrides s (s.decideOverride p tag g) := by
  have hshow : ∀ o, KeepsOverrides s (s.showAt p o) := fun o => .of_within (showAt_within s p o)
  unfold decideOverride
  dsimp only
  split
  · exact hshow _
  · split
    · exact hshow _
    · next h =>
      obtain ⟨he, -⟩ := findEntry_some s h
      split
      · exact hshow _
      · split
        · exact hshow _
        · split
          · split
            · exact hshow _
            · exact grantOverride_keepsOverrides he _
          · exact endOverride_keepsOverrides he _

theorem takeOverride_keepsOverrides (p tag d : Nat) : KeepsOverrides s (s.takeOverride p tag d) := by
  have hdecide : ∀ g, KeepsOverrides s ((s.copyRole p).decideOverride p tag g) := fun g =>
    (decideOverride_keepsOverrides p tag g).after (.of_within (copyRole_within s p))
  unfold takeOverride
  split
  · exact hdecide true
  · split
    · exact hdecide false
    · exact .of_within (countLineBadMessage_within s)

theorem takeCancel_keepsOverrides (p : Nat) : KeepsOverrides s (s.takeCancel p) := by
  unfold takeCancel
  split
  · exact .refl s
  · next i e h =>
    obtain ⟨he, htest⟩ := findEntry_some s h
    split
    · exact endOverride_keepsOverrides he _
    · next hst =>
      refine endCentre_keepsOverrides he ?_ _ _
      simp only [Entry.waits, Bool.and_eq_true, bne_iff_ne] at htest
      cases hstate : e.state with
      | waitingCentre => rfl
      | waitingOverride => exact absurd hstate hst
      | reversing => exact absurd hstate htest.1

theorem createEntry_keepsOverrides (c : Captured) (o : Bool) (k : Nat) : KeepsOverrides s (s.createEntry c o k) := by
  cases hfree : s.freeIndex with
  | none =>
    unfold createEntry
    rw [hfree]
    exact .refl s
  | some i =>
    obtain ⟨h32, hnone⟩ := freeIndex_some s hfree
    have heq := createEntry_eq (c := c) (claim := k) hfree o
    have htable : (s.createEntry c o k).entries = wr s.entries i (some (s.madeEntry c o k)) := by rw [heq]
    cases o with
    | true => exact .of_joined (by rw [heq]; rfl) htable h32 hnone rfl
    | false => exact .of_entry (by rw [heq]; rfl) htable (hnone ▸ rfl)

theorem takeRequest_keepsOverrides (p : Nat) (r : Request) : KeepsOverrides s (s.takeRequest p r) := by
  have hrole : KeepsOverrides s (s.copyRole p) := .of_within (copyRole_within s p)
  have hrefuse : ∀ f, KeepsOverrides s ((s.copyRole p).refuse p r f) := fun f =>
    (KeepsOverrides.of_within (refuse_within _ p r f)).after hrole
  unfold takeRequest
  dsimp only
  split
  · exact hrefuse _
  · split
    · exact hrefuse _
    · split
      · exact hrefuse _
      · split
        · exact hrefuse _
        · refine KeepsOverrides.after ?_ hrole
          unfold carryThrough
          dsimp only
          have hbase : ∀ u items k f, KeepsOverrides u (((u.reserveItems items).takeClaim k).onScreen p f) := fun u items k f =>
            (KeepsOverrides.of_within (onScreen_within _ p f)).after ((KeepsOverrides.of_within (takeClaim_within _ k)).after
              (.of_within (reserveItems_within u items)))
          split
          · exact (createEntry_keepsOverrides _ _ _).after (hbase _ _ _ _)
          · exact (KeepsOverrides.of_within (testCompletion_within _)).after
              ((KeepsOverrides.of_within (post_within _ _ _ _)).after (hbase _ _ _ _))

theorem deliver_keepsOverrides (p : Nat) (m : InMsg) : KeepsOverrides s (s.deliver p m) := by
  cases m with
  | request r => exact takeRequest_keepsOverrides p r
  | cancel => exact takeCancel_keepsOverrides p
  | override tag decision => exact takeOverride_keepsOverrides p tag decision
  | signOn teller => exact .of_within (takeSignOn_within s p teller)
  | signOff => exact .of_within (takeSignOff_within s p)
  | suspend => exact .of_within (takeSuspend_within s p)
  | resume teller => exact .of_within (takeResume_within s p teller)
  | count d lists => exact .of_within (takeCount_within s p d lists)
  | reopen d => exact .of_within (takeReopen_within s p d)
  | acceptDiff d lists => exact .of_within (takeAcceptDiff_within s p d lists)
  | form f => exact .of_within (takeFormMessage_within s p f)
  | close => exact .of_within (takeClose_within s p)
  | bookIn account layout page line => exact .of_within (takeBookIn_within s p account layout page line)
  | bookOut => exact .of_within (takeBookOut_within s p)
  | status v =>
    cases v with
    | ready => exact .of_within (takeReady_within s p)
    | lineDone => exact .of_within (takeLineDone_within s p)
    | jam => exact .of_within (takeJam_within s p)
    | jamCleared => exact .of_within (takeJamCleared_within s p)
    | turned => exact .of_within (takeTurned_within s p)
  | opened => exact .of_within (takeOpened_within s p)
  | closed => exact .of_within (takeClosed_within s p)
  | fault => exact .of_within (takeFault_within s p)
  | bad => exact .of_within (countLineBadMessage_within s)

theorem receive_keepsOverrides (f : RxFrame) : KeepsOverrides s (s.receive f) := by
  obtain ⟨_, hquiet⟩ | ⟨t, p, m, _, hbefore, heq⟩ := receive_cases s f
  · exact .of_within hquiet
  · rw [heq]
    exact (deliver_keepsOverrides p m).after (.of_within hbefore)

theorem receiveBytes_keepsOverrides (bs : List Byte) : KeepsOverrides s (s.receiveBytes bs) := by
  unfold receiveBytes
  split
  · exact receive_keepsOverrides _
  · exact .refl s

/-! ### Timers, starts and the office link -/

theorem approvalExpires_keepsOverrides (i : Nat) : KeepsOverrides s (s.approvalExpires i) := by
  unfold approvalExpires
  split
  · next e he =>
    split
    · next h => exact endCentre_keepsOverrides he h.1 _ _
    · exact .refl s
  · exact .refl s

theorem overrideExpires_keepsOverrides (i : Nat) : KeepsOverrides s (s.overrideExpires i) := by
  unfold overrideExpires
  split
  · next e he =>
    split
    · exact endOverride_keepsOverrides he _
    · exact .refl s
  · exact .refl s

theorem queueReversal_keepsOverrides (i : Nat) : KeepsOverrides s (s.queueReversal i) := by
  unfold queueReversal
  split
  · split
    · exact (KeepsOverrides.of_within (testCompletion_within _)).after (offerReversal_keepsOverrides i)
    · exact .refl s
  · exact .refl s

theorem tickEntry_keepsOverrides (i : Nat) : KeepsOverrides s (s.tickEntry i) := by
  unfold tickEntry
  split
  · exact .refl s
  · next e he => exact .of_entry (i := i) (x := some { e with timer := tickDown e.timer }) rfl rfl (he ▸ rfl)

theorem tick_keepsOverrides : KeepsOverrides s s.tick := by
  unfold tick
  dsimp only
  refine KeepsOverrides.after (.of_within (withPending_within _ _)) (KeepsOverrides.after (.of_within (tickDay_within _)) ?_)
  exact (KeepsOverrides.fold (fun t p => .of_within (tickPrinter_within t p)) _ _).after
    ((KeepsOverrides.fold (fun t d => .of_within (tickDrawer_within t d)) _ _).after
      ((KeepsOverrides.fold (fun t i => tickEntry_keepsOverrides i) _ _).after (.of_within (tickLine_within s))))

/-- A state without entries and with an empty list has a sound list. -/
theorem overridesSound_of_empty {t : State} (he : t.entries = Vector.replicate 32 none) (ho : t.overrides = []) :
    t.OverridesSound := by
  refine overridesSound_iff.mpr ⟨ho ▸ List.nodup_nil, fun i => ?_⟩
  have hnone : t.entry i = none := (congrArg (rd · i none) he).trans (rd_replicate _ _)
  rw [ho, hnone]
  exact ⟨fun h => absurd h List.not_mem_nil, fun h => absurd h (by decide)⟩

theorem coldStart_keepsOverrides (n : Nat) (b : Bool) : KeepsOverrides s (s.coldStart n b) :=
  fun _ => overridesSound_of_empty rfl rfl

theorem warmStart_keepsOverrides (n : Nat) (b : Bool) : KeepsOverrides s (s.warmStart n b) := by
  rw [warmStart_eq]
  exact (KeepsOverrides.of_within (warmCompletion_within _)).after
    fun _ => overridesSound_of_empty (warmKept_entries s n b) (warmKept_within s n b .overrides (by decide))

theorem powerOn_keepsOverrides (n : Nat) (b : Bool) : KeepsOverrides s (s.powerOn n b) := by
  unfold powerOn
  split
  · exact warmStart_keepsOverrides n b
  · exact coldStart_keepsOverrides n b

theorem restart_keepsOverrides (tag : Nat) (bs : List Byte) (n : Nat) : KeepsOverrides s (s.restart tag bs n) := by
  unfold restart
  split
  · exact coldStart_keepsOverrides n _
  · split
    · exact warmStart_keepsOverrides n _
    · exact .of_within (reply_within s _ _ _)

theorem takeMgmt_keepsOverrides (tag : Nat) (bs : List Byte) : KeepsOverrides s (s.takeMgmt tag bs) := by
  unfold takeMgmt
  split
  · exact (KeepsOverrides.of_within (reply_within _ _ _ _)).after (.of_within (drawFree_within s))
  · split
    · exact .of_within (answerRead_within s _ _ _ _ _)
    · exact .of_within (answerRead_within s _ _ _ _ _)
    · exact .of_within (mgmtTableWrite_within s _ _)
    · exact .of_within (answerRead_within s _ _ _ _ _)
    · exact .of_within (mgmtLock_within s _ _)
    · exact .of_within (mgmtOpen_within s _ _)
    · exact .of_within (mgmtCut_within s _ _)
    · exact .of_within (mgmtReopen_within s _ _)
    · exact .of_within (mgmtResume_within s _ _)
    · exact .of_within (answerRead_within s _ _ _ _ _)
    · exact .of_within (answerRead_within s _ _ _ _ _)
    · exact .of_within (answerRead_within s _ _ _ _ _)
    · exact .of_within (answerRead_within s _ _ _ _ _)
    · exact .of_within (mgmtReadCounters_within s _ _)
    · exact .of_within (mgmtSurvey_within s _ _)
    · exact .of_within (answerRead_within s _ _ _ _ _)
    · exact .of_within (mgmtSurveySummary_within s _ _)
    · exact restart_keepsOverrides _ _ _
    · exact .of_within (reply_within s _ _ _)

theorem filterNode_keepsOverrides (k n tag : Nat) (bs : List Byte) : KeepsOverrides s (s.filterNode k n tag bs) := by
  unfold filterNode
  split
  · unfold route
    split
    · exact takeAnswer_keepsOverrides _ _
    · exact takeMgmt_keepsOverrides _ _
    · exact .of_within (takeAck_within s _)
    · exact .of_within (takeNack_within s _)
    · exact .refl s
  · exact .of_within (countLinkWrongNode_within s)

theorem receiveOffice_keepsOverrides (bs : List Byte) : KeepsOverrides s (s.receiveOffice bs) := by
  unfold receiveOffice
  split
  · exact .of_within (dropBadFrame_within s)
  · exact filterNode_keepsOverrides _ _ _ _

/-- No command breaks the override order list. -/
theorem exec_keepsOverrides {c : Instr} {t : State} (h : exec c s = .next t) : KeepsOverrides s t := by
  cases c with
  | powerOn straps retv => cases h; exact powerOn_keepsOverrides _ _
  | restart tag params straps => cases h; exact restart_keepsOverrides _ _ _
  | badFrame frame => cases h; exact receiveOffice_keepsOverrides _
  | wrongNodeFrame kind node tag payload => cases h; exact filterNode_keepsOverrides _ _ _ _
  | answer tag payload => cases h; exact takeAnswer_keepsOverrides _ _
  | reversalNoticeQueued index => cases h; exact queueReversal_keepsOverrides _
  | grantedRequestQueued index => cases h; exact queueGranted_keepsOverrides _
  | approvalWaitExpiry index => cases h; exact approvalExpires_keepsOverrides _
  | overrideWaitExpiry index => cases h; exact overrideExpires_keepsOverrides _
  | lineFrameDiscarded frame | inboundFrameRejected frame | surveyProbeBadReply frame =>
    cases h; exact receiveBytes_keepsOverrides _
  | rollAnswer | accept | reject | busy | echo | repeatMessage | lineBadMessage | signOn | signOff | suspend | resume | request
  | cancel | override | count | acceptDiff | reopen | form | close | bookIn | bookOut | statusReady | lineDone | turned | jam
  | jamCleared | opened | closed | fault => cases h; exact receive_keepsOverrides _
  | _ =>
    exact .of_list (exec_keeps h (a := .overrides) (of_decide_eq_true rfl))
      fun i => congrArg onList (entry_congr (exec_keeps h (a := .entries) (of_decide_eq_true rfl)) i)

end State

end Sys2Proof.Machine

namespace Sys2Proof.Proofs

open Sys2Proof.Machine Sys2Proof.Machine.State

/-- Settles O56: the table by the aspects no step breaks, the list by the operations that reach the entries. -/
theorem pendingTableKept : Obligations.PendingTableKept := by
  unfold Obligations.PendingTableKept
  intro s t h
  refine ⟨step_keeps h (a := .entriesSound) (by decide) (by decide), ?_⟩
  unfold step at h
  split at h
  · injection h with h
    rw [← h]
    exact tick_keepsOverrides
  · next rest _ =>
    exact KeepsOverrides.after (exec_keepsOverrides h) (.of_within (withPending_within s rest))

end Sys2Proof.Proofs
end

