-- ==== Sys2Proof/Proofs/EntrySums.lean ====
section
/-! Sums over the entries in use (R93, R175): what one changed place makes of them. -/

set_option Elab.async false

namespace Sys2Proof.Machine

/-- Two figures that agree but at one place have sums that differ by that place. -/
theorem sum_map_change {f g : Nat → Nat} {i : Nat} {l : List Nat} (hi : i ∈ l) (hl : l.Nodup)
    (h : ∀ j, j ≠ i → f j = g j) : (l.map f).sum + g i = (l.map g).sum + f i := by
  induction l with
  | nil => exact absurd hi List.not_mem_nil
  | cons j l ih =>
    obtain ⟨hj, hl⟩ := List.nodup_cons.mp hl
    simp only [List.map_cons, List.sum_cons]
    by_cases hij : i = j
    · subst hij
      have hrest : l.map f = l.map g := List.map_congr_left fun k hk => h k fun hki => hj (hki ▸ hk)
      rw [hrest]
      omega
    · have hsum := ih ((List.mem_cons.mp hi).resolve_left hij) hl
      rw [h j (Ne.symm hij)]
      omega

/-- A figure of an entry in use; a free place counts 0. -/
def figureOf (f : Entry → Nat) (x : Option Entry) : Nat := x.elim 0 f

@[simp] theorem figureOf_none (f : Entry → Nat) : figureOf f none = 0 := rfl

@[simp] theorem figureOf_some (f : Entry → Nat) (e : Entry) : figureOf f (some e) = f e := rfl

namespace State

variable {s t : State} {i : Nat} {x : Option Entry}

theorem overEntries_eq (f : Entry → Nat) : s.overEntries f = ((List.range 32).map fun i => figureOf f (s.entry i)).sum := by
  unfold overEntries
  refine congrArg List.sum (List.map_congr_left fun i _ => ?_)
  cases s.entry i <;> rfl

theorem overEntries_congr (h : t.entries = s.entries) (f : Entry → Nat) : t.overEntries f = s.overEntries f := by
  rw [overEntries_eq, overEntries_eq]
  exact congrArg List.sum (List.map_congr_left fun i _ => congrArg (figureOf f) (entry_congr h i))

theorem entry_of_wr (h : t.entries = wr s.entries i x) (j : Nat) :
    t.entry j = if i = j ∧ i < 32 then x else s.entry j := (congrArg (rd · j none) h).trans (rd_wr ..)

/-- One place of the table changes: the sum gives up its old figure and takes the new one. -/
theorem overEntries_wr (h : t.entries = wr s.entries i x) (hi : i < 32) (f : Entry → Nat) :
    t.overEntries f + figureOf f (s.entry i) = s.overEntries f + figureOf f x := by
  have hchange := sum_map_change (f := fun j => figureOf f (t.entry j)) (g := fun j => figureOf f (s.entry j))
    (List.mem_range.mpr hi) List.nodup_range fun j hj => by
      rw [entry_of_wr h, if_neg fun hc => hj hc.1.symm]
  rw [overEntries_eq, overEntries_eq]
  rw [entry_of_wr h i, if_pos ⟨rfl, hi⟩] at hchange
  exact hchange

/-- An entry's own figure is part of the sum. -/
theorem figure_le_overEntries {e : Entry} (h : s.entry i = some e) (f : Entry → Nat) : f e ≤ s.overEntries f := by
  rw [overEntries_eq]
  have hmem : f e ∈ (List.range 32).map fun j => figureOf f (s.entry j) :=
    List.mem_map.mpr ⟨i, List.mem_range.mpr (entry_index s h), by rw [h]; rfl⟩
  exact List.single_le_sum (fun _ _ => Nat.zero_le _) _ hmem

end State

end Sys2Proof.Machine
end

