-- ==== Sys2Proof/Proofs/FundsFrames.lean ====
section
/-! What leaves every drawer's state and counts as they were (R93): the operations that reach other fields of a drawer alone. -/

set_option Elab.async false

namespace Sys2Proof.Machine.State

variable (s : State)

/-! ### Releases, alerts and the drawer unit -/

theorem clearReleases_funds : FundsKept s s.clearReleases :=
  FundsKept.fold (f := fun s d => s.setDrawer d { s.drawer d with releasePending := false, releaseDelivered := false })
    (fun t d => FundsKept.of_setDrawer (s := t) (d := d)
      (x := { t.drawer d with releasePending := false, releaseDelivered := false }) rfl) allDrawers s

theorem releaseDrawers_funds (ds : List Nat) : FundsKept s (s.releaseDrawers ds) :=
  FundsKept.fold (f := fun s d => (s.setDrawer d { s.drawer d with releasePending := true }).offerRelease d)
    (fun t d => (FundsKept.of_within (offerRelease_within (t.setDrawer d { t.drawer d with releasePending := true }) d)).after
      (.of_setDrawer rfl)) _ s

theorem ceilingTest_funds (d : Nat) : FundsKept s (s.ceilingTest d) := by
  intro e
  rw [ceilingTest_rest]
  rfl

theorem drawerOpens_funds (d : Nat) : FundsKept s (s.drawerOpens d) := by
  unfold drawerOpens
  dsimp only
  generalize (if (s.drawer d).openings < 65535 then (s.drawer d).openings + 1 else (s.drawer d).openings) = n
  have hset : ∀ x : Drawer, x.funds = (s.drawer d).funds → FundsKept s (s.setDrawer d x) := fun _ hx => .of_setDrawer hx
  split
  · refine (FundsKept.of_within (alertReport_within _ _)).after ((FundsKept.of_within (alarm_within _ _ _)).after ?_)
    split
    · refine (FundsKept.of_within (append_within _ _)).after ?_
      exact hset _ rfl
    · exact hset _ rfl
  · exact hset _ rfl

theorem takeOpened_funds (p : Nat) : FundsKept s (s.takeOpened p) := by
  unfold takeOpened
  split
  · split
    · exact .refl s
    · exact drawerOpens_funds s p
  · exact .of_within (countLineBadMessage_within s)

theorem takeClosed_funds (p : Nat) : FundsKept s (s.takeClosed p) := by
  unfold takeClosed
  split
  · split
    · exact .refl s
    · exact (FundsKept.of_within (alertReport_within _ p)).after (.of_setDrawer rfl)
  · exact .of_within (countLineBadMessage_within s)

theorem takeFault_funds (p : Nat) : FundsKept s (s.takeFault p) := by
  unfold takeFault
  split
  · exact .of_setDrawer rfl
  · exact .of_within (countLineBadMessage_within s)

theorem openAlarmExpires_funds (d : Nat) : FundsKept s (s.openAlarmExpires d) := by
  unfold openAlarmExpires
  split
  · exact (FundsKept.of_within (alertReport_within _ d)).after
      ((FundsKept.of_within (alarm_within _ _ _)).after (.of_setDrawer rfl))
  · exact .refl s

theorem servingChanged_funds (d : Nat) : FundsKept s (s.servingChanged d) := by
  unfold servingChanged
  split
  · exact .of_setDrawer rfl
  · exact (FundsKept.of_within (alertReport_within _ d)).after (.of_setDrawer rfl)

/-! ### Completion, starts and ticks -/

theorem closeJournal_funds (t : State) : FundsKept t (s.closeJournal t) := .of_drawers rfl

theorem settle_funds : FundsKept s s.settle :=
  (closeJournal_funds s (s.append s.settlementBody)).after (.of_within (append_within s s.settlementBody))

theorem startSending_funds : FundsKept s s.startSending :=
  (FundsKept.of_within (testWindow_within (s.setDayState .sending).dayNotice)).after
    ((FundsKept.of_within (dayNotice_within (s.setDayState .sending))).after (.of_within (setDayState_within s .sending)))

theorem complete_funds : FundsKept s s.complete :=
  (startSending_funds _).after ((settle_funds _).after ((clearReleases_funds _).after
    (.of_within (endSessions_within s))))

theorem testCompletion_funds : FundsKept s s.testCompletion := by
  unfold testCompletion
  split
  · exact complete_funds s
  · exact .refl s

theorem tickDrawer_funds (d : Nat) : FundsKept s (s.tickDrawer d) := .of_setDrawer rfl

end Sys2Proof.Machine.State
end

