-- ==== Sys2Proof/Proofs/Reservations.lean ====
section
/-! The reservations of the drawers are the sums of the entries' items (R93, R98): what the release, the posting and the making
of one entry's items do to the account. -/

set_option Elab.async false

namespace Sys2Proof.Machine

/-- The account of the reservations stays sound. -/
def KeepsReservations (s t : State) : Prop := s.ReservationsSound → t.ReservationsSound

/-- The items of an entry in use. -/
def itemsAt (x : Option Entry) : List Item := x.elim [] (·.req.items)

/-- What an entry's items come to in one denomination. -/
def shareOf (out : Bool) (d c k : Nat) (e : Entry) : Nat := itemSum e.req.items out d c k

theorem figureOf_shareOf (x : Option Entry) (out : Bool) (d c k : Nat) :
    figureOf (shareOf out d c k) x = itemSum (itemsAt x) out d c k := by
  cases x <;> rfl

/-- A sum of items with a share in a drawer has an item there. -/
theorem itemSum_eq_zero {items : List Item} {d : Nat} (h : ∀ x ∈ items, x.drawer ≠ d) (out : Bool) (c k : Nat) :
    itemSum items out d c k = 0 := by
  induction items with
  | nil => rfl
  | cons x items ih =>
    rw [itemSum_cons, Item.share_other (h x List.mem_cons_self), ih fun y hy => h y (List.mem_cons_of_mem x hy)]

/-- Items that may be reserved: their places exist, their drawers are ACTIVE, and the books cover what they take out. -/
structure ItemsAllowed (items : List Item) (s : State) : Prop where
  places : ∀ x ∈ items, x.drawer ≤ 24 ∧ x.cur < 4 ∧ 1 ≤ x.den ∧ x.den ≤ 12
  active : ∀ x ∈ items, (s.drawer x.drawer).state = .active
  covered : ∀ d c k, d ≤ 24 → c < 4 → 1 ≤ k → k ≤ 12 →
    countAt (s.drawer d).reserved c k + itemSum items true d c k ≤ countAt (s.drawer d).book c k

namespace FundsKept

variable {s t : State}

theorem book (h : FundsKept s t) (d : Nat) : (t.drawer d).book = (s.drawer d).book := congrArg (·.2.1) (h d)

theorem reserved (h : FundsKept s t) (d : Nat) : (t.drawer d).reserved = (s.drawer d).reserved := congrArg (·.2.2.1) (h d)

theorem incoming (h : FundsKept s t) (d : Nat) : (t.drawer d).incoming = (s.drawer d).incoming := congrArg (·.2.2.2) (h d)

theorem state (h : FundsKept s t) (d : Nat) : (t.drawer d).state = (s.drawer d).state := congrArg (·.1) (h d)

end FundsKept

namespace KeepsReservations

open State

variable {s t u : State} {i : Nat} {e : Entry} {x : Option Entry} {items : List Item}

theorem refl (s : State) : KeepsReservations s s := id

theorem after (h : KeepsReservations t u) (g : KeepsReservations s t) : KeepsReservations s u := h ∘ g

theorem fold {α : Type} {f : State → α → State} (h : ∀ t x, KeepsReservations t (f t x)) (l : List α) (s : State) :
    KeepsReservations s (l.foldl f s) := by
  induction l generalizing s with
  | nil => exact refl s
  | cons x l ih => exact (ih (f s x)).after (h s x)

/-- One place of the table changes, and the drawers with it, so that the counts go on being the entries' sums. -/
theorem of_place (he : t.entries = wr s.entries i x) (ht : t.tables = s.tables)
    (hplaces : ∀ e, x = some e → (∀ y ∈ e.req.items, y.drawer ≤ 24 ∧ y.cur < 4 ∧ 1 ≤ y.den ∧ y.den ≤ 12) ∧
      (e.state = .reversing ∨ e.req.snap.cls = .inquiry → e.req.items = []))
    (hdrawers : s.ReservationsSound → ∀ d c k, d ≤ 24 → c < 4 → 1 ≤ k → k ≤ 12 →
      (countAt (t.drawer d).reserved c k + itemSum (itemsAt (s.entry i)) true d c k =
        countAt (s.drawer d).reserved c k + itemSum (itemsAt x) true d c k ∧
      countAt (t.drawer d).incoming c k + itemSum (itemsAt (s.entry i)) false d c k =
        countAt (s.drawer d).incoming c k + itemSum (itemsAt x) false d c k) ∧
      countAt (t.drawer d).reserved c k ≤ countAt (t.drawer d).book c k ∧
      ((t.drawer d).state ≠ .active → countAt (t.drawer d).reserved c k = 0 ∧ countAt (t.drawer d).incoming c k = 0))
    (hi : i < 32) : KeepsReservations s t := by
  intro hs
  have hread := entry_of_wr he
  refine ⟨fun c f hf => hs.faces c f (by rw [← ht]; exact hf), fun j f y hf hy => ?_, fun j f hf hst => ?_,
    fun d c k hd hc h1 h12 => ?_, fun d c k hd hc h1 h12 => (hdrawers hs d c k hd hc h1 h12).2.1,
    fun d hd hst c k hc h1 h12 => (hdrawers hs d c k hd hc h1 h12).2.2 hst⟩
  · rw [hread] at hf
    split at hf
    · exact (hplaces f hf).1 y hy
    · exact hs.items j f y hf hy
  · rw [hread] at hf
    split at hf
    · exact (hplaces f hf).2 hst
    · exact hs.unreserved j f hf hst
  · have hsum := fun out => overEntries_wr he hi (shareOf out d c k)
    simp only [figureOf_shareOf] at hsum
    obtain ⟨hres, hinc⟩ := hs.counts d c k hd hc h1 h12
    obtain ⟨⟨tres, tinc⟩, -, -⟩ := hdrawers hs d c k hd hc h1 h12
    have hout := hsum true
    have hin := hsum false
    unfold shareOf at hout hin
    omega

/-- An entry changes without its items. -/
theorem of_entry (he : t.entries = wr s.entries i x) (ht : t.tables = s.tables) (hf : FundsKept s t) (hi : i < 32)
    (hold : s.entry i = some e)
    (hx : ∀ f, x = some f → f.req = e.req ∧ (f.state = .reversing → e.state = .reversing)) (hsome : x.isSome = true) :
    KeepsReservations s t := by
  intro hs
  obtain ⟨f, rfl⟩ := Option.isSome_iff_exists.mp hsome
  obtain ⟨hreq, hrev⟩ := hx f rfl
  refine of_place he ht (fun g hg => ?_) (fun _ d c k hd hc h1 h12 => ?_) hi hs
  · cases hg
    rw [hreq]
    exact ⟨fun y hy => hs.items i e y hold hy, fun hst => hs.unreserved i e hold (hst.imp_left hrev)⟩
  · rw [hf.book, hf.reserved, hf.incoming, hf.state, hold]
    show (_ + itemSum e.req.items true d c k = _ + itemSum f.req.items true d c k ∧
      _ + itemSum e.req.items false d c k = _ + itemSum f.req.items false d c k) ∧ _
    rw [hreq]
    exact ⟨⟨rfl, rfl⟩, hs.covered d c k hd hc h1 h12, fun hst => hs.resting d hd hst c k hc h1 h12⟩

/-- The table keeps its places, and the drawers their counts. -/
theorem of_quiet (he : t.entries = s.entries) (ht : t.tables = s.tables) (hf : FundsKept s t) : KeepsReservations s t := by
  intro hs
  have hread := fun i => entry_congr he i
  refine ⟨fun c f hc => hs.faces c f (ht ▸ hc), fun j f y hj hy => hs.items j f y (hread j ▸ hj) hy,
    fun j f hj hst => hs.unreserved j f (hread j ▸ hj) hst, fun d c k hd hc h1 h12 => ?_, fun d c k hd hc h1 h12 => ?_,
    fun d hd hst c k hc h1 h12 => ?_⟩
  · rw [overEntries_congr he, overEntries_congr he, hf.reserved, hf.incoming]
    exact hs.counts d c k hd hc h1 h12
  · rw [hf.reserved, hf.book]
    exact hs.covered d c k hd hc h1 h12
  · rw [hf.reserved, hf.incoming]
    exact hs.resting d hd (hf.state d ▸ hst) c k hc h1 h12

theorem of_within {may : List Aspect} (h : Within may s t) (hf : FundsKept s t)
    (he : Aspect.entries ∉ may := by decide) (ht : Aspect.tables ∉ may := by decide) : KeepsReservations s t :=
  of_quiet (h .entries he) (h .tables ht) hf

/-- Nothing of the drawers or of the table changes. -/
theorem of_still {may : List Aspect} (h : Within may s t) (hd : Aspect.drawers ∉ may := by decide)
    (he : Aspect.entries ∉ may := by decide) (ht : Aspect.tables ∉ may := by decide) : KeepsReservations s t :=
  of_within h (.of_within h hd) he ht

/-- What an entry reserves is within what its drawers hold reserved. -/
theorem share_le (hs : s.ReservationsSound) (hold : s.entry i = some e) {d c k : Nat} (hd : d ≤ 24) (hc : c < 4) (h1 : 1 ≤ k)
    (h12 : k ≤ 12) : itemSum e.req.items true d c k ≤ countAt (s.drawer d).reserved c k ∧
      itemSum e.req.items false d c k ≤ countAt (s.drawer d).incoming c k := by
  obtain ⟨hres, hinc⟩ := hs.counts d c k hd hc h1 h12
  rw [hres, hinc]
  exact ⟨figure_le_overEntries hold (shareOf true d c k), figure_le_overEntries hold (shareOf false d c k)⟩

theorem booksCover (hs : s.ReservationsSound) (hold : s.entry i = some e) : BooksCover e.req.items s :=
  fun d c k hd hc h1 h12 => ((share_le hs hold hd hc h1 h12).1).trans (hs.covered d c k hd hc h1 h12)

/-- An entry gives up its items, and the drawers release them (R102). -/
theorem of_released (he : t.entries = wr s.entries i x) (ht : t.tables = s.tables) (hold : s.entry i = some e)
    (hx : itemsAt x = []) (hr : ReservationsReleased e.req.items s t) : KeepsReservations s t := by
  intro hs
  refine of_place he ht (fun g hg => ?_) (fun _ d c k hd hc h1 h12 => ?_) (entry_index s hold) hs
  · have hnone : g.req.items = [] := by rw [hg] at hx; exact hx
    rw [hnone]
    exact ⟨fun y hy => absurd hy List.not_mem_nil, fun _ => rfl⟩
  · obtain ⟨hdrawer, hcounts⟩ := hr d
    obtain ⟨tres, tinc⟩ := hcounts c k
    obtain ⟨lres, linc⟩ := share_le hs hold hd hc h1 h12
    have hbook : (t.drawer d).book = (s.drawer d).book := by rw [hdrawer]
    have hstate : (t.drawer d).state = (s.drawer d).state := by rw [hdrawer]
    have hcover := hs.covered d c k hd hc h1 h12
    rw [hbook, hstate, tres, tinc, hx, hold]
    show (_ + itemSum e.req.items true d c k = _ + 0 ∧ _ + itemSum e.req.items false d c k = _ + 0) ∧ _
    refine ⟨⟨by omega, by omega⟩, by omega, fun hst => ?_⟩
    obtain ⟨zres, zinc⟩ := hs.resting d hd hst c k hc h1 h12
    omega

/-- An entry gives up its items, and the drawers post them (R103). -/
theorem of_posted (he : t.entries = wr s.entries i x) (ht : t.tables = s.tables) (hold : s.entry i = some e)
    (hx : itemsAt x = []) (hp : BooksCover e.req.items s → ItemsPosted e.req.items s t) : KeepsReservations s t := by
  intro hs
  refine of_place he ht (fun g hg => ?_) (fun _ d c k hd hc h1 h12 => ?_) (entry_index s hold) hs
  · have hnone : g.req.items = [] := by rw [hg] at hx; exact hx
    rw [hnone]
    exact ⟨fun y hy => absurd hy List.not_mem_nil, fun _ => rfl⟩
  · obtain ⟨hcounts, -, -, hstate, -, -⟩ := hp (booksCover hs hold) d hd
    obtain ⟨tbook, tres, tinc⟩ := hcounts c k hc h1 h12
    obtain ⟨lres, linc⟩ := share_le hs hold hd hc h1 h12
    have hcover := hs.covered d c k hd hc h1 h12
    rw [hstate, hx, hold]
    show (_ + itemSum e.req.items true d c k = _ + 0 ∧ _ + itemSum e.req.items false d c k = _ + 0) ∧ _
    refine ⟨⟨by omega, by omega⟩, by omega, fun hst => ?_⟩
    obtain ⟨zres, zinc⟩ := hs.resting d hd hst c k hc h1 h12
    omega

/-- A new entry takes items that may be reserved, and the drawers reserve them (R98). -/
theorem of_made (he : t.entries = wr s.entries i (some e)) (ht : t.tables = s.tables) (hi : i < 32) (hfree : s.entry i = none)
    (ha : s.ReservationsSound → ItemsAllowed e.req.items s) (hr : ReservationsMade e.req.items s t)
    (hst : e.state = .reversing ∨ e.req.snap.cls = .inquiry → e.req.items = []) : KeepsReservations s t := by
  intro hs
  refine of_place he ht (fun g hg => ?_) (fun _ d c k hd hc h1 h12 => ?_) hi hs
  · cases hg
    exact ⟨(ha hs).places, hst⟩
  · obtain ⟨hdrawer, hcounts⟩ := hr d
    obtain ⟨tres, tinc⟩ := hcounts hd c k hc h1 h12
    have hbook : (t.drawer d).book = (s.drawer d).book := by rw [hdrawer]
    have hstate : (t.drawer d).state = (s.drawer d).state := by rw [hdrawer]
    have hcover := (ha hs).covered d c k hd hc h1 h12
    rw [hbook, hstate, tres, tinc, hfree]
    show (_ + 0 = _ + itemSum e.req.items true d c k ∧ _ + 0 = _ + itemSum e.req.items false d c k) ∧ _
    refine ⟨⟨by omega, by omega⟩, hcover, fun hclosed => ?_⟩
    obtain ⟨zres, zinc⟩ := hs.resting d hd hclosed c k hc h1 h12
    have hother : ∀ y ∈ e.req.items, y.drawer ≠ d := fun y hy hyd => hclosed (hyd ▸ (ha hs).active y hy)
    rw [zres, zinc, itemSum_eq_zero hother, itemSum_eq_zero hother]
    exact ⟨rfl, rfl⟩

/-- Items that are reserved and posted at once leave the reservations as they were (R65). -/
theorem of_made_posted (he : t.entries = s.entries) (ht : t.tables = s.tables)
    (ha : s.ReservationsSound → ItemsAllowed items s) (hr : ReservationsMade items s u)
    (hp : BooksCover items u → ItemsPosted items u t) : KeepsReservations s t := by
  intro hs
  have hread := fun i => entry_congr he i
  have hmade : ∀ d c k, d ≤ 24 → c < 4 → 1 ≤ k → k ≤ 12 →
      countAt (u.drawer d).reserved c k = countAt (s.drawer d).reserved c k + itemSum items true d c k ∧
      countAt (u.drawer d).incoming c k = countAt (s.drawer d).incoming c k + itemSum items false d c k ∧
      countAt (u.drawer d).book c k = countAt (s.drawer d).book c k ∧ (u.drawer d).state = (s.drawer d).state :=
    fun d c k hd hc h1 h12 => by
      obtain ⟨hdrawer, hcounts⟩ := hr d
      obtain ⟨ures, uinc⟩ := hcounts hd c k hc h1 h12
      exact ⟨ures, uinc, by rw [hdrawer], by rw [hdrawer]⟩
  have hposted := hp fun d c k hd hc h1 h12 => by
    obtain ⟨-, -, hbook, -⟩ := hmade d c k hd hc h1 h12
    have hcover := (ha hs).covered d c k hd hc h1 h12
    omega
  have hcounts : ∀ d c k, d ≤ 24 → c < 4 → 1 ≤ k → k ≤ 12 →
      countAt (t.drawer d).reserved c k = countAt (s.drawer d).reserved c k ∧
      countAt (t.drawer d).incoming c k = countAt (s.drawer d).incoming c k ∧
      countAt (t.drawer d).reserved c k ≤ countAt (t.drawer d).book c k ∧
      ((t.drawer d).state = (s.drawer d).state) := fun d c k hd hc h1 h12 => by
    obtain ⟨tcounts, -, -, tstate, -, -⟩ := hposted d hd
    obtain ⟨tbook, tres, tinc⟩ := tcounts c k hc h1 h12
    obtain ⟨ures, uinc, ubook, ustate⟩ := hmade d c k hd hc h1 h12
    have hcover := (ha hs).covered d c k hd hc h1 h12
    exact ⟨by omega, by omega, by omega, tstate.trans ustate⟩
  refine ⟨fun c f hc => hs.faces c f (ht ▸ hc), fun j f y hj hy => hs.items j f y (hread j ▸ hj) hy,
    fun j f hj hst => hs.unreserved j f (hread j ▸ hj) hst, fun d c k hd hc h1 h12 => ?_,
    fun d c k hd hc h1 h12 => (hcounts d c k hd hc h1 h12).2.2.1, fun d hd hst c k hc h1 h12 => ?_⟩
  · obtain ⟨tres, tinc, -, -⟩ := hcounts d c k hd hc h1 h12
    rw [overEntries_congr he, overEntries_congr he, tres, tinc]
    exact hs.counts d c k hd hc h1 h12
  · obtain ⟨tres, tinc, -, tstate⟩ := hcounts d c k hd hc h1 h12
    rw [tres, tinc]
    exact hs.resting d hd (tstate ▸ hst) c k hc h1 h12

end KeepsReservations

end Sys2Proof.Machine
end

