-- ==== Sys2Proof/Proofs/AllowedItems.lean ====
section
/-! The items of a request that passes its checks may be reserved (R97 to R101): their places exist, their drawers are ACTIVE,
and the books cover what they take out. -/

set_option Elab.async false

namespace Sys2Proof.Machine

/-! ### The pairs of a list of counts -/

theorem mem_countsOfPairs {pairs : List (Nat × Nat)} {q : Nat × Nat} (h : q ∈ countsOfPairs pairs) :
    1 ≤ q.1 ∧ q.1 ≤ 12 ∧ q ∈ pairs := by
  unfold countsOfPairs at h
  obtain ⟨d, hd, hq⟩ := List.mem_filterMap.mp h
  obtain ⟨h1, h12⟩ := List.mem_range'_1.mp hd
  split at hq
  · next found hfound =>
    split at hq
    · cases hq
    · cases hq
      have hplace := List.find?_some hfound
      rw [beq_iff_eq] at hplace
      exact ⟨by omega, by omega, List.mem_of_find?_eq_some hfound⟩
  · cases hq

/-- Each position stands in the list once. -/
def PlacesOnce (counts : Counts) : Prop := (counts.map (·.1)).Nodup

theorem countsOfPairs_once (pairs : List (Nat × Nat)) : PlacesOnce (countsOfPairs pairs) := by
  unfold PlacesOnce countsOfPairs
  rw [List.map_filterMap]
  have hplace : ∀ d x, Option.map (fun q : Nat × Nat => q.1) (match pairs.find? (fun p => p.1 == d) with
      | some p => if p.2 = 0 then none else some p
      | none => none) = some x → d = x := by
    intro d x hx
    split at hx
    · next found hfound =>
      split at hx
      · cases hx
      · cases hx
        have hplace := List.find?_some hfound
        exact (eq_of_beq hplace).symm
    · cases hx
  refine List.Nodup.filterMap (fun a b x ha hb => ?_) (List.nodup_range' (step := 1))
  exact (hplace a x ha).trans (hplace b x hb).symm

theorem noteWalk_once {notes : List (Nat × Nat × Nat)} (h : (notes.map (·.1)).Nodup) (amount : Nat) :
    PlacesOnce (noteWalk notes amount).1 := by
  induction notes generalizing amount with
  | nil => exact List.nodup_nil
  | cons x rest ih =>
    obtain ⟨den, face, available⟩ := x
    obtain ⟨hx, hrest⟩ := List.nodup_cons.mp h
    rw [noteWalk_cons]
    have hlater := ih hrest (amount - min available (amount / face) * face)
    unfold PlacesOnce at hlater ⊢
    split
    · exact hlater
    · refine List.nodup_cons.mpr ⟨fun hmem => hx ?_, hlater⟩
      obtain ⟨⟨d, n⟩, hq, hd⟩ := List.mem_map.mp hmem
      obtain ⟨-, y, hy, hyd, -⟩ := noteWalk_taken hq
      exact List.mem_map.mpr ⟨y, hy, hyd.trans hd⟩

theorem PlacesOnce.reverse {counts : Counts} (h : PlacesOnce counts) : PlacesOnce counts.reverse := by
  unfold PlacesOnce at h ⊢
  rw [List.map_reverse]
  exact List.nodup_reverse.mpr h

/-- What one side of a request comes to in a place is at most one of its counts. -/
theorem itemSum_sideItems_le {counts : Counts} (hone : PlacesOnce counts) {bound : Nat → Nat}
    (h : ∀ q ∈ counts, q.2 ≤ bound q.1) (out out' : Bool) (d d' c c' k : Nat) :
    itemSum (sideItems d c out counts) out' d' c' k ≤ bound k ∧
    (k ∉ counts.map (·.1) → itemSum (sideItems d c out counts) out' d' c' k = 0) := by
  induction counts with
  | nil => exact ⟨Nat.zero_le _, fun _ => rfl⟩
  | cons q counts ih =>
    obtain ⟨hq, hrest⟩ := List.nodup_cons.mp hone
    obtain ⟨hle, hzero⟩ := ih hrest fun r hr => h r (List.mem_cons_of_mem _ hr)
    have hcons : itemSum (sideItems d c out (q :: counts)) out' d' c' k =
        Item.share { drawer := d, cur := c, den := q.1, count := q.2, out := out } out' d' c' k +
          itemSum (sideItems d c out counts) out' d' c' k := itemSum_cons ..
    rw [hcons]
    unfold Item.share
    by_cases hk : q.1 = k
    · subst hk
      have hb := h q List.mem_cons_self
      have hz := hzero hq
      refine ⟨?_, fun hn => absurd (List.mem_cons_self ..) hn⟩
      dsimp only
      split <;> omega
    · refine ⟨?_, fun hn => ?_⟩
      · rw [if_neg fun hc => hk hc.2.2.2]
        omega
      · rw [if_neg fun hc => hk hc.2.2.2, hzero fun hm => hn (List.mem_cons_of_mem _ hm)]

/-- A side in another drawer or another currency, or of the other direction, has no share. -/
theorem itemSum_sideItems_other {counts : Counts} {out out' : Bool} {d d' c c' k : Nat}
    (h : ¬ (out = out' ∧ d = d' ∧ c = c')) : itemSum (sideItems d c out counts) out' d' c' k = 0 := by
  induction counts with
  | nil => rfl
  | cons q counts ih =>
    have hcons : itemSum (sideItems d c out (q :: counts)) out' d' c' k =
        Item.share { drawer := d, cur := c, den := q.1, count := q.2, out := out } out' d' c' k +
          itemSum (sideItems d c out counts) out' d' c' k := itemSum_cons ..
    rw [hcons, ih, Item.share, if_neg fun hc => h ⟨hc.1, hc.2.1, hc.2.2.1⟩]

namespace State

variable {s : State} {p : Nat} {r : Request} {e : CodeEntry} {x : Passed} {leaving : Counts}

/-- The counts that leave a drawer: their places exist, each once, and what they take is available (R99, R100). -/
theorem outgoing_taken {d cur amount : Nat} {keyed : Option (List (Nat × Nat))} (hfaces : (s.tables.faces cur).length ≤ 12)
    (h : s.outgoing d cur amount keyed = .ok leaving) :
    PlacesOnce leaving ∧ ∀ q ∈ leaving, (1 ≤ q.1 ∧ q.1 ≤ 12) ∧ q.2 ≤ (s.drawer d).available cur q.1 := by
  unfold outgoing at h
  split at h
  · next pairs =>
    split at h
    · next hall =>
      cases h
      refine ⟨countsOfPairs_once pairs, fun q hq => ?_⟩
      obtain ⟨h1, h12, hmem⟩ := mem_countsOfPairs hq
      exact ⟨⟨h1, h12⟩, of_decide_eq_true (List.all_eq_true.mp hall q hmem)⟩
    · cases h
  · split at h
    · cases h
    · split at h
      · next taken htaken =>
        cases h
        have hnotes : ((s.notesOf d cur).map (·.1)).Nodup := by
          unfold notesOf
          have hplaces : ((s.tables.faces cur).mapIdx fun i face => (i + 1, face, (s.drawer d).available cur (i + 1))).map
              (·.1) = (List.range (s.tables.faces cur).length).map (· + 1) :=
            List.ext_getElem (by simp) fun i _ _ => by simp
          rw [List.map_reverse, List.nodup_reverse, hplaces]
          exact List.nodup_range.map fun _ _ hab => Nat.succ.inj hab
        have hone := noteWalk_once hnotes amount
        rw [htaken] at hone
        refine ⟨hone.reverse, fun q hq => ?_⟩
        have hq' : (q.1, q.2) ∈ (noteWalk (s.notesOf d cur) amount).1 := by
          rw [htaken]
          exact List.mem_reverse.mp hq
        obtain ⟨-, y, hy, hyd, hle⟩ := noteWalk_taken hq'
        obtain ⟨h1, hlen, -, havailable⟩ := mem_notes hy
        rw [← hyd]
        exact ⟨⟨h1, hlen.trans hfaces⟩, hle.trans_eq havailable⟩
      · cases h

/-- The items of each side (R98). -/
theorem itemsOf_eq (out : Option Side) (side : Option (Nat × Nat × Counts)) : itemsOf out leaving side =
    (out.elim [] fun o => sideItems o.drawer o.cur true leaving) ++ (side.elim [] fun y => sideItems y.1 y.2.1 false y.2.2) := by
  cases out <;> cases side <;> rfl

theorem ownDrawer_le (t : Tables) {p : Nat} (hp : p ≤ 24) : t.ownDrawer p ≤ 24 := by
  unfold Tables.ownDrawer
  split <;> omega

/-- The drawer of each side is one of the target's (R57, R96), and the currency is the request's or the home one. -/
theorem outSide_target {cls : TxClass} {own cash : Nat} {side : Side} (h : outSide cls own r cash = some side) :
    side.drawer ∈ cls.target own ∧ (side.cur = r.cur ∨ side.cur = 0) := by
  cases cls <;> simp only [outSide, reduceCtorEq, Option.some.injEq] at h <;> subst h <;> simp [TxClass.target]

theorem inSide_target {cls : TxClass} {own : Nat} {side : Nat × Nat × Counts} (h : inSide cls own r leaving = some side) :
    side.1 ∈ cls.target own ∧ (side.2.1 = r.cur ∨ side.2.1 = 0) ∧
      (side.2.2 = leaving ∨ ∃ pairs, side.2.2 = countsOfPairs pairs) := by
  cases cls <;> simp only [inSide, reduceCtorEq, Option.some.injEq] at h <;> subst h <;> simp [TxClass.target]

theorem target_le {cls : TxClass} {own d : Nat} (hown : own ≤ 24) (h : d ∈ cls.target own) : d ≤ 24 := by
  cases cls <;> simp [TxClass.target] at h <;> omega

/-- Checks 11 to 14: what they let through may be reserved. -/
theorem PassedChecks.allowed (h : s.PassedChecks p r e x leaving) (hs : s.ReservationsSound) (hp : p ≤ 24) (hcur : r.cur ≤ 3) :
    ItemsAllowed x.items s := by
  have hown := ownDrawer_le s.tables hp
  have hfaces : ∀ c, (s.tables.faces c).length ≤ 12 := fun c => by
    unfold Tables.faces
    cases hc : s.tables.currency c with
    | none => exact Nat.zero_le _
    | some f => exact hs.faces c f hc
  have hactive : ∀ d ∈ e.cls.target (s.tables.ownDrawer p), (s.drawer d).state = .active := fun d hd => by
    by_contra hstate
    have hclosed := targetClosed_iff.mpr ⟨d, hd, hstate⟩
    rw [h.target] at hclosed
    cases hclosed
  have htaken : ∀ side, outSide e.cls (s.tables.ownDrawer p) r (s.cashOf e.cls r) = some side → PlacesOnce leaving ∧
      ∀ q ∈ leaving, (1 ≤ q.1 ∧ q.1 ≤ 12) ∧ q.2 ≤ (s.drawer side.drawer).available side.cur q.1 := fun side hside => by
    have hout := h.outgoing
    rw [hside] at hout
    exact outgoing_taken (hfaces _) hout
  have hleaving : ∀ q ∈ leaving, 1 ≤ q.1 ∧ q.1 ≤ 12 := fun q hq => by
    cases hside : outSide e.cls (s.tables.ownDrawer p) r (s.cashOf e.cls r) with
    | none =>
      have hout := h.outgoing
      rw [hside] at hout
      cases hout
      cases hq
    | some side => exact ((htaken side hside).2 q hq).1
  have hmem : ∀ y ∈ x.items, y.drawer ∈ e.cls.target (s.tables.ownDrawer p) ∧ (y.cur = r.cur ∨ y.cur = 0) ∧
      1 ≤ y.den ∧ y.den ≤ 12 := fun y hy => by
    rw [h.items, itemsOf_eq] at hy
    obtain hout | hin := List.mem_append.mp hy
    · cases hside : outSide e.cls (s.tables.ownDrawer p) r (s.cashOf e.cls r) with
      | none =>
        rw [hside] at hout
        cases hout
      | some side =>
        rw [hside] at hout
        obtain ⟨q, hq, rfl⟩ := List.mem_map.mp hout
        exact ⟨(outSide_target hside).1, (outSide_target hside).2, hleaving q hq⟩
    · cases hside : inSide e.cls (s.tables.ownDrawer p) r leaving with
      | none =>
        rw [hside] at hin
        cases hin
      | some side =>
        rw [hside] at hin
        obtain ⟨q, hq, rfl⟩ := List.mem_map.mp hin
        obtain ⟨htarget, hcurrency, hcounts⟩ := inSide_target hside
        refine ⟨htarget, hcurrency, ?_⟩
        obtain heq | ⟨pairs, heq⟩ := hcounts
        · exact hleaving q (heq ▸ hq)
        · rw [heq] at hq
          exact ⟨(mem_countsOfPairs hq).1, (mem_countsOfPairs hq).2.1⟩
  refine ⟨fun y hy => ?_, fun y hy => hactive _ (hmem y hy).1, fun d c k hd hc h1 h12 => ?_⟩
  · obtain ⟨htarget, hcurrency, h1, h12⟩ := hmem y hy
    exact ⟨target_le hown htarget, by omega, h1, h12⟩
  · have hcover := hs.covered d c k hd hc h1 h12
    have hin : ∀ side : Option (Nat × Nat × Counts),
        itemSum (side.elim [] fun y => sideItems y.1 y.2.1 false y.2.2) true d c k = 0 := fun side => by
      cases side with
      | none => rfl
      | some side => exact itemSum_sideItems_other fun hd => absurd hd.1 (by decide)
    rw [h.items, itemsOf_eq, itemSum_append, hin]
    cases hside : outSide e.cls (s.tables.ownDrawer p) r (s.cashOf e.cls r) with
    | none => exact hcover
    | some side =>
      obtain ⟨hone, hbound⟩ := htaken side hside
      show _ + (itemSum (sideItems side.drawer side.cur true leaving) true d c k + 0) ≤ _
      by_cases hsame : side.drawer = d ∧ side.cur = c
      · obtain ⟨rfl, rfl⟩ := hsame
        have hle := (itemSum_sideItems_le hone (fun q hq => (hbound q hq).2) true true side.drawer side.drawer side.cur side.cur
          k).1
        unfold Drawer.available at hle
        omega
      · rw [itemSum_sideItems_other fun hd => hsame hd.2]
        exact hcover

/-- An INQUIRY reserves nothing (R96). -/
theorem PassedChecks.inquiry_items (h : s.PassedChecks p r e x leaving) (hcls : e.cls = .inquiry) : x.items = [] := by
  rw [h.items, hcls]
  rfl

end State

end Sys2Proof.Machine
end

