-- ==== Sys2Proof/Proofs/ReservationEvents.lean ====
section
/-! Every step keeps the reservations (R93, R98, R99, R102, R103, R119): each operation on the entries and on the drawers (O59). -/

set_option Elab.async false

namespace Sys2Proof.Machine

namespace KeepsReservations

open State

variable {s t u : State} {i : Nat} {e : Entry} {x : Option Entry}

/-- The drawers' books and states change where nothing is reserved. -/
theorem of_rested (he : t.entries = s.entries) (ht : t.tables = s.tables)
    (h : s.ReservationsSound → ∀ d, d ≤ 24 → (t.drawer d).reserved = (s.drawer d).reserved ∧
      (t.drawer d).incoming = (s.drawer d).incoming ∧
      (((t.drawer d).book = (s.drawer d).book ∧ ((t.drawer d).state = (s.drawer d).state ∨ (t.drawer d).state = .active)) ∨
        ∀ c k, c < 4 → 1 ≤ k → k ≤ 12 → countAt (s.drawer d).reserved c k = 0 ∧ countAt (s.drawer d).incoming c k = 0)) :
    KeepsReservations s t := by
  intro hs
  have hread := fun i => entry_congr he i
  refine ⟨fun c f hc => hs.faces c f (ht ▸ hc), fun j f y hj hy => hs.items j f y (hread j ▸ hj) hy,
    fun j f hj hst => hs.unreserved j f (hread j ▸ hj) hst, fun d c k hd hc h1 h12 => ?_, fun d c k hd hc h1 h12 => ?_,
    fun d hd hst c k hc h1 h12 => ?_⟩
  · obtain ⟨hres, hinc, -⟩ := h hs d hd
    rw [overEntries_congr he, overEntries_congr he, hres, hinc]
    exact hs.counts d c k hd hc h1 h12
  · obtain ⟨hres, -, ⟨hbook, -⟩ | hrest⟩ := h hs d hd
    · rw [hres, hbook]
      exact hs.covered d c k hd hc h1 h12
    · rw [hres, (hrest c k hc h1 h12).1]
      exact Nat.zero_le _
  · obtain ⟨hres, hinc, ⟨-, hstate⟩ | hrest⟩ := h hs d hd
    · rw [hres, hinc]
      exact hs.resting d hd (fun hactive => hst (hstate.elim (·.trans hactive) id)) c k hc h1 h12
    · rw [hres, hinc]
      exact hrest c k hc h1 h12

/-- The currencies change to ones of at most 12 faces. -/
theorem of_tables (he : t.entries = s.entries) (hf : FundsKept s t)
    (ht : ∀ c e, t.tables.currency c = some e → s.tables.currency c = some e ∨ e.faces.length ≤ 12) : KeepsReservations s t := by
  intro hs
  have hsame : KeepsReservations s { t with tables := s.tables } := .of_quiet he rfl hf
  have hquiet := hsame hs
  exact ⟨fun c f hc => (ht c f hc).elim (hs.faces c f) id, hquiet.items, hquiet.unreserved, hquiet.counts, hquiet.covered,
    hquiet.resting⟩

/-- An entry without items is freed. -/
theorem of_freed (he : t.entries = wr s.entries i none) (ht : t.tables = s.tables) (hd : t.drawers = s.drawers)
    (hold : s.entry i = some e) (hnone : e.state = .reversing ∨ e.req.snap.cls = .inquiry) : KeepsReservations s t := by
  intro hs
  refine of_released he ht hold rfl ?_ hs
  rw [hs.unreserved i e hold hnone]
  exact (ReservationsReleased.nil s).congr rfl hd

end KeepsReservations

namespace State

variable {s : State} {i : Nat} {e : Entry}

/-- To free an entry changes no drawer. -/
theorem freed_posted {t : State} {items : List Item} (h : ItemsPosted items s t) (i : Nat) :
    ItemsPosted items s (t.freeEntry i) := h.congr rfl fun _ => ⟨rfl, rfl, rfl, rfl, rfl, rfl, rfl, rfl⟩

theorem testCompletion_keepsReservations (s : State) : KeepsReservations s s.testCompletion :=
  .of_within (testCompletion_within s) (testCompletion_funds s)

/-! ### The ends of an entry -/

theorem approve_keepsReservations (he : s.entry i = some e) (a : Answer) : KeepsReservations s (s.approve i e a) := by
  unfold approve
  split
  · next hcls =>
    have hscreen := answerScreen_within s e.req a.balance .approved
    exact (testCompletion_keepsReservations _).after (.of_freed (congrArg (wr · i none) (hscreen .entries (by decide)))
      (hscreen .tables (by decide)) (hscreen .drawers (by decide)) he (Or.inr hcls))
  · have hpost := post_within s e.req (some e.tag) (some a)
    exact (testCompletion_keepsReservations _).after (.of_posted (congrArg (wr · i none) (hpost .entries (by decide)))
      (hpost .tables (by decide)) he rfl fun hcover => freed_posted (post_posted hcover) i)

theorem decline_keepsReservations (he : s.entry i = some e) (a : Answer) : KeepsReservations s (s.decline i e a) := by
  have heq := declined_eq (s := s) (i := i) (e := e) a
  refine KeepsReservations.after (testCompletion_keepsReservations (s.declined i e a))
    (.of_released (x := none) ?_ ?_ he rfl ?_)
  · rw [heq]
  · rw [heq]
  · refine (releaseItems_released s e.req.items).congr rfl ?_
    exact answerScreen_within _ e.req a.balance (.declined a.reason) .drawers (by decide)

theorem takeAnswer_keepsReservations (tag : Nat) (bs : List Byte) : KeepsReservations s (s.takeAnswer tag bs) := by
  unfold takeAnswer
  split
  · exact .of_still (dropBadFrame_within s)
  · split
    · exact .of_still (countLateAnswer_within s)
    · next h =>
      obtain ⟨he, -⟩ := findEntry_some s h
      split
      · exact approve_keepsReservations he _
      · exact decline_keepsReservations he _

theorem offerReversal_keepsReservations (i : Nat) : KeepsReservations s (s.offerReversal i) := by
  unfold offerReversal
  split
  · next e he =>
    split
    · next h =>
      have hqueued := enqueue_within s (.reversal e.tag (e.reason.getD .timeout))
      exact .of_freed (congrArg (wr · i none) (hqueued .entries (by decide))) (hqueued .tables (by decide))
        (hqueued .drawers (by decide)) he (Or.inl h.1)
    · exact .refl s
  · exact .refl s

theorem endCentre_keepsReservations (he : s.entry i = some e) (reason : ExpiryReason) (o : Shown) :
    KeepsReservations s (s.endCentre i e reason o) := by
  unfold endCentre
  split
  · next hcls =>
    have hscreen := showAt_within s e.req.pos o
    exact (testCompletion_keepsReservations _).after (.of_freed (congrArg (wr · i none) (hscreen .entries (by decide)))
      (hscreen .tables (by decide)) (hscreen .drawers (by decide)) he (Or.inr hcls))
  · have heq := reversed_eq (s := s) (i := i) (e := e) reason o
    refine (testCompletion_keepsReservations _).after ((offerReversal_keepsReservations (s := s.reversed i e reason o) i).after
      (.of_released (x := some (e.reversing reason)) ?_ ?_ he rfl ?_))
    · rw [heq]
    · rw [heq]
    · exact (releaseItems_released s e.req.items).congr rfl (by rw [heq])

theorem endOverride_keepsReservations (he : s.entry i = some e) (o : Shown) :
    KeepsReservations s (s.endOverride i e o) := by
  have heq := overrideEnded_eq (s := s) (i := i) (e := e) o
  rw [endOverride_eq]
  refine (testCompletion_keepsReservations _).after (.of_released (x := none) ?_ ?_ he rfl (overrideEnded_released o))
  · rw [heq]
  · rw [heq]

theorem forward_keepsReservations {d : Entry} (hd : s.entry i = some d) (hreq : e.req = d.req) :
    KeepsReservations s (s.forward i e) := by
  have heq := forward_eq (s := s) (i := i) (e := e)
  refine .of_entry (x := some { e with
    state := .waitingCentre, granted := false, timer := some s.tables.params.approval }) forward_entries ?_ (.of_drawers ?_)
    (entry_index s hd) hd (fun f hf => ?_) rfl
  · rw [heq]
  · rw [heq]
  · cases hf
    exact ⟨hreq, fun h => nomatch h⟩

theorem grantOverride_keepsReservations (he : s.entry i = some e) (sup : Nat) :
    KeepsReservations s (s.grantOverride i e sup) := by
  have hi := entry_index s he
  have heq := granting_eq (s := s) (i := i) (e := e) (sup := sup)
  have hgranting : KeepsReservations s (s.granting i e sup) := by
    refine .of_entry (x := some (grantedEntry e)) ?_ ?_ (.of_drawers ?_) hi he (fun f hf => ?_) rfl
    · rw [heq]
    · rw [heq]
    · rw [heq]
    · cases hf
      exact ⟨rfl, id⟩
  have hentry : (s.granting i e sup).entry i = some (grantedEntry e) := by
    rw [entry_of_wr (s := s) (i := i) (x := some (grantedEntry e)) (by rw [heq]), if_pos ⟨rfl, hi⟩]
  obtain h | h | h := grantOverride_cases (s := s) (i := i) (e := e) sup
  · have hpost := post_within (s.granting i e sup) e.req (some e.tag) none
    rw [h]
    refine (testCompletion_keepsReservations _).after (KeepsReservations.after ?_ hgranting)
    exact .of_posted (x := none) (congrArg (wr · i none) (hpost .entries (by decide))) (hpost .tables (by decide)) hentry rfl
      fun hcover => freed_posted (post_posted (c := e.req) hcover) i
  · rw [h]
    exact (forward_keepsReservations hentry rfl).after hgranting
  · rw [h]
    refine (KeepsReservations.of_still (reportEntry_within _ _ _)).after (KeepsReservations.after ?_ hgranting)
    refine .of_entry (x := some { grantedEntry e with granted := true }) rfl rfl (.of_drawers rfl) hi hentry (fun f hf => ?_) rfl
    cases hf
    exact ⟨rfl, id⟩

theorem queueGranted_keepsReservations (i : Nat) : KeepsReservations s (s.queueGranted i) := by
  unfold queueGranted
  split
  · next e he =>
    split
    · exact forward_keepsReservations he rfl
    · exact .refl s
  · exact .refl s

/-! ### Messages of the units -/

theorem decideOverride_keepsReservations (p tag : Nat) (g : Bool) : KeepsReservations s (s.decideOverride p tag g) := by
  have hshow : ∀ o, KeepsReservations s (s.showAt p o) := fun o => .of_still (showAt_within s p o)
  unfold decideOverride
  dsimp only
  split
  · exact hshow _
  · split
    · exact hshow _
    · next h =>
      obtain ⟨he, -⟩ := findEntry_some s h
      split
      · exact hshow _
      · split
        · exact hshow _
        · split
          · split
            · exact hshow _
            · exact grantOverride_keepsReservations he _
          · exact endOverride_keepsReservations he _

theorem copyRole_keepsReservations (p : Nat) : KeepsReservations s (s.copyRole p) := .of_still (copyRole_within s p)

theorem takeOverride_keepsReservations (p tag d : Nat) : KeepsReservations s (s.takeOverride p tag d) := by
  have hdecide : ∀ g, KeepsReservations s ((s.copyRole p).decideOverride p tag g) := fun g =>
    (decideOverride_keepsReservations p tag g).after (copyRole_keepsReservations p)
  unfold takeOverride
  split
  · exact hdecide true
  · split
    · exact hdecide false
    · exact .of_still (countLineBadMessage_within s)

theorem takeCancel_keepsReservations (p : Nat) : KeepsReservations s (s.takeCancel p) := by
  unfold takeCancel
  split
  · exact .refl s
  · next h =>
    obtain ⟨he, -⟩ := findEntry_some s h
    split
    · exact endOverride_keepsReservations he _
    · exact endCentre_keepsReservations he _ _

/-- A request is refused, or it has passed its checks at a position of the part in a currency there is (R58 to R62). -/
theorem acceptance_cases (p : Nat) (r : Request) :
    (∃ f, s.acceptance p r = .error f) ∨ ∃ e x leaving, s.acceptance p r = .ok (e, x) ∧ (1 ≤ p ∧ p ≤ 24) ∧ r.cur ≤ 3 ∧
      s.PassedChecks p r e x leaving := by
  cases h : s.acceptance p r with
  | error f => exact .inl ⟨f, rfl⟩
  | ok found =>
    obtain ⟨e, x⟩ := found
    unfold acceptance at h
    split at h
    · cases h
    next hsession =>
    split at h
    · cases h
    next hcode =>
    split at h
    · cases h
    next hchecks =>
    split at h
    · cases h
    next hpassed =>
    cases h
    obtain ⟨leaving, hfound⟩ := checksFrom8_passed hpassed
    refine .inr ⟨_, _, leaving, rfl, ?_, ?_, hfound⟩
    · by_contra hp
      have hoff := firstFailure_none hsession ((s.session p).state == .signedOff, .notSignedOn) (by simp [sessionChecks])
      rw [session_outside s hp] at hoff
      exact absurd hoff (by decide)
    · have hcur := firstFailure_none hchecks (decide (3 < r.cur) || !e.allowed.contains r.cur ||
        (s.tables.currency r.cur).isNone, .currency) (by simp [codeChecks])
      simp only [Bool.or_eq_false_iff, decide_eq_false_iff_not] at hcur
      omega

theorem carryThrough_keepsReservations {p : Nat} {r : Request} {e : CodeEntry} {x : Passed} {leaving : Counts}
    (h : s.PassedChecks p r e x leaving) (hp : p ≤ 24) (hcur : r.cur ≤ 3) :
    KeepsReservations s (s.carryThrough p r e x) := by
  have hpassing := passing_eq (s := s) (p := p) (r := r) (e := e) (x := x)
  have hmade : ReservationsMade x.items s (s.passing p r e x) :=
    (reserveItems_made s x.items).congr rfl (by rw [hpassing])
  rw [carryThrough_eq]
  split
  · next hway =>
    obtain ⟨i, hfree⟩ := h.free hway
    obtain ⟨hi, hnone⟩ := freeIndex_some s hfree
    have hfree' : (s.passing p r e x).freeIndex = some i := (freeIndex_congr (by rw [hpassing])).trans hfree
    have heq := createEntry_eq (c := s.capture p r e x) (claim := x.claim) hfree' x.override
    refine .of_made (i := i) (e := (s.passing p r e x).madeEntry (s.capture p r e x) x.override x.claim) ?_ ?_ hi hnone
      (fun hs => h.allowed hs hp hcur) (hmade.congr rfl (by rw [heq])) ?_
    · rw [heq]
      show wr (s.passing p r e x).entries i _ = _
      rw [hpassing]
    · rw [heq]
      show (s.passing p r e x).tables = _
      rw [hpassing]
    · rintro (hst | hcls)
      · unfold madeEntry at hst
        dsimp only at hst
        split at hst <;> cases hst
      · exact h.inquiry_items hcls
  · have hpost := post_within (s.passing p r e x) (s.capture p r e x) none none
    refine (testCompletion_keepsReservations _).after (.of_made_posted ?_ ?_ (fun hs => h.allowed hs hp hcur) hmade
      (post_posted (c := s.capture p r e x)))
    · exact (hpost .entries (by decide)).trans (by rw [hpassing])
    · exact (hpost .tables (by decide)).trans (by rw [hpassing])

theorem takeRequest_keepsReservations (p : Nat) (r : Request) : KeepsReservations s (s.takeRequest p r) := by
  refine KeepsReservations.after (t := s.copyRole p) ?_ (copyRole_keepsReservations p)
  obtain ⟨f, hrefused⟩ | ⟨e, x, leaving, hpassed, hp, hcur, hchecks⟩ := acceptance_cases (s := s.copyRole p) p r
  · rw [takeRequest_of_error hrefused]
    exact .of_still (refuse_within _ p r f)
  · rw [takeRequest_of_ok hpassed]
    exact carryThrough_keepsReservations hchecks hp.2 hcur

/-! ### Counts and proofs -/

theorem appended_keepsReservations (s : State) (body : Body) : KeepsReservations s (s.append body) := .of_still (append_within s body)

theorem balanceDrawer_keepsReservations {p d : Nat} {lists : List (List Nat)} {result : ProofResult}
    (h : s.ReservationsSound → ∀ c k, c < 4 → 1 ≤ k → k ≤ 12 →
      countAt (s.drawer d).reserved c k = 0 ∧ countAt (s.drawer d).incoming c k = 0) :
    KeepsReservations s (s.balanceDrawer p d lists result) := by
  unfold balanceDrawer
  dsimp only
  refine (testCompletion_keepsReservations _).after ((KeepsReservations.of_still (showAt_within _ _ _)).after ?_)
  obtain ⟨a, hbook⟩ := replaceBook_drawer s d lists
  have hrecorded := append_within (s.replaceBook d lists)
    (.proof p ((s.session p).teller.getD 0) d result (s.differences d lists))
  have hreplaced := replaceBook_within s d lists
  generalize (s.replaceBook d lists).append (.proof p ((s.session p).teller.getD 0) d result (s.differences d lists)) = t
    at hrecorded ⊢
  have hdrawer : ∀ e, t.drawer e = (s.setDrawer d { s.drawer d with book := s.countedBook d lists, ceiling := a }).drawer e :=
    fun e => (drawer_congr (hrecorded .drawers (by decide)) e).trans (hbook e)
  have hreport := drawerStateReport_within (t.setDrawer d { t.drawer d with state := .balanced, recount := (t.drawer d).recount }) d
  refine .of_rested ?_ ?_ fun hs e _ => ?_
  · exact (hreport .entries (by decide)).trans ((hrecorded .entries (by decide)).trans (hreplaced .entries (by decide)))
  · exact (hreport .tables (by decide)).trans ((hrecorded .tables (by decide)).trans (hreplaced .tables (by decide)))
  · have hlast : (t.setDrawerState d .balanced (t.drawer d).recount).drawer e =
        (t.setDrawer d { t.drawer d with state := .balanced, recount := (t.drawer d).recount }).drawer e :=
      drawer_congr (hreport .drawers (by decide)) e
    rw [hlast, drawer_setDrawer, hdrawer d, hdrawer e, drawer_setDrawer, drawer_setDrawer]
    by_cases hde : d = e ∧ d < 25
    · obtain ⟨rfl, hd⟩ := hde
      rw [if_pos ⟨rfl, hd⟩, if_pos ⟨rfl, hd⟩]
      exact ⟨rfl, rfl, .inr (h hs)⟩
    · rw [if_neg hde, if_neg hde]
      exact ⟨rfl, rfl, .inl ⟨rfl, .inl rfl⟩⟩

theorem setDrawerState_keepsReservations {d : Nat} {x : DrawerState} {n : Nat} (h : s.ReservationsSound → x = .active ∨
    ∀ c k, c < 4 → 1 ≤ k → k ≤ 12 → countAt (s.drawer d).reserved c k = 0 ∧ countAt (s.drawer d).incoming c k = 0) :
    KeepsReservations s (s.setDrawerState d x n) := by
  have hreport := drawerStateReport_within (s.setDrawer d { s.drawer d with state := x, recount := n }) d
  refine .of_rested (hreport .entries (by decide)) (hreport .tables (by decide)) fun hs e _ => ?_
  have hlast : (s.setDrawerState d x n).drawer e = (s.setDrawer d { s.drawer d with state := x, recount := n }).drawer e :=
    drawer_congr (hreport .drawers (by decide)) e
  rw [hlast, drawer_setDrawer]
  by_cases hde : d = e ∧ d < 25
  · obtain ⟨rfl, hd⟩ := hde
    rw [if_pos ⟨rfl, hd⟩]
    exact ⟨rfl, rfl, (h hs).imp (fun hx => ⟨rfl, .inr hx⟩) id⟩
  · rw [if_neg hde]
    exact ⟨rfl, rfl, .inl ⟨rfl, .inl rfl⟩⟩

theorem failProof_keepsReservations {p d : Nat} (h : s.holdsReservation d = false) :
    KeepsReservations s (s.failProof p d) := by
  unfold failProof
  dsimp only
  refine (testCompletion_keepsReservations _).after ((KeepsReservations.of_still (showAt_within _ _ _)).after ?_)
  split
  · exact .refl s
  · exact setDrawerState_keepsReservations fun _ => .inr (holdsReservation_eq_false_iff.mp h)

theorem takeCount_keepsReservations (p d : Nat) (lists : List (List Nat)) : KeepsReservations s (s.takeCount p d lists) := by
  unfold takeCount
  split
  · exact .of_still (countLineBadMessage_within s)
  · dsimp only
    refine KeepsReservations.after (t := s.copyRole p) ?_ (copyRole_keepsReservations p)
    split
    · exact .of_still (showAt_within _ _ _)
    · next hchecks =>
      have hnone := firstFailure_none hchecks ((s.copyRole p).holdsReservation d, .busy) (by simp [countChecks])
      split
      · exact balanceDrawer_keepsReservations fun _ => holdsReservation_eq_false_iff.mp hnone
      · exact failProof_keepsReservations hnone

theorem takeAcceptDiff_keepsReservations (p d : Nat) (lists : List (List Nat)) :
    KeepsReservations s (s.takeAcceptDiff p d lists) := by
  unfold takeAcceptDiff
  split
  · exact .of_still (countLineBadMessage_within s)
  · next hd =>
    dsimp only
    refine KeepsReservations.after (t := s.copyRole p) ?_ (copyRole_keepsReservations p)
    split
    · exact .of_still (showAt_within _ _ _)
    · next hchecks =>
      have hstate := firstFailure_none hchecks (((s.copyRole p).drawer d).state != .awaitingAccept, .drawerState)
        (by simp [acceptDiffChecks])
      have hwaits : ((s.copyRole p).drawer d).state = .awaitingAccept := by simpa using hstate
      exact balanceDrawer_keepsReservations fun hs => hs.resting d (Nat.le_of_not_lt hd) (by rw [hwaits]; decide)

theorem takeReopen_keepsReservations (p d : Nat) : KeepsReservations s (s.takeReopen p d) := by
  unfold takeReopen
  split
  · exact .of_still (countLineBadMessage_within s)
  · dsimp only
    refine KeepsReservations.after (t := s.copyRole p) ?_ (copyRole_keepsReservations p)
    split
    · exact .of_still (showAt_within _ _ _)
    · exact (testCompletion_keepsReservations _).after ((appended_keepsReservations _ _).after
        (setDrawerState_keepsReservations fun _ => .inl rfl))

/-! ### The day and the tables -/

theorem takeCutoff_keepsReservations (pos teller : Option Nat) : KeepsReservations s (s.takeCutoff pos teller) :=
  (testCompletion_keepsReservations _).after ((KeepsReservations.of_still (dayNotice_within _)).after
    ((KeepsReservations.of_still (setDayState_within _ _)).after (appended_keepsReservations s _)))

theorem takeClose_keepsReservations (p : Nat) : KeepsReservations s (s.takeClose p) := by
  unfold takeClose
  dsimp only
  refine KeepsReservations.after (t := s.copyRole p) ?_ (copyRole_keepsReservations p)
  split
  · exact .of_still (showAt_within _ _ _)
  · split
    · exact .of_still (showAt_within _ _ _)
    · exact takeCutoff_keepsReservations _ _

/-- A request that may change the part: its effect, then the reply. -/
theorem answerDo_keepsReservations (code : Byte) (tag n : Nat) (bs : List Byte) (f : State × Verdict)
    (h : KeepsReservations s f.1) : KeepsReservations s (s.answerDo code tag n bs f) := by
  unfold answerDo
  split
  · exact (KeepsReservations.of_still (reply_within f.1 code tag f.2)).after h
  · exact .of_still (reply_within s _ _ _)

/-- OPEN DAY carries the counts forward and makes every drawer ACTIVE (R125). -/
theorem mgmtOpen_keepsReservations (tag : Nat) (bs : List Byte) : KeepsReservations s (s.mgmtOpen tag bs) := by
  have hopen : ∀ date, KeepsReservations s (s.openDay date) := fun date => by
    have hbegun : KeepsReservations s (s.dayOpened date) := .of_quiet rfl rfl (.of_drawers rfl)
    rw [openDay_eq]
    refine (KeepsReservations.of_still (dayNotice_within _)).after
      ((KeepsReservations.of_still (setDayState_within _ _)).after (KeepsReservations.after ?_ hbegun))
    have hcarry := carryDrawers_within (s.dayOpened date)
    refine .of_rested (hcarry .entries (by decide)) (hcarry .tables (by decide)) fun _ d hd => ?_
    rw [carryDrawers_drawer _ hd]
    exact ⟨rfl, rfl, .inl ⟨rfl, .inr rfl⟩⟩
  refine answerDo_keepsReservations _ _ _ _ _ ?_
  unfold mgmtOpenDay
  split
  · exact .refl s
  · split
    · exact .refl s
    · dsimp only
      exact hopen bs

theorem mgmtCut_keepsReservations (tag : Nat) (bs : List Byte) : KeepsReservations s (s.mgmtCut tag bs) := by
  refine answerDo_keepsReservations _ _ _ _ _ ?_
  unfold mgmtCutoff
  split
  · exact takeCutoff_keepsReservations _ _
  · exact .refl s

/-- A currency that a content spells has 1 to 12 faces (R14). -/
theorem parseCurrency_faces {bs : List Byte} {e : CurrencyEntry} (h : parseCurrency bs = some e) : e.faces.length ≤ 12 := by
  unfold parseCurrency at h
  dsimp only at h
  split at h
  · cases h
  · split at h
    · next hchecks =>
      cases h
      simp only [Bool.and_eq_true, inRange, decide_eq_true_eq] at hchecks
      obtain ⟨⟨⟨⟨-, hn⟩, -⟩, -⟩, -⟩ := hchecks
      rw [List.length_map, List.length_range]
      exact hn.2
    · cases h

theorem parseContent_currency {x : Section} {bs : List Byte} {e : CurrencyEntry}
    (h : parseContent x bs = some (.currency (some e))) : e.faces.length ≤ 12 := by
  unfold parseContent at h
  cases x <;> dsimp only at h <;> split at h <;> simp only [Option.map_eq_some_iff, reduceCtorEq, Option.some.injEq,
    TableEntry.currency.injEq, and_false, exists_false, exists_eq_right] at h
  exact parseCurrency_faces h

theorem positionWritten_funds (s : State) (old : Tables) (i : Nat) : FundsKept s (s.positionWritten old i) := by
  unfold positionWritten
  dsimp only
  have hserving : FundsKept s (if old.serving i = s.tables.serving i then s else s.servingChanged i) := by
    split
    · exact .refl s
    · exact servingChanged_funds s i
  generalize (if old.serving i = s.tables.serving i then s else s.servingChanged i) = t at hserving ⊢
  split
  · exact hserving
  · exact ((FundsKept.of_within (touch_within _ _ _)).after (.of_within (reevaluate_within t _))).after hserving

theorem afterWrite_funds (s : State) (old : Tables) (i : Nat) (e : TableEntry) : FundsKept s (s.afterWrite old i e) := by
  unfold afterWrite
  split
  · exact .of_within (refreshForms_within s _)
  · exact .of_within (refreshForms_within s _)
  · exact .of_within (touch_within s _ _)
  · exact .of_within (touch_within s _ _)
  · exact .of_within (onScreens_within s _ _)
  · exact positionWritten_funds s old i
  · exact .fold (fun t p => .of_within (copyRole_within t p)) _ s
  · exact .refl s

/-- A TABLE WRITE stores an entry that its content spells, or changes nothing (R13). -/
theorem tableWrite_cases (s : State) (bs : List Byte) : (s.tableWrite bs).1 = s ∨
    ∃ x i content e, parseContent x content = some e ∧ s.inUse i e = false ∧ (s.tableWrite bs).1 = s.storeEntry i e := by
  unfold tableWrite
  split
  · exact .inl rfl
  · split
    · exact .inl rfl
    · split
      · exact .inl rfl
      · unfold writeSection
        split
        · exact .inl rfl
        · split
          · exact .inl rfl
          · split
            · exact .inl rfl
            · split
              · exact .inl rfl
              · unfold writeChecked
                split
                · exact .inl rfl
                · next hparse =>
                  split
                  · exact .inl rfl
                  · split
                    · exact .inl rfl
                    · split
                      · exact .inl rfl
                      · next hfree => exact .inr ⟨_, _, _, _, hparse, by simpa using hfree, rfl⟩

theorem mgmtTableWrite_keepsReservations (tag : Nat) (bs : List Byte) : KeepsReservations s (s.mgmtTableWrite tag bs) := by
  unfold mgmtTableWrite
  refine (KeepsReservations.of_still (reply_within _ _ _ _)).after ?_
  obtain h | ⟨x, i, content, e, hparse, -, h⟩ := tableWrite_cases s bs
  · rw [h]
    exact .refl s
  · rw [h]
    have hstored := storeEntry_within s i e
    refine .of_tables (hstored .entries (by decide))
      ((afterWrite_funds _ _ i e).after (.of_drawers rfl)) fun c f hf => ?_
    have htables : (s.storeEntry i e).tables = s.tables.store i e := afterWrite_within _ _ _ _ .tables (by decide)
    rw [htables] at hf
    cases e with
    | currency y =>
      have hread : (s.tables.store i (.currency y)).currency c = if i = c ∧ i < 4 then y else s.tables.currency c := rd_wr ..
      rw [hread] at hf
      split at hf
      · subst hf
        exact .inr (parseContent_currency hparse)
      · exact .inl hf
    | _ => exact .inl hf

/-! ### Frames, timers, starts and the office link -/

theorem deliver_keepsReservations (p : Nat) (m : InMsg) : KeepsReservations s (s.deliver p m) := by
  cases m with
  | request r => exact takeRequest_keepsReservations p r
  | cancel => exact takeCancel_keepsReservations p
  | override tag decision => exact takeOverride_keepsReservations p tag decision
  | count d lists => exact takeCount_keepsReservations p d lists
  | reopen d => exact takeReopen_keepsReservations p d
  | acceptDiff d lists => exact takeAcceptDiff_keepsReservations p d lists
  | close => exact takeClose_keepsReservations p
  | opened => exact .of_within (takeOpened_within s p) (takeOpened_funds s p)
  | closed => exact .of_within (takeClosed_within s p) (takeClosed_funds s p)
  | fault => exact .of_within (takeFault_within s p) (takeFault_funds s p)
  | signOn teller => exact .of_still (takeSignOn_within s p teller)
  | signOff => exact .of_still (takeSignOff_within s p)
  | suspend => exact .of_still (takeSuspend_within s p)
  | resume teller => exact .of_still (takeResume_within s p teller)
  | form f => exact .of_still (takeFormMessage_within s p f)
  | bookIn account layout page line => exact .of_still (takeBookIn_within s p account layout page line)
  | bookOut => exact .of_still (takeBookOut_within s p)
  | status v =>
    cases v with
    | ready => exact .of_still (takeReady_within s p)
    | lineDone => exact .of_still (takeLineDone_within s p)
    | jam => exact .of_still (takeJam_within s p)
    | jamCleared => exact .of_still (takeJamCleared_within s p)
    | turned => exact .of_still (takeTurned_within s p)
  | bad => exact .of_still (countLineBadMessage_within s)

theorem receive_keepsReservations (f : RxFrame) : KeepsReservations s (s.receive f) := by
  obtain ⟨hfunds, hquiet⟩ | ⟨t, p, m, hfunds, hbefore, heq⟩ := receive_cases s f
  · exact .of_within hquiet hfunds.funds
  · rw [heq]
    exact (deliver_keepsReservations p m).after (.of_within hbefore hfunds.funds)

theorem receiveBytes_keepsReservations (bs : List Byte) : KeepsReservations s (s.receiveBytes bs) := by
  unfold receiveBytes
  split
  · exact receive_keepsReservations _
  · exact .refl s

theorem approvalExpires_keepsReservations (i : Nat) : KeepsReservations s (s.approvalExpires i) := by
  unfold approvalExpires
  split
  · next he =>
    split
    · exact endCentre_keepsReservations he _ _
    · exact .refl s
  · exact .refl s

theorem overrideExpires_keepsReservations (i : Nat) : KeepsReservations s (s.overrideExpires i) := by
  unfold overrideExpires
  split
  · next he =>
    split
    · exact endOverride_keepsReservations he _
    · exact .refl s
  · exact .refl s

theorem queueReversal_keepsReservations (i : Nat) : KeepsReservations s (s.queueReversal i) := by
  unfold queueReversal
  split
  · split
    · exact (testCompletion_keepsReservations _).after (offerReversal_keepsReservations i)
    · exact .refl s
  · exact .refl s

theorem tickEntry_keepsReservations (i : Nat) : KeepsReservations s (s.tickEntry i) := by
  unfold tickEntry
  split
  · exact .refl s
  · next e he =>
    refine .of_entry (i := i) (x := some { e with timer := tickDown e.timer }) rfl rfl (.of_drawers rfl) (entry_index s he) he
      (fun f hf => ?_) rfl
    cases hf
    exact ⟨rfl, id⟩

theorem tick_keepsReservations : KeepsReservations s s.tick := by
  unfold tick
  dsimp only
  refine KeepsReservations.after (.of_still (withPending_within _ _)) (KeepsReservations.after (.of_still (tickDay_within _)) ?_)
  exact (KeepsReservations.fold (fun t p => .of_still (tickPrinter_within t p)) _ _).after
    ((KeepsReservations.fold (fun t d => .of_within (tickDrawer_within t d) (tickDrawer_funds t d)) _ _).after
      ((KeepsReservations.fold (fun t i => tickEntry_keepsReservations i) _ _).after (.of_still (tickLine_within s))))

theorem coldStart_keepsReservations (n : Nat) (b : Bool) : KeepsReservations s (s.coldStart n b) := by
  intro _
  have hnone : ∀ i, (s.coldStart n b).entry i = none := fun i => rd_replicate _ _
  have hcold : ∀ d, (s.coldStart n b).drawer d = Drawer.cold := fun d => rd_replicate _ _
  have hzero : ∀ c k, countAt CountTable.zero c k = 0 := countAt_zero
  refine ⟨fun c e hc => ?_, fun i e y he _ => ?_, fun i e he _ => ?_, fun d c k _ _ _ _ => ?_, fun d c k _ _ _ _ => ?_,
    fun d _ _ c k _ _ _ => ?_⟩
  · exact absurd hc (by rw [show (s.coldStart n b).tables.currency c = none from rd_replicate _ _]; exact nofun)
  · exact absurd he (by rw [hnone]; exact nofun)
  · exact absurd he (by rw [hnone]; exact nofun)
  · rw [hcold, overEntries_of_empty hnone, overEntries_of_empty hnone]
    exact ⟨hzero c k, hzero c k⟩
  · rw [hcold]
    exact (hzero c k).trans_le (Nat.zero_le _)
  · rw [hcold]
    exact ⟨hzero c k, hzero c k⟩

/-- A warm start releases every reservation (R88, R113). -/
theorem warmStart_keepsReservations (n : Nat) (b : Bool) : KeepsReservations s (s.warmStart n b) := by
  rw [warmStart_eq]
  have hcompletion : KeepsReservations (s.warmKept n b) (s.warmKept n b).warmCompletion := by
    refine .of_within (warmCompletion_within _) ?_
    unfold warmCompletion
    split
    · exact (startSending_funds _).after ((closeJournal_funds _ _).after ((FundsKept.of_within (writeRecord_within _ _)).after
        (clearReleases_funds _)))
    · exact .refl _
  refine hcompletion.after fun hs => ?_
  have hnone : ∀ i, (s.warmKept n b).entry i = none := fun i =>
    (congrArg (rd · i none) (warmKept_entries s n b)).trans (rd_replicate _ _)
  have hzero : ∀ d c k, d ≤ 24 → c < 4 → 1 ≤ k → k ≤ 12 →
      countAt ((s.warmKept n b).drawer d).reserved c k = 0 ∧ countAt ((s.warmKept n b).drawer d).incoming c k = 0 :=
    fun d c k hd hc h1 h12 => Proofs.warmKept_unreserved hs n b hd hc h1 h12
  have htables : (s.warmKept n b).tables = s.tables := warmKept_within s n b .tables (by decide)
  refine ⟨fun c e hc => hs.faces c e (htables ▸ hc), fun i e y he _ => absurd he (by rw [hnone]; exact nofun),
    fun i e he _ => absurd he (by rw [hnone]; exact nofun), fun d c k hd hc h1 h12 => ?_, fun d c k hd hc h1 h12 => ?_,
    fun d hd _ c k hc h1 h12 => hzero d c k hd hc h1 h12⟩
  · rw [overEntries_of_empty hnone, overEntries_of_empty hnone]
    exact hzero d c k hd hc h1 h12
  · rw [(hzero d c k hd hc h1 h12).1]
    exact Nat.zero_le _

theorem powerOn_keepsReservations (n : Nat) (b : Bool) : KeepsReservations s (s.powerOn n b) := by
  unfold powerOn
  split
  · exact warmStart_keepsReservations n b
  · exact coldStart_keepsReservations n b

theorem restart_keepsReservations (tag : Nat) (bs : List Byte) (n : Nat) : KeepsReservations s (s.restart tag bs n) := by
  unfold restart
  split
  · exact coldStart_keepsReservations n _
  · split
    · exact warmStart_keepsReservations n _
    · exact .of_still (reply_within s _ _ _)

theorem takeMgmt_keepsReservations (tag : Nat) (bs : List Byte) : KeepsReservations s (s.takeMgmt tag bs) := by
  have hread : ∀ c n bs v, KeepsReservations s (s.answerRead c tag n bs v) := fun c n bs v =>
    .of_still (answerRead_within s c tag n bs v)
  unfold takeMgmt
  split
  · exact (KeepsReservations.of_still (reply_within _ _ _ _)).after (.of_still (drawFree_within s))
  · split
    · exact hread _ _ _ _
    · exact hread _ _ _ _
    · exact mgmtTableWrite_keepsReservations _ _
    · exact hread _ _ _ _
    · exact .of_still (mgmtLock_within s _ _)
    · exact mgmtOpen_keepsReservations _ _
    · exact mgmtCut_keepsReservations _ _
    · exact .of_still (mgmtReopen_within s _ _)
    · exact .of_still (mgmtResume_within s _ _)
    · exact hread _ _ _ _
    · exact hread _ _ _ _
    · exact hread _ _ _ _
    · exact hread _ _ _ _
    · exact .of_still (mgmtReadCounters_within s _ _)
    · exact .of_still (mgmtSurvey_within s _ _)
    · exact hread _ _ _ _
    · exact .of_still (mgmtSurveySummary_within s _ _)
    · exact restart_keepsReservations _ _ _
    · exact .of_still (reply_within s _ _ _)

theorem filterNode_keepsReservations (k n tag : Nat) (bs : List Byte) : KeepsReservations s (s.filterNode k n tag bs) := by
  unfold filterNode
  split
  · unfold route
    split
    · exact takeAnswer_keepsReservations _ _
    · exact takeMgmt_keepsReservations _ _
    · exact .of_still (takeAck_within s _)
    · exact .of_still (takeNack_within s _)
    · exact .refl s
  · exact .of_still (countLinkWrongNode_within s)

theorem receiveOffice_keepsReservations (bs : List Byte) : KeepsReservations s (s.receiveOffice bs) := by
  unfold receiveOffice
  split
  · exact .of_still (dropBadFrame_within s)
  · exact filterNode_keepsReservations _ _ _ _

/-- No command breaks the account of the reservations. -/
theorem exec_keepsReservations {c : Instr} {t : State} (h : exec c s = .next t) : KeepsReservations s t := by
  cases c with
  | powerOn straps retv => cases h; exact powerOn_keepsReservations _ _
  | restart tag params straps => cases h; exact restart_keepsReservations _ _ _
  | badFrame frame => cases h; exact receiveOffice_keepsReservations _
  | wrongNodeFrame kind node tag payload => cases h; exact filterNode_keepsReservations _ _ _ _
  | answer tag payload => cases h; exact takeAnswer_keepsReservations _ _
  | tableWrite tag params => cases h; exact mgmtTableWrite_keepsReservations _ _
  | openDay tag params => cases h; exact mgmtOpen_keepsReservations _ _
  | cutoff tag params => cases h; exact mgmtCut_keepsReservations _ _
  | reopenDay tag params => cases h; exact .of_still (mgmtReopen_within s _ _)
  | resumeBatch tag params => cases h; exact .of_still (mgmtResume_within s _ _)
  | reversalNoticeQueued index => cases h; exact queueReversal_keepsReservations _
  | grantedRequestQueued index => cases h; exact queueGranted_keepsReservations _
  | approvalWaitExpiry index => cases h; exact approvalExpires_keepsReservations _
  | overrideWaitExpiry index => cases h; exact overrideExpires_keepsReservations _
  | openAlarmExpiry drawer => cases h; exact .of_within (openAlarmExpires_within s _) (openAlarmExpires_funds s _)
  | grant => cases h; exact .of_within (grant_within s) (grant_operates s).funds
  | unitReplyWaitExpiry => cases h; exact .of_within (replyWaitExpires_within s) (replyWaitExpires_operates s).funds
  | lineFrameDiscarded frame | inboundFrameRejected frame | surveyProbeBadReply frame =>
    cases h; exact receiveBytes_keepsReservations _
  | rollAnswer | accept | reject | busy | echo | repeatMessage | lineBadMessage | signOn | signOff | suspend | resume | request
  | cancel | override | count | acceptDiff | reopen | form | close | bookIn | bookOut | statusReady | lineDone | turned | jam
  | jamCleared | opened | closed | fault => cases h; exact receive_keepsReservations _
  | _ =>
    exact .of_quiet (exec_keeps h (a := .entries) (of_decide_eq_true rfl)) (exec_keeps h (a := .tables) (of_decide_eq_true rfl))
      (.of_drawers (exec_keeps h (a := .drawers) (of_decide_eq_true rfl)))

end State

end Sys2Proof.Machine

namespace Sys2Proof.Proofs

open Sys2Proof.Machine Sys2Proof.Machine.State

/-- Settles O59: each operation on entries and drawers keeps the sums of the items. -/
theorem reservationsKept : Obligations.ReservationsKept := by
  unfold Obligations.ReservationsKept
  intro s t hs h
  unfold step at h
  split at h
  · injection h with h
    rw [← h]
    exact tick_keepsReservations hs
  · next rest _ =>
    exact KeepsReservations.after (exec_keepsReservations h) (.of_still (withPending_within s rest)) hs

end Sys2Proof.Proofs
end

