-- ==== Sys2Proof/Proofs/JournalAccount.lean ====
section
/-! The account of the journal's places (R172, R175, R176): what a claim taken, used or released does to it, and what a record of
the general class and one of the closing reserve do. -/

set_option Elab.async false

namespace Sys2Proof.Machine

/-- The account of the journal's places stays sound. -/
def KeepsJournal (s t : State) : Prop := s.JournalSound → t.JournalSound

/-- The same sessions are open, the same drawers are not BALANCED, and the day is in the same state: the needs of the close of
the day rest on these alone. -/
structure NeedsKept (s t : State) : Prop where
  sessions : ∀ p, ((t.session p).state != .signedOff) = ((s.session p).state != .signedOff)
  drawers : ∀ d, ((t.drawer d).state != .balanced) = ((s.drawer d).state != .balanced)
  day : t.day.state = s.day.state

/-- The day states in which the journal is closed (R179). -/
def Settled (x : DayState) : Prop := x = .sending ∨ x = .held ∨ x = .sent

namespace NeedsKept

variable {s t u : State}

theorem refl (s : State) : NeedsKept s s := ⟨fun _ => rfl, fun _ => rfl, rfl⟩

theorem after (h : NeedsKept t u) (g : NeedsKept s t) : NeedsKept s u :=
  ⟨fun p => (h.sessions p).trans (g.sessions p), fun d => (h.drawers d).trans (g.drawers d), h.day.trans g.day⟩

theorem of_funds {may : List Aspect} (h : Within may s t) (hf : FundsKept s t) (hs : Aspect.sessions ∉ may := by decide)
    (hd : Aspect.dayState ∉ may := by decide) : NeedsKept s t :=
  ⟨fun p => congrArg (fun x : Session => x.state != .signedOff) (State.session_congr (h .sessions hs) p),
    fun d => congrArg (· != .balanced) (hf.state d), h .dayState hd⟩

theorem of_within {may : List Aspect} (h : Within may s t) (hs : Aspect.sessions ∉ may := by decide)
    (hd : Aspect.dayState ∉ may := by decide) (hw : Aspect.drawers ∉ may := by decide) : NeedsKept s t :=
  of_funds h (.of_within h hw) hs hd

theorem fold {α : Type} {f : State → α → State} (h : ∀ t x, NeedsKept t (f t x)) (l : List α) (s : State) :
    NeedsKept s (l.foldl f s) := by
  induction l generalizing s with
  | nil => exact refl s
  | cons x l ih => exact (ih (f s x)).after (h s x)

/-- A drawer changes, and is BALANCED or not as before. -/
theorem of_setDrawer {d : Nat} {x : Drawer} (hx : (x.state != .balanced) = ((s.drawer d).state != .balanced)) : NeedsKept s (s.setDrawer d x) := by
  refine ⟨fun _ => rfl, fun e => ?_, rfl⟩
  rw [State.drawer_setDrawer]
  split
  · next h => rw [← h.1, hx]
  · rfl

/-- A session changes, and is open or not as before. -/
theorem of_setSession {p : Nat} {x : Session} (hx : (x.state != .signedOff) = ((s.session p).state != .signedOff)) :
    NeedsKept s (s.setSession p x) := by
  have hwithin := State.setSession_within s p x
  refine ⟨fun q => ?_, fun d => congrArg (fun y : Drawer => y.state != .balanced)
    (State.drawer_congr (hwithin .drawers (by decide)) d), hwithin .dayState (by decide)⟩
  by_cases hq : q = p ∧ 1 ≤ p ∧ p ≤ 24
  · rw [hq.1, State.session_setSession s hq.2, hx]
  · by_cases hqp : q = p
    · rw [hqp, State.session_outside _ fun hp => hq ⟨hqp, hp⟩, State.session_outside _ fun hp => hq ⟨hqp, hp⟩]
    · rw [State.session_setSession_other (Ne.symm hqp)]

theorem need (h : NeedsKept s t) : t.closingNeed = s.closingNeed := by
  unfold State.closingNeed
  simp only [h.sessions, h.drawers, h.day]

end NeedsKept

/-- One member leaves what a list of distinct members filters. -/
theorem length_filter_change {f g : Nat → Bool} {i : Nat} {l : List Nat} (hi : i ∈ l) (hl : l.Nodup) (hf : f i = false)
    (hg : g i = true) (h : ∀ j, j ≠ i → f j = g j) : (l.filter f).length + 1 = (l.filter g).length := by
  have herase : l.filter f = (l.filter g).erase i := by
    rw [(hl.filter g).erase_eq_filter, List.filter_filter]
    refine List.filter_congr fun j _ => ?_
    by_cases hj : j = i
    · rw [hj, hf]
      simp
    · rw [h j hj]
      simp [hj]
  have hmem : i ∈ l.filter g := List.mem_filter.mpr ⟨hi, hg⟩
  rw [herase, List.length_erase_of_mem hmem]
  exact Nat.sub_add_cancel (List.length_pos_of_mem hmem)

namespace State

variable {s t : State}

/-- A session that ends needs its SIGN_OFF record no more. -/
theorem closingNeed_session {p : Nat} (hp : 1 ≤ p ∧ p ≤ 24) (hopen : (s.session p).state ≠ .signedOff)
    (hoff : (t.session p).state = .signedOff) (hsessions : ∀ q, q ≠ p → t.session q = s.session q)
    (hdrawers : t.drawers = s.drawers) (hday : t.day.state = s.day.state) : t.closingNeed + 1 = s.closingNeed := by
  have hchange := length_filter_change (f := fun q => (t.session q).state != .signedOff)
    (g := fun q => (s.session q).state != .signedOff) (mem_allPositions.mpr hp) allPositions_nodup (by simp [hoff])
    (by simpa using hopen) fun q hq => by rw [hsessions q hq]
  unfold closingNeed
  simp only [drawer_congr hdrawers, hday]
  omega

/-- A drawer that becomes BALANCED needs its PROOF record no more. -/
theorem closingNeed_drawer {d : Nat} (hd : d ≤ 24) (hopen : (s.drawer d).state ≠ .balanced)
    (hbalanced : (t.drawer d).state = .balanced) (hdrawers : ∀ e, e ≠ d → (t.drawer e).state = (s.drawer e).state)
    (hsessions : t.sessions = s.sessions) (hday : t.day.state = s.day.state) : t.closingNeed + 1 = s.closingNeed := by
  have hchange := length_filter_change (f := fun e => (t.drawer e).state != .balanced)
    (g := fun e => (s.drawer e).state != .balanced) (mem_allDrawers.mpr hd) allDrawers_nodup (by simp [hbalanced])
    (by simpa using hopen) fun e he => by rw [hdrawers e he]
  unfold closingNeed
  simp only [session_congr hsessions, hday]
  omega

/-- A cutoff needs its record no more. -/
theorem closingNeed_cutoff (hopen : s.day.state ≠ .cutoff) (hcut : t.day.state = .cutoff) (hsessions : t.sessions = s.sessions)
    (hdrawers : t.drawers = s.drawers) : t.closingNeed + 1 = s.closingNeed := by
  unfold closingNeed
  simp only [session_congr hsessions, drawer_congr hdrawers, if_pos hcut, if_neg hopen]

theorem closingNeed_pos (s : State) : 1 ≤ s.closingNeed := Nat.le_add_left ..

end State

namespace KeepsJournal

open State

variable {s t u : State} {i n k : Nat} {e : Entry} {x : Option Entry}

theorem refl (s : State) : KeepsJournal s s := id

theorem after (h : KeepsJournal t u) (g : KeepsJournal s t) : KeepsJournal s u := h ∘ g

theorem fold {α : Type} {f : State → α → State} (h : ∀ t x, KeepsJournal t (f t x)) (l : List α) (s : State) :
    KeepsJournal s (l.foldl f s) := by
  induction l generalizing s with
  | nil => exact refl s
  | cons x l ih => exact (ih (f s x)).after (h s x)

/-- The entries are the same, and so are claims and closure: what is left to show is that the journal fits its places. -/
theorem of_places (he : t.entries = s.entries) (hclaims : t.journal.claims = s.journal.claims)
    (hclosed : t.journal.closed = true ↔ Settled t.day.state)
    (hplaces : s.JournalSound → t.journal.records.length + s.journal.claims +
      (if t.journal.closed then 0 else t.closingNeed) ≤ 16384) : KeepsJournal s t := fun hs =>
  { held := fun i f hf => hs.held i f ((entry_congr he i) ▸ hf)
    claims := hclaims.trans (hs.claims.trans (overEntries_congr he _).symm)
    closed := hclosed
    places := hclaims ▸ hplaces hs }

/-- Neither entries nor journal change, nor what the close of the day needs. -/
theorem of_quiet (he : t.entries = s.entries) (hj : t.journal = s.journal) (hn : NeedsKept s t) : KeepsJournal s t := by
  intro hs
  refine of_places he (by rw [hj]) (by rw [hj, hn.day]; exact hs.closed) (fun hs => ?_) hs
  rw [hj, hn.need]
  exact hs.places

theorem of_within {may : List Aspect} (h : Within may s t) (hn : NeedsKept s t) (he : Aspect.entries ∉ may := by decide)
    (hj : Aspect.journal ∉ may := by decide) : KeepsJournal s t := of_quiet (h .entries he) (h .journal hj) hn

theorem of_still {may : List Aspect} (h : Within may s t) (hs : Aspect.sessions ∉ may := by decide)
    (hd : Aspect.dayState ∉ may := by decide) (hw : Aspect.drawers ∉ may := by decide) (he : Aspect.entries ∉ may := by decide)
    (hj : Aspect.journal ∉ may := by decide) : KeepsJournal s t := of_within h (.of_within h hs hd hw) he hj

/-- The batch goes on in a closed journal. -/
theorem of_batch {may : List Aspect} (h : Within may s t) (hs : Settled s.day.state) (ht : Settled t.day.state)
    (he : Aspect.entries ∉ may := by decide) (hj : Aspect.journal ∉ may := by decide) : KeepsJournal s t := by
  intro hsound
  have hjournal := h .journal hj
  have hclosed : t.journal.closed = true := by rw [hjournal]; exact hsound.closed.mpr hs
  refine of_places (h .entries he) (by rw [hjournal]) (iff_of_true hclosed ht) (fun hsound => ?_) hsound
  have hplaces := hsound.places
  rw [hjournal] at hclosed ⊢
  rw [if_pos hclosed] at hplaces ⊢
  exact hplaces

/-- A record of the general class: 64 places stay free for the close of the day, whatever it needs (R176). -/
theorem of_general (he : t.entries = s.entries) (hlen : t.journal.records.length = s.journal.records.length + 1)
    (hclaims : t.journal.claims = s.journal.claims) (hclosed : t.journal.closed = s.journal.closed)
    (hday : Settled t.day.state ↔ Settled s.day.state) (hroom : 1 ≤ s.generalSpace) : KeepsJournal s t := by
  intro hs
  refine of_places he hclaims (by rw [hclosed, hs.closed, hday]; rfl) (fun _ => ?_) hs
  have hneed := closingNeed_le t
  have hspace : (16384 : Int) - s.journal.records.length - s.journal.claims - 64 ≥ 1 := hroom
  split <;> omega

/-- A record of the closing reserve takes the place that the close of the day needed for it (R176, R177). -/
theorem of_reserve (he : t.entries = s.entries) (hlen : t.journal.records.length = s.journal.records.length + 1)
    (hclaims : t.journal.claims = s.journal.claims) (hclosed : t.journal.closed = s.journal.closed)
    (hday : Settled t.day.state ↔ Settled s.day.state) (hopen : s.JournalSound → s.journal.closed = false)
    (hneed : t.closingNeed + 1 = s.closingNeed) : KeepsJournal s t := by
  intro hs
  refine of_places he hclaims (by rw [hclosed, hs.closed, hday]; rfl) (fun _ => ?_) hs
  have hplaces := hs.places
  rw [hopen hs] at hclosed hplaces
  rw [hclosed]
  simp only [Bool.false_eq_true, if_false] at hplaces ⊢
  omega

/-- One place of the table changes, with k claims used or released and n records written against them. -/
theorem of_claimed (he : t.entries = wr s.entries i x) (hi : i < 32)
    (hlen : t.journal.records.length = s.journal.records.length + n) (hclaims : t.journal.claims = s.journal.claims - k)
    (hclosed : t.journal.closed = s.journal.closed) (hn : NeedsKept s t)
    (hx : s.JournalSound → n ≤ k ∧ figureOf (·.claim) (s.entry i) = figureOf (·.claim) x + k ∧
      ∀ f, x = some f → f.claim = f.claimDue ∧ (f.state = .waitingOverride → f.req.snap.cls ≠ .inquiry)) :
    KeepsJournal s t := by
  intro hs
  obtain ⟨hnk, hfig, hheld⟩ := hx hs
  have hsum := overEntries_wr he hi (·.claim)
  have hplaces := hs.places
  have htotal := hs.claims
  have hk : k ≤ s.journal.claims := by
    cases hold : s.entry i with
    | none =>
      rw [hold, figureOf_none] at hfig
      omega
    | some e =>
      have hle := figure_le_overEntries hold (·.claim)
      rw [hold, figureOf_some] at hfig
      omega
  refine ⟨fun j f hf => ?_, by omega, by rw [hclosed, hn.day]; exact hs.closed, by rw [hclosed, hn.need]; omega⟩
  rw [entry_of_wr he] at hf
  split at hf
  · exact hheld f hf
  · exact hs.held j f hf

/-- An entry changes without its claim. -/
theorem of_entry (he : t.entries = wr s.entries i x) (hj : t.journal = s.journal) (hn : NeedsKept s t) (hold : s.entry i = some e)
    (hx : s.JournalSound → figureOf (·.claim) x = e.claim ∧
      ∀ f, x = some f → f.claim = f.claimDue ∧ (f.state = .waitingOverride → f.req.snap.cls ≠ .inquiry)) : KeepsJournal s t :=
  of_claimed (n := 0) (k := 0) he (entry_index s hold) (congrArg (·.records.length) hj) (congrArg (·.claims) hj) (congrArg (·.closed) hj) hn
    fun hs => ⟨Nat.le_refl _, by rw [hold, figureOf_some, (hx hs).1, Nat.add_zero], (hx hs).2⟩

/-- An entry is freed with its claim. -/
theorem of_released (he : t.entries = wr s.entries i none) (hlen : t.journal.records = s.journal.records)
    (hclaims : t.journal.claims = s.journal.claims - e.claim) (hclosed : t.journal.closed = s.journal.closed)
    (hn : NeedsKept s t) (hold : s.entry i = some e) : KeepsJournal s t :=
  of_claimed (n := 0) (k := e.claim) he (entry_index s hold) (congrArg List.length hlen) hclaims hclosed hn fun _ =>
    ⟨Nat.zero_le _, by rw [hold, figureOf_some, figureOf_none, Nat.zero_add], fun _ hf => by cases hf⟩

/-- An entry uses one of its claims for a record (R175). -/
theorem of_used (he : t.entries = wr s.entries i x) (hlen : t.journal.records.length = s.journal.records.length + 1)
    (hclaims : t.journal.claims = s.journal.claims - 1) (hclosed : t.journal.closed = s.journal.closed)
    (hn : NeedsKept s t) (hold : s.entry i = some e)
    (hx : s.JournalSound → e.claim = figureOf (·.claim) x + 1 ∧
      ∀ f, x = some f → f.claim = f.claimDue ∧ (f.state = .waitingOverride → f.req.snap.cls ≠ .inquiry)) : KeepsJournal s t :=
  of_claimed he (entry_index s hold) hlen hclaims hclosed hn fun hs => ⟨Nat.le_refl 1, by rw [hold, figureOf_some, (hx hs).1], (hx hs).2⟩

/-- A new entry takes its claim from general space (R61, R175). -/
theorem of_made (he : t.entries = wr s.entries i (some e)) (hi : i < 32) (hfree : s.entry i = none)
    (hlen : t.journal.records = s.journal.records) (hclaims : t.journal.claims = s.journal.claims + e.claim)
    (hclosed : t.journal.closed = s.journal.closed) (hn : NeedsKept s t)
    (hheld : e.claim = e.claimDue ∧ (e.state = .waitingOverride → e.req.snap.cls ≠ .inquiry))
    (hroom : e.claim = 0 ∨ (e.claim : Int) ≤ s.generalSpace) : KeepsJournal s t := by
  intro hs
  have hsum := overEntries_wr he hi (·.claim)
  have hplaces := hs.places
  have hneed := closingNeed_le s
  have htotal := hs.claims
  rw [hfree, figureOf_none, figureOf_some] at hsum
  refine ⟨fun j f hf => ?_, by omega, by rw [hclosed, hn.day]; exact hs.closed, ?_⟩
  · rw [entry_of_wr he] at hf
    split at hf
    · exact Option.some.inj hf ▸ hheld
    · exact hs.held j f hf
  · rw [hclosed, hn.need, hlen, hclaims]
    rcases hroom with hzero | hspace
    · omega
    · have hspace' : (16384 : Int) - s.journal.records.length - s.journal.claims - 64 ≥ e.claim := hspace
      split <;> omega

end KeepsJournal

end Sys2Proof.Machine
end

