-- ==== Sys2Proof/Proofs/JournalEvents.lean ====
section
/-! Every step keeps the account of the journal's places (R172, R175, R176, R177, R179): each operation on the entries, on the
sessions, on the drawers and on the day (O58). -/

set_option Elab.async false

namespace Sys2Proof.Machine.State

variable {s t : State} {i : Nat} {e : Entry}

/-! ### What the operations leave of the needs -/

theorem withRecord_length (b : Body) : (s.withRecord b).records.length = s.journal.records.length + 1 :=
  List.length_append

theorem copyRole_needs (p : Nat) : NeedsKept s (s.copyRole p) := by
  unfold copyRole
  split
  · exact .refl s
  · split
    · exact .of_setSession rfl
    · exact .refl s

theorem eachItem_needs (items : List Item) {f : Drawer → Item → Drawer} (hf : ∀ x i, (f x i).state = x.state) :
    NeedsKept s (s.eachItem items f) :=
  NeedsKept.fold (f := fun (s : State) (i : Item) => s.setDrawer i.drawer (f (s.drawer i.drawer) i))
    (fun t i => NeedsKept.of_setDrawer (s := t) (d := i.drawer) (x := f (t.drawer i.drawer) i) (by rw [hf])) items s

theorem releaseItems_needs (items : List Item) : NeedsKept s (s.releaseItems items) :=
  (NeedsKept.of_within (itemReports_within _ _)).after (eachItem_needs items fun x i => by
    unfold Drawer.release
    split <;> rfl)

theorem reserveItems_needs (items : List Item) : NeedsKept s (s.reserveItems items) :=
  (NeedsKept.of_within (itemReports_within _ _)).after (eachItem_needs items fun x i => by
    unfold Drawer.reserve
    split <;> rfl)

theorem ceilingTests_funds (ds : List Nat) : FundsKept s (s.ceilingTests ds) := .fold (fun t d => ceilingTest_funds t d) ds s

theorem postItems_needs (items : List Item) : NeedsKept s (s.postItems items) :=
  (NeedsKept.of_funds (ceilingTests_within _ _) (ceilingTests_funds _)).after (eachItem_needs items fun x i => by
    rw [Drawer.post_eq])

theorem post_needs (c : Captured) (tag : Option Nat) (ans : Option Answer) : NeedsKept s (s.post c tag ans) := by
  unfold post
  dsimp only
  exact (NeedsKept.of_within (showNotReleased_within _ _)).after ((NeedsKept.of_within (postScreens_within _ _ _ _)).after
    ((NeedsKept.of_funds (releaseDrawers_within _ _) (releaseDrawers_funds _ _)).after
      ((NeedsKept.of_within (postLines_within _ _ _)).after
        ((NeedsKept.of_within (appendClaimed_within _ _)).after (postItems_needs _)))))

theorem onlyReached_needs (hs : t.sessions = s.sessions) (hd : t.drawers = s.drawers) (hday : t.day = s.day) : NeedsKept s t :=
  ⟨fun p => congrArg (fun x : Session => x.state != .signedOff) (session_congr hs p),
    fun d => congrArg (fun x : Drawer => x.state != .balanced) (drawer_congr hd d), congrArg Day.state hday⟩

theorem setEntry_needs (i : Nat) (x : Option Entry) : NeedsKept s (s.setEntry i x) := onlyReached_needs rfl rfl rfl

theorem freeEntry_needs (i : Nat) : NeedsKept s (s.freeEntry i) := setEntry_needs i none

/-! ### Completion (R190, R191) -/

theorem settled_sending : Settled .sending := .inl rfl

theorem not_settled {x : DayState} (h : x = .noDay ∨ x = .opened ∨ x = .cutoff) : ¬ Settled x := by
  rintro (rfl | rfl | rfl) <;> simp at h

/-- In CUTOFF the journal is open. -/
theorem open_of_cutoff (hst : s.day.state = .cutoff) (hs : s.JournalSound) : s.journal.closed = false :=
  Bool.eq_false_iff.mpr fun hclosed => not_settled (.inr (.inr hst)) (hs.closed.mp hclosed)

theorem endSession_keepsJournal (p : Nat) (hst : s.day.state = .cutoff) : KeepsJournal s (s.endSession p) := by
  by_cases hoff : (s.session p).state = .signedOff
  · rw [endSession_of_off hoff]
    exact .refl s
  · have hp : 1 ≤ p ∧ p ≤ 24 := by
      by_contra hp
      exact hoff (congrArg Session.state (session_outside s hp))
    have hwithin := endSession_within s p
    have hday := hwithin .dayState (by decide)
    have hjournal : (s.endSession p).journal = s.withRecord (.signOff p ((s.session p).teller.getD 0) .closing) := by
      have hset := setSession_within s p Session.off
      rw [endSession_of_on hoff, append_journal, withRecord_congr (hset .journal (by decide)) (hset .day (by decide))]
    refine .of_reserve (hwithin .entries (by decide)) (by rw [hjournal, withRecord_length]) (by rw [hjournal]; rfl)
      (by rw [hjournal]; rfl) (by rw [hday]) (open_of_cutoff hst) (closingNeed_session hp hoff ?_ (fun q hq => ?_)
        (hwithin .drawers (by decide)) hday)
    · rw [session_endSession_same hp hoff]
      rfl
    · exact session_endSession_other (Ne.symm hq)

theorem endSessions_keepsJournal (hst : s.day.state = .cutoff) : KeepsJournal s s.endSessions := by
  unfold endSessions
  generalize allPositions = ps
  induction ps generalizing s with
  | nil => exact .refl s
  | cons p ps ih => exact (ih ((endSession_within s p .dayState (by decide)).trans hst)).after (endSession_keepsJournal p hst)

theorem startSending_day_state (t : State) : t.startSending.day.state = .sending := by
  have hwindow := testWindow_within (t.setDayState .sending).dayNotice .dayState (by decide)
  have hnotice := dayNotice_within (t.setDayState .sending) .dayState (by decide)
  exact hwindow.trans (hnotice.trans (congrArg Day.state (setDayState_day t .sending)))

/-- The last record of the day closes the journal, and the batch starts (R179, R191). -/
theorem closed_keepsJournal {b : Body} (hst : s.day.state = .cutoff) (he : t.entries = s.entries)
    (hj : t.journal = { s.withRecord b with closed := true }) : KeepsJournal s t.startSending := by
  have hlater : Within [.port, .counters, .day, .dayState, .screens, .windowSound] t t.startSending :=
    (testWindow_within _).after ((dayNotice_within _).after ((setDayState_within t .sending).mono))
  have hjournal : t.startSending.journal = { s.withRecord b with closed := true } := (hlater .journal (by decide)).trans hj
  refine .of_places ((hlater .entries (by decide)).trans he) (by rw [hjournal]; rfl) ?_ fun hs => ?_
  · rw [hjournal, startSending_day_state]
    exact iff_of_true rfl settled_sending
  · have hplaces := hs.places
    have hneed := closingNeed_pos s
    rw [open_of_cutoff hst hs] at hplaces
    rw [hjournal, if_pos rfl]
    show (s.withRecord b).records.length + _ + _ ≤ _
    rw [withRecord_length]
    simp only [Bool.false_eq_true, if_false] at hplaces
    omega

theorem complete_keepsJournal (hst : s.day.state = .cutoff) : KeepsJournal s s.complete := by
  have hended := endSessions_within s
  have hreleased := clearReleases_within s.endSessions
  have hcutoff : s.endSessions.clearReleases.day.state = .cutoff :=
    (hreleased .dayState (by decide)).trans ((hended .dayState (by decide)).trans hst)
  refine KeepsJournal.after (closed_keepsJournal (t := s.endSessions.clearReleases.settle)
    (b := s.endSessions.clearReleases.settlementBody) hcutoff (settle_within _ hcutoff .entries (by decide)) ?_)
    ((KeepsJournal.of_within hreleased (.of_funds hreleased (clearReleases_funds _))).after (endSessions_keepsJournal hst))
  exact congrArg (fun j : Journal => { j with closed := true }) (append_journal _ _)

theorem testCompletion_keepsJournal (s : State) : KeepsJournal s s.testCompletion := by
  unfold testCompletion
  split
  · next h => exact complete_keepsJournal h.1
  · exact .refl s

/-! ### The ends of an entry -/

/-- An entry without a claim is freed. -/
theorem freed_keepsJournal {may : List Aspect} (h : Within may s t) (hold : s.entry i = some e)
    (hnone : s.JournalSound → e.claim = 0) (hs : Aspect.sessions ∉ may := by decide) (hd : Aspect.dayState ∉ may := by decide)
    (hw : Aspect.drawers ∉ may := by decide) (he : Aspect.entries ∉ may := by decide) (hj : Aspect.journal ∉ may := by decide) :
    KeepsJournal s (t.freeEntry i) :=
  .of_entry (congrArg (wr · i none) (h .entries he)) (h .journal hj) ((freeEntry_needs i).after (.of_within h hs hd hw)) hold fun hs =>
    ⟨(hnone hs).symm, fun _ hf => by cases hf⟩

/-- An INQUIRY and a REVERSING entry hold no claim, another entry at the centre holds one. -/
theorem claim_of_centre (hs : s.JournalSound) (hold : s.entry i = some e) (hst : e.state = .waitingCentre) :
    e.claim = if e.req.snap.cls = .inquiry then 0 else 1 := by
  rw [(hs.held i e hold).1, Entry.claimDue, hst]

theorem claim_of_override (hs : s.JournalSound) (hold : s.entry i = some e) (hst : e.state = .waitingOverride) :
    (e.claim = if e.granted then 1 else 2) ∧ e.req.snap.cls ≠ .inquiry := by
  obtain ⟨hdue, hcls⟩ := hs.held i e hold
  exact ⟨by rw [hdue, Entry.claimDue, hst], hcls hst⟩

theorem claim_of_reversing (hs : s.JournalSound) (hold : s.entry i = some e) (hst : e.state = .reversing) : e.claim = 0 := by
  rw [(hs.held i e hold).1, Entry.claimDue, hst]

theorem approve_keepsJournal (he : s.entry i = some e) (hst : e.state = .waitingCentre) (a : Answer) :
    KeepsJournal s (s.approve i e a) := by
  unfold approve
  split
  · next hcls =>
    exact (testCompletion_keepsJournal _).after (freed_keepsJournal (answerScreen_within s e.req a.balance .approved) he
      fun hs => (claim_of_centre hs he hst).trans (if_pos hcls))
  · next hcls =>
    have hpost := post_within s e.req (some e.tag) (some a)
    have hjournal := post_journal (s := s) (c := e.req) (tag := some e.tag) (ans := some a)
    refine (testCompletion_keepsJournal _).after (.of_used (x := none) (congrArg (wr · i none) (hpost .entries (by decide)))
      ((congrArg (·.records.length) hjournal).trans (withRecord_length _)) (congrArg (·.claims) hjournal)
      (congrArg (·.closed) hjournal) ((freeEntry_needs i).after (post_needs e.req (some e.tag) (some a))) he
      fun hs => ⟨(claim_of_centre hs he hst).trans (if_neg hcls), fun _ hf => by cases hf⟩)

theorem decline_keepsJournal (he : s.entry i = some e) (a : Answer) : KeepsJournal s (s.decline i e a) := by
  have heq := declined_eq (s := s) (i := i) (e := e) a
  have hneeds : NeedsKept s (s.declined i e a) :=
    (freeEntry_needs i).after ((NeedsKept.of_within (answerScreen_within _ e.req a.balance (.declined a.reason))).after
      ((NeedsKept.of_within (releaseClaim_within _ e.claim)).after (releaseItems_needs e.req.items)))
  refine KeepsJournal.after (testCompletion_keepsJournal (s.declined i e a)) (.of_released ?_ ?_ ?_ ?_ hneeds he)
  · rw [heq]
  · rw [heq]
  · rw [heq]
  · rw [heq]

theorem takeAnswer_keepsJournal (tag : Nat) (bs : List Byte) : KeepsJournal s (s.takeAnswer tag bs) := by
  unfold takeAnswer
  split
  · exact .of_still (dropBadFrame_within s)
  · split
    · exact .of_still (countLateAnswer_within s)
    · next h =>
      obtain ⟨he, htest⟩ := findEntry_some s h
      have hst := eq_of_beq (Bool.and_eq_true _ _ ▸ htest).1
      split
      · exact approve_keepsJournal he hst _
      · exact decline_keepsJournal he _

theorem offerReversal_keepsJournal (i : Nat) : KeepsJournal s (s.offerReversal i) := by
  unfold offerReversal
  split
  · next e he =>
    split
    · next h =>
      exact freed_keepsJournal (enqueue_within s (.reversal e.tag (e.reason.getD .timeout))) he fun hs =>
        claim_of_reversing hs he h.1
    · exact .refl s
  · exact .refl s

theorem endCentre_keepsJournal (he : s.entry i = some e) (hst : e.state = .waitingCentre) (reason : ExpiryReason) (o : Shown) :
    KeepsJournal s (s.endCentre i e reason o) := by
  unfold endCentre
  split
  · next hcls =>
    exact (testCompletion_keepsJournal _).after (freed_keepsJournal (showAt_within s e.req.pos o) he fun hs =>
      (claim_of_centre hs he hst).trans (if_pos hcls))
  · next hcls =>
    have heq := reversed_eq (s := s) (i := i) (e := e) reason o
    have hneeds : NeedsKept s (s.reversed i e reason o) :=
      (NeedsKept.of_within (showAt_within _ _ _)).after ((setEntry_needs i _).after
        ((NeedsKept.of_within (appendClaimed_within _ (e.expiredBody reason))).after (releaseItems_needs e.req.items)))
    refine (testCompletion_keepsJournal _).after ((offerReversal_keepsJournal (s := s.reversed i e reason o) i).after
      (.of_used (x := some (e.reversing reason)) ?_ ?_ ?_ ?_ hneeds he fun hs => ?_))
    · rw [heq]
    · rw [heq]
      exact withRecord_length _
    · rw [heq]
    · rw [heq]
      rfl
    · have hclaim : e.claim = 1 := (claim_of_centre hs he hst).trans (if_neg hcls)
      have hleft : (e.reversing reason).claim = 0 := congrArg (· - 1) hclaim
      refine ⟨by rw [figureOf_some, hleft, hclaim], fun f hf => ?_⟩
      cases hf
      exact ⟨hleft, fun hover => by cases hover⟩

theorem endOverride_keepsJournal (he : s.entry i = some e) (o : Shown) : KeepsJournal s (s.endOverride i e o) := by
  have heq := overrideEnded_eq (s := s) (i := i) (e := e) o
  have hneeds : NeedsKept s (s.overrideEnded i e o) :=
    (freeEntry_needs i).after ((NeedsKept.of_within (showAt_within _ e.req.pos o)).after
      ((NeedsKept.of_within (releaseClaim_within _ e.claim)).after ((releaseItems_needs e.req.items).after
        (.of_within (setOverrides_within s _)))))
  rw [endOverride_eq]
  refine (testCompletion_keepsJournal _).after (.of_released ?_ ?_ ?_ ?_ hneeds he)
  · rw [heq]
  · rw [heq]
  · rw [heq]
  · rw [heq]

/-! ### Grants (R82, R83) -/

theorem forward_needs : NeedsKept s (s.forward i e) := by
  have heq := forward_eq (s := s) (i := i) (e := e)
  exact onlyReached_needs (by rw [heq]) (by rw [heq]) (by rw [heq])

theorem granting_needs (sup : Nat) : NeedsKept s (s.granting i e sup) := by
  have heq := granting_eq (s := s) (i := i) (e := e) (sup := sup)
  exact onlyReached_needs (by rw [heq]) (by rw [heq]) (by rw [heq])

theorem grantOverride_keepsJournal (he : s.entry i = some e) (hst : e.state = .waitingOverride) (hg : e.granted = false)
    (sup : Nat) : KeepsJournal s (s.grantOverride i e sup) := by
  have heq := granting_eq (s := s) (i := i) (e := e) (sup := sup)
  have htable : (s.granting i e sup).entries = wr s.entries i (some (grantedEntry e)) := by rw [heq]
  have hlen : (s.granting i e sup).journal.records.length = s.journal.records.length + 1 := by
    rw [heq]
    exact withRecord_length _
  have hclaims : (s.granting i e sup).journal.claims = s.journal.claims - 1 := by rw [heq]
  have hclosed : (s.granting i e sup).journal.closed = s.journal.closed := by
    rw [heq]
    rfl
  have hdue : s.JournalSound → e.claim = 2 ∧ e.req.snap.cls ≠ .inquiry := fun hs => by
    obtain ⟨hclaim, hcls⟩ := claim_of_override hs he hst
    exact ⟨hclaim.trans (by rw [hg]; rfl), hcls⟩
  obtain h | h | h := grantOverride_cases (s := s) (i := i) (e := e) sup
  · have hpost := post_within (s.granting i e sup) e.req (some e.tag) none
    have hjournal := post_journal (s := s.granting i e sup) (c := e.req) (tag := some e.tag) (ans := none)
    rw [h]
    refine (testCompletion_keepsJournal _).after (.of_claimed (n := 2) (k := 2) (x := none) ?_ (entry_index s he) ?_ ?_ ?_
      ((freeEntry_needs i).after ((post_needs e.req (some e.tag) none).after (granting_needs sup))) fun hs =>
        ⟨Nat.le_refl 2, ?_, fun _ hf => by cases hf⟩)
    · refine (congrArg (wr · i none) (hpost .entries (by decide))).trans ?_
      rw [htable, wr_wr]
    · refine (congrArg (·.records.length) hjournal).trans ((withRecord_length _).trans ?_)
      rw [hlen]
    · refine (congrArg (·.claims) hjournal).trans ?_
      show (s.granting i e sup).journal.claims - 1 = _
      rw [hclaims, Nat.sub_sub]
    · exact (congrArg (·.closed) hjournal).trans hclosed
    · rw [he, figureOf_some, figureOf_none, (hdue hs).1]
  · have hforward := forward_eq (s := s.granting i e sup) (i := i) (e := grantedEntry e)
    rw [h]
    refine .of_used (x := some { grantedEntry e with
        state := .waitingCentre, granted := false, timer := some (s.granting i e sup).tables.params.approval })
      ?_ ?_ ?_ ?_ (forward_needs.after (granting_needs sup)) he fun hs => ?_
    · rw [forward_entries, htable, wr_wr]
    · rw [hforward]
      exact hlen
    · rw [hforward]
      exact hclaims
    · rw [hforward]
      exact hclosed
    · obtain ⟨hclaim, hcls⟩ := hdue hs
      have hleft : (grantedEntry e).claim = 1 := congrArg (· - 1) hclaim
      refine ⟨by rw [figureOf_some, hleft, hclaim], fun f hf => ?_⟩
      cases hf
      exact ⟨hleft.trans (if_neg hcls).symm, fun hover => by cases hover⟩
  · have hreport := reportEntry_within ((s.granting i e sup).setEntry i (some { grantedEntry e with granted := true }))
      e.req.pos .queued
    have hjournal := hreport .journal (by decide)
    rw [h]
    refine .of_used (x := some { grantedEntry e with granted := true }) ?_ ((congrArg (·.records.length) hjournal).trans hlen)
      ((congrArg (·.claims) hjournal).trans hclaims) ((congrArg (·.closed) hjournal).trans hclosed)
      ((NeedsKept.of_within hreport).after ((setEntry_needs i _).after (granting_needs sup))) he fun hs => ?_
    · refine (hreport .entries (by decide)).trans ((congrArg (wr · i _) htable).trans ?_)
      rw [wr_wr]
    · obtain ⟨hclaim, hcls⟩ := hdue hs
      have hleft : (grantedEntry e).claim = 1 := congrArg (· - 1) hclaim
      refine ⟨by rw [figureOf_some, hleft, hclaim], fun f hf => ?_⟩
      cases hf
      refine ⟨?_, fun _ => hcls⟩
      show (grantedEntry e).claim = _
      rw [hleft, Entry.claimDue]
      show 1 = match e.state with
        | .waitingOverride => 1
        | .waitingCentre => _
        | .reversing => _
      rw [hst]

theorem queueGranted_keepsJournal (i : Nat) : KeepsJournal s (s.queueGranted i) := by
  unfold queueGranted
  split
  · next e he =>
    split
    · next h =>
      have heq := forward_eq (s := s) (i := i) (e := e)
      refine .of_entry forward_entries (by rw [heq]) forward_needs he fun hs => ?_
      obtain ⟨hclaim, hcls⟩ := claim_of_override hs he h.1
      rw [h.2.1] at hclaim
      refine ⟨rfl, fun f hf => ?_⟩
      cases hf
      exact ⟨hclaim.trans (if_neg hcls).symm, fun hover => by cases hover⟩
    · exact .refl s
  · exact .refl s

end Sys2Proof.Machine.State
end

