-- ==== Sys2Proof/Proofs/JournalSteps.lean ====
section
/-! The messages, the day's events and the starts keep the account of the journal's places (R172, R176, R177, R181), and so does
every step (O58). -/

set_option Elab.async false

namespace Sys2Proof.Machine.State

variable {s t : State} {i : Nat} {e : Entry}

/-! ### Overrides, cancels and requests -/

theorem copyRole_keepsJournal (p : Nat) : KeepsJournal s (s.copyRole p) := .of_within (copyRole_within s p) (copyRole_needs p)

theorem decideOverride_keepsJournal (p tag : Nat) (g : Bool) : KeepsJournal s (s.decideOverride p tag g) := by
  have hshow : ∀ o, KeepsJournal s (s.showAt p o) := fun o => .of_still (showAt_within s p o)
  unfold decideOverride
  dsimp only
  split
  · exact hshow _
  · split
    · exact hshow _
    · next h =>
      obtain ⟨he, htest⟩ := findEntry_some s h
      have hst := eq_of_beq (Bool.and_eq_true _ _ ▸ htest).1
      split
      · exact hshow _
      · split
        · exact hshow _
        · next hg =>
          split
          · split
            · exact hshow _
            · exact grantOverride_keepsJournal he hst (Bool.eq_false_iff.mpr hg) _
          · exact endOverride_keepsJournal he _

theorem takeOverride_keepsJournal (p tag d : Nat) : KeepsJournal s (s.takeOverride p tag d) := by
  have hdecide : ∀ g, KeepsJournal s ((s.copyRole p).decideOverride p tag g) := fun g =>
    (decideOverride_keepsJournal p tag g).after (copyRole_keepsJournal p)
  unfold takeOverride
  split
  · exact hdecide true
  · split
    · exact hdecide false
    · exact .of_still (countLineBadMessage_within s)

theorem takeCancel_keepsJournal (p : Nat) : KeepsJournal s (s.takeCancel p) := by
  unfold takeCancel
  split
  · exact .refl s
  · next i e h =>
    obtain ⟨he, htest⟩ := findEntry_some s h
    split
    · exact endOverride_keepsJournal he _
    · next hst =>
      refine endCentre_keepsJournal he ?_ _ _
      simp only [Entry.waits, Bool.and_eq_true, bne_iff_ne] at htest
      obtain ⟨hwaits, -⟩ := htest
      cases hstate : e.state with
      | waitingCentre => rfl
      | waitingOverride => exact absurd hstate hst
      | reversing => exact absurd hstate hwaits

theorem PassedChecks.claimRoom {p : Nat} {r : Request} {e : CodeEntry} {x : Passed} {leaving : Counts}
    (h : s.PassedChecks p r e x leaving) : (x.claim : Int) ≤ s.generalSpace := by
  have hspace := firstFailure_none h.space (decide (s.generalSpace < x.claim), .journalFull) (by simp [spaceChecks])
  simpa using hspace

/-- An INQUIRY needs no override (R63). -/
theorem PassedChecks.inquiry_override {p : Nat} {r : Request} {e : CodeEntry} {x : Passed} {leaving : Counts}
    (h : s.PassedChecks p r e x leaving) (hcls : e.cls = .inquiry) : x.override = false := by
  have hnone : x.equiv = none := by
    rw [h.equiv, hcls]
    rfl
  rw [h.override, hnone]
  rfl

theorem carryThrough_keepsJournal {p : Nat} {r : Request} {e : CodeEntry} {x : Passed} {leaving : Counts}
    (h : s.PassedChecks p r e x leaving) : KeepsJournal s (s.carryThrough p r e x) := by
  have hpassing := passing_eq (s := s) (p := p) (r := r) (e := e) (x := x)
  have hneeds : NeedsKept s (s.passing p r e x) :=
    (NeedsKept.of_within (onScreen_within _ p _)).after
      ((NeedsKept.of_within (takeClaim_within _ x.claim)).after (reserveItems_needs x.items))
  rw [carryThrough_eq]
  split
  · next hway =>
    obtain ⟨i, hfree⟩ := h.free hway
    obtain ⟨hi, hnone⟩ := freeIndex_some s hfree
    have hfree' : (s.passing p r e x).freeIndex = some i := (freeIndex_congr (by rw [hpassing])).trans hfree
    have heq := createEntry_eq (c := s.capture p r e x) (claim := x.claim) hfree' x.override
    have hcreated : NeedsKept (s.passing p r e x) ((s.passing p r e x).createEntry (s.capture p r e x) x.override x.claim) :=
      onlyReached_needs (by rw [heq]) (by rw [heq]) (by rw [heq])
    refine .of_made (e := (s.passing p r e x).madeEntry (s.capture p r e x) x.override x.claim) ?_ hi hnone ?_ ?_ ?_
      (hcreated.after hneeds) ⟨?_, fun hover hcls => ?_⟩ (.inr h.claimRoom)
    · rw [heq]
      show wr (s.passing p r e x).entries i _ = _
      rw [hpassing]
    · rw [heq]
      show (s.passing p r e x).journal.records = _
      rw [hpassing]
    · rw [heq]
      show (s.passing p r e x).journal.claims = _
      rw [hpassing]
      rfl
    · rw [heq]
      show (s.passing p r e x).journal.closed = _
      rw [hpassing]
    · show x.claim = _
      rw [h.claim, Entry.claimDue]
      unfold madeEntry capture
      dsimp only
      cases hover : x.override with
      | false => simp
      | true =>
        have hcls : e.cls ≠ .inquiry := fun hcls => by
          rw [h.inquiry_override hcls] at hover
          cases hover
        simp [hcls]
    · have hoff := h.inquiry_override hcls
      unfold madeEntry at hover
      rw [hoff] at hover
      cases hover
  · next hway =>
    simp only [Bool.or_eq_true, not_or, Bool.not_eq_true] at hway
    obtain ⟨hbranch, hoff⟩ := hway
    have hcls : e.cls ≠ .inquiry := fun hcls => by
      rw [goesToCentre, hcls] at hbranch
      simp at hbranch
    have hclaim : x.claim = 1 := by
      rw [h.claim, if_neg hcls, hoff]
      rfl
    have hpost := post_within (s.passing p r e x) (s.capture p r e x) none none
    have hjournal := post_journal (s := s.passing p r e x) (c := s.capture p r e x) (tag := none) (ans := none)
    have hposted := (post_needs (s.capture p r e x) none none).after hneeds
    refine (testCompletion_keepsJournal _).after (.of_general ?_ ?_ ?_ ?_ ?_ ?_)
    · exact (hpost .entries (by decide)).trans (by rw [hpassing])
    · refine (congrArg (·.records.length) hjournal).trans ((withRecord_length _).trans ?_)
      rw [hpassing]
    · refine (congrArg (·.claims) hjournal).trans ?_
      show (s.passing p r e x).journal.claims - 1 = _
      rw [hpassing, hclaim]
      exact Nat.add_sub_cancel _ _
    · refine (congrArg (·.closed) hjournal).trans ?_
      show (s.passing p r e x).journal.closed = _
      rw [hpassing]
    · rw [hposted.day]
    · have hroom := h.claimRoom
      rw [hclaim] at hroom
      exact hroom

theorem takeRequest_keepsJournal (p : Nat) (r : Request) : KeepsJournal s (s.takeRequest p r) := by
  refine KeepsJournal.after (t := s.copyRole p) ?_ (copyRole_keepsJournal p)
  obtain ⟨f, hrefused⟩ | ⟨e, x, leaving, hpassed, -, -, hchecks⟩ := acceptance_cases (s := s.copyRole p) p r
  · rw [takeRequest_of_error hrefused]
    exact .of_still (refuse_within _ p r f)
  · rw [takeRequest_of_ok hpassed]
    exact carryThrough_keepsJournal hchecks

/-! ### Sessions -/

/-- An append of the general class (R176). -/
theorem append_keepsJournal (b : Body) (hroom : 1 ≤ s.generalSpace) : KeepsJournal s (s.append b) := by
  have hjournal := s.append_journal b
  have hwithin := append_within s b
  refine .of_general (hwithin .entries (by decide)) ?_ ?_ ?_ ?_ hroom
  · rw [hjournal, withRecord_length]
  · rw [hjournal]
    rfl
  · rw [hjournal]
    rfl
  · rw [hwithin .dayState (by decide)]

theorem generalRoom_space (h : s.generalRoom = true) : 1 ≤ s.generalSpace := by
  unfold generalRoom at h
  exact of_decide_eq_true (Bool.and_eq_true _ _ ▸ h).2

theorem takeSignOn_keepsJournal (p teller : Nat) : KeepsJournal s (s.takeSignOn p teller) := by
  cases h : firstFailure (s.signOnChecks p teller) with
  | some o =>
    rw [takeSignOn_of_failure h]
    exact .of_still (showAt_within s p o)
  | none =>
    have hroom := firstFailure_none h (!s.generalRoom, .journalFull) (by simp [signOnChecks])
    have hset := fun x => setSession_within s p x
    rw [takeSignOn_of_none h]
    refine (KeepsJournal.of_still (takeDefaultForm_within _ p)).after ?_
    unfold signedOn
    generalize ({ state := .signedOn, teller := some teller, role := (s.tables.findTeller teller).map (·.role) } : Session) = x
    have hjournal := ((s.setSession p x).append_journal (.signOn p teller)).trans
      (withRecord_congr (hset x .journal (by decide)) (hset x .day (by decide)) (.signOn p teller))
    have hwithin : Within [.sessions, .screens, .journal, .records, .port, .counters] s
        ((s.setSession p x).append (.signOn p teller)) := (append_within _ _).after (hset x).mono
    refine .of_general (hwithin .entries (by decide)) ?_ ?_ ?_ ?_ (generalRoom_space (by simpa using hroom))
    · rw [hjournal, withRecord_length]
    · rw [hjournal]
      rfl
    · rw [hjournal]
      rfl
    · rw [hwithin .dayState (by decide)]

theorem takeSignOff_keepsJournal (p : Nat) : KeepsJournal s (s.takeSignOff p) := by
  unfold takeSignOff
  split
  · exact .of_still (showAt_within s p _)
  · next h =>
    have hon : (s.session p).state ≠ .signedOff := by
      simpa using firstFailure_none h ((s.session p).state == .signedOff, .notSignedOn) (by simp [signOffChecks])
    have hopen : s.journal.closed = false :=
      (reserveRoom_iff.mp (by simpa using firstFailure_none h (!s.reserveRoom, .journalFull) (by simp [signOffChecks]))).2
    have hp : 1 ≤ p ∧ p ≤ 24 := by
      by_contra hp
      exact hon (congrArg Session.state (session_outside s hp))
    have hset := setSession_within s p Session.off
    have hlater := append_within (s.setSession p Session.off) (.signOff p ((s.session p).teller.getD 0) .teller)
    have hjournal := ((s.setSession p Session.off).append_journal (.signOff p ((s.session p).teller.getD 0) .teller)).trans
      (withRecord_congr (hset .journal (by decide)) (hset .day (by decide)) _)
    have hsession := fun q => session_congr (hlater .sessions (by decide)) q
    have hday := (hlater .dayState (by decide)).trans (hset .dayState (by decide))
    refine .of_reserve ((hlater .entries (by decide)).trans (hset .entries (by decide))) ?_ ?_ ?_ ?_ (fun _ => hopen)
      (closingNeed_session hp hon ?_ (fun q hq => ?_) ((hlater .drawers (by decide)).trans (hset .drawers (by decide))) hday)
    · rw [hjournal, withRecord_length]
    · rw [hjournal]
      rfl
    · rw [hjournal]
      rfl
    · rw [hday]
    · rw [hsession, session_setSession s hp]
      rfl
    · rw [hsession, session_setSession_other (Ne.symm hq)]

theorem setSession_keepsJournal {p : Nat} {x : Session} (hx : (x.state != .signedOff) = ((s.session p).state != .signedOff)) :
    KeepsJournal s (s.setSession p x) := .of_within (setSession_within s p x) (.of_setSession hx)

theorem takeSuspend_keepsJournal (p : Nat) : KeepsJournal s (s.takeSuspend p) := by
  unfold takeSuspend
  split
  · next h => exact setSession_keepsJournal (by rw [h]; rfl)
  · exact .refl s
  · exact .of_still (showAt_within s p _)

theorem takeResume_keepsJournal (p teller : Nat) : KeepsJournal s (s.takeResume p teller) := by
  unfold takeResume
  split
  · next h =>
    split
    · exact setSession_keepsJournal (by rw [h]; rfl)
    · exact .of_still (showAt_within s p _)
  · exact .refl s
  · exact .of_still (showAt_within s p _)

/-! ### Drawers -/

theorem drawerOpens_keepsJournal (d : Nat) : KeepsJournal s (s.drawerOpens d) := by
  have hset : ∀ x : Drawer, x.state = (s.drawer d).state → KeepsJournal s (s.setDrawer d x) := fun x hx =>
    .of_quiet rfl rfl (.of_setDrawer (by rw [hx]))
  have hreport : ∀ t : State, KeepsJournal t ((t.alarm .forcedOpen d).alertReport d) := fun t =>
    (KeepsJournal.of_still (alertReport_within _ d)).after (.of_still (alarm_within t .forcedOpen d))
  unfold drawerOpens
  dsimp only
  generalize (if (s.drawer d).openings < 65535 then (s.drawer d).openings + 1 else (s.drawer d).openings) = n
  split
  · split
    · next h =>
      refine (hreport _).after ((append_keepsJournal _ (generalRoom_space ?_)).after (hset _ rfl))
      exact (Bool.and_eq_true _ _ ▸ h).1
    · exact (hreport _).after (hset _ rfl)
  · exact hset _ rfl

theorem takeOpened_keepsJournal (p : Nat) : KeepsJournal s (s.takeOpened p) := by
  unfold takeOpened
  split
  · split
    · exact .refl s
    · exact drawerOpens_keepsJournal p
  · exact .of_still (countLineBadMessage_within s)

theorem balanceDrawer_keepsJournal {p d : Nat} {lists : List (List Nat)} {result : ProofResult} (hd : d ≤ 24)
    (hst : (s.drawer d).state ≠ .balanced) (hroom : s.reserveRoom = true) :
    KeepsJournal s (s.balanceDrawer p d lists result) := by
  obtain ⟨-, hopen⟩ := reserveRoom_iff.mp hroom
  unfold balanceDrawer
  dsimp only
  refine (testCompletion_keepsJournal _).after ((KeepsJournal.of_still (showAt_within _ _ _)).after ?_)
  obtain ⟨a, hbook⟩ := replaceBook_drawer s d lists
  have hreplaced := replaceBook_within s d lists
  have hrecorded := append_within (s.replaceBook d lists)
    (.proof p ((s.session p).teller.getD 0) d result (s.differences d lists))
  have hjournal := ((s.replaceBook d lists).append_journal
      (.proof p ((s.session p).teller.getD 0) d result (s.differences d lists))).trans
    (withRecord_congr (hreplaced .journal (by decide)) (hreplaced .day (by decide)) _)
  generalize (s.replaceBook d lists).append (.proof p ((s.session p).teller.getD 0) d result (s.differences d lists)) = t
    at hrecorded hjournal ⊢
  have hstates : ∀ e, (t.drawer e).state = (s.drawer e).state := fun e => by
    rw [drawer_congr (hrecorded .drawers (by decide)) e, hbook, drawer_setDrawer]
    split
    · next h => rw [← h.1]
    · rfl
  have hset := setDrawerState_within t d .balanced (t.drawer d).recount
  have hreport := drawerStateReport_within (t.setDrawer d { t.drawer d with state := .balanced, recount := (t.drawer d).recount }) d
  have hdrawers : ∀ e, ((t.setDrawerState d .balanced (t.drawer d).recount).drawer e).state =
      if d = e then .balanced else (s.drawer e).state := fun e => by
    have hlast : (t.setDrawerState d .balanced (t.drawer d).recount).drawer e =
        (t.setDrawer d { t.drawer d with state := .balanced, recount := (t.drawer d).recount }).drawer e :=
      drawer_congr (hreport .drawers (by decide)) e
    rw [hlast, drawer_setDrawer]
    by_cases hde : d = e
    · rw [if_pos ⟨hde, Nat.lt_succ_of_le hd⟩, if_pos hde]
    · rw [if_neg fun h => hde h.1, if_neg hde, hstates]
  have hday : (t.setDrawerState d .balanced (t.drawer d).recount).day.state = s.day.state :=
    (hset .dayState (by decide)).trans ((hrecorded .dayState (by decide)).trans (hreplaced .dayState (by decide)))
  have hsame := (hset .journal (by decide)).trans hjournal
  refine .of_reserve ((hset .entries (by decide)).trans ((hrecorded .entries (by decide)).trans (hreplaced .entries (by decide))))
    ?_ ?_ ?_ ?_ (fun _ => hopen) (closingNeed_drawer hd hst ?_ (fun e he => ?_)
      ((hset .sessions (by decide)).trans ((hrecorded .sessions (by decide)).trans (hreplaced .sessions (by decide)))) hday)
  · rw [hsame, withRecord_length]
  · rw [hsame]
    rfl
  · rw [hsame]
    rfl
  · rw [hday]
  · rw [hdrawers, if_pos rfl]
  · rw [hdrawers, if_neg (Ne.symm he)]

/-- A failed proof leaves the drawer not BALANCED (R118). -/
theorem afterFailure_state (x : DrawerState) (n : Nat) : (afterFailure x n).1 ≠ .balanced := by
  unfold afterFailure
  cases x with
  | outOfBalance =>
    dsimp only
    split <;> simp
  | _ => simp

theorem failProof_keepsJournal {p d : Nat} (hst : (s.drawer d).state ≠ .balanced) : KeepsJournal s (s.failProof p d) := by
  unfold failProof
  dsimp only
  refine (testCompletion_keepsJournal _).after ((KeepsJournal.of_still (showAt_within _ _ _)).after ?_)
  split
  · exact .refl s
  · have hset := setDrawerState_within s d (afterFailure (s.drawer d).state (s.drawer d).recount).1
      (afterFailure (s.drawer d).state (s.drawer d).recount).2.1
    refine .of_within hset ((NeedsKept.of_within (drawerStateReport_within _ d)).after (.of_setDrawer ?_))
    rw [bne_iff_ne.mpr hst]
    exact bne_iff_ne.mpr (afterFailure_state _ _)

theorem takeCount_keepsJournal (p d : Nat) (lists : List (List Nat)) : KeepsJournal s (s.takeCount p d lists) := by
  unfold takeCount
  split
  · exact .of_still (countLineBadMessage_within s)
  · next hd =>
    dsimp only
    refine KeepsJournal.after (t := s.copyRole p) ?_ (copyRole_keepsJournal p)
    split
    · exact .of_still (showAt_within _ _ _)
    · next h =>
      have hst : ((s.copyRole p).drawer d).state ≠ .balanced := by
        simpa using firstFailure_none h (((s.copyRole p).drawer d).state == .balanced, .drawerState) (by simp [countChecks])
      have hroom : (s.copyRole p).reserveRoom = true := by
        simpa using firstFailure_none h (!(s.copyRole p).reserveRoom, .journalFull) (by simp [countChecks])
      split
      · exact balanceDrawer_keepsJournal (Nat.le_of_not_lt hd) hst hroom
      · exact failProof_keepsJournal hst

theorem takeAcceptDiff_keepsJournal (p d : Nat) (lists : List (List Nat)) : KeepsJournal s (s.takeAcceptDiff p d lists) := by
  unfold takeAcceptDiff
  split
  · exact .of_still (countLineBadMessage_within s)
  · next hd =>
    dsimp only
    refine KeepsJournal.after (t := s.copyRole p) ?_ (copyRole_keepsJournal p)
    split
    · exact .of_still (showAt_within _ _ _)
    · next h =>
      have hst : ((s.copyRole p).drawer d).state = .awaitingAccept := by
        simpa using firstFailure_none h (((s.copyRole p).drawer d).state != .awaitingAccept, .drawerState)
          (by simp [acceptDiffChecks])
      have hroom : (s.copyRole p).reserveRoom = true := by
        simpa using firstFailure_none h (!(s.copyRole p).reserveRoom, .journalFull) (by simp [acceptDiffChecks])
      exact balanceDrawer_keepsJournal (Nat.le_of_not_lt hd) (by rw [hst]; decide) hroom

theorem takeReopen_keepsJournal (p d : Nat) : KeepsJournal s (s.takeReopen p d) := by
  by_cases hd : d ≤ 24
  · refine KeepsJournal.after (t := s.copyRole p) ?_ (copyRole_keepsJournal p)
    cases h : firstFailure ((s.copyRole p).reopenChecks p d) with
    | some o =>
      rw [takeReopen_of_failure hd h]
      exact .of_still (showAt_within _ _ _)
    | none =>
      have hroom := firstFailure_none h (!(s.copyRole p).generalRoom, .journalFull) (by simp [reopenChecks])
      rw [takeReopen_of_none hd h]
      have heq := reopened_eq (s := s.copyRole p) (p := p) (d := d)
      refine (testCompletion_keepsJournal _).after (.of_general ?_ ?_ ?_ ?_ ?_ (generalRoom_space (by simpa using hroom)))
      · rw [heq]
      · rw [heq]
        exact withRecord_length _
      · rw [heq]
        rfl
      · rw [heq]
        rfl
      · rw [heq]
  · unfold takeReopen
    rw [if_pos (Nat.lt_of_not_le hd)]
    exact .of_still (countLineBadMessage_within s)

end Sys2Proof.Machine.State
end

