-- ==== Sys2Proof/Proofs/JournalPlaces.lean ====
section
/-! The day's events, the tables, the starts and the ticks keep the account of the journal's places, and so does every step
(R172, R175 to R179, R181; O58). -/

set_option Elab.async false

namespace Sys2Proof.Machine.State

variable {s t : State} {i : Nat} {e : Entry}

/-! ### The day and the batch -/

theorem takeCutoff_keepsJournal (pos teller : Option Nat) (hst : s.day.state = .opened) :
    KeepsJournal s (s.takeCutoff pos teller) := by
  refine (testCompletion_keepsJournal _).after ((KeepsJournal.of_still (dayNotice_within _)).after ?_)
  have hwithin : Within [.day, .dayState, .screens, .windowSound, .port, .counters, .journal, .records] s
      ((s.append (.cutoff pos teller)).setDayState .cutoff) := (setDayState_within _ _).after (append_within s _).mono
  have hjournal := (setDayState_within (s.append (.cutoff pos teller)) .cutoff .journal (by decide)).trans
    (s.append_journal (.cutoff pos teller))
  have hcut : ((s.append (.cutoff pos teller)).setDayState .cutoff).day.state = .cutoff := by rw [setDayState_day]
  refine .of_reserve (hwithin .entries (by decide)) ?_ ?_ ?_ ?_ (fun hs => ?_) (closingNeed_cutoff (by rw [hst]; decide) hcut
    (hwithin .sessions (by decide)) (hwithin .drawers (by decide)))
  · rw [hjournal, withRecord_length]
  · rw [hjournal]
    rfl
  · rw [hjournal]
    rfl
  · rw [hcut, hst]
    exact iff_of_false (not_settled (.inr (.inr rfl))) (not_settled (.inr (.inl rfl)))
  · exact Bool.eq_false_iff.mpr fun hclosed => not_settled (.inr (.inl hst)) (hs.closed.mp hclosed)

theorem takeClose_keepsJournal (p : Nat) : KeepsJournal s (s.takeClose p) := by
  unfold takeClose
  dsimp only
  refine KeepsJournal.after (t := s.copyRole p) ?_ (copyRole_keepsJournal p)
  split
  · exact .of_still (showAt_within _ _ _)
  · split
    · exact .of_still (showAt_within _ _ _)
    · next h => exact takeCutoff_keepsJournal _ _ (Decidable.not_not.mp h)

theorem takeReopenDay_keepsJournal (hst : s.day.state = .cutoff) (hroom : s.generalRoom = true) :
    KeepsJournal s s.takeReopenDay := by
  refine (KeepsJournal.of_still (dayNotice_within _)).after ?_
  have hwithin : Within [.day, .dayState, .screens, .windowSound, .port, .counters, .journal, .records] s
      ((s.append .reopenDay).setDayState .opened) := (setDayState_within _ _).after (append_within s _).mono
  have hjournal := (setDayState_within (s.append .reopenDay) .opened .journal (by decide)).trans (s.append_journal .reopenDay)
  refine .of_general (hwithin .entries (by decide)) ?_ ?_ ?_ ?_ (generalRoom_space hroom)
  · rw [hjournal, withRecord_length]
  · rw [hjournal]
    rfl
  · rw [hjournal]
    rfl
  · rw [setDayState_day, hst]
    exact iff_of_false (not_settled (.inr (.inl rfl))) (not_settled (.inr (.inr rfl)))

/-- The 32 entries claim 64 places at most (R68, R175). -/
theorem claims_le (hs : s.JournalSound) : s.journal.claims ≤ 64 := by
  rw [hs.claims, overEntries_eq]
  have hone : ∀ n ∈ (List.range 32).map fun i => figureOf (·.claim) (s.entry i), n ≤ 2 := by
    intro n hn
    obtain ⟨i, -, rfl⟩ := List.mem_map.mp hn
    cases he : s.entry i with
    | none => exact Nat.zero_le 2
    | some e =>
      rw [figureOf_some, (hs.held i e he).1, Entry.claimDue]
      split
      · split <;> decide
      · split <;> decide
      · decide
  have hsum := List.sum_le_card_nsmul _ 2 hone
  rw [List.length_map, List.length_range] at hsum
  exact hsum

theorem openDay_keepsJournal (date : Text) : KeepsJournal s (s.openDay date) := by
  have hwithin : Within [.port, .counters, .day, .dayState, .screens, .windowSound, .drawers] (s.dayOpened date)
      (((s.dayOpened date).carryDrawers.setDayState .opened).dayNotice) :=
    (dayNotice_within _).after ((setDayState_within _ _).after (carryDrawers_within _).mono)
  have hjournal := hwithin .journal (by decide)
  have hstate : (((s.dayOpened date).carryDrawers.setDayState .opened).dayNotice).day.state = .opened :=
    (dayNotice_within _ .dayState (by decide)).trans (by rw [setDayState_day])
  rw [openDay_eq]
  generalize ((s.dayOpened date).carryDrawers.setDayState .opened).dayNotice = t at hwithin hjournal hstate ⊢
  refine .of_places (hwithin .entries (by decide)) (by rw [hjournal]; rfl) ?_ fun hs => ?_
  · rw [hjournal, hstate]
    exact iff_of_false Bool.false_ne_true (not_settled (.inr (.inl rfl)))
  · have hneed := closingNeed_le t
    have hclaims := claims_le hs
    have hone : t.journal.records.length = 1 := by
      rw [hjournal]
      rfl
    split <;> omega

/-- The batch: acknowledgments, the ack wait and RESUME BATCH leave the journal closed (R179). -/
theorem takeAck_keepsJournal (n : Nat) : KeepsJournal s (s.takeAck n) := by
  by_cases h : (s.day.state = .sending ∨ s.day.state = .held) ∧ s.outstanding n = true
  · refine .of_batch (takeAck_within s n) (h.1.imp_right .inl) ?_
    unfold takeAck
    rw [if_pos h]
    dsimp only
    split
    · refine .inr (.inr ((dayNotice_within _ .dayState (by decide)).trans ?_))
      rw [setDayState_day]
    · rw [testWindow_within _ .dayState (by decide)]
      exact h.1.imp_right .inl
  · unfold takeAck
    rw [if_neg h]
    exact .of_still (countBatchAckIgnored_within s)

theorem takeNack_keepsJournal (n : Nat) : KeepsJournal s (s.takeNack n) := .of_still (takeNack_within s n)

theorem ackWaitExpires_keepsJournal : KeepsJournal s s.ackWaitExpires := by
  by_cases h : s.day.state = .sending ∧ s.day.ackTimer.isSome = true
  · refine .of_batch (ackWaitExpires_within s) (.inl h.1) ?_
    unfold ackWaitExpires
    rw [if_pos h]
    dsimp only
    split
    · rw [testWindow_within _ .dayState (by decide)]
      exact .inl h.1
    · refine .inr (.inl ((alarm_within _ _ _ .dayState (by decide)).trans ?_))
      rw [setDayState_day]
  · unfold ackWaitExpires
    rw [if_neg h]
    exact .refl s

theorem resumeBatch_keepsJournal (hst : s.day.state = .held) : KeepsJournal s s.resumeBatch := by
  refine .of_batch (resumeBatch_within s) (.inr (.inl hst)) ?_
  unfold resumeBatch
  rw [testWindow_within _ .dayState (by decide), dayNotice_within _ .dayState (by decide), setDayState_day]
  exact settled_sending

/-- A request that may change the part: its effect, then the reply. -/
theorem answerDo_keepsJournal (code : Byte) (tag n : Nat) (bs : List Byte) (f : State × Verdict) (h : KeepsJournal s f.1) :
    KeepsJournal s (s.answerDo code tag n bs f) := by
  unfold answerDo
  split
  · exact (KeepsJournal.of_still (reply_within f.1 code tag f.2)).after h
  · exact .of_still (reply_within s _ _ _)

theorem mgmtOpen_keepsJournal (tag : Nat) (bs : List Byte) : KeepsJournal s (s.mgmtOpen tag bs) := by
  refine answerDo_keepsJournal _ _ _ _ _ ?_
  unfold mgmtOpenDay
  split
  · exact .refl s
  · split
    · exact .refl s
    · dsimp only
      exact openDay_keepsJournal bs

theorem mgmtCut_keepsJournal (tag : Nat) (bs : List Byte) : KeepsJournal s (s.mgmtCut tag bs) := by
  refine answerDo_keepsJournal _ _ _ _ _ ?_
  unfold mgmtCutoff
  split
  · next h => exact takeCutoff_keepsJournal _ _ h
  · exact .refl s

theorem mgmtReopen_keepsJournal (tag : Nat) (bs : List Byte) : KeepsJournal s (s.mgmtReopen tag bs) := by
  refine answerDo_keepsJournal _ _ _ _ _ ?_
  unfold mgmtReopenDay
  split
  · next h => exact takeReopenDay_keepsJournal h.1 h.2
  · exact .refl s

theorem mgmtResume_keepsJournal (tag : Nat) (bs : List Byte) : KeepsJournal s (s.mgmtResume tag bs) := by
  refine answerDo_keepsJournal _ _ _ _ _ ?_
  unfold mgmtResumeBatch
  split
  · next h => exact resumeBatch_keepsJournal h
  · exact .refl s

/-! ### The tables -/

theorem afterWrite_needs (old : Tables) (i : Nat) (e : TableEntry) : NeedsKept s (s.afterWrite old i e) := by
  have hfunds := afterWrite_funds s old i e
  have hday := afterWrite_within s old i e .dayState (by decide)
  refine ⟨?_, fun d => congrArg (· != .balanced) (hfunds.state d), hday⟩
  unfold afterWrite
  have hquiet : ∀ {t : State} {may : List Aspect}, Within may s t → Aspect.sessions ∉ may → ∀ p,
      ((t.session p).state != .signedOff) = ((s.session p).state != .signedOff) := fun h hs p =>
    congrArg (fun x : Session => x.state != .signedOff) (session_congr (h .sessions hs) p)
  split
  · exact hquiet (refreshForms_within s _) (by decide)
  · exact hquiet (refreshForms_within s _) (by decide)
  · exact hquiet (touch_within s _ _) (by decide)
  · exact hquiet (touch_within s _ _) (by decide)
  · exact hquiet (onScreens_within s _ _) (by decide)
  · exact hquiet (positionWritten_within s old i) (by decide)
  · exact (NeedsKept.fold (fun t p => copyRole_needs p) _ s).sessions
  · exact (NeedsKept.refl s).sessions

theorem mgmtTableWrite_keepsJournal (tag : Nat) (bs : List Byte) : KeepsJournal s (s.mgmtTableWrite tag bs) := by
  unfold mgmtTableWrite
  refine (KeepsJournal.of_still (reply_within _ _ _ _)).after ?_
  obtain h | ⟨x, i, content, e, -, -, h⟩ := tableWrite_cases s bs
  · rw [h]
    exact .refl s
  · rw [h]
    exact .of_within (storeEntry_within s i e) ((afterWrite_needs _ i e).after (onlyReached_needs rfl rfl rfl))

/-! ### Frames, timers and the office link -/

theorem deliver_keepsJournal (p : Nat) (m : InMsg) : KeepsJournal s (s.deliver p m) := by
  cases m with
  | request r => exact takeRequest_keepsJournal p r
  | cancel => exact takeCancel_keepsJournal p
  | override tag decision => exact takeOverride_keepsJournal p tag decision
  | count d lists => exact takeCount_keepsJournal p d lists
  | reopen d => exact takeReopen_keepsJournal p d
  | acceptDiff d lists => exact takeAcceptDiff_keepsJournal p d lists
  | close => exact takeClose_keepsJournal p
  | opened => exact takeOpened_keepsJournal p
  | closed => exact .of_within (takeClosed_within s p) (.of_funds (takeClosed_within s p) (takeClosed_funds s p))
  | fault => exact .of_within (takeFault_within s p) (.of_funds (takeFault_within s p) (takeFault_funds s p))
  | signOn teller => exact takeSignOn_keepsJournal p teller
  | signOff => exact takeSignOff_keepsJournal p
  | suspend => exact takeSuspend_keepsJournal p
  | resume teller => exact takeResume_keepsJournal p teller
  | form f => exact .of_still (takeFormMessage_within s p f)
  | bookIn account layout page line => exact .of_still (takeBookIn_within s p account layout page line)
  | bookOut => exact .of_still (takeBookOut_within s p)
  | status v =>
    cases v with
    | ready => exact .of_still (takeReady_within s p)
    | lineDone => exact .of_still (takeLineDone_within s p)
    | jam => exact .of_still (takeJam_within s p)
    | jamCleared => exact .of_still (takeJamCleared_within s p)
    | turned => exact .of_still (takeTurned_within s p)
  | bad => exact .of_still (countLineBadMessage_within s)

theorem receive_keepsJournal (f : RxFrame) : KeepsJournal s (s.receive f) := by
  obtain ⟨hfunds, hquiet⟩ | ⟨t, p, m, hfunds, hbefore, heq⟩ := receive_cases s f
  · exact .of_within hquiet (.of_funds hquiet hfunds.funds)
  · rw [heq]
    exact (deliver_keepsJournal p m).after (.of_within hbefore (.of_funds hbefore hfunds.funds))

theorem receiveBytes_keepsJournal (bs : List Byte) : KeepsJournal s (s.receiveBytes bs) := by
  unfold receiveBytes
  split
  · exact receive_keepsJournal _
  · exact .refl s

theorem approvalExpires_keepsJournal (i : Nat) : KeepsJournal s (s.approvalExpires i) := by
  unfold approvalExpires
  split
  · next he =>
    split
    · next h => exact endCentre_keepsJournal he h.1 _ _
    · exact .refl s
  · exact .refl s

theorem overrideExpires_keepsJournal (i : Nat) : KeepsJournal s (s.overrideExpires i) := by
  unfold overrideExpires
  split
  · next he =>
    split
    · exact endOverride_keepsJournal he _
    · exact .refl s
  · exact .refl s

theorem queueReversal_keepsJournal (i : Nat) : KeepsJournal s (s.queueReversal i) := by
  unfold queueReversal
  split
  · split
    · exact (testCompletion_keepsJournal _).after (offerReversal_keepsJournal i)
    · exact .refl s
  · exact .refl s

theorem tickEntry_keepsJournal (i : Nat) : KeepsJournal s (s.tickEntry i) := by
  unfold tickEntry
  split
  · exact .refl s
  · next e he =>
    refine .of_entry (i := i) (x := some { e with timer := tickDown e.timer }) rfl rfl (setEntry_needs i _) he fun hs =>
      ⟨rfl, fun f hf => ?_⟩
    cases hf
    exact hs.held i e he

theorem tick_keepsJournal : KeepsJournal s s.tick := by
  unfold tick
  dsimp only
  refine KeepsJournal.after (.of_still (withPending_within _ _)) (KeepsJournal.after (.of_still (tickDay_within _)) ?_)
  exact (KeepsJournal.fold (fun t p => .of_still (tickPrinter_within t p)) _ _).after
    ((KeepsJournal.fold (fun t d => .of_within (tickDrawer_within t d) (.of_funds (tickDrawer_within t d) (tickDrawer_funds t d)))
      _ _).after ((KeepsJournal.fold (fun t i => tickEntry_keepsJournal i) _ _).after (.of_still (tickLine_within s))))

/-! ### Starts -/

theorem coldStart_keepsJournal (n : Nat) (b : Bool) : KeepsJournal s (s.coldStart n b) := fun _ =>
  KeepsJournal.of_quiet (s := State.reset) rfl rfl (onlyReached_needs rfl rfl rfl) Proofs.reset_journalSound

/-- Where an option gives a member, its figure is 1 at least. -/
theorem length_filterMap_le_sum {α : Type} {g : Nat → Option α} {f : Nat → Nat} (h : ∀ i, (g i).isSome = true → 1 ≤ f i)
    (l : List Nat) : (l.filterMap g).length ≤ (l.map f).sum := by
  induction l with
  | nil => exact Nat.zero_le 0
  | cons i l ih =>
    rw [List.map_cons, List.sum_cons]
    cases hi : g i with
    | none =>
      rw [List.filterMap_cons_none hi]
      omega
    | some x =>
      have hone := h i (by rw [hi]; rfl)
      rw [List.filterMap_cons_some hi, List.length_cons]
      omega

/-- Every EXPIRED record of a warm start has a claim to be written against (R88). -/
theorem expiredBodies_length (hs : s.JournalSound) : s.expiredBodies.length ≤ s.journal.claims := by
  rw [hs.claims, overEntries_eq]
  refine length_filterMap_le_sum (fun i hi => ?_) _
  obtain ⟨b, hb⟩ := Option.isSome_iff_exists.mp hi
  obtain ⟨e, he, hbody⟩ := Option.bind_eq_some_iff.mp hb
  rw [he, figureOf_some]
  unfold Entry.warmBody at hbody
  split at hbody
  · next h => exact ((claim_of_centre hs he h.1).trans (if_neg h.2)).ge
  · cases hbody

/-- A warm start leaves no session open and every drawer in its state. -/
theorem warmKept_need (n : Nat) (b : Bool) : (s.warmKept n b).closingNeed ≤ s.closingNeed := by
  have hsessions : (allPositions.filter fun p => ((s.warmKept n b).session p).state != .signedOff) = [] := by
    refine List.filter_eq_nil_iff.mpr fun p _ => ?_
    rw [session_congr (warmKept_within s n b .sessions (by decide)) p]
    show ¬ ((rd1 (Vector.replicate 24 Session.off) p Session.off).state != .signedOff) = true
    rw [rd1_replicate]
    decide
  have hdrawers : (allDrawers.filter fun d => ((s.warmKept n b).drawer d).state != .balanced) =
      allDrawers.filter fun d => (s.drawer d).state != .balanced := by
    refine List.filter_congr fun d hd => ?_
    rw [warmKept_drawer s n b (mem_allDrawers.mp hd)]
  have hcutoff : (s.warmKept n b).day.state = .cutoff ↔ s.day.state = .cutoff := by
    rw [warmKept_day]
    dsimp only
    split
    · next h => exact iff_of_false (by decide) fun hc => by simp [hc] at h
    · rfl
  unfold closingNeed
  rw [hsessions, hdrawers]
  simp only [hcutoff, List.length_nil]
  omega

/-- The kept part of a warm start has no entries and no claims; its RESTART record has general space (R66, R88, R177). -/
theorem warmKept_keepsJournal (n : Nat) (b : Bool) : KeepsJournal s (s.warmKept n b) := by
  intro hs
  have hnone : ∀ i, (s.warmKept n b).entry i = none := fun i =>
    (congrArg (rd · i none) (warmKept_entries s n b)).trans (rd_replicate _ _)
  have hclosed : (s.warmKept n b).journal.closed = s.journal.closed := by rw [warmKept_journal]
  have hlen : (s.warmKept n b).journal.records.length =
      s.journal.records.length + (s.restartBodies.length + s.expiredBodies.length) := by
    rw [warmKept_journal]
    dsimp only
    rw [List.length_append, recordsFrom_length, List.length_append]
  refine ⟨fun i e he => ?_, ?_, ?_, ?_⟩
  · rw [hnone] at he
    cases he
  · rw [Proofs.warmKept_claims hs, overEntries_of_empty hnone]
  · rw [hclosed, hs.closed, warmKept_day]
    dsimp only
    split
    · next h => exact iff_of_true (h.imp_right .inl) (.inr (.inl rfl))
    · rfl
  · have hexpired := expiredBodies_length hs
    have hplaces := hs.places
    have hneed := warmKept_need (s := s) n b
    have hmost := closingNeed_le (s.warmKept n b)
    rw [hclosed, hlen, Proofs.warmKept_claims hs]
    unfold restartBodies
    split
    · next h =>
      have hspace : (16384 : Int) - s.journal.records.length - s.journal.claims - 64 ≥ 1 := h.2.1
      rw [List.length_singleton]
      split <;> omega
    · rw [List.length_nil]
      split
      · next hshut =>
        rw [if_pos hshut] at hplaces
        omega
      · next hshut =>
        rw [if_neg hshut] at hplaces
        omega

theorem warmStart_keepsJournal (n : Nat) (b : Bool) : KeepsJournal s (s.warmStart n b) := by
  rw [warmStart_eq]
  refine KeepsJournal.after ?_ (warmKept_keepsJournal n b)
  generalize s.warmKept n b = t
  unfold warmCompletion
  split
  · next h =>
    have hreleased := clearReleases_within t
    refine KeepsJournal.after (s := t) (t := t.clearReleases) ?_ (.of_within hreleased (.of_funds hreleased (clearReleases_funds t)))
    have hcutoff : t.clearReleases.day.state = .cutoff := (hreleased .dayState (by decide)).trans h.1
    generalize t.clearReleases = u at hcutoff
    exact closed_keepsJournal (s := u) (b := u.settlementBody) hcutoff rfl rfl
  · exact .refl t

theorem powerOn_keepsJournal (n : Nat) (b : Bool) : KeepsJournal s (s.powerOn n b) := by
  unfold powerOn
  split
  · exact warmStart_keepsJournal n b
  · exact coldStart_keepsJournal n b

theorem restart_keepsJournal (tag : Nat) (bs : List Byte) (n : Nat) : KeepsJournal s (s.restart tag bs n) := by
  unfold restart
  split
  · exact coldStart_keepsJournal n _
  · split
    · exact warmStart_keepsJournal n _
    · exact .of_still (reply_within s _ _ _)

/-! ### The office link and every command -/

theorem takeMgmt_keepsJournal (tag : Nat) (bs : List Byte) : KeepsJournal s (s.takeMgmt tag bs) := by
  have hread : ∀ c n bs v, KeepsJournal s (s.answerRead c tag n bs v) := fun c n bs v => .of_still (answerRead_within s c tag n bs v)
  unfold takeMgmt
  split
  · exact (KeepsJournal.of_still (reply_within _ _ _ _)).after (.of_still (drawFree_within s))
  · split
    · exact hread _ _ _ _
    · exact hread _ _ _ _
    · exact mgmtTableWrite_keepsJournal _ _
    · exact hread _ _ _ _
    · exact .of_still (mgmtLock_within s _ _)
    · exact mgmtOpen_keepsJournal _ _
    · exact mgmtCut_keepsJournal _ _
    · exact mgmtReopen_keepsJournal _ _
    · exact mgmtResume_keepsJournal _ _
    · exact hread _ _ _ _
    · exact hread _ _ _ _
    · exact hread _ _ _ _
    · exact hread _ _ _ _
    · exact .of_still (mgmtReadCounters_within s _ _)
    · exact .of_still (mgmtSurvey_within s _ _)
    · exact hread _ _ _ _
    · exact .of_still (mgmtSurveySummary_within s _ _)
    · exact restart_keepsJournal _ _ _
    · exact .of_still (reply_within s _ _ _)

theorem filterNode_keepsJournal (k n tag : Nat) (bs : List Byte) : KeepsJournal s (s.filterNode k n tag bs) := by
  unfold filterNode
  split
  · unfold route
    split
    · exact takeAnswer_keepsJournal _ _
    · exact takeMgmt_keepsJournal _ _
    · exact takeAck_keepsJournal _
    · exact takeNack_keepsJournal _
    · exact .refl s
  · exact .of_still (countLinkWrongNode_within s)

theorem receiveOffice_keepsJournal (bs : List Byte) : KeepsJournal s (s.receiveOffice bs) := by
  unfold receiveOffice
  split
  · exact .of_still (dropBadFrame_within s)
  · exact filterNode_keepsJournal _ _ _ _

/-- No command breaks the account of the journal's places. -/
theorem exec_keepsJournal {c : Instr} {t : State} (h : exec c s = .next t) : KeepsJournal s t := by
  cases c with
  | powerOn straps retv => cases h; exact powerOn_keepsJournal _ _
  | restart tag params straps => cases h; exact restart_keepsJournal _ _ _
  | badFrame frame => cases h; exact receiveOffice_keepsJournal _
  | wrongNodeFrame kind node tag payload => cases h; exact filterNode_keepsJournal _ _ _ _
  | answer tag payload => cases h; exact takeAnswer_keepsJournal _ _
  | batchAck block => cases h; exact takeAck_keepsJournal _
  | tableWrite tag params => cases h; exact mgmtTableWrite_keepsJournal _ _
  | openDay tag params => cases h; exact mgmtOpen_keepsJournal _ _
  | cutoff tag params => cases h; exact mgmtCut_keepsJournal _ _
  | reopenDay tag params => cases h; exact mgmtReopen_keepsJournal _ _
  | resumeBatch tag params => cases h; exact mgmtResume_keepsJournal _ _
  | ackWaitExpiry => cases h; exact ackWaitExpires_keepsJournal
  | reversalNoticeQueued index => cases h; exact queueReversal_keepsJournal _
  | grantedRequestQueued index => cases h; exact queueGranted_keepsJournal _
  | approvalWaitExpiry index => cases h; exact approvalExpires_keepsJournal _
  | overrideWaitExpiry index => cases h; exact overrideExpires_keepsJournal _
  | openAlarmExpiry drawer =>
    cases h
    have hexpired := openAlarmExpires_within s drawer
    exact .of_within hexpired (.of_funds hexpired (openAlarmExpires_funds s _))
  | grant => cases h; exact .of_within (grant_within s) (.of_funds (grant_within s) (grant_operates s).funds)
  | unitReplyWaitExpiry =>
    cases h
    exact .of_within (replyWaitExpires_within s) (.of_funds (replyWaitExpires_within s) (replyWaitExpires_operates s).funds)
  | lineFrameDiscarded frame | inboundFrameRejected frame | surveyProbeBadReply frame => cases h; exact receiveBytes_keepsJournal _
  | rollAnswer | accept | reject | busy | echo | repeatMessage | lineBadMessage | signOn | signOff | suspend | resume | request
  | cancel | override | count | acceptDiff | reopen | form | close | bookIn | bookOut | statusReady | lineDone | turned | jam
  | jamCleared | opened | closed | fault => cases h; exact receive_keepsJournal _
  | _ =>
    exact .of_quiet (exec_keeps h (a := .entries) (of_decide_eq_true rfl)) (exec_keeps h (a := .journal) (of_decide_eq_true rfl))
      ⟨fun p => congrArg (fun x : Session => x.state != .signedOff)
          (session_congr (exec_keeps h (a := .sessions) (of_decide_eq_true rfl)) p),
        fun d => congrArg (fun x : Drawer => x.state != .balanced)
          (drawer_congr (exec_keeps h (a := .drawers) (of_decide_eq_true rfl)) d),
        exec_keeps h (a := .dayState) (of_decide_eq_true rfl)⟩

end Sys2Proof.Machine.State

namespace Sys2Proof.Proofs

open Sys2Proof.Machine Sys2Proof.Machine.State

/-- Settles O58: a record of the closing reserve takes the place that the close needed for it, any other record has a claim
or general space. -/
theorem journalPlacesKept : Obligations.JournalPlacesKept := by
  unfold Obligations.JournalPlacesKept
  intro s t hs h
  unfold step at h
  split at h
  · injection h with h
    rw [← h]
    exact tick_keepsJournal hs
  · next rest _ =>
    exact KeepsJournal.after (exec_keepsJournal h) (.of_still (withPending_within s rest)) hs

end Sys2Proof.Proofs
end

