-- ==== Sys2Proof/Proofs/LineFacts.lean ====
section
/-! The line engine's own steps as the statements name them (R25, R26, R35, R38): frames sent, transfers ended, frames taken by the
engine's state. -/

set_option Elab.async false

namespace Sys2Proof.Machine.State

variable {s : State} {x : Transfer} {f : RxFrame}

/-! ### The end of a work and its wait (R26) -/

theorem endTransfer_eq : s.endTransfer = { s with line := s.line.ended [.unselect] } := rfl

theorem idle_eq : s.idle = { s with line := s.line.ended [] } := by
  have hsent : s.line.ended [] = { s.line with engine := .idle, replyWait := none } := by
    unfold Line.ended
    rw [List.append_nil]
  rw [hsent]
  rfl

theorem sendHead_eq {q : Queued} (h : (s.unit x.pos x.unit).queue.head? = some q) : s.sendHead x = { s with
    line := s.line.awaiting s.tables.params.unitReply (.waitReply x)
      [.selectReceive x.pos x.unit, .message x.pos x.unit (s.unit x.pos x.unit).outSeq q.msg] } := by
  obtain ⟨rest, hqueue⟩ := List.head?_eq_some_iff.mp h
  have hsent : s.line.sent ++ [.selectReceive x.pos x.unit] ++
      [.message x.pos x.unit (s.unit x.pos x.unit).outSeq q.msg] =
      s.line.sent ++ [.selectReceive x.pos x.unit, .message x.pos x.unit (s.unit x.pos x.unit).outSeq q.msg] :=
    List.append_assoc ..
  unfold sendHead
  rw [hqueue]
  unfold Line.awaiting
  rw [← hsent]
  rfl

/-! ### A frame taken by the engine's state (R25) -/

theorem receive_of_discarding (h : s.line.discarding = true) : s.receive f = s := if_pos h

/-- The state that takes a frame: bytes are discarded after one of a bad form (R203). -/
def taking (s : State) (f : RxFrame) : State := if f = .badForm then s.withLine { s.line with discarding := true } else s

theorem taking_of_form (h : f ≠ .badForm) : s.taking f = s := if_neg h

theorem taking_engine : (s.taking f).line.engine = s.line.engine := by
  unfold taking
  split <;> rfl

/-- The rule of an engine's state for a frame (R25). -/
def takes (s : State) (f : RxFrame) : Engine → State
  | .rollCall slots => s.receiveSlot slots f
  | .selectedSend x => s.receiveInbound x f
  | .waitReply x => s.receiveReply x f
  | .waitProbe p kind discarded => s.receiveProbe p kind discarded f
  | _ => s.discardFrame f

theorem receive_eq_takes (hd : s.line.discarding = false) : s.receive f = (s.taking f).takes f s.line.engine := by
  have he := s.taking_engine (f := f)
  unfold receive
  rw [if_neg (Bool.eq_false_iff.mp hd), ← he]
  unfold taking takes
  dsimp only
  generalize (if f = .badForm then s.withLine { s.line with discarding := true } else s) = t
  cases t.line.engine <;> rfl

theorem receive_idle (h : s.line.engine = .idle) (hd : s.line.discarding = false) : s.receive f = (s.taking f).discardFrame f := by
  rw [receive_eq_takes hd, h, takes]
  all_goals simp

theorem receive_selectedSend (h : s.line.engine = .selectedSend x) (hd : s.line.discarding = false) :
    s.receive f = (s.taking f).receiveInbound x f := by
  rw [receive_eq_takes hd, h, takes]

theorem receive_waitReply (h : s.line.engine = .waitReply x) (hd : s.line.discarding = false) :
    s.receive f = (s.taking f).receiveReply x f := by
  rw [receive_eq_takes hd, h, takes]

theorem receive_rollCall {slots : List Nat} (h : s.line.engine = .rollCall slots) (hd : s.line.discarding = false) :
    s.receive f = (s.taking f).receiveSlot slots f := by
  rw [receive_eq_takes hd, h, takes]

theorem receive_waitProbe {p : Nat} {k : ProbeKind} {d : Bool} (h : s.line.engine = .waitProbe p k d)
    (hd : s.line.discarding = false) : s.receive f = (s.taking f).receiveProbe p k d f := by
  rw [receive_eq_takes hd, h, takes]

end Sys2Proof.Machine.State
end

