-- ==== Sys2Proof/Proofs/Survey.lean ====
section
/-! The line survey (R44 to R47): its start, the end of a probe by what came, and the end of a position. -/

set_option Elab.async false

namespace Sys2Proof.Machine.State

variable {s : State} {p : Nat} {k : ProbeKind}

/-- The survey once a probe has ended with its marks and its reply's time, none at the expiry of the wait (R45, R46). -/
def probed (s : State) (p : Nat) (time : Option Nat) (m : SurveyMarks) : Survey :=
  let before := rd1 s.survey.results p SurveyResult.invalid
  let r := if time.isSome then
      { before with min := min before.min (time.getD 0), max := max before.max (time.getD 0) }
    else before
  if s.survey.probes ≠ [] then { s.survey with results := wr1 s.survey.results p r, marks := m }
  else
    { s.survey with
      results := wr1 s.survey.results p
        { r with valid := true, fault := surveyFault (decide (s.tables.params.surveySlow < r.max)) m }
      min := min s.survey.min r.min, max := max s.survey.max r.max, validCount := s.survey.validCount + 1
      faultCount := if surveyFault (decide (s.tables.params.surveySlow < r.max)) m = .ok then s.survey.faultCount
                    else s.survey.faultCount + 1
      marks := SurveyMarks.clear, rest := s.survey.rest.drop 1, probes := [.presence]
      state := if s.survey.rest.drop 1 = [] then .done else .running }

theorem endProbe_eq (hp : 1 ≤ p ∧ p ≤ 24) (d : Bool) (time : Option Nat) (mark : SurveyMarks → SurveyMarks) :
    s.endProbe p d time mark = { s with
      line := s.line.ended [], survey := if d then s.survey else s.probed p time (mark s.survey.marks) } := by
  have hread : ∀ r, rd1 (wr1 s.survey.results p r) p SurveyResult.invalid = r := fun r => by
    rw [rd1_wr1, if_pos ⟨rfl, hp⟩]
  unfold endProbe
  dsimp only
  rw [idle_eq]
  cases d with
  | true => rfl
  | false =>
    rw [if_neg Bool.false_ne_true, if_neg Bool.false_ne_true]
    unfold probed
    cases time with
    | none =>
      by_cases hlast : s.survey.probes = []
      · simp only [hlast, if_true, ne_eq, not_true, if_false, surveyPositionDone, withSurvey, hread, wr1_wr1, Option.isSome_none,
          Bool.false_eq_true]
      · simp only [hlast, if_false, ne_eq, not_false_eq_true, if_true, withSurvey, Option.isSome_none, Bool.false_eq_true]
    | some n =>
      by_cases hlast : s.survey.probes = []
      · simp only [hlast, if_true, ne_eq, not_true, if_false, surveyPositionDone, withSurvey, hread, wr1_wr1, Option.isSome_some,
          Option.getD_some]
      · simp only [hlast, if_false, ne_eq, not_false_eq_true, if_true, withSurvey, Option.isSome_some, Option.getD_some]

theorem surveyFault_eq (n limit : Nat) (m : SurveyMarks) : surveyFault (decide (limit < n)) m =
    if m.noAnswer then .noAnswer else if m.badCheck then .badCheck else if m.wrongAddress then .wrongAddress
    else if m.unitMissing then .unitMissing else if limit < n then .slow else .ok := by
  simp only [surveyFault, decide_eq_true_eq]

/-- A frame of a sound form ends the probe on the line (R45). -/
theorem receive_ends_probe {stopped : Bool} {f : RxFrame} (he : s.line.engine = .waitProbe p k stopped)
    (hd : s.line.discarding = false) (hf : f ≠ .badForm) : s.receive f =
      s.endProbe p stopped (some s.survey.elapsed) (probeMarks p k s.survey.installed f) := by
  rw [receive_waitProbe he hd, taking_of_form hf, receiveProbe]

/-- The expiry of the reply wait ends the probe on the line (R45). -/
theorem replyWaitExpires_ends_probe {stopped : Bool} (he : s.line.engine = .waitProbe p k stopped)
    (hwait : s.line.replyWait ≠ none) : s.replyWaitExpires =
      s.endProbe p stopped none fun m => { m with noAnswer := true } := by
  unfold replyWaitExpires
  rw [if_neg hwait, he]

theorem receiveBytes_of {bytes : List Byte} {f : RxFrame} (h : parseStation bytes = some f) : s.receiveBytes bytes = s.receive f := by
  unfold receiveBytes
  rw [h]

/-- The command ends the probe, by a frame heard or by the expiry, with the marks m (R45, R46). -/
def EndsProbe (s : State) (c : Instr) (p : Nat) (stopped heard : Bool) (m : SurveyMarks) : Prop :=
  ∃ mark : SurveyMarks → SurveyMarks, mark s.survey.marks = m ∧
    exec c s = .next (s.endProbe p stopped (if heard then some s.survey.elapsed else none) mark)

theorem endsProbe_of_frame {c : Instr} {stopped heard : Bool} {m : SurveyMarks} (he : s.line.engine = .waitProbe p k stopped)
    (hd : s.line.discarding = false) (f : RxFrame) (hf : f ≠ .badForm) (hheard : heard = true)
    (hexec : exec c s = .next (s.receive f)) (hm : m = probeMarks p k s.survey.installed f s.survey.marks) :
    s.EndsProbe c p stopped heard m :=
  ⟨probeMarks p k s.survey.installed f, hm.symm, by rw [hexec, receive_ends_probe he hd hf, hheard]; rfl⟩

/-- START SURVEY with either mode, while none runs (R44). -/
theorem mgmtStartSurvey_of {b : Byte} (hb : b = 1 ∨ b = 2) (hrun : s.survey.state ≠ .running) :
    s.mgmtStartSurvey (num [b] 0 1) = (s.startSurvey (if b = 1 then .presence else .echo), .done []) := by
  unfold mgmtStartSurvey
  obtain rfl | rfl := hb
  · exact if_neg hrun
  · exact if_neg hrun

end Sys2Proof.Machine.State

namespace Sys2Proof.Proofs

open Sys2Proof.Machine Sys2Proof.Machine.State

/-- Settles O52: every frame that ends a probe, and the expiry, come to one end of a probe with its marks and its time. -/
theorem surveyRuns : Obligations.SurveyRuns := by
  unfold Obligations.SurveyRuns
  refine fun s => ⟨fun tag b hb hrun hroom => ?_, fun p kind stopped heard c m h1 h24 he hd hc => ?_⟩
  · refine ⟨s.startSurvey (if b = 1 then .presence else .echo), ?_, rfl⟩
    show Host.Outcome.next (s.mgmtSurvey tag [b]) = _
    unfold mgmtSurvey
    rw [answerDo_of_size s (size := 1) rfl, mgmtStartSurvey_of hb hrun]
    exact congrArg Host.Outcome.next (reply_done (s := s.startSurvey (if b = 1 then .presence else .echo)) hroom _ _ _)
  · have hframe : ∀ f : RxFrame, f ≠ .badForm → heard = true → exec c s = .next (s.receive f) →
        m = probeMarks p kind s.survey.installed f s.survey.marks → s.EndsProbe c p stopped heard m :=
      endsProbe_of_frame he hd
    have hends : s.EndsProbe c p stopped heard m := by
      rcases hc with ⟨a, presence, attention, rfl, rfl, hheard, hm⟩ | ⟨a, u, pattern, v, k, rfl, rfl, hheard, hm⟩ |
        ⟨⟨frame, rfl, hparse⟩ | ⟨a, u, n, rfl | rfl | rfl⟩ | ⟨a, u, pattern, rfl, rfl⟩, hheard, hm⟩ |
        ⟨rfl, hwait, rfl, hm⟩
      · exact hframe (.rollAnswer a presence attention) nofun hheard rfl hm
      · exact hframe (.echo a u pattern) nofun hheard rfl hm
      · refine hframe .badCheck nofun hheard ?_ (hm.trans (by cases kind <;> rfl))
        exact congrArg Host.Outcome.next (receiveBytes_of hparse)
      · exact hframe (.reply .accept a u n) nofun hheard rfl (hm.trans (by cases kind <;> rfl))
      · exact hframe (.reply .reject a u n) nofun hheard rfl (hm.trans (by cases kind <;> rfl))
      · exact hframe (.reply .busy a u n) nofun hheard rfl (hm.trans (by cases kind <;> rfl))
      · exact hframe (.echo a u pattern) nofun hheard rfl hm
      · exact ⟨_, hm.symm, congrArg Host.Outcome.next (replyWaitExpires_ends_probe he hwait)⟩
    obtain ⟨mark, hmark, hexec⟩ := hends
    rw [hexec, endProbe_eq ⟨h1, h24⟩, hmark]
    dsimp only
    cases heard with
    | true =>
      simp only [probed, surveyFault_eq, if_true, Option.isSome_some, Option.getD_some]
      rfl
    | false =>
      simp only [probed, surveyFault_eq, Bool.false_eq_true, if_false, Option.isSome_none]
      rfl

end Sys2Proof.Proofs
end

