-- ==== Sys2Proof/Proofs/UnitLoss.lean ====
section
/-! The loss of a unit (R32, R36, R39): its record, what its owner does, and that the refresh of a screen stays owed (R147). -/

set_option Elab.async false

namespace Sys2Proof.Machine

/-- The record of a unit that has become ABSENT (R32). -/
def UnitRec.lost : UnitRec := { presence := .absent, attention := false, queue := [], outSeq := 0, lastIn := none }

/-- What screen x has still to send, y has too (R143, R147). -/
structure Screen.Owes (x y : Screen) : Prop where
  dirty : ∀ r, 1 ≤ r → r ≤ 24 → r ∈ x.dirty → r ∈ y.dirty
  whole : x.dirty = allRows → y.dirty = allRows
  clear : x.clearPending = true → y.clearPending = true
  unknown : ∀ r, r ∉ x.blankKnown → r ∉ y.blankKnown

namespace Screen.Owes

variable {x y z : Screen}

theorem refl (x : Screen) : x.Owes x := ⟨fun _ _ _ => id, id, id, fun _ => id⟩

theorem trans (h : x.Owes y) (g : y.Owes z) : x.Owes z :=
  ⟨fun r h1 h24 hr => g.dirty r h1 h24 (h.dirty r h1 h24 hr), g.whole ∘ h.whole, g.clear ∘ h.clear,
    fun r hr => g.unknown r (h.unknown r hr)⟩

theorem of_eq (hd : y.dirty = x.dirty) (hc : y.clearPending = x.clearPending) (hb : y.blankKnown = x.blankKnown) : x.Owes y :=
  ⟨fun _ _ _ h => hd ▸ h, fun h => hd.trans h, fun h => hc.trans h, fun _ h => hb ▸ h⟩

theorem addDirty (more : Nat → Bool) : x.Owes (x.addDirty more) := by
  refine ⟨(Screen.keeps_addDirty more).dirty, fun h => ?_, id, fun _ => id⟩
  show allRows.filter (fun r => x.dirty.contains r || more r) = allRows
  refine List.filter_eq_self.mpr fun r hr => ?_
  rw [h]
  simp [hr]

theorem settle (t : Tables) : x.Owes (x.settle t) := by
  unfold Screen.settle
  split
  · exact of_eq rfl rfl rfl
  · exact refl x

theorem takeOutcome (t : Tables) (o : Shown) : x.Owes (x.takeOutcome t o) := by
  have hshown : x.Owes { x with last := some o, view := { x.view with stateMsg := some (.shown o) }, urgent := true } :=
    of_eq rfl rfl rfl
  exact hshown.trans (addDirty _)

end Screen.Owes

/-- What the owner of unit u of position p may do once the unit is lost: no unit's record changes but that one's, which stays
lost, and no screen forgets what it has to send. -/
structure Aftermath (p u : Nat) (s t : State) : Prop where
  units : ∀ q v, ¬ (q = p ∧ v = u) → t.unit q v = s.unit q v
  missed : ∀ q, (t.posRec q).missed = (s.posRec q).missed
  lost : s.unit p u = .lost → t.unit p u = .lost
  owes : ∀ q, (s.screen q).Owes (t.screen q)

namespace Aftermath

open State

variable {p u : Nat} {s t v : State}

theorem refl (p u : Nat) (s : State) : Aftermath p u s s := ⟨fun _ _ _ => rfl, fun _ => rfl, id, fun _ => .refl _⟩

theorem trans (h : Aftermath p u s t) (g : Aftermath p u t v) : Aftermath p u s v :=
  ⟨fun q w hq => (g.units q w hq).trans (h.units q w hq), fun q => (g.missed q).trans (h.missed q), g.lost ∘ h.lost,
    fun q => (h.owes q).trans (g.owes q)⟩

theorem of_recs (h : t.line.recs = s.line.recs) (ho : ∀ q, (s.screen q).Owes (t.screen q)) : Aftermath p u s t :=
  ⟨fun q w _ => unit_congr h q w, fun q => by unfold posRec; rw [h], fun hl => (unit_congr h p u).trans hl, ho⟩

/-- Neither the line nor a screen changes. -/
theorem of_still (h : t.line.recs = s.line.recs := by rfl) (hs : t.screens = s.screens := by rfl) : Aftermath p u s t :=
  of_recs h fun q => by rw [screen_congr hs]; exact .refl _

theorem of_onScreen {q : Nat} {f : Tables → Screen → Screen} (hf : (s.screen q).Owes (f s.tables (s.screen q))) :
    Aftermath p u s (s.onScreen q f) := by
  refine of_recs rfl fun r => ?_
  unfold onScreen
  rw [screen_setScreen]
  split
  · next h => rw [← h.1]; exact hf
  · exact .refl _

theorem showAt (q : Nat) (o : Shown) : Aftermath p u s (s.showAt q o) :=
  of_onScreen ((Screen.Owes.takeOutcome _ o).trans (.settle _))

theorem fold {α : Type} {f : State → α → State} (h : ∀ t x, Aftermath p u t (f t x)) (l : List α) (s : State) :
    Aftermath p u s (l.foldl f s) := by
  induction l generalizing s with
  | nil => exact refl p u s
  | cons x l ih => exact (h s x).trans (ih (f s x))

theorem touch (ps : List Nat) (f : Source → Bool) : Aftermath p u s (s.touch ps f) :=
  fold (fun t q => of_onScreen (s := t) (q := q) (.addDirty _)) ps s

/-! ### The passbook controller -/

theorem setPrinterState (x : PrinterState) : Aftermath p u s (s.setPrinterState p x) := by
  unfold State.setPrinterState
  split
  · exact refl p u s
  · exact (of_still (t := s.setPrinter p { s.printer p with state := x })).trans (touch _ _)

/-- An offer to a lost printer is dropped (R34, R170). -/
theorem offerPrinter (m : OutMsg) (hl : s.unit p 1 = .lost) : s.offerPrinter p m = s := by
  have hanswer : s.offerAnswer p 1 = .undelivered := by
    unfold offerAnswer
    rw [hl]
    rfl
  unfold State.offerPrinter
  rw [hanswer]

theorem loseFlight (hp : 1 ≤ p ∧ p ≤ 24) (hl : s.unit p 1 = .lost) : Aftermath p 1 s (s.loseFlight p) := by
  have honly := s.loseFlight_only p
  refine ⟨honly.units, honly.missed, fun _ => ?_, fun q => .refl _⟩
  unfold State.loseFlight
  rw [unit_setUnit, if_pos ⟨⟨rfl, hp⟩, rfl, by decide⟩]
  show ({ s.unit p 1 with queue := (s.unit p 1).queue.map _ } : UnitRec) = _
  rw [hl]
  rfl

theorem printerStops (hp : 1 ≤ p ∧ p ≤ 24) (hl : s.unit p 1 = .lost) (x : PrinterState) (o : Shown) :
    Aftermath p 1 s (s.printerStops p x o) :=
  (((loseFlight hp hl).trans of_still).trans (setPrinterState (s := ((s.loseFlight p).clearBook p).loadBookWait p) x)).trans
    (showAt p o)

theorem abandonJob (hl : s.unit p 1 = .lost) (o : Shown) : Aftermath p 1 s (s.abandonJob p o) := by
  unfold State.abandonJob
  split
  · exact refl p 1 s
  · next j _ =>
    dsimp only
    have hgone : ∀ x : Printer, Aftermath p 1 s (((s.freeLines j.lines).setPrinter p x).showAt p o) := fun x =>
      (of_still (t := (s.freeLines j.lines).setPrinter p x)).trans (showAt p o)
    split
    · rw [offerPrinter _ ((hgone _).lost hl)]
      exact ((hgone _).trans of_still).trans
        (setPrinterState (s := (((s.freeLines j.lines).setPrinter p _).showAt p o).clearBook p) .noBook)
    · split
      · exact (hgone _).trans (setPrinterState .noBook)
      · exact hgone _

theorem printerMessageReturned (hp : 1 ≤ p ∧ p ≤ 24) (hl : s.unit p 1 = .lost) (m : OutMsg) :
    Aftermath p 1 s (s.printerMessageReturned p m) := by
  unfold State.printerMessageReturned
  split
  · exact printerStops hp hl _ _
  · exact printerStops hp hl _ _
  · exact refl p 1 s

theorem printerAbsent (hl : s.unit p 1 = .lost) : Aftermath p 1 s (s.printerAbsent p) := by
  unfold State.printerAbsent
  dsimp only
  exact ((abandonJob hl _).trans of_still).trans (setPrinterState _)

/-! ### The composer and the drawer -/

theorem screenReturned (m : OutMsg) : Aftermath p u s (s.screenReturned p m) := by
  unfold State.screenReturned
  split
  · next r _ =>
    refine of_onScreen ((Screen.Owes.addDirty (· == r)).trans ⟨fun _ _ _ => id, id, id, fun k hk => ?_⟩)
    exact fun hmem => hk (List.mem_filter.mp hmem).1
  · refine of_recs rfl fun q => ?_
    rw [screen_setScreen]
    split
    · next h =>
      rw [← h.1]
      exact ⟨fun _ _ _ => id, id, fun _ => rfl, fun _ => id⟩
    · exact .refl _
  · exact refl p u s

theorem showNotReleased (ds : List Nat) : Aftermath p u s (s.showNotReleased ds) :=
  fold (fun t d => fold (fun t q => showAt (s := t) q _) (t.tables.drawerPositions d) t) ds s

/-! ### The owner of a unit -/

theorem returnMessage (hp : 1 ≤ p ∧ p ≤ 24) (hl : s.unit p u = .lost) (m : OutMsg) :
    Aftermath p u s (s.returnMessage p u m) := by
  unfold State.returnMessage
  split
  · exact screenReturned m
  · exact printerMessageReturned hp hl m
  · exact showNotReleased _

theorem returnMessages (hp : 1 ≤ p ∧ p ≤ 24) (hl : s.unit p u = .lost) (waiting : List Queued) :
    Aftermath p u s (waiting.foldl (fun t q => t.returnMessage p u q.msg) s) := by
  induction waiting generalizing s with
  | nil => exact refl p u s
  | cons q waiting ih =>
    have hfirst := returnMessage hp hl q.msg
    exact hfirst.trans (ih (hfirst.lost hl))

theorem tellAbsent (hl : s.unit p u = .lost) : Aftermath p u s (s.tellAbsent p u) := by
  unfold State.tellAbsent
  split
  · exact refl p _ s
  · exact printerAbsent hl
  · unfold drawerUnitAbsent
    split
    · exact of_still
    · exact refl p _ s

end Aftermath

namespace State

variable {s : State} {p u : Nat}

/-- The state in which a unit's record is that of a lost one, before its owner is told (R32). -/
def unitLost (s : State) (p u : Nat) : State := s.setUnit p u .lost

theorem unitLost_unit (hp : 1 ≤ p ∧ p ≤ 24) (hu : u ≤ 2) : (s.unitLost p u).unit p u = .lost := by
  unfold unitLost
  rw [unit_setUnit, if_pos ⟨⟨rfl, hp⟩, rfl, by omega⟩]

/-- The state once the messages of a lost unit have come back (R32). -/
def messagesReturned (s : State) (p u : Nat) : State :=
  (s.unit p u).queue.foldl (fun t q => t.returnMessage p u q.msg) (s.unitLost p u)

theorem unitAbsent_eq (p u : Nat) : s.unitAbsent p u = (s.messagesReturned p u).tellAbsent p u := rfl

/-- The loss of a unit: its record, then what its owner does (R32). -/
theorem unitAbsent_aftermath (hp : 1 ≤ p ∧ p ≤ 24) (hu : u ≤ 2) : Aftermath p u (s.unitLost p u) (s.unitAbsent p u) :=
  have hl := unitLost_unit (s := s) hp hu
  have hreturned := Aftermath.returnMessages hp hl (s.unit p u).queue
  hreturned.trans (.tellAbsent (hreturned.lost hl))

theorem unitAbsent_unit (hp : 1 ≤ p ∧ p ≤ 24) (hu : u ≤ 2) : (s.unitAbsent p u).unit p u = .lost :=
  (unitAbsent_aftermath hp hu).lost (unitLost_unit hp hu)

theorem unitAbsent_unit_other (hp : 1 ≤ p ∧ p ≤ 24) (hu : u ≤ 2) {q v : Nat} (h : (q, v) ≠ (p, u)) :
    (s.unitAbsent p u).unit q v = s.unit q v := by
  rw [(unitAbsent_aftermath hp hu).units q v fun hc => h (by rw [hc.1, hc.2]), unitLost, unit_setUnit]
  exact if_neg fun hc => h (by rw [hc.1.1, hc.2.1])

theorem unitAbsent_missed (hp : 1 ≤ p ∧ p ≤ 24) (hu : u ≤ 2) (q : Nat) :
    ((s.unitAbsent p u).posRec q).missed = (s.posRec q).missed := by
  rw [(unitAbsent_aftermath hp hu).missed q, unitLost, setUnit, posRec_setPosRec]
  split
  · next h => rw [h.1]
  · rfl

theorem unitAbsent_owes (hp : 1 ≤ p ∧ p ≤ 24) (hu : u ≤ 2) (q : Nat) :
    (s.screen q).Owes ((s.unitAbsent p u).screen q) := (unitAbsent_aftermath hp hu).owes q

/-- Of the line only the position records change. -/
theorem unitAbsent_line (p u : Nat) : (s.unitAbsent p u).line = { s.line with recs := (s.unitAbsent p u).line.recs } :=
  unitAbsent_within s p u .lineRest (by decide)

/-! ### What the owners make of it -/

theorem abandonJob_job (hp : 1 ≤ p ∧ p ≤ 24) (o : Shown) : ((s.abandonJob p o).printer p).job = none := by
  cases hj : (s.printer p).job with
  | none =>
    unfold abandonJob
    rw [hj]
    exact hj
  | some j =>
    rw [abandonJob_eq hj]
    split
    · rw [setPrinterState_printer hp, clearBook_printer hp, offerPrinter_printer hp, jobGone_printer hp]
    · split
      · rw [setPrinterState_printer hp, jobGone_printer hp]
      · rw [jobGone_printer hp]

theorem unitAbsent_printer (hp : 1 ≤ p ∧ p ≤ 24) : ((s.unitAbsent p 1).printer p).state = .absent ∧
    ((s.unitAbsent p 1).printer p).job = none ∧ ((s.unitAbsent p 1).printer p).book = none := by
  rw [unitAbsent_eq]
  generalize s.messagesReturned p 1 = t
  show ((t.printerAbsent p).printer p).state = _ ∧ ((t.printerAbsent p).printer p).job = _ ∧
    ((t.printerAbsent p).printer p).book = _
  unfold printerAbsent
  dsimp only
  rw [setPrinterState_printer hp, printer_setPrinter_same hp]
  exact ⟨rfl, abandonJob_job hp _, rfl⟩

theorem messagesReturned_tables (p u : Nat) : (s.messagesReturned p u).tables = s.tables :=
  (Within.fold _ (fun t (q : Queued) => returnMessage_within t p u q.msg) _ (s.unitLost p u)) .tables (by decide)

theorem unitAbsent_drawer (hp : p ≤ 24) (hserving : s.tables.serving p = true) :
    ((s.unitAbsent p 2).drawer p).physical = .unknown := by
  have htables := messagesReturned_tables (s := s) p 2
  rw [unitAbsent_eq]
  generalize s.messagesReturned p 2 = t at htables
  show ((t.drawerUnitAbsent p).drawer p).physical = _
  unfold drawerUnitAbsent
  rw [htables, if_pos hserving]
  unfold drawerUnknown
  rw [drawer_setDrawer, if_pos ⟨rfl, Nat.lt_succ_of_le hp⟩]

end State

end Sys2Proof.Machine
end

