-- ==== Sys2Proof/Proofs/InboundTransfers.lean ====
section
/-! Inbound transfers that end without a message, and frames that no one awaits (R25, R37 to R39, R203). -/

set_option Elab.async false

namespace Sys2Proof.Machine.State

variable {s : State} {x : Transfer} {f : RxFrame}

theorem receiveBytes_of_none {bytes : List Byte} (h : parseStation bytes = none) : s.receiveBytes bytes = s := by
  unfold receiveBytes
  rw [h]

theorem receiveBytes_of_discarding (h : s.line.discarding = true) (bytes : List Byte) : s.receiveBytes bytes = s := by
  unfold receiveBytes
  split
  · exact receive_of_discarding h
  · rfl

/-- A frame in IDLE is discarded, and counted when it fails its check (R25, R203). -/
theorem receive_in_idle (he : s.line.engine = .idle) (hd : s.line.discarding = false) (f : RxFrame) : s.receive f =
    if f = .badCheck then s.lineFrameCounted
    else if f = .badForm then { s.lineFrameCounted with line := { s.line with discarding := true } }
    else s := by
  rw [receive_idle he hd]
  cases f <;> rfl

/-- A frame refused with the sequence that it carries (R39). -/
theorem rejectInbound_some (n : Nat) : s.rejectInbound x (some n) = { s.lineFrameCounted with
    line := s.line.ended [.reply .reject x.pos x.unit n, .unselect] } := by
  have hsent : s.line.sent ++ [.reply .reject x.pos x.unit n] ++ [.unselect] =
      s.line.sent ++ [.reply .reject x.pos x.unit n, .unselect] := List.append_assoc ..
  unfold Line.ended
  rw [← hsent]
  rfl

/-- A frame refused that carries no sequence: a free value stands in the REJECT (R39). -/
theorem rejectInbound_none : s.rejectInbound x none = { s.lineFrameCounted with
    freeDraws := s.freeDraws + 1
    line := s.line.ended [.reply .reject x.pos x.unit (Config.freeByte s.freeDraws).toNat, .unselect] } := by
  have hsent : s.line.sent ++ [.reply .reject x.pos x.unit (Config.freeByte s.freeDraws).toNat] ++ [.unselect] =
      s.line.sent ++ [.reply .reject x.pos x.unit (Config.freeByte s.freeDraws).toNat, .unselect] := List.append_assoc ..
  unfold Line.ended
  rw [← hsent]
  rfl

/-- A frame of a sound form in SELECTED_SEND. -/
theorem receive_inbound (he : s.line.engine = .selectedSend x) (hd : s.line.discarding = false) (hf : f ≠ .badForm) :
    s.receive f = s.receiveInbound x f := by
  rw [receive_selectedSend he hd, taking_of_form hf]

theorem receiveInbound_busy (n : Nat) : s.receiveInbound x (.reply .busy x.pos x.unit n) = s.endTransfer :=
  if_pos ⟨rfl, rfl⟩

theorem receiveInbound_stranger {a u : Nat} (h : (a, u) ≠ (x.pos, x.unit)) (n : Nat) (m : InMsg) :
    s.receiveInbound x (.message a u n m) = s.rejectInbound x (some n) :=
  if_neg fun hc => h (by rw [hc.1, hc.2])

/-- The expiry of the reply wait in an inbound transfer (R39). -/
theorem replyWaitExpires_inbound (he : s.line.engine = .selectedSend x) (hwait : s.line.replyWait ≠ none) :
    s.replyWaitExpires = s.failInbound x := by
  unfold replyWaitExpires
  rw [if_neg hwait, he]

theorem failInbound_of_retries (h : x.made < x.limit) : s.failInbound x = { s with
    counters := { s.counters with lineRetry := oneMore s.counters.lineRetry }
    line := s.line.awaiting s.tables.params.unitReply (.selectedSend { x with made := x.made + 1 })
      [.selectSend x.pos x.unit] } := if_pos h

theorem failInbound_of_none (h : x.limit ≤ x.made) : s.failInbound x = s.loseUnit x := if_neg (Nat.not_lt.mpr h)

/-! ### The unit lost at the end of its retries (R36, R39) -/

theorem loseUnit_line : (s.loseUnit x).line = { s.line.ended [.unselect] with recs := (s.loseUnit x).line.recs } := by
  have hline := unitAbsent_line (s := s) x.pos x.unit
  unfold loseUnit
  rw [endTransfer_eq]
  generalize s.unitAbsent x.pos x.unit = t at hline ⊢
  show t.line.ended [.unselect] = { s.line.ended [.unselect] with recs := t.line.recs }
  rw [hline]
  rfl

theorem loseUnit_unit (hp : 1 ≤ x.pos ∧ x.pos ≤ 24) (hu : x.unit ≤ 2) : (s.loseUnit x).unit x.pos x.unit = .lost :=
  unitAbsent_unit hp hu

theorem loseUnit_unit_other (hp : 1 ≤ x.pos ∧ x.pos ≤ 24) (hu : x.unit ≤ 2) {q v : Nat} (h : (q, v) ≠ (x.pos, x.unit)) :
    (s.loseUnit x).unit q v = s.unit q v := unitAbsent_unit_other hp hu h

end Sys2Proof.Machine.State

namespace Sys2Proof.Proofs

open Sys2Proof.Machine Sys2Proof.Machine.State

/-- Settles O51: each frame by the engine's state, and the expiry by the retries that are left. -/
theorem inboundTransferAndDiscards : Obligations.InboundTransferAndDiscards := by
  unfold Obligations.InboundTransferAndDiscards
  refine fun s => ⟨rfl, fun frame h => ?_, fun frame f he hd hparse => ?_, fun x he hd h1 h24 hu =>
    ⟨fun n => ?_, fun frame a u n m hparse hother => ?_, fun frame f hparse hf => ?_, fun hwait =>
      ⟨fun hmade => ?_, fun hmade => ?_⟩⟩⟩
  · have hnone : s.receiveBytes frame = s := h.elim (receiveBytes_of_discarding · frame) receiveBytes_of_none
    exact ⟨congrArg Host.Outcome.next hnone, congrArg Host.Outcome.next hnone⟩
  · exact congrArg Host.Outcome.next ((receiveBytes_of hparse).trans (receive_in_idle he hd f))
  · refine congrArg Host.Outcome.next ?_
    have hframe : s.receive (.reply .busy x.pos x.unit n) = _ := receive_inbound he hd (by nofun)
    exact hframe.trans (receiveInbound_busy n)
  · refine congrArg Host.Outcome.next ?_
    have hframe : s.receive (.message a u n m) = _ := receive_inbound he hd (by nofun)
    exact (receiveBytes_of hparse).trans (hframe.trans ((receiveInbound_stranger hother n m).trans (rejectInbound_some n)))
  · refine ⟨(Config.freeByte s.freeDraws).toNat, congrArg Host.Outcome.next ?_⟩
    refine (receiveBytes_of hparse).trans ((receive_selectedSend he hd).trans ?_)
    obtain rfl | rfl := hf
    · rw [taking_of_form (by nofun)]
      have hline : (s.line.ended [.reply .reject x.pos x.unit (Config.freeByte s.freeDraws).toNat, .unselect]).discarding =
          false := hd
      refine rejectInbound_none.trans ?_
      generalize s.line.ended [.reply .reject x.pos x.unit (Config.freeByte s.freeDraws).toNat, .unselect] = l at hline ⊢
      have hsame : l = { l with discarding := false } := by rw [← hline]
      exact congrArg (fun y : Line => ({ s.lineFrameCounted with freeDraws := s.freeDraws + 1, line := y } : State)) hsame
    · show (s.taking .badForm).rejectInbound x none = _
      rw [rejectInbound_none]
      rfl
  · show Host.Outcome.next s.replyWaitExpires = _
    rw [replyWaitExpires_inbound he hwait, failInbound_of_retries hmade]
  · show ∃ t, Host.Outcome.next s.replyWaitExpires = .next t ∧ _
    rw [replyWaitExpires_inbound he hwait, failInbound_of_none hmade]
    refine ⟨s.loseUnit x, rfl, loseUnit_line, loseUnit_unit ⟨h1, h24⟩ hu, fun r v hne => loseUnit_unit_other ⟨h1, h24⟩ hu hne,
      fun htwo hserving => ?_, fun hone => ?_⟩
    · unfold loseUnit
      rw [htwo]
      exact unitAbsent_drawer h24 hserving
    · unfold loseUnit
      rw [hone]
      exact unitAbsent_printer ⟨h1, h24⟩

end Sys2Proof.Proofs
end

