-- ==== Sys2Proof/Proofs/OutboundTransfers.lean ====
section
/-! The replies to an outbound message (R35 to R37). -/

set_option Elab.async false

namespace Sys2Proof.Machine.State

variable {s : State} {x : Transfer} {f : RxFrame} {q : Queued} {rest : List Queued}

/-- A frame of a sound form while a message awaits its reply. -/
theorem receive_outbound (he : s.line.engine = .waitReply x) (hd : s.line.discarding = false) (hf : f ≠ .badForm) :
    s.receive f = s.receiveReply x f := by
  rw [receive_waitReply he hd, taking_of_form hf]

/-- A reply of the message's own address, unit and sequence. -/
def replied (s : State) (x : Transfer) : ReplyKind → State
  | .accept => s.deliverHead x
  | .reject => s.failOutbound x
  | .busy => s.endTransfer

theorem receiveReply_own (k : ReplyKind) :
    s.receiveReply x (.reply k x.pos x.unit (s.unit x.pos x.unit).outSeq) = s.replied x k := by
  cases k
  · exact if_pos ⟨rfl, rfl, rfl⟩
  · exact if_pos ⟨rfl, rfl, rfl⟩
  · exact if_pos ⟨rfl, rfl, rfl⟩

theorem receiveReply_other (k : ReplyKind) {a v m : Nat} (h : (a, v, m) ≠ (x.pos, x.unit, (s.unit x.pos x.unit).outSeq)) :
    s.receiveReply x (.reply k a v m) = s.lineFrameCounted :=
  if_neg fun hc => h (by rw [hc.1, hc.2.1, hc.2.2])

theorem replyWaitExpires_outbound (he : s.line.engine = .waitReply x) (hwait : s.line.replyWait ≠ none) :
    s.replyWaitExpires = s.failOutbound x := by
  unfold replyWaitExpires
  rw [if_neg hwait, he]

/-! ### The message sent again, or its unit lost (R36) -/

theorem failOutbound_of_retries (h : x.made < x.limit) (hq : (s.unit x.pos x.unit).queue = q :: rest) :
    s.failOutbound x = { s with
      counters := { s.counters with lineRetry := oneMore s.counters.lineRetry }
      line := s.line.awaiting s.tables.params.unitReply (.waitReply { x with made := x.made + 1 })
        [.selectReceive x.pos x.unit, .message x.pos x.unit (s.unit x.pos x.unit).outSeq q.msg] } := by
  unfold failOutbound
  rw [if_pos h]
  refine sendHead_eq (s := s.countLineRetry) (x := { x with made := x.made + 1 }) (q := q) ?_
  show (s.unit x.pos x.unit).queue.head? = some q
  rw [hq]
  rfl

theorem failOutbound_of_none (h : x.limit ≤ x.made) : s.failOutbound x = s.loseUnit x := if_neg (Nat.not_lt.mpr h)

/-- The loss of a screen unit changes the line and the screens alone. -/
theorem loseUnit_screen (hu : x.unit = 0) : s.loseUnit x = { s with
    line := (s.loseUnit x).line, screens := (s.loseUnit x).screens } := by
  have hreturned : Within [.screens] (s.unitLost x.pos 0) (s.unitAbsent x.pos 0) :=
    Within.fold _ (fun t (y : Queued) => screenReturned_within t x.pos y.msg) _ _
  have hmerge := hreturned.eq_merge
  unfold loseUnit
  rw [hu, endTransfer_eq]
  generalize s.unitAbsent x.pos 0 = t at hmerge ⊢
  rw [hmerge]
  rfl

/-- What the screen of a lost unit has still to send: the message that was in flight (R147). -/
theorem unitAbsent_owes_head {p : Nat} (hp : 1 ≤ p ∧ p ≤ 24) (hq : (s.unit p 0).queue = q :: rest) :
    (((s.unitLost p 0).screenReturned p q.msg).screen p).Owes ((s.unitAbsent p 0).screen p) := by
  have hlost := unitLost_unit (s := s) (u := 0) hp (by decide)
  have hfirst := Aftermath.screenReturned (p := p) (u := 0) (s := s.unitLost p 0) q.msg
  have hrest := (Aftermath.returnMessages hp (hfirst.lost hlost) rest).owes p
  rw [unitAbsent_eq, messagesReturned, hq]
  exact hrest

theorem screenReturned_clear {p : Nat} (hp : 1 ≤ p ∧ p ≤ 24) : ((s.screenReturned p .clear).screen p).clearPending = true := by
  show ((s.setScreen p { s.screen p with clearPending := true }).screen p).clearPending = true
  rw [screen_setScreen, if_pos ⟨rfl, hp⟩]

theorem screenReturned_row {p r : Nat} {cells : List Cell} (hp : 1 ≤ p ∧ p ≤ 24) (h1 : 1 ≤ r) (h24 : r ≤ 24) :
    r ∈ ((s.screenReturned p (.row r cells)).screen p).dirty ∧ r ∉ ((s.screenReturned p (.row r cells)).screen p).blankKnown := by
  unfold screenReturned
  rw [screen_onScreen_same s hp]
  constructor
  · exact List.mem_filter.mpr ⟨List.mem_range'_1.mpr ⟨h1, by omega⟩, by simp⟩
  · exact fun hmem => by simpa using (List.mem_filter.mp hmem).2

/-! ### The message delivered (R35) -/

/-- The state in which the head has left its queue and the sequence has advanced (R35). -/
def headLeft (s : State) (x : Transfer) (rest : List Queued) : State :=
  s.setUnit x.pos x.unit { s.unit x.pos x.unit with queue := rest, outSeq := seqAfter (s.unit x.pos x.unit).outSeq }

theorem deliverHead_eq (hq : (s.unit x.pos x.unit).queue = q :: rest) :
    s.deliverHead x = ((s.headLeft x rest).tellDelivered x.pos x.unit q.msg).endTransfer := by
  unfold deliverHead
  rw [hq]
  rfl

theorem headLeft_unit (hp : 1 ≤ x.pos ∧ x.pos ≤ 24) (hu : x.unit ≤ 2) : (s.headLeft x rest).unit x.pos x.unit =
    { s.unit x.pos x.unit with queue := rest, outSeq := ((s.unit x.pos x.unit).outSeq + 1) % 256 } := by
  unfold headLeft
  rw [unit_setUnit, if_pos ⟨⟨rfl, hp⟩, rfl, by omega⟩]
  rfl

theorem headLeft_unit_other {r v : Nat} (h : (r, v) ≠ (x.pos, x.unit)) : (s.headLeft x rest).unit r v = s.unit r v := by
  unfold headLeft
  rw [unit_setUnit]
  exact if_neg fun hc => h (by rw [hc.1.1, hc.2.1])

/-- The delivery changes the line, the printers and the drawers alone. -/
theorem deliverHead_state (hq : (s.unit x.pos x.unit).queue = q :: rest) : s.deliverHead x = { s with
    line := (s.deliverHead x).line, printers := (s.deliverHead x).printers, drawers := (s.deliverHead x).drawers } := by
  have hmerge := (tellDelivered_within (s.headLeft x rest) x.pos x.unit q.msg).eq_merge
  rw [deliverHead_eq hq, endTransfer_eq]
  generalize (s.headLeft x rest).tellDelivered x.pos x.unit q.msg = t at hmerge ⊢
  rw [hmerge]
  rfl

theorem deliverHead_line (hq : (s.unit x.pos x.unit).queue = q :: rest) :
    (s.deliverHead x).line = { s.line.ended [.unselect] with recs := (s.headLeft x rest).line.recs } := by
  have hline := tellDelivered_within (s.headLeft x rest) x.pos x.unit q.msg .line (by decide)
  rw [deliverHead_eq hq, endTransfer_eq]
  generalize (s.headLeft x rest).tellDelivered x.pos x.unit q.msg = t at hline ⊢
  show t.line.ended [.unselect] = _
  rw [hline]
  rfl

theorem deliverHead_unit (hq : (s.unit x.pos x.unit).queue = q :: rest) (r v : Nat) :
    (s.deliverHead x).unit r v = (s.headLeft x rest).unit r v := unit_congr (by rw [deliverHead_line hq]) r v

end Sys2Proof.Machine.State

namespace Sys2Proof.Proofs

open Sys2Proof.Machine Sys2Proof.Machine.State

/-- Settles O50: the three replies of the message's own, the expiry, and any other reply. -/
theorem outboundTransferReplies : Obligations.OutboundTransferReplies := by
  unfold Obligations.OutboundTransferReplies
  intro s x q rest he hd h1 h24 hu hq p u n ends
  have hp : 1 ≤ x.pos ∧ x.pos ≤ 24 := ⟨h1, h24⟩
  have hreply : ∀ k, s.receive (.reply k p u n) = s.replied x k := fun k =>
    (receive_outbound he hd (by nofun)).trans (receiveReply_own k)
  refine ⟨congrArg Host.Outcome.next (hreply .busy), ⟨s.deliverHead x, congrArg Host.Outcome.next (hreply .accept),
    ⟨by rw [deliverHead_line hq], fun r v hne => ?_⟩, ?_, deliverHead_state hq, fun hone hline => ?_, fun htwo hserving => ?_⟩,
    fun c hc => ⟨fun hmade => ?_, fun hmade => ?_⟩, fun a v m hother c hc => ?_⟩
  · rw [deliverHead_unit hq, headLeft_unit_other hne]
  · rw [deliverHead_unit hq, headLeft_unit hp hu]
  · obtain ⟨page, line, chars, hmsg⟩ := hline
    have hunit : x.unit = 1 := hone
    rw [deliverHead_eq hq, hunit, hmsg]
    exact printer_setPrinter_same (s := s.headLeft x rest) hp _
  · have hunit : x.unit = 2 := htwo
    rw [deliverHead_eq hq, hunit]
    show ((State.releaseDelivered (s.headLeft x rest) x.pos).drawer x.pos) = _
    unfold releaseDelivered
    rw [if_pos (show (s.headLeft x rest).tables.serving x.pos = true from hserving), drawer_setDrawer,
      if_pos ⟨rfl, Nat.lt_succ_of_le h24⟩]
    rfl
  · have hfails : exec c s = .next (s.failOutbound x) := by
      obtain rfl | ⟨rfl, hwait⟩ := hc
      · exact congrArg Host.Outcome.next (hreply .reject)
      · exact congrArg Host.Outcome.next (replyWaitExpires_outbound he hwait)
    rw [hfails, failOutbound_of_retries hmade hq]
  · have hfails : exec c s = .next (s.failOutbound x) := by
      obtain rfl | ⟨rfl, hwait⟩ := hc
      · exact congrArg Host.Outcome.next (hreply .reject)
      · exact congrArg Host.Outcome.next (replyWaitExpires_outbound he hwait)
    rw [hfails, failOutbound_of_none hmade]
    refine ⟨s.loseUnit x, rfl, ⟨loseUnit_line, fun r v hne => loseUnit_unit_other hp hu hne⟩, loseUnit_unit hp hu, fun hzero =>
      ⟨loseUnit_screen hzero, ?_⟩⟩
    have hunit : x.unit = 0 := hzero
    rw [hunit] at hq
    have howes := unitAbsent_owes_head hp hq
    have hscreen : (s.loseUnit x).screen p = (s.unitAbsent x.pos 0).screen x.pos := by
      unfold loseUnit
      rw [hunit]
      rfl
    rw [hscreen]
    refine ⟨fun hclear => ?_, fun r cells hrow hr1 hr24 => ?_⟩
    · rw [hclear] at howes
      exact howes.clear (screenReturned_clear hp)
    · rw [hrow] at howes
      obtain ⟨hdirty, hblank⟩ := screenReturned_row (s := s.unitLost x.pos 0) (cells := cells) hp hr1 hr24
      exact ⟨howes.dirty r hr1 hr24 hdirty, howes.unknown r hblank⟩
  · have hcounted : ∀ k, s.receive (.reply k a v m) = s.lineFrameCounted := fun k =>
      (receive_outbound he hd (by nofun)).trans (receiveReply_other k hother)
    obtain rfl | rfl | rfl := hc
    · exact congrArg Host.Outcome.next (hcounted .accept)
    · exact congrArg Host.Outcome.next (hcounted .reject)
    · exact congrArg Host.Outcome.next (hcounted .busy)

end Sys2Proof.Proofs
end

