-- ==== Sys2Proof/Proofs/RollCall.lean ====
section
/-! Roll call (R28 to R33): the turn of each unit in the slot of its position, answered or missed. -/

set_option Elab.async false

namespace Sys2Proof.Machine

/-- Position records agree where their missed counts and their units do. -/
theorem PosRec.ext_units {x y : PosRec} (hm : x.missed = y.missed)
    (hu : ∀ u, rd x.units u UnitRec.start = rd y.units u UnitRec.start) : x = y := by
  obtain ⟨m, v⟩ := x
  obtain ⟨n, w⟩ := y
  have hunits : v = w := Vector.ext fun i hi => by
    have hread := hu i
    simpa [rd, hi] using hread
  exact congr (congrArg PosRec.mk hm) hunits

/-- What the turn of unit u of position p in its slot leaves: no other unit's record changes, no missed count, no release
flag, no table; the screens' refresh stays owed, and but for a printer's turn the printers stay as they are. -/
structure Turn (p u : Nat) (s t : State) : Prop where
  units : ∀ q v, ¬ (q = p ∧ v = u) → t.unit q v = s.unit q v
  missed : ∀ q, (t.posRec q).missed = (s.posRec q).missed
  owes : ∀ q, (s.screen q).Owes (t.screen q)
  pending : ∀ d, (t.drawer d).releasePending = (s.drawer d).releasePending
  tables : t.tables = s.tables
  printers : u ≠ 1 → t.printers = s.printers

namespace Turn

open State

variable {p u : Nat} {s t v : State}

theorem refl (p u : Nat) (s : State) : Turn p u s s :=
  ⟨fun _ _ _ => rfl, fun _ => rfl, fun _ => .refl _, fun _ => rfl, rfl, fun _ => rfl⟩

theorem trans (h : Turn p u s t) (g : Turn p u t v) : Turn p u s v :=
  ⟨fun q w hq => (g.units q w hq).trans (h.units q w hq), fun q => (g.missed q).trans (h.missed q),
    fun q => (h.owes q).trans (g.owes q), fun d => (g.pending d).trans (h.pending d), g.tables.trans h.tables,
    fun hu => (g.printers hu).trans (h.printers hu)⟩

/-- Only the unit's own record changes. -/
theorem setUnit (x : UnitRec) : Turn p u s (s.setUnit p u x) := by
  refine ⟨fun q w hq => ?_, fun q => ?_, fun _ => .refl _, fun _ => rfl, rfl, fun _ => rfl⟩
  · rw [unit_setUnit]
    exact if_neg fun hc => hq ⟨hc.1.1.symm, hc.2.1.symm⟩
  · unfold State.setUnit
    rw [posRec_setPosRec]
    split
    · next h => rw [h.1]
    · rfl

/-- An offer to the unit itself. -/
theorem offer (m : OutMsg) (c : LineClass) : Turn p u s (s.offer p u m c) := by
  unfold State.offer
  split
  · exact setUnit _
  · exact refl p u s

/-! ### A unit lost -/

theorem tellAbsent_pending (p u d : Nat) : ((s.tellAbsent p u).drawer d).releasePending = (s.drawer d).releasePending := by
  unfold tellAbsent
  split
  · rfl
  · rw [drawer_congr (printerAbsent_within s p .drawers (by decide))]
  · unfold drawerUnitAbsent drawerUnknown
    split
    · rw [drawer_setDrawer]
      split
      · next h => rw [← h.1]
      · rfl
    · rfl

theorem returnMessage_printers (hu : u ≠ 1) (m : OutMsg) : (s.returnMessage p u m).printers = s.printers := by
  unfold returnMessage
  split
  · exact screenReturned_within s p m .printers (by decide)
  · exact absurd rfl hu
  · exact showNotReleased_within s _ .printers (by decide)

theorem tellAbsent_printers (hu : u ≠ 1) : (s.tellAbsent p u).printers = s.printers := by
  unfold tellAbsent
  split
  · rfl
  · exact absurd rfl hu
  · unfold drawerUnitAbsent
    split <;> rfl

theorem unitAbsent (hp : 1 ≤ p ∧ p ≤ 24) (hu : u ≤ 2) : Turn p u s (s.unitAbsent p u) := by
  have hdrawers : (s.messagesReturned p u).drawers = s.drawers :=
    (Within.fold _ (fun t (q : Queued) => returnMessage_within t p u q.msg) _ (s.unitLost p u)) .drawers (by decide)
  refine ⟨fun q w hq => unitAbsent_unit_other hp hu fun hc => hq (Prod.mk.inj hc), unitAbsent_missed hp hu, unitAbsent_owes hp hu,
    fun d => ?_, unitAbsent_within s p u .tables (by decide), fun hone => ?_⟩
  · rw [unitAbsent_eq, tellAbsent_pending, drawer_congr hdrawers]
  · have hprinters : ∀ (l : List Queued) (t : State), (l.foldl (fun t q => t.returnMessage p u q.msg) t).printers = t.printers := by
      intro l
      induction l with
      | nil => exact fun _ => rfl
      | cons q l ih => exact fun t => (ih _).trans (returnMessage_printers hone q.msg)
    rw [unitAbsent_eq, tellAbsent_printers hone, messagesReturned, hprinters]
    rfl

/-! ### A unit that returns -/

theorem onScreen {f : Tables → Screen → Screen} {q : Nat} (hf : (s.screen q).Owes (f s.tables (s.screen q))) :
    Turn p u s (s.onScreen q f) := by
  refine ⟨fun _ _ _ => rfl, fun _ => rfl, fun r => ?_, fun _ => rfl, rfl, fun _ => rfl⟩
  unfold State.onScreen
  rw [screen_setScreen]
  split
  · next h => rw [← h.1]; exact hf
  · exact .refl _

theorem refresh_owes (t : Tables) (x : Screen) : x.Owes (x.refresh t) := by
  have hwhole : x.Owes x.allDirty := ⟨fun r h1 h24 _ => List.mem_range'_1.mpr ⟨h1, by omega⟩, fun _ => rfl, fun _ => rfl, fun _ => id⟩
  exact hwhole.trans (.settle t)

theorem of_printer {may : List Aspect} (hw : Within may s t) (ho : OnlyPrinter p s t) (howes : ∀ q, (s.screen q).Owes (t.screen q))
    (hd : Aspect.drawers ∉ may := by decide) (ht : Aspect.tables ∉ may := by decide) : Turn p 1 s t :=
  ⟨ho.units, ho.missed, howes, fun d => by rw [drawer_congr (hw .drawers hd)], hw .tables ht, fun h => absurd rfl h⟩

theorem printerReturned : Turn p 1 s (s.printerReturned p) := by
  have hstate := (Aftermath.setPrinterState (p := p) (u := 1) (s := s) .noBook).owes
  refine .of_printer (printerReturned_within s p) (s.printerReturned_only p) fun q => ?_
  have hscreens : (s.printerReturned p).screens = (s.setPrinterState p .noBook).screens :=
    offerPrinter_within _ p .statusRequest .screens (by decide)
  rw [screen_congr hscreens]
  exact hstate q

theorem drawerUnitReturned : Turn p 2 s (s.drawerUnitReturned p) := by
  unfold State.drawerUnitReturned offerRelease
  split
  · split
    · exact refl p 2 s
    · exact offer _ _
  · exact refl p 2 s

theorem unitReturns (hu : u ≤ 2) (b : Bool) : Turn p u s (s.unitReturns p u b) := by
  have hset : Turn p u s (s.setUnit p u { presence := .present, attention := b, queue := [], outSeq := 0, lastIn := none }) :=
    setUnit _
  obtain rfl | rfl | rfl : u = 0 ∨ u = 1 ∨ u = 2 := by omega
  · exact hset.trans (onScreen (refresh_owes _ _))
  · exact hset.trans printerReturned
  · exact hset.trans drawerUnitReturned

theorem unitAnswered (hp : 1 ≤ p ∧ p ≤ 24) (hu : u ≤ 2) (r a : Bool) : Turn p u s (s.unitAnswered p u r a) := by
  unfold State.unitAnswered
  split
  · exact setUnit _
  · exact unitAbsent hp hu
  · exact unitReturns hu a
  · exact setUnit _

theorem unitMissed (hp : 1 ≤ p ∧ p ≤ 24) (hu : u ≤ 2) : Turn p u s (s.unitMissed p u) := by
  unfold State.unitMissed
  split
  · exact unitAbsent hp hu
  · exact setUnit _

end Turn

/-- The turn of unit u within the slot's run from s to t: before it, b has left the unit alone; after it, its outcome stands. -/
structure TurnTaken (p u : Nat) (f : State → Nat → State) (s t b : State) : Prop where
  before : b.unit p u = s.unit p u
  pending : (b.drawer p).releasePending = (s.drawer p).releasePending
  tables : b.tables = s.tables
  unit : t.unit p u = (f b u).unit p u
  owes : ((f b u).screen p).Owes (t.screen p)
  printers : u ≠ 0 → t.printers = (f b u).printers

namespace State

variable {s : State} {p : Nat} {f : State → Nat → State}

/-- Every unit of the position has its turn. -/
theorem turns_taken (h : ∀ t u, u ≤ 2 → Turn p u t (f t u)) {u : Nat} (hu : u ≤ 2) :
    ∃ b, TurnTaken p u f s (allUnits.foldl f s) b := by
  have h0 := h s 0 (by decide)
  have h1 := h (f s 0) 1 (by decide)
  have h2 := h (f (f s 0) 1) 2 (by decide)
  show ∃ b, TurnTaken p u f s (f (f (f s 0) 1) 2) b
  rcases (by omega : u = 0 ∨ u = 1 ∨ u = 2) with rfl | rfl | rfl
  · exact ⟨s, rfl, rfl, rfl, (h2.units p 0 (by simp)).trans (h1.units p 0 (by simp)), (h1.owes p).trans (h2.owes p),
      fun hn => absurd rfl hn⟩
  · exact ⟨f s 0, h0.units p 1 (by simp), h0.pending p, h0.tables, h2.units p 1 (by simp), h2.owes p,
      fun _ => h2.printers (by decide)⟩
  · exact ⟨f (f s 0) 1, (h1.units p 2 (by simp)).trans (h0.units p 2 (by simp)), (h1.pending p).trans (h0.pending p),
      h1.tables.trans h0.tables, rfl, .refl _, fun _ => rfl⟩

/-- The other positions' records and the position's own missed count stay. -/
theorem turns_posRec (h : ∀ t u, u ≤ 2 → Turn p u t (f t u)) :
    (∀ q, q ≠ p → (allUnits.foldl f s).posRec q = s.posRec q) ∧
      ((allUnits.foldl f s).posRec p).missed = (s.posRec p).missed := by
  have h0 := h s 0 (by decide)
  have h1 := h (f s 0) 1 (by decide)
  have h2 := h (f (f s 0) 1) 2 (by decide)
  have hmissed : ∀ q, ((f (f (f s 0) 1) 2).posRec q).missed = (s.posRec q).missed := fun q =>
    (h2.missed q).trans ((h1.missed q).trans (h0.missed q))
  refine ⟨fun q hq => PosRec.ext_units (hmissed q) fun u => ?_, hmissed p⟩
  have hne : ∀ v, ¬ (q = p ∧ u = v) := fun _ hc => hq hc.1
  exact (h2.units q u (hne 2)).trans ((h1.units q u (hne 1)).trans (h0.units q u (hne 0)))

end State

end Sys2Proof.Machine
end

