-- ==== Sys2Proof/Proofs/RollCallSlots.lean ====
section
/-! A slot of the roll call closes as answered or as missed, and the next one opens (R28 to R33). -/

set_option Elab.async false

namespace Sys2Proof.Machine.State

variable {s t : State} {p u : Nat} {rest : List Nat}

/-! ### The next slot (R29) -/

theorem openSlot_line : (t.openSlot rest).line = { t.line with
    engine := if rest = [] then .idle else .rollCall rest
    replyWait := if rest = [] then none else some t.tables.params.unitReply
    rollTimer := if rest = [] then some t.tables.params.rollCall else t.line.rollTimer } := by
  cases rest <;> rfl

theorem openSlot_eq : t.openSlot rest = { t with line := (t.openSlot rest).line } := by
  cases rest <;> rfl

theorem openSlot_recs : (t.openSlot rest).line.recs = t.line.recs := by rw [openSlot_line]

theorem openSlot_unit (q v : Nat) : (t.openSlot rest).unit q v = t.unit q v := unit_congr openSlot_recs q v

theorem openSlot_posRec (q : Nat) : (t.openSlot rest).posRec q = t.posRec q := by unfold posRec; rw [openSlot_recs]

/-- A slot that has changed position records alone closes. -/
theorem closed_line (hl : t.line = { s.line with recs := t.line.recs }) (ht : t.tables = s.tables) :
    (t.openSlot rest).line = { s.line with
      recs := (t.openSlot rest).line.recs
      engine := if rest = [] then .idle else .rollCall rest
      replyWait := if rest = [] then none else some s.tables.params.unitReply
      rollTimer := if rest = [] then some s.tables.params.rollCall else s.line.rollTimer } := by
  rw [openSlot_recs, openSlot_line, ht]
  have hroll : t.line.rollTimer = s.line.rollTimer := by rw [hl]
  rw [hroll]
  generalize t.line.recs = r at hl
  rw [hl]

/-! ### The outcome of a turn (R30, R33) -/

theorem unitAnswered_outcome (hp : 1 ≤ p ∧ p ≤ 24) (hu : u ≤ 2) (r a : Bool) :
    ((s.unit p u).presence = .present ∧ r = true ∧
      (s.unitAnswered p u r a).unit p u = { s.unit p u with attention := a }) ∨
    ((s.unit p u).presence = .present ∧ r = false ∧ (s.unitAnswered p u r a).unit p u = .lost) ∨
    ((s.unit p u).presence ≠ .present ∧ r = true ∧ s.unitAnswered p u r a = s.unitReturns p u a) ∨
    ((s.unit p u).presence ≠ .present ∧ r = false ∧
      (s.unitAnswered p u r a).unit p u = { s.unit p u with presence := .absent, attention := false }) := by
  have hset : ∀ x, (s.setUnit p u x).unit p u = x := fun x => by
    rw [unit_setUnit, if_pos ⟨⟨rfl, hp⟩, rfl, by omega⟩]
  unfold unitAnswered
  cases hpres : (s.unit p u).presence <;> cases r
  · exact .inr (.inr (.inr ⟨by decide, rfl, hset _⟩))
  · exact .inr (.inr (.inl ⟨by decide, rfl, rfl⟩))
  · exact .inr (.inl ⟨rfl, rfl, unitAbsent_unit hp hu⟩)
  · exact .inl ⟨rfl, rfl, hset _⟩
  · exact .inr (.inr (.inr ⟨by decide, rfl, hset _⟩))
  · exact .inr (.inr (.inl ⟨by decide, rfl, rfl⟩))

/-- The messages that the owner offers to its unit at the unit's return (R33). -/
def returnQueue (u : Nat) (pending : Bool) : List Queued :=
  match u with
  | 0 => []
  | 1 => [{ msg := .statusRequest, cls := .print }]
  | _ => if pending then [{ msg := .release, cls := .urgent }] else []

theorem unitReturns_unit (hp : 1 ≤ p ∧ p ≤ 24) (hu : u ≤ 2) (b : Bool) (hserving : u = 2 → s.tables.serving p = true) :
    (s.unitReturns p u b).unit p u = { presence := .present, attention := b, outSeq := 0, lastIn := none
                                       queue := returnQueue u (s.drawer p).releasePending } := by
  have hset : ∀ x, (s.setUnit p u x).unit p u = x := fun x => by
    rw [unit_setUnit, if_pos ⟨⟨rfl, hp⟩, rfl, by omega⟩]
  unfold unitReturns
  have hthis := hset { presence := .present, attention := b, queue := [], outSeq := 0, lastIn := none }
  obtain rfl | rfl | rfl : u = 0 ∨ u = 1 ∨ u = 2 := by omega
  · exact hthis
  · generalize hv : s.setUnit p 1 { presence := .present, attention := b, queue := [], outSeq := 0, lastIn := none } = v at hthis
    show ((v.setPrinterState p .noBook).offerPrinter p .statusRequest).unit p 1 = _
    have hunit : (v.setPrinterState p .noBook).unit p 1 = v.unit p 1 :=
      unit_congr (congrArg Line.recs (setPrinterState_within v p .noBook .line (by decide))) p 1
    rw [offerPrinter_unit hp, hunit, offerAnswer_congr hunit,
      if_pos (offerAnswer_taken_iff.mpr (by rw [hthis]; exact ⟨rfl, Nat.zero_lt_succ 3⟩)), hthis]
    rfl
  · generalize hv : s.setUnit p 2 { presence := .present, attention := b, queue := [], outSeq := 0, lastIn := none } = v at hthis
    have hsame : v.tables = s.tables ∧ v.drawer p = s.drawer p := by
      rw [← hv]
      exact ⟨rfl, rfl⟩
    show (v.drawerUnitReturned p).unit p 2 = _
    unfold drawerUnitReturned
    rw [hsame.1, hsame.2, hserving rfl, Bool.true_and]
    cases (s.drawer p).releasePending with
    | false => exact hthis
    | true =>
      rw [if_pos rfl, offerRelease_unit hp, hthis]
      exact if_pos ⟨rfl, Nat.zero_lt_succ 3, by rintro ⟨q, hq, -⟩; cases hq⟩

theorem unitReturns_screen (hp : 1 ≤ p ∧ p ≤ 24) (b : Bool) : ((s.unitReturns p 0 b).screen p).dirty = allRows ∧
    ((s.unitReturns p 0 b).screen p).clearPending = true := by
  show (((s.setUnit p 0 _).onScreen p (fun t sc => sc.refresh t)).screen p).dirty = _ ∧
    (((s.setUnit p 0 _).onScreen p (fun t sc => sc.refresh t)).screen p).clearPending = _
  rw [screen_onScreen_same _ hp]
  unfold Screen.refresh Screen.settle
  split <;> exact ⟨rfl, rfl⟩

theorem unitReturns_printer (hp : 1 ≤ p ∧ p ≤ 24) (b : Bool) : ((s.unitReturns p 1 b).printer p).state = .noBook := by
  show ((((s.setUnit p 1 _).setPrinterState p .noBook).offerPrinter p .statusRequest).printer p).state = _
  rw [offerPrinter_printer hp, setPrinterState_printer hp]

/-! ### The slot answered (R30) -/

/-- The slot's run of turns, the missed count back at 0. -/
theorem slotAnswered_eq (p presence attention : Nat) : s.slotAnswered p presence attention =
    allUnits.foldl (fun t u => t.unitAnswered p u (presence.testBit u && (s.tables.installed p).contains u)
      (attention.testBit u)) (s.setPosRec p { s.posRec p with missed := 0 }) := rfl

theorem setPosRec_unit {q v n : Nat} : (s.setPosRec p { s.posRec p with missed := n }).unit q v = s.unit q v := by
  unfold unit
  rw [posRec_setPosRec]
  split
  · next h => rw [← h.1]
  · rfl

/-! ### The slot missed (R31) -/

/-- The position's record once a slot is missed: the missed count up, the attention flags clear (R31). -/
def missedRec (s : State) (p : Nat) : State :=
  allUnits.foldl (fun t u => t.setUnit p u { t.unit p u with attention := false })
    (s.setPosRec p { s.posRec p with missed := min 3 ((s.posRec p).missed + 1) })

/-- The state once the units of a position missed for the third time have had their turns (R31). -/
def thirdMiss (s : State) (p : Nat) : State := allUnits.foldl (fun t u => t.unitMissed p u) (s.missedRec p)

/-- Some unit of the position is PRESENT. -/
def holdsUnit (s : State) (p : Nat) : Bool := allUnits.any (fun u => (s.unit p u).presence == .present)

theorem holdsUnit_iff : s.holdsUnit p = true ↔ ∃ u, u ≤ 2 ∧ (s.unit p u).presence = .present := by
  unfold holdsUnit
  simp only [List.any_eq_true, allUnits, List.mem_cons, List.not_mem_nil, or_false, beq_iff_eq]
  exact exists_congr fun u => and_congr_left fun _ => by omega

theorem slotMissed_eq (p : Nat) : s.slotMissed p =
    if (s.posRec p).missed = 2 then
      if s.holdsUnit p then (s.thirdMiss p).countUnitLost.alarm .unitLost p else s.thirdMiss p
    else s.missedRec p := rfl

theorem attention_turn (t : State) (u : Nat) : Turn p u t (t.setUnit p u { t.unit p u with attention := false }) := .setUnit _

theorem missedRec_unit (hp : 1 ≤ p ∧ p ≤ 24) (hu : u ≤ 2) :
    (s.missedRec p).unit p u = { s.unit p u with attention := false } := by
  obtain ⟨b, hb⟩ := turns_taken (s := s.setPosRec p { s.posRec p with missed := min 3 ((s.posRec p).missed + 1) })
    (fun t u _ => attention_turn (p := p) t u) hu
  rw [missedRec, hb.unit, unit_setUnit, if_pos ⟨⟨rfl, hp⟩, rfl, by omega⟩, hb.before, setPosRec_unit]

theorem missedRec_posRec_other {q : Nat} (hq : q ≠ p) : (s.missedRec p).posRec q = s.posRec q := by
  rw [missedRec, (turns_posRec fun t u _ => attention_turn (p := p) t u).1 q hq, posRec_setPosRec]
  exact if_neg fun hc => hq hc.1.symm

theorem missedRec_missed (hp : 1 ≤ p ∧ p ≤ 24) : ((s.missedRec p).posRec p).missed = min 3 ((s.posRec p).missed + 1) := by
  rw [missedRec, (turns_posRec fun t u _ => attention_turn (p := p) t u).2, posRec_setPosRec, if_pos ⟨rfl, hp⟩]

theorem missedRec_eq (p : Nat) : s.missedRec p = { s with line := (s.missedRec p).line } := rfl

theorem missedRec_line (p : Nat) : (s.missedRec p).line = { s.line with recs := (s.missedRec p).line.recs } := rfl

theorem unitMissed_absent (hp : 1 ≤ p ∧ p ≤ 24) (hu : u ≤ 2) (h : (s.unit p u).attention = false) :
    ((s.unitMissed p u).unit p u).presence = .absent ∧ ((s.unitMissed p u).unit p u).attention = false ∧
      ((s.unit p u).presence = .present → (s.unitMissed p u).unit p u = .lost) := by
  unfold unitMissed
  cases hpres : (s.unit p u).presence with
  | present =>
    rw [unitAbsent_unit hp hu]
    exact ⟨rfl, rfl, fun _ => rfl⟩
  | absent =>
    dsimp only
    rw [unit_setUnit, if_pos ⟨⟨rfl, hp⟩, rfl, by omega⟩]
    exact ⟨rfl, h, nofun⟩
  | unknown =>
    dsimp only
    rw [unit_setUnit, if_pos ⟨⟨rfl, hp⟩, rfl, by omega⟩]
    exact ⟨rfl, h, nofun⟩

/-- The slot's missed outcome (R31) for a unit after the whole slot, of a position missed for the third time. -/
theorem thirdMiss_unit (hp : 1 ≤ p ∧ p ≤ 24) (hu : u ≤ 2) :
    ((s.thirdMiss p).unit p u).presence = .absent ∧ ((s.thirdMiss p).unit p u).attention = false ∧
      ((s.unit p u).presence = .present → (s.thirdMiss p).unit p u = .lost) := by
  obtain ⟨b, hb⟩ := turns_taken (s := s.missedRec p) (fun t u hu => Turn.unitMissed (s := t) hp hu) hu
  have hbefore := hb.before.trans (missedRec_unit hp hu)
  obtain ⟨habsent, hattention, hlost⟩ := unitMissed_absent hp hu (s := b) (by rw [hbefore])
  rw [thirdMiss, hb.unit]
  exact ⟨habsent, hattention, fun hpresent => hlost (by rw [hbefore]; exact hpresent)⟩

/-- Where no unit is present a third miss changes the position's record alone. -/
theorem thirdMiss_of_none (hp : 1 ≤ p ∧ p ≤ 24) (h : ∀ u, u ≤ 2 → (s.unit p u).presence ≠ .present) :
    s.thirdMiss p = { s with line := (s.thirdMiss p).line } := by
  have hturn : ∀ (t : State) (u : Nat), (t.unit p u).presence ≠ .present → Within [.line] t (t.unitMissed p u) := by
    intro t u hne
    unfold unitMissed
    split
    · next hpresent => exact absurd hpresent hne
    · exact setUnit_bounded t id
  have hrun : ∀ (l : List Nat) (t : State), (∀ u, u ∈ l → u ≤ 2 ∧ (t.unit p u).presence ≠ .present) → l.Nodup →
      Within [.line] t (l.foldl (fun t u => t.unitMissed p u) t) := by
    intro l
    induction l with
    | nil => exact fun t _ _ => .refl _ t
    | cons u l ih =>
      intro t hall hnodup
      obtain ⟨hunew, hnodup⟩ := List.nodup_cons.mp hnodup
      have hrest := ih (t.unitMissed p u) (fun v hv => by
        obtain ⟨hv2, hne⟩ := hall v (List.mem_cons_of_mem _ hv)
        refine ⟨hv2, ?_⟩
        rw [(Turn.unitMissed hp (hall u (by simp)).1).units p v fun hc => hunew (hc.2 ▸ hv)]
        exact hne) hnodup
      exact hrest.after (hturn t u (hall u (by simp)).2)
  have hunits : ∀ u, u ∈ allUnits → u ≤ 2 ∧ ((s.missedRec p).unit p u).presence ≠ .present := fun u hu => by
    have hu2 : u ≤ 2 := by
      simp only [allUnits, List.mem_cons, List.not_mem_nil, or_false] at hu
      omega
    refine ⟨hu2, ?_⟩
    rw [missedRec_unit hp hu2]
    exact h u hu2
  have hwithin : Within [.line] (s.missedRec p) (s.thirdMiss p) := hrun allUnits (s.missedRec p) hunits (by decide)
  have hmerge := hwithin.eq_merge
  rw [missedRec_eq] at hmerge
  exact hmerge

theorem thirdMiss_within (p : Nat) : Within [.line, .printers, .screens, .store, .drawers] s (s.thirdMiss p) := by
  have hrec : Within [.line, .printers, .screens, .store, .drawers] s (s.missedRec p) :=
    Within.after (k := [.line]) (Within.fold _ (fun t u => setUnit_bounded t (p := p) (u := u)
      (x := { t.unit p u with attention := false }) id) _ _) ((setPosRec_missed s p _).mono)
  exact (Within.fold _ (fun t u => unitMissed_within t p u) _ _).after hrec

theorem thirdMiss_missed (hp : 1 ≤ p ∧ p ≤ 24) : ((s.thirdMiss p).posRec p).missed = min 3 ((s.posRec p).missed + 1) := by
  rw [thirdMiss, (turns_posRec fun t u hu => Turn.unitMissed (s := t) hp hu).2, missedRec_missed hp]

theorem unitLostAlarm_line (t : State) : (t.countUnitLost.alarm .unitLost p).line = t.line :=
  alarm_within t.countUnitLost _ p .line (by decide)

/-! ### The slot and its outcomes (R30) -/

/-- The unit is reported in the presence mask, and installed (R30). -/
def reports (s : State) (p presence u : Nat) : Bool := presence.testBit u && decide (u ∈ s.tables.installed p)

theorem slotAnswered_turn (hp : 1 ≤ p ∧ p ≤ 24) (hu : u ≤ 2) (m n : Nat) : ∃ b,
    TurnTaken p u (fun t v => t.unitAnswered p v (s.reports p m v) (n.testBit v)) (s.setPosRec p { s.posRec p with missed := 0 })
      (s.slotAnswered p m n) b := by
  rw [slotAnswered_eq]
  simp only [List.contains_eq_mem]
  exact turns_taken (fun t u hu => Turn.unitAnswered (s := t) hp hu _ _) hu

theorem slotAnswered_posRec (hp : 1 ≤ p ∧ p ≤ 24) (m n : Nat) : (∀ q, q ≠ p → (s.slotAnswered p m n).posRec q = s.posRec q) ∧
    ((s.slotAnswered p m n).posRec p).missed = 0 := by
  rw [slotAnswered_eq]
  obtain ⟨hother, hown⟩ := turns_posRec (s := s.setPosRec p { s.posRec p with missed := 0 })
    (fun t u hu => Turn.unitAnswered (s := t) hp hu (m.testBit u && (s.tables.installed p).contains u) (n.testBit u))
  refine ⟨fun q hq => (hother q hq).trans ?_, hown.trans ?_⟩
  · rw [posRec_setPosRec]
    exact if_neg fun hc => hq hc.1.symm
  · rw [posRec_setPosRec, if_pos ⟨rfl, hp⟩]

/-- A unit whose slot is answered is there where it is reported, its attention taken over (R30). -/
theorem slotAnswered_presence (hp : 1 ≤ p ∧ p ≤ 24) (hu : u ≤ 2) (m n : Nat) :
    ((s.slotAnswered p m n).unit p u).presence = (if s.reports p m u then .present else .absent) ∧
      ((s.slotAnswered p m n).unit p u).attention = (s.reports p m u && n.testBit u) := by
  obtain ⟨b, hb⟩ := slotAnswered_turn (s := s) hp hu m n
  rw [hb.unit]
  rcases unitAnswered_outcome (s := b) hp hu (s.reports p m u) (n.testBit u) with
    ⟨hpresent, hr, h⟩ | ⟨-, hr, h⟩ | ⟨-, hr, h⟩ | ⟨-, hr, h⟩
  · rw [h, hr]
    exact ⟨hpresent, rfl⟩
  · rw [h, hr]
    exact ⟨rfl, rfl⟩
  · have hserving : u = 2 → b.tables.serving p = true := by
      rintro rfl
      have hinstalled : 2 ∈ s.tables.installed p := of_decide_eq_true (Bool.and_eq_true_iff.mp hr).2
      rw [hb.tables]
      show (p != 0 && (s.tables.installed p).contains 2) = true
      simp [hinstalled, show p ≠ 0 by omega]
    rw [h, unitReturns_unit hp hu _ hserving, hr]
    exact ⟨rfl, rfl⟩
  · rw [h, hr]
    exact ⟨rfl, rfl⟩

/-- A PRESENT unit that is not reported is lost (R30, R32). -/
theorem slotAnswered_lost (hp : 1 ≤ p ∧ p ≤ 24) (hu : u ≤ 2) (m n : Nat) (hpresent : (s.unit p u).presence = .present)
    (hr : s.reports p m u = false) : (s.slotAnswered p m n).unit p u = .lost := by
  obtain ⟨b, hb⟩ := slotAnswered_turn (s := s) hp hu m n
  have hbefore : b.unit p u = s.unit p u := hb.before.trans setPosRec_unit
  have houtcome := unitAnswered_outcome (s := b) hp hu (s.reports p m u) (n.testBit u)
  rw [hb.unit]
  rw [hbefore] at houtcome
  rcases houtcome with ⟨-, hc, -⟩ | ⟨-, -, h⟩ | ⟨hne, -, -⟩ | ⟨hne, -, -⟩
  · rw [hr] at hc
    cases hc
  · exact h
  · exact absurd hpresent hne
  · exact absurd hpresent hne

/-- A unit that was not PRESENT and is reported returns (R33): its record afresh, and what its owner does. -/
theorem slotAnswered_returns (hp : 1 ≤ p ∧ p ≤ 24) (hu : u ≤ 2) (m n : Nat) (hne : (s.unit p u).presence ≠ .present)
    (hr : s.reports p m u = true) :
    (s.slotAnswered p m n).unit p u = { presence := .present, attention := n.testBit u, outSeq := 0, lastIn := none
                                        queue := returnQueue u (s.drawer p).releasePending } ∧
    (u = 0 → ((s.slotAnswered p m n).screen p).dirty = allRows ∧ ((s.slotAnswered p m n).screen p).clearPending = true) ∧
    (u = 1 → ((s.slotAnswered p m n).printer p).state = .noBook) := by
  obtain ⟨b, hb⟩ := slotAnswered_turn (s := s) hp hu m n
  have hbefore : b.unit p u = s.unit p u := hb.before.trans setPosRec_unit
  have hreturns : b.unitAnswered p u (s.reports p m u) (n.testBit u) = b.unitReturns p u (n.testBit u) := by
    rw [hr]
    unfold unitAnswered
    rw [hbefore]
    split
    · next hpresent _ => exact absurd hpresent hne
    · next hpresent _ => exact absurd hpresent hne
    · rfl
    · next heq _ => cases heq
  have hserving : u = 2 → b.tables.serving p = true := by
    rintro rfl
    have hinstalled : 2 ∈ s.tables.installed p := of_decide_eq_true (Bool.and_eq_true_iff.mp hr).2
    rw [hb.tables]
    show (p != 0 && (s.tables.installed p).contains 2) = true
    simp [hinstalled, show p ≠ 0 by omega]
  have howes := hb.owes
  have hprinters := hb.printers
  rw [hreturns] at howes hprinters
  refine ⟨?_, ?_, ?_⟩
  · rw [hb.unit, hreturns, unitReturns_unit hp hu _ hserving, hb.pending]
    rfl
  · rintro rfl
    obtain ⟨hdirty, hclear⟩ := unitReturns_screen (s := b) hp (n.testBit 0)
    exact ⟨howes.whole hdirty, howes.clear hclear⟩
  · rintro rfl
    rw [printer_congr (hprinters (by decide)), unitReturns_printer hp]

end Sys2Proof.Machine.State

namespace Sys2Proof.Proofs

open Sys2Proof.Machine Sys2Proof.Machine.State

/-- An answer of the slot's own position, whole. -/
theorem slot_answered {s : State} {p : Nat} {rest : List Nat} (m n : Nat) :
    (s.slotAnswered p m n).openSlot rest = { s with
      line := ((s.slotAnswered p m n).openSlot rest).line
      screens := ((s.slotAnswered p m n).openSlot rest).screens
      printers := ((s.slotAnswered p m n).openSlot rest).printers
      drawers := ((s.slotAnswered p m n).openSlot rest).drawers
      store := ((s.slotAnswered p m n).openSlot rest).store } := by
  have hmerge := (slotAnswered_within s p m n).eq_merge
  rw [openSlot_eq]
  generalize (s.slotAnswered p m n).openSlot rest = x
  generalize s.slotAnswered p m n = t at hmerge ⊢
  rw [hmerge]
  rfl

/-- Settles O49: the timer, an answer of another position, the slot's own answer, and the slot missed. -/
theorem rollCallSlots : Obligations.RollCallSlots := by
  unfold Obligations.RollCallSlots
  intro s
  refine ⟨?_, fun p rest he hd h1 h24 => ?_⟩
  · show Host.Outcome.next s.rollTimerExpires = _
    unfold rollTimerExpires
    cases s.line.rollTimer <;> rfl
  have hp : 1 ≤ p ∧ p ≤ 24 := ⟨h1, h24⟩
  have hreceive : ∀ a m n, s.receive (.rollAnswer a m n) =
      if a = p then (s.slotAnswered a m n).openSlot rest else s.lineFrameCounted := fun a m n => by
    rw [receive_rollCall he hd, taking_of_form (by nofun)]
    show (if a = p then (s.slotAnswered p m n).openSlot rest else _) = _
    by_cases ha : a = p
    · rw [if_pos ha, if_pos ha, ha]
    · rw [if_neg ha, if_neg ha]
      rfl
  refine ⟨fun a m n ha => ?_, fun m n => ?_, fun hwait => ?_⟩
  · exact congrArg Host.Outcome.next ((hreceive a m n).trans (if_neg ha))
  · obtain ⟨hother, hmissed⟩ := slotAnswered_posRec (s := s) hp m n
    refine ⟨_, congrArg Host.Outcome.next ((hreceive p m n).trans (if_pos rfl)),
      closed_line (slotAnswered_within s p m n .lineRest (by decide)) (slotAnswered_within s p m n .tables (by decide)),
      ?_, slot_answered m n, fun q hq => ?_, fun u hu => ?_, fun u hu hpresent hr => ?_, fun u hu hne hr => ?_⟩
    · rw [openSlot_posRec, hmissed]
    · rw [openSlot_posRec, hother q hq]
    · rw [openSlot_unit]
      exact slotAnswered_presence hp hu m n
    · rw [openSlot_unit]
      exact slotAnswered_lost hp hu m n hpresent hr
    · obtain ⟨hunit, hscreen, hprinter⟩ := slotAnswered_returns hp hu m n hne hr
      rw [openSlot_unit, hunit, openSlot_eq]
      exact ⟨rfl, rfl, rfl, hscreen, hprinter⟩
  · have hexpires : s.replyWaitExpires = (s.slotMissed p).openSlot rest := by
      unfold replyWaitExpires
      rw [if_neg hwait, he]
    refine ⟨fun hm => ?_, fun hm => ?_⟩
    · have hslot : s.slotMissed p = s.missedRec p := by rw [slotMissed_eq, if_neg hm]
      rw [hslot] at hexpires
      refine ⟨_, congrArg Host.Outcome.next hexpires, closed_line (missedRec_line p) rfl, openSlot_eq, ?_,
        fun q hq => ?_, fun u hu => ?_⟩
      · rw [openSlot_posRec, missedRec_missed hp]
      · rw [openSlot_posRec, missedRec_posRec_other hq]
      · rw [openSlot_unit, missedRec_unit hp hu]
    · have hslot : s.slotMissed p =
          if s.holdsUnit p then (s.thirdMiss p).countUnitLost.alarm .unitLost p else s.thirdMiss p := by
        rw [slotMissed_eq, if_pos hm]
      have hline : (s.slotMissed p).line = (s.thirdMiss p).line := by
        rw [hslot]
        split
        · exact unitLostAlarm_line _
        · rfl
      have hunits : ∀ u, ((s.slotMissed p).openSlot rest).unit p u = (s.thirdMiss p).unit p u := fun u => by
        rw [openSlot_unit, unit_congr (congrArg Line.recs hline)]
      refine ⟨_, congrArg Host.Outcome.next hexpires,
        closed_line (slotMissed_within s p .lineRest (by decide)) (slotMissed_within s p .tables (by decide)),
        ?_, fun u hu => ?_, fun hnone => ?_, fun hsome hroom => ?_⟩
      · rw [openSlot_posRec, posRec, hline]
        exact (thirdMiss_missed hp).trans (by rw [hm]; rfl)
      · obtain ⟨habsent, hattention, hlost⟩ := thirdMiss_unit (s := s) hp hu
        rw [hunits]
        refine ⟨habsent, hattention, fun hpresent => ?_⟩
        rw [hlost hpresent]
        exact ⟨rfl, rfl, rfl⟩
      · have hholds : ¬ s.holdsUnit p = true := fun hc => by
          obtain ⟨u, hu, hpresent⟩ := holdsUnit_iff.mp hc
          exact hnone u hu hpresent
        have hquiet := thirdMiss_of_none hp hnone
        rw [hslot, if_neg hholds, openSlot_eq]
        generalize ((s.thirdMiss p).openSlot rest).line = x
        rw [hquiet]
      · have hwithin := thirdMiss_within (s := s) p
        have hport : (s.thirdMiss p).port = s.port := hwithin .port (by decide)
        have hcounters : (s.thirdMiss p).counters = s.counters := hwithin .counters (by decide)
        rw [hslot, if_pos (holdsUnit_iff.mpr hsome), openSlot_eq]
        generalize s.thirdMiss p = t at hport hcounters
        rw [alarm_of_room (show t.countUnitLost.port.queue.length < 64 by rw [← hport] at hroom; exact hroom)]
        exact ⟨by rw [← hcounters]; rfl, by unfold withFrame; rw [← hport]; rfl⟩

end Sys2Proof.Proofs
end

