-- ==== Sys2Proof/Proofs/GrantedRequester.lean ====
section
/-! Which requester the arbiter serves (R41, R42): the class by its priority, the unit by the round-robin sequence. -/

set_option Elab.async false

namespace Sys2Proof.Machine

/-- In a list in order, the search finds the member that no other found one comes before. -/
theorem find?_of_first {α : Type} {R : α → α → Prop} {P : α → Bool} {l : List α} {x : α} (hl : l.Pairwise R) (hx : x ∈ l)
    (hP : P x = true) (hfirst : ∀ y, y ∈ l → P y = true → ¬ R y x) : l.find? P = some x := by
  induction l with
  | nil => cases hx
  | cons y l ih =>
    obtain ⟨hy, hl⟩ := List.pairwise_cons.mp hl
    by_cases hPy : P y = true
    · rw [List.find?_cons_of_pos hPy]
      rcases List.mem_cons.mp hx with rfl | hmem
      · rfl
      · exact absurd (hy x hmem) (hfirst y (by simp) hPy)
    · rw [List.find?_cons_of_neg hPy]
      rcases List.mem_cons.mp hx with rfl | hmem
      · exact absurd hP hPy
      · exact ih hl hmem fun z hz => hfirst z (List.mem_cons_of_mem _ hz)

/-! ### The round-robin sequence (R42) -/

/-- The place of a requester in the sequence, from 0. -/
def robinIndex (x : Nat × Nat) : Nat := 3 * (x.1 - 1) + x.2

theorem robin_indices : robin.map robinIndex = List.range' 0 72 := by decide

theorem mem_robin {p u : Nat} : (p, u) ∈ robin ↔ (1 ≤ p ∧ p ≤ 24) ∧ u ≤ 2 := by
  unfold robin
  simp only [List.mem_flatMap, List.mem_map, allUnits, mem_allPositions, Prod.mk.injEq, List.mem_cons, List.not_mem_nil,
    or_false]
  constructor
  · rintro ⟨q, hq, v, hv, rfl, rfl⟩
    exact ⟨hq, by omega⟩
  · rintro ⟨hp, hu⟩
    exact ⟨p, hp, u, by omega, rfl, rfl⟩

/-- The sequence stands in the order of its places from the last-served requester on. -/
theorem robin_rotated {n : Nat} (hn : n ≤ 72) :
    (robin.drop n ++ robin.take n).Pairwise (fun a b => (robinIndex a + 72 - n) % 72 < (robinIndex b + 72 - n) % 72) := by
  have hdrop : (robin.drop n).map robinIndex = List.range' n (72 - n) := by
    rw [List.map_drop, robin_indices, List.drop_range']
    simp
  have htake : (robin.take n).map robinIndex = List.range' 0 n := by
    rw [List.map_take, robin_indices, ← List.range_eq_range', List.take_range, Nat.min_eq_left hn, List.range_eq_range']
  have hdropped : ∀ a, a ∈ robin.drop n → n ≤ robinIndex a ∧ robinIndex a < 72 := fun a ha => by
    have hmem := List.mem_map_of_mem (f := robinIndex) ha
    rw [hdrop, List.mem_range'_1] at hmem
    omega
  have htaken : ∀ a, a ∈ robin.take n → robinIndex a < n := fun a ha => by
    have hmem := List.mem_map_of_mem (f := robinIndex) ha
    rw [htake, List.mem_range'_1] at hmem
    omega
  have hafter : (robin.drop n).Pairwise (fun a b => robinIndex a < robinIndex b) :=
    List.pairwise_map.mp (by rw [hdrop]; exact List.pairwise_lt_range')
  have hbefore : (robin.take n).Pairwise (fun a b => robinIndex a < robinIndex b) :=
    List.pairwise_map.mp (by rw [htake]; exact List.pairwise_lt_range')
  refine List.pairwise_append.mpr ⟨hafter.imp_of_mem fun ha hb h => ?_, hbefore.imp_of_mem fun ha hb h => ?_,
    fun a ha b hb => ?_⟩
  · have hina := hdropped _ ha
    have hinb := hdropped _ hb
    omega
  · have hina := htaken _ ha
    have hinb := htaken _ hb
    omega
  · have hina := hdropped _ ha
    have hinb := htaken _ hb
    omega

theorem robinAfter_rotated {last : Option (Nat × Nat)} (hl : ∀ q v, last = some (q, v) → 1 ≤ q ∧ q ≤ 24 ∧ v ≤ 2) :
    (robinAfter last).Pairwise (fun a b => robinPlace last a.1 a.2 < robinPlace last b.1 b.2) := by
  cases last with
  | none => exact robin_rotated (Nat.zero_le 72)
  | some x =>
    obtain ⟨h1, h24, hv⟩ := hl x.1 x.2 rfl
    exact robin_rotated (n := 3 * (x.1 - 1) + x.2 + 1) (by omega)

theorem mem_robinAfter {last : Option (Nat × Nat)} {x : Nat × Nat} : x ∈ robinAfter last ↔ x ∈ robin := by
  cases last with
  | none => exact Iff.rfl
  | some y =>
    obtain ⟨q, v⟩ := y
    show x ∈ robin.drop _ ++ robin.take _ ↔ _
    rw [List.mem_append, or_comm, ← List.mem_append, List.take_append_drop]

namespace State

variable {s : State} {p u : Nat} {c d : LineClass}

/-- The first waiting requester after the last-served is the one whose place is the least (R42). -/
theorem requester_eq {last : Option (Nat × Nat)} {waits : Nat → Nat → Bool}
    (hl : ∀ q v, last = some (q, v) → 1 ≤ q ∧ q ≤ 24 ∧ v ≤ 2) (hp : 1 ≤ p ∧ p ≤ 24) (hu : u ≤ 2) (hwaits : waits p u = true)
    (hleast : ∀ q v, 1 ≤ q → q ≤ 24 → v ≤ 2 → waits q v = true → robinPlace last p u ≤ robinPlace last q v) :
    requester last waits = (p, u) := by
  unfold requester
  rw [find?_of_first (robinAfter_rotated hl) (x := (p, u)) (mem_robinAfter.mpr (mem_robin.mpr ⟨hp, hu⟩)) hwaits]
  · rfl
  · rintro ⟨q, v⟩ hmem hq
    obtain ⟨⟨h1, h24⟩, hv⟩ := mem_robin.mp (mem_robinAfter.mp hmem)
    exact Nat.not_lt.mpr (hleast q v h1 h24 hv hq)

/-! ### The classes (R41) -/

/-- A unit waits in a unit class, as the arbiter tests it. -/
def unitWaits (s : State) : LineClass → Nat → Nat → Bool
  | .urgent => s.waitsUrgent
  | .service => s.waitsService
  | .print => s.waitsPrint
  | .refresh => s.waitsRefresh
  | _ => fun _ _ => false

theorem isEmpty_not {α : Type} (l : List α) : (!l.isEmpty) = true ↔ l ≠ [] := by
  cases l <;> simp

theorem unitWaits_iff : s.unitWaits c p u = true ↔ s.Requests c p u := by
  unfold Requests
  cases c with
  | urgent =>
    unfold unitWaits waitsUrgent
    rw [Bool.and_eq_true, unitPresent, beq_iff_eq]
    refine and_congr_right fun _ => ?_
    split
    · next hq => simp [hq]
    · next q _ hq => simp [hq]
    · next q _ hq => simp [hq]
    · next u _ _ _ h0 h0' h2 =>
      rcases hq : (s.unit p u).queue with _ | ⟨q, rest⟩
      · have hne : u ≠ 0 := fun hc => h0 hc hq
        simp [hne]
      · have hne : u ≠ 0 := fun hc => h0' q rest hc hq
        have hne2 : u ≠ 2 := fun hc => h2 q rest hc hq
        simp [hne, hne2]
  | service =>
    unfold unitWaits waitsService
    rw [Bool.and_eq_true, unitPresent, beq_iff_eq]
  | print =>
    unfold unitWaits waitsPrint
    rw [Bool.and_eq_true, Bool.and_eq_true, unitPresent, beq_iff_eq, beq_iff_eq, isEmpty_not, and_assoc]
  | refresh =>
    unfold unitWaits waitsRefresh
    rw [Bool.and_eq_true, unitPresent, beq_iff_eq]
    refine and_congr_right fun _ => ?_
    split
    · next hq => simp [hq]
    · next q _ hq => simp [hq]
    · next u _ _ _ h0 h0' =>
      rcases hq : (s.unit p u).queue with _ | ⟨q, rest⟩
      · have hne : u ≠ 0 := fun hc => h0 hc hq
        simp [hne]
      · have hne : u ≠ 0 := fun hc => h0' q rest hc hq
        simp [hne]
  | rollCall => simp [unitWaits]
  | survey => simp [unitWaits]

theorem robin_any {waits : Nat → Nat → Bool} :
    robin.any (fun x => waits x.1 x.2) = true ↔ ∃ p u, 1 ≤ p ∧ p ≤ 24 ∧ u ≤ 2 ∧ waits p u = true := by
  rw [List.any_eq_true]
  constructor
  · rintro ⟨⟨p, u⟩, hmem, hw⟩
    obtain ⟨⟨h1, h24⟩, hu⟩ := mem_robin.mp hmem
    exact ⟨p, u, h1, h24, hu, hw⟩
  · rintro ⟨p, u, h1, h24, hu, hw⟩
    exact ⟨(p, u), mem_robin.mpr ⟨⟨h1, h24⟩, hu⟩, hw⟩

theorem unitClass_iff (c : LineClass) : robin.any (fun x => s.unitWaits c x.1 x.2) = true ↔
    ∃ p u, 1 ≤ p ∧ p ≤ 24 ∧ u ≤ 2 ∧ s.Requests c p u := by
  rw [robin_any]
  simp only [unitWaits_iff]

theorem classWaits_iff (c : LineClass) : s.classWaits c = true ↔ s.Waits c := by
  cases c with
  | rollCall => exact Iff.rfl
  | survey => exact beq_iff_eq
  | urgent => exact unitClass_iff .urgent
  | service => exact unitClass_iff .service
  | print => exact unitClass_iff .print
  | refresh => exact unitClass_iff .refresh

/-- The six classes, the highest first (R41). -/
def classes : List LineClass := [.urgent, .rollCall, .service, .print, .refresh, .survey]

theorem mem_classes (c : LineClass) : c ∈ classes := by cases c <;> decide

theorem classes_ordered : classes.Pairwise (fun c d => c.priority < d.priority) := by decide

/-- The class granted is the extremal one of those that wait (R42). -/
theorem grantedClass_of (h : s.Grants c) : s.grantedClass = some c := by
  obtain ⟨hc, hextremal⟩ := h
  unfold grantedClass
  split
  · next h7 =>
    show (classes.filter s.classWaits).getLast? = some c
    rw [List.getLast?_eq_head?_reverse, ← List.filter_reverse, List.head?_filter]
    refine find?_of_first (List.pairwise_reverse.mpr classes_ordered) (List.mem_reverse.mpr (mem_classes c))
      ((classWaits_iff c).mpr hc) fun d _ hd => ?_
    have hbound := hextremal d ((classWaits_iff d).mp hd)
    rw [if_pos h7] at hbound
    exact Nat.not_lt.mpr hbound
  · next h7 =>
    show (classes.filter s.classWaits).head? = some c
    rw [List.head?_filter]
    refine find?_of_first classes_ordered (mem_classes c) ((classWaits_iff c).mpr hc) fun d _ hd => ?_
    have hbound := hextremal d ((classWaits_iff d).mp hd)
    rw [if_neg h7] at hbound
    exact Nat.not_lt.mpr hbound

theorem grantedClass_of_none (h : ∀ c, ¬ s.Waits c) : s.grantedClass = none := by
  have hnone : s.waitingClasses = [] := List.filter_eq_nil_iff.mpr fun c _ hc => h c ((classWaits_iff c).mp hc)
  unfold grantedClass
  rw [hnone]
  split <;> rfl

/-! ### The grant (R42) -/

/-- The state in which the grant has been counted (R42). -/
def grantCounted (s : State) : State := s.withLine { s.line with grantCount := (s.line.grantCount + 1) % 8 }

theorem grant_of (hidle : s.line.engine = .idle) (h : s.Grants c) : s.grant = s.grantCounted.serve c := by
  unfold grant
  rw [if_pos hidle, grantedClass_of h]
  rfl

theorem requester_of (h : s.GrantsTo c p u) : requester (s.line.lastServed c) (s.unitWaits c) = (p, u) := by
  obtain ⟨-, h1, h24, hu, hrequests, hlast, hleast⟩ := h
  exact requester_eq hlast ⟨h1, h24⟩ hu (unitWaits_iff.mpr hrequests) fun q v hq hq24 hv hw =>
    hleast q v hq hq24 hv (unitWaits_iff.mp hw)

end State

end Sys2Proof.Machine
end

