-- ==== Sys2Proof/Proofs/LineGrants.lean ====
section
/-! The work that a grant begins (R42, R43): a transfer, the roll call, or a probe of the survey. -/

set_option Elab.async false

namespace Sys2Proof.Machine.State

variable {s : State} {p u : Nat} {c : LineClass}

/-- The transfer that begins with a unit (R36). -/
def newTransferOf (s : State) (p u : Nat) : Transfer := { pos := p, unit := u, made := 0, limit := s.tables.params.retries }

/-- The state in which a grant to a unit has been counted and has moved the last-served (R42). -/
def grantedTo (s : State) (c : LineClass) (p u : Nat) : State := { s with line := s.line.granted c p u }

/-- A grant of an outbound class is an outbound transfer with the unit granted (R42, R43). -/
theorem grant_outbound (hidle : s.line.engine = .idle) (h : s.GrantsTo c p u) (hc : c = .urgent ∨ c = .print ∨ c = .refresh) :
    s.grant = (s.grantedTo c p u).serveOutbound p u c := by
  have hrequester := requester_of h
  rw [grant_of hidle h.1]
  obtain rfl | rfl | rfl := hc
  · have hx : requester s.line.lastUrgent s.waitsUrgent = (p, u) := hrequester
    show State.serveOutbound (s.grantCounted.withLine { s.grantCounted.line with
      lastUrgent := some (requester s.line.lastUrgent s.waitsUrgent) })
      (requester s.line.lastUrgent s.waitsUrgent).1 (requester s.line.lastUrgent s.waitsUrgent).2 _ = _
    rw [hx]
    rfl
  · have hx : requester s.line.lastPrint s.waitsPrint = (p, u) := hrequester
    show State.serveOutbound (s.grantCounted.withLine { s.grantCounted.line with
      lastPrint := some (requester s.line.lastPrint s.waitsPrint) })
      (requester s.line.lastPrint s.waitsPrint).1 (requester s.line.lastPrint s.waitsPrint).2 _ = _
    rw [hx]
    rfl
  · have hx : requester s.line.lastRefresh s.waitsRefresh = (p, u) := hrequester
    show State.serveOutbound (s.grantCounted.withLine { s.grantCounted.line with
      lastRefresh := some (requester s.line.lastRefresh s.waitsRefresh) })
      (requester s.line.lastRefresh s.waitsRefresh).1 (requester s.line.lastRefresh s.waitsRefresh).2 _ = _
    rw [hx]
    rfl

theorem grant_service (hidle : s.line.engine = .idle) (h : s.GrantsTo .service p u) :
    s.grant = (s.grantedTo .service p u).sendSelect (s.newTransferOf p u) := by
  have hx : requester s.line.lastService s.waitsService = (p, u) := requester_of h
  rw [grant_of hidle h.1]
  show State.sendSelect (s.grantCounted.withLine { s.grantCounted.line with
    lastService := some (requester s.line.lastService s.waitsService) })
    (s.newTransferOf (requester s.line.lastService s.waitsService).1 (requester s.line.lastService s.waitsService).2) = _
  rw [hx]
  rfl

/-- With a message at the head the transfer sends it (R43). -/
theorem serveOutbound_of_head {q : Queued} (hq : (s.unit p u).queue.head? = some q) :
    s.serveOutbound p u c = s.sendHead (s.newTransferOf p u) := by
  unfold serveOutbound
  rw [if_neg]
  · rfl
  · rintro ⟨-, hempty⟩
    rw [hempty] at hq
    cases hq

/-! ### The roll call (R29) -/

theorem dropUnpolled_of_none (h : ∀ p u, s.tables.position p = none → (s.unit p u).presence ≠ .present) : s.dropUnpolled = s := by
  unfold dropUnpolled
  have hturn : ∀ p, s.tables.position p = none → allUnits.foldl
      (fun t u => if (t.unit p u).presence = .present then t.unitAbsent p u else t) s = s := fun p hp => by
    have hall : ∀ l : List Nat, l.foldl (fun t u => if (t.unit p u).presence = .present then t.unitAbsent p u else t) s = s := by
      intro l
      induction l with
      | nil => rfl
      | cons u l ih =>
        rw [List.foldl_cons, if_neg (h p u hp)]
        exact ih
    exact hall allUnits
  have hall : ∀ l : List Nat, (∀ p, p ∈ l → s.tables.position p = none) → l.foldl (fun t p => allUnits.foldl
      (fun t u => if (t.unit p u).presence = .present then t.unitAbsent p u else t) t) s = s := by
    intro l
    induction l with
    | nil => exact fun _ => rfl
    | cons p l ih =>
      intro hl
      rw [List.foldl_cons, hturn p (hl p (by simp))]
      exact ih fun q hq => hl q (List.mem_cons_of_mem _ hq)
  exact hall _ fun p hp => Option.isNone_iff_eq_none.mp (List.mem_filter.mp hp).2

theorem grant_rollCall (hidle : s.line.engine = .idle) (h : s.Grants .rollCall)
    (hnone : ∀ p u, s.tables.position p = none → (s.unit p u).presence ≠ .present) :
    s.grant = { s with
      line := if s.polled = [] then
        { { s.line with grantCount := (s.line.grantCount + 1) % 8, rollWaiting := false }.ended [.rollCallAll s.polled] with
          rollTimer := some s.tables.params.rollCall }
      else { s.line with grantCount := (s.line.grantCount + 1) % 8, rollWaiting := false }.awaiting s.tables.params.unitReply
        (.rollCall s.polled) [.rollCallAll s.polled] } := by
  rw [grant_of hidle h]
  show s.grantCounted.beginRollCall = _
  have hquiet : (s.grantCounted.withLine { s.grantCounted.line with rollWaiting := false }).dropUnpolled =
      s.grantCounted.withLine { s.grantCounted.line with rollWaiting := false } := dropUnpolled_of_none hnone
  unfold beginRollCall
  rw [hquiet]
  have hpolled : (s.grantCounted.withLine { s.grantCounted.line with rollWaiting := false }).polled = s.polled := rfl
  dsimp only
  rw [hpolled, openSlot_eq, openSlot_line]
  generalize s.polled = l
  by_cases hl : l = []
  · rw [if_pos hl, if_pos hl, if_pos hl, if_pos hl]
    rfl
  · rw [if_neg hl, if_neg hl, if_neg hl, if_neg hl]
    rfl

/-! ### The survey (R45) -/

theorem echoProbes_eq (installed : List Nat) : echoProbes installed =
    ([0, 1, 2].filter (fun u => decide (u ∈ installed))).flatMap (fun u => (List.range' 1 16).map (fun k => .echo u k)) := by
  unfold echoProbes
  rw [List.filter_congr fun u _ => List.contains_eq_mem ..]
  rfl

end Sys2Proof.Machine.State

namespace Sys2Proof.Proofs

open Sys2Proof.Machine Sys2Proof.Machine.State

/-- Settles O47: no grant with the engine busy or nothing waiting; else by the class granted. -/
theorem grantServesOneRequester : Obligations.GrantServesOneRequester := by
  unfold Obligations.GrantServesOneRequester
  intro s wait transfer
  refine ⟨?_, fun hidle => ⟨fun p u h => ?_, fun c p u q h hc hq => ?_, fun h hnone => ?_, fun p positions kind probes h hrest hprobes => ?_⟩⟩
  · rintro (hbusy | hnone)
    · exact congrArg Host.Outcome.next (if_neg hbusy)
    · have hgranted := grantedClass_of_none hnone
      have hgrant : s.grant = s := by
        unfold grant
        rw [hgranted, ite_self]
      exact congrArg Host.Outcome.next hgrant
  · exact congrArg Host.Outcome.next (grant_service hidle h)
  · have hgrant : s.grant = (s.grantedTo c p u).sendHead (s.newTransferOf p u) :=
      (grant_outbound hidle h hc).trans (serveOutbound_of_head (s := s.grantedTo c p u) hq)
    refine congrArg Host.Outcome.next (hgrant.trans ?_)
    exact sendHead_eq (s := s.grantedTo c p u) (x := s.newTransferOf p u) hq
  · exact congrArg Host.Outcome.next (grant_rollCall hidle h hnone)
  · have hgrant : s.grant = s.grantCounted.sendProbe := grant_of hidle h
    have hrest' : s.grantCounted.survey.rest = p :: positions := hrest
    have hprobes' : s.grantCounted.survey.probes = kind :: probes := hprobes
    cases kind with
    | presence =>
      refine congrArg Host.Outcome.next (hgrant.trans ?_)
      unfold sendProbe
      rw [hrest', hprobes']
      dsimp only
      rw [echoProbes_eq]
      rfl
    | echo u k =>
      refine congrArg Host.Outcome.next (hgrant.trans ?_)
      unfold sendProbe
      rw [hrest', hprobes']
      rfl

end Sys2Proof.Proofs
end

