-- ==== Sys2Proof/Proofs/ComposedGrants.lean ====
section
/-! What the composer builds on a grant (R43, R145, R146): a CLEAR, or the lowest row that its class may send. -/

set_option Elab.async false

namespace Sys2Proof.Machine

/-- The lowest member of a list in ascending order stands at its head. -/
theorem head_of_lowest {l : List Nat} {r : Nat} (hl : l.Pairwise (· < ·)) (hr : r ∈ l) (hlow : ∀ k ∈ l, r ≤ k) :
    ∃ rest, l = r :: rest := by
  cases l with
  | nil => cases hr
  | cons k rest =>
    refine ⟨rest, ?_⟩
    rcases List.mem_cons.mp hr with rfl | hmem
    · rfl
    · have hlt := (List.pairwise_cons.mp hl).1 r hmem
      have hle := hlow k (by simp)
      omega

namespace State

variable {s : State} {p r : Nat} {c : LineClass} {m : OutMsg} {x : Screen}

/-- The rows that a class may send (R145). -/
def sendable (s : State) (p : Nat) (urgent : Bool) : List Nat :=
  if urgent then (s.screen p).urgentRows s.tables else (s.screen p).otherRows s.tables

theorem sendable_ordered (h : (s.screen p).dirty.Pairwise (· < ·)) (urgent : Bool) :
    (s.sendable p urgent).Pairwise (· < ·) := by
  unfold sendable
  split
  · unfold Screen.urgentRows
    split
    · exact h.filter _
    · exact .nil
  · exact h.filter _

/-! ### The message built (R145, R146) -/

theorem buildMessage_clear (h : (s.screen p).clearPending = true) (urgent : Bool) : s.buildMessage p urgent =
    (s.setScreen p { s.screen p with clearPending := false, blankKnown := allRows }, some .clear) := if_pos h

/-- The screen once row r is built: it is not dirty, and known to be blank where it composed blank (R145, R146). -/
def builtScreen (s : State) (p r : Nat) (blank : Bool) : Screen :=
  ({ s.screen p with
      dirty := (s.screen p).dirty.filter (· != r)
      blankKnown := if blank then allRows.filter (fun k => k == r || (s.screen p).blankKnown.contains k)
        else (s.screen p).blankKnown.filter (· != r) } : Screen).settle s.tables

theorem buildMessage_row (hclear : (s.screen p).clearPending = false) {urgent : Bool}
    (hdirty : (s.screen p).dirty.Pairwise (· < ·)) (hr : r ∈ s.sendable p urgent) (hlow : ∀ k ∈ s.sendable p urgent, r ≤ k)
    (hnew : ¬ (blankRow (s.composeRow p r) = true ∧ r ∈ (s.screen p).blankKnown)) : s.buildMessage p urgent =
    (s.setScreen p (s.builtScreen p r (blankRow (s.composeRow p r))), some (.row r (s.composeRow p r))) := by
  obtain ⟨rest, hrows⟩ := head_of_lowest (sendable_ordered hdirty urgent) hr hlow
  have hrow : s.buildRow p urgent 25 =
      (s.setScreen p (s.builtScreen p r (blankRow (s.composeRow p r))), some (.row r (s.composeRow p r))) := by
    unfold sendable at hrows
    unfold buildRow
    dsimp only
    rw [hrows]
    dsimp only
    rw [if_neg]
    · rfl
    · rintro hc
      obtain ⟨hblank, hknown⟩ := Bool.and_eq_true_iff.mp hc
      exact hnew ⟨hblank, List.contains_iff_mem.mp hknown⟩
  unfold buildMessage
  rw [if_neg (by rw [hclear]; exact Bool.false_ne_true), hrow]

/-- Beside the two row sets only the urgent flag changes (R144). -/
theorem builtScreen_eq (blank : Bool) : s.builtScreen p r blank = { s.screen p with
    dirty := (s.screen p).dirty.filter (· != r)
    blankKnown := if blank then allRows.filter (fun k => k == r || (s.screen p).blankKnown.contains k)
      else (s.screen p).blankKnown.filter (· != r)
    urgent := (s.builtScreen p r blank).urgent } := Screen.settle_eq _ _

theorem builtScreen_blankKnown {blank : Bool} {k : Nat} (h1 : 1 ≤ k) (h24 : k ≤ 24) :
    k ∈ (s.builtScreen p r blank).blankKnown ↔ if k = r then blank = true else k ∈ (s.screen p).blankKnown := by
  have hrow : k ∈ allRows := List.mem_range'_1.mpr ⟨h1, by omega⟩
  rw [builtScreen_eq]
  by_cases hk : k = r <;> cases blank <;> simp [hk, hrow]
  exact hk ▸ hrow

/-! ### The grant (R43) -/

/-- The state in which message m, which left screen x, stands in the queue and its transfer has begun. -/
def composed (s : State) (c : LineClass) (p : Nat) (m : OutMsg) (x : Screen) : State := { s with
  screens := (s.setScreen p x).screens
  line := { (s.line.granted c p 0).awaiting s.tables.params.unitReply
      (.waitReply { pos := p, unit := 0, made := 0, limit := s.tables.params.retries })
      [.selectReceive p 0, .message p 0 (s.unit p 0).outSeq m] with
    recs := (s.setUnit p 0 { s.unit p 0 with queue := [{ msg := m, cls := c }] }).line.recs } }

theorem composed_unit (q u : Nat) : (s.composed c p m x).unit q u =
    (s.setUnit p 0 { s.unit p 0 with queue := [{ msg := m, cls := c }] }).unit q u := rfl

theorem composed_screen (q : Nat) : (s.composed c p m x).screen q = (s.setScreen p x).screen q := rfl

/-- The transfer of a message that has just been queued alone. -/
theorem sendHead_queued {t : State} {q : Queued} {made limit : Nat} (hp : 1 ≤ p ∧ p ≤ 24) :
    (t.setUnit p 0 { t.unit p 0 with queue := [q] }).sendHead { pos := p, unit := 0, made := made, limit := limit } =
    { t with line := { t.line.awaiting t.tables.params.unitReply
        (.waitReply { pos := p, unit := 0, made := made, limit := limit })
        [.selectReceive p 0, .message p 0 (t.unit p 0).outSeq q.msg] with
      recs := (t.setUnit p 0 { t.unit p 0 with queue := [q] }).line.recs } } := by
  have hunit : (t.setUnit p 0 { t.unit p 0 with queue := [q] }).unit p 0 = { t.unit p 0 with queue := [q] } := by
    rw [unit_setUnit, if_pos ⟨⟨rfl, hp⟩, rfl, by decide⟩]
  rw [sendHead_eq (q := q) (by dsimp only; rw [hunit]; rfl)]
  dsimp only
  rw [hunit]
  rfl

theorem grant_composed (hidle : s.line.engine = .idle) (h : s.GrantsTo c p 0) (hc : c = .urgent ∨ c = .refresh)
    (hp : 1 ≤ p ∧ p ≤ 24) (hqueue : (s.unit p 0).queue = [])
    (hbuilt : (s.grantedTo c p 0).buildMessage p (c == .urgent) = ((s.grantedTo c p 0).setScreen p x, some m)) :
    s.grant = s.composed c p m x := by
  have hgrant := grant_outbound hidle h (hc.imp_right Or.inr)
  have hserve : (s.grantedTo c p 0).serveOutbound p 0 c =
      State.sendHead (((s.grantedTo c p 0).setScreen p x).setUnit p 0 { s.unit p 0 with queue := [{ msg := m, cls := c }] })
        (s.newTransferOf p 0) := by
    unfold serveOutbound
    rw [if_pos ⟨rfl, hqueue⟩, hbuilt]
    rfl
  rw [hgrant, hserve]
  exact sendHead_queued (t := (s.grantedTo c p 0).setScreen p x) hp

end State

end Sys2Proof.Machine

namespace Sys2Proof.Proofs

open Sys2Proof.Machine Sys2Proof.Machine.State

/-- Settles O48: what is built, then the transfer that sends it. -/
theorem composerBuildsOnGrant : Obligations.ComposerBuildsOnGrant := by
  unfold Obligations.ComposerBuildsOnGrant
  intro s c p hidle hc h hqueue hdirty builds
  have hp : 1 ≤ p ∧ p ≤ 24 := ⟨h.2.1, h.2.2.1⟩
  have hbuilds : ∀ (m : OutMsg) (x : Screen),
      (s.grantedTo c p 0).buildMessage p (c == .urgent) = ((s.grantedTo c p 0).setScreen p x, some m) →
      builds m (s.composed c p m x) ∧ (s.composed c p m x).screen p = x := fun m x hbuilt => by
    refine ⟨⟨congrArg Host.Outcome.next (grant_composed hidle h hc hp hqueue hbuilt), rfl, rfl, ?_, fun q u hne => ?_,
      fun q hne => ?_⟩, ?_⟩
    · rw [composed_unit, unit_setUnit, if_pos ⟨⟨rfl, hp⟩, rfl, by decide⟩]
    · rw [composed_unit, unit_setUnit]
      exact if_neg fun hcase => hne (by rw [hcase.1.1, hcase.2.1])
    · rw [composed_screen, screen_setScreen]
      exact if_neg fun hcase => hne hcase.1.symm
    · rw [composed_screen, screen_setScreen, if_pos ⟨rfl, hp⟩]
  refine ⟨fun hclear => ?_, ?_⟩
  · exact ⟨_, hbuilds _ _ (buildMessage_clear (s := s.grantedTo c p 0) hclear _)⟩
  · intro r hclear rows cells blank hr hlow hnew
    have hrows : (s.grantedTo c p 0).sendable p (c == .urgent) = rows := by
      obtain rfl | rfl := hc <;> rfl
    have hbuilt := buildMessage_row (s := s.grantedTo c p 0) hclear hdirty (hrows ▸ hr) (hrows ▸ hlow) hnew
    obtain ⟨hstate, hscreen⟩ := hbuilds _ _ hbuilt
    refine ⟨_, hstate, ?_⟩
    rw [hscreen]
    refine ⟨?_, ?_, ?_, ?_, fun k h1 h24 => builtScreen_blankKnown h1 h24⟩
    · rw [builtScreen_eq]
      rfl
    · rw [builtScreen_eq]
      rfl
    · rw [builtScreen_eq]
      rfl
    · rw [builtScreen_eq]
      exact hclear

end Sys2Proof.Proofs
end

