-- ==== Sys2Proof/Proofs/StationMessages.lean ====
section
/-! The payloads of station messages, written and read (R40, R204): what a unit writes is read back whole. -/

set_option Elab.async false

namespace Sys2Proof.Machine

variable {bs pre post : List Byte} {m n : Nat}

theorem num_toByte (h : n < 256) (bs : List Byte) : num (toByte n :: bs) 0 1 = n := by
  rw [num_cons_one, toNat_toByte, Nat.mod_eq_of_lt h]

/-- A number of k bytes behind other fields. -/
theorem num_be_behind {k off : Nat} (hpre : pre.length = off) (hn : n < 256 ^ k) : num (pre ++ be k n ++ post) off k = n := by
  rw [List.append_assoc, num_append_behind hpre (Nat.le_refl off), Nat.sub_self, num_be_append_of_lt hn]

theorem num_toByte_behind {off : Nat} (hpre : pre.length = off) (hn : n < 256) : num (pre ++ toByte n :: post) off 1 = n := by
  rw [num_append_behind hpre (Nat.le_refl off), Nat.sub_self, num_toByte hn]

/-! ### Texts -/

theorem slice_textField {cap : Nat} {t : Text} (h : t.length ≤ cap) : slice (textField cap t ++ post) 1 t.length = t := by
  have hpad : padTo cap space t = t ++ (List.replicate cap space).take (cap - t.length) := by
    unfold padTo
    rw [List.take_append, List.take_of_length_le h]
  show slice (padTo cap space t ++ post) 0 t.length = t
  rw [hpad, List.append_assoc, slice_append_field]

theorem accountOf_accountField {a : Option Text} (h : fitsAccount a = true) : accountOf (accountField a) = a := by
  unfold accountOf accountField
  cases a with
  | none => rfl
  | some t =>
    have hlen : 1 ≤ t.length ∧ t.length ≤ 20 := by simpa [fitsAccount, inRange] using h
    have hnum : num (textField 20 t) 0 1 = t.length := num_toByte (by omega) _
    have htext := slice_textField (post := []) hlen.2
    rw [List.append_nil] at htext
    show (if num (textField 20 t) 0 1 = 0 then none else some (slice (textField 20 t) 1 (num (textField 20 t) 0 1))) = some t
    rw [hnum, if_neg (by omega), htext]

/-! ### Breakdowns -/

theorem parsePairs_succ (bs : List Byte) (off m : Nat) :
    parsePairs bs off (m + 1) = (num bs off 1, num bs (off + 1) 2) :: parsePairs bs (off + 3) m := by
  unfold parsePairs
  rw [List.range_succ_eq_map, List.map_cons, List.map_map]
  congr 1
  exact List.map_congr_left fun j _ => by
    show (num bs (off + 3 * (j + 1)) 1, num bs (off + 3 * (j + 1) + 1) 2) = _
    rw [show off + 3 * (j + 1) = off + 3 + 3 * j by omega]

theorem parsePairs_written {pairs : List (Nat × Nat)} (h : pairs.all (fun p => fits8 p.1 && fits16 p.2) = true) :
    ∀ pre : List Byte, parsePairs (pre ++ (pairs.flatMap (fun p => toByte p.1 :: be 2 p.2) ++ post)) pre.length pairs.length =
      pairs := by
  induction pairs with
  | nil => exact fun _ => rfl
  | cons p pairs ih =>
    intro pre
    rw [List.all_cons, Bool.and_eq_true] at h
    obtain ⟨hp, hpairs⟩ := h
    obtain ⟨h1, h2⟩ : p.1 < 256 ∧ p.2 < 65536 := by simpa [fits8, fits16] using hp
    have hrest := ih hpairs (pre ++ toByte p.1 :: be 2 p.2)
    have hbytes : pre ++ ((p :: pairs).flatMap (fun p => toByte p.1 :: be 2 p.2) ++ post) =
        (pre ++ toByte p.1 :: be 2 p.2) ++ (pairs.flatMap (fun p => toByte p.1 :: be 2 p.2) ++ post) := by simp
    rw [hbytes, List.length_cons, parsePairs_succ]
    have hlen : (pre ++ toByte p.1 :: be 2 p.2).length = pre.length + 3 := by simp
    rw [hlen] at hrest
    have hfirst : num ((pre ++ toByte p.1 :: be 2 p.2) ++ (pairs.flatMap (fun p => toByte p.1 :: be 2 p.2) ++ post))
        pre.length 1 = p.1 := by
      rw [List.append_assoc]
      exact num_toByte_behind (post := be 2 p.2 ++ _) rfl h1
    have hsecond : num ((pre ++ toByte p.1 :: be 2 p.2) ++ (pairs.flatMap (fun p => toByte p.1 :: be 2 p.2) ++ post))
        (pre.length + 1) 2 = p.2 := by
      rw [show pre ++ toByte p.1 :: be 2 p.2 = (pre ++ [toByte p.1]) ++ be 2 p.2 by simp]
      exact num_be_behind (by simp) h2
    rw [hfirst, hsecond, hrest]

theorem parseBreakdown_written {b : Option (List (Nat × Nat))} (h : fitsBreakdown b = true) {off : Nat}
    (hpre : pre.length = off) :
    parseBreakdown (pre ++ (breakdownBytes b ++ post)) off = some (b, (breakdownBytes b).length) := by
  subst hpre
  unfold parseBreakdown
  cases b with
  | none =>
    have hnum : num (pre ++ (breakdownBytes none ++ post)) pre.length 1 = 255 :=
      num_toByte_behind (n := 255) rfl (by decide)
    dsimp only
    rw [hnum]
    rfl
  | some pairs =>
    obtain ⟨hlen, hall⟩ : pairs.length ≤ 12 ∧ pairs.all (fun p => fits8 p.1 && fits16 p.2) = true := by
      rw [fitsBreakdown, Bool.and_eq_true] at h
      exact ⟨of_decide_eq_true h.1, h.2⟩
    have hnum : num (pre ++ (breakdownBytes (some pairs) ++ post)) pre.length 1 = pairs.length :=
      num_toByte_behind (post := pairs.flatMap _ ++ post) rfl (by omega)
    have hpairs := parsePairs_written (post := post) hall (pre ++ [toByte pairs.length])
    rw [List.length_append, List.length_singleton] at hpairs
    have hbytes : pre ++ (breakdownBytes (some pairs) ++ post) =
        pre ++ [toByte pairs.length] ++ (pairs.flatMap (fun p => toByte p.1 :: be 2 p.2) ++ post) := by
      simp [breakdownBytes]
    have hsize : (breakdownBytes (some pairs)).length = 1 + 3 * pairs.length := by
      show (toByte pairs.length :: pairs.flatMap fun p => toByte p.1 :: be 2 p.2).length = _
      rw [List.length_cons, length_flatMap_const (k := 3) (by intro p _; simp)]
      omega
    dsimp only
    rw [hnum, if_pos hlen, hsize, hbytes, hpairs]

theorem breakdownBytes_length {b : Option (List (Nat × Nat))} (h : fitsBreakdown b = true) :
    1 ≤ (breakdownBytes b).length ∧ (breakdownBytes b).length ≤ 37 := by
  cases b with
  | none => exact ⟨by decide, by decide⟩
  | some pairs =>
    have hlen : pairs.length ≤ 12 := by
      rw [fitsBreakdown, Bool.and_eq_true] at h
      exact of_decide_eq_true h.1
    have hsize : (breakdownBytes (some pairs)).length = 1 + 3 * pairs.length := by
      show (toByte pairs.length :: pairs.flatMap fun p => toByte p.1 :: be 2 p.2).length = _
      rw [List.length_cons, length_flatMap_const (k := 3) (by intro p _; simp)]
      omega
    omega

/-! ### The REQUEST message -/

/-- The fixed fields of a REQUEST payload: the code, the currency, the amount and the account. -/
def requestHead (r : Request) : List Byte := toByte r.code :: toByte r.cur :: (be 6 r.amount ++ accountField r.account)

theorem requestHead_length (r : Request) : (requestHead r).length = 29 := by
  simp [requestHead]

theorem requestBytes_eq (r : Request) : requestBytes r = requestHead r ++ (breakdownBytes r.bReq ++ breakdownBytes r.bHome) := by
  simp [requestBytes, requestHead]

theorem requestBytes_length (r : Request) :
    (requestBytes r).length = 29 + (breakdownBytes r.bReq).length + (breakdownBytes r.bHome).length := by
  rw [requestBytes_eq, List.length_append, List.length_append, requestHead_length, Nat.add_assoc]

theorem parseRequest_written {r : Request} (h : r.wellFormed = true) : parseRequest (requestBytes r) = .request r := by
  simp only [Request.wellFormed, Bool.and_eq_true, fits8, decide_eq_true_eq] at h
  obtain ⟨⟨⟨⟨⟨hcode, hcur⟩, hamount⟩, haccount⟩, hreq⟩, hhome⟩ := h
  have hlen := requestBytes_length r
  have hreqLen := breakdownBytes_length hreq
  have hhomeLen := breakdownBytes_length hhome
  have hfirst : parseBreakdown (requestBytes r) 29 = some (r.bReq, (breakdownBytes r.bReq).length) := by
    rw [requestBytes_eq]
    exact parseBreakdown_written hreq (requestHead_length r)
  have hsecond : parseBreakdown (requestBytes r) (29 + (breakdownBytes r.bReq).length) =
      some (r.bHome, (breakdownBytes r.bHome).length) := by
    rw [requestBytes_eq, ← List.append_assoc, ← List.append_nil (breakdownBytes r.bHome), ← requestHead_length r,
      ← List.length_append]
    have hread := parseBreakdown_written (post := []) hhome (pre := requestHead r ++ breakdownBytes r.bReq) rfl
    rw [hread, List.append_nil]
  have hnums : num (requestBytes r) 0 1 = r.code ∧ num (requestBytes r) 1 1 = r.cur ∧ num (requestBytes r) 2 6 = r.amount := by
    rw [requestBytes_eq]
    refine ⟨num_toByte hcode _, num_toByte hcur _, ?_⟩
    show num ((be 6 r.amount ++ accountField r.account) ++ _) 0 6 = _
    rw [List.append_assoc, num_be_append_of_lt hamount]
  have haccountField : slice (requestBytes r) 8 21 = accountField r.account := by
    rw [requestBytes_eq]
    show slice ((be 6 r.amount ++ accountField r.account) ++ _) 6 21 = _
    rw [List.append_assoc, slice_append_behind (length_be 6 r.amount) (Nat.le_refl 6), Nat.sub_self,
      slice_append_front (length_accountField r.account)]
  have haccountSize : num (requestBytes r) 8 1 ≤ 20 := by
    have hnum : num (requestBytes r) 8 1 = num (accountField r.account) 0 1 := by
      rw [← haccountField]
      rfl
    rw [hnum]
    cases hr : r.account with
    | none => decide
    | some t =>
      rw [hr] at haccount
      have hlen : 1 ≤ t.length ∧ t.length ≤ 20 := by simpa [fitsAccount, inRange] using haccount
      have hsize : num (accountField (some t)) 0 1 = t.length := num_toByte (n := t.length) (by omega) _
      rw [hsize]
      exact hlen.2
  unfold parseRequest
  rw [hfirst]
  dsimp only
  rw [hsecond]
  dsimp only
  rw [if_pos ⟨by omega, hlen, haccountSize⟩, hnums.1, hnums.2.1, hnums.2.2, haccountField, accountOf_accountField haccount]

/-! ### Count lists -/

theorem counts_written {l : List Nat} (h : l.all fits16 = true) : ∀ pre : List Byte,
    (List.range l.length).map (fun j => num (pre ++ (l.flatMap (be 2) ++ post)) (pre.length + 2 * j) 2) = l := by
  induction l with
  | nil => exact fun _ => rfl
  | cons n l ih =>
    intro pre
    rw [List.all_cons, Bool.and_eq_true] at h
    obtain ⟨hn, hl⟩ := h
    have hrest := ih hl (pre ++ be 2 n)
    have hbytes : pre ++ ((n :: l).flatMap (be 2) ++ post) = (pre ++ be 2 n) ++ (l.flatMap (be 2) ++ post) := by simp
    rw [hbytes, List.length_cons, List.range_succ_eq_map, List.map_cons, List.map_map]
    rw [List.length_append, length_be] at hrest
    congr 1
    · exact num_be_behind rfl (of_decide_eq_true hn)
    · refine Eq.trans (List.map_congr_left fun j _ => ?_) hrest
      show num _ (pre.length + 2 * (j + 1)) 2 = _
      rw [show pre.length + 2 * (j + 1) = pre.length + 2 + 2 * j by omega]

theorem parseLists_written {lists : List (List Nat)}
    (h : lists.all (fun l => decide (l.length ≤ 12) && l.all fits16) = true) :
    parseLists lists.length (listsBytes lists) = some lists := by
  induction lists with
  | nil => rfl
  | cons l lists ih =>
    rw [List.all_cons, Bool.and_eq_true, Bool.and_eq_true, decide_eq_true_eq] at h
    obtain ⟨⟨hlen, hfits⟩, hlists⟩ := h
    have hbytes : listsBytes (l :: lists) = toByte l.length :: (l.flatMap (be 2) ++ listsBytes lists) := by simp [listsBytes]
    have hnum : num (listsBytes (l :: lists)) 0 1 = l.length := by
      rw [hbytes]
      exact num_toByte (by omega) _
    have hcounts : (l.flatMap (be 2)).length = 2 * l.length := length_flatMap_const fun n _ => length_be 2 n
    have hdrop : (listsBytes (l :: lists)).drop (1 + 2 * l.length) = listsBytes lists := by
      rw [hbytes, Nat.add_comm, List.drop_succ_cons, ← hcounts, List.drop_left]
    have hread : (List.range l.length).map (fun j => num (listsBytes (l :: lists)) (1 + 2 * j) 2) = l := by
      rw [hbytes]
      exact counts_written hfits [toByte l.length]
    have hfits : ¬ ((listsBytes (l :: lists)).isEmpty ∨ 12 < l.length ∨
        (listsBytes (l :: lists)).length < 1 + 2 * l.length) := by
      rw [hbytes]
      simp [hcounts]
      omega
    rw [List.length_cons]
    unfold parseLists
    dsimp only
    rw [hnum, if_neg hfits, hdrop, ih hlists]
    dsimp only
    rw [hread]

theorem listsBytes_length {lists : List (List Nat)} (h : fitsLists lists = true) : (listsBytes lists).length ≤ 100 := by
  rw [fitsLists, Bool.and_eq_true, beq_iff_eq] at h
  obtain ⟨hfour, hall⟩ := h
  have hbound : ∀ ls : List (List Nat), ls.all (fun l => decide (l.length ≤ 12) && l.all fits16) = true →
      (listsBytes ls).length ≤ 25 * ls.length := by
    intro ls
    induction ls with
    | nil => exact fun _ => Nat.le_refl 0
    | cons l ls ih =>
      intro hls
      rw [List.all_cons, Bool.and_eq_true, Bool.and_eq_true, decide_eq_true_eq] at hls
      obtain ⟨⟨hlen, -⟩, hls⟩ := hls
      have hrest := ih hls
      have hcounts : (l.flatMap (be 2)).length = 2 * l.length := length_flatMap_const fun n _ => length_be 2 n
      have hbytes : listsBytes (l :: ls) = toByte l.length :: (l.flatMap (be 2) ++ listsBytes ls) := by simp [listsBytes]
      rw [hbytes, List.length_cons, List.length_append, hcounts, List.length_cons]
      omega
  have hsize := hbound lists hall
  rw [hfour] at hsize
  exact hsize

/-! ### Each kind of each unit (R40) -/

theorem parseMessage_request {r : Request} (h : r.wellFormed = true) : parseMessage 0 5 (requestBytes r) = .request r :=
  parseRequest_written h

theorem parseMessage_signOn (h : n < 65536) : parseMessage 0 1 (be 2 n) = .signOn n := by
  show (if (be 2 n).length = 2 then InMsg.signOn (num (be 2 n) 0 2) else .bad) = _
  rw [if_pos (length_be 2 n), num_be_of_lt h]

theorem parseMessage_resume (h : n < 65536) : parseMessage 0 4 (be 2 n) = .resume n := by
  show (if (be 2 n).length = 2 then InMsg.resume (num (be 2 n) 0 2) else .bad) = _
  rw [if_pos (length_be 2 n), num_be_of_lt h]

theorem parseMessage_override (hn : n < 65536) (hm : m < 256) : parseMessage 0 7 (be 2 n ++ [toByte m]) = .override n m := by
  show (if (be 2 n ++ [toByte m]).length = 3 then InMsg.override (num (be 2 n ++ [toByte m]) 0 2)
    (num (be 2 n ++ [toByte m]) 2 1) else .bad) = _
  rw [if_pos (by simp), num_be_append_of_lt hn, num_toByte_behind (length_be 2 n) hm]

theorem parseLists_four {lists : List (List Nat)} (h : fitsLists lists = true) (m : Nat) :
    parseLists 4 ((toByte m :: listsBytes lists).drop 1) = some lists := by
  rw [fitsLists, Bool.and_eq_true, beq_iff_eq] at h
  obtain ⟨hfour, hall⟩ := h
  have hread := parseLists_written hall
  rw [hfour] at hread
  exact hread

theorem parseMessage_count {lists : List (List Nat)} (hm : m < 256) (h : fitsLists lists = true) :
    parseMessage 0 8 (toByte m :: listsBytes lists) = .count m lists := by
  have hlists : parseLists 4 (listsBytes lists) = some lists := parseLists_four h m
  simp [parseMessage, parseScreenMessage, hlists, Nat.mod_eq_of_lt hm]

theorem parseMessage_acceptDiff {lists : List (List Nat)} (hm : m < 256) (h : fitsLists lists = true) :
    parseMessage 0 10 (toByte m :: listsBytes lists) = .acceptDiff m lists := by
  have hlists : parseLists 4 (listsBytes lists) = some lists := parseLists_four h m
  simp [parseMessage, parseScreenMessage, hlists, Nat.mod_eq_of_lt hm]

theorem parseMessage_reopen (h : n < 256) : parseMessage 0 9 [toByte n] = .reopen n :=
  congrArg InMsg.reopen (num_toByte h [])

theorem parseMessage_form (h : n < 256) : parseMessage 0 11 [toByte n] = .form n :=
  congrArg InMsg.form (num_toByte h [])

/-- The BOOK_IN payload. -/
def bookInBytes (account : Text) (layout page place : Nat) : List Byte :=
  textField 20 account ++ [toByte layout, toByte page, toByte place]

theorem parseMessage_bookIn {account : Text} {layout page place : Nat} (ha : account.length ≤ 20) (hl : layout < 256)
    (hp : page < 256) (hn : place < 256) :
    parseMessage 1 1 (bookInBytes account layout page place) = .bookIn account layout page place := by
  have hlen : (bookInBytes account layout page place).length = 24 := by simp [bookInBytes]
  have hsize : num (bookInBytes account layout page place) 0 1 = account.length := num_toByte (by omega) _
  have htext : slice (bookInBytes account layout page place) 1 account.length = account := slice_textField ha
  have hfields : num (bookInBytes account layout page place) 21 1 = layout ∧
      num (bookInBytes account layout page place) 22 1 = page ∧ num (bookInBytes account layout page place) 23 1 = place := by
    have hfield := length_textField 20 account
    refine ⟨num_toByte_behind hfield hl, ?_, ?_⟩
    · exact (num_append_behind hfield (by decide)).trans (num_toByte hp _)
    · exact (num_append_behind hfield (by decide)).trans (num_toByte hn _)
  show (if (bookInBytes account layout page place).length = 24 ∧ num (bookInBytes account layout page place) 0 1 ≤ 20 then
    InMsg.bookIn _ _ _ _ else .bad) = _
  rw [hsize, if_pos ⟨hlen, ha⟩, htext, hfields.1, hfields.2.1, hfields.2.2]

end Sys2Proof.Machine
end

