-- ==== Sys2Proof/Proofs/MessageArrival.lean ====
section
/-! The arrival of a message (R38, R40): what is bad, what is a repeat, and the command of each row. -/

set_option Elab.async false

namespace Sys2Proof.Machine

variable {bs : List Byte} {kind u : Nat}

/-! ### Messages that break their kind, size or value (R40, R204) -/

theorem parseRequest_of_short (h : bs.length < 31 ∨ 20 < num bs 8 1) : parseRequest bs = .bad := by
  unfold parseRequest
  split
  · rfl
  · split
    · rfl
    · exact if_neg fun hc => by omega

theorem parseRequest_of_breakdown (h : 12 < num bs 29 1) (hpresent : num bs 29 1 ≠ 255) : parseRequest bs = .bad := by
  have hnone : parseBreakdown bs 29 = none := by
    unfold parseBreakdown
    dsimp only
    rw [if_neg (Nat.not_le.mpr h), if_neg hpresent]
  unfold parseRequest
  rw [hnone]

/-- Each count list takes a byte at least. -/
theorem parseLists_of_short {n : Nat} (h : bs.length < n) : parseLists n bs = none := by
  induction n generalizing bs with
  | zero => exact absurd h (Nat.not_lt_zero _)
  | succ n ih =>
    unfold parseLists
    dsimp only
    split
    · rfl
    · next hc =>
      have hnonempty : bs.length ≠ 0 := fun hz => hc (.inl (by simpa using hz))
      rw [ih (bs := bs.drop (1 + 2 * num bs 0 1)) (by rw [List.length_drop]; omega)]

theorem parseLists_of_count {n : Nat} (h : 12 < num bs 0 1) : parseLists (n + 1) bs = none := by
  unfold parseLists
  exact if_pos (.inr (.inl h))

theorem lists_bad (h : bs.length < 5 ∨ 12 < num bs 1 1) : bs.length = 0 ∨ parseLists 4 bs.tail = none := by
  cases bs with
  | nil => exact .inl rfl
  | cons b bs =>
    refine .inr ?_
    rcases h with hshort | hcount
    · exact parseLists_of_short (by rw [List.length_cons] at hshort; show bs.length < 4; omega)
    · exact parseLists_of_count hcount

theorem parseScreenMessage_of_kind (h : kind = 0 ∨ 12 < kind) : parseScreenMessage kind bs = .bad := by
  unfold parseScreenMessage
  split
  all_goals first | omega | rfl

theorem parseScreenMessage_of_size (h : ((kind = 1 ∨ kind = 4) ∧ bs.length ≠ 2) ∨
    ((kind = 2 ∨ kind = 3 ∨ kind = 6 ∨ kind = 12) ∧ bs.length ≠ 0) ∨ (kind = 7 ∧ bs.length ≠ 3) ∨
    ((kind = 9 ∨ kind = 11) ∧ bs.length ≠ 1)) : parseScreenMessage kind bs = .bad := by
  rcases h with ⟨rfl | rfl, h⟩ | ⟨rfl | rfl | rfl | rfl, h⟩ | ⟨rfl, h⟩ | ⟨rfl | rfl, h⟩
  all_goals exact if_neg h

theorem parseScreenMessage_of_lists (hkind : kind = 8 ∨ kind = 10) (h : bs.length < 5 ∨ 12 < num bs 1 1) :
    parseScreenMessage kind bs = .bad := by
  rcases hkind with rfl | rfl <;> rcases lists_bad h with hempty | hnone
  · exact if_pos hempty
  · simp [parseScreenMessage, hnone]
  · exact if_pos hempty
  · simp [parseScreenMessage, hnone]

theorem parsePrinterMessage_bad (h : kind = 0 ∨ 3 < kind ∨ (kind = 1 ∧ (bs.length ≠ 24 ∨ 20 < num bs 0 1)) ∨
    (kind = 2 ∧ bs.length ≠ 0) ∨ (kind = 3 ∧ (bs.length ≠ 1 ∨ num bs 0 1 = 0 ∨ 5 < num bs 0 1))) :
    parsePrinterMessage kind bs = .bad := by
  rcases h with hkind | hkind | ⟨rfl, h⟩ | ⟨rfl, h⟩ | ⟨rfl, h⟩
  · unfold parsePrinterMessage
    split
    all_goals first | omega | rfl
  · unfold parsePrinterMessage
    split
    all_goals first | omega | rfl
  · exact if_neg fun hc => by omega
  · exact if_neg h
  · have hstatus : num bs 0 1 = 0 ∨ 5 < num bs 0 1 → statusOf (num bs 0 1) = none := fun hv => by
      unfold statusOf
      split
      all_goals first | omega | rfl
    rcases h with hlen | hvalue
    · exact if_neg hlen
    · simp [parsePrinterMessage, hstatus hvalue]

theorem parseDrawerMessage_bad (h : kind = 0 ∨ 3 < kind ∨ bs.length ≠ 0) : parseDrawerMessage kind bs = .bad := by
  unfold parseDrawerMessage
  split
  · split
    all_goals first | omega | rfl
  · rfl

theorem parseMessage_of_unit (h : 2 < u) : parseMessage u kind bs = .bad := by
  unfold parseMessage
  split
  all_goals first | omega | rfl

namespace State

variable {s : State} {p seq : Nat}

/-- A message of the sequence last accepted is answered ACCEPT and is not delivered again (R38). -/
theorem receive_repeated {x : Transfer} (he : s.line.engine = .selectedSend x) (hp : x.pos = p) (hu : x.unit = u)
    (hd : s.line.discarding = false) (hlast : (s.unit p u).lastIn = some seq) (m : InMsg) :
    s.receive (.message p u seq m) = s.accepted p u seq := by
  subst hp hu
  have hrepeated : ((s.unit x.pos x.unit).lastIn == some seq) = true := by rw [hlast, beq_self_eq_true]
  simp [receive, hd, he, receiveInbound, acceptInbound, hrepeated, endTransfer_setUnit_sendLine]

/-- A message whose payload is that of a row is that row's command. -/
theorem exec_repeatMessage_of {m : InMsg} (h : parseMessage u kind bs = m) :
    exec (.repeatMessage p u kind seq bs) s = .next (s.receive (.message p u seq m)) := by
  rw [← h]
  rfl

end State

end Sys2Proof.Machine

namespace Sys2Proof.Proofs

open Sys2Proof.Machine Sys2Proof.Machine.State

/-- Settles O30: what breaks its row is bad, a repeat is only answered, and each row's payload is read as its command. -/
theorem messageReachesItsOwnerOnce : Obligations.MessageReachesItsOwnerOnce := by
  unfold Obligations.MessageReachesItsOwnerOnce
  intro s p u kind seq payload
  refine ⟨?_, fun x he hp hu hd hlast => congrArg Host.Outcome.next (receive_repeated he hp hu hd hlast _),
    fun n hn => ⟨exec_repeatMessage_of (parseMessage_signOn hn), exec_repeatMessage_of (parseMessage_resume hn),
      fun d hd => exec_repeatMessage_of (parseMessage_override hn hd)⟩,
    fun r hr => exec_repeatMessage_of (parseMessage_request hr),
    fun d lists hd hl => ⟨exec_repeatMessage_of (parseMessage_count hd hl), exec_repeatMessage_of (parseMessage_acceptDiff hd hl)⟩,
    fun n hn => ⟨exec_repeatMessage_of (parseMessage_reopen hn), exec_repeatMessage_of (parseMessage_form hn)⟩,
    ⟨rfl, rfl, rfl, rfl⟩,
    fun account layout page place ha hl hp hn => exec_repeatMessage_of (parseMessage_bookIn ha hl hp hn),
    ⟨rfl, rfl, rfl, rfl, rfl, rfl⟩, rfl, rfl, rfl⟩
  intro n broken hawaits hbad
  have hparsed : parseMessage u kind payload = .bad := by
    rcases hbad with hbroken | hbad
    · rcases hbroken with ⟨rfl, hscreen⟩ | ⟨rfl, hprinter⟩ | ⟨rfl, hdrawer⟩ | hunit
      · rcases hscreen with hkind | hkind | hsize | hsize | hsize | hsize | ⟨rfl, hrequest⟩ | ⟨hkind, hlists⟩
        · exact parseScreenMessage_of_kind (.inl hkind)
        · exact parseScreenMessage_of_kind (.inr hkind)
        · exact parseScreenMessage_of_size (.inl hsize)
        · exact parseScreenMessage_of_size (.inr (.inl hsize))
        · exact parseScreenMessage_of_size (.inr (.inr (.inl hsize)))
        · exact parseScreenMessage_of_size (.inr (.inr (.inr hsize)))
        · rcases hrequest with hshort | haccount | ⟨hcount, hpresent⟩
          · exact parseRequest_of_short (.inl hshort)
          · exact parseRequest_of_short (.inr haccount)
          · exact parseRequest_of_breakdown hcount hpresent
        · exact parseScreenMessage_of_lists hkind hlists
      · exact parsePrinterMessage_bad hprinter
      · exact parseDrawerMessage_bad hdrawer
      · exact parseMessage_of_unit hunit
    · exact hbad
  rw [exec_lineBadMessage_of_bad hawaits hparsed]
  rfl

end Sys2Proof.Proofs
end

