-- ==== Sys2Proof/Proofs/StationFrames.lean ====
section
/-! A unit's frame, written and read (R24, R202, R203): the receiver makes of its bytes the command they carry. -/

set_option Elab.async false

namespace Sys2Proof.Machine

variable {body bs payload : List Byte} {p u kind seq n : Nat} {m : InMsg}

theorem length_crc16Bytes (bs : List Byte) : (crc16Bytes bs).length = 2 := length_be 2 _

theorem length_sealed : (sealed body).length = body.length + 2 := by
  unfold sealed
  rw [List.length_append, length_crc16Bytes]

/-! ### A frame of its whole size with its check (R202, R203) -/

theorem parseStation_sealed (hlen : 4 ≤ (sealed body).length) (hmessage : num (sealed body) 1 1 = 0x10 → 8 ≤ (sealed body).length)
    (hsize : stationSize (sealed body) = some (sealed body).length) :
    parseStation (sealed body) = some (stationContent (sealed body)) := by
  have hcheck : crc16Bytes (slice (sealed body) 0 ((sealed body).length - 2)) =
      slice (sealed body) ((sealed body).length - 2) 2 := by
    rw [length_sealed, Nat.add_sub_cancel]
    unfold sealed
    rw [slice_append_front rfl, slice_append_behind rfl (Nat.le_refl _), Nat.sub_self,
      slice_all (Nat.le_of_eq (length_crc16Bytes body))]
  unfold parseStation
  rw [if_neg (by omega), if_neg (by rintro ⟨htype, hshort⟩; have := hmessage htype; omega), hsize]
  dsimp only
  rw [if_neg (Nat.lt_irrefl _), if_pos ⟨rfl, hcheck⟩]

/-! ### The message frame (R24) -/

theorem stationContent_message (h : num bs 1 1 = 0x10) : stationContent bs = .message (num bs 0 1) (num bs 2 1) (num bs 4 1)
    (parseMessage (num bs 2 1) (num bs 3 1) (slice bs 6 (num bs 5 1))) := by
  simp [stationContent, h]

/-- The bytes of a message frame before its check. -/
def messageBody (p u kind seq : Nat) (payload : List Byte) : List Byte :=
  toByte p :: 0x10 :: toByte u :: toByte kind :: toByte seq :: toByte payload.length :: payload

theorem parseStation_messageFrame (hp : p < 256) (hu : u < 256) (hkind : kind < 256) (hseq : seq < 256)
    (hpayload : payload.length ≤ 250) :
    parseStation (messageFrame p u kind seq payload) = some (.message p u seq (parseMessage u kind payload)) := by
  have hframe : messageFrame p u kind seq payload = sealed (messageBody p u kind seq payload) := rfl
  have hlen : (sealed (messageBody p u kind seq payload)).length = 8 + payload.length := by
    rw [length_sealed]
    show payload.length + 6 + 2 = _
    omega
  have haddr : num (sealed (messageBody p u kind seq payload)) 0 1 = p := num_toByte hp _
  have htype : num (sealed (messageBody p u kind seq payload)) 1 1 = 0x10 := num_toByte (n := 0x10) (by decide) _
  have hunit : num (sealed (messageBody p u kind seq payload)) 2 1 = u := num_toByte hu _
  have hkindRead : num (sealed (messageBody p u kind seq payload)) 3 1 = kind := num_toByte hkind _
  have hseqRead : num (sealed (messageBody p u kind seq payload)) 4 1 = seq := num_toByte hseq _
  have hsizeRead : num (sealed (messageBody p u kind seq payload)) 5 1 = payload.length :=
    num_toByte (n := payload.length) (by omega) _
  have hpayloadRead : slice (sealed (messageBody p u kind seq payload)) 6 payload.length = payload :=
    slice_append_field payload _
  have hsize : stationSize (sealed (messageBody p u kind seq payload)) =
      some (sealed (messageBody p u kind seq payload)).length := by
    unfold stationSize
    rw [htype, hsizeRead, hlen]
    exact if_pos hpayload
  rw [hframe, parseStation_sealed (by omega) (by omega) hsize]
  rw [stationContent_message htype, haddr, hunit, hkindRead, hseqRead, hsizeRead, hpayloadRead]

/-! ### The frames without a message (R24) -/

/-- A frame of four bytes and its check, by its type. -/
theorem parseStation_short {a b c d : Nat} (hd : b = 0x02 ∨ b = 0x20 ∨ b = 0x21 ∨ b = 0x22) :
    parseStation (sealed [toByte a, toByte b, toByte c, toByte d]) =
      some (stationContent (sealed [toByte a, toByte b, toByte c, toByte d])) := by
  have hlen : (sealed [toByte a, toByte b, toByte c, toByte d]).length = 6 := length_sealed
  have htype : num (sealed [toByte a, toByte b, toByte c, toByte d]) 1 1 = b := num_toByte (n := b) (by omega) _
  refine parseStation_sealed (by omega) (by omega) ?_
  unfold stationSize
  rw [hlen, htype]
  rcases hd with rfl | rfl | rfl | rfl <;> rfl

theorem shortFields {a b c d : Nat} (ha : a < 256) (hb : b < 256) (hc : c < 256) (hd : d < 256) :
    num (sealed [toByte a, toByte b, toByte c, toByte d]) 0 1 = a ∧
    num (sealed [toByte a, toByte b, toByte c, toByte d]) 1 1 = b ∧
    num (sealed [toByte a, toByte b, toByte c, toByte d]) 2 1 = c ∧
    num (sealed [toByte a, toByte b, toByte c, toByte d]) 3 1 = d :=
  ⟨num_toByte ha _, num_toByte hb _, num_toByte hc _, num_toByte hd _⟩

theorem parseStation_rollAnswer {presence attention : Nat} (hp : p < 256) (hm : presence < 256) (hn : attention < 256) :
    parseStation (sealed [toByte p, 0x02, toByte presence, toByte attention]) = some (.rollAnswer p presence attention) := by
  obtain ⟨haddr, htype, hfirst, hsecond⟩ := shortFields hp (b := 0x02) (by decide) hm hn
  refine (parseStation_short (.inl rfl)).trans ?_
  simp [stationContent, haddr, htype, hfirst, hsecond]

theorem stationContent_reply {k : ReplyKind} (h : num bs 1 1 = k.code) :
    stationContent bs = .reply k (num bs 0 1) (num bs 2 1) (num bs 3 1) := by
  cases k with
  | accept =>
    have htype : num bs 1 1 = 0x20 := h
    simp [stationContent, htype]
  | reject =>
    have htype : num bs 1 1 = 0x21 := h
    simp [stationContent, htype]
  | busy =>
    have htype : num bs 1 1 = 0x22 := h
    simp [stationContent, htype]

theorem parseStation_reply {k : ReplyKind} (hp : p < 256) (hu : u < 256) (hseq : seq < 256) :
    parseStation (sealed [toByte p, toByte k.code, toByte u, toByte seq]) = some (.reply k p u seq) := by
  have hk : k.code < 256 := by cases k <;> decide
  obtain ⟨haddr, htype, hfirst, hsecond⟩ := shortFields hp hk hu hseq
  rw [parseStation_short (by cases k <;> decide), stationContent_reply htype, haddr, hfirst, hsecond]

theorem stationContent_echo (h : num bs 1 1 = 0x06) : stationContent bs = .echo (num bs 0 1) (num bs 2 1) (slice bs 3 8) := by
  simp [stationContent, h]

theorem parseStation_echo {pattern : List Byte} (hp : p < 256) (hu : u < 256) (hpattern : pattern.length = 8) :
    parseStation (sealed ([toByte p, 0x06, toByte u] ++ pattern)) = some (.echo p u pattern) := by
  have hlen : (sealed ([toByte p, 0x06, toByte u] ++ pattern)).length = 13 := by
    rw [length_sealed, List.length_append, hpattern]
    rfl
  have htype : num (sealed ([toByte p, 0x06, toByte u] ++ pattern)) 1 1 = 0x06 := num_toByte (n := 0x06) (by decide) _
  have haddr : num (sealed ([toByte p, 0x06, toByte u] ++ pattern)) 0 1 = p := num_toByte hp _
  have hunit : num (sealed ([toByte p, 0x06, toByte u] ++ pattern)) 2 1 = u := num_toByte hu _
  have hread : slice (sealed ([toByte p, 0x06, toByte u] ++ pattern)) 3 8 = pattern := slice_append_front hpattern
  have hsize : stationSize (sealed ([toByte p, 0x06, toByte u] ++ pattern)) = some 13 := by
    unfold stationSize
    rw [htype]
    rfl
  rw [parseStation_sealed (by omega) (by omega) (hsize.trans (congrArg some hlen.symm)), stationContent_echo htype, haddr, hunit,
    hread]

/-! ### The command of each frame -/

/-- The frame that a command is the arrival of. -/
def arrival : Instr → Option RxFrame
  | .rollAnswer pos presence attention => some (.rollAnswer pos presence attention)
  | .accept pos unit seq => some (.reply .accept pos unit seq)
  | .reject pos unit seq => some (.reply .reject pos unit seq)
  | .busy pos unit seq => some (.reply .busy pos unit seq)
  | .echo pos unit pattern => some (.echo pos unit pattern)
  | .repeatMessage pos unit kind seq payload => some (.message pos unit seq (parseMessage unit kind payload))
  | .lineBadMessage pos unit kind seq payload => some (.message pos unit seq (parseMessage unit kind payload))
  | .signOn pos seq teller => some (.message pos 0 seq (.signOn teller))
  | .signOff pos seq => some (.message pos 0 seq .signOff)
  | .suspend pos seq => some (.message pos 0 seq .suspend)
  | .resume pos seq teller => some (.message pos 0 seq (.resume teller))
  | .request pos seq r => some (.message pos 0 seq (.request r))
  | .cancel pos seq => some (.message pos 0 seq .cancel)
  | .override pos seq tag decision => some (.message pos 0 seq (.override tag decision))
  | .count pos seq drawer lists => some (.message pos 0 seq (.count drawer lists))
  | .reopen pos seq drawer => some (.message pos 0 seq (.reopen drawer))
  | .acceptDiff pos seq drawer lists => some (.message pos 0 seq (.acceptDiff drawer lists))
  | .form pos seq form => some (.message pos 0 seq (.form form))
  | .close pos seq => some (.message pos 0 seq .close)
  | .bookIn pos seq account layout page place => some (.message pos 1 seq (.bookIn account layout page place))
  | .bookOut pos seq => some (.message pos 1 seq .bookOut)
  | .statusReady pos seq => some (.message pos 1 seq (.status .ready))
  | .lineDone pos seq => some (.message pos 1 seq (.status .lineDone))
  | .jam pos seq => some (.message pos 1 seq (.status .jam))
  | .jamCleared pos seq => some (.message pos 1 seq (.status .jamCleared))
  | .turned pos seq => some (.message pos 1 seq (.status .turned))
  | .opened pos seq => some (.message pos 2 seq .opened)
  | .closed pos seq => some (.message pos 2 seq .closed)
  | .fault pos seq => some (.message pos 2 seq .fault)
  | _ => none

theorem exec_of_arrival {c : Instr} {f : RxFrame} (h : arrival c = some f) (s : State) : exec c s = .next (s.receive f) := by
  cases c <;> cases h <;> rfl

/-- A message frame whose payload is that of a row. -/
theorem parseStation_row (hp : isPosition p = true) (hu : u ≤ 2) (hkind : kind < 256) (hseq : fits8 seq = true)
    (hpayload : payload.length ≤ 250) (hrow : parseMessage u kind payload = m) :
    parseStation (messageFrame p u kind seq payload) = some (.message p u seq m) := by
  have hpos : 1 ≤ p ∧ p ≤ 24 := by simpa [isPosition, inRange] using hp
  rw [parseStation_messageFrame (by omega) (by omega) hkind (of_decide_eq_true hseq) hpayload, hrow]

theorem position_byte (h : isPosition p = true) : p < 256 := by
  have hpos : 1 ≤ p ∧ p ≤ 24 := by simpa [isPosition, inRange] using h
  omega

theorem unit_byte (h : isUnit u = true) : u < 256 := by
  have hunit : u ≤ 2 := of_decide_eq_true h
  omega

theorem requestBytes_fits {r : Request} (h : r.wellFormed = true) : (requestBytes r).length ≤ 250 := by
  simp only [Request.wellFormed, Bool.and_eq_true] at h
  obtain ⟨⟨-, hreq⟩, hhome⟩ := h
  have hreqLen := breakdownBytes_length hreq
  have hhomeLen := breakdownBytes_length hhome
  rw [requestBytes_length]
  omega

theorem listsPayload_fits {lists : List (List Nat)} (h : fitsLists lists = true) :
    (toByte n :: listsBytes lists).length ≤ 250 := by
  have hlen := listsBytes_length h
  rw [List.length_cons]
  omega

/-- The receiver makes of a well-formed command's bytes the frame that the command is the arrival of. -/
theorem parseStation_stationFrame {c : Instr} (hc : c.wellFormed = true) (h : stationFrame c = some bs) :
    ∃ f, arrival c = some f ∧ parseStation bs = some f := by
  cases c
  all_goals simp only [Instr.wellFormed, Bool.and_eq_true, fits16, decide_eq_true_eq] at hc
  case rollAnswer pos presence attention =>
    obtain ⟨⟨hp, hm⟩, hn⟩ := hc
    cases h
    exact ⟨_, rfl, parseStation_rollAnswer (position_byte hp) (of_decide_eq_true hm) (of_decide_eq_true hn)⟩
  case accept pos unit seq =>
    obtain ⟨⟨hp, hu⟩, hs⟩ := hc
    cases h
    exact ⟨_, rfl, parseStation_reply (k := .accept) (position_byte hp) (unit_byte hu) (of_decide_eq_true hs)⟩
  case reject pos unit seq =>
    obtain ⟨⟨hp, hu⟩, hs⟩ := hc
    cases h
    exact ⟨_, rfl, parseStation_reply (k := .reject) (position_byte hp) (unit_byte hu) (of_decide_eq_true hs)⟩
  case busy pos unit seq =>
    obtain ⟨⟨hp, hu⟩, hs⟩ := hc
    cases h
    exact ⟨_, rfl, parseStation_reply (k := .busy) (position_byte hp) (unit_byte hu) (of_decide_eq_true hs)⟩
  case echo pos unit pattern =>
    obtain ⟨⟨hp, hu⟩, hlen⟩ := hc
    cases h
    exact ⟨_, rfl, parseStation_echo (position_byte hp) (unit_byte hu) (eq_of_beq hlen)⟩
  case repeatMessage pos unit kind seq payload | lineBadMessage pos unit kind seq payload =>
    obtain ⟨⟨⟨⟨hp, hu⟩, hk⟩, hs⟩, hlen⟩ := hc
    cases h
    exact ⟨_, rfl, parseStation_row hp (of_decide_eq_true hu) (of_decide_eq_true hk) hs hlen rfl⟩
  case signOn pos seq teller =>
    obtain ⟨⟨hp, hs⟩, ht⟩ := hc
    cases h
    exact ⟨_, rfl, parseStation_row hp (by decide) (by decide) hs (by simp) (parseMessage_signOn ht)⟩
  case resume pos seq teller =>
    obtain ⟨⟨hp, hs⟩, ht⟩ := hc
    cases h
    exact ⟨_, rfl, parseStation_row hp (by decide) (by decide) hs (by simp) (parseMessage_resume ht)⟩
  case request pos seq r =>
    obtain ⟨⟨hp, hs⟩, hr⟩ := hc
    cases h
    exact ⟨_, rfl, parseStation_row hp (by decide) (by decide) hs (requestBytes_fits hr) (parseMessage_request hr)⟩
  case override pos seq tag decision =>
    obtain ⟨⟨⟨hp, hs⟩, ht⟩, hd⟩ := hc
    cases h
    exact ⟨_, rfl, parseStation_row hp (by decide) (by decide) hs (by simp) (parseMessage_override ht (of_decide_eq_true hd))⟩
  case count pos seq drawer lists =>
    obtain ⟨⟨⟨hp, hs⟩, hd⟩, hl⟩ := hc
    cases h
    exact ⟨_, rfl, parseStation_row hp (by decide) (by decide) hs (listsPayload_fits hl) (parseMessage_count (of_decide_eq_true hd) hl)⟩
  case acceptDiff pos seq drawer lists =>
    obtain ⟨⟨⟨hp, hs⟩, hd⟩, hl⟩ := hc
    cases h
    exact ⟨_, rfl, parseStation_row hp (by decide) (by decide) hs (listsPayload_fits hl) (parseMessage_acceptDiff (of_decide_eq_true hd) hl)⟩
  case reopen pos seq n =>
    obtain ⟨⟨hp, hs⟩, hn⟩ := hc
    cases h
    exact ⟨_, rfl, parseStation_row hp (by decide) (by decide) hs (by simp) (parseMessage_reopen (of_decide_eq_true hn))⟩
  case form pos seq n =>
    obtain ⟨⟨hp, hs⟩, hn⟩ := hc
    cases h
    exact ⟨_, rfl, parseStation_row hp (by decide) (by decide) hs (by simp) (parseMessage_form (of_decide_eq_true hn))⟩
  case bookIn pos seq account layout page place =>
    obtain ⟨⟨⟨⟨⟨hp, hs⟩, ha⟩, hl⟩, hg⟩, hn⟩ := hc
    cases h
    exact ⟨_, rfl, parseStation_row hp (by decide) (by decide) hs (by simp) (parseMessage_bookIn ha (of_decide_eq_true hl) (of_decide_eq_true hg) (of_decide_eq_true hn))⟩
  case signOff pos seq | suspend pos seq | cancel pos seq | close pos seq | bookOut pos seq | statusReady pos seq |
      lineDone pos seq | jam pos seq | jamCleared pos seq | turned pos seq | opened pos seq | closed pos seq |
      fault pos seq =>
    obtain ⟨hp, hs⟩ := hc
    cases h
    exact ⟨_, rfl, parseStation_row hp (by decide) (by decide) hs (by decide) rfl⟩
  all_goals cases h

end Sys2Proof.Machine

namespace Sys2Proof.Proofs

open Sys2Proof.Machine Sys2Proof.Machine.State

/-- Settles O53: the frame that the receiver makes of the bytes is the one that the command is the arrival of. -/
theorem stationBytesAreTheirCommand : Obligations.StationBytesAreTheirCommand := by
  unfold Obligations.StationBytesAreTheirCommand
  intro c bytes s hc h
  obtain ⟨f, harrival, hparsed⟩ := parseStation_stationFrame hc h
  rw [exec_of_arrival harrival]
  show Host.Outcome.next (s.receiveBytes bytes) = _
  rw [receiveBytes_of hparsed]

end Sys2Proof.Proofs
end

