-- ==== Sys2Proof/Proofs/OfficeFrames.lean ====
section
/-! A downward frame of the office link, written and read (R1, R202), and the command that it carries (R3, R7). -/

set_option Elab.async false

namespace Sys2Proof.Machine

variable {kind tag node n : Nat} {payload bs : List Byte} {c : Byte}

/-- The bytes of an office-link frame before its check. -/
def officeBody (kind node : Byte) (tag : Nat) (payload : List Byte) : List Byte :=
  kind :: node :: (be 2 tag ++ (be 2 payload.length ++ payload))

theorem officeFrame_eq (kind node : Byte) (tag : Nat) (payload : List Byte) :
    officeFrame kind node tag payload = sealed (officeBody kind node tag payload) := by
  simp [officeFrame, sealed, officeBody]

theorem length_officeBody (kind node : Byte) : (officeBody kind node tag payload).length = 6 + payload.length := by
  simp [officeBody]
  omega

/-- A downward frame of a sound size is read as it was written (R1). -/
theorem parseOffice_officeFrame (hkind : 1 ≤ kind ∧ kind ≤ 4) (hnode : node < 256) (htag : tag < 65536)
    (hpayload : payload.length ≤ 1024) : parseOffice (officeFrame (toByte kind) (toByte node) tag payload) =
    some { kind := kind, node := node, tag := tag, payload := payload } := by
  rw [officeFrame_eq]
  have hbody := length_officeBody (toByte kind) (toByte node) (tag := tag) (payload := payload)
  have hlen : (sealed (officeBody (toByte kind) (toByte node) tag payload)).length = 8 + payload.length := by
    rw [length_sealed, hbody]
    omega
  have hkindRead : num (sealed (officeBody (toByte kind) (toByte node) tag payload)) 0 1 = kind :=
    num_toByte (n := kind) (by omega) _
  have hnodeRead : num (sealed (officeBody (toByte kind) (toByte node) tag payload)) 1 1 = node := num_toByte hnode _
  have hfields : sealed (officeBody (toByte kind) (toByte node) tag payload) = toByte kind :: toByte node ::
      (be 2 tag ++ (be 2 payload.length ++
        (payload ++ crc16Bytes (officeBody (toByte kind) (toByte node) tag payload)))) := by
    simp [sealed, officeBody]
  have htagRead : num (sealed (officeBody (toByte kind) (toByte node) tag payload)) 2 2 = tag := by
    rw [hfields]
    exact num_be_append_of_lt htag _
  have hsizeRead : num (sealed (officeBody (toByte kind) (toByte node) tag payload)) 4 2 = payload.length := by
    rw [hfields]
    exact (num_append_behind (xs := be 2 tag) (length_be 2 tag) (Nat.le_refl 2)).trans
      (num_be_append_of_lt (n := payload.length) (by omega) _)
  have hpayloadRead : slice (sealed (officeBody (toByte kind) (toByte node) tag payload)) 6 payload.length = payload := by
    rw [hfields]
    show slice (be 2 tag ++ _) 4 payload.length = _
    rw [slice_append_behind (length_be 2 tag) (by decide), slice_append_behind (length_be 2 _) (by decide),
      slice_append_field]
  have hcheck : crc16Bytes (slice (sealed (officeBody (toByte kind) (toByte node) tag payload)) 0 (6 + payload.length)) =
      slice (sealed (officeBody (toByte kind) (toByte node) tag payload)) (6 + payload.length) 2 := by
    unfold sealed
    rw [slice_append_front hbody, slice_append_behind hbody (Nat.le_refl _), Nat.sub_self,
      slice_all (Nat.le_of_eq (length_crc16Bytes _))]
  have hdownward : inRange 1 4 kind = true := by simpa [inRange] using hkind
  unfold parseOffice
  dsimp only
  rw [hsizeRead, hkindRead, hnodeRead, htagRead, hpayloadRead, if_pos ⟨by omega, hpayload, hlen, hdownward, hcheck⟩]

namespace State

variable {s : State}

/-- The frame of a sound size at the part's own node goes on to the owner of its kind (R1 to R3). -/
theorem exec_badFrame_own (hnode : s.port.node < 256) (hkind : 1 ≤ kind ∧ kind ≤ 4) (htag : tag < 65536)
    (hpayload : payload.length ≤ 1024) :
    exec (.badFrame (officeFrame (toByte kind) (toByte s.port.node) tag payload)) s = .next (s.route kind tag payload) := by
  show Host.Outcome.next (s.receiveOffice _) = _
  unfold receiveOffice
  rw [parseOffice_officeFrame hkind hnode htag hpayload]
  exact congrArg Host.Outcome.next (s.filterNode_own kind tag payload)

theorem takeMgmt_unknown (hc : knownRequest c = false) : s.takeMgmt tag (c :: bs) = s.mgmtUnknown c tag := by
  have hrange : ¬ (1 ≤ c.toNat ∧ c.toNat ≤ 18) := by simpa [knownRequest, inRange] using hc
  unfold takeMgmt
  dsimp only
  split
  all_goals first | omega | rfl

end State

/-- The owner of a frame's kind takes it as the command that the frame carries (R3, R7). -/
theorem route_officeParts {c : Instr} {s : State} (hc : c.wellFormed = true) (h : officeParts c = some (kind, tag, payload))
    (hstraps : ∀ n params straps, c = .restart n params straps → straps = s.port.straps) :
    (1 ≤ kind ∧ kind ≤ 4) ∧ tag < 65536 ∧ payload.length ≤ 1024 ∧ exec c s = .next (s.route kind tag payload) := by
  cases c
  all_goals simp only [Instr.wellFormed, Bool.and_eq_true, fits16, fitsParams, decide_eq_true_eq] at hc
  case answer n bytes =>
    obtain ⟨hn, hlen⟩ := hc
    cases h
    exact ⟨by decide, hn, hlen, rfl⟩
  case batchAck n | batchNack n =>
    cases h
    exact ⟨by decide, hc, by decide, rfl⟩
  case identify n params | readStatus n params | readCounters n params | tableWrite n params | tableRead n params |
      lock n params | openDay n params | cutoff n params | reopenDay n params | resumeBatch n params | readDrawer n params |
      readSession n params | readPending n params | readJournal n params | startSurvey n params |
      readSurveyPosition n params | readSurveySummary n params =>
    obtain ⟨hn, hlen⟩ := hc
    cases h
    exact ⟨by decide, hn, by rw [List.length_cons]; omega, rfl⟩
  case restart n params straps =>
    obtain ⟨⟨hn, hlen⟩, -⟩ := hc
    cases h
    rw [hstraps _ params straps rfl]
    exact ⟨by decide, hn, by rw [List.length_cons]; omega, rfl⟩
  case unknown code n params =>
    obtain ⟨⟨hcode, hn⟩, hlen⟩ := hc
    cases h
    refine ⟨by decide, hn, by rw [List.length_cons]; omega, ?_⟩
    have hunknown : s.takeMgmt tag (code :: params) = s.mgmtUnknown code tag :=
      State.takeMgmt_unknown (by rwa [Bool.not_eq_true'] at hcode)
    exact congrArg Host.Outcome.next hunknown.symm
  all_goals cases h

end Sys2Proof.Machine

namespace Sys2Proof.Proofs

open Sys2Proof.Machine Sys2Proof.Machine.State

/-- Settles O54: the bytes are read as the frame, which the owner of its kind takes as the command. -/
theorem officeBytesAreTheirCommand : Obligations.OfficeBytesAreTheirCommand := by
  unfold Obligations.OfficeBytesAreTheirCommand
  intro c kind tag payload s hc h hnode1 hnode254 hstraps
  obtain ⟨hkind, htag, hpayload, hcommand⟩ := route_officeParts hc h hstraps
  rw [hcommand]
  exact exec_badFrame_own (by omega) hkind htag hpayload

end Sys2Proof.Proofs
end

