-- ==== Sys2Proof/Proofs/TableStore.lean ====
section
/-! The table store (R13, R17): what a content spells, and what is read once an entry is stored. -/

set_option Elab.async false

namespace Sys2Proof.Machine

variable {x y : Section} {i j : Nat} {e : TableEntry} {bs : List Byte}

/-! ### PARAMS (R17) -/

theorem clamp_eq {lo hi : Nat} (h : lo ≤ hi) (n : Nat) : clamp lo hi n = max lo (min n hi) := by
  unfold clamp
  split
  · omega
  · split <;> omega

theorem parseContent_params (h : num bs 0 1 ≠ 0) : parseContent .params bs = some (.params (parseParams bs)) := by
  have hdefined : (num bs 0 1 != 0) = true := bne_iff_ne.mpr h
  show (if (num bs 0 1 != 0) = true then _ else _) = _
  rw [if_pos hdefined]

/-! ### The section of an entry -/

/-- The section that an entry belongs to. -/
def TableEntry.place : TableEntry → Section
  | .params _ => .params | .position _ => .positions | .currency _ => .currencies | .rate _ => .rates | .code _ => .codes
  | .teller _ => .tellers | .form _ => .forms | .field _ => .fields | .text _ => .texts | .message _ => .messages
  | .layout _ => .layouts | .surveyMask _ => .surveyMask

/-- A content spells an entry of its own section. -/
theorem parseContent_place (h : parseContent x bs = some e) : e.place = x := by
  unfold parseContent at h
  cases x <;> dsimp only at h <;> split at h <;> simp only [Option.map_eq_some_iff, Option.some.injEq, reduceCtorEq] at h
  all_goals
    obtain ⟨_, -, rfl⟩ := h
    rfl

namespace Tables

variable {t : Tables}

theorem read_store_same (hi : e.place.hasIndex i = true) : (t.store i e).read e.place i = e := by
  cases e with
  | params p => rfl
  | surveyMask ps => rfl
  | position a =>
    have hrange : 1 ≤ i ∧ i ≤ 24 := by simpa [TableEntry.place, Section.hasIndex, inRange] using hi
    exact congrArg TableEntry.position (rd1_wr1_same t.positions hrange a none)
  | rate a =>
    have hrange : 1 ≤ i ∧ i ≤ 3 := by simpa [TableEntry.place, Section.hasIndex, inRange] using hi
    exact congrArg TableEntry.rate (rd1_wr1_same t.rates hrange a none)
  | currency a =>
    have hrange : i ≤ 3 := by simpa [TableEntry.place, Section.hasIndex, inRange] using hi
    exact congrArg TableEntry.currency (rd_wr_same t.currencies (by omega) a none)
  | code a =>
    have hrange : i ≤ 127 := by simpa [TableEntry.place, Section.hasIndex, inRange] using hi
    exact congrArg TableEntry.code (rd_wr_same t.codes (by omega) a none)
  | teller a =>
    have hrange : i ≤ 63 := by simpa [TableEntry.place, Section.hasIndex, inRange] using hi
    exact congrArg TableEntry.teller (rd_wr_same t.tellers (by omega) a none)
  | form a =>
    have hrange : i ≤ 31 := by simpa [TableEntry.place, Section.hasIndex, inRange] using hi
    exact congrArg TableEntry.form (rd_wr_same t.forms (by omega) a none)
  | field a =>
    have hrange : i ≤ 511 := by simpa [TableEntry.place, Section.hasIndex, inRange] using hi
    exact congrArg TableEntry.field (rd_wr_same t.fields (by omega) a none)
  | text a =>
    have hrange : i ≤ 127 := by simpa [TableEntry.place, Section.hasIndex, inRange] using hi
    exact congrArg TableEntry.text (rd_wr_same t.texts (by omega) a none)
  | message a =>
    have hrange : i ≤ 63 := by simpa [TableEntry.place, Section.hasIndex, inRange] using hi
    exact congrArg TableEntry.message (rd_wr_same t.messages (by omega) a none)
  | layout a =>
    have hrange : i ≤ 7 := by simpa [TableEntry.place, Section.hasIndex, inRange] using hi
    exact congrArg TableEntry.layout (rd_wr_same t.layouts (by omega) a none)

/-- The other sections keep every entry. -/
theorem read_store_section (h : y ≠ e.place) (j : Nat) : (t.store i e).read y j = t.read y j := by
  cases e <;> cases y <;> first | rfl | exact absurd rfl h

/-- The section keeps every other entry. -/
theorem read_store_other (hj : e.place.hasIndex j = true) (hi : e.place.hasIndex i = true) (h : j ≠ i) :
    (t.store i e).read e.place j = t.read e.place j := by
  have hne := Ne.symm h
  cases e with
  | params p =>
    have hzero : i = 0 ∧ j = 0 := ⟨beq_iff_eq.mp hi, beq_iff_eq.mp hj⟩
    omega
  | surveyMask ps =>
    have hzero : i = 0 ∧ j = 0 := ⟨beq_iff_eq.mp hi, beq_iff_eq.mp hj⟩
    omega
  | position a => exact congrArg TableEntry.position (rd1_wr1_other t.positions hne a none)
  | rate a => exact congrArg TableEntry.rate (rd1_wr1_other t.rates hne a none)
  | currency a => exact congrArg TableEntry.currency (rd_wr_other t.currencies hne a none)
  | code a => exact congrArg TableEntry.code (rd_wr_other t.codes hne a none)
  | teller a => exact congrArg TableEntry.teller (rd_wr_other t.tellers hne a none)
  | form a => exact congrArg TableEntry.form (rd_wr_other t.forms hne a none)
  | field a => exact congrArg TableEntry.field (rd_wr_other t.fields hne a none)
  | text a => exact congrArg TableEntry.text (rd_wr_other t.texts hne a none)
  | message a => exact congrArg TableEntry.message (rd_wr_other t.messages hne a none)
  | layout a => exact congrArg TableEntry.layout (rd_wr_other t.layouts hne a none)

theorem read_store_kept (hi : x.hasIndex i = true) (he : e.place = x) (hj : y.hasIndex j = true) (h : (y, j) ≠ (x, i)) :
    (t.store i e).read y j = t.read y j := by
  subst he
  by_cases hy : y = e.place
  · subst hy
    exact read_store_other hj hi fun hc => h (by rw [hc])
  · exact read_store_section hy j

/-! ### Tellers (R49, R51) -/

theorem mem_tellers {k : TellerEntry} (h : k ∈ t.tellers.toList.filterMap id) : ∃ j, j < 64 ∧ rd t.tellers j none = some k := by
  obtain ⟨o, ho, hk⟩ := List.mem_filterMap.mp h
  obtain ⟨j, hj, hget⟩ := List.getElem_of_mem ho
  have hlt : j < 64 := by simpa using hj
  refine ⟨j, hlt, ?_⟩
  have hvalue : t.tellers[j] = o := by simpa using hget
  simp only [rd, Vector.getElem?_eq_getElem hlt, hvalue, Option.getD_some]
  exact hk

/-- A stored teller entry is the one that its id finds (R15, R49). -/
theorem findTeller_stored {k : TellerEntry} (hi : i ≤ 63) (hfree : tellerFree t i k.id = true) :
    (t.store i (.teller (some k))).findTeller k.id = some k := by
  have hstored : rd (t.store i (.teller (some k))).tellers i none = some k := rd_wr_same t.tellers (by omega) _ _
  have hmem : k ∈ (t.store i (.teller (some k))).tellers.toList.filterMap id := by
    refine List.mem_filterMap.mpr ⟨some k, ?_, rfl⟩
    have hget : (t.store i (.teller (some k))).tellers[i]'(by omega) = some k := by
      simpa [rd, Vector.getElem?_eq_getElem (show i < 64 by omega)] using hstored
    have hin := Vector.getElem_mem (xs := (t.store i (.teller (some k))).tellers) (i := i) (by omega)
    rw [hget] at hin
    exact Vector.mem_toList_iff.mpr hin
  have hsome : ((t.store i (.teller (some k))).findTeller k.id).isSome = true :=
    List.find?_isSome.mpr ⟨k, hmem, beq_self_eq_true _⟩
  obtain ⟨f, hf⟩ := Option.isSome_iff_exists.mp hsome
  have hid : f.id = k.id := by
    have hfound := List.find?_some hf
    rwa [beq_iff_eq] at hfound
  obtain ⟨j, hj, hread⟩ := mem_tellers (List.mem_of_find?_eq_some hf)
  by_cases hij : i = j
  · subst hij
    rw [hstored] at hread
    cases hread
    exact hf
  · have hold : rd t.tellers j none = some f := by
      rw [← hread]
      exact (rd_wr_other t.tellers hij _ _).symm
    have hother := List.all_eq_true.mp hfree j (List.mem_range.mpr hj)
    rw [hold] at hother
    have hji : (j == i) = false := beq_false_of_ne (Ne.symm hij)
    simp [hji, hid] at hother

end Tables

end Sys2Proof.Machine
end

