-- ==== Sys2Proof/Proofs/TableWrites.lean ====
section
/-! What an accepted TABLE WRITE does outside the table store (R16, R51, R94, R135, R141). -/

set_option Elab.async false

namespace Sys2Proof.Machine

open Screen

variable {tb : Tables} {i p : Nat}

namespace Screen

/-- A full refresh: every row dirty and clear-pending set; the urgent flag may only fall (R143, R144). -/
theorem refresh_eq (x : Screen) : x.refresh tb = { x with
    dirty := List.range' 1 24, clearPending := true, urgent := (x.refresh tb).urgent } := settle_eq tb x.allDirty

theorem urgent_of_refresh {x : Screen} (h : (x.refresh tb).urgent = true) : x.urgent = true :=
  urgent_of_settle_urgent (sc := x.allDirty) h

end Screen

/-! ### The own drawer once a position is written (R50) -/

/-- A changed own drawer is an even position's. -/
theorem ownDrawer_changed {new : Tables} (h : tb.ownDrawer (i + 1) ≠ new.ownDrawer (i + 1)) : (i + 1) % 2 = 0 := by
  by_contra hodd
  unfold Tables.ownDrawer at h
  rw [if_neg fun hc => hodd hc.1, if_neg fun hc => hodd hc.1] at h
  exact h rfl

namespace State

variable {s : State}

theorem inRun_iff {first count i : Nat} : (inRange first (first + count - 1) i && count != 0) = true ↔
    first ≤ i ∧ i < first + count := by
  simp only [inRange, Bool.and_eq_true, decide_eq_true_eq, bne_iff_ne]
  omega

theorem formCovers_iff {f : Nat} : formCovers tb i f = true ↔ ∃ e, tb.form f = some e ∧
    ((e.setA.first ≤ i ∧ i < e.setA.first + e.setA.count) ∨ (e.setB.first ≤ i ∧ i < e.setB.first + e.setB.count)) := by
  unfold formCovers
  cases tb.form f with
  | none => simp
  | some e => simp only [Bool.or_eq_true, inRun_iff, Option.some.injEq, exists_eq_left']

/-! ### Screens refreshed or marked (R16, R141, R143) -/

theorem refreshForms_screen (test : Nat → Bool) (hp : 1 ≤ p ∧ p ≤ 24) : (s.refreshForms test).screen p =
    if test (s.screen p).form = true then (s.screen p).refresh s.tables else s.screen p := by
  have hrun := s.onScreens_screen (ps := allPositions.filter (fun p => test (s.screen p).form))
    (allPositions_nodup.filter _) (fun q hq => mem_allPositions.mp (List.mem_filter.mp hq).1) (fun t sc => sc.refresh t) p
  refine hrun.trans ?_
  by_cases htest : test (s.screen p).form = true
  · rw [if_pos htest, if_pos (List.mem_filter.mpr ⟨mem_allPositions.mpr hp, htest⟩)]
  · have hout : p ∉ allPositions.filter (fun p => test (s.screen p).form) := fun hc => htest (List.mem_filter.mp hc).2
    rw [if_neg htest, if_neg hout]

theorem marked_of {t : State} {touched : Source → Bool} (h : t.screen p = (s.screen p).mark t.tables touched) :
    Marked s t p touched :=
  ⟨by rw [h]; rfl, fun r => by rw [h]; exact mem_mark⟩

/-! ### The role copied to the teller's sessions (R51) -/

/-- A session with its teller's role as the tables have it (R51). -/
def withRole (tb : Tables) (x : Session) : Session :=
  match x.teller.bind tb.findTeller with
  | some e => { x with role := some e.role }
  | none => x

theorem copyRole_session_other {p q : Nat} (h : p ≠ q) : (s.copyRole p).session q = s.session q := by
  unfold copyRole
  split
  · rfl
  · split
    · exact session_setSession_other h _
    · rfl

theorem copyRole_screen_other {p q : Nat} (h : p ≠ q) : (s.copyRole p).screen q = s.screen q := by
  unfold copyRole
  split
  · rfl
  · split
    · exact screen_setSession_other s (Ne.symm h) _
    · rfl

theorem copyRole_session_same (hp : 1 ≤ p ∧ p ≤ 24) : (s.copyRole p).session p = withRole s.tables (s.session p) := by
  unfold copyRole withRole
  cases hteller : (s.session p).teller with
  | none => rfl
  | some n =>
    cases hfound : s.tables.findTeller n with
    | none => simp [hfound]
    | some e => simp [hteller, hfound, session_setSession s hp]

/-- Each session of the listed positions has its role copied, and the others stay. -/
theorem copyRoles_session {ps : List Nat} (hps : ps.Nodup) (hin : ∀ p ∈ ps, 1 ≤ p ∧ p ≤ 24) (q : Nat) :
    (ps.foldl copyRole s).session q = if q ∈ ps then withRole s.tables (s.session q) else s.session q :=
  foldl_places session copyRole (fun t _ x => withRole t.tables x) (fun _ _ _ h => copyRole_session_other h)
    (fun t i _ x => by rw [copyRole_tables]) (fun _ p hp => copyRole_session_same (hin p hp)) hps s q

theorem copyRoles_screen_other {ps : List Nat} {q : Nat} (h : q ∉ ps) : (ps.foldl copyRole s).screen q = s.screen q := by
  induction ps generalizing s with
  | nil => rfl
  | cons p ps ih =>
    rw [List.foldl_cons, ih fun hc => h (List.mem_cons_of_mem _ hc)]
    exact copyRole_screen_other fun hc => h (hc ▸ List.mem_cons_self)

/-! ### A position written (R94, R135) -/

theorem reevaluate_screen_other {p q : Nat} (h : q ≠ p) : (s.reevaluate p).screen q = s.screen q := screen_onScreen_other s h _

theorem reevaluateAll_screen_other {ps : List Nat} {q : Nat} (h : q ∉ ps) : (s.reevaluateAll ps).screen q = s.screen q := by
  unfold reevaluateAll
  induction ps generalizing s with
  | nil => rfl
  | cons p ps ih =>
    rw [List.foldl_cons, ih fun hc => h (List.mem_cons_of_mem _ hc)]
    exact reevaluate_screen_other fun hc => h (hc ▸ List.mem_cons_self)

/-- The drawer whose serving unit a POSITIONS write gave or took (R94). -/
theorem servingChanged_drawer (d : Nat) : (s.servingChanged i).drawer d = if i = d ∧ i < 25 then
      (if s.tables.serving i = true then { s.drawer i with physical := .unknown }
      else { s.drawer i with physical := .closed, openAlarm := none, releasePending := false, releaseDelivered := false
                             openLong := false, forced := false })
    else s.drawer d := by
  unfold servingChanged
  split
  · exact drawer_setDrawer ..
  · rw [drawer_congr (alertReport_within _ i .drawers (by decide))]
    exact drawer_setDrawer ..

theorem servingChanged_screen_other {q : Nat} (h : s.tables.ownDrawer q ≠ i) : (s.servingChanged i).screen q = s.screen q := by
  unfold servingChanged
  split
  · rfl
  · refine reevaluateAll_screen_other fun hc => h ?_
    have hown := (List.mem_filter.mp hc).2
    rwa [beq_iff_eq] at hown

/-- The state once the serving unit has been seen to. -/
def servingSeen (s : State) (old : Tables) (i : Nat) : State :=
  if old.serving i = s.tables.serving i then s else s.servingChanged i

theorem positionWritten_eq (old : Tables) (i : Nat) : s.positionWritten old i =
    if old.ownDrawer (i + 1) = (s.servingSeen old i).tables.ownDrawer (i + 1) then s.servingSeen old i
    else ((s.servingSeen old i).reevaluate (i + 1)).touch [i + 1] anyDrawerSource := rfl

theorem servingSeen_within (old : Tables) (i : Nat) : Within [.drawers, .screens] s (s.servingSeen old i) := by
  unfold servingSeen
  split
  · exact .refl _ s
  · exact servingChanged_within s i

theorem servingSeen_drawer (old : Tables) {d : Nat} (hd : d ≤ 24) : (s.servingSeen old i).drawer d =
    if d ≠ i ∨ old.serving i = s.tables.serving i then s.drawer d
    else if s.tables.serving i = true then { s.drawer d with physical := .unknown }
    else { s.drawer d with physical := .closed, openAlarm := none, releasePending := false, releaseDelivered := false
                           openLong := false, forced := false } := by
  unfold servingSeen
  by_cases hsame : old.serving i = s.tables.serving i
  · rw [if_pos hsame, if_pos (.inr hsame)]
  · rw [if_neg hsame, servingChanged_drawer]
    by_cases hdi : d = i
    · subst hdi
      have hneither : ¬ (d ≠ d ∨ old.serving d = s.tables.serving d) := fun hc => hc.elim (fun hne => hne rfl) hsame
      rw [if_pos ⟨rfl, by omega⟩, if_neg hneither]
    · rw [if_neg (fun hc => hdi hc.1.symm), if_pos (.inl hdi)]

theorem servingSeen_screen_other (old : Tables) {q : Nat} (h : s.tables.ownDrawer q ≠ i) :
    (s.servingSeen old i).screen q = s.screen q := by
  unfold servingSeen
  split
  · rfl
  · exact servingChanged_screen_other h

theorem positionWritten_drawer (old : Tables) (d : Nat) : (s.positionWritten old i).drawer d = (s.servingSeen old i).drawer d := by
  rw [positionWritten_eq]
  split
  · rfl
  · exact drawer_congr (((touch_within _ _ _).after (reevaluate_within (s.servingSeen old i) (i + 1))) .drawers (by decide)) d

theorem positionWritten_screen_other (old : Tables) {q : Nat} (hq : q ≠ i + 1) (h : s.tables.ownDrawer q ≠ i) :
    (s.positionWritten old i).screen q = s.screen q := by
  rw [positionWritten_eq]
  split
  · exact servingSeen_screen_other old h
  · rw [touch, onScreens, List.foldl_cons, List.foldl_nil, screen_onScreen_other _ hq, reevaluate_screen_other hq,
      servingSeen_screen_other old h]

/-- The partner whose own drawer the write changed has its ALERT re-evaluated and its drawer rows marked (R135, R141). -/
theorem positionWritten_screen (old : Tables) (hp : 1 ≤ i + 1 ∧ i + 1 ≤ 24)
    (h : old.ownDrawer (i + 1) ≠ s.tables.ownDrawer (i + 1)) :
    ((s.positionWritten old i).screen (i + 1)).alert =
      ((s.positionWritten old i).drawer (s.tables.ownDrawer (i + 1))).anyAlert ∧
    ∀ r, ((s.positionWritten old i).screen (i + 1)).holds s.tables anyDrawerSource r = true → 1 ≤ r → r ≤ 24 →
      r ∈ ((s.positionWritten old i).screen (i + 1)).dirty := by
  have htables : (s.servingSeen old i).tables = s.tables := servingSeen_within old i .tables (by decide)
  have hscreen : (s.positionWritten old i).screen (i + 1) =
      (((s.servingSeen old i).reevaluate (i + 1)).screen (i + 1)).mark s.tables anyDrawerSource := by
    rw [positionWritten_eq, htables, if_neg h, touch_screen _ (by simp) (by simpa using hp.2), if_pos (by simp),
      reevaluate_within _ (i + 1) .tables (by decide), htables]
  rw [hscreen, positionWritten_drawer]
  refine ⟨?_, fun r hr h1 h24 => mem_mark.mpr ⟨h1, h24, .inr hr⟩⟩
  show (((s.servingSeen old i).reevaluate (i + 1)).screen (i + 1)).alert = _
  rw [reevaluate, screen_onScreen_same _ hp, setConditions_alert, alertNow, htables]

end State

end Sys2Proof.Machine
end

