-- ==== Sys2Proof/Proofs/TableWriteStores.lean ====
section
/-! A TABLE WRITE that passes every check (R13): the entry stored whole, the reply, and the effects by the entry's kind. -/

set_option Elab.async false

namespace Sys2Proof.Machine.State

variable {s t : State} {x : Section} {i tag : Nat} {e : TableEntry} {intent : Byte} {content : List Byte}

/-- The tables as they stand once the entry is stored. -/
def stored (s : State) (i : Nat) (e : TableEntry) : State := s.withTables (s.tables.store i e)

theorem storeEntry_eq (i : Nat) (e : TableEntry) : s.storeEntry i e = (s.stored i e).afterWrite s.tables i e := rfl

theorem tableWrite_stores (hindex : x.hasIndex i = true) (hintent : intent ≠ 0) (hsize : content.length = x.size)
    (hwritable : s.writable x = true) (hidle : ¬ (x = .surveyMask ∧ s.survey.state = .running))
    (hparse : parseContent x content = some e) (hsound : e.sound i = true) (hagrees : e.agrees s.tables i = true)
    (hcross : s.lock ≠ 0 → (s.tables.store i e).crossCheck = none) (hfree : s.inUse i e = false) :
    exec (.tableWrite tag (toByte x.code :: be 2 i ++ intent :: content)) s =
      .next ((s.storeEntry i e).reply 0x03 tag (.done (0 :: e.bytes))) := by
  have hset : (intent != 0) = true := bne_iff_ne.mpr hintent
  have hlive : (if s.lock = 0 then none else (s.tables.store i e).crossCheck) = none := by
    split
    · rfl
    · next hlock => exact hcross hlock
  have hplace : e.place = x := parseContent_place hparse
  have hread : (s.tables.store i e).read x i = e := by
    subst hplace
    exact Tables.read_store_same hindex
  have hwrite : s.tableWrite (toByte x.code :: be 2 i ++ intent :: content) = (s.storeEntry i e, .done (0 :: e.bytes)) := by
    rw [s.tableWrite_of_section x (Section.index_lt hindex) intent hsize, hset,
      s.writeSection_of_writable hindex hwritable hidle content, s.writeChecked_of_passed hparse hsound hagrees hlive,
      if_neg (by rw [hfree]; exact Bool.false_ne_true), hread]
  exact congrArg Host.Outcome.next (mgmtTableWrite_of s hwrite)

/-- What an accepted write may change, beside the reply's port and counters. -/
theorem storeEntry_state (i : Nat) (e : TableEntry) : s.storeEntry i e = { s with
    tables := s.tables.store i e, sessions := (s.storeEntry i e).sessions, drawers := (s.storeEntry i e).drawers
    screens := (s.storeEntry i e).screens } := by
  have hmerge := (afterWrite_within (s.stored i e) s.tables i e).eq_merge
  rw [storeEntry_eq]
  generalize (s.stored i e).afterWrite s.tables i e = u at hmerge ⊢
  rw [hmerge]
  rfl

theorem reply_state (code : Byte) (v : Verdict) : t.reply code tag v = { t with
    port := (t.reply code tag v).port, counters := (t.reply code tag v).counters } := by
  have hmerge := (reply_within t code tag v).eq_merge
  generalize t.reply code tag v = u at hmerge ⊢
  rw [hmerge]
  rfl

/-! ### The effects by kind -/

/-- A state that shows the blocks as they stand after the write. -/
structure Written (s : State) (i : Nat) (e : TableEntry) (t : State) : Prop where
  tables : t.tables = s.tables.store i e
  sessions : t.sessions = (s.storeEntry i e).sessions
  drawers : t.drawers = (s.storeEntry i e).drawers
  screens : t.screens = (s.storeEntry i e).screens

theorem written_reply (i : Nat) (e : TableEntry) (code : Byte) (v : Verdict) :
    Written s i e ((s.storeEntry i e).reply code tag v) where
  tables := (reply_within _ code tag v .tables (by decide)).trans (afterWrite_within (s.stored i e) _ i e .tables (by decide))
  sessions := reply_within _ code tag v .sessions (by decide)
  drawers := reply_within _ code tag v .drawers (by decide)
  screens := reply_within _ code tag v .screens (by decide)

namespace Written

/-- Where the write marks or refreshes screens alone, the sessions and the drawers stay. -/
theorem unchanged (h : Written s i e t) (hw : Within [.screens] (s.stored i e) (s.storeEntry i e)) :
    t.sessions = s.sessions ∧ t.drawers = s.drawers :=
  ⟨h.sessions.trans (hw .sessions (by decide)), h.drawers.trans (hw .drawers (by decide))⟩

theorem still (h : Written s i e t) (hw : s.storeEntry i e = s.stored i e) :
    (t.sessions = s.sessions ∧ t.drawers = s.drawers) ∧ t.screens = s.screens :=
  ⟨⟨h.sessions.trans (by rw [hw]; rfl), h.drawers.trans (by rw [hw]; rfl)⟩, h.screens.trans (by rw [hw]; rfl)⟩

/-- The screens of the forms that meet a test are refreshed in full, and the others stay (R16). -/
theorem refreshed {test : Nat → Bool} {p : Nat} {c : Prop} [Decidable c] (h : Written s i e t)
    (hw : s.storeEntry i e = (s.stored i e).refreshForms test) (hp : 1 ≤ p ∧ p ≤ 24)
    (hc : test (s.screen p).form = true ↔ c) :
    if c then t.screen p = { s.screen p with
        dirty := List.range' 1 24, clearPending := true, urgent := (t.screen p).urgent } ∧
      ((t.screen p).urgent = true → (s.screen p).urgent = true)
    else t.screen p = s.screen p := by
  have hscreen : t.screen p = if test (s.screen p).form = true then (s.screen p).refresh (s.tables.store i e)
      else s.screen p :=
    (screen_congr (h.screens.trans (by rw [hw])) p).trans (refreshForms_screen (s := s.stored i e) test hp)
  by_cases htest : test (s.screen p).form = true
  · rw [if_pos htest] at hscreen
    rw [if_pos (hc.mp htest), hscreen]
    exact ⟨Screen.refresh_eq _, Screen.urgent_of_refresh⟩
  · rw [if_neg htest] at hscreen
    rw [if_neg fun hc' => htest (hc.mpr hc')]
    exact hscreen

/-- The rows that show the entry are marked on every screen (R141). -/
theorem marked {f : Screen → Source → Bool} {p : Nat} (h : Written s i e t)
    (hw : s.storeEntry i e = (s.stored i e).onScreens allPositions (fun tb sc => sc.mark tb (f sc)))
    (hp : 1 ≤ p ∧ p ≤ 24) : Marked s t p (f (s.screen p)) := by
  have hscreen : t.screen p = (s.screen p).mark (s.tables.store i e) (f (s.screen p)) := by
    refine (screen_congr (h.screens.trans (by rw [hw])) p).trans ?_
    rw [onScreens_screen _ allPositions_nodup (fun q hq => mem_allPositions.mp hq), if_pos (mem_allPositions.mpr hp)]
    rfl
  exact marked_of (by rw [h.tables]; exact hscreen)

/-- A POSITIONS write: the drawer's serving unit, then the even partner's own drawer (R94, R135, R141). -/
theorem position {a : Option PositionEntry} (h : Written s i (.position a) t) (hi : i ≤ 24) : t.sessions = s.sessions ∧
    (∀ d, d ≤ 24 → t.drawer d =
      if d ≠ i ∨ s.tables.serving i = t.tables.serving i then s.drawer d
      else if t.tables.serving i = true then { s.drawer d with physical := .unknown }
      else { s.drawer d with
        physical := .closed, openAlarm := none, releasePending := false, releaseDelivered := false
        openLong := false, forced := false }) ∧
    (s.tables.ownDrawer (i + 1) ≠ t.tables.ownDrawer (i + 1) →
      (t.screen (i + 1)).alert = (t.drawer (t.tables.ownDrawer (i + 1))).anyAlert ∧
      ∀ r, (t.screen (i + 1)).holds t.tables anyDrawerSource r = true → 1 ≤ r → r ≤ 24 →
        r ∈ (t.screen (i + 1)).dirty) ∧
    ∀ p, 1 ≤ p → p ≤ 24 → p ≠ i + 1 → t.tables.ownDrawer p ≠ i → t.screen p = s.screen p := by
  have hw := positionWritten_within (s.stored i (.position a)) s.tables i
  have hscreen : ∀ p, t.screen p = ((s.stored i (.position a)).positionWritten s.tables i).screen p := screen_congr h.screens
  have hdrawer : ∀ d, t.drawer d = ((s.stored i (.position a)).positionWritten s.tables i).drawer d := drawer_congr h.drawers
  rw [h.tables]
  refine ⟨h.sessions.trans (hw .sessions (by decide)), fun d hd => ?_, fun hown => ?_, fun p _ _ hp hown => ?_⟩
  · rw [hdrawer, positionWritten_drawer]
    exact servingSeen_drawer (s := s.stored i (.position a)) s.tables hd
  · have heven := ownDrawer_changed hown
    have hrange : 1 ≤ i + 1 ∧ i + 1 ≤ 24 := by omega
    rw [hscreen, hdrawer]
    exact positionWritten_screen (s := s.stored i (.position a)) s.tables hrange hown
  · rw [hscreen]
    exact positionWritten_screen_other (s := s.stored i (.position a)) s.tables hp hown

theorem withRole_of {tb : Tables} {x : Session} {n : Nat} {k : TellerEntry} (h : x.teller = some n)
    (hfound : tb.findTeller n = some k) : withRole tb x = { x with role := some k.role } := by
  have hbind : x.teller.bind tb.findTeller = some k := by rw [h, Option.bind_some, hfound]
  unfold withRole
  rw [hbind]

/-- The teller's sessions take the role of the entry (R51). -/
theorem teller {k : TellerEntry} {p : Nat} (h : Written s i (.teller (some k)) t) (hi : i ≤ 63)
    (hfree : tellerFree s.tables i k.id = true) (hp : 1 ≤ p ∧ p ≤ 24) :
    t.session p = (if (s.session p).teller = some k.id then { s.session p with role := some k.role } else s.session p) ∧
      ((s.session p).teller ≠ some k.id → t.screen p = s.screen p) := by
  have hmem : p ∈ allPositions.filter (fun p => (s.session p).teller == some k.id) ↔ (s.session p).teller = some k.id := by
    rw [List.mem_filter, beq_iff_eq]
    exact and_iff_right (mem_allPositions.mpr hp)
  have hsession := copyRoles_session (s := s.stored i (.teller (some k)))
    (allPositions_nodup.filter (fun p => (s.session p).teller == some k.id))
    (fun q hq => mem_allPositions.mp (List.mem_filter.mp hq).1) p
  have hfound := Tables.findTeller_stored hi hfree
  refine ⟨(session_congr h.sessions p).trans (hsession.trans ?_), fun hne => ?_⟩
  · by_cases hteller : (s.session p).teller = some k.id
    · rw [if_pos (hmem.mpr hteller), if_pos hteller]
      exact withRole_of hteller hfound
    · rw [if_neg (fun hc => hteller (hmem.mp hc)), if_neg hteller]
      rfl
  · exact (screen_congr h.screens p).trans (copyRoles_screen_other fun hc => hne (hmem.mp hc))

end Written

end Sys2Proof.Machine.State

namespace Sys2Proof.Proofs

open Sys2Proof.Machine Sys2Proof.Machine.State

/-- Settles O12: the checks passed in their order, the tables read after the store, the reply, and the effects. -/
theorem tableWriteStores : Obligations.TableWriteStores := by
  unfold Obligations.TableWriteStores
  refine ⟨fun content _ hdefined => ?_, fun s tag i x intent content e hindex hintent hsize hwritable hidle hparse hsound hagrees
    hcross hfree => ?_⟩
  · intro value
    have hvalue : ∀ k low high, low ≤ high → clamp low high (num content (2 * k - 1) 2) = value k low high :=
      fun k low high h => clamp_eq h _
    rw [parseContent_params hdefined, ← hvalue 1 _ _ (by decide), ← hvalue 2 _ _ (by decide), ← hvalue 3 _ _ (by decide),
      ← hvalue 4 _ _ (by decide), ← hvalue 5 _ _ (by decide), ← hvalue 6 _ _ (by decide), ← hvalue 7 _ _ (by decide),
      ← hvalue 8 _ _ (by decide), ← hvalue 9 _ _ (by decide), ← hvalue 10 _ _ (by decide), ← hvalue 11 _ _ (by decide)]
    rfl
  have hexec := tableWrite_stores (tag := tag) hindex hintent hsize hwritable hidle hparse hsound hagrees hcross hfree
  have hplace : e.place = x := parseContent_place hparse
  have hstate := s.storeEntry_state i e
  have hwritten := written_reply (s := s) (tag := tag) i e 0x03 (.done (0 :: e.bytes))
  have hreply := reply_state (t := s.storeEntry i e) (tag := tag) 0x03 (.done (0 :: e.bytes))
  refine ⟨_, hexec, ?_, ?_, fun y j hj hne => ?_, fun hroom => ?_, ?_⟩
  · generalize (s.storeEntry i e).reply 0x03 tag (.done (0 :: e.bytes)) = t at hreply ⊢
    rw [hreply]
    generalize s.storeEntry i e = u at hstate ⊢
    rw [hstate]
  · rw [hwritten.tables, ← hplace]
    exact Tables.read_store_same (by rw [hplace]; exact hindex)
  · rw [hwritten.tables]
    exact Tables.read_store_kept hindex hplace hj hne
  · have hport : (s.storeEntry i e).port = s.port := storeEntry_within s i e .port (by decide)
    have hcounters : (s.storeEntry i e).counters = s.counters := storeEntry_within s i e .counters (by decide)
    have hanswer := reply_done (s := s.storeEntry i e) (by rw [hport]; exact hroom) 0x03 tag (0 :: e.bytes)
    rw [hanswer]
    refine ⟨(s.storeEntry i e).doneReply 0x03 tag (0 :: e.bytes), ?_, hcounters, rfl, rfl, rfl, rfl⟩
    unfold withReply
    rw [hport]
    rfl
  · generalize (s.storeEntry i e).reply 0x03 tag (.done (0 :: e.bytes)) = t at hwritten ⊢
    intro unchanged refreshed
    cases e with
    | form a =>
      exact ⟨hwritten.unchanged (refreshForms_within (s.stored i (.form a)) (fun f => f == i)), fun p h1 h24 =>
        hwritten.refreshed (test := fun f => f == i) rfl ⟨h1, h24⟩ beq_iff_eq⟩
    | field a =>
      exact ⟨hwritten.unchanged (refreshForms_within (s.stored i (.field a)) _), fun p h1 h24 =>
        hwritten.refreshed (test := formCovers (s.tables.store i (.field a)) i) rfl ⟨h1, h24⟩ formCovers_iff⟩
    | text a =>
      exact ⟨hwritten.unchanged (touch_within (s.stored i (.text a)) _ _), fun p h1 h24 =>
        hwritten.marked (f := fun _ y => y == .text i) rfl ⟨h1, h24⟩⟩
    | message a =>
      refine ⟨hwritten.unchanged (touch_within (s.stored i (.message a)) _ _), fun p h1 h24 => ?_⟩
      have hmarked := hwritten.marked (f := fun _ => outcomeSource) rfl ⟨h1, h24⟩
      have hsources : outcomeSource = fun y => y == .message || y == .txnState := by
        funext y
        cases y <;> rfl
      rwa [hsources] at hmarked
    | currency a =>
      refine ⟨hwritten.unchanged (onScreens_within (s.stored i (.currency a)) _ _), fun p h1 h24 => ?_⟩
      have hmarked := hwritten.marked (f := fun sc => currencySource i sc.view.cur) rfl ⟨h1, h24⟩
      refine Eq.mp (congrArg (Marked s t p) ?_) hmarked
      funext y
      cases y <;> rfl
    | position a =>
      have hi : i ≤ 24 := by
        have hsection : x = .positions := hplace.symm
        subst hsection
        have hrange : 1 ≤ i ∧ i ≤ 24 := by simpa [Section.hasIndex, inRange] using hindex
        exact hrange.2
      exact hwritten.position hi
    | teller a =>
      cases a with
      | none => exact hwritten.still rfl
      | some k =>
        have hi : i ≤ 63 := by
          have hsection : x = .tellers := hplace.symm
          subst hsection
          simpa [Section.hasIndex, inRange] using hindex
        have hdrawers : Within [.sessions, .screens] (s.stored i (.teller (some k))) (s.storeEntry i (.teller (some k))) :=
          Within.fold _ (fun t p => copyRole_within t p) _ _
        exact ⟨hwritten.drawers.trans (hdrawers .drawers (by decide)), fun p h1 h24 => hwritten.teller hi hagrees ⟨h1, h24⟩⟩
    | params a => exact hwritten.still rfl
    | rate a => exact hwritten.still rfl
    | code a => exact hwritten.still rfl
    | layout a => exact hwritten.still rfl
    | surveyMask a => exact hwritten.still rfl

end Sys2Proof.Proofs
end
